-- ==== Sys2Proof/Word.lean ====
section
/-!
DEFINITION. The word types of the Folend and their plainest arithmetic.
-/

namespace Sys2Proof

/-- A byte of memory. -/
abbrev Byte := BitVec 8
/-- A scalar register, an address or a host port register (64 bits). -/
abbrev Word := BitVec 64
/-- One lane of a vector register (R3: 384 bytes for 96 lanes). -/
abbrev Lane32 := BitVec 32
/-- A set of the 96 lanes of a course, bit L for lane L (R10). -/
abbrev Mask := BitVec 96

/-- Lanes of a course (R10). -/
def lanes : Nat := 96
/-- All 96 lanes. -/
def Mask.all : Mask := BitVec.allOnes 96
/-- Lane `l` belongs to the set. -/
def Mask.has (m : Mask) (l : Nat) : Bool := m.getLsbD l
/-- The set that holds lane `l` alone. -/
def Mask.one (l : Nat) : Mask := BitVec.ofNat 96 (1 <<< l)

end Sys2Proof
end

