-- ==== Sys2Proof/Config.lean ====
section
/-!
DEFINITION. What an implementation fixes (figures of R1 to R5) and the free values the manual
leaves open: a free value is `opaque`, so nothing can be proved of the value it has.
-/

namespace Sys2Proof.Config

/-- R1, R3: clusters of the device. -/
def clusters : Nat := 12
/-- R1: cores of a cluster. -/
def coresPerCluster : Nat := 96
/-- R3: cores of the device. -/
def cores : Nat := 1152
/-- R3: vector registers of a quarter. -/
def quarterRegs : Nat := 2048
/-- R3: course slots of a quarter. -/
def quarterCourses : Nat := 16
/-- R136: quoin contexts of a cluster. -/
def quoinContexts : Nat := 192
/-- R136: quoin cores of a cluster. -/
def quoinCores : Nat := 24
/-- R4: bytes of scratchpad of a core under SRAM split 0, 1 and 2. -/
def scratchBytes (split : Nat) : Nat :=
  if split = 0 then 1408 * 1024 else if split = 1 then 1152 * 1024 else 896 * 1024
/-- R345: handlers a core runs at once. -/
def handlersPerCore : Nat := 4
/-- R37: queues. -/
def queues : Nat := 4096
/-- R50: wait slots of the scheduler core. -/
def waitSlots : Nat := 512
/-- What a byte of memory that nothing has written reads as (log 1). DESIGN CHOICE. -/
def memFill : Byte := 0

/-- Free value: which of several steps that may come next comes next, at the tick given (log 2). -/
opaque order : Nat → Nat
/-- Free value: the energy in µJ a meter has counted over an interval (R21, log 9): meter number, tick. -/
opaque meter : Nat → Nat → Nat
/-- Free value: lines that page walks, instruction fetches and uncached accesses of a launch moved at a meter in an interval (R21, log 9): meter
number, launch, tick. -/
opaque walkLines : Nat → Nat → Nat → Nat
/-- Free value: the result of an approximate function (R184) before its bound is applied:
function code (OPC), operand bits (log 10). -/
opaque approx : Nat → BitVec 32 → BitVec 32
/-- Free value: first byte of the 1 GiB pool refuge area that firmware reserves, counted in GiB from 0
of bonded DRAM (R215, log 8). -/
opaque refugeGiB : Fin 432
/-- Free value: the two signatures over a message (R418, log 11): the message's words. -/
opaque signature : List Nat → Nat × Nat
/-- Free value: whether both signatures of an image or record verify (R413, R417, log 11). -/
opaque verifies : Nat → Bool
/-- Free value: what the identity statement holds (R418, log 11): the serial number and the two keys. -/
opaque identity : List Nat
/-- Free value: the configuration records in the management flash (R417, log 11), the current set and the previous one:
setting, value, and the record's number for `verifies`. Setting d is SLEWTAB of base die d, 8 + k the pool of cluster k. -/
opaque records : Bool → List (Nat × Nat × Nat)
/-- Free value: the digests of the certificate (R418, log 11). -/
opaque digests : Nat × Nat
/-- Free value: the cause code of a boot step's failure (R409, log 11): step, unit, boot. -/
opaque bootCause : Nat → Nat → Nat → BitVec 32
/-- Free value for a result no rule states, at the count given (log 2). -/
opaque freeValue : Nat → BitVec 64

/-- Free value: the old D that VADDS, VBFI and VPACK see under write-back suppression, where no register is read as D
(R187, log 16): the instruction, its type, the lane and the other operands. -/
opaque suppressed : List Nat → BitVec 64

/-- Free value: by how much a lease outlasts the load it is given for (R286, log 3): the count given. -/
opaque lease : Nat → Nat
/-- Free value: which of two values that a rule allows is taken (R269, R299, R300, log 3): the count given, the byte. -/
opaque pick : Nat → Nat → Bool

/-- Free value: whether the translations of a step use a held page-table entry (R220, log 14): tick, place of the entry. -/
opaque useWalk : Nat → Nat → Bool

/-- R215: base of the pool refuge area. -/
def refugeBase : Nat := refugeGiB.val * 0x40000000

end Sys2Proof.Config
end

