-- ==== Sys2Proof/Syntax.lean ====
section
/-!
DEFINITION. The instructions of the Turide set (R68 to R89) as one record of operand fields a format,
and the device's events: `Instr` has one constructor for each row of the opcode table.
-/

namespace Sys2Proof

/-- Element types, the codes 0 to 14 of TY (R165). -/
inductive ElemTy where
  | i32 | n32 | i64 | n64 | f32 | bf16x2 | f16x2 | e4m3 | e5m2 | c8 | c6 | e8m0 | i16x2 | i8x4 | b32
deriving DecidableEq, Repr, Inhabited

/-- Guard (R70, R71): PRED and PN. -/
structure Guard where
  pred : BitVec 4
  neg : Bool
deriving DecidableEq, Repr, Inhabited

/-- Second source of a scalar instruction (R73, R75): B in the 64-bit form, B in the widened form,
or IMM32. -/
inductive SSrc where
  | reg (n : BitVec 6)
  | regWide (n : BitVec 6)
  | imm (v : BitVec 32)
deriving DecidableEq, Repr, Inhabited

/-- S3 and SI (R75), S class. -/
structure S3 where
  d : BitVec 6
  a : BitVec 6
  b : SSrc
  ty : ElemTy
  sub : BitVec 5
deriving DecidableEq, Repr, Inhabited

/-- S3 of the G class opcodes 0x30 to 0x37 (R161). -/
structure P3 where
  wide : Bool
  g : Guard
  d : BitVec 6
  a : BitVec 6
  b : BitVec 6
  sub : BitVec 5
deriving DecidableEq, Repr, Inhabited

/-- BR (R76). HOFF is there in a BRV with EJ = 1 only. -/
structure Br where
  wide : Bool
  off : BitVec 32
  p : BitVec 4
  n : Bool
  tok : BitVec 3
  s : BitVec 6
  u : Bool
  ej : Option (BitVec 32)
deriving DecidableEq, Repr, Inhabited

/-- V3 (R74). A and B keep their 12 bits (R72); `Operand.src` reads them. -/
structure V3 where
  wide : Bool
  g : Guard
  ws : Bool
  d : BitVec 11
  a : BitVec 12
  b : BitVec 12
  sub : BitVec 5
  ty : ElemTy
  mod : BitVec 4
deriving DecidableEq, Repr, Inhabited

/-- V4 (R74). -/
structure V4 where
  g : Guard
  ws : Bool
  d : BitVec 11
  a : BitVec 12
  b : BitVec 12
  c : BitVec 12
  sub : BitVec 5
  ty : ElemTy
  mod : BitVec 4
  imm : BitVec 20
deriving DecidableEq, Repr, Inhabited

/-- VI (R74). -/
structure Vi where
  g : Guard
  ws : Bool
  d : BitVec 11
  a : BitVec 12
  sub : BitVec 5
  ty : ElemTy
  mod : BitVec 4
  imm : BitVec 32
deriving DecidableEq, Repr, Inhabited

/-- MEM (R77). -/
structure Mem where
  g : Guard
  d : BitVec 11
  base : BitVec 6
  idx : BitVec 11
  shift : BitVec 2
  size : BitVec 3
  ty : ElemTy
  as : BitVec 2
  scope : BitVec 3
  hint : BitVec 2
  ord : BitVec 2
  sub : BitVec 5
  off : BitVec 20
  ixe : Bool
deriving DecidableEq, Repr, Inhabited

/-- MX (R78). -/
structure Mx where
  g : Guard
  d : BitVec 11
  a : BitVec 11
  ha : BitVec 4
  hb : BitVec 4
  hc : BitVec 4
  ts : BitVec 4
  shape : BitVec 2
  sub : BitVec 5
  ty : ElemTy
  mod : BitVec 4
  s : BitVec 6
  imm : BitVec 32
deriving DecidableEq, Repr, Inhabited

/-- CP (R79). -/
structure Cp where
  g : Guard
  db : BitVec 6
  das : BitVec 2
  sb : BitVec 6
  sas : BitVec 2
  sw : BitVec 6
  dstr : BitVec 6
  sstr : BitVec 6
  rows : BitVec 12
  rowb : BitVec 16
  idx : BitVec 11
  sub : BitVec 5
  ty : ElemTy
  hint : BitVec 2
  scope : BitVec 3
deriving DecidableEq, Repr, Inhabited

/-- SYS (R80). -/
structure Sys where
  wide : Bool
  d : BitVec 6
  a : BitVec 6
  b : BitVec 6
  x : BitVec 12
  imm : BitVec 16
deriving DecidableEq, Repr, Inhabited

/-- One half of a PAIR (R82). -/
structure Half where
  op7 : BitVec 7
  g : Guard
  ws : Bool
  d : BitVec 11
  a : BitVec 12
  b : BitVec 12
  ty : ElemTy
  mod : BitVec 4
deriving DecidableEq, Repr, Inhabited

/-- The party whose shadow latches replay (R128, R389). -/
inductive ReplayUnit where
  | quarter (q : Nat)
  | quoin (i : Nat)
deriving DecidableEq, Repr, Inhabited

/-- Who waits on an access (R354): a split of a course, an ejected lane, a copy, an engine operation. -/
inductive Party where
  | course (c k : Nat)
  | lane (q : Nat)
  | copy (i : Nat)
  | op (i : Nat)
deriving DecidableEq, Repr, Inhabited

/-- A waiter on marks (R304): a split, an ejected lane, or a queue. -/
inductive Waiter where
  | course (c k : Nat)
  | lane (q : Nat)
  | queue (q : Nat)
deriving DecidableEq, Repr, Inhabited

/-- Errors corrected in a unit of their class, and how many (R389, R416). -/
structure Corrections where
  unit : Nat
  count : Nat
deriving DecidableEq, Repr, Inhabited

/-- State damaged by an uncorrectable error (R384, R388). -/
inductive Damage where
  | vreg (c reg word : Nat)
  | sreg (c reg : Nat)
  | laneReg (q reg : Nat)
  | laneScalar (q reg : Nat)
  | memory (granule : Nat)
  | scratch (b word : Nat)
  /-- A granule of a line in L2, or in the cache of a core or quoin core. -/
  | cached (granule : Nat)
  | l1 (cache granule : Nat)
  /-- An entry of the operand cache or a line of the instruction cache of a core or quoin core. -/
  | parity (cache : Nat)
  | blockState (b : Nat)
  | saveArea (ctx : Nat)
  /-- State that is shared (row 6 of R388): that of an L2 slice or of none, and the cores that launches with work there use. -/
  | shared (slice : Option Nat) (cores : List Nat)
  | scheduler
deriving DecidableEq, Repr, Inhabited

/-- How a way of a unit's boot step goes (R409, R410): it passes, it fails, or a reset cuts it off. -/
inductive Trial where
  | pass | fail | cut
deriving DecidableEq, Repr, Inhabited

/-- How one unit of a boot step goes (R408, R409): step, unit, the standard way, the alternative way. -/
structure BootUnit where
  step : Nat
  unit : Nat
  std : Trial
  alt : Trial
deriving DecidableEq, Repr, Inhabited

/-- What a peer sends over a link (R405, R407): bytes of a descriptor with their offset, and whether they are its last. -/
structure PeerMsg where
  off : Nat
  bytes : List Byte
  last : Bool := true
deriving DecidableEq, Repr, Inhabited

/-- What the owner of a line outside the device does with it (R401, R395): takes the line `line` out of the device's caches,
then stores these bytes to it. -/
structure TakeBack where
  line : Nat
  stores : List (Nat × Byte) := []
deriving DecidableEq, Repr, Inhabited

/-- One constructor for each row of the opcode table: first the instructions in opcode order, then the
events. -/
inductive Instr where
  | sadd (o : S3) | ssub (o : S3) | smul (o : S3) | smulh (o : S3) | sdiv (o : S3) | srem (o : S3)
  | sand (o : S3) | sor (o : S3) | sxor (o : S3) | sshl (o : S3) | sshr (o : S3) | srot (o : S3)
  | smin (o : S3) | smax (o : S3) | sbitc (o : S3)
  | smov (o : S3) | smovi (o : S3) | sset (o : S3) | ssel (o : S3) | saddr (o : S3) | sext (o : S3)
  | sbfx (o : S3) | sbfi (o : S3) | sldp (o : S3)
  | jmp (o : Br) | jmpr (o : Br) | call (o : Br) | callr (o : Br) | ret (o : Br) | brs (o : Br)
  | brv (o : Br) | bru (o : Br) | regang (o : Br) | loopd (o : Br) | nop (o : Br)
  | plog (o : P3) | pmov (o : P3) | pcnt (o : P3) | pfirst (o : P3) | part (o : P3) | gset (o : P3)
  | grd (o : P3) | lexit (o : P3) | ejctl (o : S3)
  | vadd (o : V3) | vsub (o : V3) | vmul (o : V3) | vmulh (o : V3) | vmad (o : V4) | vdiv (o : V3)
  | vrem (o : V3) | vand (o : V3) | vor (o : V3) | vxor (o : V3) | vshl (o : V3) | vshr (o : V3)
  | vrot (o : V3) | vmin (o : V3) | vmax (o : V3) | vabs (o : V3) | vbitc (o : V3) | vbfx (o : V4)
  | vbfi (o : V4) | vaddc (o : V4) | vadds (o : V3) | vcmp (o : V3) | vsel (o : V4) | vmov (o : V3)
  | vmovi (o : Vi) | vbrd (o : V3) | vext (o : V3) | vsys (o : V3)
  | vfadd (o : V3) | vfsub (o : V3) | vfmul (o : V3) | vfma (o : V4) | vfmin (o : V3) | vfmax (o : V3)
  | vfclass (o : V3) | vfdiv (o : V3) | vfsqrt (o : V3) | vfrcp (o : V3) | vfrsq (o : V3)
  | vfexp2 (o : V3) | vflog2 (o : V3) | vfsin (o : V3) | vfcos (o : V3) | vftanh (o : V3)
  | vfscale (o : V3) | vfrnd (o : V3) | vdot2 (o : V4) | vdot4 (o : V4)
  | vcvt (o : V3) | vpack (o : V3) | vunpk (o : V3) | ffrd (o : S3) | ffclr (o : S3)
  | vshfl (o : V4) | vshfx (o : V4) | vbcast (o : V4) | vvote (o : V4) | vmatch (o : V4) | vred (o : V4)
  | vscan (o : V4) | vcmpr (o : V4)
  | ld (o : Mem) | st (o : Mem) | lds (o : Mem) | sts (o : Mem) | atom (o : Mem) | atoms (o : Mem)
  | cpy (o : Cp) | cpyg (o : Cp) | bseal (o : Sys) | bwait (o : Sys) | swinit (o : Sys) | fence (o : Sys)
  | cpf (o : Mem) | cwb (o : Mem) | cinv (o : Mem) | icinv (o : Sys)
  | hset (o : Mx) | hgen (o : Sys) | mma (o : Mx) | mmas (o : Mx) | mzero (o : Mx) | mcvt (o : Mx)
  | mstat (o : Sys) | msclr (o : Sys) | ocfence (o : Sys)
  | mkinit (o : Sys) | mkset (o : Sys) | mkadd (o : Sys) | waitm (o : Sys) | swait (o : Sys)
  | bar (o : Sys) | bara (o : Sys) | barw (o : Sys) | promote (o : Sys) | clsrd (o : Sys)
  | yield (o : Sys) | sleep (o : Sys)
  | svc (o : Sys) | trap (o : Sys) | tret (o : Sys) | srd (o : Sys) | swr (o : Sys) | brk (o : Sys)
  | ckill (o : Sys) | ckpt (o : Sys)
  | pair (h0 h1 : Half) | pguard (w : BitVec 64) | reservedOpcode (w : BitVec 64)
  -- events of courses and ejected lanes
  | trapEntry (c : Nat) | watchdog (c : Nat) | passnChange (cluster n : Nat)
  | shadowLatchReplay (u : ReplayUnit) | ejectLaneStart (q : Nat) | laneRejoin (q : Nat)
  | ejectSoftPark (c t : Nat) | ejectOverdue (c t : Nat) | courseRestore (c : Nat)
  | sleepExpire (p : Party) | checkpointCopy (c reg : Nat) | pageFaultRecord (p : Party)
  | pageFaultPark (c : Nat)
  -- matrix engine, limiter and copy engine
  | tileFetchDone (i tile : Nat) | mmaStart (core : Nat) | mmaComplete (core : Nat)
  | mzeroComplete (core : Nat) | mcvtComplete (core : Nat) | slewStep (die : Nat)
  | copyChunkDone (i chunk : Nat) | copyChunkFault (i chunk : Nat)
  -- blocks, launches and placement
  | blockStart (b : Nat) | blockEnd (b : Nat) | launchRetire (l : Nat) | faultLogRecord (i : Nat)
  | placementAttempt (i : Nat) | placementRetry (i : Nat) | rotationAttempt (cluster : Nat)
  | clusterReassign (cluster pool : Nat) | clusterOppointReady (cluster : Nat)
  | hotSpotMigration (b core : Nat) | energyAttribution | energyCharge | quotaPeriodBoundary (ctx : Nat)
  -- queues, packets and leases
  | packetRead (q : Nat) | launchPacket (q : Nat) | waitmarks (q : Nat) | setmark (q : Nat)
  | regionInstall (q : Nat) | regionUpdate (q : Nat) | regionRemove (q : Nat)
  | regionRemoveComplete (r : Nat) | leaseRequest (q : Nat) | leaseRelease (q : Nat)
  | nopPacket (q : Nat) | leaseGrant (i : Nat) (grant : Bool) | leaseRevoke (i : Nat) | leaseEnd (i : Nat)
  | markReexamine (w : Waiter) | waitPark (q : Nat) | queueDeadlock (qs : List Nat)
  | queueEnable (q : Nat) (v : Word) | queueDisable (q : Nat) (v : Word) | queueKick (q : Nat) (v : Word)
  | queueErrorClear (q : Nat)
  -- host port registers and contexts
  | registerWrite (off : Nat) (v : Word) | tlbInvalidate (v : Word) | tlbInvalidateDone
  | contextCreate (n : Nat) | contextSuspend (n : Nat) | suspendComplete (n : Nat)
  | contextResume (n : Nat) | contextDestroy (n : Nat) | contextScb (n : Nat) | contextLost (n : Nat)
  | pfresp (ctx idx : Nat) | svcdone (ctx slot : Nat)
  -- scheduler core and firmware while running
  | schedulerFailover | leafUpdateCluster (cluster : Nat) | leafDrainTimeout (cluster : Nat) | schedulerHandover
  | coreMapOut (core : Nat) | dramRowSpare (ch row : Nat) | l2SliceDegrade (slice : Nat) | quarterRecalibrate (q : Nat)
  | wholeContextSwitch (mode : Nat)
  -- pool, host memory and peers
  | poolResume | poolDrop | refugeWriteback (all : Bool) (i : Nat) | refugeDiscard (all : Bool) (i : Nat)
  | poolLinkLoss (cause : Nat) | refugeMoveDone | poolPortChange (port : Nat) (up : Bool)
  | bisnp (o : TakeBack) | poolWindowEnable (w : Nat) (v : Word) | poolWindowDisable (w : Nat) (v : Word)
  | hostDramAccess (pa n : Nat) (write : Option (List Byte))
  | channelEnable (ch : Nat) (v : Word) | channelErrorClear (ch : Nat) | channelKick (ch : Nat) (v : Word)
  | channelSend (ch : Nat) | channelReceive (ch : Nat) (m : Option PeerMsg)
  | channelStateMessage (ch : Nat) (enable error : Bool) (size : Word)
  | peerLinkDown (l : Nat) | linkFlitRetry (l : Nat) | linkLaneDegrade (l : Nat)
  -- reliability
  | eccCorrected (cls : Nat) (n : Corrections) | eccUncorrectable (cls : Nat) (d : Damage) | dramScrub (ch : Nat)
  | l2Scrub (slice : Nat)
  -- boot, updates and management
  | boot (us : List BootUnit) | clearMapOut (step unit : Nat) | requestUpdate
  | passComponentTable (cs : List Nat) | updateComponent (comp image : Nat)
  | transferComplete (comp : Nat) | verifyComplete (comp version : Nat) | applyComplete (comp : Nat)
  | activateFirmware | getStatus | cancelUpdate
  | channelMapOut (ch : Nat) | getDigests | getCertificate | challenge (nonce : Nat)
  | getMeasurements | saveAreaTailAdvance (ctx ring : Nat) (v : Word) | hostSnoop (o : TakeBack)
deriving DecidableEq, Repr, Inhabited

end Sys2Proof
end

