-- ==== Sys2Proof/Machine/Legal.lean ====
section
/-!
DEFINITION. Which operand fields an instruction's entry allows (R71 to R81 and the entries of R144 to
R371): everything that is not allowed raises ILLEGAL_OP, and a PAIR has R83's own rules beside.
-/

namespace Sys2Proof.Machine

open ElemTy

/-- The TY code of a type (R165). -/
def tyCode : ElemTy → BitVec 4
  | i32 => 0 | n32 => 1 | i64 => 2 | n64 => 3 | f32 => 4 | bf16x2 => 5 | f16x2 => 6 | e4m3 => 7
  | e5m2 => 8 | c8 => 9 | c6 => 10 | e8m0 => 11 | i16x2 => 12 | i8x4 => 13 | b32 => 14

/-- The type of a TY code; code 15 is reserved (R165). -/
def tyOf (n : Nat) : Option ElemTy :=
  match n with
  | 0 => some i32 | 1 => some n32 | 2 => some i64 | 3 => some n64 | 4 => some f32
  | 5 => some bf16x2 | 6 => some f16x2 | 7 => some e4m3 | 8 => some e5m2 | 9 => some c8
  | 10 => some c6 | 11 => some e8m0 | 12 => some i16x2 | 13 => some i8x4 | 14 => some b32
  | _ => none

/-- A 64-bit type: one element in a register pair (R166). -/
def is64 (t : ElemTy) : Bool := t == i64 || t == n64

/-- Elements of a type in one lane value (R165, R198). -/
def tyElems : ElemTy → Nat
  | i32 | n32 | i64 | n64 | f32 | b32 => 1
  | bf16x2 | f16x2 | i16x2 => 2
  | e4m3 | e5m2 | c8 | c6 | e8m0 | i8x4 => 4

/-- Types of R145, and the packed integers beside them (R190). -/
def tyScalar : List ElemTy := [i32, n32, i64, n64]
def tyInt : List ElemTy := [i32, n32, i64, n64, i16x2, i8x4]
def tyBits : List ElemTy := [n64, b32]
def tyFloat : List ElemTy := [f32, bf16x2, f16x2]
def tyNarrow : List ElemTy := [e4m3, e5m2, c8, c6]
def tyMatrix : List ElemTy := [bf16x2, f16x2, e4m3, e5m2, c8, c6]

/-- Any rounding mode of R172 with either SAT. -/
def modAny : List Nat := [0, 1, 2, 3, 4, 8, 9, 10, 11, 12]
/-- SAT alone (R190). -/
def modSat : List Nat := [0, 8]
def modNone : List Nat := [0]

/-! ### Scalar and flow -/

/-- R144: the forms and codes of a scalar entry. `aUsed` and `dUsed` say whether the entry has the field. -/
def s3Legal (o : S3) (tys : List ElemTy) (subs : Nat) (aUsed : Bool := true) (dUsed : Bool := true)
    (immForm regForm : Bool := true) : Bool :=
  tys.contains o.ty && decide (o.sub.toNat < subs) && (aUsed || o.a == 0) && (dUsed || o.d == 0)
    && (match o.b with
        | .imm _ => immForm
        | .reg _ | .regWide _ => regForm)

/-- B holds zero in a register form. -/
def s3NoB (o : S3) : Bool :=
  match o.b with
  | .reg n | .regWide n => n == 0
  | .imm _ => true

/-- R151: the fields a flow entry marks; the others are zero. -/
def brLegal (o : Br) (off s p n u tok : Bool) : Bool :=
  (off || o.off == 0) && (s || o.s == 0) && (p || o.p == 0) && (n || !o.n) && (u || !o.u)
    && (tok || o.tok == 0) && o.ej.isNone

/-- R161: predicate and group operands lie in the low bits of their fields. -/
def lowBits (x : BitVec n) (k : Nat) : Bool := decide (x.toNat < 2 ^ k)

/-! ### Vector -/

/-- R72: a vector source field. A latch has bits 10:2 zero and no 64-bit type; a pair starts at an even
register (R166). -/
def srcLegal (t : ElemTy) (f : BitVec 12) : Bool :=
  if f.getLsbD 11 then !is64 t && decide (f.toNat % 2048 < 4)
  else !is64 t || f.toNat % 2 == 0

/-- R166: a vector destination. -/
def dstLegal (t : ElemTy) (d : BitVec 11) : Bool := !is64 t || d.toNat % 2 == 0

/-- R71: WS = 1 goes with a zero destination field, a 32-bit destination, and only where allowed. -/
def wsLegal (ok ws : Bool) (t : ElemTy) (d : BitVec 11) : Bool := !ws || (ok && !is64 t && d == 0)

/-- An element-wise V3 entry (R188). -/
def v3Legal (o : V3) (tys : List ElemTy) (mods : List Nat) (unary : Bool := false) (subs : Nat := 1) : Bool :=
  tys.contains o.ty && mods.contains o.mod.toNat && decide (o.sub.toNat < subs) && srcLegal o.ty o.a
    && (if unary then o.b == 0 else srcLegal o.ty o.b) && dstLegal o.ty o.d && wsLegal true o.ws o.ty o.d

/-- The fields of an element-wise V4 entry but C and IMM20. -/
def v4Legal (o : V4) (tys : List ElemTy) (mods : List Nat) (ws : Bool := true) (unary : Bool := false)
    (subs : Nat := 1) : Bool :=
  tys.contains o.ty && mods.contains o.mod.toNat && decide (o.sub.toNat < subs) && srcLegal o.ty o.a
    && (if unary then o.b == 0 else srcLegal o.ty o.b) && dstLegal o.ty o.d && wsLegal ws o.ws o.ty o.d

/-- R192: control of a bit-field instruction. -/
def bitFieldLegal (o : V4) : Bool :=
  if o.sub == 0 then o.c == 0 && lowBits o.imm 13 else srcLegal o.ty o.c && o.imm == 0

/-- R193: VCMP. -/
def vcmpLegal (o : V3) : Bool :=
  [i32, n32, i64, n64, f32].contains o.ty && o.mod == 0 && decide (o.sub.toNat < 8)
    && (decide (o.sub.toNat < 6) || o.ty == f32) && srcLegal o.ty o.a && srcLegal o.ty o.b
    && lowBits o.d 4 && !o.ws

/-- R198: VCVT, with TY the destination and SUB the source type. -/
def vcvtLegal (o : V3) : Bool :=
  match tyOf o.sub.toNat with
  | none => false
  | some src =>
    src != b32 && o.ty != b32 && modAny.contains o.mod.toNat && dstLegal o.ty o.d
      && srcLegal src o.a && !(is64 o.ty && o.a.getLsbD 11)
      && decide (o.b.toNat < max (max 1 (tyElems o.ty / tyElems src)) (tyElems src / tyElems o.ty))
      && wsLegal true o.ws o.ty o.d

/-- R199: VPACK and VUNPK. -/
def vpackLegal (o : V3) : Bool :=
  o.mod == 0 && srcLegal o.ty o.a && srcLegal o.ty o.b && wsLegal true o.ws o.ty o.d
    && (match o.ty with
        | .i16x2 => o.sub == 0
        | .i8x4 => decide (o.sub.toNat < 2)
        | _ => false)
def vunpkLegal (o : V3) : Bool :=
  o.mod == 0 && srcLegal o.ty o.a && o.b == 0 && !o.ws
    && (match o.ty with
        | .i16x2 => decide (o.sub.toNat < 2)
        | .i8x4 => decide (o.sub.toNat < 4)
        | _ => false)

/-! ### Collectives -/

/-- Fields a collective has in common (R201): the group in IMM20 bits 2:0, δ in bits 9:3 where `delta`. -/
def collLegal (o : V4) (tys : List ElemTy) (subs : List Nat) (delta : Bool) : Bool :=
  tys.contains o.ty && subs.contains o.sub.toNat && o.mod == 0 && !o.ws
    && lowBits o.imm (if delta then 10 else 3)

/-- R203: VSHFL and VSHFX. -/
def shuffleLegal (o : V4) (fallback : Bool) : Bool :=
  collLegal o tyBits [0, 1, 2, 3] (o.sub != 0) && srcLegal o.ty o.a && dstLegal o.ty o.d
    && (if o.sub == 0 then (if is64 o.ty then !o.b.getLsbD 11 else srcLegal b32 o.b) else o.b == 0)
    && (if fallback then srcLegal o.ty o.c else o.c == 0)

/-- R204: VVOTE and VMATCH. -/
def vvoteLegal (o : V4) : Bool :=
  collLegal o [i32] [0, 1, 2, 3] false && lowBits o.a 4 && o.b == 0 && o.c == 0
    && (decide (2 ≤ o.sub.toNat) || lowBits o.d 4)
def vmatchLegal (o : V4) : Bool :=
  collLegal o tyBits [0, 1] false && srcLegal o.ty o.a && o.b == 0 && o.c == 0
    && (if o.sub == 1 then lowBits o.d 4 else true)

/-- R205: operation and type of VRED and VSCAN. -/
def reduceLegal (o : V4) (subs : List Nat) : Bool :=
  collLegal o (if o.sub.toNat % 8 < 3 then [i32, n32, i64, n64, f32] else tyBits) subs false
    && srcLegal o.ty o.a && dstLegal o.ty o.d && o.b == 0 && o.c == 0

/-! ### Memory -/

/-- R77, R233: the address fields; a scalar form's index is a scalar register. -/
def addrLegal (o : Mem) (scalar : Bool) : Bool :=
  decide (o.as.toNat < 3) && (o.ixe || (o.idx == 0 && o.shift == 0))
    && (!scalar || (lowBits o.idx 6 && lowBits o.d 6))

/-- R240: ORD and SCOPE of a load (acquire) or a store (release). -/
def ordLegal (o : Mem) (code : Nat) : Bool :=
  (o.ord == 0 && o.scope == 0) || (o.ord.toNat == code && decide (o.scope.toNat < 6))

/-- R236, R234: forms of LD and ST. -/
def ldstLegal (o : Mem) (code : Nat) : Bool :=
  addrLegal o false && ordLegal o code && o.sub == 0
    && (match o.ty with
        | .i32 | .n32 => decide (o.size.toNat < 2)
        | .b32 => o.size == 2 || (o.size == 3 && o.d.toNat % 2 == 0) || (o.size == 4 && o.d.toNat % 4 == 0)
        | .i64 | .n64 => o.size == 3 && o.d.toNat % 2 == 0
        | .f32 | .bf16x2 | .f16x2 => o.size == 2
        | _ => false)

/-- R239: LDS and STS. -/
def ldsstsLegal (o : Mem) (code : Nat) : Bool :=
  addrLegal o true && ordLegal o code && o.sub == 0 && [i64, n64].contains o.ty && decide (o.size.toNat < 4)
    && o.g == ⟨0, false⟩

/-- R243, R244: operation, type and size of an atomic. -/
def atomLegal (o : Mem) (scalar : Bool) : Bool :=
  let op := o.sub.toNat % 16
  addrLegal o scalar && decide (o.ord.toNat < 3) && decide (o.scope.toNat < 6) && o.hint == 0
    && (if op < 3 then tyScalar.contains o.ty
        else if op < 8 then [n32, n64].contains o.ty else op == 8 && o.ty == f32)
    && o.size == (if is64 o.ty then 3 else 2)
    && (if scalar then o.g == ⟨0, false⟩ && (op != 7 || decide (o.d.toNat ≤ 62))
        else !is64 o.ty || (if op == 7 then o.d.toNat % 4 == 0 else o.d.toNat % 2 == 0))

/-- R255: cache operations. -/
def cacheOpLegal (o : Mem) (subs : Nat) (hint : Bool) : Bool :=
  addrLegal o false && o.as == 0 && o.d == 0 && o.ty == i32 && o.size == 0 && o.ord == 0 && o.scope == 0
    && decide (o.sub.toNat < subs) && (hint || o.hint == 0)

/-- R247, R79: copies. -/
def cpLegal (o : Cp) (gather : Bool) : Bool :=
  decide (o.das.toNat < 3) && decide (o.sas.toNat < 3) && o.rows != 0 && o.rowb != 0
    && decide (o.scope.toNat < 6)
    && (o.sub == 0 && o.ty == i32 || o.sub == 1 && tyFloat.contains o.ty)
    && (gather || (o.idx == 0 && o.g == ⟨0, false⟩))

/-! ### SYS and MX -/

/-- R80, R81: the fields a SYS entry uses; the others are zero. -/
def sysLegal (o : Sys) (d a b imm : Bool) (xs : Nat → Bool) : Bool :=
  (d || o.d == 0) && (a || o.a == 0) && (b || o.b == 0) && (imm || o.imm == 0) && xs o.x.toNat

/-- R316: IMM = 1 requires the register field zero and IMM = 0 requires IMM16 zero. -/
def immLegal (immBit : Bool) (r : BitVec 6) (imm : BitVec 16) : Bool := if immBit then r == 0 else imm == 0

/-- R343: the registers SRD reads. -/
def stateRegs : List Nat :=
  [0x000, 0x001, 0x002, 0x003, 0x004, 0x005, 0x006, 0x008, 0x009, 0x010, 0x011, 0x012, 0x020, 0x021,
    0x022, 0x030, 0x031]
/-- R343: the registers SWR may write. -/
def writableRegs : List Nat := [0x002, 0x008, 0x009, 0x010]

/-- The fields of an MMA or MMAS (R277). -/
def mmaLegal (o : Mx) (sparse : Bool) : Bool :=
  lowBits o.a 3 && decide (o.shape.toNat < 3) && decide (o.sub.toNat < 2) && tyMatrix.contains o.ty
    && o.mod == 0 && (if sparse then lowBits o.imm 20 else o.hc == 0 && lowBits o.imm 16)

/-! ### PAIR -/

/-- The V3 word that half `h` stands for (R82: SUB = 0). -/
def halfV3 (h : Half) : V3 :=
  ⟨false, h.g, h.ws, h.d, h.a, h.b, 0, h.ty, h.mod⟩

/-- R83: opcodes (less 0x40) with no V3 form. -/
def noV3 : List Nat := [0x04, 0x11, 0x12, 0x13, 0x16, 0x18, 0x23, 0x32, 0x33]

/-- The V3 instruction of half `h`, where its opcode has a V3 form (R82, R83). -/
def halfInstr (h : Half) : Option Instr :=
  let o := halfV3 h
  match h.op7.toNat with
  | 0x00 => some (.vadd o) | 0x01 => some (.vsub o) | 0x02 => some (.vmul o) | 0x03 => some (.vmulh o)
  | 0x05 => some (.vdiv o) | 0x06 => some (.vrem o) | 0x07 => some (.vand o) | 0x08 => some (.vor o)
  | 0x09 => some (.vxor o) | 0x0A => some (.vshl o) | 0x0B => some (.vshr o) | 0x0C => some (.vrot o)
  | 0x0D => some (.vmin o) | 0x0E => some (.vmax o) | 0x0F => some (.vabs o) | 0x10 => some (.vbitc o)
  | 0x14 => some (.vadds o) | 0x15 => some (.vcmp o) | 0x17 => some (.vmov o) | 0x19 => some (.vbrd o)
  | 0x1A => some (.vext o) | 0x1B => some (.vsys o)
  | 0x20 => some (.vfadd o) | 0x21 => some (.vfsub o) | 0x22 => some (.vfmul o) | 0x24 => some (.vfmin o)
  | 0x25 => some (.vfmax o) | 0x26 => some (.vfclass o) | 0x27 => some (.vfdiv o) | 0x28 => some (.vfsqrt o)
  | 0x29 => some (.vfrcp o) | 0x2A => some (.vfrsq o) | 0x2B => some (.vfexp2 o) | 0x2C => some (.vflog2 o)
  | 0x2D => some (.vfsin o) | 0x2E => some (.vfcos o) | 0x2F => some (.vftanh o) | 0x30 => some (.vfscale o)
  | 0x31 => some (.vfrnd o)
  | _ => none

/-- Vector sources of a half, a 64-bit operand's two registers both counted (R83); latches and scalars none. -/
def halfReads (h : Half) : List Nat :=
  let op := h.op7.toNat
  let wide := is64 h.ty
  let one (f : BitVec 12) : List Nat :=
    if f.getLsbD 11 then [] else if wide then [f.toNat, f.toNat + 1] else [f.toNat]
  if op == 0x19 || op == 0x1B then []
  else
    let unary := [0x0F, 0x10, 0x17, 0x26, 0x28, 0x29, 0x2A, 0x2B, 0x2C, 0x2D, 0x2E, 0x2F, 0x31].contains op
    let ab := if unary then one h.a else one h.a ++ one h.b
    if op == 0x14 && !h.ws then ab ++ [h.d.toNat] else ab

/-- Vector registers a half writes: none under WS and none for VCMP. -/
def halfWrites (h : Half) : List Nat :=
  if h.ws || h.op7.toNat == 0x15 then []
  else if is64 h.ty then [h.d.toNat, h.d.toNat + 1] else [h.d.toNat]

/-- The predicate a half writes. -/
def halfPred (h : Half) : Option Nat := if h.op7.toNat == 0x15 then some h.d.toNat else none

/-- R83: the conditions that raise ILLEGAL_PAIR do not hold. -/
def pairLegal (h0 h1 : Half) : Bool :=
  let hasV3 (h : Half) := decide (h.op7.toNat < 0x34) && !noV3.contains h.op7.toNat
  let banks (h : Half) := (halfWrites h).map (· % 4)
  hasV3 h0 && hasV3 h1
    && (halfReads h0).all (fun r => !(halfWrites h1).contains r)
    && (halfReads h1).all (fun r => !(halfWrites h0).contains r)
    && (halfPred h0 == none || halfPred h0 != halfPred h1)
    && (banks h0).all (fun b => !(banks h1).contains b)
    && decide ((halfReads h0 ++ halfReads h1).eraseDups.length ≤ 4)
    && !(decide (0x27 ≤ h0.op7.toNat ∧ h0.op7.toNat ≤ 0x2F) && decide (0x27 ≤ h1.op7.toNat ∧ h1.op7.toNat ≤ 0x2F))

/-! ### Every instruction -/

/-- Operands that do not make a V3, V4, VI, S3, BR, MEM, CP, MX or SYS instruction illegal (R71 to R81 and the
entries). A seed immediate may stand in VFMA, VDOT and MCVT under every rounding (log 55, DESIGN CHOICE: R196, R197 and R280 use
it under SR alone and do not say that it is zero elsewhere). Events: the numbers name a unit the device has. -/
def legalBase : Instr → Bool
  | .sadd o | .ssub o | .smul o | .smulh o | .sdiv o | .srem o | .sand o | .sor o | .sxor o | .sshl o
  | .sshr o | .srot o | .smin o | .smax o => s3Legal o tyScalar 1
  | .sbitc o => s3Legal o tyScalar 3 false
  | .smov o => s3Legal o [i32] 1 (aUsed := false) (immForm := false)
  | .smovi o => s3Legal o (if o.sub == 0 then tyScalar else [i32]) 2 (aUsed := false) (regForm := false)
  | .sset o => s3Legal o tyScalar 6
  | .ssel o => s3Legal o [i32] 1
  | .saddr o => s3Legal o [i32] 4
  | .sext o => s3Legal o [i64, n64] 3 false
  | .sbfx o => s3Legal o [i64, n64] 1
  | .sbfi o => s3Legal o [i32] 1
  | .sldp o => s3Legal o [i64, n64] 4 (aUsed := false) (regForm := false)
  | .jmp o | .call o => brLegal o true false false false false false
  | .jmpr o | .callr o => brLegal o false true false false false false
  | .ret o | .nop o => brLegal o false false false false false false
  | .brs o => brLegal o true true true true true false && decide (o.p.toNat < 6)
  | .brv o => brLegal { o with ej := none } true false true true false true && (o.ej.isNone || o.wide)
  | .bru o => brLegal o true false true true true false
  | .regang o => brLegal o false false false false false true
  | .loopd o => brLegal o true true false false false false && !([0, 61, 62, 63] : List Nat).contains o.s.toNat
  | .plog o => decide (o.sub.toNat < 5) && lowBits o.d 4 && lowBits o.a 4 && lowBits o.b 4
  | .pmov o => [0, 1, 2, 4, 5, 6].contains o.sub.toNat && o.b == 0
      && (if o.sub.toNat < 4 then lowBits o.d 4 else lowBits o.a 4)
  | .pcnt o | .pfirst o => o.sub == 0 && o.b == 0 && lowBits o.a 4
  | .part o => decide (o.sub.toNat < 5) && o.b == 0 && lowBits o.a 4 && o.d != 0 && lowBits o.d 3
  | .gset o => o.sub == 0 && o.b == 0 && lowBits o.a 3 && o.d != 0 && lowBits o.d 3
  | .grd o => decide (o.sub.toNat < 2) && o.b == 0 && lowBits o.a 3 && (o.sub == 1 || lowBits o.d 4)
  | .lexit o => o.sub == 0 && o.d == 0 && o.a == 0 && o.b == 0
  | .ejctl o => s3Legal o [i32] 1 (immForm := false) && s3NoB o
  | .vadd o | .vsub o | .vmul o => v3Legal o tyInt modSat
  | .vmulh o | .vdiv o | .vrem o => v3Legal o tyScalar modNone
  | .vmad o => v4Legal o tyInt modSat && srcLegal o.ty o.c && o.imm == 0
  | .vand o | .vor o | .vxor o => v3Legal o tyBits modNone
  | .vshl o | .vshr o | .vrot o | .vmin o | .vmax o => v3Legal o tyInt modNone
  | .vabs o => v3Legal o [i32, i64, i16x2, i8x4] modSat true
  | .vbitc o => v3Legal o tyScalar modNone true 4
  | .vbfx o => v4Legal o tyScalar modNone true true 2 && bitFieldLegal o
  | .vbfi o => v4Legal o tyBits modNone true true 2 && bitFieldLegal o
  | .vaddc o => v4Legal o [n32, n64] modNone && lowBits o.c 4 && lowBits o.imm 4
  | .vadds o => v3Legal o [i16x2, i8x4] modNone
  | .vcmp o => vcmpLegal o
  | .vsel o => v4Legal o tyBits modNone && lowBits o.c 4 && o.imm == 0
  | .vmov o => v3Legal o tyBits modNone true
  | .vmovi o => [i64, n64, b32].contains o.ty && o.sub == 0 && o.mod == 0 && o.a == 0
      && dstLegal o.ty o.d && wsLegal true o.ws o.ty o.d
  | .vbrd o => tyBits.contains o.ty && o.sub == 0 && o.mod == 0 && lowBits o.a 6 && o.b == 0
      && dstLegal o.ty o.d && wsLegal true o.ws o.ty o.d
  | .vext o => v3Legal o [b32] modNone false 4
  | .vsys o => o.ty == i32 && o.mod == 0 && o.a == 0 && o.b == 0 && decide (o.sub.toNat < 18)
      && wsLegal true o.ws o.ty o.d
  | .vfadd o | .vfsub o | .vfmul o | .vfdiv o | .vfscale o => v3Legal o tyFloat modAny
  | .vfma o => v4Legal o tyFloat modAny && srcLegal o.ty o.c && lowBits o.imm 16
  | .vfmin o | .vfmax o => v3Legal o tyFloat modNone
  | .vfclass o => v3Legal o tyFloat modNone true
  | .vfsqrt o | .vfrnd o => v3Legal o tyFloat modAny true
  | .vfrcp o | .vfrsq o | .vfexp2 o | .vflog2 o | .vfsin o | .vfcos o | .vftanh o => v3Legal o tyFloat modSat true
  | .vdot2 o => v4Legal o [bf16x2, f16x2, i16x2] (if o.ty == i16x2 then modSat else modAny)
      && srcLegal o.ty o.c && lowBits o.imm 16
  | .vdot4 o => v4Legal o [e4m3, e5m2, c8, c6, i8x4] (if o.ty == i8x4 then modSat else modAny)
      && srcLegal o.ty o.c && lowBits o.imm 16
  | .vcvt o => vcvtLegal o
  | .vpack o => vpackLegal o
  | .vunpk o => vunpkLegal o
  | .ffrd o => s3Legal o [i32] 1 (aUsed := false) (immForm := false) && s3NoB o
  | .ffclr o => s3Legal o [i32] 2 (dUsed := false) (immForm := false) && s3NoB o && (o.sub == 0 || o.a == 0)
  | .vshfl o => shuffleLegal o false
  | .vshfx o => shuffleLegal o true
  | .vbcast o => collLegal o tyBits [0, 1] (o.sub == 0) && srcLegal o.ty o.a && dstLegal o.ty o.d && o.b == 0
      && (if o.sub == 0 then o.c == 0 else lowBits o.c 4)
  | .vvote o => vvoteLegal o
  | .vmatch o => vmatchLegal o
  | .vred o => reduceLegal o [0, 1, 2, 3, 4, 5]
  | .vscan o => reduceLegal o [0, 1, 2, 3, 4, 5, 8, 9, 10, 11, 12, 13]
  | .vcmpr o => collLegal o tyBits [0] false && srcLegal o.ty o.a && dstLegal o.ty o.d && o.b == 0 && lowBits o.c 4
  | .ld o => ldstLegal o 2
  | .st o => ldstLegal o 1
  | .lds o => ldsstsLegal o 2
  | .sts o => ldsstsLegal o 1
  | .atom o => atomLegal o false
  | .atoms o => atomLegal o true
  | .cpy o => cpLegal o false
  | .cpyg o => cpLegal o true
  | .bseal o => sysLegal o true false false false (· == 0)
  | .bwait o => sysLegal o false false false true (· == 0) && lowBits o.imm 4
  | .swinit o => sysLegal o false true true true (· < 2) && immLegal (o.x == 1) o.b o.imm
  | .fence o | .icinv o => sysLegal o false false false false (· < 6)
  | .cpf o => cacheOpLegal o 2 true
  | .cwb o => cacheOpLegal o 1 false
  | .cinv o => cacheOpLegal o 2 false
  | .hset o => o.g == ⟨0, false⟩ && o.d == 0 && o.a == 0 && o.hb == 0 && o.hc == 0 && o.ts == 0 && o.shape == 0
      && o.sub == 0 && o.ty == i32 && o.mod == 0 && o.imm == 0 && decide (o.s.toNat < 63)
  | .hgen o => sysLegal o true true false false (· == 0) && lowBits o.a 4
  | .mma o => mmaLegal o false
  | .mmas o => mmaLegal o true
  | .mzero o => o.a == 0 && o.ha == 0 && o.hb == 0 && o.hc == 0 && o.ts == 0 && o.shape == 0 && o.sub == 0
      && o.ty == i32 && o.mod == 0 && o.s == 0 && o.imm == 0
  | .mcvt o => o.ha == 0 && o.hb == 0 && o.hc == 0 && o.shape == 0 && o.sub == 0 && tyMatrix.contains o.ty
      && modAny.contains o.mod.toNat && lowBits o.imm 16
  | .mstat o | .msclr o => sysLegal o true true false false (· == 0) && lowBits o.a 4
  | .ocfence o => sysLegal o false false false false (· == 0)
  | .mkinit o => sysLegal o false true true false (· < 3) && (o.x == 1 || o.b == 0)
  | .mkset o | .mkadd o => sysLegal o true true true true (fun x => decide (x < 32 ∧ x % 8 < 6))
      && immLegal (o.x.getLsbD 4) o.b o.imm
  | .waitm o => sysLegal o true true true true (fun x => decide (x < 256 ∧ x % 8 < 6 ∧ x / 32 < 6))
      && immLegal (o.x.getLsbD 4) o.b o.imm
  | .swait o => sysLegal o true true true true (· < 2) && immLegal (o.x == 1) o.b o.imm
  | .bar o | .bara o => sysLegal o true false true true (· < 32) && decide (o.imm.toNat ≤ 16)
      && immLegal (!o.x.getLsbD 4) o.b o.imm
  | .barw o => sysLegal o true false true false (· < 16)
  | .promote o | .clsrd o => sysLegal o true true false false (· == 0)
  | .yield o => sysLegal o false false false false (· < 2)
  | .sleep o => sysLegal o false true false true (· < 2) && immLegal (o.x == 1) o.a o.imm
  | .svc o | .trap o | .brk o => sysLegal o false false false true (· == 0)
  | .tret o => sysLegal o false false false false (· == 0)
  | .srd o => sysLegal o true false false false (fun x => stateRegs.contains x)
  | .swr o => sysLegal o false true false false (fun x => writableRegs.contains x)
  | .ckill o => sysLegal o false true false false (· == 0)
  | .ckpt o => sysLegal o false false false false (· < 2)
  | .pair _ _ | .pguard _ | .reservedOpcode _ => true
  | .trapEntry _ | .watchdog _ | .ejectLaneStart _ | .laneRejoin _ | .courseRestore _
  | .sleepExpire _ | .pageFaultRecord _ | .pageFaultPark _ | .copyChunkDone _ _ | .copyChunkFault _ _
  | .blockStart _ | .blockEnd _ | .launchRetire _ | .faultLogRecord _ | .placementAttempt _
  | .placementRetry _ | .energyAttribution | .energyCharge | .quotaPeriodBoundary _
  | .regionRemoveComplete _ | .leaseGrant _ _ | .leaseRevoke _ | .leaseEnd _ | .registerWrite _ _
  | .tlbInvalidate _ | .tlbInvalidateDone | .contextCreate _ | .contextSuspend _ | .suspendComplete _
  | .contextResume _ | .contextDestroy _ | .contextScb _ | .contextLost _ | .pfresp _ _ | .svcdone _ _
  | .poolResume | .poolDrop | .refugeWriteback _ _ | .refugeDiscard _ _ | .refugeMoveDone | .bisnp _
  | .eccUncorrectable _ _ | .schedulerFailover | .boot _ | .requestUpdate
  | .passComponentTable _ | .updateComponent _ _ | .transferComplete _ | .verifyComplete _ _
  | .applyComplete _ | .activateFirmware | .getStatus | .cancelUpdate | .schedulerHandover
  | .getDigests | .getCertificate | .challenge _ | .getMeasurements | .hostSnoop _
  | .dramRowSpare _ _ => true
  | .passnChange c n => decide (c < Config.clusters) && [1, 2, 4].contains n
  | .shadowLatchReplay (.quarter q) => decide (q < 4608)
  | .shadowLatchReplay (.quoin i) => decide (i < 288)
  | .ejectSoftPark _ t | .ejectOverdue _ t => decide (t < 8)
  | .checkpointCopy _ r => decide (r < 2048)
  | .tileFetchDone _ t => decide (t < 4)
  | .mmaStart c | .mmaComplete c | .mzeroComplete c | .mcvtComplete c | .coreMapOut c => decide (c < Config.cores)
  | .slewStep d => decide (d < 6)
  | .rotationAttempt c | .clusterOppointReady c | .leafUpdateCluster c | .leafDrainTimeout c =>
      decide (c < Config.clusters)
  | .clusterReassign c p => decide (c < Config.clusters) && decide (p < 3)
  | .hotSpotMigration _ c => decide (c < Config.cores)
  | .packetRead q | .launchPacket q | .waitmarks q | .setmark q | .regionInstall q | .regionUpdate q
  | .regionRemove q | .leaseRequest q | .leaseRelease q | .nopPacket q | .waitPark q | .queueEnable q _
  | .queueDisable q _ | .queueKick q _ | .queueErrorClear q => decide (q < Config.queues)
  | .markReexamine _ => true
  | .queueDeadlock qs => qs.all (fun q => decide (q < Config.queues))
  | .poolLinkLoss c => c == 1 || c == 2
  | .poolPortChange p _ => decide (p < 3)
  | .poolWindowEnable w _ | .poolWindowDisable w _ => decide (w < 64)
  | .hostDramAccess _ n w => decide (n ≤ 64) && (match w with | some bs => bs.length == n | none => true)
  | .channelEnable c _ | .channelErrorClear c | .channelKick c _ | .channelSend c | .channelReceive c _
  | .channelStateMessage c _ _ _ => decide (c < 192)
  | .peerLinkDown l | .linkFlitRetry l | .linkLaneDegrade l => decide (l < 12)
  | .eccCorrected k _ => decide (k < 7)
  | .dramScrub c | .channelMapOut c => decide (c < Config.cores)
  | .l2Scrub s | .l2SliceDegrade s => decide (s < 144)
  | .clearMapOut s _ => s == 3 || s == 4
  | .quarterRecalibrate q => decide (q < 4608)
  | .saveAreaTailAdvance _ r _ => decide (r < 3)
  | .wholeContextSwitch m => decide (m < 2)

/-- R83: a half whose opcode has a V3 form is checked as that V3 instruction. One with no V3 form is left to
ILLEGAL_PAIR, and a reserved opcode among the V3 ones (0x5C to 0x5F, R88) is ILLEGAL_OP. -/
def halfLegal (h : Half) : Bool :=
  match halfInstr h with
  | some i => legalBase i
  | none => decide (0x34 ≤ h.op7.toNat) || noV3.contains h.op7.toNat

/-- An instruction raises neither ILLEGAL_OP nor ILLEGAL_PAIR by its fields. -/
def legalOp : Instr → Bool
  | .pair h0 h1 => halfLegal h0 && halfLegal h1
  | i => legalBase i

end Sys2Proof.Machine
end

