-- ==== Sys2Proof/Decode.lean ====
section
/-!
DEFINITION. The decoder of instruction words (R68 to R89), total on any 128 bits, and the encoder written
from the same strips. A word the manual calls no instruction is refused by name.
-/

namespace Sys2Proof

open Machine

/-- Why a word is no instruction: R68 (LEN = 0b11), R71 to R83 and R88 (ILLEGAL_OP), R83 (ILLEGAL_PAIR). -/
inductive DecodeError where
  | lenReserved | illegalOp | illegalPair
deriving DecidableEq, Repr, Inhabited

/-- The instruction formats (R73). -/
inductive Format where
  | s3 | br | p3 | v3 | v4 | vi | mem | cp | sys | mx | pair
deriving DecidableEq, Repr, Inhabited

/-- An opcode with the operand record of its format. -/
inductive Raw where
  | s3 (opc : BitVec 8) (o : S3) | br (opc : BitVec 8) (o : Br) | p3 (opc : BitVec 8) (o : P3)
  | v3 (opc : BitVec 8) (o : V3) | v4 (opc : BitVec 8) (o : V4) | vi (opc : BitVec 8) (o : Vi)
  | mem (opc : BitVec 8) (o : Mem) | cp (opc : BitVec 8) (o : Cp) | sys (opc : BitVec 8) (o : Sys)
  | mx (opc : BitVec 8) (o : Mx) | pair (h0 h1 : Half)
deriving DecidableEq, Repr, Inhabited

/-- The opcode map (R88): the instruction of an opcode with its operand record; the format of every
opcode is that of R89. -/
def ofRaw : Raw → Option Instr
  | .s3 opc o =>
    match opc.toNat with
    | 0x01 => some (.sadd o) | 0x02 => some (.ssub o) | 0x03 => some (.smul o) | 0x04 => some (.smulh o)
    | 0x05 => some (.sdiv o) | 0x06 => some (.srem o) | 0x07 => some (.sand o) | 0x08 => some (.sor o)
    | 0x09 => some (.sxor o) | 0x0A => some (.sshl o) | 0x0B => some (.sshr o) | 0x0C => some (.srot o)
    | 0x0D => some (.smin o) | 0x0E => some (.smax o) | 0x0F => some (.sbitc o) | 0x10 => some (.smov o)
    | 0x11 => some (.smovi o) | 0x12 => some (.sset o) | 0x13 => some (.ssel o) | 0x14 => some (.saddr o)
    | 0x15 => some (.sext o) | 0x16 => some (.sbfx o) | 0x17 => some (.sbfi o) | 0x18 => some (.sldp o)
    | 0x38 => some (.ejctl o) | 0x7B => some (.ffrd o) | 0x7C => some (.ffclr o)
    | _ => none
  | .br opc o =>
    match opc.toNat with
    | 0x20 => some (.jmp o) | 0x21 => some (.jmpr o) | 0x22 => some (.call o) | 0x23 => some (.callr o)
    | 0x24 => some (.ret o) | 0x25 => some (.brs o) | 0x26 => some (.brv o) | 0x27 => some (.bru o)
    | 0x28 => some (.regang o) | 0x29 => some (.loopd o) | 0x2A => some (.nop o)
    | _ => none
  | .p3 opc o =>
    match opc.toNat with
    | 0x30 => some (.plog o) | 0x31 => some (.pmov o) | 0x32 => some (.pcnt o) | 0x33 => some (.pfirst o)
    | 0x34 => some (.part o) | 0x35 => some (.gset o) | 0x36 => some (.grd o) | 0x37 => some (.lexit o)
    | _ => none
  | .v3 opc o =>
    match opc.toNat with
    | 0x40 => some (.vadd o) | 0x41 => some (.vsub o) | 0x42 => some (.vmul o) | 0x43 => some (.vmulh o)
    | 0x45 => some (.vdiv o) | 0x46 => some (.vrem o) | 0x47 => some (.vand o) | 0x48 => some (.vor o)
    | 0x49 => some (.vxor o) | 0x4A => some (.vshl o) | 0x4B => some (.vshr o) | 0x4C => some (.vrot o)
    | 0x4D => some (.vmin o) | 0x4E => some (.vmax o) | 0x4F => some (.vabs o) | 0x50 => some (.vbitc o)
    | 0x54 => some (.vadds o) | 0x55 => some (.vcmp o) | 0x57 => some (.vmov o) | 0x59 => some (.vbrd o)
    | 0x5A => some (.vext o) | 0x5B => some (.vsys o) | 0x60 => some (.vfadd o) | 0x61 => some (.vfsub o)
    | 0x62 => some (.vfmul o) | 0x64 => some (.vfmin o) | 0x65 => some (.vfmax o)
    | 0x66 => some (.vfclass o) | 0x67 => some (.vfdiv o) | 0x68 => some (.vfsqrt o)
    | 0x69 => some (.vfrcp o) | 0x6A => some (.vfrsq o) | 0x6B => some (.vfexp2 o)
    | 0x6C => some (.vflog2 o) | 0x6D => some (.vfsin o) | 0x6E => some (.vfcos o)
    | 0x6F => some (.vftanh o) | 0x70 => some (.vfscale o) | 0x71 => some (.vfrnd o)
    | 0x78 => some (.vcvt o) | 0x79 => some (.vpack o) | 0x7A => some (.vunpk o)
    | _ => none
  | .v4 opc o =>
    match opc.toNat with
    | 0x44 => some (.vmad o) | 0x51 => some (.vbfx o) | 0x52 => some (.vbfi o) | 0x53 => some (.vaddc o)
    | 0x56 => some (.vsel o) | 0x63 => some (.vfma o) | 0x72 => some (.vdot2 o) | 0x73 => some (.vdot4 o)
    | 0x80 => some (.vshfl o) | 0x81 => some (.vshfx o) | 0x82 => some (.vbcast o) | 0x83 => some (.vvote o)
    | 0x84 => some (.vmatch o) | 0x85 => some (.vred o) | 0x86 => some (.vscan o) | 0x87 => some (.vcmpr o)
    | _ => none
  | .vi opc o =>
    match opc.toNat with
    | 0x58 => some (.vmovi o)
    | _ => none
  | .mem opc o =>
    match opc.toNat with
    | 0xA0 => some (.ld o) | 0xA1 => some (.st o) | 0xA2 => some (.lds o) | 0xA3 => some (.sts o)
    | 0xA4 => some (.atom o) | 0xA5 => some (.atoms o) | 0xAC => some (.cpf o) | 0xAD => some (.cwb o)
    | 0xAE => some (.cinv o)
    | _ => none
  | .cp opc o =>
    match opc.toNat with
    | 0xA6 => some (.cpy o) | 0xA7 => some (.cpyg o)
    | _ => none
  | .sys opc o =>
    match opc.toNat with
    | 0xA8 => some (.bseal o) | 0xA9 => some (.bwait o) | 0xAA => some (.swinit o) | 0xAB => some (.fence o)
    | 0xAF => some (.icinv o) | 0xC1 => some (.hgen o) | 0xC6 => some (.mstat o) | 0xC7 => some (.msclr o)
    | 0xC8 => some (.ocfence o) | 0xD0 => some (.mkinit o) | 0xD1 => some (.mkset o)
    | 0xD2 => some (.mkadd o) | 0xD3 => some (.waitm o) | 0xD4 => some (.swait o) | 0xD5 => some (.bar o)
    | 0xD6 => some (.bara o) | 0xD7 => some (.barw o) | 0xD8 => some (.promote o) | 0xD9 => some (.clsrd o)
    | 0xDA => some (.yield o) | 0xDB => some (.sleep o) | 0xE0 => some (.svc o) | 0xE1 => some (.trap o)
    | 0xE2 => some (.tret o) | 0xE3 => some (.srd o) | 0xE4 => some (.swr o) | 0xE5 => some (.brk o)
    | 0xE6 => some (.ckill o) | 0xE7 => some (.ckpt o)
    | _ => none
  | .mx opc o =>
    match opc.toNat with
    | 0xC0 => some (.hset o) | 0xC2 => some (.mma o) | 0xC3 => some (.mmas o) | 0xC4 => some (.mzero o)
    | 0xC5 => some (.mcvt o)
    | _ => none
  | .pair h0 h1 => some (.pair h0 h1)

/-- The format of an opcode (R89); `none` for a reserved code (R88). -/
def formatOf (opc : BitVec 8) : Option Format :=
  match opc.toNat with
  | 0x01 | 0x02 | 0x03 | 0x04 | 0x05 | 0x06 | 0x07 | 0x08 | 0x09 | 0x0A | 0x0B | 0x0C | 0x0D | 0x0E
  | 0x0F | 0x10 | 0x11 | 0x12 | 0x13 | 0x14 | 0x15 | 0x16 | 0x17 | 0x18 | 0x38 | 0x7B | 0x7C => some .s3
  | 0x20 | 0x21 | 0x22 | 0x23 | 0x24 | 0x25 | 0x26 | 0x27 | 0x28 | 0x29 | 0x2A => some .br
  | 0x30 | 0x31 | 0x32 | 0x33 | 0x34 | 0x35 | 0x36 | 0x37 => some .p3
  | 0x40 | 0x41 | 0x42 | 0x43 | 0x45 | 0x46 | 0x47 | 0x48 | 0x49 | 0x4A | 0x4B | 0x4C | 0x4D | 0x4E
  | 0x4F | 0x50 | 0x54 | 0x55 | 0x57 | 0x59 | 0x5A | 0x5B | 0x60 | 0x61 | 0x62 | 0x64 | 0x65 | 0x66
  | 0x67 | 0x68 | 0x69 | 0x6A | 0x6B | 0x6C | 0x6D | 0x6E | 0x6F | 0x70 | 0x71 | 0x78 | 0x79 | 0x7A => some .v3
  | 0x44 | 0x51 | 0x52 | 0x53 | 0x56 | 0x63 | 0x72 | 0x73 | 0x80 | 0x81 | 0x82 | 0x83 | 0x84 | 0x85
  | 0x86 | 0x87 => some .v4
  | 0x58 => some .vi
  | 0xA0 | 0xA1 | 0xA2 | 0xA3 | 0xA4 | 0xA5 | 0xAC | 0xAD | 0xAE => some .mem
  | 0xA6 | 0xA7 => some .cp
  | 0xA8 | 0xA9 | 0xAA | 0xAB | 0xAF | 0xC1 | 0xC6 | 0xC7 | 0xC8 | 0xD0 | 0xD1 | 0xD2 | 0xD3 | 0xD4
  | 0xD5 | 0xD6 | 0xD7 | 0xD8 | 0xD9 | 0xDA | 0xDB | 0xE0 | 0xE1 | 0xE2 | 0xE3 | 0xE4 | 0xE5 | 0xE6
  | 0xE7 => some .sys
  | 0xC0 | 0xC2 | 0xC3 | 0xC4 | 0xC5 => some .mx
  | 0xF0 => some .pair
  | _ => none

/-- The opcode and operand record of an instruction; `none` for an event. -/
def toRaw : Instr → Option Raw
  | .sadd o => some (.s3 0x01 o)
  | .ssub o => some (.s3 0x02 o)
  | .smul o => some (.s3 0x03 o)
  | .smulh o => some (.s3 0x04 o)
  | .sdiv o => some (.s3 0x05 o)
  | .srem o => some (.s3 0x06 o)
  | .sand o => some (.s3 0x07 o)
  | .sor o => some (.s3 0x08 o)
  | .sxor o => some (.s3 0x09 o)
  | .sshl o => some (.s3 0x0A o)
  | .sshr o => some (.s3 0x0B o)
  | .srot o => some (.s3 0x0C o)
  | .smin o => some (.s3 0x0D o)
  | .smax o => some (.s3 0x0E o)
  | .sbitc o => some (.s3 0x0F o)
  | .smov o => some (.s3 0x10 o)
  | .smovi o => some (.s3 0x11 o)
  | .sset o => some (.s3 0x12 o)
  | .ssel o => some (.s3 0x13 o)
  | .saddr o => some (.s3 0x14 o)
  | .sext o => some (.s3 0x15 o)
  | .sbfx o => some (.s3 0x16 o)
  | .sbfi o => some (.s3 0x17 o)
  | .sldp o => some (.s3 0x18 o)
  | .jmp o => some (.br 0x20 o)
  | .jmpr o => some (.br 0x21 o)
  | .call o => some (.br 0x22 o)
  | .callr o => some (.br 0x23 o)
  | .ret o => some (.br 0x24 o)
  | .brs o => some (.br 0x25 o)
  | .brv o => some (.br 0x26 o)
  | .bru o => some (.br 0x27 o)
  | .regang o => some (.br 0x28 o)
  | .loopd o => some (.br 0x29 o)
  | .nop o => some (.br 0x2A o)
  | .plog o => some (.p3 0x30 o)
  | .pmov o => some (.p3 0x31 o)
  | .pcnt o => some (.p3 0x32 o)
  | .pfirst o => some (.p3 0x33 o)
  | .part o => some (.p3 0x34 o)
  | .gset o => some (.p3 0x35 o)
  | .grd o => some (.p3 0x36 o)
  | .lexit o => some (.p3 0x37 o)
  | .ejctl o => some (.s3 0x38 o)
  | .vadd o => some (.v3 0x40 o)
  | .vsub o => some (.v3 0x41 o)
  | .vmul o => some (.v3 0x42 o)
  | .vmulh o => some (.v3 0x43 o)
  | .vmad o => some (.v4 0x44 o)
  | .vdiv o => some (.v3 0x45 o)
  | .vrem o => some (.v3 0x46 o)
  | .vand o => some (.v3 0x47 o)
  | .vor o => some (.v3 0x48 o)
  | .vxor o => some (.v3 0x49 o)
  | .vshl o => some (.v3 0x4A o)
  | .vshr o => some (.v3 0x4B o)
  | .vrot o => some (.v3 0x4C o)
  | .vmin o => some (.v3 0x4D o)
  | .vmax o => some (.v3 0x4E o)
  | .vabs o => some (.v3 0x4F o)
  | .vbitc o => some (.v3 0x50 o)
  | .vbfx o => some (.v4 0x51 o)
  | .vbfi o => some (.v4 0x52 o)
  | .vaddc o => some (.v4 0x53 o)
  | .vadds o => some (.v3 0x54 o)
  | .vcmp o => some (.v3 0x55 o)
  | .vsel o => some (.v4 0x56 o)
  | .vmov o => some (.v3 0x57 o)
  | .vmovi o => some (.vi 0x58 o)
  | .vbrd o => some (.v3 0x59 o)
  | .vext o => some (.v3 0x5A o)
  | .vsys o => some (.v3 0x5B o)
  | .vfadd o => some (.v3 0x60 o)
  | .vfsub o => some (.v3 0x61 o)
  | .vfmul o => some (.v3 0x62 o)
  | .vfma o => some (.v4 0x63 o)
  | .vfmin o => some (.v3 0x64 o)
  | .vfmax o => some (.v3 0x65 o)
  | .vfclass o => some (.v3 0x66 o)
  | .vfdiv o => some (.v3 0x67 o)
  | .vfsqrt o => some (.v3 0x68 o)
  | .vfrcp o => some (.v3 0x69 o)
  | .vfrsq o => some (.v3 0x6A o)
  | .vfexp2 o => some (.v3 0x6B o)
  | .vflog2 o => some (.v3 0x6C o)
  | .vfsin o => some (.v3 0x6D o)
  | .vfcos o => some (.v3 0x6E o)
  | .vftanh o => some (.v3 0x6F o)
  | .vfscale o => some (.v3 0x70 o)
  | .vfrnd o => some (.v3 0x71 o)
  | .vdot2 o => some (.v4 0x72 o)
  | .vdot4 o => some (.v4 0x73 o)
  | .vcvt o => some (.v3 0x78 o)
  | .vpack o => some (.v3 0x79 o)
  | .vunpk o => some (.v3 0x7A o)
  | .ffrd o => some (.s3 0x7B o)
  | .ffclr o => some (.s3 0x7C o)
  | .vshfl o => some (.v4 0x80 o)
  | .vshfx o => some (.v4 0x81 o)
  | .vbcast o => some (.v4 0x82 o)
  | .vvote o => some (.v4 0x83 o)
  | .vmatch o => some (.v4 0x84 o)
  | .vred o => some (.v4 0x85 o)
  | .vscan o => some (.v4 0x86 o)
  | .vcmpr o => some (.v4 0x87 o)
  | .ld o => some (.mem 0xA0 o)
  | .st o => some (.mem 0xA1 o)
  | .lds o => some (.mem 0xA2 o)
  | .sts o => some (.mem 0xA3 o)
  | .atom o => some (.mem 0xA4 o)
  | .atoms o => some (.mem 0xA5 o)
  | .cpy o => some (.cp 0xA6 o)
  | .cpyg o => some (.cp 0xA7 o)
  | .bseal o => some (.sys 0xA8 o)
  | .bwait o => some (.sys 0xA9 o)
  | .swinit o => some (.sys 0xAA o)
  | .fence o => some (.sys 0xAB o)
  | .cpf o => some (.mem 0xAC o)
  | .cwb o => some (.mem 0xAD o)
  | .cinv o => some (.mem 0xAE o)
  | .icinv o => some (.sys 0xAF o)
  | .hset o => some (.mx 0xC0 o)
  | .hgen o => some (.sys 0xC1 o)
  | .mma o => some (.mx 0xC2 o)
  | .mmas o => some (.mx 0xC3 o)
  | .mzero o => some (.mx 0xC4 o)
  | .mcvt o => some (.mx 0xC5 o)
  | .mstat o => some (.sys 0xC6 o)
  | .msclr o => some (.sys 0xC7 o)
  | .ocfence o => some (.sys 0xC8 o)
  | .mkinit o => some (.sys 0xD0 o)
  | .mkset o => some (.sys 0xD1 o)
  | .mkadd o => some (.sys 0xD2 o)
  | .waitm o => some (.sys 0xD3 o)
  | .swait o => some (.sys 0xD4 o)
  | .bar o => some (.sys 0xD5 o)
  | .bara o => some (.sys 0xD6 o)
  | .barw o => some (.sys 0xD7 o)
  | .promote o => some (.sys 0xD8 o)
  | .clsrd o => some (.sys 0xD9 o)
  | .yield o => some (.sys 0xDA o)
  | .sleep o => some (.sys 0xDB o)
  | .svc o => some (.sys 0xE0 o)
  | .trap o => some (.sys 0xE1 o)
  | .tret o => some (.sys 0xE2 o)
  | .srd o => some (.sys 0xE3 o)
  | .swr o => some (.sys 0xE4 o)
  | .brk o => some (.sys 0xE5 o)
  | .ckill o => some (.sys 0xE6 o)
  | .ckpt o => some (.sys 0xE7 o)
  | .pair h0 h1 => some (.pair h0 h1)
  | .pguard _ | .reservedOpcode _ | .trapEntry _ | .watchdog _ | .passnChange _ _
  | .shadowLatchReplay _ | .ejectLaneStart _ | .laneRejoin _ | .ejectSoftPark _ _ | .ejectOverdue _ _
  | .courseRestore _ | .sleepExpire _ | .checkpointCopy _ _ | .pageFaultRecord _ | .pageFaultPark _
  | .tileFetchDone _ _ | .mmaStart _ | .mmaComplete _ | .mzeroComplete _ | .mcvtComplete _
  | .slewStep _ | .copyChunkDone _ _ | .copyChunkFault _ _ | .blockStart _ | .blockEnd _
  | .launchRetire _ | .faultLogRecord _ | .placementAttempt _ | .placementRetry _ | .rotationAttempt _
  | .clusterReassign _ _ | .clusterOppointReady _ | .hotSpotMigration _ _ | .energyAttribution
  | .energyCharge | .quotaPeriodBoundary _ | .packetRead _ | .launchPacket _ | .waitmarks _
  | .setmark _ | .regionInstall _ | .regionUpdate _ | .regionRemove _ | .regionRemoveComplete _
  | .leaseRequest _ | .leaseRelease _ | .nopPacket _ | .leaseGrant _ _ | .leaseRevoke _ | .leaseEnd _
  | .markReexamine _ | .waitPark _ | .queueDeadlock _ | .queueEnable _ _ | .queueDisable _ _
  | .queueKick _ _ | .queueErrorClear _ | .registerWrite _ _ | .tlbInvalidate _ | .tlbInvalidateDone
  | .contextCreate _ | .contextSuspend _ | .suspendComplete _ | .contextResume _ | .contextDestroy _
  | .contextScb _ | .contextLost _ | .pfresp _ _ | .svcdone _ _ | .poolResume | .poolDrop
  | .refugeWriteback _ _ | .refugeDiscard _ _ | .poolLinkLoss _ | .refugeMoveDone | .poolPortChange _ _
  | .bisnp _ | .poolWindowEnable _ _ | .poolWindowDisable _ _ | .hostDramAccess _ _ _
  | .channelEnable _ _ | .channelErrorClear _ | .channelKick _ _ | .channelSend _ | .channelReceive _ _
  | .channelStateMessage _ _ _ _ | .peerLinkDown _ | .linkFlitRetry _ | .linkLaneDegrade _
  | .eccCorrected _ _ | .eccUncorrectable _ _ | .dramScrub _ | .l2Scrub _ | .schedulerFailover
  | .boot _ | .clearMapOut _ _ | .requestUpdate | .passComponentTable _ | .updateComponent _ _
  | .transferComplete _ | .verifyComplete _ _ | .applyComplete _ | .activateFirmware | .getStatus
  | .cancelUpdate | .leafUpdateCluster _ | .leafDrainTimeout _ | .schedulerHandover | .coreMapOut _
  | .dramRowSpare _ _ | .channelMapOut _ | .l2SliceDegrade _ | .quarterRecalibrate _ | .getDigests
  | .getCertificate | .challenge _ | .getMeasurements | .saveAreaTailAdvance _ _ _
  | .wholeContextSwitch _ | .hostSnoop _ => none

/-! ### Fields -/

/-- Bits `lo + len - 1 : lo` of a word. -/
def bits (w : BitVec 128) (lo len : Nat) : BitVec len := w.extractLsb' lo len
/-- Bit `i` of a word. -/
def bit (w : BitVec 128) (i : Nat) : Bool := w.getLsbD i
/-- OPC, bits 9:2 of the header (R70). -/
def opcOf (w : BitVec 128) : BitVec 8 := bits w 2 8
/-- LEN, bits 1:0 (R68). -/
def lenOf (w : BitVec 128) : BitVec 2 := bits w 0 2
/-- The guard of the header (R70). -/
def guardOf (w : BitVec 128) : Guard := ⟨bits w 10 4, bit w 14⟩
/-- The type of four bits at `lo`. -/
def tyAt (w : BitVec 128) (lo : Nat) : Option ElemTy := tyOf (bits w lo 4).toNat
/-- Bytes of an instruction by its LEN (R68); 0 for the reserved code. -/
def lenBytes (len : BitVec 2) : Nat :=
  match len.toNat with
  | 0 => 8 | 1 => 12 | 2 => 16 | _ => 0

/-- R70, R71: WS, PN and PRED are zero in an S class instruction. -/
def sClass (w : BitVec 128) : Option Unit := if bits w 10 6 = 0 then some () else none
/-- The word's length code is the one named. -/
def lenIs (w : BitVec 128) (n : Nat) : Option Unit := if (lenOf w).toNat = n then some () else none
/-- A field shown as zero in its strip is zero (R81). -/
def zeros (w : BitVec 128) (lo len : Nat) : Option Unit := if bits w lo len = 0 then some () else none
/-- R73: a 64-bit format, or its widened form, whose extension word is zero. -/
def narrowOrWide (w : BitVec 128) : Option Bool :=
  match (lenOf w).toNat with
  | 0 => some false
  | 1 => if bits w 64 32 = 0 then some true else none
  | _ => none

/-! ### Formats -/

/-- S3 and SI (R75). -/
def decS3 (w : BitVec 128) : Option S3 := do
  sClass w
  zeros w 43 20
  let ty ← tyAt w 39
  if bit w 63 then
    lenIs w 1
    zeros w 28 6
    some ⟨bits w 16 6, bits w 22 6, .imm (bits w 64 32), ty, bits w 34 5⟩
  else
    let wide ← narrowOrWide w
    let b : BitVec 6 := bits w 28 6
    some ⟨bits w 16 6, bits w 22 6, if wide then .regWide b else .reg b, ty, bits w 34 5⟩

/-- S3 in the G class opcodes, with TY zero (R161). -/
def decP3 (w : BitVec 128) : Option P3 := do
  let wide ← narrowOrWide w
  zeros w 15 1
  zeros w 39 25
  some ⟨wide, guardOf w, bits w 16 6, bits w 22 6, bits w 28 6, bits w 34 5⟩

/-- BR (R76). With EJ = 1, the extension word is HOFF. -/
def decBr (w : BitVec 128) : Option Br := do
  sClass w
  if bit w 53 then
    lenIs w 1
    some ⟨true, bits w 16 32, bits w 48 4, bit w 52, bits w 54 3, bits w 57 6, bit w 63, some (bits w 64 32)⟩
  else
    let wide ← narrowOrWide w
    some ⟨wide, bits w 16 32, bits w 48 4, bit w 52, bits w 54 3, bits w 57 6, bit w 63, none⟩

/-- V3 (R74). -/
def decV3 (w : BitVec 128) : Option V3 := do
  let wide ← narrowOrWide w
  let ty ← tyAt w 56
  some ⟨wide, guardOf w, bit w 15, bits w 16 11, bits w 27 12, bits w 39 12, bits w 51 5, ty, bits w 60 4⟩

/-- V4 (R74). -/
def decV4 (w : BitVec 128) : Option V4 := do
  lenIs w 1
  let ty ← tyAt w 56
  some ⟨guardOf w, bit w 15, bits w 16 11, bits w 27 12, bits w 39 12, bits w 64 12, bits w 51 5, ty,
    bits w 60 4, bits w 76 20⟩

/-- VI (R74). -/
def decVi (w : BitVec 128) : Option Vi := do
  lenIs w 1
  zeros w 39 12
  let ty ← tyAt w 56
  some ⟨guardOf w, bit w 15, bits w 16 11, bits w 27 12, bits w 51 5, ty, bits w 60 4, bits w 64 32⟩

/-- MEM (R77). -/
def decMem (w : BitVec 128) : Option Mem := do
  lenIs w 1
  zeros w 15 1
  zeros w 88 8
  let ty ← tyAt w 49
  some ⟨guardOf w, bits w 16 11, bits w 27 6, bits w 33 11, bits w 44 2, bits w 46 3, ty, bits w 53 2,
    bits w 55 3, bits w 58 2, bits w 60 2, bits w 62 5, bits w 67 20, bit w 87⟩

/-- CP (R79). -/
def decCp (w : BitVec 128) : Option Cp := do
  lenIs w 2
  zeros w 15 1
  zeros w 103 25
  let ty ← tyAt w 94
  some ⟨guardOf w, bits w 16 6, bits w 22 2, bits w 24 6, bits w 30 2, bits w 32 6, bits w 38 6, bits w 44 6,
    bits w 50 12, bits w 62 16, bits w 78 11, bits w 89 5, ty, bits w 98 2, bits w 100 3⟩

/-- SYS (R80). -/
def decSys (w : BitVec 128) : Option Sys := do
  sClass w
  let wide ← narrowOrWide w
  zeros w 62 2
  some ⟨wide, bits w 16 6, bits w 22 6, bits w 28 6, bits w 34 12, bits w 46 16⟩

/-- MX (R78). -/
def decMx (w : BitVec 128) : Option Mx := do
  lenIs w 2
  zeros w 15 1
  zeros w 75 21
  let ty ← tyAt w 61
  some ⟨guardOf w, bits w 16 11, bits w 27 11, bits w 38 4, bits w 42 4, bits w 46 4, bits w 50 4, bits w 54 2,
    bits w 56 5, ty, bits w 65 4, bits w 69 6, bits w 96 32⟩

/-- A half of a PAIR from its 56 bits, which begin at bit `lo` of the word (R82). -/
def decHalf (w : BitVec 128) (lo : Nat) : Option Half := do
  let ty ← tyAt w (lo + 42)
  some ⟨bits w lo 7, ⟨bits w (lo + 46) 4, bit w (lo + 50)⟩, bit w (lo + 51), bits w (lo + 7) 11,
    bits w (lo + 18) 12, bits w (lo + 30) 12, ty, bits w (lo + 52) 4⟩

/-- The operand record of a word, by the format of its opcode. -/
def decRaw (w : BitVec 128) : Option Raw := do
  let opc := opcOf w
  match ← formatOf opc with
  | .s3 => (decS3 w).map (.s3 opc)
  | .br => (decBr w).map (.br opc)
  | .p3 => (decP3 w).map (.p3 opc)
  | .v3 => (decV3 w).map (.v3 opc)
  | .v4 => (decV4 w).map (.v4 opc)
  | .vi => (decVi w).map (.vi opc)
  | .mem => (decMem w).map (.mem opc)
  | .cp => (decCp w).map (.cp opc)
  | .sys => (decSys w).map (.sys opc)
  | .mx => (decMx w).map (.mx opc)
  | .pair => do
    lenIs w 2
    zeros w 10 6
    let h0 ← decHalf w 16
    let h1 ← decHalf w 72
    some (.pair h0 h1)

/-- R90 orders 2 to 6 within one word: PGUARD, the reserved length, a reserved opcode (R88), the field
rules and the pair rules. -/
def decode (w : BitVec 128) : Except DecodeError Instr :=
  if opcOf w = 0xFE then .ok (.pguard (bits w 0 64))
  else if (lenOf w).toNat = 3 then .error .lenReserved
  else if (formatOf (opcOf w)).isNone then .ok (.reservedOpcode (bits w 0 64))
  else
    match (decRaw w).bind ofRaw with
    | none => .error .illegalOp
    | some i =>
      if !legalOp i then .error .illegalOp
      else
        match i with
        | .pair h0 h1 => if pairLegal h0 h1 then .ok i else .error .illegalPair
        | _ => .ok i

/-! ### Encoder -/

/-- WS, PN, PRED, OPC and LEN (R70). -/
def encHeader (ws : Bool) (g : Guard) (opc : BitVec 8) (len : BitVec 2) : BitVec 16 :=
  BitVec.ofBool ws ++ BitVec.ofBool g.neg ++ g.pred ++ opc ++ len
/-- The header of an S class instruction. -/
def encSHeader (opc : BitVec 8) (len : BitVec 2) : BitVec 16 := encHeader false ⟨0, false⟩ opc len
/-- LEN of a 64-bit format or its widened form (R73). -/
def encLen (wide : Bool) : BitVec 2 := if wide then 1 else 0

/-- The word of an operand record (R74 to R82). -/
def encRaw : Raw → BitVec 128
  | .s3 opc o =>
    match o.b with
    | .reg b => 0#32 ++ (0#32 ++ (0#1 ++ 0#20 ++ tyCode o.ty ++ o.sub ++ b ++ o.a ++ o.d ++ encSHeader opc 0 : BitVec 64))
    | .regWide b => 0#32 ++ (0#32 ++ (0#1 ++ 0#20 ++ tyCode o.ty ++ o.sub ++ b ++ o.a ++ o.d ++ encSHeader opc 1 : BitVec 64))
    | .imm v => 0#32 ++ (v ++ (1#1 ++ 0#20 ++ tyCode o.ty ++ o.sub ++ 0#6 ++ o.a ++ o.d ++ encSHeader opc 1 : BitVec 64))
  | .br opc o =>
    let low (ej : Bool) (len : BitVec 2) : BitVec 64 :=
      BitVec.ofBool o.u ++ o.s ++ o.tok ++ BitVec.ofBool ej ++ BitVec.ofBool o.n ++ o.p ++ o.off ++ encSHeader opc len
    match o.ej with
    | some h => 0#32 ++ (h ++ low true 1)
    | none => 0#32 ++ (0#32 ++ low false (encLen o.wide))
  | .p3 opc o =>
    0#64 ++ (0#25 ++ o.sub ++ o.b ++ o.a ++ o.d ++ encHeader false o.g opc (encLen o.wide) : BitVec 64)
  | .v3 opc o =>
    0#64 ++ (o.mod ++ tyCode o.ty ++ o.sub ++ o.b ++ o.a ++ o.d ++ encHeader o.ws o.g opc (encLen o.wide) : BitVec 64)
  | .v4 opc o =>
    0#32 ++ (o.imm ++ o.c ++ (o.mod ++ tyCode o.ty ++ o.sub ++ o.b ++ o.a ++ o.d ++ encHeader o.ws o.g opc 1 : BitVec 64) : BitVec 96)
  | .vi opc o =>
    0#32 ++ (o.imm ++ (o.mod ++ tyCode o.ty ++ o.sub ++ 0#12 ++ o.a ++ o.d ++ encHeader o.ws o.g opc 1 : BitVec 64) : BitVec 96)
  | .mem opc o =>
    0#40 ++ (BitVec.ofBool o.ixe ++ o.off ++ o.sub ++ o.ord ++ o.hint ++ o.scope ++ o.as ++ tyCode o.ty ++ o.size
      ++ o.shift ++ o.idx ++ o.base ++ o.d ++ encHeader false o.g opc 1 : BitVec 88)
  | .cp opc o =>
    0#25 ++ o.scope ++ o.hint ++ tyCode o.ty ++ o.sub ++ o.idx ++ o.rowb ++ o.rows ++ o.sstr ++ o.dstr ++ o.sw ++ o.sas
      ++ o.sb ++ o.das ++ o.db ++ encHeader false o.g opc 2
  | .sys opc o =>
    0#64 ++ (0#2 ++ o.imm ++ o.x ++ o.b ++ o.a ++ o.d ++ encSHeader opc (encLen o.wide) : BitVec 64)
  | .mx opc o =>
    o.imm ++ 0#21 ++ o.s ++ o.mod ++ tyCode o.ty ++ o.sub ++ o.shape ++ o.ts ++ o.hc ++ o.hb ++ o.ha ++ o.a ++ o.d
      ++ encHeader false o.g opc 2
  | .pair h0 h1 =>
    let half (h : Half) : BitVec 56 :=
      h.mod ++ BitVec.ofBool h.ws ++ BitVec.ofBool h.g.neg ++ h.g.pred ++ tyCode h.ty ++ h.b ++ h.a ++ h.d ++ h.op7
    half h1 ++ half h0 ++ encSHeader 0xF0 2

/-- The word of an instruction; `none` for an event, which no word stands for. -/
def encode : Instr → Option (BitVec 128)
  | .pguard w => some (0#64 ++ w)
  | .reservedOpcode w => some (0#64 ++ w)
  | i => (toRaw i).map encRaw

/-- Bytes an instruction takes (R68, R73); 0 for an event. -/
def Instr.bytes (i : Instr) : Nat :=
  match encode i with
  | some w => lenBytes (lenOf w)
  | none => 0

/-- The little-endian bytes of a word's first `n` bytes (R68). -/
def wordBytes (w : BitVec 128) (n : Nat) : List Byte := (List.range n).map fun k => w.extractLsb' (8 * k) 8

/-- The word that bytes from the PC upward make, missing bytes zero (R68). -/
def bytesWord : List Byte → BitVec 128
  | [] => 0
  | b :: bs => b.zeroExtend 128 ||| (bytesWord bs <<< 8)

/-- The instruction the decoder reads from a word numbered as the opcode table numbers its bits. -/
def decodeTableWord (nbits w : Nat) : Option Instr :=
  match decode (bytesWord (wordBytes (BitVec.ofNat 128 (w % 2 ^ nbits)) 16)) with
  | .ok i => some i
  | .error _ => none

end Sys2Proof
end

