-- ==== Sys2Proof/Machine/Cells.lean ====
section
/-!
DEFINITION. A sparse map in one canonical form: keys strictly rising, and no entry equal to what an
unlisted key reads as. Memory, vector registers and every numbered bank of registers are held so.
-/

namespace Sys2Proof.Machine

/-- A sparse map from numbers: the entries that differ from the value unlisted keys read as. -/
abbrev Cells (α : Type) := List (Nat × α)

/-- What key `k` reads as; `d` is what an unlisted key reads as. -/
def Cells.get (d : α) : Cells α → Nat → α
  | [], _ => d
  | (j, v) :: m, k => if j = k then v else Cells.get d m k

/-- The map without key `k`. -/
def Cells.erase (m : Cells α) (k : Nat) : Cells α := m.filter fun e => e.1 != k

/-- The map with `v` at key `k`, before the first key that is not below `k`. -/
def Cells.insert : Cells α → Nat → α → Cells α
  | [], k, v => [(k, v)]
  | (j, w) :: m, k, v => if j < k then (j, w) :: Cells.insert m k v else (k, v) :: (j, w) :: m

/-- The map in which key `k` reads as `v`. -/
def Cells.set [DecidableEq α] (d : α) (m : Cells α) (k : Nat) (v : α) : Cells α :=
  if v = d then Cells.erase m k else Cells.insert (Cells.erase m k) k v

/-- The map with `f` applied to what key `k` reads as. -/
def Cells.update [DecidableEq α] (d : α) (m : Cells α) (k : Nat) (f : α → α) : Cells α :=
  Cells.set d m k (f (Cells.get d m k))

/-- Every key is above `k`, keys rise, and no entry holds `d`. -/
def Cells.wfFrom [DecidableEq α] (d : α) : Nat → Cells α → Bool
  | _, [] => true
  | k, (j, v) :: m => decide (k ≤ j) && decide (v ≠ d) && Cells.wfFrom d (j + 1) m

/-- The canonical form. -/
def Cells.wf [DecidableEq α] (d : α) (m : Cells α) : Bool := Cells.wfFrom d 0 m

end Sys2Proof.Machine
end

