-- ==== Sys2Proof/Machine/State.lean ====
section
/-!
DEFINITION. The state of the device as plain data, the reasons a step can stop, and the state right after
reset. Items that come and go (contexts, regions, launches, blocks, courses, ejected lanes, copies,
matrix operations) stand in lists and are named by their place.
-/

namespace Sys2Proof.Machine

/-- Why a step stops. -/
inductive Fault where
  /-- Raised by a load or store at a device register that is no doorbell page (R214 names the range;
  no rule says what such an access does there). Safe: the device may go on. -/
  | deviceRegister (pa : Nat)
  /-- Raised by an instruction executed for no course and no ejected lane; a step never does so. Safe. -/
  | noIssuer
deriving DecidableEq, Repr, Inhabited

/-- Why an instruction has no meaning here. -/
inductive Refusal where
  /-- The instruction of the opcode table that has no meaning yet. Safe. -/
  | notModelled (mnemonic : String)
deriving DecidableEq, Repr, Inhabited

/-! ### Registers and splits -/

/-- Who executes the instruction of this step. -/
inductive Agent where
  | none
  | course (c k : Nat)
  | lane (q : Nat)
deriving DecidableEq, Repr, Inhabited

/-- State of a register code word (R385). `coming`: a pool load's or atomic's result, due at a time and
lost if the pool link is lost before (R391). -/
inductive WordSt where
  | clean
  | coming (addr due : Nat) (atomic : Bool)
  | lost (addr : Nat) (atomic : Bool)
  | poison
deriving DecidableEq, Repr, Inhabited

/-- A group register (R160): block size and members. -/
structure Group where
  size : Nat
  mem : Mask
deriving DecidableEq, Repr, Inhabited

/-- A bypass latch (R123). -/
structure Latch where
  valid : Mask
  val : Cells Lane32
deriving DecidableEq, Repr, Inhabited

/-- A latch window (R125): first PC, split, instructions so far, pending results by latch. -/
structure Window where
  pc : Word
  split : Nat
  count : Nat
  pend : BitVec 4
deriving DecidableEq, Repr, Inhabited

/-- The registers that a course and an ejected lane both have. -/
structure Regs where
  /-- v registers by 96 × register + lane. -/
  v : Cells Lane32 := []
  /-- Their code words by 3 × register + word (R384). -/
  vst : Cells WordSt := []
  /-- s1 to s60. -/
  s : Cells Word := []
  sst : Cells WordSt := []
  /-- p1 to p15. -/
  p : Cells Mask := []
  /-- g1 to g7. -/
  g : Cells Group := []
  /-- BL0 to BL3; a missing one is invalid. -/
  bl : List Latch := []
  /-- The flag word (R181). -/
  flags : BitVec 6 := 0
  /-- Flags of pool loads in flight: when they are set, and which (R183, R391). -/
  late : List (Nat × BitVec 6) := []
  tscr0 : Word := 0
  tscr1 : Word := 0
  srseed : BitVec 16 := 0
deriving DecidableEq, Repr, Inhabited

/-- What an agent has seen of the sequential order (R284 to R287): its timestamp, that of its write-backs by CWB and
CINV, the ticks from which a cached copy may serve it (any line; lines of the pooled tier; lines of host memory), and
by line the loads that an overwritten copy has served. -/
structure Sight where
  time : Nat := 0
  wrote : Nat := 0
  since : Nat := 0
  pool : Nat := 0
  host : Nat := 0
  stale : Cells Nat := []
deriving DecidableEq, Repr, Inhabited

/-- A line of a fetch buffer (R91). -/
structure FLine where
  va : Nat
  pa : Nat
  bytes : List Byte
deriving DecidableEq, Repr, Inhabited

/-- What a split or an ejected lane waits for. -/
inductive Wait where
  | ready
  /-- The instruction could not issue yet; it issues again when what it needs may be there. -/
  | stalled
  /-- Arrived at REGANG of the token (R132). -/
  | regang (tok : Nat)
  /-- A collective or barrier instruction that the course's other splits have not issued yet (R135, R312), with
  the operands it read when it issued, by lane (R202). -/
  | join (i : Instr) (ops : List (Nat × Word × Word × Word))
  /-- BAR or BARW (R322): barrier, phase, destination, and whether it arrived. -/
  | bar (b : Nat) (phase : BitVec 16) (d : BitVec 6) (arrived : Bool)
  /-- WAITM (R320): the instruction's address, comparand, condition, signedness, scope, destination, and when it
  is examined next (R304). -/
  | mark (va c : Word) (cond : Nat) (sgn : Bool) (scope : Nat) (d : BitVec 6) (due : Nat)
  /-- An access to the scratchpad of a block-set member that has not started (R64). -/
  | member (b : Nat)
  /-- SWAIT (R321): offset, generation, destination. -/
  | sync (off : Nat) (gen : BitVec 32) (d : BitVec 6)
  /-- BWAIT (R252). -/
  | batch (n : Nat)
  /-- SLEEP (R326), until a running time. -/
  | sleep (til : Nat)
  /-- A page fault under repair (R354): address, kind, store, fetch, lane, the lane's own address where it is a scale
  byte that faulted (R219), record once written, start in running time, and the word offset from the window's first
  instruction where a window was open (R127). -/
  | page (va : Word) (kind : Nat) (write exec : Bool) (lane : Nat) (scale : Option Word) (record : Option Nat)
      (since : Nat) (win : Option Nat)
  /-- CKPT.wait (R369): the registers that were dirty. -/
  | ckpt (regs : List Nat)
  /-- SVC (R367): slot of the header. -/
  | svc (slot : Nat)
deriving DecidableEq, Repr, Inhabited

/-- A split (R114, R118). -/
structure Split where
  pc : Word
  m : Mask
  a : Mask
  wait : Wait := .ready
  /-- When it issued last (R120). -/
  last : Nat := 0
  /-- When its wait began, and the instruction after the one that waits. -/
  since : Nat := 0
  next : Word := 0
  /-- It runs the trap handler (R119). -/
  handler : Bool := false
  /-- Its fetch buffer: the line it executes and the next one (R91). -/
  buf : List FLine := []
deriving DecidableEq, Repr, Inhabited

/-- An entry of a slice's re-entry stack (R130), newest first in the list that holds it. -/
structure Reentry where
  slice : Nat
  pc : Word
  lanes : Mask
  tok : Nat
deriving DecidableEq, Repr, Inhabited

/-- A token (R129, R131, R142). -/
structure Token where
  isOpen : Bool := false
  /-- O_t. -/
  opened : Mask := 0
  arrived : Mask := 0
  /-- Lanes outside O_t of a split that went on with a deferred set; they rejoin at the merge (R157). -/
  outside : Mask := 0
  /-- The deferred set and its target. -/
  deferred : Option (Mask × Word) := none
  /-- Ejected lanes stopped by a fault and not yet reported: lane, own PC, own code. -/
  faulted : List (Nat × Word × Nat) := []
  /-- Ejected lanes whose rejoin has completed or that were stopped. -/
  back : Mask := 0
  /-- Timestamp of the last access of any of them, which what follows the token comes after (R140). -/
  after : Nat := 0
  /-- It was opened at trap level (R155). -/
  atTrap : Bool := false
  /-- The REGANG of its hand-over descriptor, and the instruction after it once a lane came back (R139, R162). -/
  endPc : Word := 0
  nextPc : Option Word := none
  /-- Running times at which T_soft and T_hard started (R142). -/
  timer : Option Nat := none
  softDone : Bool := false
  hardTimer : Option Nat := none
deriving DecidableEq, Repr, Inhabited

/-- A trap as its rule states it (R342, R345). -/
structure Trap where
  code : Nat
  lane : Nat := 127
  pc : Word
  addr : Word := 0
  info : Word := 0
  window : Bool := false
  split : Nat := 0
  /-- The step at which it was raised (R345). -/
  raised : Nat := 0
  /-- The failed batch that a BATCH_FAULT reports (R231). -/
  batch : Option Nat := none
deriving DecidableEq, Repr, Inhabited

/-- A pool store, or a `.nr` atomic at POOL or SYSTEM scope, in flight (R391): address, physical address, when it is
performed, whether it is an atomic, its timestamp, and whether the link was lost before. -/
structure Owed where
  addr : Word
  pa : Nat
  due : Nat
  atomic : Bool
  time : Nat := 0
  lost : Bool := false
deriving DecidableEq, Repr, Inhabited

/-- The trap state of a course (R343, R344). -/
structure TrapState where
  level : Bool := false
  nested : Bool := false
  cause : Word := 0
  lane : Word := 0
  pc : Word := 0
  addr : Word := 0
  info : Word := 0
  opc : Word := 0
  ocause : Word := 0
  /-- The split that trapped (X of R345). -/
  split : Nat := 0
  /-- Running time at entry, and running time spent parked since (R349). -/
  since : Nat := 0
  parked : Nat := 0
  /-- Failed batches reported since entry to trap level, which count as done after TRET (R231). -/
  batches : List Nat := []
deriving DecidableEq, Repr, Inhabited

/-- Where a course is (R142, R354, R357, R361, R66). -/
inductive Residence where
  | resident | parkedEject | parkedPage | parkedQuota | parkedSvc | evicted | suspended | ended
deriving DecidableEq, Repr, Inhabited

/-- A batch that failed (R231). -/
structure BatchFail where
  seq : Nat
  addr : Word
  code : Nat
deriving DecidableEq, Repr, Inhabited

/-- What a fault-log record of a killed course holds (R353). -/
structure Kill where
  reason : Nat
  trap : Trap
  cause : Word := 0
  user : Word := 0
  copies : Nat := 0
  ops : Nat := 0
  lanes : Nat := 0
deriving DecidableEq, Repr, Inhabited

/-- A course (R10). -/
structure Course where
  block : Nat
  /-- Its number in the block; consumers follow producers (R33). -/
  index : Nat
  consumer : Bool := false
  /-- Registers of its allotment, 32 × REGS. -/
  allot : Nat
  quarter : Nat := 0
  base : Nat := 0
  place : Residence := .resident
  /-- Where it goes once its latch window has closed and its started matrix operation is complete (R65, R268). -/
  leaving : Option Residence := none
  /-- It has ended and its registers and slot are free again (R376). -/
  freed : Bool := false
  regs : Regs := {}
  /-- Dirty registers (R363), and scalar and other state apart. -/
  dirty : Cells Bool := []
  /-- Handles (R260). -/
  h : Cells (BitVec 128) := []
  /-- Tile status slots, packed as R274. -/
  ts : Cells Word := []
  splits : List Split := []
  reentry : List Reentry := []
  tokens : List Token := []
  exited : Mask := 0
  trap : TrapState := {}
  /-- Traps raised and not yet delivered (R345), oldest first. -/
  pending : List Trap := []
  ejthr : Nat := 0
  /-- Number of the open batch, and of the oldest sealed batch still outstanding (R230), not reduced. -/
  openBatch : Nat := 0
  oldest : Nat := 0
  fails : List BatchFail := []
  /-- Decoding flags of copies, ORed in when their batch is done (R249). -/
  lateFlags : List (Nat × BitVec 6) := []
  /-- Completed chunks that are neither published nor awaited: batch, timestamp, lines written (R299). -/
  chunkTimes : List (Nat × Nat × List Nat) := []
  win : Option Window := none
  last : Nat := 0
  /-- Running time at which it left its core (R349), and since when it waits for room to return (R142). -/
  parkedAt : Nat := 0
  waitFrom : Option Nat := none
  /-- Pool stores and `.nr` atomics in flight, whose loss the next instruction reports (R391). -/
  owed : List Owed := []
  sight : Sight := {}
  /-- QUOTA_EXHAUSTED due at its next issue (R357). -/
  quotaDue : Bool := false
  /-- The record of what ended the course (R352, R353), and whether the fault log has it. -/
  kill : Option Kill := none
  logged : Bool := false
deriving DecidableEq, Repr, Inhabited

/-- Where an ejected lane is (R137 to R142). -/
inductive LaneSt where
  /-- The hand-over is under way until the time given. -/
  | starting (at' : Nat)
  | running
  /-- Arrived at its REGANG; the rejoin completes at the time given. -/
  | rejoining (at' : Nat)
  | stopped (code : Nat)
  | done
deriving DecidableEq, Repr, Inhabited

/-- An ejected lane on a quoin context (R137, R138). -/
structure Lane where
  course : Nat
  lane : Nat
  quoin : Nat
  regs : Regs
  /-- VSYS values copied at the hand-over, by SUB code. -/
  vsys : List Lane32
  /-- State registers copied at the hand-over, by index (R370). -/
  sregs : Cells Word := []
  pc : Word
  tok : Nat
  endPc : Word
  outs : List Nat
  st : LaneSt
  wait : Wait := .ready
  last : Nat := 0
  since : Nat := 0
  next : Word := 0
  owed : List Owed := []
  sight : Sight := {}
  buf : List FLine := []
deriving DecidableEq, Repr, Inhabited

/-! ### Blocks, launches, regions, contexts -/

/-- A block barrier (R311). `expect = some 0` was fixed by a count of 0. -/
structure Bar where
  phase : BitVec 16 := 0
  count : Nat := 0
  expect : Option Nat := none
  /-- Timestamp that every arrival so far is placed before (R315). -/
  time : Nat := 0
deriving DecidableEq, Repr, Inhabited

/-- Where a block is. -/
inductive BlockSt where
  /-- Waiting for room; it has never started. -/
  | waiting
  /-- Placed; its scratchpad is zero from the time given (R210). -/
  | starting (at' : Nat)
  | resident
  | evicted
  | suspended
  | ended
deriving DecidableEq, Repr, Inhabited

/-- A block (R10). -/
structure Block where
  launch : Nat
  index : Nat
  st : BlockSt := .waiting
  core : Nat := 0
  /-- First byte of its scratchpad range, and its B bytes (R210). -/
  spBase : Nat := 0
  spSize : Nat := 0
  sp : Cells Byte := []
  spPoison : Cells Bool := []
  /-- By word of 4 bytes: timestamps of its last store and of its last load (R285, R289). -/
  spTime : Cells (Nat × Nat) := []
  bars : Cells Bar := []
  /-- Abandoned courses (R313), at most 255. -/
  abandoned : Nat := 0
  /-- Its courses, by place in the list of courses. -/
  courses : List Nat := []
  /-- Running time at which it began to wait in a rotation queue, or became resident. -/
  since : Nat := 0
  /-- YIELD.quantum (R325). -/
  ranQ : Bool := false
  /-- It has started once (R57, R67), and the time at which it was last resident. -/
  begun : Bool := false
  left : Nat := 0
  /-- It comes back with its context (R361). -/
  resumed : Bool := false
  /-- It is in transit to another core (R365). -/
  moving : Bool := false
deriving DecidableEq, Repr, Inhabited

/-- A launch descriptor (R31). -/
structure Desc where
  thard : Nat := 0
  tsoft : Nat := 0
  thresh : Option Nat := none
  opclass : Option Nat := none
  policy : Option Bool := none
  cls : Option Nat := none
  regsC : Nat := 0
  regsP : Nat := 0
  coursesC : Nat := 0
  coursesP : Nat := 0
  setCores : Nat := 0
  bdim : Nat × Nat × Nat := (0, 0, 0)
  ldim : Nat × Nat × Nat := (0, 0, 0)
  stack : Nat := 0
  scratch : Nat := 0
  doneMark : Word := 0
  region : Word := 0
  handler : Word := 0
  param : Word := 0
  entryC : Word := 0
  entryP : Word := 0
deriving DecidableEq, Repr, Inhabited

/-- Where a launch is. -/
inductive LaunchSt where
  /-- Its packet holds the queue until the launch that it names as its parent retires (R53). -/
  | held
  | placing | running | retired | lost
deriving DecidableEq, Repr, Inhabited

/-- A launch that was admitted, or whose packet was processed (R30, R44). -/
structure Launch where
  id : Nat
  ctx : Nat
  /-- Its queue and packet, and that the queue still waits for it (R39). -/
  queue : Nat := 0
  packet : Nat := 0
  owned : Bool := false
  irq : Bool := false
  desc : Desc
  /-- Admitted class and current class (R26, R30). -/
  admitted : Nat
  cls : Nat
  /-- WEAK_POLICY in force: FAULT. -/
  fault : Bool := false
  opclass : Nat := 1
  qlog : Nat := 20
  region : Nat := 0
  parent : Nat := 0
  /-- The step at which it was admitted, and the timestamp that its courses start after (R379). -/
  seq : Nat := 0
  after : Nat := 0
  /-- Physical address of DONE_MARK (R381). -/
  donePa : Option Nat := none
  /-- Base die that PARTITIONED mode fixes (R58). -/
  die : Option Nat := none
  st : LaunchSt := .placing
  /-- Start cores of block sets that are fixed (R62, R64): set, device core. -/
  sets : List (Nat × Nat) := []
  /-- Energy metered and not yet charged, in µJ (R21). -/
  uj : Nat := 0
deriving DecidableEq, Repr, Inhabited

/-- A region (R15 to R20): the values of its control block that are in force. -/
structure Region where
  ctx : Nat
  rcb : Word
  /-- Physical address of its RCB as the last REGION packet that named it found it (R16, R381). -/
  pa : Nat := 0
  parent : Option Nat := none
  maxCores : Nat := 0
  scratchKib : Nat := 0
  quotaMj : Nat := 0
  prio : Nat := 0
  domain : Nat := 0
  defClass : Nat := 0
  policy : Bool := false
  defOpclass : Nat := 0
  poolEn : Bool := false
  qlog : Nat := 0
  periodMs : Nat := 0
  override : BitVec 10 := 0
  /-- 0 free, 1 active, 2 removing. -/
  state : Nat := 0
  depth : Nat := 0
  total : Nat := 0
  overdraft : Nat := 0
  used : Nat := 0
  /-- Time of the next period boundary; the root's counts. -/
  boundary : Nat := 0
  /-- Its quota is exhausted and its courses stopped (R357). -/
  stopped : Bool := false
  /-- Queue that a REMOVE holds (R24). -/
  remover : Option Nat := none
deriving DecidableEq, Repr, Inhabited

/-- A pending page-fault record (R354, R355): its index, 64 KiB unit and kind. -/
structure PfRec where
  index : Nat
  unit : Nat
  kind : Nat
deriving DecidableEq, Repr, Inhabited

/-- A pending service request (R366). -/
structure SvcReq where
  slot : Nat
  course : Nat
  split : Nat
  lanes : Mask
  pc : Word
  service : Nat
deriving DecidableEq, Repr, Inhabited

/-- Where a context is (R360, R361, R364). -/
inductive CtxSt where
  | running | suspending | suspended | resuming | lost | destroyed
deriving DecidableEq, Repr, Inhabited

/-- A context (R358). -/
structure Ctx where
  num : Nat
  st : CtxSt := .running
  ptbase : Nat := 0
  ranges : List Word := []
  split : Nat := 0
  partitioned : Bool := false
  vector : Nat := 0
  /-- SCB0 to SCB15: ORIGIN, BASE. -/
  scb : List (Word × Word) := []
  /-- Running time (CYCLES of R343). -/
  run : Nat := 0
  /-- The scheduler core suspended it for a change of L2 mode (R59). -/
  bySched : Bool := false
  nextLaunch : Nat := 1
  pfs : List PfRec := []
  svcs : List SvcReq := []
  /-- Fault-log records for DONE_MARK (R381) still to be written: LAUNCHID, mark. -/
  markFails : List (Nat × Word) := []
deriving DecidableEq, Repr, Inhabited

/-! ### Copies and the matrix engine -/

/-- A space that an address lies in (R233). -/
inductive Space where
  | gen | spl | spc
deriving DecidableEq, Repr, Inhabited

/-- What a leaf entry says of an address (R217). -/
structure Leaf where
  pa : Nat
  r : Bool
  w : Bool
  x : Bool
  pol : Nat
  fmt : Nat
  geom : Nat
  scsel : Nat
  rnd : Nat
  sat : Bool
deriving DecidableEq, Repr, Inhabited

/-- Where an access goes: physical memory through a leaf, or a block's scratchpad. -/
inductive Loc where
  | phys (leaf : Leaf)
  | pad (b off : Nat)
deriving DecidableEq, Repr, Inhabited

/-- The places of a span, in pieces that lie in one page each. -/
abbrev Span := List (Loc × Nat)

/-- A chunk still to be performed (R227): source and destination of its row, first source byte in the row, source
bytes. -/
structure Chunk where
  src : Word
  dst : Word
  off : Nat
  n : Nat
  /-- It is under way: the units (bytes, or elements that are decoded) it has written already, their flags, the number
  of its unsettled writes (R299), and the places of its source and destination as they were translated (R220). -/
  early : List Bool := []
  flags : BitVec 6 := 0
  mark : Option Nat := none
  places : Span × Span := ([], [])
deriving DecidableEq, Repr, Inhabited

/-- A copy on the copy engine of a core (R227, R247). -/
structure Copy where
  course : Nat
  core : Nat
  batch : Nat
  srcSp : Space
  dstSp : Space
  /-- ROWB. -/
  rowb : Nat
  todo : List Chunk
  sync : Option Nat
  dec : Option ElemTy
  scope : Nat
  hint : Nat := 0
  /-- Flags of its decoding so far (R249). -/
  flags : BitVec 6 := 0
  /-- The page fault that stops it (R231): address, kind, store, the element's address where it is a scale byte's, record. -/
  page : Option (Word × Nat × Bool × Option Word × Option Nat) := none
  /-- It has ended and only chunks under way are left (R231, R352): trap code, 0 where its course was killed; address. -/
  ended : Option (Nat × Word) := none
deriving DecidableEq, Repr, Inhabited

/-- A tile (R263): codes and scale bytes of its elements, row by row; bits of a bitmap as codes. -/
structure Tile where
  codes : List (BitVec 16)
  scales : List Byte
deriving DecidableEq, Repr, Inhabited

/-- What the tile fetch unit read of an operation's tile: code and scale byte of each element, each with the line it lies
in; the lines of WB and STREAM pages (R269); the number of the fetch. -/
structure TileRead where
  tile : Nat
  elems : List (BitVec 16 × Nat × Byte × Nat)
  lines : List Nat
  mark : Nat := 0
deriving DecidableEq, Repr, Inhabited

/-- What a tile is of (R264): handle, descriptor, origin, extent, `.tb`. -/
structure TileTag where
  ctx : Nat
  handle : Nat
  desc : BitVec 128
  row : Nat
  col : Nat
  rows : Nat
  cols : Nat
  tb : Bool
deriving DecidableEq, Repr, Inhabited

/-- An operand-cache entry of a core. -/
structure OpEntry where
  core : Nat
  tag : TileTag
  tile : Tile
deriving DecidableEq, Repr, Inhabited

/-- The kinds of engine operation. -/
inductive OpKind where
  | mma | mmas | mzero | mcvt
deriving DecidableEq, Repr, Inhabited

/-- An operation of a matrix engine (R265 to R268). -/
structure MatOp where
  kind : OpKind
  course : Nat
  /-- Device core while it is queued there; `none` while it is saved with its course (R268). -/
  core : Option Nat
  batch : Option Nat := none
  o : Mx
  /-- Rows: lane of each row that is written, ascending (R259). -/
  rows : List (Nat × Nat) := []
  /-- Lanes acted (MZERO, MCVT). -/
  acted : Mask := 0
  /-- Scale of MCVT and the stochastic seed as they were at issue. -/
  scale : Nat := 127
  seed : BitVec 16 := 0
  /-- Tiles wanted and, once whole, their data: A, B, and the bitmaps of MMAS. -/
  tags : List TileTag := []
  tiles : List (Option Tile) := []
  /-- What was read early of tiles that are not whole yet (R269), and the lines pinned for them (R263). -/
  early : List TileRead := []
  /-- Tiles that were read, at least in part, before an OCFENCE or HGEN that covers them: no entry is made of them (R264). -/
  uncached : List Nat := []
  /-- PC and split of the instruction. -/
  pc : Word := 0
  split : Nat := 0
  issued : Nat := 0
  /-- When the engine reached it, when it started, and when its tiles became whole; once started, when it completes. -/
  ready : Option Nat := none
  started : Option Nat := none
  finish : Nat := 0
  page : Option (Nat × Word × Nat × Option Word × Option Nat) := none
deriving DecidableEq, Repr, Inhabited

/-- What L2 keeps of a line it holds (R208, R213, R223, R263): it equals memory, it is the first to be evicted of its set,
the base die whose cores brought it in. -/
structure LineTag where
  clean : Bool := false
  first : Bool := false
  die : Nat := 0
  /-- Time until which the line of a pooled-tier page is on its way, and the timestamp of the line's last store when it was
  fetched or written back last (R391). -/
  due : Nat := 0
  wrote : Nat := 0
deriving DecidableEq, Repr, Inhabited

/-- A copy of a WB line with its lease (R286): the cache that holds it (R291, R293), its bytes and poisoned granules, the
timestamp of the store it shows and the last one at which it may serve loads, the tick at which it came, whether it is
the first to be evicted, and the context of the agent it came for (R396). -/
structure Held where
  cache : Nat
  line : Nat
  bytes : List Byte
  bad : Bool × Bool := (false, false)
  wts : Nat
  lease : Nat
  born : Nat
  first : Bool := false
  ctx : Nat := 0
deriving DecidableEq, Repr, Inhabited

/-- A STREAM copy of a line (R222, R296): the agent's, its bytes, which of them its stores changed, whether the agent has
seen the line through a WB alias since, its poisoned granules (R387), and whether it is the first to be evicted and stands
in L2 alone (R223). -/
structure StreamLine where
  who : Agent
  line : Nat
  bytes : List Byte
  changed : BitVec 128 := 0
  seen : Bool := false
  bad : Bool × Bool := (false, false)
  first : Bool := false
  l2 : Bool := false
deriving DecidableEq, Repr, Inhabited

/-- Where a byte is: physical memory, or the scratchpad of a block. -/
inductive Spot where
  | phys (pa : Nat)
  | pad (b off : Nat)
deriving DecidableEq, Repr, Inhabited

/-- Bytes that a chunk wrote before its completion (R299, R300): where they begin, under which POLICY, and for which course's
copy where that is STREAM; the bytes there with the chunk, as far as it wrote them, and without it; the number of the
chunk's writes. -/
structure Shadow where
  spot : Spot
  pol : Nat := 0
  who : Agent := .none
  new : List (Option Byte)
  old : List Byte
  mark : Nat
deriving DecidableEq, Repr, Inhabited

/-- A page-table entry that translation caches hold (R220): the place of its context, how many bits of an address lie below
its level's index, the bits of the address above them, the entry. -/
structure Walked where
  ctx : Nat
  sh : Nat
  page : Nat
  entry : Word
deriving DecidableEq, Repr, Inhabited

/-- What remains of an invalidation (R220): to remove what maps a page of a context, or all of it (context number, ALL, address);
to wait until accesses are performed: those in flight until a time, and chunks and tile fetches under way, by their numbers. -/
inductive TlbJob where
  | remove (ctx : Nat) (all : Bool) (va : Nat)
  | settle (time : Nat) (marks : List Nat)
deriving DecidableEq, Repr, Inhabited

/-- A line of an instruction cache (R91). -/
structure ILine where
  core : Nat
  ctx : Nat
  va : Nat
  pa : Nat
  bytes : List Byte
deriving DecidableEq, Repr, Inhabited

/-- What a core holds beside its blocks. -/
structure CoreSt where
  /-- Quarter-arrays active, and since when its engine has had no work (R282). -/
  arrays : Nat := 0
  idleAt : Nat := 0
  /-- When it last came to hold all four. -/
  fullAt : Nat := 0
  /-- Launch of the last matrix operation, which pays for filler. -/
  filler : Option Nat := none
  /-- SRAM split of the blocks it held last (R209). -/
  split : Nat := 0
deriving DecidableEq, Repr, Inhabited

/-- What a quarter holds (R121, R124). -/
structure QuarterSt where
  last : Option Nat := none
  choices : Nat := 0
deriving DecidableEq, Repr, Inhabited

/-- One direction of a scheduler-to-leaf link (R49): messages under way, which hold a permit each, and those that wait for a
permit; a message names a block that is released to the leaf, or whose end the leaf reports. -/
structure Messages where
  sent : List Nat := []
  kept : List Nat := []
deriving DecidableEq, Repr, Inhabited

/-- A firmware image and its security version (R412, R413); the number 0 stands for the image that was there first. -/
structure Firmware where
  image : Nat := 0
  version : Nat := 0
deriving DecidableEq, Repr, Inhabited

/-- What a cluster holds (R60, R67, R116, R414). -/
structure ClusterSt where
  pool : Nat := 1
  readyAt : Nat := 0
  passn : Nat := 1
  /-- Time at which it began to be drained. -/
  drain : Option Nat := none
  /-- What its leaf controller and its quoin cores run. -/
  leaf : Firmware := {}
  microcode : Firmware := {}
  /-- Blocks waiting for room, oldest first. -/
  rotation : List Nat := []
  /-- When the head was tried last, and that room was released or a block came since. -/
  tried : Nat := 0
  retry : Bool := false
  /-- Its link to the scheduler core: messages to the leaf, and from it. -/
  down : Messages := {}
  up : Messages := {}
deriving DecidableEq, Repr, Inhabited

/-- An energy meter (R21): the matrix engine of a core, the rest of a core, a quoin core, a core's copy engine, an L2 slice,
a DRAM channel. -/
inductive Meter where
  | engine (core : Nat) | core (core : Nat) | quoin (i : Nat) | copier (core : Nat) | slice (n : Nat) | channel (n : Nat)
deriving DecidableEq, Repr, Inhabited

/-- A placement that is tried until it succeeds (R61, R63): blocks, attempts failed, when the next is due, from when a
release starts it, clusters watched, whether room was released there since. -/
structure Attempt where
  launch : Nat
  blocks : List Nat
  n : Nat := 0
  due : Nat := 0
  half : Nat := 0
  watched : List Nat := []
  released : Bool := false
deriving DecidableEq, Repr, Inhabited

/-! ### Queues, leases, channels -/

/-- A packet that a queue read, or that holds it. -/
structure Packet where
  index : Nat
  bytes : List Byte
  /-- When it began to hold the queue. -/
  since : Nat := 0
  parked : Bool := false
  /-- When a WAITMARKS is examined next (R304). -/
  due : Nat := 0
deriving DecidableEq, Repr, Inhabited

/-- A queue (R37, R38). -/
structure Queue where
  base : Word := 0
  ctl : Word := 0
  kick : Word := 0
  read : Word := 0
  stat : Word := 0
  repair : Word := 0
  /-- The packet read and not yet processed (R41). -/
  pkt : Option Packet := none
  /-- The WAITMARKS or REMOVE that holds the queue (R44, R24). -/
  hold : Option Packet := none
  /-- Packets processed and not completed, by index (R45). -/
  open' : List Nat := []
deriving DecidableEq, Repr, Inhabited

/-- A boost lease (R51, R52). -/
inductive LeaseSt where
  | pending | live | ending (at' : Nat) | ended
deriving DecidableEq, Repr, Inhabited

structure Lease where
  ctx : Nat
  mark : Nat
  durUs : Nat
  st : LeaseSt
  /-- When it was asked for, granted, and ends by its duration. -/
  asked : Nat
  granted : Nat := 0
  endAt : Nat := 0
  clusters : List Nat := []
deriving DecidableEq, Repr, Inhabited

/-- A transfer channel (R403 to R407). -/
structure Channel where
  ctl : Word := 0
  send : Word := 0
  smark : Word := 0
  recv : Word := 0
  rsize : Word := 0
  rmark : Word := 0
  kick : Word := 0
  read : Word := 0
  /-- The partner's state as last received. -/
  pEnable : Bool := false
  pError : Bool := false
  pSize : Word := 0
  /-- The descriptor at CHREAD has been sent and is not completed; it has failed (R405, R407). -/
  sending : Bool := false
  failed : Bool := false
  /-- Bytes of a descriptor of the partner's are arriving. -/
  arriving : Bool := false
deriving DecidableEq, Repr, Inhabited

/-- A peer link (R402). -/
structure Link where
  up : Bool := false
  lanes : Nat := 0
deriving DecidableEq, Repr, Inhabited

/-- A pool window (R399). -/
structure PoolWin where
  base : Word := 0
  size : Word := 0
  fab : Word := 0
  ctl : Word := 0
deriving DecidableEq, Repr, Inhabited

/-- A message to a peer (R404, R407). -/
inductive PeerOut where
  | bytes (ch : Nat) (off : Nat) (bs : List Byte)
  | done (ch : Nat)
  | state (ch : Nat) (enable error : Bool) (size : Word)
deriving DecidableEq, Repr, Inhabited

/-! ### Management -/

/-- A record of the boot journal (R409). -/
structure Journal where
  boot : BitVec 32
  unit : BitVec 32
  step : BitVec 16
  way : BitVec 8
  result : BitVec 8
  detail : BitVec 32
deriving DecidableEq, Repr, Inhabited

/-- A staged firmware image (R412, R413). -/
structure Staged where
  comp : Nat
  image : Nat
  transferred : Bool := false
  version : Option Nat := none
  applied : Bool := false
deriving DecidableEq, Repr, Inhabited

/-- What the management controller sends over MCTP (R410 to R418). -/
inductive Mctp where
  | report (ranges : List (Nat × Nat)) (cores channels slices : List Nat)
  | journalOnly (js : List Journal)
  | pldm (command : Nat) (ok : Bool)
  | status (updating : Bool) (left : List Nat)
  | digests (d : Nat × Nat)
  | certificate (c : List Nat) (sig : Nat × Nat)
  | challenge (nonce : Nat) (sig : Nat × Nat)
  | measurements (m : List Nat) (sig : Nat × Nat)
  | failure
deriving DecidableEq, Repr, Inhabited

/-- The management controller (R408 to R418). -/
structure Mgmt where
  /-- BOOT of the last boot; the step a boot under way has come to, and its unit that passed last. -/
  boot : BitVec 32 := 0
  step : Nat := 0
  unit : Nat := 0
  running : Bool := false
  stopped : Bool := false
  journal : List Journal := []
  coresOut : List Nat := []
  channelsOut : List Nat := []
  slices : List Nat := []
  /-- DRAM rows moved to spare rows: channel, row. -/
  rows : List (Nat × Nat) := []
  /-- Quarters recalibrated, with the time until which they issue nothing (R416). -/
  recal : Cells Nat := []
  updating : Bool := false
  table : List Nat := []
  staged : List Staged := []
  fuse : Nat := 0
  /-- Images of flash banks A and B by component; that a boot from bank B has not ended; components whose image in force lies in
  bank B since an activation. -/
  bankA : Cells Firmware := []
  bankB : Cells Firmware := []
  fromB : Bool := false
  activeB : List Nat := []
  /-- The configuration records in force: setting and value (R417). -/
  active : List (Nat × Nat) := []
  /-- What runs, by component: 0 controller, 1 leaf, 2 scheduler, 3 microcode. -/
  runs : Cells Firmware := []
  /-- The controller's image that runs from its next restart (R412). -/
  controller : Option Firmware := none
  /-- Mapped-out units that are to be tried again: step, unit (R410). -/
  cleared : List (Nat × Nat) := []
  /-- Cores that are drained before they are mapped out, with the time since when (R416). -/
  draining : Cells (Option Nat) := []
  /-- Cores, channels and quarters whose counters call for an action (R416). -/
  sick : List Nat := []
  hot : List Nat := []
  slow : List Nat := []
  /-- What firmware watches: corrected errors of a core and of a channel in an hour, replays of a quarter in a second (R416). -/
  coreErrs : Cells (Nat × Nat) := []
  chanErrs : Cells (Nat × Nat) := []
  replays : Cells (Nat × Nat) := []
  /-- Slices that failed and are not degraded yet; slices with a containment event, and the launches that it ends (R388, R416). -/
  failing : List Nat := []
  contained : List (Nat × List Nat) := []
  /-- The rolling update under way: next cluster, new leaf and microcode; clusters left on the old ones (R414). -/
  leaf : Option (Nat × Option Firmware × Option Firmware) := none
  left : List Nat := []
  scheduler : Option Firmware := none
  /-- Scheduler cores that have failed, and which runs (true: the spare of R49). -/
  spare : Bool := false
  failed : Nat := 0
  /-- The core that ran has failed, and the other is to take over. -/
  takeover : Bool := false
deriving DecidableEq, Repr, Inhabited

/-! ### The state -/

/-- The device. -/
structure State where
  /-- Physical memory by byte address (R214); unlisted bytes read `Config.memFill`. -/
  mem : Cells Byte := []
  /-- Lines of WB pages that L2 holds, by line number, and what it keeps of them (R208, R222). -/
  wb : Cells (List Byte) := []
  tags : Cells LineTag := []
  /-- By line: timestamps of its last store and of the longest lease given on it (R286). -/
  stamps : Cells (Nat × Nat) := []
  /-- Copies in L1 caches, in quoin cores' caches and in the private L2s of PARTITIONED mode (R289, R291, R293). -/
  held : List Held := []
  /-- STREAM copies (R296). -/
  stream : List StreamLine := []
  /-- Bytes written by chunks that are not complete (R299). -/
  shadows : List Shadow := []
  /-- Poisoned 64-byte granules of memory, and of the lines that caches hold (R387). -/
  poison : Cells Bool := []
  linePoison : Cells Bool := []
  ctxs : List Ctx := []
  regions : List Region := []
  launches : List Launch := []
  blocks : List Block := []
  courses : List Course := []
  lanes : List Lane := []
  copies : List Copy := []
  ops : List MatOp := []
  opcache : List OpEntry := []
  icache : List ILine := []
  cores : Cells CoreSt := []
  quarters : Cells QuarterSt := []
  clusters : Cells ClusterSt := []
  attempts : List Attempt := []
  queues : Cells Queue := []
  leases : List Lease := []
  channels : Cells Channel := []
  links : Cells Link := []
  windows : Cells PoolWin := []
  /-- PARTITIONED is the device's L2 mode (R59); SHARED is in force after reset (log 7, DESIGN CHOICE: R5, R59 and R358 give
  none). -/
  partitioned : Bool := false
  /-- TLBINV_VA, TLBINV_CTL (R220). -/
  tlbVa : Word := 0
  tlbCtl : Word := 2
  /-- What the translation caches hold, and what remains of the invalidation under way (R220). -/
  walks : List Walked := []
  tlbJob : Option TlbJob := none
  /-- CTXADDR, CTXCMD, CTXSTAT (R360). -/
  ctxAddr : Word := 0
  ctxCmd : Word := 0
  ctxStat : Word := 0
  /-- SLEWTAB and SLEWWAIT of the base dies (R283). -/
  slewTab : Cells Word := []
  slewWait : Cells Word := []
  /-- By die: the steps of the limiter since start-up up to the one performed last (R282). -/
  slewDone : Cells Nat := []
  /-- REPLAYCNT, REPLAYQN, ERRCNT (R389). -/
  replayCnt : Cells Word := []
  replayQn : Cells Word := []
  errCnt : Cells Word := []
  /-- POOLSTAT (R393): RECORDS, CAUSE, MOVING, UP; the ports trained; the fabric's report. -/
  poolRecords : Nat := 0
  poolCause : Nat := 0
  poolMoving : Bool := false
  poolUp : Bool := false
  portA : Bool := false
  portB : Bool := false
  poolReach : Bool := false
  /-- BIRsp answers on the fabric ports, by line, newest first (R401). -/
  birsps : List Nat := []
  /-- The queue served last in the scheduler core's turn (R45). -/
  turn : Nat := 0
  mgmt : Mgmt := {}
  /-- Intervals of R21 for which energy was attributed, and charges applied. -/
  energyAt : Nat := 0
  chargeAt : Nat := 0
  /-- What each meter's unit did for each launch in the interval under way, in the unit that R21 divides its energy by. -/
  served : List (Meter × Nat × Nat) := []
  /-- MSI-X vectors raised (R42), newest first; messages on MCTP and to peers; answers of host reads. -/
  vectors : List Nat := []
  mctp : List Mctp := []
  peerOut : List PeerOut := []
  hostReads : List (Nat × Option (List Byte)) := []
  /-- Cycles of the 1.75 GHz reference clock. -/
  clock : Nat := 0
  /-- The model's own (logs 2 and 12): steps taken, the agent that executes, outside events to come, free values
  drawn. -/
  tick : Nat := 0
  cur : Agent := .none
  inputs : List Instr := []
  fresh : Nat := 0
deriving DecidableEq, Repr, Inhabited

/-- What SLEWTAB of a die reads where no record set it (R283). -/
def slewDefault : Word := 0x0404040404040404

/-- The device right after reset: it holds no context, no launch and no block; every host port register is at
the reset value of its table. -/
def State.reset : State := {}

end Sys2Proof.Machine
end

