-- ==== Sys2Proof/Machine/Access.lean ====
section
/-!
DEFINITION. Reading and writing the registers of the agent that executes an instruction: a split of a course
or an ejected lane (R118, R138, R146, R160, R161, R385).
-/

namespace Sys2Proof.Machine

/-! ### Items of the state -/

def State.course (s : State) (c : Nat) : Course := s.courses.getD c default
def State.modCourse (s : State) (c : Nat) (f : Course → Course) : State :=
  { s with courses := s.courses.modify c f }
def State.lane (s : State) (q : Nat) : Lane := s.lanes.getD q default
def State.modLane (s : State) (q : Nat) (f : Lane → Lane) : State := { s with lanes := s.lanes.modify q f }
def State.block (s : State) (b : Nat) : Block := s.blocks.getD b default
def State.modBlock (s : State) (b : Nat) (f : Block → Block) : State :=
  { s with blocks := s.blocks.modify b f }
def State.launch (s : State) (l : Nat) : Launch := s.launches.getD l default
def State.modLaunch (s : State) (l : Nat) (f : Launch → Launch) : State :=
  { s with launches := s.launches.modify l f }
def State.region (s : State) (r : Nat) : Region := s.regions.getD r default
def State.modRegion (s : State) (r : Nat) (f : Region → Region) : State :=
  { s with regions := s.regions.modify r f }

/-- The context that a number names: the one created last under it (R360). -/
def State.ctxPlace (s : State) (n : Nat) : Option Nat :=
  (List.range s.ctxs.length).reverse.find? fun i =>
    let x := s.ctxs.getD i default
    x.num == n && x.st != .destroyed
def State.ctx (s : State) (i : Nat) : Ctx := s.ctxs.getD i default
def State.modCtx (s : State) (i : Nat) (f : Ctx → Ctx) : State := { s with ctxs := s.ctxs.modify i f }

def State.cluster (s : State) (k : Nat) : ClusterSt := Cells.get {} s.clusters k
def State.modCluster (s : State) (k : Nat) (f : ClusterSt → ClusterSt) : State :=
  { s with clusters := Cells.update {} s.clusters k f }
def State.coreSt (s : State) (k : Nat) : CoreSt := Cells.get {} s.cores k
def State.modCore (s : State) (k : Nat) (f : CoreSt → CoreSt) : State :=
  { s with cores := Cells.update {} s.cores k f }
def State.queue (s : State) (q : Nat) : Queue := Cells.get {} s.queues q
def State.modQueue (s : State) (q : Nat) (f : Queue → Queue) : State :=
  { s with queues := Cells.update {} s.queues q f }
def State.channel (s : State) (q : Nat) : Channel := Cells.get {} s.channels q
def State.modChannel (s : State) (q : Nat) (f : Channel → Channel) : State :=
  { s with channels := Cells.update {} s.channels q f }

/-- Launch, context and core of a course. -/
def State.launchIx (s : State) (c : Nat) : Nat := (s.block (s.course c).block).launch
def State.launchOf (s : State) (c : Nat) : Launch := s.launch (s.launchIx c)
def State.ctxOf (s : State) (c : Nat) : Nat := (s.launchOf c).ctx
def State.coreOf (s : State) (c : Nat) : Nat := (s.block (s.course c).block).core
/-- Running time of a course's context (R27). -/
def State.run (s : State) (c : Nat) : Nat := (s.ctx (s.ctxOf c)).run

/-- The course that the executing agent is, or was ejected from. -/
def State.curCourse (s : State) : Nat :=
  match s.cur with
  | .none => 0
  | .course c _ => c
  | .lane q => (s.lane q).course
/-- The executing agent is an ejected lane. -/
def State.isLane (s : State) : Bool :=
  match s.cur with
  | .lane _ => true
  | _ => false
/-- The executing agent exists. -/
def State.hasAgent (s : State) : Bool :=
  match s.cur with
  | .none => false
  | .course c k => decide (c < s.courses.length) && decide (k < (s.course c).splits.length)
  | .lane q => decide (q < s.lanes.length)

/-- Split `k` of course `c`. -/
def State.split (s : State) (c k : Nat) : Split := (s.course c).splits.getD k default
def State.modSplit (s : State) (c k : Nat) (f : Split → Split) : State :=
  s.modCourse c fun x => { x with splits := x.splits.modify k f }

/-! ### The executing agent -/

def State.pc (s : State) : Word :=
  match s.cur with
  | .none => 0
  | .course c k => (s.split c k).pc
  | .lane q => (s.lane q).pc
def State.setPc (s : State) (v : Word) : State :=
  match s.cur with
  | .none => s
  | .course c k => s.modSplit c k fun x => { x with pc := v }
  | .lane q => s.modLane q fun x => { x with pc := v }
/-- Make the agent wait; `next` is the instruction after the one that waits. -/
def State.setWait (s : State) (w : Wait) (next : Word) : State :=
  match s.cur with
  | .none => s
  | .course c k => s.modSplit c k fun x => { x with wait := w, since := s.clock, next := next }
  | .lane q => s.modLane q fun x => { x with wait := w, since := s.clock, next := next }
def State.wait (s : State) : Wait :=
  match s.cur with
  | .none => .ready
  | .course c k => (s.split c k).wait
  | .lane q => (s.lane q).wait

/-- The active set of the agent (R118, R138). -/
def State.active (s : State) : Mask :=
  match s.cur with
  | .none => 0
  | .course c k => (s.split c k).a
  | .lane q => Mask.one (s.lane q).lane

def State.regs (s : State) : Regs :=
  match s.cur with
  | .none => {}
  | .course c _ => (s.course c).regs
  | .lane q => (s.lane q).regs
def State.modRegs (s : State) (f : Regs → Regs) : State :=
  match s.cur with
  | .none => s
  | .course c _ => s.modCourse c fun x => { x with regs := f x.regs }
  | .lane q => s.modLane q fun x => { x with regs := f x.regs }

/-! ### Scalars -/

/-- The 32 lanes of a mask that mask word `k` shows (R118). -/
def maskWord (m : Mask) (k : Nat) : Word := (m.extractLsb' (32 * k) 32).zeroExtend 64
/-- `m` with the lanes of mask word `k` replaced from `w`. -/
def setMaskWord (m : Mask) (k : Nat) (w : Word) : Mask :=
  (m &&& ~~~(((0xFFFFFFFF : BitVec 96)) <<< (32 * k))) ||| ((w.truncate 32 : BitVec 32).zeroExtend 96 <<< (32 * k))

/-- sN (R118, R146): s0 reads 0, s61 to s63 are the agent's active set. -/
def State.sreg (s : State) (n : Nat) : Word :=
  if n = 0 then 0
  else if n < 61 then Cells.get 0 s.regs.s n
  else maskWord s.active (n - 61)

/-- A write of sN (R118, R138, R146). -/
def State.setS (s : State) (n : Nat) (v : Word) : State :=
  if n = 0 then s
  else if n < 61 then
    s.modRegs fun r => { r with s := Cells.set 0 r.s n v, sst := Cells.erase r.sst n }
  else
    match s.cur with
    | .course c k => s.modSplit c k fun x => { x with a := setMaskWord x.a (n - 61) v &&& x.m }
    | _ => s

/-! ### Predicates and groups -/

/-- pN in all lanes (R161). -/
def State.preg (s : State) (n : Nat) : Mask := if n = 0 then Mask.all else Cells.get 0 s.regs.p n
/-- Lanes `m` of pN take their bits of `v`; p0 takes nothing (R161). -/
def State.setP (s : State) (n : Nat) (m v : Mask) : State :=
  if n = 0 then s
  else s.modRegs fun r => { r with p := Cells.update 0 r.p n fun old => (old &&& ~~~m) ||| (v &&& m) }

/-- What an unwritten group register holds (R160). -/
def Group.empty : Group := ⟨4, 0⟩
/-- gN (R160). -/
def State.greg (s : State) (n : Nat) : Group :=
  if n = 0 then ⟨96, Mask.all⟩ else Cells.get Group.empty s.regs.g n
def State.setG (s : State) (n : Nat) (g : Group) : State :=
  s.modRegs fun r => { r with g := Cells.set Group.empty r.g n g }

/-- Lanes that a G class instruction acts on (R71). -/
def State.acted (s : State) (g : Guard) : Mask :=
  let p := s.preg g.pred.toNat
  s.active &&& (if g.neg then ~~~p else p)

/-- The lanes of a set, ascending. -/
def Mask.list (m : Mask) : List Nat := (List.range 96).filter fun l => m.has l

/-! ### Vector registers and latches -/

/-- v`r` in lane `l`. -/
def State.vreg (s : State) (r l : Nat) : Lane32 := Cells.get 0 s.regs.v (96 * r + l)
/-- The 64-bit value of pair `r`, `r + 1` in lane `l` (R166). -/
def State.vpair (s : State) (r l : Nat) : Word := s.vreg (r + 1) l ++ s.vreg r l

/-- New state of a code word after a write that covers it or a part of it (R385). -/
def WordSt.write (full : Bool) (w : WordSt) : WordSt := if full then .clean else w

/-- Code words of register `r` after a write of lanes `m` by this agent (R384, R385). -/
def writeWords (lane : Bool) (r : Nat) (m : Mask) (vst : Cells WordSt) : Cells WordSt :=
  [0, 1, 2].foldl (fun st k =>
    let part := m.extractLsb' (32 * k) 32
    if part = 0 then st
    else Cells.update .clean st (3 * r + k) (WordSt.write (lane || part = BitVec.allOnes 32))) vst

/-- v`r` takes the values given in their lanes; its dirty bit is set (R363). -/
def State.setV (s : State) (r : Nat) (vals : List (Nat × Lane32)) : State :=
  let m := vals.foldl (fun m x => m ||| Mask.one x.1) (0 : Mask)
  let s' := s.modRegs fun g =>
    { g with
      v := vals.foldl (fun c x => Cells.set 0 c (96 * r + x.1) x.2) g.v
      vst := writeWords s.isLane r m g.vst }
  match s.cur with
  | .course c _ => if vals.isEmpty then s' else s'.modCourse c fun x => { x with dirty := Cells.set false x.dirty r true }
  | _ => s'

/-- The pair `r`, `r + 1` takes 64-bit values (R166). -/
def State.setV64 (s : State) (r : Nat) (vals : List (Nat × Word)) : State :=
  (s.setV r (vals.map fun x => (x.1, (x.2.extractLsb' 0 32 : Lane32)))).setV (r + 1)
    (vals.map fun x => (x.1, (x.2.extractLsb' 32 32 : Lane32)))

/-- BL`i` (R123). -/
def State.latch (s : State) (i : Nat) : Latch := s.regs.bl.getD i ⟨0, []⟩

/-- Shift the latches and put a result into BL0 (R123). -/
def State.pushLatch (s : State) (vals : List (Nat × Lane32)) : State :=
  let l : Latch :=
    ⟨vals.foldl (fun m x => m ||| Mask.one x.1) 0, vals.foldl (fun c x => Cells.set 0 c x.1 x.2) []⟩
  s.modRegs fun r => { r with bl := (l :: r.bl).take 4 }

/-- Every latch invalid in every lane (R124). -/
def State.clearLatches (s : State) (c : Nat) : State := s.modCourse c fun x => { x with regs := { x.regs with bl := [] } }

/-- OR flags into the agent's flag word (R181). -/
def State.orFlags (s : State) (f : BitVec 6) : State := s.modRegs fun r => { r with flags := r.flags ||| f }

/-- The flag word as it stands at a time: the flags of loads that have returned are in it (R183). -/
def Regs.flagsAt (r : Regs) (now : Nat) : BitVec 6 :=
  (r.late.filter fun e => decide (e.1 ≤ now)).foldl (fun f e => f ||| e.2) r.flags
/-- The flags of loads that return at `due`. -/
def Regs.addLate (r : Regs) (now due : Nat) (f : BitVec 6) : Regs :=
  if f = 0 then r
  else { r with flags := r.flagsAt now, late := r.late.filter (fun e => decide (now < e.1)) ++ [(due, f)] }
/-- An ejected lane's flag word goes into its course's (R183). -/
def Regs.takeFlags (r x : Regs) : Regs := { r with flags := r.flags ||| x.flags, late := r.late ++ x.late }

end Sys2Proof.Machine
end

