-- ==== Sys2Proof/Machine/Memory.lean ====
section
/-!
DEFINITION. Physical memory and the caches over it (R208, R213, R214, R222, R286 to R297), translation (R216 to
R220, R400), and the checks of one access in the order of R235.
-/

namespace Sys2Proof.Machine

/-- Why an instruction does not complete: a trap (R342), the TRAP of R369 whose TPC is the next
instruction, a page fault to repair (R354), a poisoned register (R386), something it must wait for, or a
named stop. -/
inductive Exn where
  | trap (code : Nat) (lane : Nat) (addr info : Word)
  | trapNext (code : Nat) (addr info : Word)
  /-- Address, kind, store, fetch, lane, and the lane's own address where the page is that of its scale byte. -/
  | page (va : Word) (kind : Nat) (write exec : Bool) (lane : Nat) (scale : Option Word)
  | halt (lane : Nat) (info : Word)
  | stall
  /-- A block-set member that has not started (R64). -/
  | await (b : Nat)
  | stop (f : Fault)
deriving DecidableEq, Repr, Inhabited

/-- A trap that concerns no single lane. -/
def trapC (code : Nat) (addr : Word := 0) (info : Word := 0) : Exn := .trap code 127 addr info

/-- Trap codes (R342). -/
def tIllegalOp : Nat := 0x01
def tIllegalPair : Nat := 0x02
def tStraddle : Nat := 0x03
def tExecPool : Nat := 0x04
def tRegBounds : Nat := 0x05
def tMisaligned : Nat := 0x06
def tPageFault : Nat := 0x07
def tProtection : Nat := 0x08
def tFormat : Nat := 0x09
def tScratch : Nat := 0x0A
def tWeakWait : Nat := 0x0B
def tLatchEmpty : Nat := 0x0C
def tEjectIllegal : Nat := 0x0D
def tEjectOverdue : Nat := 0x0E
def tEjectLane : Nat := 0x0F
def tBarrier : Nat := 0x10
def tCollective : Nat := 0x11
def tQuota : Nat := 0x12
def tPoolLost : Nat := 0x13
def tPoison : Nat := 0x14
def tBatch : Nat := 0x15
def tSvc : Nat := 0x16
def tTrap : Nat := 0x17
def tBrk : Nat := 0x18
def tWatchdog : Nat := 0x19

/-! ### Bytes -/

/-- The number that bytes make, first byte least significant (R14). -/
def leNat : List Byte → Nat
  | [] => 0
  | b :: bs => b.toNat + 256 * leNat bs
/-- The `n` low bytes of a number, least significant first. -/
def natLe : Nat → Nat → List Byte
  | 0, _ => []
  | n + 1, v => BitVec.ofNat 8 v :: natLe n (v / 256)

/-- R214. -/
def isDram (pa : Nat) : Bool := decide (pa < 0x6C00000000)
def isDevice (pa : Nat) : Bool := decide (0x7000000000000 ≤ pa ∧ pa < 0x8000000000000)
def isPool (pa : Nat) : Bool := decide (0x8000000000000 ≤ pa ∧ pa < 0xC000000000000)
def isHost (pa : Nat) : Bool := decide (0xC000000000000 ≤ pa ∧ pa < 0x10000000000000)

/-- Bits `lo + len - 1 : lo` of a word as a number. -/
def fld {n : Nat} (w : BitVec n) (lo len : Nat) : Nat := w.toNat / 2 ^ lo % 2 ^ len
/-- The window translates `n` bytes at a pooled-tier address (R399). -/
def PoolWin.holds (w : PoolWin) (pa n : Nat) : Bool :=
  w.ctl.getLsbD 0 && decide (w.base.toNat ≤ pa) && decide (pa + n ≤ w.base.toNat + w.size.toNat * 0x40000000)
/-- Where memory keeps the byte at a physical address: its own number, or for the pooled tier, through its window, the
target and the byte's fabric address there (R399). -/
def State.memKey (s : State) (pa : Nat) : Nat :=
  if isPool pa then
    match s.windows.find? fun e => e.2.holds pa 1 with
    | some e => 2 ^ 80 + fld e.2.ctl 16 12 * 2 ^ 64 + (e.2.fab.toNat / 0x40000000 * 0x40000000 + (pa - e.2.base.toNat)) % 2 ^ 64
    | none => pa
  else pa
/-- A byte of memory itself. -/
def State.memByte (s : State) (pa : Nat) : Byte := Cells.get Config.memFill s.mem (s.memKey pa)
/-- A byte as L2 holds it, or memory: the value of the last WB store (R285). -/
def State.wbByte (s : State) (pa : Nat) : Byte :=
  match Cells.get [] s.wb (pa / 128) with
  | [] => s.memByte pa
  | line => line.getD (pa % 128) 0
/-- The bytes of a line as L2 holds it, or as memory does. -/
def State.lineBytes (s : State) (ln : Nat) : List Byte :=
  match Cells.get [] s.wb ln with
  | [] => (List.range 128).map fun i => s.memByte (ln * 128 + i)
  | line => line
/-- A byte read by the device itself under POLICY 0 WB, 1 STREAM, 2 UC (R222): no copy held under a lease serves it. -/
def State.readByte (s : State) (pol pa : Nat) : Byte := if pol = 2 then s.memByte pa else s.wbByte pa

def State.tag (s : State) (ln : Nat) : LineTag := Cells.get {} s.tags ln
def State.setMemByte (s : State) (pa : Nat) (b : Byte) : State :=
  { s with mem := Cells.set Config.memFill s.mem (s.memKey pa) b }
/-- R286: a store's timestamp lies beyond every lease given on its line. -/
def State.stamp (s : State) (ln : Nat) : Nat × Nat := Cells.get (0, 0) s.stamps ln
/-- The timestamp of the next store to a line. -/
def State.nextStamp (s : State) (ln : Nat) : Nat := max (s.stamp ln).1 (s.stamp ln).2 + 1
/-- R215, R387: a granule that returns poison from memory. -/
def State.memPoison (s : State) (pa : Nat) : Bool :=
  Cells.get false s.poison (s.memKey pa / 64) || (isDram pa && s.mgmt.channelsOut.contains (pa / 0x18000000))
/-- L2 holds the line. -/
def State.inL2 (s : State) (ln : Nat) : Bool := !(Cells.get [] s.wb ln).isEmpty
/-- The line in L2 has the two granules poisoned as given. -/
def State.withLinePoison (s : State) (ln : Nat) (bad : Bool × Bool) : Cells Bool :=
  Cells.set false (Cells.set false s.linePoison (2 * ln) bad.1) (2 * ln + 1) bad.2
/-- The poison of L2's granules once it holds the line: a line that comes in brings memory's with it (R387). -/
def State.fetchedPoison (s : State) (ln : Nat) : Cells Bool :=
  if s.inL2 ln then s.linePoison else s.withLinePoison ln (s.memPoison (128 * ln), s.memPoison (128 * ln + 64))
/-- A WB store of one byte: its line is held dirty from then on, and the store takes its timestamp. -/
def State.setWbByte (s : State) (pa : Nat) (b : Byte) : State :=
  let ln := pa / 128
  { s with
    wb := Cells.set [] s.wb ln ((s.lineBytes ln).set (pa % 128) b)
    linePoison := s.fetchedPoison ln
    tags := Cells.update {} s.tags ln fun g => { g with clean := false }
    stamps := Cells.set (0, 0) s.stamps ln (s.nextStamp ln, s.nextStamp ln) }
/-- Store a byte by the device itself under POLICY 0 WB, 1 STREAM, 2 UC. -/
def State.storeByte (s : State) (pol pa : Nat) (b : Byte) : State := if pol = 2 then s.setMemByte pa b else s.setWbByte pa b

/-- `n` bytes from `pa` upward. -/
def State.readBytes (s : State) (pol pa n : Nat) : List Byte := (List.range n).map fun i => s.readByte pol (pa + i)
def State.storeBytes (s : State) (pol : Nat) : Nat → List Byte → State
  | _, [] => s
  | pa, b :: bs => State.storeBytes (s.storeByte pol pa b) pol (pa + 1) bs

/-- A 64-bit little-endian value through the coherent caches. -/
def State.read64 (s : State) (pa : Nat) : Word := BitVec.ofNat 64 (leNat (s.readBytes 0 pa 8))
def State.write64 (s : State) (pa : Nat) (v : Word) : State := s.storeBytes 0 pa (natLe 8 v.toNat)

/-- A granule that returns poison, from the line that L2 holds or from memory. -/
def State.poisoned (s : State) (pa : Nat) : Bool :=
  if s.inL2 (pa / 128) then Cells.get false s.linePoison (pa / 64) else s.memPoison pa
/-- The poisoned granules of a line as its next reader finds them. -/
def State.lineBad (s : State) (ln : Nat) : Bool × Bool := (s.poisoned (128 * ln), s.poisoned (128 * ln + 64))
def State.anyPoison (s : State) (pa n : Nat) : Bool := (List.range n).any fun i => s.poisoned (pa + i)
/-- The granules that `n` bytes at `pa` cover whole. -/
def wholeGranules (pa n : Nat) : List Nat := (List.range ((pa + n) / 64 - (pa + 63) / 64)).map ((pa + 63) / 64 + ·)
/-- R387: a write of a copy chunk or of the host clears the poison of the granules that it covers whole, where it wrote them:
in L2, or under UC and where L2 does not hold the line, in memory. -/
def State.coverPoison (s : State) (pol pa n : Nat) : State :=
  let whole := wholeGranules pa n
  let cached (g : Nat) : Bool := pol != 2 && s.inL2 (g / 2)
  { s with
    poison := (whole.filter fun g => !cached g).foldl (fun m g => Cells.erase m (s.memKey (64 * g) / 64)) s.poison
    linePoison := s.linePoison.filter fun e => !(whole.contains e.1 && cached e.1) }
/-- Memory's granule at an address becomes poisoned, or sound (R387). -/
def State.setPoison (s : State) (pa : Nat) (v : Bool) : State := { s with poison := Cells.set false s.poison (s.memKey pa / 64) v }

/-! ### Lines of L2 (R208, R213, R222, R255) -/

/-- R213: the slice of a line, given the base die of the accessing core. -/
def sliceOf (partitioned : Bool) (die ln : Nat) : Nat :=
  let unit := 128 * ln / 4096
  if partitioned then 24 * die + unit % 24 else unit % 144
/-- The slice that holds a line. -/
def State.slice (s : State) (ln : Nat) : Nat := sliceOf s.partitioned (s.tag ln).die ln

/-- Memory's granules of a line are poisoned as given. -/
def State.withPoison (s : State) (ln : Nat) (bad : Bool × Bool) : Cells Bool :=
  Cells.set false (Cells.set false s.poison (s.memKey (128 * ln) / 64) bad.1) (s.memKey (128 * ln + 64) / 64) bad.2
/-- A line of L2 that is written back takes its poison to memory, and its sound granules make memory's sound (R387). -/
def State.poisonDown (s : State) (ln : Nat) : State :=
  { s with poison := s.withPoison ln (Cells.get false s.linePoison (2 * ln), Cells.get false s.linePoison (2 * ln + 1)) }
/-- Write a dirty line back to memory; it stays held and is clean (R255). -/
def State.cleanLine (s : State) (ln : Nat) : State :=
  match Cells.get [] s.wb ln with
  | [] => s
  | line =>
    if (s.tag ln).clean then s
    else { (s.storeBytes 2 (128 * ln) line).poisonDown ln with
      tags := Cells.update {} s.tags ln fun g => { g with clean := true, wrote := (s.stamp ln).1 } }

/-- Granule `k` of a line, poisoned as `old` says, after a STREAM copy's changed bytes are written over it: they bring the
copy's own poison; sound ones that cover it whole make it sound (R387). -/
def StreamLine.over (x : StreamLine) (k : Nat) (bad old : Bool) : Bool :=
  let ch := x.changed.extractLsb' (64 * k) 64
  if ch = 0 then old else bad || (old && ch != BitVec.allOnes 64)
/-- The same of both granules. -/
def StreamLine.overBad (x : StreamLine) (old : Bool × Bool) : Bool × Bool := (x.over 0 x.bad.1 old.1, x.over 1 x.bad.2 old.2)
/-- R296: a STREAM copy is written back, as one store of the bytes that stores changed; the copy is clean then. -/
def State.writeStream (s : State) (x : StreamLine) : State :=
  let bytes := (List.range 128).filter fun i => x.changed.getLsbD i
  let bad := x.overBad (s.lineBad x.line)
  let s1 := { s with stream := s.stream.map fun y => if y == x then { y with changed := 0 } else y }
  if bytes.isEmpty then s1
  else if s.inL2 x.line then
    let t := bytes.foldl (fun s i => s.setWbByte (128 * x.line + i) (x.bytes.getD i 0)) s1
    { t with linePoison := t.withLinePoison x.line bad, tags := Cells.update {} t.tags x.line fun g => { g with due := 0 } }
  else bytes.foldl (fun s i => s.setMemByte (128 * x.line + i) (x.bytes.getD i 0))
    { s1 with poison := s.withPoison x.line bad, stamps := Cells.set (0, 0) s.stamps x.line (s.nextStamp x.line, s.nextStamp x.line) }
/-- Every STREAM copy of a line is written back. -/
def State.flushStream (s : State) (ln : Nat) : State :=
  (s.stream.filter fun x => x.line == ln).foldl (fun s x => s.writeStream x) s
/-- Write back what caches hold of a line, STREAM copies first; it stays held (R255). -/
def State.writeBackLine (s : State) (ln : Nat) : State := (s.flushStream ln).cleanLine ln
/-- No cache holds the line any more; what it held is lost. -/
def State.forgetLine (s : State) (ln : Nat) : State :=
  { s with
    wb := Cells.erase s.wb ln
    tags := Cells.erase s.tags ln
    linePoison := s.linePoison.filter fun e => e.1 / 2 != ln
    held := s.held.filter fun e => e.line != ln
    stream := s.stream.filter fun x => x.line != ln }
/-- A line leaves L2, and with it every L1 (R208); what is dirty is written back first (R255). -/
def State.flushLine (s : State) (ln : Nat) : State := (s.writeBackLine ln).forgetLine ln
/-- Every line that lies where `p` says leaves L2. -/
def State.flushWhere (s : State) (p : Nat → Bool) : State :=
  (s.wb.filter fun e => p (128 * e.1)).foldl (fun s e => s.flushLine e.1) s
/-- Every dirty line that lies where `p` says is written back. -/
def State.cleanWhere (s : State) (p : Nat → Bool) : State :=
  (s.wb.filter fun e => p (128 * e.1)).foldl (fun s e => s.cleanLine e.1) s

/-- R241, R242, R246: accesses at POOL or SYSTEM scope are performed at the pooled tier and in host memory. -/
def isFar (scope pa : Nat) : Bool := decide (4 ≤ scope) && (isPool pa || (decide (5 ≤ scope) && isHost pa))
/-- Every dirty line there is written back. -/
def State.performAt (s : State) (scope : Nat) : State := if scope < 4 then s else s.cleanWhere (isFar scope)

/-! ### Translation -/

/-- Why a walk ends without a leaf (R218, R221, R387). -/
inductive WalkErr where
  | nonCanonical | invalid | malformed | poison
deriving DecidableEq, Repr, Inhabited

/-- R400: `n` bytes at a pooled-tier address lie inside an enabled window of the context. -/
def State.inWindow (s : State) (ctx pa n : Nat) : Bool := s.windows.any fun e => fld e.2.ctl 32 32 == ctx && e.2.holds pa n

/-- R218, R400: a leaf entry at the level whose page has 2^`sh` bytes is malformed. -/
def leafMalformed (s : State) (ctx : Nat) (e : Word) (sh : Nat) : Bool :=
  let fmt := fld e 7 4
  let geom := fld e 11 2
  let pol := fld e 5 2
  let base := fld e sh (52 - sh) * 2 ^ sh
  fld e 60 4 != 0 || fld e 13 3 != 0 || sh == 48 || sh == 39 || fld e 16 (sh - 16) != 0
    || !(if isDevice base then pol == 3 else (isDram base || isPool base || isHost base) && pol != 3)
    || !(fmt == 0 || (decide (5 ≤ fmt) && decide (fmt ≤ 10)))
    || (fmt != 0 && (e.getLsbD 3 || pol == 3 || geom == 3))
    || (geom == 2 && decide (7 ≤ fmt)) || (geom != 0 && fmt == 0)
    || (isPool base && !s.inWindow ctx base (2 ^ sh))

/-- R217: a table entry is malformed. -/
def tableMalformed (e : Word) (sh : Nat) : Bool := sh == 16 || fld e 52 12 != 0 || fld e 1 11 != 0

/-- What the entry `e` of the level at `sh` says of an address: a leaf, or the table where the walk goes on (R217, R218). -/
def readEntry (s : State) (ctx va sh : Nat) (e : Word) (next : Nat → Except WalkErr Leaf) : Except WalkErr Leaf :=
  if !e.getLsbD 0 then .error .invalid
  else if e.getLsbD 4 then
    if leafMalformed s ctx e sh then .error .malformed
    else .ok ⟨fld e sh (52 - sh) * 2 ^ sh + va % 2 ^ sh, e.getLsbD 1, e.getLsbD 2, e.getLsbD 3, fld e 5 2,
      fld e 7 4, fld e 11 2, fld e 52 4, fld e 56 3, e.getLsbD 59⟩
  else if tableMalformed e sh then .error .malformed
  else next (fld e 12 40 * 4096)

/-- The walk from a level down (R216): `sh` and width of each level's index. -/
def walkFrom (s : State) (ctx va : Nat) : List (Nat × Nat) → Nat → Except WalkErr Leaf
  | [], _ => .error .malformed
  | (sh, bits) :: rest, table =>
    let a := table + 8 * (va / 2 ^ sh % 2 ^ bits)
    if s.anyPoison a 8 then .error .poison
    else readEntry s ctx va sh (s.read64 a) (walkFrom s ctx va rest)

/-- The levels of a walk (R216). -/
def walkLevels : List (Nat × Nat) := [(48, 9), (39, 9), (30, 9), (21, 9), (16, 5)]

/-- R216: bits 63:57 equal bit 56. -/
def canonical (va : Word) : Bool := va.toNat < 2 ^ 56 || decide (2 ^ 64 - 2 ^ 56 ≤ va.toNat)

/-- A held entry lies on the walk of an address below 2^57 (R220). -/
def Walked.maps (w : Walked) (va : Nat) : Bool := w.page == va / 2 ^ w.sh
/-- The held entry that the translations of this step start from at an address, if they use one (R220, log 14). -/
def State.heldWalk (s : State) (x va : Nat) : Option Walked :=
  (s.walks.zipIdx.find? fun e => e.1.ctx == x && e.1.maps va && Config.useWalk s.tick e.2).map (·.1)

/-- Translate a virtual address in the context at place `x`: from a held entry, or from the context's root. -/
def State.translate (s : State) (x : Nat) (va : Word) : Except WalkErr Leaf :=
  let c := s.ctx x
  let a := va.toNat % 2 ^ 57
  if !canonical va then .error .nonCanonical
  else
    match s.heldWalk x a with
    | some w => readEntry s c.num a w.sh w.entry (walkFrom s c.num a (walkLevels.filter fun l => decide (l.1 < w.sh)))
    | none => walkFrom s c.num a walkLevels c.ptbase

/-- The valid entries that a walk of an address reads: what translation caches may hold of it (R220). -/
def walkRead (s : State) (x va : Nat) : List (Nat × Nat) → Nat → List Walked
  | [], _ => []
  | (sh, bits) :: rest, table =>
    let a := table + 8 * (va / 2 ^ sh % 2 ^ bits)
    let e := s.read64 a
    if s.anyPoison a 8 || !e.getLsbD 0 then []
    else if e.getLsbD 4 then (if leafMalformed s (s.ctx x).num e sh then [] else [⟨x, sh, va / 2 ^ sh, e⟩])
    else if tableMalformed e sh then []
    else ⟨x, sh, va / 2 ^ sh, e⟩ :: walkRead s x va rest (fld e 12 40 * 4096)
/-! ### Effective values of a region (R18) -/

/-- R18 over the chain of parents; `f` a field, `bit` its OVERRIDE bit, `join` the clamp. -/
def effField {α : Type} (s : State) (f : Region → α) (bit : Nat) (join : α → α → α) : Nat → Nat → α
  | 0, r => f (s.region r)
  | fuel + 1, r =>
    let x := s.region r
    match x.parent with
    | none => f x
    | some p =>
      let up := effField s f bit join fuel p
      if x.override.getLsbD bit then join (f x) up else up

def State.effMaxCores (s : State) (r : Nat) : Nat := effField s Region.maxCores 0 min 8 r
def State.effScratch (s : State) (r : Nat) : Nat := effField s Region.scratchKib 1 min 8 r
def State.effQuota (s : State) (r : Nat) : Nat := effField s Region.quotaMj 2 min 8 r
def State.effPrio (s : State) (r : Nat) : Nat := effField s Region.prio 3 min 8 r
def State.effDomain (s : State) (r : Nat) : Nat := effField s Region.domain 4 (fun a _ => a) 8 r
def State.effClass (s : State) (r : Nat) : Nat := effField s Region.defClass 5 (fun a _ => a) 8 r
def State.effPolicy (s : State) (r : Nat) : Bool := effField s Region.policy 6 (fun a _ => a) 8 r
def State.effOpclass (s : State) (r : Nat) : Nat := effField s Region.defOpclass 7 (fun a _ => a) 8 r
def State.effPoolEn (s : State) (r : Nat) : Bool := effField s Region.poolEn 8 and 8 r
def State.effQlog (s : State) (r : Nat) : Nat := effField s Region.qlog 9 (fun a _ => a) 8 r

/-! ### One access (R235) -/

/-- What an access needs: bytes, load, store, atomic, whether formatted pages are allowed and how many
elements it then has (R236, R238), and whose lane it is. -/
structure Need where
  n : Nat
  rd : Bool := true
  wr : Bool := false
  atomic : Bool := false
  elems : Option Nat := none
  /-- A formatted page's codes are taken as bytes (R248). -/
  raw : Bool := false
  /-- Alignment that differs from the byte count (0: none is required). -/
  align : Option Nat := none
  lane : Nat := 127
deriving DecidableEq, Repr, Inhabited

/-- Bytes of an element of FMT (R224). -/
def fmtBytes (fmt : Nat) : Nat := if fmt = 5 ∨ fmt = 6 then 2 else 1

/-- R221 orders 1 to 5 for a data access of the launch's agents in context place `x`. -/
def State.walkChecked (s : State) (x l : Nat) (va : Word) (q : Need) : Except Exn Leaf :=
  match s.translate x va with
  | .error .nonCanonical => .error (.trap tProtection q.lane va 3)
  | .error .invalid => .error (.page va 1 q.wr false q.lane none)
  | .error .malformed => .error (.page va 2 q.wr false q.lane none)
  | .error .poison => .error (.trap tPoison q.lane va 7)
  | .ok leaf =>
    if (q.rd && !leaf.r) || (q.wr && !leaf.w) then .error (.trap tProtection q.lane va 4)
    else if isPool leaf.pa && !s.effPoolEn (s.launch l).region then .error (.trap tProtection q.lane va 5)
    else .ok leaf

/-- The block that an SPC address names for the issuer's block `b` (R212, R64). -/
def State.spcBlock (s : State) (b : Nat) (a : Word) : Except Exn Nat :=
  let i := fld a 21 7
  let x := s.block b
  let l := s.launch x.launch
  let w := max 1 l.desc.setCores
  if fld a 28 36 != 0 || decide (95 < i) then .error (trapC tScratch a)
  else if i == x.core % 96 then .ok b
  else if w == 1 then .error (trapC tScratch a)
  else
    match l.sets.find? (fun e => e.1 == x.index / w) with
    | none => .error (trapC tScratch a)
    | some (set, start) =>
      let core := x.core / 96 * 96 + i
      if core < start || start + w ≤ core then .error (trapC tScratch a)
      else
        match s.blocks.findIdx? (fun y => y.launch == x.launch && y.index == w * set + (core - start)) with
        | none => .error (trapC tScratch a)
        | some t =>
          if (s.block t).st == .ended then .error (trapC tScratch a) else if (s.block t).begun then .ok t else .error (.await t)

/-- Put the lane into a trap that names none. -/
def Exn.atLane (lane : Nat) : Exn → Exn
  | .trap c _ a i => .trap c lane a i
  | e => e

/-- R210, R212: a scratchpad access of block `b`. -/
def State.resolvePad (s : State) (b : Nat) (sp : Space) (a : Word) (q : Need) : Except Exn Loc := do
  if q.align.getD q.n != 0 && a.toNat % q.align.getD q.n != 0 then .error (.trap tMisaligned q.lane a 0)
  else
    let (t, off) ←
      (if sp == .spl then .ok (b, a.toNat)
       else (s.spcBlock b a).map fun t => (t, fld a 0 21) : Except Exn (Nat × Nat)).mapError (Exn.atLane q.lane)
    if (s.block t).spSize < off + q.n then .error (.trap tScratch q.lane a 0)
    else if q.rd && (List.range q.n).any (fun i => Cells.get false (s.block t).spPoison ((off + i) / 4)) then
      .error (.trap tPoison q.lane a 7)
    else .ok (.pad t off)

/-- Alignment that the access needs: a formatted access touches its codes alone (R234, R238). -/
def Need.alignment (q : Need) (leaf : Option Leaf) : Nat :=
  match q.align, q.elems, leaf with
  | some k, _, _ => k
  | none, some k, some f => if f.fmt = 0 then q.n else k * fmtBytes f.fmt
  | _, _, _ => q.n

/-- Bytes that the access touches (R234, R238). -/
def Need.bytes (q : Need) (leaf : Leaf) : Nat :=
  match q.elems with
  | some k => if leaf.fmt = 0 then q.n else k * fmtBytes leaf.fmt
  | none => q.n

/-- R235 orders 1 to 9 for a GEN access of launch `l` in context place `x`, but for the scale byte, which the access
itself reads at order 9. -/
def State.resolveGen (s : State) (x l : Nat) (va : Word) (q : Need) : Except Exn Loc :=
  let found := (s.translate x va).toOption
  let al := q.alignment found
  if al != 0 && va.toNat % al != 0 then .error (.trap tMisaligned q.lane va 0)
  else
    match s.walkChecked x l va q with
    | .error e => .error e
    | .ok leaf =>
      if (q.atomic && (leaf.pol == 1 || leaf.pol == 3)) || (leaf.pol == 3 && q.n != 4 && q.n != 8) then
        .error (.trap tProtection q.lane va 8)
      else if leaf.fmt != 0 && q.elems.isNone && !q.raw then .error (.trap tFormat q.lane va 6)
      else .ok (.phys leaf)

/-- R235 orders 1 to 9 for an access of the executing agent. -/
def State.resolve (s : State) (sp : Space) (a : Word) (q : Need) : Except Exn Loc :=
  let c := s.curCourse
  if sp == .gen then s.resolveGen (s.ctxOf c) (s.launchIx c) a q
  else s.resolvePad (s.course c).block sp a q

/-! ### Doorbells (R40, R54, R407) -/

/-- R40, R47: a write of QKICK. -/
def State.kickQueue (s : State) (q : Nat) (w : Word) : State :=
  s.modQueue q fun x =>
    if w.toNat ≤ x.kick.toNat then x
    else if x.read.toNat + 2 ^ fld x.ctl 0 5 < w.toNat then
      { x with stat := (x.stat &&& 0xFFFFFFFFFFFF00FE) ||| 0x0701 }
    else { x with kick := w }
/-- A channel's registers are fixed while it is enabled (R407). -/
def Channel.enabled (x : Channel) : Bool := x.ctl.getLsbD 8
def Channel.inError (x : Channel) : Bool := x.ctl.getLsbD 10
/-- The link of a channel (R403). -/
def State.linkOf (s : State) (h : Nat) : Link := Cells.get {} s.links (h / 16)
/-- Tell the partner this side's state (R407). -/
def State.tellState (s : State) (h : Nat) : State :=
  let x := s.channel h
  if (s.linkOf h).up then { s with peerOut := .state h x.enabled x.inError x.rsize :: s.peerOut } else s
/-- ERROR of a channel becomes 1, and the partner learns it if it changed (R407). -/
def State.channelFail (s : State) (h : Nat) : State :=
  if (s.channel h).inError then s
  else (s.modChannel h fun x => { x with ctl := x.ctl ||| 0x400, arriving := false }).tellState h
/-- R403, R407: a write of CHKICK; an index out of range sets ERROR. -/
def State.kickChannel (s : State) (h : Nat) (w : Word) : State :=
  let x := s.channel h
  if w.toNat ≤ x.kick.toNat then s
  else if x.read.toNat + 2 ^ fld x.ctl 0 5 < w.toNat then s.channelFail h
  else s.modChannel h fun x => { x with kick := w }

/-- The doorbell page that a device-register address lies in: queue or channel, with its control word and
kick index. -/
def State.doorbell (s : State) (pa : Nat) : Option (Bool × Nat × Word × Word) :=
  let page := pa / 0x10000
  if 0x700010000 ≤ page ∧ page < 0x700010000 + 4096 then
    let q := page - 0x700010000
    some (true, q, (s.queue q).ctl, (s.queue q).kick)
  else if 0x700020000 ≤ page ∧ page < 0x700020000 + 192 then
    let h := page - 0x700020000
    some (false, h, (s.channel h).ctl, (s.channel h).kick)
  else none

/-- A load of a device register (R54): only doorbell pages have a stated effect. -/
def State.ioRead (s : State) (pa n : Nat) : Except Exn (List Byte) :=
  match s.doorbell pa with
  | none => .error (.stop (.deviceRegister pa))
  | some (_, _, ctl, kick) =>
    let bytes := natLe 8 kick.toNat
    .ok ((List.range n).map fun i =>
      if ctl.getLsbD 9 && decide (pa % 0x10000 + i < 8) then bytes.getD (pa % 0x10000 + i) 0 else 0)

/-- A store to a device register by an agent of context number `ctx` (R54). -/
def State.ioWrite (s : State) (ctx pa : Nat) (bs : List Byte) : Except Exn State :=
  match s.doorbell pa with
  | none => .error (.stop (.deviceRegister pa))
  | some (isQueue, q, ctl, _) =>
    if bs.length == 8 && pa % 0x10000 == 0 && ctl.getLsbD 9 && fld ctl 32 32 == ctx then
      let v : Word := BitVec.ofNat 64 (leNat bs)
      .ok (if isQueue then s.kickQueue q v else s.kickChannel q v)
    else .ok s

/-! ### The executing agent's view of memory (R284 to R300) -/

/-- The executing agent: the splits of a course are one agent (R284). -/
def State.viewer (s : State) : Agent :=
  match s.cur with
  | .course c _ => .course c 0
  | a => a
def State.sight (s : State) : Sight :=
  match s.cur with
  | .none => {}
  | .course c _ => (s.course c).sight
  | .lane q => (s.lane q).sight
def State.modSight (s : State) (f : Sight → Sight) : State :=
  match s.cur with
  | .none => s
  | .course c _ => s.modCourse c fun x => { x with sight := f x.sight }
  | .lane q => s.modLane q fun x => { x with sight := f x.sight }
/-- The agent's accesses from now on are placed at `t` or later. -/
def State.notBefore (s : State) (t : Nat) : State := s.modSight fun v => { v with time := max v.time t }

/-- The cache through which the agent reads: its core's L1 or its quoin core's cache (R289, R291); the instruction caches
have the same numbers (R91). -/
def State.cacheOf (s : State) : Nat :=
  match s.cur with
  | .lane q => Config.cores + (s.lane q).quoin
  | _ => s.coreOf s.curCourse
/-- R1: the base die of a core or, counted on from 1,152, of a quoin core: clusters 2d and 2d + 1 lie on die d (log 7,
DESIGN CHOICE: R1 gives two clusters to each die, the worked programs cluster 0 to die 0 and clusters 0 to 7 to four dies; no
rule gives the pairs). -/
def dieOf (core : Nat) : Nat :=
  if core < Config.cores then core / (2 * Config.coresPerCluster) else (core - Config.cores) / (2 * Config.quoinCores)
/-- The number under which the private L2 of a die holds copies (R293). -/
def dieCache (die : Nat) : Nat := 4096 + die

/-- R286, R287, R242: a copy serves a load of an agent with the sight given. -/
def Held.serves (v : Sight) (e : Held) : Bool :=
  let pa := 128 * e.line
  (decide (v.time ≤ e.wts) || decide (v.time ≤ e.lease)) && decide (v.since ≤ e.born) && (!isPool pa || decide (v.pool ≤ e.born))
    && (!isHost pa || decide (v.host ≤ e.born)) && decide (Cells.get 0 v.stale e.line < 255)
/-- The copy that serves the agent's load of a line: in its cache, or in its die's private L2 (R293). -/
def State.copyFor (s : State) (ln : Nat) : Option Held :=
  let at' (k : Nat) : Option Held := s.held.find? fun e => e.cache == k && e.line == ln && e.serves s.sight
  match at' s.cacheOf with
  | some e => some e
  | none => if s.partitioned then at' (dieCache (dieOf s.cacheOf)) else none

/-- The agent has seen the line through a WB alias (R296). -/
def State.noteSeen (s : State) (ln : Nat) : State :=
  { s with stream := s.stream.map fun x => if x.who == s.viewer && x.line == ln then { x with seen := true } else x }
/-- Cycles that a pool access stays in flight here (log 18). -/
def poolFlight : Nat := 1200
/-- When a line that a miss asks for now is there (R391). -/
def State.dueOf (s : State) (ln : Nat) : Nat := if isPool (128 * ln) then s.clock + poolFlight else 0
/-- What L2 keeps of a line that a miss of the base die's cores brings in, and that is there at `due`. -/
def State.newTag (s : State) (die hint ln due : Nat) : LineTag :=
  { clean := true, first := hint == 3, die := die, due := due, wrote := (s.stamp ln).1 }
/-- A miss brings the line into L2, unless `.na` says otherwise (R223). -/
def State.fillAt (s : State) (die hint ln due : Nat) : State :=
  if hint = 1 ∨ s.inL2 ln then s
  else
    { s with
      wb := Cells.set [] s.wb ln (s.lineBytes ln)
      linePoison := s.fetchedPoison ln
      tags := Cells.set {} s.tags ln (s.newTag die hint ln due) }
/-- The same for the executing agent's miss. -/
def State.fillL2 (s : State) (hint ln : Nat) : State := s.fillAt (dieOf s.cacheOf) hint ln (s.dueOf ln)

/-- The lines of the entries that a walk of an address reads. -/
def walkedLines (s : State) (va : Nat) : List (Nat × Nat) → Nat → List Nat
  | [], _ => []
  | (sh, bits) :: rest, table =>
    let a := table + 8 * (va / 2 ^ sh % 2 ^ bits)
    let e := s.read64 a
    a / 128 :: if e.getLsbD 0 && !e.getLsbD 4 then walkedLines s va rest (fld e 12 40 * 4096) else []
/-- A walker reads the entries of an address of the context at place `x`, and the translation caches hold them; it reads them
through L2 where a course's core asks for it. Which address, is a free value (R208, R213, R219, log 14). -/
def State.walk (s : State) (x : Nat) (c : Option Nat) : State :=
  let va := (Config.freeValue s.fresh).toNat % 2 ^ 57
  let ws := walkRead s x va walkLevels (s.ctx x).ptbase
  let t := match c with
    | some c => (walkedLines s va walkLevels (s.ctx x).ptbase).foldl (fun (t : State) ln => t.fillAt (dieOf (s.coreOf c)) 0 ln 0) s
    | none => s
  { t with fresh := s.fresh + 1, walks := s.walks ++ ws.filter fun w => !s.walks.contains w }
/-- A cache takes a copy of a line in place of the one it has. -/
def State.hold (s : State) (e : Held) : State :=
  { s with held := s.held.filter (fun x => !(x.cache == e.cache && x.line == e.line)) ++ [e] }
/-- R286: the agent fetches a line anew: it is placed after the line's last store, and takes a lease. -/
def State.fetchAnew (s : State) (hint ln : Nat) : State :=
  let st := s.stamp ln
  let t := max s.sight.time st.1
  let keeps : Bool := hint == 0 || hint == 3
  let lease := max st.2 (if keeps then t + Config.lease s.fresh else t)
  let e : Held :=
    { cache := s.cacheOf, line := ln, bytes := s.lineBytes ln, bad := s.lineBad ln, wts := st.1, lease := lease, born := s.tick
      first := hint == 3, ctx := s.ctxOf s.curCourse }
  let s1 := { s.fillL2 hint ln with stamps := Cells.set (0, 0) s.stamps ln (st.1, lease), fresh := s.fresh + 1 }
  let s2 := if keeps then s1.hold e else s1
  let s3 := if s.partitioned && hint != 1 then s2.hold { e with cache := dieCache (dieOf s.cacheOf) } else s2
  s3.modSight fun v => { v with time := t, stale := Cells.erase v.stale ln }

/-- A copy of a line shows a store older than the last. -/
def State.isOld (s : State) (e : Held) : Bool := decide (e.wts < (s.stamp e.line).1)
/-- A load of `n` bytes of one line of a WB page (R285 to R287). -/
def State.loadWb (s : State) (hint pa n : Nat) : List Byte × State :=
  let ln := pa / 128
  let slice (l : List Byte) : List Byte := (l.drop (pa % 128)).take n
  match s.copyFor ln with
  | some e =>
    let old : Bool := s.isOld e
    (slice e.bytes, ((s.hold { e with cache := s.cacheOf }).noteSeen ln).modSight fun v =>
      { v with time := max v.time e.wts, stale := if old then Cells.update 0 v.stale ln (· + 1) else v.stale })
  | none => (slice (s.lineBytes ln), (s.fetchAnew hint ln).noteSeen ln)
/-- The agent reads a line with no lease: what it reads next is placed after the line's last store (R287). -/
def State.readAnew (s : State) (ln : Nat) : State :=
  let st := s.stamp ln
  let t := max s.sight.time st.1
  ({ s with stamps := Cells.set (0, 0) s.stamps ln (st.1, max st.2 t) }).modSight fun v => { v with time := t }

/-- The agent's own caches give up their copy of a line that it stores to (R288, R289). -/
def State.ownDrop (s : State) (ln : Nat) : State :=
  let die := dieCache (dieOf s.cacheOf)
  { s with held := s.held.filter fun e => !(e.line == ln && (e.cache == s.cacheOf || e.cache == die)) }
/-- A store of the agent within one line of a WB page: its timestamp lies beyond the agent's and beyond every lease (R286);
`.na` allocates nothing on a miss (R223). The line is in the L2 of the agent's base die then (R213). -/
def State.storeWb (s : State) (hint pa : Nat) (bs : List Byte) : State :=
  let ln := pa / 128
  let st := s.stamp ln
  let t := max s.sight.time (max st.1 st.2)
  let s1 := { s.ownDrop ln with stamps := Cells.set (0, 0) s.stamps ln (st.1, t) }
  let s2 :=
    if hint == 1 && !s.inL2 ln then
      { s1.storeBytes 2 pa bs with stamps := Cells.set (0, 0) s.stamps ln (t + 1, t + 1) }
    else
      let new := if s.inL2 ln then s.tag ln else s.newTag 0 hint ln (s.dueOf ln)
      { s1.storeBytes 0 pa bs with tags := Cells.set {} s.tags ln { new with clean := false, die := dieOf s.cacheOf } }
  (s2.noteSeen ln).modSight fun v => { v with time := (s2.stamp ln).1, stale := Cells.erase v.stale ln }

/-- The agent's STREAM copy of a line. -/
def State.streamCopy (s : State) (ln : Nat) : Option StreamLine := s.stream.find? fun x => x.who == s.viewer && x.line == ln
/-- Put a STREAM copy in place of the agent's. -/
def State.setStream (s : State) (x : StreamLine) : State :=
  { s with stream := s.stream.filter (fun y => !(y.who == x.who && y.line == x.line)) ++ [x] }
/-- A byte as the agent's STREAM accesses see it (R296). -/
def State.streamByte (s : State) (pa : Nat) : Byte :=
  match s.streamCopy (pa / 128) with
  | some x => x.bytes.getD (pa % 128) 0
  | none => s.wbByte pa
/-- The agent's copy of a STREAM line that it misses: in its L1 and L2, or in L2 alone (R223). -/
def State.newStream (s : State) (l1 : Bool) (hint ln : Nat) : StreamLine :=
  { who := s.viewer, line := ln, bytes := s.lineBytes ln, bad := s.lineBad ln, first := hint == 3, l2 := !l1 }
/-- The hint lets a line into L1. -/
def hintL1 (hint : Nat) : Bool := hint == 0 || hint == 3
/-- A copy that stands in L2 alone comes into L1 as well. -/
def StreamLine.intoL1 (x : StreamLine) (l1 : Bool) (hint : Nat) : StreamLine :=
  if x.l2 && l1 then { x with l2 := false, first := hint == 3 } else x
/-- A load of a STREAM page: the agent's copy serves it, or is fetched (R222, R296); `.na` on a miss keeps no copy (R223). -/
def State.loadStream (s : State) (hint pa n : Nat) : List Byte × State :=
  let ln := pa / 128
  let bs := (List.range n).map fun i => s.streamByte (pa + i)
  match s.streamCopy ln with
  | some x => (bs, if x.l2 && hintL1 hint then s.setStream (x.intoL1 true hint) else s)
  | none => (bs, if hint = 1 then s else (s.fillL2 hint ln).setStream (s.newStream (hintL1 hint) hint ln))
/-- A store to a STREAM page stays in the agent's copy, in L1 or in L2 alone (R296); `.na` on a miss keeps no copy (R223). -/
def State.putStream (s : State) (l1 : Bool) (hint pa : Nat) (bs : List Byte) : State :=
  let ln := pa / 128
  let old := match s.streamCopy ln with
    | some x => x.intoL1 l1 hint
    | none => s.newStream l1 hint ln
  let x : StreamLine :=
    { old with
      bytes := (bs.zipIdx (pa % 128)).foldl (fun m e => m.set e.2 e.1) old.bytes
      changed := (bs.zipIdx (pa % 128)).foldl (fun m e => m ||| ((1 : BitVec 128) <<< e.2)) old.changed }
  if hint == 1 && (s.streamCopy ln).isNone && !s.inL2 ln then
    let t := (s.setStream x).writeStream x
    { t with stream := s.stream }
  else (s.fillL2 hint ln).setStream x
/-- The same for the executing agent. -/
def State.storeStream (s : State) (hint pa : Nat) (bs : List Byte) : State := s.putStream (hintL1 hint) hint pa bs
/-- Granule of the copy at an address is poisoned. -/
def StreamLine.badAt (x : StreamLine) (pa : Nat) : Bool := if pa % 128 < 64 then x.bad.1 else x.bad.2
/-- CINV.discard of a STREAM page: the line leaves every cache, and nothing is written back (R255). -/
def State.dropStream (s : State) (ln : Nat) : State := s.forgetLine ln
/-- R296: after a FENCE that covers a line's location, the agent's STREAM copy shows nothing older than what the agent has
seen through a WB alias. -/
def State.fenceStream (s : State) (scope : Nat) : State :=
  let covers (ln : Nat) : Bool := let pa := 128 * ln; decide ((if isPool pa then 4 else if isHost pa then 5 else 3) ≤ scope)
  { s with
    stream := s.stream.map fun x =>
      if x.who == s.viewer && x.seen && covers x.line then
        { x with
          seen := false
          bytes := (List.range 128).map fun i => if x.changed.getLsbD i then x.bytes.getD i 0 else (s.lineBytes x.line).getD i 0
          bad := x.overBad (s.lineBad x.line) }
      else x }

/-- What a chunk not yet complete shows at a place, if it wrote there: the byte with it and without it. -/
def Shadow.at (x : Shadow) (p : Spot) : Option (Byte × Byte) :=
  let pick (d : Nat) : Option (Byte × Byte) := (x.new.getD d none).map fun n => (n, x.old.getD d 0)
  match x.spot, p with
  | .phys a, .phys b => if a ≤ b then pick (b - a) else none
  | .pad b a, .pad c i => if b = c ∧ a ≤ i then pick (i - a) else none
  | _, _ => none
/-- The place `i` bytes on. -/
def Spot.add : Spot → Nat → Spot
  | .phys a, i => .phys (a + i)
  | .pad b a, i => .pad b (a + i)
/-- The same for an access under a POLICY: a chunk's writes under another one, or in another course's STREAM copy, are not what it
meets (R296, R297). -/
def Shadow.meets (x : Shadow) (who : Agent) (pol : Nat) (p : Spot) : Option (Byte × Byte) :=
  match p with
  | .pad _ _ => x.at p
  | .phys _ => if x.pol = pol ∧ (pol = 1 → x.who = who) then x.at p else none
/-- R299: of a byte that a chunk not yet complete wrote, a read shows the value with the chunk or without it; a read of an older
copy shows the chunk's value or the copy's. -/
def State.shadowed (s : State) (who : Agent) (pol : Nat) (old : Bool) (key : Nat) (p : Spot) (v : Byte) : Byte :=
  s.shadows.zipIdx.foldl (fun v x =>
    match x.1.meets who pol p with
    | some (n, o) => if Config.pick s.fresh (key + 4096 * x.2) then n else if old then v else o
    | none => v) v
/-- Bytes from a place upward as a load of them by the executing agent shows them (R299). -/
def State.throughShadows (s : State) (pol : Nat) (old : Bool) (p : Spot) (bs : List Byte) : List Byte × State :=
  if s.shadows.isEmpty then (bs, s)
  else (bs.zipIdx.map fun e => s.shadowed s.viewer pol old e.2 (p.add e.2) e.1, { s with fresh := s.fresh + 1 })
/-- R300: a byte stored where a chunk not yet complete wrote, other than the chunk `mine`, holds the store's value or the chunk's;
without the chunk, it holds the store's. Gives the bytes that come to stand. -/
def State.raceShadows (s : State) (who : Agent) (pol : Nat) (mine : Option Nat) (p : Spot) (bs : List Byte) : List Byte × State :=
  let others (x : Shadow) (q : Spot) : Option (Byte × Byte) := if some x.mark = mine then none else x.meets who pol q
  if s.shadows.isEmpty then (bs, s)
  else
    (bs.zipIdx.map fun e =>
      s.shadows.zipIdx.foldl (fun v x =>
        match others x.1 (p.add e.2) with
        | some (n, _) => if Config.pick s.fresh (e.2 + 4096 * x.2) then n else v
        | none => v) e.1,
     { s with
       fresh := s.fresh + 1
       shadows := s.shadows.map fun x =>
         { x with old := x.old.zipIdx.map fun o =>
             (bs.zipIdx.findSome? fun e =>
               if p.add e.2 = x.spot.add o.2 ∧ (others x (p.add e.2)).isSome then some e.1 else none).getD o.1 } })

/-- A load of the agent at a physical address. -/
def State.loadPhys (s : State) (hint pol pa n : Nat) : List Byte × State :=
  let r :=
    if pol = 0 then s.loadWb hint pa n
    else if pol = 1 then s.loadStream hint pa n
    else ((List.range n).map fun i => s.memByte (pa + i), s)
  let old : Bool := pol == 0 && (match s.copyFor (pa / 128) with | some e => s.isOld e | none => false)
  r.2.throughShadows pol old (.phys pa) r.1
/-- A store of the agent at a physical address. -/
def State.storePhys (s : State) (hint pol pa : Nat) (bs : List Byte) : State :=
  let r := s.raceShadows s.viewer pol none (.phys pa) bs
  if pol = 0 then r.2.storeWb hint pa r.1 else if pol = 1 then r.2.storeStream hint pa r.1 else r.2.storeBytes 2 pa r.1
/-- The bytes that such a load returns are poisoned (R387). -/
def State.loadPoison (s : State) (pol pa n : Nat) : Bool :=
  let any (f : Nat → Bool) : Bool := (List.range n).any fun i => f (pa + i)
  if pol = 0 then
    match s.copyFor (pa / 128) with
    | some e => any fun a => if a % 128 < 64 then e.bad.1 else e.bad.2
    | none => any s.poisoned
  else if pol = 1 then
    match s.streamCopy (pa / 128) with
    | some x => any x.badAt
    | none => any s.poisoned
  else any s.memPoison

/-- What an atomic reads: the line as its L2 slice holds it, memory itself, or the bank (R245). -/
def State.readHere (s : State) (pol pa n : Nat) : List Byte × State :=
  let t := if pol = 0 then (s.readAnew (pa / 128)).noteSeen (pa / 128) else s
  t.throughShadows pol false (.phys pa) (s.readBytes pol pa n)

/-- R242: the acquiring agent's leases on lines of the pooled tier, and at SYSTEM scope of host memory, end. -/
def State.acquire (s : State) (scope : Nat) : State :=
  s.modSight fun v =>
    { v with
      pool := if 4 ≤ scope then s.tick + 1 else v.pool
      host := if 5 ≤ scope then s.tick + 1 else v.host }
/-- The registers once every load in flight to the pool has returned. -/
def Regs.landed (r : Regs) : Regs :=
  let back (m : Cells WordSt) : Cells WordSt := m.filter fun e => match e.2 with | .coming .. => false | _ => true
  { r with vst := back r.vst, sst := back r.sst, flags := r.late.foldl (fun f e => f ||| e.2) r.flags, late := [] }
/-- The agent's loads in flight to the pool have returned, and its stores and atomics there are performed (R241, R254). -/
def State.landFlight (s : State) : State :=
  let t := s.modRegs Regs.landed
  match t.cur with
  | .none => t
  | .course c _ => t.modCourse c fun x => { x with owed := x.owed.filter (·.lost) }
  | .lane q => t.modLane q fun x => { x with owed := x.owed.filter (·.lost) }

/-! ### Scratchpads (R210, R289, R292) -/

/-- The words of 4 bytes that `n` bytes at `off` lie in. -/
def padWords (off n : Nat) : List Nat := (List.range ((off % 4 + n + 3) / 4)).map (off / 4 + ·)
/-- The latest timestamp of stores, and of stores and loads, to some bytes of a scratchpad. -/
def State.padStamp (s : State) (b off n : Nat) : Nat × Nat :=
  (padWords off n).foldl (fun t w => let x := Cells.get (0, 0) (s.block b).spTime w; (max t.1 x.1, max t.2 (max x.1 x.2))) (0, 0)
/-- Store bytes into a block's scratchpad, placed after `at'` and after every earlier access to them; a word that is
covered whole is no longer poisoned (R387). -/
def State.storePadAt (s : State) (b off : Nat) (bs : List Byte) (at' : Nat) : State :=
  let t := max at' (s.padStamp b off bs.length).2 + 1
  s.modBlock b fun x =>
    { x with
      sp := (bs.zipIdx off).foldl (fun m e => Cells.set 0 m e.2 e.1) x.sp
      spTime := (padWords off bs.length).foldl (fun m w => Cells.set (0, 0) m w (t, t)) x.spTime
      spPoison := x.spPoison.filter fun e => !(decide (off ≤ 4 * e.1) && decide (4 * e.1 + 4 ≤ off + bs.length)) }
def State.storePad (s : State) (b off : Nat) (bs : List Byte) : State := s.storePadAt b off bs 0
/-- A load of the agent from a scratchpad (R289). -/
def State.loadPad (s : State) (b off n : Nat) : List Byte × State :=
  let t := max s.sight.time (s.padStamp b off n).1
  let s1 := s.modBlock b fun x =>
    { x with spTime := (padWords off n).foldl (fun m w => Cells.update (0, 0) m w fun e => (e.1, max e.2 t)) x.spTime }
  (s1.notBefore t).throughShadows 0 false (.pad b off) ((List.range n).map fun i => Cells.get 0 (s.block b).sp (off + i))
/-- A store of the agent to a scratchpad. -/
def State.storePadBy (s : State) (b off : Nat) (bs : List Byte) : State :=
  let r := s.raceShadows s.viewer 0 none (.pad b off) bs
  let t := r.2.storePadAt b off r.1 s.sight.time
  t.notBefore (t.padStamp b off bs.length).1

/-! ### Reading and writing a resolved place -/

/-- The agent's load of `n` bytes at a place. -/
def State.readLoc (s : State) (hint : Nat) (loc : Loc) (n : Nat) : Except Exn (List Byte × State) :=
  match loc with
  | .pad b off => .ok (s.loadPad b off n)
  | .phys f => if f.pol = 3 then (s.ioRead f.pa n).map fun bs => (bs, s) else .ok (s.loadPhys hint f.pol f.pa n)
/-- The agent's store at a place. -/
def State.writeLoc (s : State) (hint : Nat) (loc : Loc) (bs : List Byte) : Except Exn State :=
  match loc with
  | .pad b off => .ok (s.storePadBy b off bs)
  | .phys f =>
    if f.pol = 3 then s.ioWrite (s.ctx (s.ctxOf s.curCourse)).num f.pa bs else .ok (s.storePhys hint f.pol f.pa bs)

/-- The place `i` bytes on. -/
def Loc.shift (i : Nat) : Loc → Loc
  | .phys f => .phys { f with pa := f.pa + i }
  | .pad b off => .pad b (off + i)
/-! ### What the engines of a course read (R248, R263) -/

/-- The course's STREAM copy that an engine's read of a byte finds (R296, log 40); a read that is performed at the pooled tier or
in host memory finds only what the course's own stores changed (R248). -/
def State.engineCopy (s : State) (c : Nat) (far : Bool) (f : Leaf) : Option StreamLine :=
  if f.pol = 1 then
    ({ s with cur := Agent.course c 0 }.streamCopy (f.pa / 128)).filter fun x => !far || x.changed.getLsbD (f.pa % 128)
  else none
/-- Such a read passes a line of L2 that is clean. -/
def State.pastL2 (s : State) (far : Bool) (f : Leaf) : Bool := f.pol == 2 || (far && (s.tag (f.pa / 128)).clean)
/-- The byte that an engine reads at a place for course `c`. -/
def State.engineByte (s : State) (c : Nat) (far : Bool) : Loc → Byte
  | .pad b off => s.shadowed (.course c 0) 0 false off (.pad b off) (Cells.get 0 (s.block b).sp off)
  | .phys f =>
    s.shadowed (.course c 0) f.pol false f.pa (.phys f.pa)
      (match s.engineCopy c far f with
        | some x => x.bytes.getD (f.pa % 128) 0
        | none => if s.pastL2 far f then s.memByte f.pa else s.wbByte f.pa)
/-- That byte is poisoned (R387). -/
def State.enginePoison (s : State) (c : Nat) (far : Bool) : Loc → Bool
  | .pad b off => Cells.get false (s.block b).spPoison (off / 4)
  | .phys f =>
    match s.engineCopy c far f with
    | some x => x.badAt f.pa
    | none => if s.pastL2 far f then s.memPoison f.pa else s.poisoned f.pa

/-- R235 orders 10 and 11 for an access of an engine of course `c`. -/
def State.reach (s : State) (c : Nat) (far : Bool) (va : Word) (q : Need) : Loc → Except Exn Unit
  | .pad _ _ => .ok ()
  | .phys leaf =>
    if isPool leaf.pa && !s.poolUp then .error (.trap tPoolLost q.lane va 9)
    else if q.rd && (List.range (q.bytes leaf)).any (fun i => s.enginePoison c far ((Loc.phys leaf).shift i)) then
      .error (.trap tPoison q.lane va 7)
    else .ok ()

/-- An access at a scope is performed at the pooled tier or in host memory (R248). -/
def Loc.far (scope : Nat) : Loc → Bool
  | .phys f => isFar scope f.pa
  | .pad _ _ => false
/-- The lines of WB and STREAM pages that `n` bytes at a place lie in. -/
def Loc.lines (n : Nat) : Loc → List Nat
  | .phys f => if f.pol < 2 then ((List.range n).map fun j => (f.pa + j) / 128).eraseDups else []
  | .pad _ _ => []
/-- The place is pooled-tier memory. -/
def Loc.pooled : Loc → Bool
  | .phys f => isPool f.pa
  | .pad _ _ => false

end Sys2Proof.Machine
end

