-- ==== Sys2Proof/Machine/Uses.lean ====
section
/-!
DEFINITION. The registers that an instruction reads and writes (R72, R166, R244, R258, R276), from its
operand fields alone: REG_BOUNDS, held registers and damaged registers are checked over these.
-/

namespace Sys2Proof.Machine

open ElemTy

/-- Guard, vector registers read and written, scalars read. -/
structure Uses where
  g : Option Guard := none
  vr : List Nat := []
  vw : List Nat := []
  sr : List Nat := []
deriving DecidableEq, Repr, Inhabited

/-- Registers of a vector source field of a type; a latch is none (R72). -/
def srcRegs (t : ElemTy) (f : BitVec 12) : List Nat :=
  if f.getLsbD 11 then [] else if is64 t then [f.toNat, f.toNat + 1] else [f.toNat]
/-- Registers of a destination field of a type. -/
def dstRegs (t : ElemTy) (d : BitVec 11) : List Nat := if is64 t then [d.toNat, d.toNat + 1] else [d.toNat]

/-- An S3 instruction; `self` also reads its destination. -/
def usesS3 (o : S3) (self : Bool := false) : Uses :=
  let b := match o.b with
    | .reg n | .regWide n => [n.toNat]
    | .imm _ => []
  { sr := o.a.toNat :: b ++ (if self then [o.d.toNat] else []) }

/-- An element-wise V3 instruction: types of A and B, whether B is a register, whether D is read. -/
def usesV3 (o : V3) (ta : ElemTy) (b : Bool := true) (self : Bool := false) : Uses :=
  { g := some o.g
    vr := srcRegs ta o.a ++ (if b then srcRegs ta o.b else []) ++ (if self && !o.ws then [o.d.toNat] else [])
    vw := if o.ws then [] else dstRegs o.ty o.d }

/-- An element-wise V4 instruction: types of A and B, of C, and of D; whether B and C are registers. -/
def usesV4 (o : V4) (ta tc td : ElemTy) (b c : Bool) (self : Bool := false) : Uses :=
  { g := some o.g
    vr := srcRegs ta o.a ++ (if b then srcRegs ta o.b else []) ++ (if c then srcRegs tc o.c else [])
      ++ (if self && !o.ws then dstRegs td o.d else [])
    vw := if o.ws then [] else dstRegs td o.d }

/-- A collective whose result is a vector (R201). -/
def usesColl (o : V4) (a b c d : Bool) : Uses :=
  { g := some o.g
    vr := (if a then srcRegs o.ty o.a else []) ++ (if b then srcRegs b32 o.b else [])
      ++ (if c then srcRegs o.ty o.c else [])
    vw := if d then dstRegs o.ty o.d else [] }

/-- Registers of the data of a memory access of SIZE (R234). -/
def dataRegs (d : BitVec 11) (size : BitVec 3) : List Nat :=
  (List.range (if size.toNat ≤ 2 then 1 else 2 ^ (size.toNat - 2))).map (d.toNat + ·)

def usesMem (o : Mem) (rd wr : List Nat) : Uses :=
  { g := some o.g
    vr := rd ++ (if o.ixe then [o.idx.toNat] else [])
    vw := wr
    sr := [o.base.toNat] }

def usesMemS (o : Mem) (rd : List Nat) : Uses :=
  { sr := o.base.toNat :: (if o.ixe then [o.idx.toNat] else []) ++ rd }

/-- Operand and result registers of an atomic (R244). -/
def atomRegs (o : Mem) : List Nat × List Nat :=
  let w := if o.size = 3 then 2 else 1
  let n := if o.sub.toNat % 16 = 7 then 2 * w else w
  ((List.range n).map (o.d.toNat + ·), if o.sub.getLsbD 4 then [] else (List.range w).map (o.d.toNat + ·))

/-- 64 registers from a base (R258, R276). -/
def rowRegs (d : BitVec 11) (n : Nat := 64) : List Nat := (List.range n).map (d.toNat + ·)

def usesSys (o : Sys) (a b : Bool) : Uses :=
  { sr := (if a then [o.a.toNat] else []) ++ (if b then [o.b.toNat] else []) }

/-- The registers an instruction reads and writes. -/
def usesOf : Instr → Uses
  | .sadd o | .ssub o | .smul o | .smulh o | .sdiv o | .srem o | .sand o | .sor o | .sxor o | .sshl o
  | .sshr o | .srot o | .smin o | .smax o | .sbitc o | .smov o | .sset o | .saddr o | .sext o | .sbfx o
  | .ejctl o | .ffclr o => usesS3 o
  | .ssel o | .sbfi o => usesS3 o true
  | .smovi o => usesS3 o (o.sub == 1)
  | .sldp _ | .ffrd _ => {}
  | .jmpr o | .callr o | .brs o | .loopd o => { sr := [o.s.toNat] }
  | .ret _ => { sr := [60] }
  | .jmp _ | .call _ | .brv _ | .bru _ | .regang _ | .nop _ => {}
  | .plog o | .pcnt o | .pfirst o | .part o | .gset o | .grd o | .lexit o => { g := some o.g }
  | .pmov o => { g := some o.g, sr := if o.sub.toNat < 4 then [o.a.toNat] else [] }
  | .vadd o | .vsub o | .vmul o | .vmulh o | .vdiv o | .vrem o | .vand o | .vor o | .vxor o | .vshl o
  | .vshr o | .vrot o | .vmin o | .vmax o | .vext o | .vfadd o | .vfsub o | .vfmul o | .vfmin o | .vfmax o
  | .vfdiv o | .vfscale o => usesV3 o o.ty
  | .vabs o | .vbitc o | .vmov o | .vfclass o | .vfsqrt o | .vfrcp o | .vfrsq o | .vfexp2 o | .vflog2 o
  | .vfsin o | .vfcos o | .vftanh o | .vfrnd o => usesV3 o o.ty false
  | .vadds o => usesV3 o o.ty true true
  | .vcmp o => { usesV3 o o.ty with vw := [] }
  | .vbrd o => { g := some o.g, vw := if o.ws then [] else dstRegs o.ty o.d, sr := [o.a.toNat] }
  | .vsys o => { g := some o.g, vw := if o.ws then [] else [o.d.toNat] }
  | .vcvt o =>
    let src := (tyOf o.sub.toNat).getD b32
    { usesV3 o src false (decide (tyElems src < tyElems o.ty)) with vw := if o.ws then [] else dstRegs o.ty o.d }
  | .vpack o => usesV3 o o.ty true (o.ty == i8x4)
  | .vunpk o => { usesV3 o o.ty false with vw := [o.d.toNat, o.d.toNat + 1] }
  | .vmad o | .vfma o => usesV4 o o.ty o.ty o.ty true true
  | .vbfx o => usesV4 o o.ty o.ty o.ty false (o.sub == 1)
  | .vbfi o => usesV4 o o.ty o.ty o.ty false (o.sub == 1) true
  | .vaddc o | .vsel o => usesV4 o o.ty o.ty o.ty true false
  | .vmovi o => { g := some o.g, vw := if o.ws then [] else dstRegs o.ty o.d }
  | .vdot2 o | .vdot4 o => usesV4 o o.ty b32 b32 true true
  | .vshfl o => usesColl o true (o.sub == 0) false true
  | .vshfx o => usesColl o true (o.sub == 0) true true
  | .vbcast o | .vred o | .vscan o => usesColl o true false false true
  | .vcmpr o => usesColl o true false false true
  | .vvote o => { g := some o.g, vw := if o.sub.toNat < 2 then [] else [o.d.toNat] }
  | .vmatch o => { usesColl o true false false false with vw := if o.sub == 1 then [] else [o.d.toNat] }
  | .ld o => usesMem o [] (dataRegs o.d o.size)
  | .st o => usesMem o (dataRegs o.d o.size) []
  | .lds o => usesMemS o []
  | .sts o => usesMemS o [o.d.toNat]
  | .atom o => usesMem o (atomRegs o).1 (atomRegs o).2
  | .atoms o => usesMemS o (if o.sub.toNat % 16 = 7 then [o.d.toNat, o.d.toNat + 1] else [o.d.toNat])
  | .cpf o | .cwb o | .cinv o => usesMem o [] []
  | .cpy o => { sr := [o.db.toNat, o.sb.toNat, o.sw.toNat, o.dstr.toNat, o.sstr.toNat] }
  | .cpyg o =>
    { g := some o.g, vr := [o.idx.toNat], sr := [o.db.toNat, o.sb.toNat, o.sw.toNat, o.dstr.toNat, o.sstr.toNat] }
  | .swinit o | .mkinit o | .mkset o | .mkadd o | .waitm o | .swait o => usesSys o true true
  | .bar o | .bara o | .barw o => usesSys o false true
  | .promote o | .clsrd o | .sleep o | .swr o | .ckill o => usesSys o true false
  | .bseal _ | .bwait _ | .fence _ | .icinv _ | .hgen _ | .mstat _ | .msclr _ | .ocfence _ | .yield _
  | .trap _ | .tret _ | .srd _ | .brk _ | .ckpt _ => {}
  | .svc _ => { vr := [0, 1, 2, 3, 4, 5, 6, 7] }
  | .hset o => { sr := if o.s = 0 then [] else [o.s.toNat, o.s.toNat + 1] }
  | .mma o | .mmas o => { g := some o.g, vr := rowRegs o.d, vw := rowRegs o.d, sr := [o.s.toNat] }
  | .mzero o => { g := some o.g, vw := rowRegs o.d }
  | .mcvt o =>
    { g := some o.g, vr := rowRegs o.a, sr := [o.s.toNat]
      vw := rowRegs o.d (64 / tyElems o.ty) }
  | .pair h0 h1 =>
    { vr := halfReads h0 ++ halfReads h1, vw := halfWrites h0 ++ halfWrites h1
      sr := (if h0.op7 = 0x19 then [h0.a.toNat] else []) ++ (if h1.op7 = 0x19 then [h1.a.toNat] else []) }
  | .pguard _ | .reservedOpcode _ | .trapEntry _ | .watchdog _ | .passnChange _ _
  | .shadowLatchReplay _ | .ejectLaneStart _ | .laneRejoin _ | .ejectSoftPark _ _ | .ejectOverdue _ _
  | .courseRestore _ | .sleepExpire _ | .checkpointCopy _ _ | .pageFaultRecord _ | .pageFaultPark _
  | .tileFetchDone _ _ | .mmaStart _ | .mmaComplete _ | .mzeroComplete _ | .mcvtComplete _
  | .slewStep _ | .copyChunkDone _ _ | .copyChunkFault _ _ | .blockStart _ | .blockEnd _
  | .launchRetire _ | .faultLogRecord _ | .placementAttempt _ | .placementRetry _ | .rotationAttempt _
  | .clusterReassign _ _ | .clusterOppointReady _ | .hotSpotMigration _ _ | .energyAttribution
  | .energyCharge | .quotaPeriodBoundary _ | .packetRead _ | .launchPacket _ | .waitmarks _
  | .setmark _ | .regionInstall _ | .regionUpdate _ | .regionRemove _ | .regionRemoveComplete _
  | .leaseRequest _ | .leaseRelease _ | .nopPacket _ | .leaseGrant _ _ | .leaseRevoke _ | .leaseEnd _
  | .markReexamine _ | .waitPark _ | .queueDeadlock _ | .queueEnable _ _ | .queueDisable _ _
  | .queueKick _ _ | .queueErrorClear _ | .registerWrite _ _ | .tlbInvalidate _ | .tlbInvalidateDone
  | .contextCreate _ | .contextSuspend _ | .suspendComplete _ | .contextResume _ | .contextDestroy _
  | .contextScb _ | .contextLost _ | .pfresp _ _ | .svcdone _ _ | .poolResume | .poolDrop
  | .refugeWriteback _ _ | .refugeDiscard _ _ | .poolLinkLoss _ | .refugeMoveDone | .poolPortChange _ _
  | .bisnp _ | .poolWindowEnable _ _ | .poolWindowDisable _ _ | .hostDramAccess _ _ _
  | .channelEnable _ _ | .channelErrorClear _ | .channelKick _ _ | .channelSend _ | .channelReceive _ _
  | .channelStateMessage _ _ _ _ | .peerLinkDown _ | .linkFlitRetry _ | .linkLaneDegrade _
  | .eccCorrected _ _ | .eccUncorrectable _ _ | .dramScrub _ | .l2Scrub _ | .schedulerFailover
  | .boot _ | .clearMapOut _ _ | .requestUpdate | .passComponentTable _ | .updateComponent _ _
  | .transferComplete _ | .verifyComplete _ _ | .applyComplete _ | .activateFirmware | .getStatus
  | .cancelUpdate | .leafUpdateCluster _ | .leafDrainTimeout _ | .schedulerHandover | .coreMapOut _
  | .dramRowSpare _ _ | .channelMapOut _ | .l2SliceDegrade _ | .quarterRecalibrate _ | .getDigests
  | .getCertificate | .challenge _ | .getMeasurements | .saveAreaTailAdvance _ _ _
  | .wholeContextSwitch _ | .hostSnoop _ => {}

/-- The same by the parts that have a guard each: the halves of a PAIR (R82). -/
def usesParts : Instr → List Uses
  | .pair h0 h1 =>
    [h0, h1].map fun h => { g := some h.g, vr := halfReads h, sr := if h.op7 = 0x19 then [h.a.toNat] else [] }
  | i => [usesOf i]

/-- Instructions that raise EJECT_ILLEGAL in an ejected lane (R138, R163, R277). -/
def ejectIllegal : Instr → Bool
  | .bar _ | .bara _ | .barw _ | .vshfl _ | .vshfx _ | .vbcast _ | .vvote _ | .vmatch _ | .vred _ | .vscan _
  | .vcmpr _ | .hset _ | .hgen _ | .mma _ | .mmas _ | .mzero _ | .mcvt _ | .mstat _ | .msclr _ | .ocfence _
  | .cpy _ | .cpyg _ | .bseal _ | .bwait _ | .part _ | .gset _ | .ejctl _ | .svc _ => true
  | _ => false

/-- Bits 31:0 of an instruction's word (R90). -/
def wordLow (i : Instr) : Word :=
  match encode i with
  | some w => (w.extractLsb' 0 32).zeroExtend 64
  | none => 0

/-- The fixed-latency list (R126), by opcode. -/
def fixedOpc (n : Nat) : Bool :=
  decide (0x40 ≤ n ∧ n ≤ 0x44) || decide (0x47 ≤ n ∧ n ≤ 0x5B) || decide (0x60 ≤ n ∧ n ≤ 0x66)
    || decide (0x69 ≤ n ∧ n ≤ 0x73) || decide (0x78 ≤ n ∧ n ≤ 0x7A)
/-- An instruction on the fixed-latency list (R126). -/
def fixedLatency (i : Instr) : Bool :=
  match toRaw i with
  | some (.v3 opc _) | some (.v4 opc _) | some (.vi opc _) => fixedOpc opc.toNat
  | some (.pair h0 h1) => fixedOpc (h0.op7.toNat + 0x40) && fixedOpc (h1.op7.toNat + 0x40)
  | _ => false

end Sys2Proof.Machine
end

