-- ==== Sys2Proof/Machine/Ops.lean ====
section
/-!
DEFINITION. The operations that many instructions and events share: sync words, batches, barriers, marks,
tokens, taking a trap and returning from one, killing a course, and the frame in which every instruction of
a course or an ejected lane executes.
-/

namespace Sys2Proof.Machine

/-- Do `f` for agent `a`, then put the executing agent back. -/
def State.as (s : State) (a : Agent) (f : State → State) : State := { f { s with cur := a } with cur := s.cur }

/-- Split `k` of course `c` goes on at the instruction after the one that waited. -/
def State.resume (s : State) (c k : Nat) : State := s.modSplit c k fun x => { x with wait := .ready, pc := x.next }
/-- Ejected lane `q` goes on at the instruction after the one that waited. -/
def State.resumeLane (s : State) (q : Nat) : State := s.modLane q fun x => { x with wait := .ready, pc := x.next }

/-- Do `f` to every split of course `c`, in order. -/
def State.forSplits (s : State) (c : Nat) (f : State → Nat → Split → State) : State :=
  (s.course c).splits.zipIdx.foldl (fun s e => f s e.2 e.1) s

/-! ### Sync words (R228, R229) -/

def State.padNat (s : State) (b off n : Nat) : Nat :=
  leNat ((List.range n).map fun i => Cells.get 0 (s.block b).sp (off + i))

/-- R321: what SWAIT reports, or `none` while it waits. -/
def State.syncDone (s : State) (b off : Nat) (g : BitVec 32) : Option Word :=
  let gen : BitVec 32 := BitVec.ofNat 32 (s.padNat b (off + 8) 4)
  if (gen - g).toNat < 2 ^ 31 then some 0
  else if (s.padNat b (off + 12) 4).testBit 1 then some 1
  else none

/-- R321, R287: a SWAIT of the executing agent ends with its result; what follows is placed after the update it saw. -/
def State.endSync (s : State) (b off : Nat) (d : BitVec 6) (v : Word) : State :=
  (s.setS d.toNat v).notBefore (s.padStamp b off 16).1

/-- Let every SWAIT of the block that may end, end. -/
def State.recheckSync (s : State) (b : Nat) : State :=
  (s.block b).courses.foldl (fun s c =>
    s.forSplits c fun s k x =>
      match x.wait with
      | .sync off g d =>
        match s.syncDone b off g with
        | some v => (s.as (.course c k) fun s => s.endSync b off d v).resume c k
        | none => s
      | _ => s) s

/-- Let every SWAIT of the block's ejected lanes that may end, end. -/
def State.recheckSyncLanes (s : State) (b : Nat) : State :=
  s.lanes.zipIdx.foldl (fun s e =>
    match e.1.wait with
    | .sync off g d =>
      if (s.course e.1.course).block = b then
        match s.syncDone b off g with
        | some v => (s.as (.lane e.2) fun s => s.endSync b off d v).resumeLane e.2
        | none => s
      else s
    | _ => s) s

/-- R229: a chunk of `n` bytes, whose writes are placed at `at'` at the latest, counts toward a sync word (R301). -/
def State.syncAdd (s : State) (b off n at' : Nat) : State :=
  let target := s.padNat b off 4
  let count := s.padNat b (off + 4) 4 + n
  let gen := s.padNat b (off + 8) 4
  let s' :=
    if target = 0 then s.storePadAt b (off + 4) (natLe 4 count) at'
    else s.storePadAt b (off + 4) (natLe 4 (count % target) ++ natLe 4 (gen + count / target)) at'
  (s'.recheckSync b).recheckSyncLanes b

/-- R231, R301: FAULT of a sync word becomes 1, after the writes of the chunks that were counted. -/
def State.syncFault (s : State) (b off : Nat) : State :=
  let s' := s.storePadAt b (off + 12) (natLe 4 (s.padNat b (off + 12) 4 ||| 2)) (s.padStamp b off 16).1
  (s'.recheckSync b).recheckSyncLanes b

/-! ### Barriers (R311 to R315) -/

def State.bar (s : State) (b n : Nat) : Bar := Cells.get {} (s.block b).bars n
def State.setBar (s : State) (b n : Nat) (x : Bar) : State :=
  s.modBlock b fun y => { y with bars := Cells.set {} y.bars n x }

/-- Courses of a block that have not ended. -/
def State.liveCourses (s : State) (b : Nat) : List Nat :=
  (s.block b).courses.filter fun c => (s.course c).place != .ended

/-- R322: the result of a barrier instruction whose phase was `p`. -/
def State.barResult (s : State) (b : Nat) (p : BitVec 16) : Word :=
  let n := (s.block b).abandoned
  BitVec.ofNat 64 ((if n = 0 then 0 else 2 ^ 31) + n * 2 ^ 16 + p.toNat)

/-- Let every BAR and BARW of the block whose phase is over, end; what follows is placed after the arrivals (R315). -/
def State.releaseBars (s : State) (b : Nat) : State :=
  (s.block b).courses.foldl (fun s c =>
    s.forSplits c fun s k x =>
      match x.wait with
      | .bar n p d _ =>
        if (s.bar b n).phase = p then s
        else (s.as (.course c k) fun s => (s.setS d.toNat (s.barResult b p)).notBefore (s.bar b n).time).resume c k
      | _ => s) s

/-- R312: the phase of barrier `n` completes. -/
def State.completeBar (s : State) (b n : Nat) : State :=
  (s.setBar b n { phase := (s.bar b n).phase + 1, time := (s.bar b n).time }).releaseBars b

/-- R312: a phase completes when COUNT reaches EXPECT; EXPECT 0 stands for every course not ended. -/
def State.checkBar (s : State) (b n : Nat) : State :=
  let x := s.bar b n
  match x.expect with
  | none => s
  | some e => if (if e = 0 then (s.liveCourses b).length else e) ≤ x.count then s.completeBar b n else s

/-- Some course waits in the current phase of barrier `n`. -/
def State.barHasWaiter (s : State) (b n : Nat) : Bool :=
  (s.block b).courses.any fun c => (s.course c).splits.any fun x =>
    match x.wait with
    | .bar m p _ _ => m == n && p == (s.bar b n).phase
    | _ => false

/-! ### Batches (R230, R231) -/

/-- Some operation of batch `seq` of course `c` has not completed. -/
def State.batchBusy (s : State) (c seq : Nat) : Bool :=
  s.copies.any (fun x => x.course == c && x.batch == seq) || s.ops.any (fun x => x.course == c && x.batch == some seq)

/-- Let sealed batches that are done leave the outstanding count, in seal order. -/
def State.leaveBatches (s : State) (c : Nat) : State :=
  let x := s.course c
  (List.range (x.openBatch - x.oldest)).foldl (fun s _ =>
    let x := s.course c
    if x.oldest < x.openBatch && !s.batchBusy c x.oldest then s.modCourse c fun y => { y with oldest := y.oldest + 1 } else s) s
/-- The batch is sealed and every operation in it has completed (R230). -/
def State.batchDone (s : State) (c seq : Nat) : Bool := decide (seq < (s.course c).openBatch) && !s.batchBusy c seq
/-- Let sealed batches that are done leave the outstanding count; the decoding flags of each batch that is done are ORed
into the flag word (R249). -/
def State.retireBatches (s : State) (c : Nat) : State :=
  let mine := (s.course c).lateFlags.filter fun e => s.batchDone c e.1
  (s.leaveBatches c).modCourse c fun y =>
    { y with
      lateFlags := y.lateFlags.filter fun e => !mine.contains e
      regs := { y.regs with flags := mine.foldl (fun f e => f ||| e.2) y.regs.flags } }

/-- R241, R299: results of the executing course's done batches come before whatever it does next, for every agent that
sees it. -/
def State.publish (s : State) : State :=
  match s.cur with
  | .course c _ =>
    let mine := (s.course c).chunkTimes.filter fun e => s.batchDone c e.1
    (s.modCourse c fun x => { x with chunkTimes := x.chunkTimes.filter fun e => !mine.contains e }).notBefore
      (mine.foldl (fun t e => max t e.2.1) 0)
  | _ => s
/-- R252, R299: results of the executing course's done batches come before its own later accesses: it fetches their lines
anew. -/
def State.settleBatches (s : State) : State :=
  match s.cur with
  | .course c _ =>
    let mine := (s.course c).chunkTimes.filter fun e => s.batchDone c e.1
    s.modSight fun v =>
      { v with stale := mine.foldl (fun m e => e.2.2.foldl (fun m ln => Cells.set 0 m ln 255) m) v.stale }
  | _ => s
/-- R241: a release at a scope: done batches are published, and every earlier access is performed. -/
def State.release (s : State) (scope : Nat) : State :=
  let t := if scope = 0 then s.settleBatches else s.publish
  if scope < 4 then t else (t.performAt scope).landFlight

/-- The failed batch that TINFO of a BATCH_FAULT names (R231). -/
def Course.failNamed (x : Course) (info : Word) : Option Nat :=
  (x.fails.find? fun f => f.seq % 65536 == fld info 0 16).map (·.seq)
/-- The failed batch that a BWAIT for `n` counts (R231). -/
def Course.failCounted (x : Course) (n : Nat) : Option BatchFail :=
  x.fails.find? fun f => decide (f.seq + n < x.openBatch)

/-! ### Marks (R302 to R304) -/

/-- The physical place of a mark for the launch of course `c`. -/
def State.markPa (s : State) (c : Nat) (va : Word) : Option Leaf := (s.translate (s.ctxOf c) va).toOption

/-- Waits on a mark, as course or lane, address. -/
def Wait.markOf : Wait → Option Word
  | .mark va .. => some va
  | _ => none

/-- The courses and ejected lanes that wait on the mark at a physical address, each with its course (R302). -/
def State.markWaiters (s : State) (pa : Nat) : List Nat :=
  let at' (c : Nat) (w : Wait) : Bool :=
    match w.markOf with
    | some va => (s.markPa c va).map (·.pa) == some pa
    | none => false
  (s.courses.zipIdx.filter fun e => e.1.splits.any fun x => at' e.2 x.wait).map (·.2)
    ++ (s.lanes.filter fun q => at' q.course q.wait).map (·.course)

/-- Write NWAIT and WCLASS of the mark at `leaf`, once, where its page can be written (R302). -/
def State.noteWaiters (s : State) (leaf : Leaf) : State :=
  let ws := s.markWaiters leaf.pa
  if !leaf.w || (isPool leaf.pa && !s.poolUp) || s.anyPoison leaf.pa 32 then s
  else
    let cls := ws.foldl (fun m c => max m (s.launchOf c).cls) 0
    s.storeBytes leaf.pol (leaf.pa + 18) (natLe 2 (min 0xFFFF ws.length) ++ natLe 1 cls)

/-- As `noteWaiters`, for a mark that course `c` names. -/
def State.noteMark (s : State) (c : Nat) (va : Word) : State :=
  match s.markPa c va with
  | some leaf => s.noteWaiters leaf
  | none => s

/-- R304: the waiters on a mark are examined again. -/
def State.wakeMark (s : State) (pa : Nat) : State :=
  let wake (c : Nat) (w : Wait) : Wait :=
    match w with
    | .mark va v cond sgn sc d _ => if (s.markPa c va).map (·.pa) == some pa then .mark va v cond sgn sc d 0 else w
    | _ => w
  { s with
    courses := s.courses.zipIdx.map fun e =>
      { e.1 with splits := e.1.splits.map fun x => { x with wait := wake e.2 x.wait } }
    lanes := s.lanes.map fun q => { q with wait := wake q.course q.wait }
    queues := s.queues.map fun e => (e.1, { e.2 with hold := e.2.hold.map fun p => { p with due := 0 } }) }

/-! ### Killing a course (R352, R313) -/

/-- Waiting phases complete at an abandonment, and counts of 0 are checked again (R312, R313). -/
def State.afterCourseEnd (s : State) (c : Nat) (abandoned : Bool) : State :=
  let b := (s.course c).block
  (List.range 16).foldl (fun s n =>
    if abandoned && s.barHasWaiter b n then s.completeBar b n else s.checkBar b n) s

def LaneSt.live : LaneSt → Bool
  | .starting _ | .running | .rejoining _ => true
  | _ => false

/-- A copy that has ended leaves: FAULT in its sync word, and its batch failed unless its course was killed (R231, R352). -/
def State.dropCopy (s : State) (y : Copy) (code : Nat) (addr : Word) : State :=
  let s1 := match y.sync with
    | some off => s.syncFault (s.course y.course).block off
    | none => s
  s1.modCourse y.course fun x =>
    { x with
      fails := if code = 0 then x.fails else x.fails ++ [⟨y.batch, addr, code⟩]
      lateFlags := if y.flags = 0 then x.lateFlags else x.lateFlags ++ [(y.batch, y.flags)] }
/-- A chunk that has begun (R299). -/
def Chunk.begun (h : Chunk) : Bool := h.mark.isSome
/-- A copy loses the chunks that have not begun; `none` where no chunk is left (R231, R352). -/
def Copy.cutOff (y : Copy) (code : Nat) (addr : Word) : Option Copy :=
  let rest := y.todo.filter Chunk.begun
  if rest.isEmpty then none else some { y with todo := rest, page := none, ended := some (code, addr) }

/-- R352: end a course and settle its work in flight; chunks and operations that have started complete. -/
def State.killCourse (s : State) (c : Nat) (k : Kill) : State :=
  let x := s.course c
  if x.place = .ended then s
  else
    let lanes := (s.lanes.filter fun q => q.course == c && q.st.live).length
    let ops := (s.ops.filter fun o => o.course == c && o.started.isNone).length
    let lose (y : Copy) : Bool := y.course == c && (y.page.isSome || y.todo.any fun h => !h.begun)
    let copies := s.copies.filter lose
    let marks := (x.splits.filterMap fun y => y.wait.markOf)
      ++ s.lanes.filterMap fun (q : Lane) => if q.course == c && q.st.live then q.wait.markOf else none
    let s1 := { s with
      lanes := s.lanes.map fun (q : Lane) => if q.course == c && q.st.live then { q with st := .done, wait := .ready } else q
      ops := s.ops.filter fun o => !(o.course == c && o.started.isNone)
      copies := s.copies.filterMap fun y => if lose y then y.cutOff 0 0 else some y }
    let s2 := s1.modCourse c fun y =>
      { y with
        place := .ended, splits := [], reentry := [], tokens := [], pending := [], win := none
        trap := { y.trap with level := false }
        kill := some { k with copies := copies.length, ops := ops, lanes := lanes } }
    let s3 := s2.modBlock x.block fun y => { y with abandoned := min 255 (y.abandoned + 1) }
    let s4 := copies.foldl (fun s y => if (y.cutOff 0 0).isNone then s.dropCopy y 0 0 else s) s3
    marks.foldl (fun s va => s.noteMark c va) (s4.afterCourseEnd c true)

/-! ### Taking a trap (R345, R348) -/

/-- TCAUSE (R344). -/
def causeWord (t : Trap) (nested : Bool) : Word :=
  BitVec.ofNat 64 (t.code + (if nested then 256 else 0) + (if t.window then 512 else 0))

/-- Courses at trap level that a core runs (R345). -/
def State.handlers (s : State) (core : Nat) : Nat :=
  (s.courses.zipIdx.filter fun e => e.1.trap.level && e.1.place == .resident && s.coreOf e.2 == core).length

/-- The trap is taken: the trap state is written and the split goes to HANDLER (R345, R348, R119). -/
def State.enterTrap (s : State) (c : Nat) (t : Trap) : State :=
  let h := (s.launchOf c).desc.handler
  let now := s.run c
  s.modCourse c fun x =>
    let n := x.trap.level
    { x with
      win := none
      trap :=
        { level := true, nested := n, cause := causeWord t n, lane := BitVec.ofNat 64 t.lane, pc := t.pc, addr := t.addr
          info := t.info, opc := if n then x.trap.pc else x.trap.opc, ocause := if n then x.trap.cause else x.trap.ocause
          split := t.split, since := if n then x.trap.since else now, parked := if n then x.trap.parked else 0
          batches := t.batch.toList ++ (if n then x.trap.batches else []) }
      splits := (x.splits.map fun y => { y with handler := false }).modify t.split fun y =>
        { y with pc := h, wait := .ready, handler := true, buf := [] } }

/-- A trap of some course of the core waits for a handler's place (R345). -/
def State.trapsWait (s : State) (core : Nat) : Bool :=
  s.courses.zipIdx.any fun e => !e.1.pending.isEmpty && e.1.place == .resident && s.coreOf e.2 == core

/-- The trap waits: for a handler's place, for the course's return, or for a latch window of another split (R125). -/
def State.postTrap (s : State) (c : Nat) (t : Trap) : State :=
  s.modCourse c fun y =>
    { y with
      win := if t.window then none else y.win
      pending := y.pending ++ [{ t with raised := s.tick }]
      splits := y.splits.modify t.split fun z => { z with wait := .ready } }

/-- The course's launch names no handler (R35). -/
def State.noHandler (s : State) (c : Nat) : Bool := (s.launchOf c).desc.handler == 0
/-- A trap reaches its course: R348 at trap level; a course with no handler is killed (R35, R352); otherwise it is taken
(R345). -/
def State.deliver (s : State) (c : Nat) (t : Trap) : State :=
  let x := s.course c
  if x.trap.level then
    if x.trap.nested then s.killCourse c { reason := 3, trap := t, cause := causeWord t true } else s.enterTrap c t
  else if s.noHandler c then s.killCourse c { reason := 2, trap := t, cause := causeWord t false }
  else s.enterTrap c t

/-- TAKING A TRAP. The trap waits while a latch window of the course is open that it did not arise in (R125); and, of a course
that has a handler and is not at trap level, while the core runs four handlers or owes an older one (R345), and while the
course is off its core or leaves it (R347). Otherwise it is delivered at once. -/
def State.raise (s : State) (c : Nat) (t : Trap) : State :=
  let x := s.course c
  let core := s.coreOf c
  if x.place = .ended then s
  else if x.win.isSome ∧ !t.window then s.postTrap c t
  else if !x.trap.level && !s.noHandler c
      && (x.place != .resident || x.leaving.isSome || decide (Config.handlersPerCore ≤ s.handlers core) || s.trapsWait core) then
    s.postTrap c t
  else s.deliver c t

/-! ### Tokens (R133, R134, R141) -/

def Course.token (x : Course) (t : Nat) : Token := x.tokens.getD t {}
def State.modToken (s : State) (c t : Nat) (f : Token → Token) : State :=
  s.modCourse c fun x =>
    { x with tokens := ((List.range 8).map fun i => x.tokens.getD i {}).modify t f }

/-- The splits that wait at REGANG `t`, by place. -/
def Course.waitingAt (x : Course) (t : Nat) : List (Nat × Split) :=
  (x.splits.zipIdx.filter fun e => e.1.m != 0 && e.1.wait == .regang t).map fun e => (e.2, e.1)

/-- Of some splits, the one that began to wait first. -/
def firstWaiting (l : List (Nat × Split)) : Option (Nat × Split) :=
  l.foldl (fun best e =>
    match best with
    | none => some e
    | some b => if e.2.since < b.2.since then some e else some b) none
/-- Of some splits, the one that began to wait last. -/
def lastWaiting (l : List (Nat × Split)) : Option (Nat × Split) :=
  l.foldl (fun best e =>
    match best with
    | none => some e
    | some b => if b.2.since ≤ e.2.since then some e else some b) none

/-- R133: every lane of O_t has arrived, exited, rejoined or was stopped. -/
def Course.tokenFull (x : Course) (t : Nat) : Bool :=
  let k := x.token t
  k.isOpen && (k.opened &&& ~~~(k.arrived ||| x.exited ||| k.back)) == 0

/-- Put a split into the course's first free place, or behind the others. -/
def Course.addSplit (x : Course) (y : Split) : Course :=
  match x.splits.findIdx? fun z => z.m == 0 with
  | some i => { x with splits := x.splits.set i y }
  | none => { x with splits := x.splits ++ [y] }

/-- R133: the token completes and its waiting splits become one; lanes outside O_t stay members of it, inactive
(R157). -/
def State.closeToken (s : State) (c t : Nat) (at' : Nat × Split) : State :=
  let x := s.course c
  let ws := x.waitingAt t
  let a := (x.token t).opened &&& ~~~x.exited
  let m := (a ||| (x.token t).outside ||| ws.foldl (fun m e => m ||| e.2.m) 0) &&& ~~~x.exited
  let h := ws.any fun e => e.2.handler
  let s1 := s.modCourse c fun y =>
    { y with
      sight := { y.sight with time := max y.sight.time (y.token t).after }
      trap := if h && y.trap.level then { y.trap with split := at'.1 } else y.trap
      splits := y.splits.zipIdx.map fun e =>
        if e.2 == at'.1 then { e.1 with m := m, a := a, wait := .ready, pc := at'.2.next, handler := h }
        else if e.1.wait == .regang t then { e.1 with m := 0, a := 0, wait := .ready, handler := false } else e.1 }
  s1.modToken c t fun _ => {}

/-- The place that `addSplit` takes. -/
def Course.freeSplit (x : Course) : Nat := (x.splits.findIdx? fun z => z.m == 0).getD x.splits.length

/-- A full token with no split left to wait for it: its lanes form one split after the REGANG, or, where a faulted lane is still
to be reported, at the REGANG (R141, R157, R162). As in `closeToken`, lanes outside O_t are members and inactive. At trap level
with no split left that runs the handler, the split goes on as the one that trapped (R162, log 24). -/
def State.reviveToken (s : State) (c t : Nat) : State :=
  let x := s.course c
  let k := x.token t
  let a := k.opened &&& ~~~x.exited
  let m := a ||| (k.outside &&& ~~~x.exited)
  if m = 0 then s.modToken c t fun _ => {}
  else
    let h : Bool := x.trap.level && !x.splits.any (·.handler)
    let start (pc : Word) : State := s.modCourse c fun y =>
      { y.addSplit { pc := pc, m := m, a := a, last := 0, handler := h } with
        sight := { y.sight with time := max y.sight.time k.after }
        trap := if h then { y.trap with split := x.freeSplit } else y.trap }
    match k.nextPc, k.faulted with
    | some pc, [] => (start pc).modToken c t fun _ => {}
    | _, _ => (start k.endPc).modToken c t fun y => { y with back := 0, arrived := 0 }

/-- Report the next faulted lane of a full token, or complete it (R141, R133). A report waits while the course has a
trap in hand (R345). -/
def State.settleToken (s : State) (c t : Nat) : State :=
  let x := s.course c
  if !x.tokenFull t then s
  else
    match firstWaiting (x.waitingAt t) with
    | none => if (x.splits.any fun y => y.m &&& (x.token t).opened != 0) then s else s.reviveToken c t
    | some (k, sp) =>
      match (x.token t).faulted with
      | (lane, pc, code) :: rest =>
        if x.trap.level || !x.pending.isEmpty then s
        else
          let s1 := s.modToken c t fun y => { y with faulted := rest, arrived := y.arrived &&& ~~~sp.m }
          s1.raise c
            { code := tEjectLane, lane := lane, pc := sp.pc, addr := pc, info := BitVec.ofNat 64 code, split := k }
      | [] => s.closeToken c t (k, sp)

/-- An ejected lane that is out may still complete token `t`: it is one of O_t, and comes back under a token that is waited
for, or under one of which no split holds a lane any more, so that it goes on alone (R134, R162). -/
def State.laneCompletes (s : State) (c : Nat) (toks : List Nat) (t : Nat) (q : Lane) : Bool :=
  let x := s.course c
  let held := x.splits.foldl (fun m y => m ||| y.m) (0 : Mask)
  q.course == c && q.st.live && (x.token t).opened.has q.lane
    && (toks.contains q.tok || (x.token q.tok).opened &&& held == 0)

/-- R134: every split waits at a REGANG, so that none can pop a re-entry or take up a deferred set, and no ejected lane is
out that could complete a token waited for. -/
def State.deadToken (s : State) (c : Nat) : Option (Nat × Split) :=
  let x := s.course c
  let live := x.splits.zipIdx.filter fun e => e.1.m != 0
  let toks := live.filterMap fun e => match e.1.wait with | .regang t => some t | _ => none
  if live.isEmpty || toks.length != live.length then none
  else if toks.any (fun t => x.tokenFull t || s.lanes.any (s.laneCompletes c toks t)) then none
  else lastWaiting (live.map fun e => (e.2, e.1))

/-- Complete what can be completed of a course's tokens, then judge R134. The splits of a course that is off its core do
not change (R420). -/
def State.settle (s : State) (c : Nat) : State :=
  if (s.course c).place ≠ .resident then s
  else
    let s1 := (List.range 8).foldl (fun s t => s.settleToken c t) s
    match s1.deadToken c with
    | none => s1
    | some (k, sp) =>
      let s2 := match sp.wait with
        | .regang t => s1.modToken c t fun y => { y with arrived := y.arrived &&& ~~~sp.m }
        | _ => s1
      s2.raise c { code := tBarrier, pc := sp.pc, split := k }

/-- R376, R162: a course all of whose lanes have exited ends. -/
def State.endIfExited (s : State) (c : Nat) : State :=
  if (s.course c).exited = Mask.all ∧ (s.course c).place ≠ .ended then
    (s.modCourse c fun x =>
      { x with place := .ended, splits := [], reentry := [], tokens := [], pending := [], win := none
               trap := { x.trap with level := false } }).afterCourseEnd c false
  else s

/-- R314: every course of the block that has not ended waits in BAR or BARW and none is parked: each raises
BARRIER_MISUSE, that of its split that issued first (R345), and its own arrival in the phase is taken back. -/
def State.judgeBars (s : State) (b : Nat) : State :=
  let live := s.liveCourses b
  let inBar (c : Nat) : Option (Nat × Nat × Split) :=
    let x := s.course c
    if x.place != .resident then none
    else
      let sp := x.splits.zipIdx.filter fun e => e.1.m != 0
      if sp.isEmpty then none
      else if sp.all (fun e => match e.1.wait with | .bar .. => true | _ => false) then
        (firstWaiting (sp.map fun e => (e.2, e.1))).map fun e => (c, e.1, e.2)
      else none
  if live.isEmpty || live.any (fun c => (inBar c).isNone) then s
  else
    (live.filterMap inBar).foldl (fun s e =>
      let (c, k, sp) := e
      let s1 :=
        match sp.wait with
        | .bar n _ _ true =>
          let x := s.bar b n
          s.setBar b n (if x.count ≤ 1 then { phase := x.phase, time := x.time } else { x with count := x.count - 1 })
        | _ => s
      let s2 := s1.modCourse c fun y => { y with splits := y.splits.map fun z => { z with wait := .ready } }
      s2.raise c { code := tBarrier, pc := sp.pc, info := 3, split := k }) s

/-! ### Waits on batches -/

/-- Let every BWAIT of course `c` that may end, end; one that would count a failed batch raises BATCH_FAULT
(R231), once no other trap of the course is in hand. -/
def State.recheckBatches (s : State) (c : Nat) : State :=
  (s.retireBatches c).forSplits c fun s k x =>
    match x.wait with
    | .batch n =>
      let y := s.course c
      if y.openBatch - y.oldest ≤ n then
        match y.failCounted n with
        | some f =>
          if (y.trap.level && !x.handler) || !y.pending.isEmpty then s
          else
            s.raise c { code := tBatch, pc := x.pc, addr := f.addr, split := k, batch := some f.seq
                        info := BitVec.ofNat 64 (f.seq % 65536 + f.code * 65536) }
        | none => (s.as (.course c k) State.settleBatches).resume c k
      else s
    | _ => s

/-! ### Returning from a trap (R350) -/

/-- R350: return of split `k` from a trap: the level ends, NESTED clears, latches become invalid, and the split resumes
at TPC; failed batches that were reported count as done (R231). -/
def State.returnTrap (s : State) (c k : Nat) : State :=
  let s1 := s.modCourse c fun y =>
    { y with
      trap := { y.trap with level := false, nested := false, cause := y.trap.cause &&& ~~~(0x100 : Word), batches := [] }
      regs := { y.regs with bl := [] }
      fails := y.fails.filter fun f => !y.trap.batches.contains f.seq
      splits := (y.splits.map fun z => { z with handler := false }).modify k fun z =>
        { z with pc := y.trap.pc, wait := .ready } }
  (s1.settle c).recheckBatches c

/-! ### Ejected lanes that fault (R141) -/

/-- Faulted lanes in ascending lane number. -/
def insertFault (e : Nat × Word × Nat) : List (Nat × Word × Nat) → List (Nat × Word × Nat)
  | [] => [e]
  | x :: xs => if e.1 < x.1 then e :: x :: xs else x :: insertFault e xs

/-- A fault stops an ejected lane at a precise PC; its flag word is ORed into the course's (R183). -/
def State.stopLane (s : State) (q : Nat) (code : Nat) (pc : Word) : State :=
  let x := s.lane q
  let s1 := s.modLane q fun y => { y with st := .stopped code, wait := .ready, pc := pc }
  let s2 := s1.modToken x.course x.tok fun k =>
    { k with
      back := k.back ||| Mask.one x.lane
      after := max k.after x.sight.time
      faulted := insertFault (x.lane, pc, code) k.faulted }
  let s3 := s2.modCourse x.course fun y => { y with regs := y.regs.takeFlags x.regs }
  s3.settle x.course

/-! ### The frame of an instruction -/

/-- Instruction bytes as a PC increment. -/
def Instr.len (i : Instr) : Word := BitVec.ofNat 64 i.bytes

/-- Lanes an instruction acts on (R71). -/
def State.usesMask (s : State) (u : Uses) : Mask :=
  match u.g with
  | some g => s.acted g
  | none => s.active

/-- Damaged or lost register words that the instruction reads in a lane of `m` (R386, R391); one whose pool load is
still in flight is waited for. -/
def State.damaged (s : State) (u : Uses) (m : Mask) : Option Exn :=
  let words := u.vr.flatMap fun r => [0, 1, 2].map fun k => (r, k)
  let hit := words.findSome? fun e =>
    let lanes := (Mask.list m).filter fun l => l / 32 == e.2
    match lanes, Cells.get .clean s.regs.vst (3 * e.1 + e.2) with
    | _ :: _, .coming _ due _ => if s.clock < due then some .stall else none
    | l :: _, .poison => some (Exn.halt l (BitVec.ofNat 64 e.1))
    | l :: _, .lost a atomic => some (.trap tPoolLost l (BitVec.ofNat 64 a) (if atomic then 0x209 else 0x409))
    | _, _ => none
  match hit with
  | some e => some e
  | none =>
    u.sr.findSome? fun r =>
      match Cells.get .clean s.regs.sst r with
      | .coming _ due _ => if s.clock < due then some .stall else none
      | .poison => some (Exn.halt ((Mask.list s.active).headD 127) (BitVec.ofNat 64 (r + 2048)))
      | .lost a atomic => some (trapC tPoolLost (BitVec.ofNat 64 a) (if atomic then 0x209 else 0x409))
      | _ => none

/-- R266: a register that the matrix operations of course `c` will read or write. -/
def State.rowBusy (s : State) (c r : Nat) : Bool :=
  s.ops.any fun o => o.course == c
    && (match o.kind with
        | .mcvt => rowRegs o.o.a ++ rowRegs o.o.d (64 / tyElems o.o.ty)
        | .mma | .mmas | .mzero => rowRegs o.o.d).contains r
/-- The instruction goes to the matrix engine's queue. -/
def Instr.isEngine : Instr → Bool
  | .mma _ | .mmas _ | .mzero _ | .mcvt _ => true
  | _ => false
/-- R266: the instruction would read or write a register that is held. -/
def State.rowsHeld (s : State) (i : Instr) (u : Uses) : Bool :=
  !Instr.isEngine i && !s.isLane && (u.vr ++ u.vw).any (s.rowBusy s.curCourse)

/-- The checks every instruction makes before any effect (R72, R90, R138, R266, R385, R391); a matrix operation reads its
rows, and meets damage in them, only when it starts (R265, R386). -/
def State.prologue (s : State) (i : Instr) : Except Exn Unit :=
  let u := usesOf i
  let allot := (s.course s.curCourse).allot
  if (u.vr ++ u.vw).any (fun r => decide (allot ≤ r)) then .error (trapC tRegBounds 0 (wordLow i))
  else if s.isLane && ejectIllegal i then .error (trapC tEjectIllegal 0 (wordLow i))
  else if s.rowsHeld i u then .error .stall
  else
    match (usesParts i).findSome? fun w => s.damaged (if Instr.isEngine i then { w with vr := [] } else w) (s.usesMask w) with
    | some e => .error e
    | none => .ok ()

/-- Close a latch window that the instruction is not part of, before it issues (R125). -/
def State.closeWindow (s : State) (i : Instr) : State :=
  match s.cur with
  | .course c _ => if fixedLatency i then s else s.modCourse c fun x => { x with win := none }
  | _ => s

/-- The agent is not waiting while its instruction executes. -/
def State.clearWait (s : State) : State :=
  match s.cur with
  | .none => s
  | .course c k => s.modSplit c k fun x => { x with wait := .ready }
  | .lane q => s.modLane q fun x => { x with wait := .ready }

/-- What becomes of an instruction that does not complete. The instruction stands at `pc`, `len` bytes long. A fault inside an open
latch window restarts the window; for which faults of R90 it is still open, is log 54 (DESIGN CHOICE). -/
def State.settleExn (s : State) (pc len : Word) (e : Exn) : Host.Outcome State Fault Refusal :=
  match s.cur, e with
  | _, .stop f => .fault f
  | .none, _ => .fault .noIssuer
  | _, .stall => .next (s.setWait .stalled pc)
  | _, .await b => .next (s.setWait (.member b) pc)
  | .course c k, e =>
    let win := (s.course c).win
    let tpc := match win with | some w => w.pc | none => pc
    let off := (pc - tpc).toNat / 4
    let info (i : Word) : Word := match win with | some _ => i ||| BitVec.ofNat 64 (off % 256 * 2 ^ 32) | none => i
    match e with
    | .trap code lane a i =>
      .next (s.raise c
        { code := code, lane := lane, pc := tpc, addr := a, info := info i, window := win.isSome, split := k
          batch := if code = tBatch then (s.course c).failNamed i else none })
    | .trapNext code a i =>
      .next (s.raise c { code := code, pc := pc + len, addr := a, info := i, split := k })
    | .page va kind wr ex lane scale =>
      let s1 := (s.setPc tpc).setWait (.page va kind wr ex lane scale none (s.run c) (win.map fun _ => off)) pc
      let s2 := s1.modCourse c fun x => { x with win := none }
      .next (if win.isSome then s2.clearLatches c else s2)
    | .halt lane i =>
      .next (s.killCourse c { reason := 5, trap := { code := 0, lane := lane, pc := pc, info := i, split := k } })
    | .stall | .await _ | .stop _ => .next s
  | .lane q, e =>
    match e with
    | .trap code _ _ _ | .trapNext code _ _ => .next (s.stopLane q code pc)
    | .halt _ _ => .next (s.stopLane q tPoison pc)
    | .page va kind wr ex lane scale =>
      .next (s.setWait (.page va kind wr ex lane scale none s.clock none) pc)
    | .stall | .await _ | .stop _ => .next s

/-- Execute `body` as instruction `i` of the executing agent. `body` moves the PC itself. -/
def instr (i : Instr) (body : State → Except Exn State) (s : State) : Host.Outcome State Fault Refusal :=
  if !s.hasAgent then .fault .noIssuer
  else
    let s1 := (s.closeWindow i).clearWait
    match (s1.prologue i).bind fun _ => body s1 with
    | .ok s2 => .next s2
    | .error e => s1.settleExn s.pc (Instr.len i) e

/-- As `instr`, for an instruction after which the next one in sequence follows. -/
def seqInstr (i : Instr) (body : State → Except Exn State) (s : State) : Host.Outcome State Fault Refusal :=
  instr i (fun t => (body t).map fun u => u.setPc (s.pc + Instr.len i)) s

end Sys2Proof.Machine
end

