-- ==== Sys2Proof/Machine/Issue.lean ====
section
/-!
DEFINITION. Fetching an instruction (R68, R69, R86, R90, R91) and choosing which split issues (R120 to R122,
R124).
-/

namespace Sys2Proof.Machine

/-! ### Fetch -/

/-- The agent's fetch buffer (R91). -/
def State.buf (s : State) : List FLine :=
  match s.cur with
  | .none => []
  | .course c k => (s.split c k).buf
  | .lane q => (s.lane q).buf
def State.setBuf (s : State) (l : List FLine) : State :=
  match s.cur with
  | .none => s
  | .course c k => s.modSplit c k fun x => { x with buf := l }
  | .lane q => s.modLane q fun x => { x with buf := l }

/-- The 32-byte line at `va` for the agent: from the instruction cache, else through translation into it (R90 order 1, R91,
R387, R390). -/
def State.codeLine (s : State) (pc va : Word) : Except Exn (FLine × State) :=
  let x := s.ctxOf s.curCourse
  let core := s.cacheOf
  let num := (s.ctx x).num
  match s.icache.find? fun e => e.core == core && e.ctx == num && e.va == va.toNat with
  | some e => .ok (⟨e.va, e.pa, e.bytes⟩, s)
  | none =>
    match s.translate x va with
    | .error .nonCanonical => .error (trapC tProtection pc 0)
    | .error .invalid => .error (.page pc 1 false true 127 none)
    | .error .malformed => .error (.page pc 2 false true 127 none)
    | .error .poison => .error (trapC tPoison pc 0)
    | .ok leaf =>
      if !leaf.x || leaf.pol == 3 || (isPool leaf.pa && !s.effPoolEn (s.launchOf s.curCourse).region) then
        .error (trapC tProtection pc 0)
      else if isPool leaf.pa && !s.poolUp then .error (trapC tPoolLost pc 9)
      else if s.anyPoison leaf.pa 32 then .error (trapC tPoison pc 0)
      else
        let bytes := s.readBytes 0 leaf.pa 32
        .ok (⟨va.toNat, leaf.pa, bytes⟩, { s with icache := ⟨core, num, va.toNat, leaf.pa, bytes⟩ :: s.icache })

/-- Fetch of the line at `va`: from the fetch buffer, which then holds it and the next one, else by the instruction
cache (R91). -/
def State.fetchLine (s : State) (pc va : Word) : Except Exn (List Byte × State) :=
  match s.buf.find? fun e => e.va == va.toNat with
  | some e => .ok (e.bytes, s.setBuf (e :: s.buf.filter fun f => f.va == va.toNat + 32))
  | none => (s.codeLine pc va).map fun r => (r.1.bytes, r.2.setBuf [r.1])
/-- The fetch buffer takes the line after the one it holds, if that line can be fetched (R91). -/
def State.prefetch (s : State) : State :=
  match s.buf with
  | [e] =>
    let va : Word := BitVec.ofNat 64 (e.va + 32)
    match s.codeLine va va with
    | .ok r => r.2.setBuf [e, r.1]
    | .error _ => s
  | _ => s
/-- Bits 31:0 of a word, as TINFO holds them (R90). -/
def low32 (w : BitVec 128) : Word := (w.extractLsb' 0 32).zeroExtend 64

/-- The instruction in a line at an offset, or the fault of R90 orders 2 to 6. -/
def decodeAt (pc : Word) (line : List Byte) : Except Exn Instr :=
  let first := bytesWord (line.take 16)
  let o := pc.toNat % 32
  let w := bytesWord ((line.drop o).take 16)
  if opcOf first = 0xFE ∧ lenOf first = 0 then .error (trapC tExecPool pc 0)
  else if opcOf w = 0xFE then .ok (.pguard (bits w 0 64))
  else if (lenOf w).toNat = 3 then .error (trapC tIllegalOp 0 (low32 w))
  else if 32 < o + lenBytes (lenOf w) then .error (trapC tStraddle 0 (low32 w))
  else
    match decode w with
    | .ok i => .ok i
    | .error .illegalPair => .error (trapC tIllegalPair 0 (low32 w))
    | .error _ => .error (trapC tIllegalOp 0 (low32 w))

/-- Fetch and decode the instruction at the agent's PC. -/
def State.fetch (s : State) : Except Exn (Instr × State) := do
  let pc := s.pc
  let (line, s1) ← s.fetchLine pc (BitVec.ofNat 64 (pc.toNat / 32 * 32))
  let i ← decodeAt pc line
  .ok (i, s1)

/-! ### Readiness and choice -/

/-- The device number of a course's quarter. -/
def State.quarterOf (s : State) (c : Nat) : Nat := 4 * s.coreOf c + (s.course c).quarter

/-- Some region from `r` up to its root is stopped by its quota (R20, R357). -/
def State.quotaStopped (s : State) : Nat → Nat → Bool
  | 0, _ => false
  | fuel + 1, r =>
    (s.region r).stopped || (match (s.region r).parent with | some p => s.quotaStopped fuel p | none => false)

/-- A page fault of a split is under repair (R354). -/
def Wait.isPage : Wait → Bool
  | .page .. => true
  | _ => false

/-- R321: a split that waits in SWAIT although its word now ends the wait. -/
def State.syncOver (s : State) (c : Nat) (w : Wait) : Bool :=
  match w with
  | .sync off g _ => (s.syncDone (s.course c).block off g).isSome
  | _ => false
/-- R64: the block-set member that the wait stands for has not started. -/
def State.memberOut (s : State) (w : Wait) : Bool :=
  match w with
  | .member b => !(s.block b).begun && (s.block b).st != .ended
  | _ => false
/-- A wait for which the whole course counts as not ready (R252, R320, R321, R326, R354). -/
def State.holdsCourse (s : State) (c : Nat) (w : Wait) : Bool :=
  match w with
  | .mark .. | .batch _ | .sleep _ | .page .. => true
  | .sync .. => !s.syncOver c w
  | _ => s.memberOut w

/-- The core on whose registers a course's matrix operations work: an ended one's may have been left behind by its block (R376). -/
def State.regsAt (s : State) (c : Nat) : Nat :=
  match (s.course c).place with
  | .ended => (s.ops.findSome? fun o => if o.course == c then o.core else none).getD (s.coreOf c)
  | _ => s.coreOf c
/-- The course still stands in registers that may have been given away: it is about to leave, or it ended and a matrix operation
of it is left (R61, R66, R376). -/
def State.lingers (s : State) (c : Nat) : Bool :=
  match (s.course c).place with
  | .resident => (s.course c).leaving.isSome
  | .ended => s.ops.any fun o => o.course == c && o.core.isSome
  | _ => false
/-- No other course lingers in the course's registers. -/
def State.regsClear (s : State) (c : Nat) : Bool :=
  let x := s.course c
  s.courses.zipIdx.all fun e =>
    e.2 == c || !s.lingers e.2 || e.1.quarter != x.quarter || s.regsAt e.2 != s.coreOf c
      || decide (e.1.base + e.1.allot ≤ x.base) || decide (x.base + x.allot ≤ e.1.base)

/-- A context comes back: blocks of it that are restored with it have not all started (R361). -/
def State.restoring (s : State) (x : Nat) : Bool :=
  s.blocks.any fun b => b.resumed && (match b.st with | .starting _ => true | _ => false) && (s.launch b.launch).ctx == x
/-- Courses of the course's context may run. -/
def State.ctxRuns (s : State) (c : Nat) : Bool := (s.ctx (s.ctxOf c)).st == .running && !s.restoring (s.ctxOf c)

/-- A course may issue: it is resident with its whole block, its context runs, its region has energy, no trap of it
waits for a handler's place, nothing it waits for holds the course, and it is not about to leave (R66, R345, R357, R361); one
that has a latch window open issues until the window closes (R65, R125). While its handler runs, only the waits of the
handler's splits count (R119). -/
def State.courseReady (s : State) (c : Nat) : Bool :=
  let x := s.course c
  let b := s.block x.block
  x.place == .resident && decide (Cells.get 0 s.mgmt.recal (s.quarterOf c) ≤ s.clock) && s.regsClear c
    && !(x.splits.any fun y => (!x.trap.level || y.handler) && s.holdsCourse c y.wait)
    && (x.win.isSome
      || ((x.pending.isEmpty || x.trap.level) && x.leaving.isNone && b.st == .resident && s.ctxRuns c
        && b.courses.all (fun d => (s.course d).place != .evicted && (s.course d).leaving != some .evicted)
        && !s.quotaStopped 9 (s.launchOf c).region))

/-- A split whose instruction can be tried: it is not waiting, or the wait may be over (R119, R132, R135, R312). -/
def State.splitTries (s : State) (c : Nat) (y : Split) : Bool :=
  let x := s.course c
  y.m != 0 && (!x.trap.level || y.handler)
    && match y.wait with
      | .ready | .stalled | .join .. => true
      | .member _ => !s.memberOut y.wait
      | w => s.syncOver c w

/-- The splits of a quarter that `ready` says can issue, as course and split. -/
def State.readySplits (s : State) (ready : Nat → Nat → Bool) (q : Nat) : List (Nat × Nat) :=
  (List.range s.courses.length).flatMap fun c =>
    if s.quarterOf c == q && s.courseReady c then
      ((s.course c).splits.zipIdx.filter fun e => s.splitTries c e.1 && (e.1.wait == .ready || ready c e.2)).map fun e => (c, e.2)
    else []

/-- Rank of a course in issue choice, highest first (R120, R121). -/
def State.issueRank (s : State) (sixteenth : Bool) (c : Nat) : Nat :=
  let cls := (s.launchOf c).cls
  if (s.course c).trap.level then 4 else if sixteenth && cls == 1 then 3 else cls

/-- Split `a` goes ahead of split `b` (R120); handlers take turns (R347). -/
def State.ahead (s : State) (sixteenth : Bool) (a b : Nat × Nat) : Bool :=
  let ra := s.issueRank sixteenth a.1
  let rb := s.issueRank sixteenth b.1
  let pa := if ra = 4 then 0 else s.effPrio (s.launchOf a.1).region
  let pb := if rb = 4 then 0 else s.effPrio (s.launchOf b.1).region
  let la := (s.course a.1).last
  let lb := (s.course b.1).last
  decide (rb < ra) || (ra == rb && (decide (pb < pa) || (pa == pb && (decide (la < lb)
    || (la == lb && decide ((s.split a.1 a.2).last < (s.split b.1 b.2).last))))))

/-- The split that a quarter chooses (R120 to R122). -/
def State.chooseSplit (s : State) (ready : Nat → Nat → Bool) (q : Nat) : Option (Nat × Nat) :=
  let cands := s.readySplits ready q
  let sixteenth := ((Cells.get {} s.quarters q).choices + 1) % 16 == 0
  match cands.find? fun e => match (s.course e.1).win with | some w => w.split == e.2 | none => false with
  | some e => some e
  | none =>
    cands.foldl (fun best e =>
      match best with
      | none => some e
      | some b => if s.ahead sixteenth e b then some e else some b) none

/-- A quarter whose latch window is open issues nothing else (R122, R125). -/
def State.windowHeld (s : State) (c k : Nat) : Bool :=
  (List.range s.courses.length).any fun d =>
    s.quarterOf d == s.quarterOf c && (s.course d).place == .resident
      && (match (s.course d).win with | some w => !(d == c && w.split == k) | none => false)

/-- Account for an issue: the quarter's last course and its count of choices, the times of issue, and latches that
become invalid when another course issued before (R120, R121, R124). -/
def State.beginIssue (s : State) : State :=
  match s.cur with
  | .course c k =>
    let q := s.quarterOf c
    let same := (Cells.get {} s.quarters q).last == some c
    let s1 := if same then s else s.clearLatches c
    let s2 := { s1 with quarters := Cells.update {} s1.quarters q fun y => { last := some c, choices := y.choices + 1 } }
    (s2.modCourse c fun x => { x with last := s.tick }).modSplit c k fun x => { x with last := s.tick }
  | .lane q => s.modLane q fun x => { x with last := s.tick }
  | .none => s

/-- The POOL_LINK_LOST of stores and `.nr` atomics that were lost: one trap, with the address of the first and the flags of
all (R391, log 18). -/
def lostTrap (ws : List Owed) : Option Exn :=
  match ws.filter (·.lost) with
  | [] => none
  | w :: rest =>
    let flag (p : Owed → Bool) (v : Word) : Word := if (w :: rest).any p then v else 0
    some (trapC tPoolLost w.addr (9 ||| flag (fun e => !e.atomic) 0x100 ||| flag (·.atomic) 0x200))

/-- A trap that the agent's next instruction to issue takes in its place: that of a pool store or atomic that was lost
(R391, R420), or the quota's (R346, R357). -/
def State.dueTrap (s : State) : Option (Exn × State) :=
  match s.cur with
  | .course c _ =>
    let x := s.course c
    match lostTrap x.owed with
    | some e => some (e, s.modCourse c fun y => { y with owed := y.owed.filter fun w => !w.lost })
    | none =>
      if x.quotaDue && x.win.isNone then some (trapC tQuota, s.modCourse c fun y => { y with quotaDue := false })
      else none
  | .lane q =>
    (lostTrap (s.lane q).owed).map fun e => (e, s.modLane q fun y => { y with owed := y.owed.filter fun w => !w.lost })
  | .none => none

end Sys2Proof.Machine
end

