-- ==== Sys2Proof/Machine/Flags.lean ====
section
/-!
DEFINITION. The flag word's bits and the flags of integer saturation (R181, R182, R190).
-/

namespace Sys2Proof.Machine

/-- R181. -/
def fIV : BitVec 6 := 1
def fDZ : BitVec 6 := 2
def fOF : BitVec 6 := 4
def fUF : BitVec 6 := 8
def fNX : BitVec 6 := 16
def fSAT : BitVec 6 := 32

/-- Smallest and largest value of an integer type. -/
def intMin (signed : Bool) (w : Nat) : Int := if signed then -(2 ^ (w - 1) : Nat) else 0
def intMax (signed : Bool) (w : Nat) : Int := if signed then (2 ^ (w - 1) : Nat) - 1 else (2 ^ w : Nat) - 1

/-- The low `w` bits of an integer as a number. -/
def wrapInt (w : Nat) (x : Int) : Nat := (x % ((2 ^ w : Nat) : Int)).toNat

/-- R190: an exact integer result as `w` bits; under SAT a value out of range becomes the nearest bound and
sets SAT and NX, otherwise the result wraps. -/
def satInt (signed : Bool) (w : Nat) (sat : Bool) (x : Int) : Nat × BitVec 6 :=
  if !sat then (wrapInt w x, 0)
  else if x < intMin signed w then (wrapInt w (intMin signed w), fSAT ||| fNX)
  else if intMax signed w < x then (wrapInt w (intMax signed w), fSAT ||| fNX)
  else (wrapInt w x, 0)

/-- The integer that `w` bits stand for. -/
def intOf (signed : Bool) (w v : Nat) : Int :=
  if signed && v.testBit (w - 1) then (v : Int) - (2 ^ w : Nat) else v

end Sys2Proof.Machine
end

