-- ==== Sys2Proof/Machine/Float.lean ====
section
/-!
DEFINITION. Number formats, exact arithmetic and rounding (R167 to R180, R184). A value is exact until one
rounding step; quotients and roots carry a sticky bit below more than enough bits.
-/

namespace Sys2Proof.Machine

/-- The formats that a value is rounded into (R167, R169, R170). -/
inductive FF where
  | f32 | f16 | bf16 | e4m3 | e5m2 | e8m0 | c8 | c6
deriving DecidableEq, Repr, Inhabited

/-- An exact value; `fin` is (−1)^neg × (m + ε) × 2^e with 0 < ε < 1 where `sticky`, else ε = 0. -/
inductive Ext where
  | nan
  | inf (neg : Bool)
  | fin (neg : Bool) (m : Nat) (e : Int) (sticky : Bool)
deriving DecidableEq, Repr, Inhabited

/-- The exact value zero. -/
def Ext.zero (neg : Bool) : Ext := .fin neg 0 0 false
/-- The exact value of an integer. -/
def Ext.ofInt (x : Int) : Ext := .fin (decide (x < 0)) x.natAbs 0 false
def Ext.isNan : Ext → Bool
  | .nan => true
  | _ => false
def Ext.isZero : Ext → Bool
  | .fin _ 0 _ false => true
  | _ => false
def Ext.isInf : Ext → Bool
  | .inf _ => true
  | _ => false

namespace FF

/-- Width, fraction bits, bias, largest finite magnitude code. -/
def width : FF → Nat
  | f32 => 32 | f16 => 16 | bf16 => 16 | c6 => 6 | _ => 8
def frac : FF → Nat
  | f32 => 23 | f16 => 10 | bf16 => 7 | e4m3 => 3 | e5m2 => 2 | _ => 0
def bias : FF → Nat
  | f32 | bf16 | e8m0 => 127 | f16 | e5m2 => 15 | e4m3 => 7 | _ => 0
def maxCode : FF → Nat
  | f32 => 0x7F7FFFFF | f16 => 0x7BFF | bf16 => 0x7F7F | e4m3 => 0x7E | e5m2 => 0x7B | e8m0 => 0xFE
  | c8 => 0x7F | c6 => 0x1F
/-- The code of +∞ (R167). -/
def infCode : FF → Option Nat
  | f32 => some 0x7F800000 | f16 => some 0x7C00 | bf16 => some 0x7F80 | e5m2 => some 0x7C | _ => none
/-- The canonical NaN (R167, R169, R170). -/
def nanCode : FF → Nat
  | f32 => 0x7FC00000 | f16 => 0x7E00 | bf16 => 0x7FC0 | e4m3 => 0x7F | e5m2 => 0x7E | e8m0 => 0xFF
  | c8 => 0x80 | c6 => 0x20
/-- The gap g below the largest finite magnitude (R174): m × 2^e. -/
def gap : FF → Nat × Int
  | f32 => (1, 104) | f16 => (1, 5) | bf16 => (1, 120) | e4m3 => (1, 5) | e5m2 => (1, 13) | c8 => (15, 20)
  | c6 => (3, 6) | e8m0 => (1, 126)
/-- C8 and C6. -/
def coursed : FF → Bool
  | c8 | c6 => true
  | _ => false

end FF

/-- Length of the run of bits equal to `b` from bit `i - 1` downward. -/
def runLen (m : Nat) (b : Bool) : Nat → Nat
  | 0 => 0
  | i + 1 => if m.testBit i == b then runLen m b i + 1 else 0

/-- R169, R170: magnitude of a nonzero magnitude code of `n` bits with up to `eb` exponent bits. -/
def coursedMag (n eb m : Nat) : Nat × Int :=
  let b := m.testBit (n - 1)
  let k := runLen m b n
  let r : Int := if b then (k : Int) - 1 else -(k : Int)
  let rest := n - k - 1
  let el := min eb rest
  let fc := rest - el
  let low := m % 2 ^ rest
  let e := low / 2 ^ fc * 2 ^ (eb - el)
  (2 ^ fc + low % 2 ^ fc, r * (2 ^ eb : Nat) + e - fc)

/-- The magnitude of a finite magnitude code. -/
def FF.mag (f : FF) (c : Nat) : Nat × Int :=
  match f with
  | .c8 => if c = 0 then (0, 0) else coursedMag 7 2 c
  | .c6 => if c = 0 then (0, 0) else coursedMag 5 1 c
  | .e8m0 => (1, (c : Int) - 127)
  | _ =>
    let e := c / 2 ^ f.frac
    let fr := c % 2 ^ f.frac
    if e = 0 then (fr, 1 - (f.bias : Int) - f.frac) else (2 ^ f.frac + fr, (e : Int) - f.bias - f.frac)

/-- The exact value of a code (R167 to R170, R198). -/
def FF.toExt (f : FF) (code : Nat) : Ext :=
  let c := code % 2 ^ f.width
  match f with
  | .e8m0 => if c = 0xFF then .nan else .fin false 1 ((c : Int) - 127) false
  | .c8 | .c6 =>
    let m := c % 2 ^ (f.width - 1)
    let s := c.testBit (f.width - 1)
    if m = 0 then (if s then .nan else Ext.zero false) else .fin s (f.mag m).1 (f.mag m).2 false
  | _ =>
    let m := c % 2 ^ (f.width - 1)
    let s := c.testBit (f.width - 1)
    if m ≤ f.maxCode then .fin s (f.mag m).1 (f.mag m).2 false
    else if f.infCode = some m then .inf s else .nan

/-! ### Exact operations -/

/-- `m × 2^e` in units of `2^u`, for `u ≤ e`. -/
def scaleTo (m : Nat) (e u : Int) : Nat := m * 2 ^ (e - u).toNat

/-- Exact sum; `rd` says the mode is RD, which decides the sign of an exact zero (R168). IV where infinities
of opposite sign meet. Sticky operands do not occur here. -/
def Ext.add (rd : Bool) : Ext → Ext → Ext × BitVec 6
  | .nan, _ | _, .nan => (.nan, 0)
  | .inf a, .inf b => if a = b then (.inf a, 0) else (.nan, fIV)
  | .inf a, _ | _, .inf a => (.inf a, 0)
  | .fin n1 m1 e1 _, .fin n2 m2 e2 _ =>
    if m1 = 0 ∧ m2 = 0 then (Ext.zero (if n1 = n2 then n1 else rd), 0)
    else
      let u := min e1 e2
      let a : Int := scaleTo m1 e1 u
      let b : Int := scaleTo m2 e2 u
      let z := (if n1 then -a else a) + (if n2 then -b else b)
      if z = 0 then (Ext.zero rd, 0) else (.fin (decide (z < 0)) z.natAbs u false, 0)

def Ext.neg : Ext → Ext
  | .nan => .nan
  | .inf a => .inf (!a)
  | .fin n m e s => .fin (!n) m e s

/-- Exact product; IV for 0 × ∞. -/
def Ext.mul : Ext → Ext → Ext × BitVec 6
  | .nan, _ | _, .nan => (.nan, 0)
  | .inf a, .inf b => (.inf (a != b), 0)
  | .inf a, .fin n m _ _ | .fin n m _ _, .inf a => if m = 0 then (.nan, fIV) else (.inf (a != n), 0)
  | .fin n1 m1 e1 _, .fin n2 m2 e2 _ => (.fin (n1 != n2) (m1 * m2) (e1 + e2) false, 0)

/-- Quotient; IV for 0/0 and ∞/∞, DZ for a finite nonzero value ovf zero (R182). -/
def Ext.div : Ext → Ext → Ext × BitVec 6
  | .nan, _ | _, .nan => (.nan, 0)
  | .inf _, .inf _ => (.nan, fIV)
  | .inf a, .fin n _ _ _ => (.inf (a != n), 0)
  | .fin n _ _ _, .inf a => (Ext.zero (n != a), 0)
  | .fin n1 m1 e1 _, .fin n2 m2 e2 _ =>
    if m2 = 0 then (if m1 = 0 then (.nan, fIV) else (.inf (n1 != n2), fDZ))
    else if m1 = 0 then (Ext.zero (n1 != n2), 0)
    else
      let a := m1 * 2 ^ 128
      (.fin (n1 != n2) (a / m2) (e1 - e2 - 128) (decide (a % m2 ≠ 0)), 0)

/-- Integer square root, from bit `i - 1` downward with root `r` so far. -/
def sqrtFrom (n : Nat) : Nat → Nat → Nat
  | 0, r => r
  | i + 1, r => sqrtFrom n i (if (r + 2 ^ i) * (r + 2 ^ i) ≤ n then r + 2 ^ i else r)

/-- Square root; −0 gives −0, IV for a negative value. -/
def Ext.sqrt : Ext → Ext × BitVec 6
  | .nan => (.nan, 0)
  | .inf a => if a then (.nan, fIV) else (.inf false, 0)
  | .fin n m e _ =>
    if m = 0 then (Ext.zero n, 0)
    else if n then (.nan, fIV)
    else
      let odd := e % 2 = 1
      let a := (if odd then 2 * m else m) * 2 ^ 128
      let h := (if odd then e - 1 else e) / 2 - 64
      let r := sqrtFrom a 96 0
      (.fin false r h (decide (r * r ≠ a)), 0)

/-- Multiplication by 2^k. -/
def Ext.scale (k : Int) : Ext → Ext
  | .fin n m e s => .fin n m (e + k) s
  | x => x

/-- `x < y` for values that are no NaN; −0 equals +0. -/
def Ext.lt : Ext → Ext → Bool
  | .nan, _ | _, .nan => false
  | .inf a, .inf b => a && !b
  | .inf a, .fin _ _ _ _ => a
  | .fin _ _ _ _, .inf b => !b
  | .fin n1 m1 e1 _, .fin n2 m2 e2 _ =>
    let u := min e1 e2
    let a : Int := scaleTo m1 e1 u
    let b : Int := scaleTo m2 e2 u
    decide ((if n1 then -a else a) < (if n2 then -b else b))
/-- Equality of values that are no NaN; −0 equals +0. -/
def Ext.eq (x y : Ext) : Bool := !x.isNan && !y.isNan && !x.lt y && !y.lt x

/-! ### Rounding -/

/-- A result before its one rounding step. `flt`: between the magnitude code `code` and the next, at
(num + ε)/den of the gap; `ovf`: beyond the largest finite magnitude; `tiny`: below the smallest normal.
`int`: |x| = q + num/den, for an integer type; `rnd`: the same, for an integral value of a format. -/
inductive Pre where
  | done (bits : Nat) (fl : BitVec 6)
  | flt (f : FF) (neg : Bool) (code num den : Nat) (sticky ovf tiny : Bool) (fl : BitVec 6)
  | infTo (f : FF) (neg : Bool)
  | int (signed : Bool) (w : Nat) (neg : Bool) (q num den : Nat)
  | intBad (signed : Bool) (w : Nat) (kind : Option Bool)
  | rnd (f : FF) (neg : Bool) (q num den : Nat)
deriving DecidableEq, Repr, Inhabited

/-- Bits of a number: floor(log2 n) + 1, or 0. -/
def bitLen (n : Nat) : Nat := if n = 0 then 0 else n.log2 + 1

/-- The largest magnitude code of a coursed format not above `m × 2^e`, from bit `i - 1` downward. -/
def coursedFloor (f : FF) (m : Nat) (e : Int) : Nat → Nat → Nat
  | 0, c => c
  | i + 1, c =>
    let t := c + 2 ^ i
    let g := f.mag t
    let u := min e g.2
    coursedFloor f m e i (if scaleTo g.1 g.2 u ≤ scaleTo m e u then t else c)

/-- Code of a sign and a magnitude code. -/
def FF.sign (f : FF) (neg : Bool) (c : Nat) : Nat :=
  if neg && !(f.coursed && c == 0) && f != .e8m0 then c + 2 ^ (f.width - 1) else c

/-- Where the exact value lies among the magnitudes of the format (R173, R174, R177). `fl` are flags that the
operation has set already. -/
def FF.prep (f : FF) (fl : BitVec 6) : Ext → Pre
  | .nan => .done f.nanCode fl
  | .inf neg =>
    if f == .e8m0 && neg then .done 0xFF (fl ||| fIV ||| fNX)
    else
      match f.infCode with
      | some c => .done (f.sign neg c) fl
      | none => .infTo f neg
  | .fin neg m e st =>
    if f == .e8m0 && m == 0 then .done 0 (fl ||| fNX)
    else if f == .e8m0 && neg then .done 0xFF (fl ||| fIV ||| fNX)
    else if m = 0 then .done (f.sign neg 0) fl
    else
      let top : Int := e + bitLen m - 1
      let mx := f.mag f.maxCode
      let u := min e mx.2
      if scaleTo mx.1 mx.2 u < scaleTo m e u || (scaleTo mx.1 mx.2 u == scaleTo m e u && st) then
        let g := f.gap
        let v := min u g.2
        .flt f neg f.maxCode (scaleTo m e v - scaleTo mx.1 mx.2 v) (scaleTo g.1 g.2 v) st true false fl
      else if f == .e8m0 && top < -127 then .done 0 (fl ||| fUF ||| fNX)
      else if f.coursed || f == .e8m0 then
        let c := if f == .e8m0 then (top + 127).toNat else coursedFloor f m e (f.width - 1) 0
        let a := f.mag c
        let b := f.mag (c + 1)
        let v := min e (min a.2 b.2)
        let num := scaleTo m e v - scaleTo a.1 a.2 v
        if c = f.maxCode then .flt f neg c 0 1 false false false fl
        else .flt f neg c num (scaleTo b.1 b.2 v - scaleTo a.1 a.2 v) st false (decide (c = 0) && f.coursed) fl
      else
        let emin : Int := 1 - f.bias
        let ulp := max top emin - f.frac
        let base := (max top emin - emin).toNat * 2 ^ f.frac
        let tiny := decide (top < emin)
        if ulp ≤ e then .flt f neg (base + scaleTo m e ulp) 0 1 st false tiny fl
        else
          let k := (ulp - e).toNat
          .flt f neg (base + m / 2 ^ k) (m % 2 ^ k) (2 ^ k) st false tiny fl

/-- Rounding into an integer type (R175). -/
def prepInt (signed : Bool) (w : Nat) : Ext → Pre
  | .nan => .intBad signed w none
  | .inf neg => .intBad signed w (some neg)
  | .fin neg m e _ =>
    if 0 ≤ e then .int signed w neg (scaleTo m e 0) 0 1
    else
      let k := (-e).toNat
      .int signed w neg (m / 2 ^ k) (m % 2 ^ k) (2 ^ k)

/-- Rounding to an integral value of the format (R196, VFRND). -/
def prepRnd (f : FF) : Ext → Pre
  | .nan => .done f.nanCode 0
  | .inf neg => .done (f.sign neg (f.infCode.getD f.maxCode)) 0
  | .fin neg m e _ =>
    if 0 ≤ e then .rnd f neg (scaleTo m e 0) 0 1
    else
      let k := (-e).toNat
      .rnd f neg (m / 2 ^ k) (m % 2 ^ k) (2 ^ k)

/-- The discarded bits d of R173, which R178 hashes; a value a whole gap beyond the largest magnitude has none
that a rule states (log 2). -/
def Pre.d : Pre → Nat
  | .flt _ _ _ num den _ _ _ _ =>
    if den ≤ num then (Config.freeValue num).toNat % 65536 else num * 65536 / den
  | .int _ _ _ _ num den | .rnd _ _ _ num den => num * 65536 / den
  | _ => 0

/-- Away from zero or not (R173): RND, sign, parity of the upper code, position in the gap, d + h. -/
def roundAway (mode : Nat) (neg upperEven : Bool) (num den : Nat) (sticky : Bool) (d h : Nat) : Bool :=
  if num = 0 ∧ !sticky then false
  else if mode = 0 then
    decide (den < 2 * num) || (2 * num == den && (sticky || upperEven))
  else if mode = 1 then false
  else if mode = 2 then neg
  else if mode = 3 then !neg
  else decide (65536 ≤ d + h)

/-- R174: beyond the largest finite magnitude, the value overflows. -/
def overflows (mode : Nat) (neg : Bool) (num den d h : Nat) : Bool :=
  if mode = 0 then decide (den ≤ 2 * num)
  else if mode = 1 then false
  else if mode = 2 then neg
  else if mode = 3 then !neg
  else decide (den ≤ num) || decide (65536 ≤ d + h)

/-- The written bits and the flags (R173 to R177, R182). -/
def Pre.finish (mode : Nat) (sat : Bool) (h : Nat) : Pre → Nat × BitVec 6
  | .done bits fl => (bits, fl)
  | .infTo f neg =>
    if sat then (f.sign neg f.maxCode, fSAT ||| fNX) else (f.nanCode, fIV ||| fNX)
  | .intBad signed w kind =>
    if sat then
      match kind with
      | none => (0, fIV ||| fSAT ||| fNX)
      | some neg => (wrapInt w (if neg then intMin signed w else intMax signed w), fSAT ||| fNX)
    else (wrapInt w (if signed then intMin signed w else intMax signed w), fIV ||| fNX)
  | p@(.flt f neg code num den sticky ovf tiny fl) =>
    if ovf then
      if overflows mode neg num den p.d h then
        if sat then (f.sign neg f.maxCode, fl ||| fOF ||| fNX ||| fSAT)
        else
          (match f.infCode with
           | some c => f.sign neg c
           | none => f.nanCode, fl ||| fOF ||| fNX)
      else (f.sign neg f.maxCode, fl ||| fNX)
    else
      let inexact : Bool := num != 0 || sticky
      let up := roundAway mode neg ((code + 1) % 2 == 0) num den sticky p.d h
      (f.sign neg (if up then code + 1 else code),
        fl ||| (if inexact then fNX else 0) ||| (if inexact && tiny then fUF else 0))
  | p@(.int signed w neg q num den) =>
    let up := roundAway mode neg ((q + 1) % 2 == 0) num den false p.d h
    let m : Int := if up then q + 1 else q
    let x := if neg then -m else m
    if x < intMin signed w then
      if sat then (wrapInt w (intMin signed w), fSAT ||| fNX)
      else (wrapInt w (if signed then intMin signed w else intMax signed w), fIV ||| fNX)
    else if intMax signed w < x then
      if sat then (wrapInt w (intMax signed w), fSAT ||| fNX)
      else (wrapInt w (if signed then intMin signed w else intMax signed w), fIV ||| fNX)
    else (wrapInt w x, if num = 0 then 0 else fNX)
  | p@(.rnd f neg q num den) =>
    let up := roundAway mode neg ((q + 1) % 2 == 0) num den false p.d h
    let m := if up then q + 1 else q
    let bits :=
      match f.prep 0 (.fin neg m 0 false) with
      | .flt _ _ code _ _ _ _ _ _ => f.sign neg code
      | .done b _ => b
      | _ => 0
    (bits, if num = 0 then 0 else fNX)

/-- One rounding under a mode that is not stochastic. -/
def FF.round (f : FF) (mode : Nat) (sat : Bool) (fl : BitVec 6) (x : Ext) : Nat × BitVec 6 :=
  (f.prep fl x).finish mode sat 0

/-! ### Stochastic rounding (R178, R179) -/

/-- 16-bit rotate left. -/
def rotl16 (x n : Nat) : Nat := x * 2 ^ n % 65536 + x / 2 ^ (16 - n)

/-- The hash of result `i` of a group whose discarded bits are `d` (R178). -/
def srHash (d : Nat → Nat) (i seed : Nat) : Nat :=
  let h := Nat.xor (Nat.xor (Nat.xor (d ((i + 31) % 32)) (rotl16 (d ((i + 1) % 32)) 5)) (0x9E37 * (i + 1) % 65536)) seed
  let h := h * 0xA3B1 % 65536
  Nat.xor h (h / 128)

/-- Finish the numbered results of an instruction (R178): SR hashes each result with its group. -/
def finishAll (mode : Nat) (sat : Bool) (seed : Nat) (l : List (Nat × Pre)) : List (Nat × Nat × BitVec 6) :=
  let ds := l.filterMap fun e => if e.2.d = 0 then none else some (e.1, e.2.d)
  let d (n : Nat) : Nat := ((ds.find? fun e => e.1 == n).map (·.2)).getD 0
  l.map fun e =>
    let h := if mode = 4 then srHash (fun i => d (e.1 / 32 * 32 + i)) (e.1 % 32) seed else 0
    (e.1, e.2.finish mode sat h)

end Sys2Proof.Machine
end

