-- ==== Sys2Proof/Machine/Operands.lean ====
section
/-!
DEFINITION. Every operand form of the scalar and vector instructions (R72, R123 to R125, R144, R145, R165,
R166, R188): reading sources, element packing, writing results into registers and latches.
-/

namespace Sys2Proof.Machine

open ElemTy

/-! ### Scalars (R144, R145) -/

/-- Width of a scalar operation. -/
def scalarWidth (t : ElemTy) : Nat := if is64 t then 64 else 32
def signedTy (t : ElemTy) : Bool := t == i32 || t == i64 || t == i16x2 || t == i8x4

/-- The second source as 64 bits: a register, or IMM32 widened by its type (R145). -/
def State.ssrc (s : State) (t : ElemTy) (b : SSrc) : Word :=
  match b with
  | .reg n | .regWide n => s.sreg n.toNat
  | .imm v => if t == n64 then v.zeroExtend 64 else v.signExtend 64

/-- Bits w−1:0 of a scalar as a number. -/
def lowBitsOf (t : ElemTy) (v : Word) : Nat := v.toNat % 2 ^ scalarWidth t
/-- The result of a scalar operation, widened into its register (R145). -/
def widen (t : ElemTy) (v : Nat) : Word :=
  match t with
  | .i32 => (BitVec.ofNat 32 v).signExtend 64
  | .n32 => (BitVec.ofNat 32 v).zeroExtend 64
  | _ => BitVec.ofNat 64 v

/-! ### Elements (R165, R166) -/

/-- Bits of one element's place in a lane value. -/
def elemBits (t : ElemTy) : Nat :=
  match t with
  | .i64 | .n64 => 64
  | .bf16x2 | .f16x2 | .i16x2 => 16
  | .e4m3 | .e5m2 | .c8 | .c6 | .e8m0 | .i8x4 => 8
  | _ => 32
/-- Element `j` of a lane value. -/
def elem (t : ElemTy) (v j : Nat) : Nat := v / 2 ^ (elemBits t * j) % 2 ^ elemBits t
/-- A lane value from its elements, element 0 first. -/
def packElems (w : Nat) : List Nat → Nat
  | [] => 0
  | x :: xs => x % 2 ^ w + 2 ^ w * packElems w xs
/-- A lane value with element `j` replaced. -/
def setElem (w v j x : Nat) : Nat := v - v / 2 ^ (w * j) % 2 ^ w * 2 ^ (w * j) + x % 2 ^ w * 2 ^ (w * j)

/-- The floating or coursed format of a type. -/
def formatOfTy : ElemTy → Option FF
  | .f32 => some .f32 | .bf16x2 => some .bf16 | .f16x2 => some .f16 | .e4m3 => some .e4m3
  | .e5m2 => some .e5m2 | .c8 => some .c8 | .c6 => some .c6 | .e8m0 => some .e8m0
  | _ => none

/-- The exact value of an element of a type. -/
def elemExt (t : ElemTy) (v : Nat) : Ext :=
  match formatOfTy t with
  | some f => f.toExt v
  | none => Ext.ofInt (intOf (signedTy t) (elemBits t) v)

/-! ### Vector sources (R72, R124) -/

/-- The value of source field `f` of type `t` in lane `l`. -/
def State.vsrc (s : State) (t : ElemTy) (f : BitVec 12) (l : Nat) : Nat :=
  if f.getLsbD 11 then (Cells.get 0 (s.latch (f.toNat % 4)).val l).toNat
  else if is64 t then (s.vpair f.toNat l).toNat
  else (s.vreg f.toNat l).toNat

/-- Latches that source fields name. -/
def latchReads (fs : List (BitVec 12)) : List Nat :=
  fs.filterMap fun f => if f.getLsbD 11 then some (f.toNat % 4) else none

/-- R124: LATCH_EMPTY when an acted lane reads an invalid entry. -/
def State.latchCheck (s : State) (m : Mask) (fs : List (BitVec 12)) : Except Exn Unit :=
  let bad := (latchReads fs).foldl (fun b i => b ||| (m &&& ~~~(s.latch i).valid)) 0
  match Mask.list bad with
  | [] => .ok ()
  | l :: _ => .error (.trap tLatchEmpty l 0 0)

/-! ### Vector results (R123, R125) -/

/-- Where a vector result goes. -/
inductive VDst where
  | reg (d : Nat)
  | pair (d : Nat)
  | two (d : Nat)
  | pred (n : Nat)
deriving DecidableEq, Repr, Inhabited

/-- A result before it is written: the lanes acted on, write-back suppression, the values of the acted lanes (a
predicate's bit, a pair's 64 bits), flags, latches read, and a carry-out predicate (R191). -/
structure VRes where
  m : Mask
  ws : Bool := false
  dst : VDst
  vals : List (Nat × Nat)
  fl : BitVec 6 := 0
  reads : List Nat := []
  carry : Option (Nat × Mask) := none
deriving DecidableEq, Repr, Inhabited

/-- The lanes whose value is not zero. -/
def predMask (vals : List (Nat × Nat)) : Mask :=
  vals.foldl (fun m e => if e.2 = 0 then m else m ||| Mask.one e.1) 0

/-- Write a result: registers unless suppressed, then the latches (R123). -/
def State.commit (s : State) (r : VRes) : State :=
  let s0 := match r.carry with | some (n, v) => s.setP n r.m v | none => s
  let v32 : List (Nat × Lane32) := r.vals.map fun e => (e.1, BitVec.ofNat 32 e.2)
  let v64 : List (Nat × Word) := r.vals.map fun e => (e.1, BitVec.ofNat 64 e.2)
  let s1 :=
    match r.dst with
    | .reg d => ((if r.ws then s0 else s0.setV d v32)).pushLatch v32
    | .pair d => (s0.setV64 d v64).pushLatch []
    | .two d => (s0.setV64 d v64).pushLatch []
    | .pred n =>
      (s0.setP n r.m (predMask r.vals)).pushLatch []
  s1.orFlags r.fl

/-- R125: a latch window after an instruction of `n` places that stood at `pc`, read latches `reads` and wrote its
results with the suppressions `wss`, in the order in which they entered BL0. -/
def Window.after (w : Option Window) (pc : Word) (k n : Nat) (reads : List Nat) (wss : List Bool) : Option Window :=
  match w, wss.any id with
  | none, false => none
  | _, _ =>
    let w0 := w.getD { pc := pc, split := k, count := 0, pend := 0 }
    let left := reads.foldl (fun p i => p &&& ~~~(1 <<< i : BitVec 4)) w0.pend
    let pend := wss.foldl (fun (p : BitVec 4) b => (p <<< 1) ||| (if b then 1 else 0)) left
    if pend = 0 ∨ 8 ≤ w0.count + n then none
    else some { w0 with count := w0.count + n, pend := pend }

def State.windowStep (s : State) (pc : Word) (reads : List Nat) (wss : List Bool) : State :=
  match s.cur with
  | .course c k => s.modCourse c fun x => { x with win := Window.after x.win pc k wss.length reads wss }
  | _ => s

/-- A vector instruction: its effect on the state before it, then one write of its result. -/
def vecInstr (i : Instr) (eff : State → Except Exn VRes) (s : State) : Host.Outcome State Fault Refusal :=
  seqInstr i (fun t => (eff t).map fun r => (t.commit r).windowStep s.pc r.reads [r.ws]) s

/-- The destination of an element-wise instruction of a type. -/
def vdst (t : ElemTy) (d : BitVec 11) : VDst := if is64 t then .pair d.toNat else .reg d.toNat

/-- D as an instruction sees it that reads D and writes it: `d`, or, with write-back suppressed, where it has no D, a value
that nothing fixes but the instruction and its other operands, the key (R123, R187, log 16). -/
def oldD (ws : Bool) (key : List Nat) (d : Nat) : Nat := if ws then (Config.suppressed key).toNat else d
/-- An element-wise V3 effect from a function of lane values: lane, A, B, old D. -/
def v3Effect (o : V3) (ta tb : ElemTy) (unary : Bool) (f : Nat → Nat → Nat → Nat → Nat × BitVec 6) (s : State) :
    Except Exn VRes := do
  let m := s.acted o.g
  let fs := if unary then [o.a] else [o.a, o.b]
  s.latchCheck m fs
  let rs := (Mask.list m).map fun l =>
    let a := s.vsrc ta o.a l
    let b := if unary then 0 else s.vsrc tb o.b l
    (l, f l a b (s.vreg o.d.toNat l).toNat)
  .ok { m := m, ws := o.ws, dst := vdst o.ty o.d, vals := rs.map fun e => (e.1, e.2.1)
        fl := rs.foldl (fun a e => a ||| e.2.2) 0, reads := latchReads fs }

/-- An element-wise V4 effect: lane, A, B, C, old D. `fs` are the fields that are vector sources. -/
def v4Effect (o : V4) (td : ElemTy) (fs : List (BitVec 12)) (f : Nat → Nat × BitVec 6) (s : State) : Except Exn VRes := do
  let m := s.acted o.g
  s.latchCheck m fs
  let rs := (Mask.list m).map fun l => (l, f l)
  .ok { m := m, ws := o.ws, dst := vdst td o.d, vals := rs.map fun e => (e.1, e.2.1)
        fl := rs.foldl (fun a e => a ||| e.2.2) 0, reads := latchReads fs }

/-- Round numbered results (R178): `pre` gives the elements of an acted lane's result, `q` of `w` bits each. -/
def roundLanes (s : State) (m : Mask) (mod : BitVec 4) (seed : BitVec 16) (q w : Nat) (pre : Nat → List Pre) :
    List (Nat × Nat × BitVec 6) :=
  let all := (Mask.list m).flatMap fun l => (pre l).zipIdx.map fun e => (q * l + e.2, e.1)
  let done := finishAll (mod.toNat % 8) (mod.getLsbD 3) (s.regs.srseed ^^^ seed).toNat all
  (Mask.list m).map fun l =>
    let mine := done.filter fun e => e.1 / q == l
    (l, packElems w (mine.map fun e => e.2.1), mine.foldl (fun a e => a ||| e.2.2) 0)

/-- An effect whose results are rounded. -/
def roundEffect (g : Guard) (ws : Bool) (td : ElemTy) (d : BitVec 11) (mod : BitVec 4) (seed : BitVec 16)
    (fs : List (BitVec 12)) (pre : Nat → List Pre) (s : State) : Except Exn VRes := do
  let m := s.acted g
  s.latchCheck m fs
  let rs := roundLanes s m mod seed (tyElems td) (elemBits td) pre
  .ok { m := m, ws := ws, dst := vdst td d, vals := rs.map fun e => (e.1, e.2.1)
        fl := rs.foldl (fun a e => a ||| e.2.2) 0, reads := latchReads fs }

end Sys2Proof.Machine
end

