-- ==== Sys2Proof/Machine/Format.lean ====
section
/-!
DEFINITION. Formatted pages: the scale byte of an element, decoding and encoding (R180, R224, R225, R238).
-/

namespace Sys2Proof.Machine

/-- The element type of an FMT code (R217). -/
def fmtTy (fmt : Nat) : ElemTy := (tyOf fmt).getD .b32
/-- The format of an FMT code. -/
def fmtFF (fmt : Nat) : FF := (formatOfTy (fmtTy fmt)).getD .bf16

/-- A fault met while the scale byte at `sa` of the element at `va` is read, as the access reports it (R219, R221 orders 6
and 7, R387). -/
def scaleExn (lane : Nat) (va : Word) : Exn → Exn
  | .page sa kind _ _ _ _ => .page sa kind false false lane (some va)
  | .trap code _ _ _ => if code = tPoison then .trap tPoison lane va 7 else .trap tFormat lane va 6
  | e => e

/-- R225: where the scale byte of the element at `va` on the page of `leaf` lies, for launch `l` in context place `x`; nowhere
where the page is unscaled. -/
def State.scaleLoc (s : State) (x l : Nat) (va : Word) (leaf : Leaf) (lane : Nat) : Except Exn (Option Leaf) :=
  if leaf.geom = 0 then .ok none
  else
    let (origin, base) := (s.ctx x).scb.getD leaf.scsel (0, 0)
    if va.toNat < origin.toNat then .error (.trap tFormat lane va 6)
    else
      let u := (va - origin).toNat / 65536
      let g := if leaf.geom = 1 then 32 else 16
      let a := base + BitVec.ofNat 64 (u * 2048 + va.toNat % 65536 / (g * fmtBytes leaf.fmt))
      match s.walkChecked x l a { n := 1 } with
      | .error e => .error (scaleExn lane va e)
      | .ok f =>
        if f.fmt != 0 || f.pol == 3 then .error (.trap tFormat lane va 6)
        else if isPool f.pa && !s.poolUp then .error (.trap tPoolLost lane va 9)
        else .ok (some f)

/-- Poison that the scale byte meets stands last in R235: a pool link that is down under the data's own page comes before it. -/
def State.linkFirst (s : State) (va : Word) (leaf : Leaf) (lane : Nat) : Exn → Exn
  | .trap code l a i => if code = tPoison ∧ isPool leaf.pa ∧ !s.poolUp then .trap tPoolLost lane va 9 else .trap code l a i
  | e => e

/-- Where a fault stands among those that follow the checks of a page: a pool link that is down comes after them, poison last
(R235). -/
def Exn.rank : Exn → Nat
  | .trap code _ _ _ => if code = tPoison then 2 else if code = tPoolLost then 1 else 0
  | _ => 0
/-- Reads that are one access together: of their faults, the first one of the lowest order of R235 is reported. -/
def collect (l : List (Except Exn α)) : Except Exn (List α) :=
  let errs := l.filterMap fun
    | .error e => some e
    | .ok _ => none
  match [0, 1, 2].findSome? fun k => errs.find? fun e => e.rank == k with
  | some e => .error e
  | none => .ok (l.filterMap Except.toOption)

/-- The scale byte as the engines of course `c` read it, and the line of a WB or STREAM page that it lies in. -/
def State.scaleByte (s : State) (c : Nat) (far : Bool) (va : Word) (leaf : Leaf) (lane : Nat) : Except Exn (Nat × Option Nat) :=
  (s.scaleLoc (s.ctxOf c) (s.launchIx c) va leaf lane).bind fun
    | none => .ok (127, none)
    | some f =>
      if s.enginePoison c far (.phys f) then .error (.trap tPoison lane va 7)
      else .ok ((s.engineByte c far (.phys f)).toNat, if f.pol < 2 then some (f.pa / 128) else none)

/-- The scale bytes of `k` elements that are read as `n` bytes at `va`, once nothing stands against reading these. -/
def State.elemScales (s : State) (c : Nat) (far : Bool) (va : Word) (n : Nat) (leaf : Leaf) (k : Nat) :
    Except Exn (List (Nat × Option Nat)) :=
  let data := (s.reach c far va { n := n, raw := true } (.phys leaf)).map fun _ => ((127, none) : Nat × Option Nat)
  let scales := (List.range k).map fun j =>
    if leaf.fmt = 0 then .ok (127, none) else s.scaleByte c far (va + BitVec.ofNat 64 (j * fmtBytes leaf.fmt)) leaf 127
  (collect (data :: scales)).map List.tail

/-- The scale byte as the executing agent reads it: a load in the sequential order (R225, R285, R298). -/
def State.scaleLoad (s : State) (va : Word) (leaf : Leaf) (lane : Nat) : Except Exn (Nat × State) :=
  ((s.scaleLoc (s.ctxOf s.curCourse) (s.launchIx s.curCourse) va leaf lane).bind fun
    | none => .ok (127, s)
    | some f =>
      if s.loadPoison f.pol f.pa 1 then .error (.trap tPoison lane va 7)
      else
        let r := s.loadPhys 0 f.pol f.pa 1
        .ok ((r.1.headD 0).toNat, r.2)).mapError (s.linkFirst va leaf lane)

/-- R180: the exact value of code `c` of a format under scale byte `k`. -/
def scaledExt (f : FF) (c k : Nat) : Ext := if k = 255 then .nan else (f.toExt c).scale ((k : Int) - 127)

/-- R180: one element decoded into a format under RNE, with flags. -/
def decodeElem (fmt : Nat) (dst : FF) (c k : Nat) : Nat × BitVec 6 := dst.round 0 false 0 (scaledExt (fmtFF fmt) c k)

/-- R180: an element value of a type before it is rounded into a page's format; under scale 0xFF the canonical NaN. -/
def encodePre (fmt : Nat) (t : ElemTy) (v k : Nat) : Pre :=
  if k = 255 then .done (fmtFF fmt).nanCode 0 else (fmtFF fmt).prep 0 ((elemExt t v).scale (127 - (k : Int)))

/-- The codes in bytes of a formatted access of `q` elements (R224). -/
def codesOf (fmt : Nat) (bs : List Byte) : List Nat :=
  if fmtBytes fmt = 2 then (List.range (bs.length / 2)).map fun j => leNat ((bs.drop (2 * j)).take 2)
  else bs.map fun b => if fmt = 10 then b.toNat % 64 else b.toNat

/-- A numbered result with the rounding of its own page (R178, R238): number, value, RND, SAT. -/
abbrev PageResult := Nat × Pre × Nat × Bool

/-- Finish numbered results that lie on pages of their own; the SR seed immediate is 0 (R179, R238). -/
def finishPages (seed : Nat) (l : List PageResult) : List (Nat × Nat × BitVec 6) :=
  let ds := l.filterMap fun e => if e.2.1.d = 0 then none else some (e.1, e.2.1.d)
  let d (n : Nat) : Nat := ((ds.find? fun e => e.1 == n).map (·.2)).getD 0
  l.map fun e =>
    let h := if e.2.2.1 = 4 then srHash (fun i => d (e.1 / 32 * 32 + i)) (e.1 % 32) seed else 0
    (e.1, e.2.1.finish e.2.2.1 e.2.2.2 h)

end Sys2Proof.Machine
end

