-- ==== Sys2Proof/Machine/Rendezvous.lean ====
section
/-!
DEFINITION. The rendezvous of the splits of a course at a collective, BAR, BARA or BARW (R135, R162, R202, R312), and
the state registers that SRD reads (R343).
-/

namespace Sys2Proof.Machine

/-! ### Lanes that cannot take part -/

/-- Lanes that are ejected and out (R137). One that has rejoined or was stopped while its token is open is not counted; it is in
no split and contributes as inactive (log 53, DEDUCED). -/
def State.ejectedLanes (s : State) (c : Nat) : Mask :=
  s.lanes.foldl (fun m q => if q.course == c && q.st.live then m ||| Mask.one q.lane else m) 0

/-- Lanes of the splits that wait at a REGANG (R132). -/
def Course.atRegang (x : Course) : Mask :=
  x.splits.foldl (fun m y => match y.wait with | .regang _ => m ||| y.m | _ => m) 0
/-- Lanes that have arrived at a REGANG and whose split went on with a deferred set (R131): they count as waiting there for
step 1 of R135 (log 53, DEDUCED). -/
def Course.arrivedLanes (x : Course) : Mask := x.tokens.foldl (fun m k => if k.isOpen then m ||| k.arrived else m) 0

/-- Lanes on the re-entry stacks: no rendezvous can reach them until a REGANG pops them (R132), and a collective over one raises
COLLECTIVE_SPLIT, as the worked example of 07 says. -/
def Course.stackedLanes (x : Course) : Mask := x.reentry.foldl (fun m r => m ||| r.lanes) 0

/-! ### What is waited for -/

/-- A collective's opcode and fields. -/
def collOf (i : Instr) : Option (BitVec 8 × V4) :=
  match toRaw i with
  | some (.v4 opc o) => if 0x80 ≤ opc.toNat ∧ opc.toNat ≤ 0x87 then some (opc, o) else none
  | _ => none

/-- What must match while the splits gather: opcode and group of a collective (R135); opcode, destination, barrier and
register value of a barrier instruction (R312). -/
def meetKey (i : Instr) (ops : List (Nat × Word × Word × Word)) : Nat × Nat × Nat × Word :=
  match collOf i, toRaw i with
  | some (opc, o), _ => (opc.toNat, o.imm.toNat % 8, 0, 0)
  | none, some (.sys opc o) => (opc.toNat, o.x.toNat % 16, o.d.toNat, (ops.headD (0, 0, 0, 0)).2.1)
  | none, _ => (0, 0, 0, 0)

/-- What must match when the last split issues (R202). -/
def meetFine (i : Instr) : Option (BitVec 8 × ElemTy × BitVec 5 × BitVec 4 × BitVec 20) :=
  (collOf i).map fun e => (e.1, e.2.ty, e.2.sub, e.2.mod, e.2.imm)

/-- A split that stalls at a rendezvous: its place, itself, its instruction and operands. -/
structure Joiner where
  k : Nat
  sp : Split
  i : Instr
  ops : List (Nat × Word × Word × Word)
deriving DecidableEq, Repr, Inhabited

/-- Splits other than `k` that stall until split `k` issues: at any barrier instruction, or at a collective over a
group that holds lanes of `k`. -/
def Course.joiners (x : Course) (k : Nat) : List Joiner :=
  x.splits.zipIdx.filterMap fun e =>
    if e.2 == k || e.1.m == 0 then none
    else
      match e.1.wait with
      | .join i ops =>
        match collOf i with
        | none => some ⟨e.2, e.1, i, ops⟩
        | some (_, o) =>
          let n := o.imm.toNat % 8
          let g := if n = 0 then Mask.all else (Cells.get Group.empty x.regs.g n).mem
          if g &&& (x.splits.getD k default).m = 0 then none else some ⟨e.2, e.1, i, ops⟩
      | _ => none

/-- R135 step 3, R312: the rendezvous fails; the splits stand at their instructions, and the one that issued first takes
the trap. `pc` is that of the instruction whose issue made it fail. -/
def State.failMeet (s : State) (c : Nat) (js : List Joiner) (pc : Word) : State :=
  match firstWaiting (js.map fun j => (j.k, j.sp)) with
  | none => s
  | some (k, sp) =>
    let coll := js.any fun j => j.k == k && (collOf j.i).isSome
    let s1 := js.foldl (fun s j => s.modSplit c j.k fun x => { x with wait := .ready }) s
    s1.raise c
      { code := if coll then tCollective else tBarrier, pc := sp.pc, addr := if coll then pc else 0, split := k }

/-- How a split's issue of a collective or barrier instruction ends. -/
inductive Meet where
  | fault
  | failed (s : State)
  | wait
  | go (parts : List Joiner)
deriving DecidableEq, Repr, Inhabited

/-- Issue instruction `i` of split `k` whose operands are `ops`; `lanes` are the members of a collective's group. -/
def State.meet (s : State) (c k : Nat) (i : Instr) (lanes : Mask) (ops : List (Nat × Word × Word × Word)) : Meet :=
  let x := s.course c
  let sp := x.splits.getD k default
  let coll := (collOf i).isSome
  let bad := x.atRegang ||| s.ejectedLanes c
  let bad := if coll then lanes &&& (bad ||| x.arrivedLanes ||| x.stackedLanes ||| x.exited) else bad
  let js := x.joiners k
  let bars := js.filter fun j => (collOf j.i).isNone
  if bad != 0 then (if !coll && !bars.isEmpty then .failed (s.failMeet c bars sp.pc) else .fault)
  else
    let key := meetKey i ops
    let other := js.filter fun j => meetKey j.i j.ops != key
    let same := js.filter fun j => meetKey j.i j.ops == key
    if !other.isEmpty then .failed (s.failMeet c other sp.pc)
    else
      let needed := x.splits.zipIdx.filter fun e => e.2 != k && e.1.m != 0 && (!coll || e.1.m &&& lanes != 0)
      if needed.all fun e => same.any fun j => j.k == e.2 then
        let parts := same ++ [⟨k, { sp with since := s.clock }, i, ops⟩]
        if parts.all fun j => meetFine j.i == meetFine i then .go parts else .failed (s.failMeet c same sp.pc)
      else .wait

/-- A split that executes LEXIT or reaches REGANG while others stall for it: a collective fails at either (R135 step 3,
R162), a barrier instruction where a split waits at a REGANG (R312). -/
def State.spoilMeet (s : State) (c k : Nat) (bars : Bool) : Option State :=
  let js := ((s.course c).joiners k).filter fun j => bars || (collOf j.i).isSome
  if js.isEmpty then none else some (s.failMeet c js ((s.course c).splits.getD k default).pc)

/-! ### State registers (R343) -/

/-- State register `n` of course `c`, the trap registers apart. -/
def State.stateReg (s : State) (c n : Nat) : Word :=
  let x := s.course c
  let b := s.block x.block
  let l := s.launch b.launch
  match n with
  | 0x008 => x.regs.tscr0
  | 0x009 => x.regs.tscr1
  | 0x010 => x.regs.srseed.zeroExtend 64
  | 0x011 => BitVec.ofNat 64 x.ejthr
  | 0x012 => BitVec.ofNat 64 (l.cls + 4 * l.admitted)
  | 0x020 => BitVec.ofNat 64 l.id
  | 0x021 => BitVec.ofNat 64 b.index
  | 0x022 => BitVec.ofNat 64 x.index
  | 0x030 => BitVec.ofNat 64 (s.run c)
  | 0x031 => BitVec.ofNat 64 (s.cluster (b.core / 96)).passn
  | _ => 0

/-- Indices of the state registers that a hand-over copies whole (R370). -/
def copiedRegs : List Nat := [0x011, 0x012, 0x020, 0x021, 0x022, 0x030, 0x031]

end Sys2Proof.Machine
end

