-- ==== Sys2Proof/Machine/Scalar.lean ====
section
/-!
DEFINITION. The scalar instructions 0x01 to 0x17 (R144 to R149), and FFRD, FFCLR and EJCTL of the same format
(R163, R200).
-/

namespace Sys2Proof.Machine

open ElemTy

/-! ### Shared shapes -/

/-- A scalar arithmetic instruction (R148): `f` from the width, the signedness and the two sources as w-bit
numbers; its result is taken mod 2^w and widened. -/
def scalarOp (i : Instr) (o : S3) (f : Nat → Bool → Nat → Nat → Nat) (s : State) : Host.Outcome State Fault Refusal :=
  seqInstr i (fun t =>
    .ok (t.setS o.d.toNat
      (widen o.ty (f (scalarWidth o.ty) (signedTy o.ty) (lowBitsOf o.ty (t.sreg o.a.toNat))
        (lowBitsOf o.ty (t.ssrc o.ty o.b)))))) s

/-- A scalar instruction on whole registers (R149): `f` from sA, the second source and old sD. -/
def scalarMove (i : Instr) (o : S3) (f : Word → Word → Word → Word) (s : State) : Host.Outcome State Fault Refusal :=
  seqInstr i (fun t =>
    .ok (t.setS o.d.toNat (f (t.sreg o.a.toNat) (t.ssrc o.ty o.b) (t.sreg o.d.toNat)))) s

/-- A number of `w` bits from an integer operation on the values that the sources stand for. -/
def onInts (f : Int → Int → Int) (w : Nat) (sgn : Bool) (a b : Nat) : Nat := wrapInt w (f (intOf sgn w a) (intOf sgn w b))

/-! ### Operations on w-bit numbers, shared with the vector set (R148, R189) -/

/-- High half of the product. -/
def mulHigh (w : Nat) (sgn : Bool) (a b : Nat) : Nat := wrapInt w ((intOf sgn w a * intOf sgn w b) / (2 ^ w : Nat))
/-- Quotient: all ones by zero, the dividend for −2^(w−1) by −1, else truncated. -/
def divInt (w : Nat) (sgn : Bool) (a b : Nat) : Nat :=
  if b = 0 then 2 ^ w - 1 else wrapInt w (Int.tdiv (intOf sgn w a) (intOf sgn w b))
/-- Remainder with the dividend's sign: the dividend by zero, 0 for −2^(w−1) by −1. -/
def remInt (w : Nat) (sgn : Bool) (a b : Nat) : Nat :=
  if b = 0 then a else wrapInt w (Int.tmod (intOf sgn w a) (intOf sgn w b))
def shlNat (w : Nat) (_sgn : Bool) (a n : Nat) : Nat := if w ≤ n then 0 else a * 2 ^ n % 2 ^ w
def shrNat (w : Nat) (sgn : Bool) (a n : Nat) : Nat :=
  if sgn then wrapInt w (intOf sgn w a / (2 ^ (min n w) : Nat)) else if w ≤ n then 0 else a / 2 ^ n
def rotNat (w : Nat) (_sgn : Bool) (a n : Nat) : Nat :=
  let k := n % w
  a * 2 ^ k % 2 ^ w + a / 2 ^ (w - k) % 2 ^ k
def minNat (w : Nat) (sgn : Bool) (a b : Nat) : Nat := if intOf sgn w b < intOf sgn w a then b else a
def maxNat (w : Nat) (sgn : Bool) (a b : Nat) : Nat := if intOf sgn w a < intOf sgn w b then b else a
/-- One bits, leading zeros, trailing zeros, and bits in reverse order (R148, R191). -/
def popNat (w b : Nat) : Nat := ((List.range w).filter fun i => b.testBit i).length
def clzNat (w b : Nat) : Nat := if b = 0 then w else w - 1 - b.log2
def ctzNat (w b : Nat) : Nat := ((List.range w).find? fun i => b.testBit i).getD w
def revNat (w b : Nat) : Nat := (List.range w).foldl (fun n i => if b.testBit i then n + 2 ^ (w - 1 - i) else n) 0
def bitCount (sub w b : Nat) : Nat :=
  if sub = 0 then popNat w b else if sub = 1 then clzNat w b else if sub = 2 then ctzNat w b else revNat w b

/-- R149, R154, R193: condition codes 0 to 5 on integers. -/
def condHolds (cond : Nat) (a b : Int) : Bool :=
  match cond with
  | 0 => a == b
  | 1 => a != b
  | 2 => decide (a < b)
  | 3 => decide (a ≤ b)
  | 4 => decide (b < a)
  | _ => decide (b ≤ a)

/-- R149, R192: field extract from `w` bits at `pos`, `len` bits. -/
def fieldExtract (w : Nat) (sgn : Bool) (a pos len : Nat) : Nat :=
  if len = 0 then 0
  else
    let wide := if sgn then wrapInt (w + 128) (intOf true w a) else a
    let f := wide / 2 ^ pos % 2 ^ len
    if sgn then wrapInt w (intOf true len f) else f
/-- R149, R192: field insert of `a` into `d`. -/
def fieldInsert (w d a pos len : Nat) : Nat :=
  let n := min len (w - pos)
  d - d / 2 ^ pos % 2 ^ n * 2 ^ pos + a % 2 ^ n * 2 ^ pos

/-! ### Arithmetic and logic (R148) -/

def execSadd (o : S3) (s : State) : Host.Outcome State Fault Refusal := scalarOp (.sadd o) o (onInts (· + ·)) s
def execSsub (o : S3) (s : State) : Host.Outcome State Fault Refusal := scalarOp (.ssub o) o (onInts (· - ·)) s
def execSmul (o : S3) (s : State) : Host.Outcome State Fault Refusal := scalarOp (.smul o) o (onInts (· * ·)) s
def execSmulh (o : S3) (s : State) : Host.Outcome State Fault Refusal := scalarOp (.smulh o) o mulHigh s
def execSdiv (o : S3) (s : State) : Host.Outcome State Fault Refusal := scalarOp (.sdiv o) o divInt s
def execSrem (o : S3) (s : State) : Host.Outcome State Fault Refusal := scalarOp (.srem o) o remInt s
def execSand (o : S3) (s : State) : Host.Outcome State Fault Refusal :=
  scalarOp (.sand o) o (fun _ _ a b => Nat.land a b) s
def execSor (o : S3) (s : State) : Host.Outcome State Fault Refusal :=
  scalarOp (.sor o) o (fun _ _ a b => Nat.lor a b) s
def execSxor (o : S3) (s : State) : Host.Outcome State Fault Refusal :=
  scalarOp (.sxor o) o (fun _ _ a b => Nat.xor a b) s
def execSshl (o : S3) (s : State) : Host.Outcome State Fault Refusal := scalarOp (.sshl o) o shlNat s
def execSshr (o : S3) (s : State) : Host.Outcome State Fault Refusal := scalarOp (.sshr o) o shrNat s
def execSrot (o : S3) (s : State) : Host.Outcome State Fault Refusal := scalarOp (.srot o) o rotNat s
def execSmin (o : S3) (s : State) : Host.Outcome State Fault Refusal := scalarOp (.smin o) o minNat s
def execSmax (o : S3) (s : State) : Host.Outcome State Fault Refusal := scalarOp (.smax o) o maxNat s
def execSbitc (o : S3) (s : State) : Host.Outcome State Fault Refusal :=
  scalarOp (.sbitc o) o (fun w _ _ b => bitCount o.sub.toNat w b) s

/-! ### Moves, compares, selects and bit fields (R149) -/

def execSmov (o : S3) (s : State) : Host.Outcome State Fault Refusal := scalarMove (.smov o) o (fun _ b _ => b) s

/-- SMOVI: IMM32 widened as for the 64-bit type of the same signedness, or bits 63:32 alone. -/
def execSmovi (o : S3) (s : State) : Host.Outcome State Fault Refusal :=
  let imm : BitVec 32 := match o.b with
    | .imm v => v
    | .reg _ | .regWide _ => 0
  scalarMove (.smovi o) o (fun _ _ d =>
    if o.sub = 1 then imm ++ d.extractLsb' 0 32
    else if signedTy o.ty then imm.signExtend 64 else imm.zeroExtend 64) s

def execSset (o : S3) (s : State) : Host.Outcome State Fault Refusal :=
  seqInstr (.sset o) (fun t =>
    let w := scalarWidth o.ty
    let a := intOf (signedTy o.ty) w (lowBitsOf o.ty (t.sreg o.a.toNat))
    let b := intOf (signedTy o.ty) w (lowBitsOf o.ty (t.ssrc o.ty o.b))
    .ok (t.setS o.d.toNat (if condHolds o.sub.toNat a b then 1 else 0))) s

def execSsel (o : S3) (s : State) : Host.Outcome State Fault Refusal :=
  scalarMove (.ssel o) o (fun a b d => if d ≠ 0 then a else b) s

def execSaddr (o : S3) (s : State) : Host.Outcome State Fault Refusal :=
  scalarMove (.saddr o) o (fun a b _ => a + (b <<< o.sub.toNat)) s

def execSext (o : S3) (s : State) : Host.Outcome State Fault Refusal :=
  scalarMove (.sext o) o (fun _ b _ =>
    let k := 8 * 2 ^ o.sub.toNat
    BitVec.ofNat 64 (wrapInt 64 (intOf (signedTy o.ty) k (b.toNat % 2 ^ k)))) s

/-- pos and len of a control value (R149). -/
def ctlPos (c : Word) : Nat := c.toNat % 64
def ctlLen (c : Word) : Nat := min (c.toNat / 256 % 128) 64

def execSbfx (o : S3) (s : State) : Host.Outcome State Fault Refusal :=
  scalarMove (.sbfx o) o (fun a c _ => BitVec.ofNat 64 (fieldExtract 64 (signedTy o.ty) a.toNat (ctlPos c) (ctlLen c))) s

def execSbfi (o : S3) (s : State) : Host.Outcome State Fault Refusal :=
  scalarMove (.sbfi o) o (fun a c d => BitVec.ofNat 64 (fieldInsert 64 d.toNat a.toNat (ctlPos c) (ctlLen c))) s

/-! ### The flag word (R200) and the ejection threshold (R163) -/

/-- A matrix operation of the executing course has not written its results (R200, R278). -/
def State.matrixPending (s : State) : Bool := !s.isLane && s.ops.any fun y => y.course == s.curCourse
/-- A load of the agent to the pool is on its way (R391). -/
def State.loadPending (s : State) : Bool :=
  let coming (m : Cells WordSt) : Bool := m.any fun e => match e.2 with
    | .coming _ due _ => decide (s.clock < due)
    | _ => false
  coming s.regs.vst || coming s.regs.sst || s.regs.late.any fun e => decide (s.clock < e.1)
/-- A copy of the executing course has not written its results (R200, R249); its decoding flags enter the flag word when its batch
is done, and an open batch is not waited for (log 39, DEDUCED). -/
def State.copyPending (s : State) : Bool := !s.isLane && s.copies.any fun y => y.course == s.curCourse
/-- An instruction that another split of the course issued has not written its results: it waits, at a rendezvous too (R135,
R202, R312). -/
def State.splitPending (s : State) : Bool :=
  match s.cur with
  | .course c k =>
    (s.course c).splits.zipIdx.any fun e =>
      e.2 != k && e.1.m != 0
        && match e.1.wait with
          | .join .. | .bar .. | .mark .. | .sync .. | .batch _ | .sleep _ | .ckpt _ | .svc _ => true
          | .ready | .stalled | .member _ | .regang _ | .page .. => false
  | _ => false
/-- R200: an instruction of the agent that issued before has not written its results. -/
def State.resultsPending (s : State) : Bool := s.matrixPending || s.loadPending || s.copyPending || s.splitPending

/-- FFRD: the agent's flag word. -/
def execFfrd (o : S3) (s : State) : Host.Outcome State Fault Refusal :=
  seqInstr (.ffrd o) (fun t =>
    if t.resultsPending then .error .stall
    else .ok (t.setS o.d.toNat ((t.regs.flagsAt t.clock).zeroExtend 64))) s

/-- FFCLR: the flag word becomes 0, or is ANDed with the complement of sA. -/
def execFfclr (o : S3) (s : State) : Host.Outcome State Fault Refusal :=
  seqInstr (.ffclr o) (fun t =>
    let keep : BitVec 6 := if o.sub = 0 then ~~~(t.sreg o.a.toNat).extractLsb' 0 6 else 0
    if t.resultsPending then .error .stall
    else .ok (t.modRegs fun r => { r with flags := r.flagsAt t.clock &&& keep, late := [] })) s

/-- EJCTL: the threshold is lowered for the whole course; sD takes the old one. -/
def execEjctl (o : S3) (s : State) : Host.Outcome State Fault Refusal :=
  seqInstr (.ejctl o) (fun t =>
    let old := (t.course t.curCourse).ejthr
    let new := min old (t.sreg o.a.toNat).toNat
    .ok ((t.modCourse t.curCourse fun x => { x with ejthr := new }).setS o.d.toNat (BitVec.ofNat 64 old))) s

end Sys2Proof.Machine
end

