-- ==== Sys2Proof/Machine/Matrix.lean ====
section
/-!
DEFINITION. The matrix engine (R258 to R283): handles, tile fetch and the operand cache, the engine queue, exact
summation, MCVT, the tile status slots and the current-slew limiter.
-/

namespace Sys2Proof.Machine

/-! ### Handles (R260, R261) -/

def hBase (h : BitVec 128) : Nat := fld h 0 57
def hSpl (h : BitVec 128) : Bool := h.getLsbD 57
def hFmt (h : BitVec 128) : Nat := fld h 58 4
def hRows (h : BitVec 128) : Nat := fld h 64 16
def hCols (h : BitVec 128) : Nat := fld h 80 16
def hStride (h : BitVec 128) : Nat := fld h 96 24
def hGenNo (h : BitVec 128) : Nat := fld h 120 8

/-- R261. -/
def handleOk (h : BitVec 128) : Bool :=
  let e := fmtBytes (hFmt h)
  hGenNo h == 0 && fld h 62 2 == 0 && (hFmt h == 1 || (decide (5 ≤ hFmt h) && decide (hFmt h ≤ 10)))
    && hRows h != 0 && hCols h != 0
    && (if hFmt h = 1 then decide ((hCols h + 7) / 8 ≤ hStride h)
        else hBase h % e == 0 && hStride h % e == 0 && decide (hCols h * e ≤ hStride h))
    && (!hSpl h || decide (hBase h < 2 ^ 21))

/-- Handle `n` of the executing course. -/
def State.handle (s : State) (n : Nat) : BitVec 128 := Cells.get 0 (s.course s.curCourse).h n
def State.setHandle (s : State) (n : Nat) (v : BitVec 128) : State :=
  s.modCourse s.curCourse fun x => { x with h := Cells.set 0 x.h n v }

/-- R281: FORMAT_MISMATCH of a matrix instruction. -/
def matrixMismatch (sub : Nat) : Exn := trapC tFormat 0 (BitVec.ofNat 64 (sub * 256 + 6))

/-- R278: HSET. -/
def execHset (o : Mx) (s : State) : Host.Outcome State Fault Refusal :=
  seqInstr (.hset o) (fun t =>
    if t.matrixPending then .error .stall
    else if o.s = 0 then .ok (t.setHandle o.ha.toNat 0)
    else
      let v : BitVec 128 := t.sreg (o.s.toNat + 1) ++ t.sreg o.s.toNat
      if handleOk v then .ok (t.setHandle o.ha.toNat v) else .error (matrixMismatch 4)) s

/-- R264: the entries of a core's operand cache whose descriptor `p` holds of are removed, and no entry is made of what tile
fetches have read of such tiles already. -/
def State.dropEntries (s : State) (core : Nat) (p : BitVec 128 → Bool) : State :=
  { s with
    opcache := s.opcache.filter fun e => !(e.core == core && p e.tag.desc)
    ops := s.ops.map fun (o : MatOp) =>
      if o.core != some core then o
      else { o with uncached := o.uncached ++ (o.early.map (·.tile)).filter fun t => p (o.tags.getD t default).desc } }

/-- R264: HGEN, with the removal of entries of the new descriptor from the issuing core's operand cache. -/
def execHgen (o : Sys) (s : State) : Host.Outcome State Fault Refusal :=
  seqInstr (.hgen o) (fun t =>
    if t.matrixPending then .error .stall
    else
      let n := o.a.toNat % 16
      let v := t.handle n
      let g := (hGenNo v + 1) % 256
      let v' : BitVec 128 := BitVec.ofNat 8 g ++ v.extractLsb' 0 120
      .ok (((t.setHandle n v').dropEntries (t.coreOf t.curCourse) fun d => d == v').setS o.d.toNat (BitVec.ofNat 64 g))) s

/-! ### Tile status slots (R274) -/

def State.tileStatus (s : State) (n : Nat) : Word := Cells.get 0 (s.course s.curCourse).ts n

def execMstat (o : Sys) (s : State) : Host.Outcome State Fault Refusal :=
  seqInstr (.mstat o) (fun t =>
    if t.matrixPending then .error .stall else .ok (t.setS o.d.toNat (t.tileStatus (o.a.toNat % 16)))) s

def execMsclr (o : Sys) (s : State) : Host.Outcome State Fault Refusal :=
  seqInstr (.msclr o) (fun t =>
    if t.matrixPending then .error .stall
    else
      let n := o.a.toNat % 16
      .ok ((t.modCourse t.curCourse fun x => { x with ts := Cells.erase x.ts n }).setS o.d.toNat (t.tileStatus n))) s

/-- Counts of SAT, NAN_IN, NAN_GEN and OVF. -/
structure TileCount where
  sat : Nat := 0
  nanIn : Nat := 0
  nanGen : Nat := 0
  ovf : Nat := 0
deriving DecidableEq, Repr, Inhabited

def TileCount.add (a b : TileCount) : TileCount := ⟨a.sat + b.sat, a.nanIn + b.nanIn, a.nanGen + b.nanGen, a.ovf + b.ovf⟩

/-- R274: a slot after counts; a counter stays at 0xFFFF. -/
def TileCount.into (k : TileCount) (w : Word) : Word :=
  let f (lo n : Nat) : Nat := min 0xFFFF (fld w lo 16 + n) * 2 ^ lo
  BitVec.ofNat 64 (f 48 k.sat + f 32 k.nanIn + f 16 k.nanGen + f 0 k.ovf)

/-- OCFENCE (R264): stores to scratchpads are performed when they issue here. -/
def execOcfence (o : Sys) (s : State) : Host.Outcome State Fault Refusal :=
  seqInstr (.ocfence o) (fun t => .ok (t.dropEntries (t.coreOf t.curCourse) hSpl)) s

/-! ### The engine queue (R265 to R268) -/

/-- The operations in a core's engine queue, in order, by place. -/
def State.engineQueue (s : State) (core : Nat) : List (Nat × MatOp) :=
  (s.ops.zipIdx.filter fun e => e.1.core == some core).map fun e => (e.2, e.1)

/-- Operations of the course that are saved with it (R268). -/
def State.savedOps (s : State) (c : Nat) : List MatOp := s.ops.filter fun o => o.course == c && o.core.isNone
/-- Put an operation into the engine queue of the executing course's core; a full queue stalls, and so do saved operations of
the course that are not queued again yet (R265, R268). -/
def State.enqueueOp (s : State) (op : MatOp) : Except Exn State :=
  if 16 ≤ (s.engineQueue (s.coreOf s.curCourse)).length ∨ !(s.savedOps s.curCourse).isEmpty then .error .stall
  else
    let k := match s.cur with
      | .course _ k => k
      | _ => 0
    .ok { s with
      ops := s.ops ++ [{ op with course := s.curCourse, core := some (s.coreOf s.curCourse), issued := s.clock, pc := s.pc, split := k }] }

/-- R268: the course has an operation running. -/
def State.engineBusy (s : State) (c : Nat) : Bool := s.ops.any fun o => o.course == c && o.started.isSome

/-- R268: take a course's operations that have not started out of the queue; they are saved with it. -/
def State.saveOps (s : State) (c : Nat) : State :=
  { s with ops := s.ops.map fun (o : MatOp) =>
      if o.course == c && o.started.isNone then
        { o with core := none, ready := none, page := none, early := [], uncached := [], tiles := o.tiles.map fun _ => none }
      else o }

/-- R268: queue a course's saved operations again, in their order, as far as the queue has room (R265). -/
def State.restoreOps (s : State) (c : Nat) : State :=
  let back := (s.savedOps c).take (16 - (s.engineQueue (s.coreOf c)).length)
  let rest := (s.savedOps c).drop back.length
  { s with ops := (s.ops.filter fun o => !(o.course == c && o.core.isNone))
      ++ back.map (fun (o : MatOp) => { o with core := some (s.coreOf c), issued := s.clock }) ++ rest }
/-- The same for every course that is back on its core. -/
def State.requeueOps (s : State) : State :=
  ((s.ops.filter fun o => o.core.isNone).map (·.course)).eraseDups.foldl (fun s c =>
    if (s.course c).place == .resident && (s.course c).leaving.isNone then s.restoreOps c else s) s

/-! ### MMA and MMAS at issue (R258, R259, R262, R277 to R279) -/

def mmaM (o : Mx) : Nat := 32 * (o.shape.toNat + 1)
/-- R258: the width class is 16-bit. -/
def wide16 (t : ElemTy) : Bool := t == .bf16x2 || t == .f16x2
def mmaK (o : Mx) : Nat := if wide16 o.ty then 64 else 128

/-- R259: row and lane of each row that is written; `m` are the acted members of the group. -/
def mmaRows (o : Mx) (size : Nat) (m : Mask) : Except Exn (List (Nat × Nat)) :=
  let ls := Mask.list m
  if size ≠ (if o.shape = 0 then 32 else 96) then .error (matrixMismatch 3)
  else if o.shape = 0 then
    let b := ls.headD 0 / 32
    if ls.all fun l => l / 32 == b then .ok (ls.map fun l => (l % 32, l)) else .error (matrixMismatch 3)
  else .ok ((ls.filter fun l => decide (l < mmaM o)).map fun l => (l, l))

/-- The tiles of an MMA or MMAS (R279): A, B, and the two bitmaps. -/
def State.mmaTiles (s : State) (o : Mx) (sparse : Bool) : List TileTag :=
  let v := s.sreg o.s.toNat
  let k0 := fld v 0 32
  let n0 := fld v 32 32
  let m0 := fld o.imm 0 16
  let tb : Bool := o.sub == 1
  let ctx := s.ctxOf s.curCourse
  let a (h : Nat) : TileTag := ⟨ctx, h, s.handle h, m0, k0, mmaM o, mmaK o, false⟩
  let b (h : Nat) : TileTag :=
    if tb then ⟨ctx, h, s.handle h, n0, k0, 64, mmaK o, true⟩ else ⟨ctx, h, s.handle h, k0, n0, mmaK o, 64, false⟩
  [a o.ha.toNat, b o.hb.toNat] ++ (if sparse then [a o.hc.toNat, b (fld o.imm 16 4)] else [])

/-- First byte in a row, and bytes, of columns `c0` to `c0 + n − 1` (R260). -/
def rowSpan (h : BitVec 128) (c0 n : Nat) : Nat × Nat :=
  if hFmt h = 1 then (c0 / 8, (c0 + n - 1) / 8 - c0 / 8 + 1) else (c0 * fmtBytes (hFmt h), n * fmtBytes (hFmt h))

/-- Where row `i` of a tile begins, counted from address 0, and how many bytes it reads. -/
def TileTag.span (t : TileTag) (i : Nat) : Nat × Nat :=
  let q := rowSpan t.desc t.col t.cols
  (hBase t.desc + (t.row + i) * hStride t.desc + q.1, q.2)
/-- The virtual address where row `i` of a GEN tile begins: bits 63:57 of BASE equal its bit 56 (R216, R260, log 34). -/
def TileTag.addr (t : TileTag) (i : Nat) : Word :=
  ((t.desc.extractLsb' 0 57 : BitVec 57).signExtend 64) + BitVec.ofNat 64 ((t.span i).1 - hBase t.desc)

/-- R262: checks of handles at issue. -/
def State.mmaChecks (s : State) (o : Mx) (tags : List TileTag) : Except Exn Unit :=
  let f (i : Nat) : Nat := hFmt ((tags.getD i default).desc)
  let cls : List Nat := if wide16 o.ty then [5, 6] else [7, 8, 9, 10]
  let size := (s.block (s.course s.curCourse).block).spSize
  if f 0 ≠ (tyCode o.ty).toNat ∨ f 1 ∉ cls ∨ (tags.drop 2).any (fun t => hFmt t.desc != 1) then .error (matrixMismatch 1)
  else if tags.any fun t => decide (hRows t.desc < t.row + t.rows) || decide (hCols t.desc < t.col + t.cols) then
    .error (matrixMismatch 2)
  else
    let out := (tags.filter fun t => hSpl t.desc).flatMap fun t =>
      (List.range t.rows).filterMap fun i =>
        let q := t.span i
        if size < q.1 + q.2 then some (max q.1 size) else none
    match out with
    | [] => .ok ()
    | a :: _ => .error (trapC tScratch (BitVec.ofNat 64 a))

/-- Issue of an MMA or MMAS. -/
def mmaIssue (o : Mx) (sparse : Bool) (s : State) : Except Exn State := do
  let g := s.greg (o.a.toNat % 8)
  let m := s.acted o.g &&& g.mem
  let tags := s.mmaTiles o sparse
  s.mmaChecks o tags
  let rows ← mmaRows o g.size m
  if m = 0 then .ok s
  else
    s.enqueueOp { kind := if sparse then .mmas else .mma, course := 0, core := none, o := o, rows := rows
                  batch := some (s.course s.curCourse).openBatch, tags := tags, tiles := tags.map fun _ => none }

def execMma (o : Mx) (s : State) : Host.Outcome State Fault Refusal := seqInstr (.mma o) (mmaIssue o false) s
def execMmas (o : Mx) (s : State) : Host.Outcome State Fault Refusal := seqInstr (.mmas o) (mmaIssue o true) s

/-- MZERO (R280). -/
def execMzero (o : Mx) (s : State) : Host.Outcome State Fault Refusal :=
  seqInstr (.mzero o) (fun t =>
    t.enqueueOp { kind := .mzero, course := 0, core := none, o := o, acted := t.acted o.g }) s

/-- MCVT (R276): the scale and the stochastic seed are read at issue. -/
def execMcvt (o : Mx) (s : State) : Host.Outcome State Fault Refusal :=
  seqInstr (.mcvt o) (fun t =>
    t.enqueueOp { kind := .mcvt, course := 0, core := none, o := o, acted := t.acted o.g
                  scale := if o.s = 0 then 127 else (t.sreg o.s.toNat).toNat % 256
                  seed := t.regs.srseed ^^^ o.imm.extractLsb' 0 16 }) s

/-! ### Tile fetch (R263, R264, R269) -/

/-- One element as it was read: code, line, scale byte, line. -/
abbrev TileElem := BitVec 16 × Nat × Byte × Nat

/-- Elements of a span of generic memory, piece by piece, for a handle of format `fmt`, and the lines that they and their scale
bytes lie in (R263, R235 with one lane). -/
def State.genCodes (s : State) (c fmt : Nat) : List (Word × Nat) → Except Exn (List TileElem × List Nat)
  | [] => .ok ([], [])
  | (a, n) :: rest => do
    let f ← s.walkChecked (s.ctxOf c) (s.launchIx c) a { n := n }
    if f.pol = 3 then .error (trapC tProtection a 8)
    else if f.fmt ≠ 0 ∧ f.fmt ≠ fmt then .error (trapC tFormat a 6)
    else
      let codes := codesOf fmt ((List.range n).map fun j => s.engineByte c false ((Loc.phys f).shift j))
      let scales ← s.elemScales c false a n f codes.length
      let q ← s.genCodes c fmt rest
      .ok ((codes.zip scales).zipIdx.map (fun e =>
          (BitVec.ofNat 16 e.1.1, (f.pa + e.2 * fmtBytes fmt) / 128, BitVec.ofNat 8 e.1.2.1, e.1.2.2.getD 0)) ++ q.1,
        (Loc.phys f).lines n ++ scales.filterMap (·.2) ++ q.2)

/-- Divide `n` bytes at `a` at 4 KiB boundaries. -/
def tilePieces (a : Word) : Nat → Nat → List (Word × Nat)
  | 0, _ => []
  | fuel + 1, n =>
    let k := min n (4096 - a.toNat % 4096)
    if n = 0 then [] else (a, k) :: tilePieces (a + BitVec.ofNat 64 k) fuel (n - k)

/-- Row `i` of a tile for course `c`. -/
def State.tileRow (s : State) (c : Nat) (t : TileTag) (i : Nat) : Except Exn (List TileElem × List Nat) := do
  let (off, n) := t.span i
  let fmt := hFmt t.desc
  let b := (s.course c).block
  let r ←
    if hSpl t.desc then
      if (List.range n).any fun j => Cells.get false (s.block b).spPoison ((off + j) / 4) then
        .error (trapC tPoison (BitVec.ofNat 64 off) 7)
      else
        let codes := codesOf fmt ((List.range n).map fun j => s.engineByte c false (.pad b (off + j)))
        .ok (codes.zipIdx.map (fun e => (BitVec.ofNat 16 e.1, (off + e.2 * fmtBytes fmt) / 128, (127 : Byte), 0)), [])
    else s.genCodes c fmt (tilePieces (t.addr i) 4 n)
  if fmt = 1 then
    .ok ((List.range t.cols).map (fun j =>
      let k := t.col % 8 + j
      let e := r.1.getD (k / 8) (0, 0, 127, 0)
      (if e.1.getLsbD (k % 8) then 1 else 0, e.2)), r.2)
  else .ok r

/-- The rows of a tile from row `i`. -/
def State.tileRows (s : State) (c : Nat) (t : TileTag) : Nat → Nat → Except Exn (List TileElem × List Nat)
  | 0, _ => .ok ([], [])
  | n + 1, i => do
    let r ← s.tileRow c t i
    let q ← s.tileRows c t n (i + 1)
    .ok (r.1 ++ q.1, r.2 ++ q.2)

/-- A tile read from memory at one time. -/
def State.readTile (s : State) (c : Nat) (t : TileTag) : Except Exn TileRead :=
  (s.tileRows c t t.rows 0).map fun r => { tile := 0, elems := r.1, lines := r.2.eraseDups }

/-- Of two reads of a tile, each line from one or the other, which is a free value (R269). -/
def TileRead.mix (fresh : Nat) (old new : TileRead) : TileRead :=
  { new with
    elems := (new.elems.zip old.elems).map fun e =>
      ((if Config.pick fresh e.1.2.1 then e.2.1 else e.1.1), e.1.2.1,
        (if Config.pick fresh e.1.2.2.2 then e.2.2.2.1 else e.1.2.2.1), e.1.2.2.2) }
/-- The tile that was read. -/
def TileRead.tileOf (r : TileRead) (bitmap : Bool) : Tile :=
  ⟨r.elems.map (·.1), if bitmap then [] else r.elems.map fun e => e.2.2.1⟩
/-- What was read early of an operation's tile. -/
def MatOp.begun (o : MatOp) (tile : Nat) : Option TileRead := o.early.find? fun r => r.tile == tile

/-- Lines pinned for the operations of a core, but for one tile of one of them (R263). -/
def State.pinsOf (s : State) (core i tile : Nat) : List Nat :=
  (s.ops.zipIdx.flatMap fun e =>
    if e.1.core == some core then e.1.early.flatMap fun r => if e.2 == i && r.tile == tile then [] else r.lines else []).eraseDups
/-- Some tile fetch pins the line. -/
def State.pinned (s : State) (ln : Nat) : Bool := s.ops.any fun o => o.early.any fun r => r.lines.contains ln
/-- A core holds at most 512 pinned lines (R263). -/
def State.pinsFit (s : State) (core i tile : Nat) (r : TileRead) : Bool :=
  decide (((s.pinsOf core i tile) ++ r.lines).eraseDups.length ≤ 512)
/-- The tile fetch of a core reads lines through L2 (R213, R263). -/
def State.fillTile (s : State) (core : Nat) (r : TileRead) : State := r.lines.foldl (fun s ln => s.fillAt (dieOf core) 0 ln 0) s

/-- Bytes of a tile in the operand cache. -/
def TileTag.bytes (t : TileTag) : Nat := t.rows * (rowSpan t.desc t.col t.cols).2

/-- Entries of a core, most recently used first, as many as 256 KiB hold (R263, R264). -/
def keepEntries (core room : Nat) : List OpEntry → List OpEntry
  | [] => []
  | e :: es =>
    if e.core ≠ core then e :: keepEntries core room es
    else if e.tag.bytes ≤ room then e :: keepEntries core (room - e.tag.bytes) es
    else keepEntries core 0 es

/-- R264: the entry becomes the most recently used of its core. -/
def State.useEntry (s : State) (e : OpEntry) : State :=
  { s with opcache := keepEntries e.core 0x40000 (e :: s.opcache.filter fun x => !(x.core == e.core && x.tag == e.tag)) }

/-- The operation's place in its core's queue is first or second, and it is not started. -/
def State.fetches (s : State) (i : Nat) : Bool :=
  match s.ops[i]? with
  | none => false
  | some o =>
    match o.core with
    | none => false
    | some core => o.started.isNone && (((s.engineQueue core).take 2).any fun e => e.1 == i)

/-- Operation `i` leaves the engine; its batch may now be done. -/
def State.endOp (s : State) (i : Nat) : State :=
  match s.ops[i]? with
  | none => s
  | some o =>
    let s1 := { s with ops := s.ops.eraseIdx i }
    let s2 := match o.core with
      | some core => s1.modCore core fun k => { k with idleAt := s.clock }
      | none => s1
    s2.recheckBatches o.course

/-- R269: operation `i` fails; it writes and counts nothing and its batch is done but failed. -/
def State.failOp (s : State) (i code : Nat) (addr : Word) : State :=
  match s.ops[i]? with
  | none => s
  | some o =>
    match o.batch with
    | some b => (s.modCourse o.course fun x => { x with fails := x.fails ++ [⟨b, addr, code⟩] }).endOp i
    | none => s.endOp i

/-- The tile fetch of operation `i` reads the lines of a tile, which it pins, before the tile is whole (R263, R269). -/
def State.beginTile (s : State) (i tile : Nat) : State :=
  match s.ops[i]? with
  | none => s
  | some o =>
    match o.tags[tile]?, o.core with
    | some tag, some core =>
      if !s.fetches i || o.page.isSome || (o.tiles.getD tile none).isSome then s
      else
        match s.readTile o.course tag with
        | .ok d =>
          let r := { (match o.begun tile with | some e => { e.mix s.fresh d with mark := e.mark } | none => { d with mark := s.fresh }) with
            tile := tile }
          if s.pinsFit core i tile r then
            { s.fillTile core r with
              fresh := s.fresh + 1
              ops := s.ops.set i { o with early := o.early.filter (fun e => e.tile != tile) ++ [r] } }
          else s
        | .error _ => s
    | _, _ => s

/-- The entry of the operand cache that an operation takes its tile from, where one matches and it does not fetch: a free value
(R264). -/
def State.tileHit (s : State) (core : Nat) (tag : TileTag) : Option OpEntry :=
  if (Config.freeValue s.fresh).getLsbD 0 then s.opcache.find? fun e => e.core == core && e.tag == tag else none
/-- The lines that a tile which becomes whole was read from. -/
def State.tileLines (s : State) (i tile : Nat) : List Nat :=
  let o := s.ops.getD i default
  let tag := o.tags.getD tile default
  match o.core.bind fun k => s.tileHit k tag, s.readTile o.course tag with
  | none, .ok d => d.lines
  | _, _ => []

/-- TILE_FETCH_DONE: a tile becomes whole, from the operand cache or from memory, which of the two is a free value
(R264); a page fault makes the operation wait, any other fault fails it (R269). -/
def execTileFetchDone (i tile : Nat) (s : State) : Host.Outcome State Fault Refusal :=
  match s.ops[i]? with
  | none => .next s
  | some o =>
    match o.tags[tile]?, o.core with
    | some tag, some core =>
      if !s.fetches i || o.page.isSome || (o.tiles.getD tile none).isSome then .next s
      else
        let put (s : State) (d : Tile) : State :=
          let o' := { o with tiles := o.tiles.set tile (some d), finish := s.clock, early := o.early.filter fun e => e.tile != tile }
          let t := { s with ops := s.ops.set i o', fresh := s.fresh + 1 }
          if o.uncached.contains tile then t else t.useEntry ⟨core, tag, d⟩
        match s.tileHit core tag with
        | some e => .next (put s e.tile)
        | none =>
          match s.readTile o.course tag with
          | .ok d =>
            let r := match o.begun tile with | some e => e.mix s.fresh d | none => d
            .next (if s.pinsFit core i tile r then put (s.fillTile core r) (r.tileOf (hFmt tag.desc == 1)) else s)
          | .error (.page va kind _ _ _ sc) =>
            .next { s with ops := s.ops.set i { o with page := some (tile, va, kind, sc, none) } }
          | .error (.trap code _ a _) => .next (s.failOp i code a)
          | .error _ => .next s
    | _, _ => .next s

/-! ### Exact summation (R270, R271, R275) -/

/-- Elements of a tile. -/
structure TileView where
  cols : Nat
  codes : Array (BitVec 16)
  scales : Array Byte
  fmt : FF

def tileView (t : TileTag) (d : Tile) : TileView := ⟨t.cols, d.codes.toArray, d.scales.toArray, fmtFF (hFmt t.desc)⟩
/-- The element at a row and column of the tile. -/
def TileView.at' (v : TileView) (r c : Nat) : Ext :=
  let i := r * v.cols + c
  scaledExt v.fmt (v.codes.getD i 0).toNat (v.scales.getD i 127).toNat
/-- The bit of a bitmap. -/
def TileView.bit (v : TileView) (r c : Nat) : Bool := (v.codes.getD (r * v.cols + c) 0) != 0

/-- floor(log2 |x|) of a nonzero finite value. -/
def Ext.expo : Ext → Int
  | .fin _ m e _ => e + bitLen m - 1
  | _ => 0

/-- R1 notation: a finite value truncated toward zero to a multiple of 2^u, in units of 2^u. -/
def Ext.alignTo (u : Int) : Ext → Int
  | .fin n m e _ =>
    let k : Nat := if u ≤ e then m * 2 ^ (e - u).toNat else m / 2 ^ (u - e).toNat
    if n then -(k : Int) else k
  | _ => 0

/-- One chunk of R270: the accumulator after it, from the products' factors. -/
def chunkSum (acc : Nat) (ps : List (Ext × Ext)) : Nat :=
  let a := FF.f32.toExt acc
  if a.isNan || ps.any (fun p => p.1.isNan || p.2.isNan) then 0x7FC00000
  else
    let qs := ps.map fun p => p.1.mul p.2
    if qs.any fun q => q.2 != 0 then 0x7FC00000
    else
      let all := a :: qs.map (·.1)
      let pos := all.contains (.inf false)
      let neg := all.contains (.inf true)
      if pos && neg then 0x7FC00000
      else if pos then 0x7F800000
      else if neg then 0xFF800000
      else
        match all.filter fun x => !x.isZero with
        | [] => 0
        | x :: xs =>
          let u := xs.foldl (fun m y => max m y.expo) x.expo - 56
          let t := (x :: xs).foldl (fun n y => n + y.alignTo u) (0 : Int)
          let r := (FF.f32.round 0 false 0 (.fin (decide (t < 0)) t.natAbs u false)).1
          if t = 0 ∨ r = 0x80000000 then 0 else r

/-- The products of an output by chunk: `f k` gives the factors of the product at k, if it is formed. -/
def chunksOf (K kc : Nat) (f : Nat → Option (Ext × Ext)) : List (List (Ext × Ext)) :=
  (List.range (K / kc)).map fun c => (List.range kc).filterMap fun j => f (c * kc + j)

/-- R275: where an output counts. -/
def outputCount (acc0 out : Nat) (used : List (Ext × Ext)) : TileCount :=
  let a := FF.f32.toExt acc0
  let r := FF.f32.toExt out
  let fine (x : Ext) : Bool := !x.isNan && !x.isInf
  if r.isNan then
    if a.isNan || used.any (fun p => p.1.isNan || p.2.isNan) then { nanIn := 1 } else { nanGen := 1 }
  else if r.isInf && fine a && used.all (fun p => fine p.1 && fine p.2) then { ovf := 1 }
  else {}

/-- The tiles of an operation: A, B, and the bitmaps of MMAS. -/
structure Views where
  a : TileView
  b : TileView
  ba : TileView
  bb : TileView

/-- The tiles of an operation whose tiles are whole. -/
def MatOp.views (o : MatOp) : Views :=
  let v (i : Nat) : TileView := tileView (o.tags.getD i default) ((o.tiles.getD i none).getD default)
  ⟨v 0, v 1, v 2, v 3⟩

/-- Factors of the product at k of output (m, n); none where a bitmap drops it (R270, R272). -/
def MatOp.factors (o : MatOp) (v : Views) (m n k : Nat) : Option (Ext × Ext) :=
  let tb : Bool := o.o.sub == 1
  let on := o.kind != .mmas || (v.ba.bit m k && (if tb then v.bb.bit n k else v.bb.bit k n))
  if on then some (v.a.at' m k, if tb then v.b.at' n k else v.b.at' k n) else none

/-- R270: output (m, n) from its accumulator. -/
def MatOp.output (o : MatOp) (v : Views) (acc m n : Nat) : Nat × TileCount :=
  let K := mmaK o.o
  let cs := chunksOf K (if wide16 o.o.ty then 16 else 32) (o.factors v m n)
  let out := cs.foldl chunkSum acc
  (out, outputCount acc out cs.flatten)

/-- Cycles from start to completion (R258, R273). -/
def MatOp.time (o : MatOp) : Nat :=
  let t := 2 * mmaM o.o
  if o.kind != .mmas then t
  else
    let v := o.views
    let p := ((List.range (mmaM o.o)).map fun m =>
      ((List.range 64).map fun n =>
        ((List.range (mmaK o.o)).filter fun k => (o.factors v m n k).isSome).length).sum).sum
    let r := if wide16 o.o.ty then 2048 else 4096
    max ((t + 3) / 4) ((p + r - 1) / r)

/-! ### Starting and completing (R267, R276, R280) -/

/-- The head of a core's engine queue. -/
def State.engineHead (s : State) (core : Nat) : Option (Nat × MatOp) := (s.engineQueue core).head?

def MatOp.isMma (o : MatOp) : Bool := o.kind == .mma || o.kind == .mmas

/-- Damage or a load in flight that an operation meets in the registers it reads at its start: the C rows of an MMA, the
sources of an MCVT (R265, R276, R385, R386, R391). -/
def State.startMeets (s : State) (o : MatOp) : Option Exn :=
  let t := { s with cur := Agent.course o.course 0 }
  if (s.course o.course).place = .ended then none
  else
    match o.kind with
    | .mzero => none
    | .mcvt => t.damaged { vr := rowRegs o.o.a } o.acted
    | .mma | .mmas => t.damaged { vr := rowRegs o.o.d } (o.rows.foldl (fun m e => m ||| Mask.one e.2) 0)

/-- The operation's course is about to leave its core or is stopped, so that an operation that has not started is saved with
it (R268, R357, R361). -/
def State.opStays (s : State) (o : MatOp) : Bool :=
  let x := s.course o.course
  (s.ctx (s.ctxOf o.course)).st == .running
    && (x.place == .ended
      || (x.place == .resident && x.leaving.isNone && !s.quotaStopped 9 (s.launchOf o.course).region))

/-- Operation `i` starts, and takes `time` cycles; its launch pays for the core's filler from then on (R267, R282). -/
def State.startOp (s : State) (core i time : Nat) : State :=
  let o := s.ops.getD i default
  { s with ops := s.ops.set i { o with started := some s.clock, finish := s.clock + time } }.modCore core fun k =>
    { k with filler := some (s.launchIx o.course) }

/-- An operation does not start on what it reads: a poisoned register halts its course (R386); a lost one fails an MMA, and
is reported by a trap of its own for an MCVT, which is in no batch (R391, log 41). -/
def State.startFails (s : State) (i : Nat) (o : MatOp) (e : Exn) : State :=
  match e with
  | .halt lane info =>
    s.killCourse o.course { reason := 5, trap := { code := 0, lane := lane, pc := o.pc, info := info, split := o.split } }
  | .trap code lane a info =>
    if o.batch.isSome then s.failOp i code a
    else
      let holds (p : Split → Bool) : Option Nat := (s.course o.course).splits.findIdx? p
      let k := ((holds fun y => y.m &&& o.acted != 0).or (holds fun y => y.m != 0)).getD 0
      (s.endOp i).raise o.course { code := code, lane := lane, pc := o.pc, addr := a, info := info, split := k }
  | _ => s

/-- MMA_START: the conditions of R267; SLEWWAIT takes the cycles that the limiter added (R283). -/
def execMmaStart (core : Nat) (s : State) : Host.Outcome State Fault Refusal :=
  match s.engineHead core with
  | none => .next s
  | some (i, o) =>
    let k := s.coreSt core
    if !o.isMma || o.started.isSome || o.ready.isNone || o.tiles.any (·.isNone) || k.arrays < 4
        || s.clock < o.issued + 4 || !s.opStays o then .next s
    else
      match s.startMeets o with
      | some e => .next (s.startFails i o e)
      | none =>
        let base := max (o.issued + 4) (max (o.ready.getD 0) o.finish)
        .next ({ s with
          slewWait := Cells.update 0 s.slewWait (core / 192) fun w => w + BitVec.ofNat 64 (k.fullAt - base) }.startOp core i o.time)

/-- Write columns of registers of course `c` and count into its slot; an ended course keeps nothing (R352). -/
def State.writeMatrix (s : State) (c : Nat) (vals : List (Nat × List (Nat × Nat))) (ts : Option (Nat × TileCount)) : State :=
  if (s.course c).place = .ended then s
  else
    let s1 := s.as (.course c 0) fun s => vals.foldl (fun s e => s.setV e.1 (e.2.map fun q => (q.1, BitVec.ofNat 32 q.2))) s
    match ts with
    | none => s1
    | some (n, k) => s1.modCourse c fun x => { x with ts := Cells.update 0 x.ts n k.into }

/-- Value of register `r` of course `c` in a lane. -/
def State.courseReg (s : State) (c r l : Nat) : Nat := (Cells.get 0 (s.course c).regs.v (96 * r + l)).toNat

/-- MMA_COMPLETE: all rows in one step, with their counts. -/
def execMmaComplete (core : Nat) (s : State) : Host.Outcome State Fault Refusal :=
  match s.engineHead core with
  | none => .next s
  | some (i, o) =>
    if !o.isMma || o.started.isNone || s.clock < o.finish then .next s
    else
      let d := o.o.d.toNat
      let v := o.views
      let cols := (List.range 64).map fun n =>
        (d + n, o.rows.map fun e => (e.2, o.output v (s.courseReg o.course (d + n) e.2) e.1 n))
      let count := (cols.flatMap fun c => c.2.map fun e => e.2.2).foldl TileCount.add {}
      .next ((s.writeMatrix o.course (cols.map fun c => (c.1, c.2.map fun e => (e.1, e.2.1)))
        (some (o.o.ts.toNat, count))).endOp i)

/-- MZERO_COMPLETE. -/
def execMzeroComplete (core : Nat) (s : State) : Host.Outcome State Fault Refusal :=
  match s.engineHead core with
  | none => .next s
  | some (i, o) =>
    if o.kind != .mzero || o.started.isNone || s.clock < o.finish then .next s
    else
      .next ((s.writeMatrix o.course
        ((List.range 64).map fun n => (o.o.d.toNat + n, (Mask.list o.acted).map fun l => (l, 0))) none).endOp i)

/-- Elements of MCVT's result before rounding, in the numbering of R276: n = 64 × L + c. -/
def MatOp.cvtPre (s : State) (o : MatOp) (f : FF) : List (Nat × Pre) :=
  (Mask.list o.acted).flatMap fun l =>
    (List.range 64).map fun c =>
      let x := FF.f32.toExt (s.courseReg o.course (o.o.a.toNat + c) l)
      (64 * l + c, if o.scale = 255 then .done f.nanCode 0 else f.prep 0 (x.scale (127 - (o.scale : Int))))

/-- R276: where an element of MCVT counts, by its source, the scale and its flags. -/
def cvtCount (x : Ext) (scale : Nat) (fl : BitVec 6) : TileCount :=
  if x.isNan || scale == 255 then { nanIn := 1 }
  else if fl &&& fSAT != 0 then { sat := 1 }
  else if x.isInf then (if fl &&& fIV != 0 then { nanGen := 1 } else {})
  else if fl &&& fOF != 0 then { ovf := 1 }
  else {}

/-- MCVT_COMPLETE: every source is read before any write. -/
def execMcvtComplete (core : Nat) (s : State) : Host.Outcome State Fault Refusal :=
  match s.engineHead core with
  | none => .next s
  | some (i, o) =>
    if o.kind != .mcvt || o.started.isNone || s.clock < o.finish then .next s
    else
      let f := (formatOfTy o.o.ty).getD .bf16
      let q := tyElems o.o.ty
      let done := finishAll (o.o.mod.toNat % 8) (o.o.mod.getLsbD 3) o.seed.toNat (o.cvtPre s f)
      let count := done.foldl (fun k e =>
        k.add (cvtCount (FF.f32.toExt (s.courseReg o.course (o.o.a.toNat + e.1 % 64) (e.1 / 64))) o.scale e.2.2)) {}
      let cols := (List.range (64 / q)).map fun r =>
        (o.o.d.toNat + r, (Mask.list o.acted).map fun l =>
          (l, packElems (32 / q) ((done.filter fun e => e.1 / 64 == l && e.1 % 64 / q == r).map fun e => e.2.1)))
      .next ((s.writeMatrix o.course cols (some (o.o.ts.toNat, count))).endOp i)

/-! ### The current-slew limiter (R282, R283, R340) -/

/-- The engine of a core requests quarter-arrays (R340). -/
def State.wantsArrays (s : State) (core : Nat) : Bool :=
  decide ((s.coreSt core).arrays < 4) &&
    match s.engineHead core with
    | some (_, o) => o.isMma && o.started.isNone && decide (o.issued + 4 ≤ s.clock) && s.opStays o
    | none => false

/-- The arrays of a core are idle since before this boundary. -/
def State.idleArrays (s : State) (core : Nat) : Bool :=
  let k := s.coreSt core
  decide (0 < k.arrays) && (s.engineQueue core).isEmpty && decide (k.idleAt < s.clock)

/-- The cores of a base die that the limiter may act on, ascending (log 7 for the cores of a die). -/
def State.dieCores (s : State) (die : Nat) : List Nat :=
  (List.range 192).map (192 * die + ·) |>.filter fun k => s.wantsArrays k || s.idleArrays k

/-- Active quarter-arrays of a die. -/
def State.activeArrays (s : State) (die : Nat) : Nat :=
  ((s.cores.filter fun e => e.1 / 192 == die).map fun e => e.2.arrays).sum

/-- The limiter stands at a step boundary that it has not performed, and would act. -/
def State.slewDue (s : State) (die : Nat) : Bool :=
  s.clock % 4 == 0 && decide (Cells.get 0 s.slewDone die < s.clock / 4) && !(s.dieCores die).isEmpty

/-- The step of a die's limiter: grants, and separately releases, of up to u quarter-arrays each. -/
def State.slewStep (s : State) (die : Nat) : State :=
  let u := fld (Cells.get slewDefault s.slewTab die) (8 * min (s.activeArrays die / 96) 7) 8
  let cores := s.dieCores die
  let grant := (cores.filter s.wantsArrays).foldl (fun (p : State × Nat) core =>
    let have' := (p.1.coreSt core).arrays
    let n := min (4 - have') p.2
    (p.1.modCore core fun k =>
      { k with arrays := have' + n, fullAt := if have' + n = 4 then s.clock else k.fullAt
               idleAt := if 0 < n then s.clock else k.idleAt }, p.2 - n)) (s, u)
  let done := (cores.filter s.idleArrays).foldl (fun (p : State × Nat) core =>
    let n := min (p.1.coreSt core).arrays p.2
    (p.1.modCore core fun k => { k with arrays := k.arrays - n }, p.2 - n)) (grant.1, u)
  { done.1 with slewDone := Cells.set 0 done.1.slewDone die (s.clock / 4) }

/-- SLEW_STEP: the limiter of a die acts at a step boundary. -/
def execSlewStep (die : Nat) (s : State) : Host.Outcome State Fault Refusal :=
  .next (if s.slewDue die then s.slewStep die else s)

/-- Every limiter at a clock: it acts at each boundary, and at no other time (R282). -/
def State.slewAll (s : State) : State :=
  (List.range 6).foldl (fun s die => if s.slewDue die then s.slewStep die else s) s

/-- R267: the engine of a core reaches the head of its queue; MZERO and MCVT start then. -/
def State.reachHead (s : State) (core : Nat) : State :=
  match s.engineHead core with
  | none => s
  | some (i, o) =>
    if o.started.isSome || !s.opStays o then s
    else if o.isMma then
      if o.ready.isSome then s else { s with ops := s.ops.set i { o with ready := some s.clock } }
    else
      match s.startMeets o with
      | some e => s.startFails i o e
      | none => s.startOp core i (if o.kind = .mzero then 4 else 24)
def State.reachHeads (s : State) : State := (s.ops.filterMap (·.core)).eraseDups.foldl (fun s core => s.reachHead core) s

end Sys2Proof.Machine
end

