-- ==== Sys2Proof/Machine/MemoryInstr.lean ====
section
/-!
DEFINITION. Loads, stores and atomics: LD, ST, LDS, STS, ATOM, ATOMS (R233 to R246) and SLDP (R150).
-/

namespace Sys2Proof.Machine

open ElemTy

/-! ### Addresses and places -/

/-- The space of an AS code (R77). -/
def spaceOf (as : BitVec 2) : Space := if as = 0 then .gen else if as = 1 then .spl else .spc

/-- R233: the address in lane `l`, or of a scalar form. -/
def State.memAddr (s : State) (o : Mem) (scalar : Bool) (l : Nat) : Word :=
  let idx : Word :=
    if !o.ixe then 0
    else if scalar then s.sreg (o.idx.toNat % 64)
    else (s.vreg o.idx.toNat l).signExtend 64
  s.sreg o.base.toNat + (idx <<< o.shift.toNat) + o.off.signExtend 64

/-- Bytes of SIZE (R234). -/
def sizeBytes (o : Mem) : Nat := 2 ^ o.size.toNat

/-- A lane's access that passed R235: lane, address, place, scale byte of a formatted page. -/
structure Acc where
  lane : Nat
  addr : Word
  loc : Loc
  scale : Nat
deriving DecidableEq, Repr, Inhabited

/-- FMT of the place. -/
def Loc.fmt : Loc → Nat
  | .phys f => f.fmt
  | .pad _ _ => 0

/-- Check the access of one lane (R235); the scale byte of a formatted page is read on the way (R221 order 6). -/
def State.checkAcc (s : State) (sp : Space) (l : Nat) (a : Word) (q : Need) : Except Exn (Acc × State) := do
  let loc ← s.resolve sp a { q with lane := l }
  match loc with
  | .pad _ _ => .ok (⟨l, a, loc, 127⟩, s)
  | .phys f =>
    let k ← if f.fmt = 0 then .ok (127, s) else s.scaleLoad a f l
    let n := { q with lane := l }.bytes f
    if isPool f.pa && !s.poolUp then .error (.trap tPoolLost l a 9)
    else if q.rd && (if q.atomic && f.pol == 0 then k.2.anyPoison f.pa n else k.2.loadPoison f.pol f.pa n) then
      .error (.trap tPoison l a 7)
    else .ok (⟨l, a, loc, k.1⟩, k.2)

/-- Check the accesses of the lanes, ascending: the first fault is that of the lowest lane (R219). -/
def State.checkAll (s : State) (sp : Space) (addr : Nat → Word) (q : Need) : List Nat → Except Exn (List Acc × State)
  | [] => .ok ([], s)
  | l :: ls => do
    let x ← s.checkAcc sp l (addr l) q
    let xs ← x.2.checkAll sp addr q ls
    .ok (x.1 :: xs.1, xs.2)

/-! ### Pool accesses in flight (R391) -/

/-- The access misses in the Folend, or meets a line still on its way, and goes to the pool. -/
def State.inFlight (s : State) (loc : Loc) : Bool :=
  match loc with
  | .phys f =>
    let ln := f.pa / 128
    isPool f.pa
      && (f.pol == 2
        || if s.inL2 ln then decide (s.clock < (s.tag ln).due)
          else if f.pol = 0 then (s.copyFor ln).isNone else (s.streamCopy ln).isNone)
  | .pad _ _ => false

/-- A code word that a load in flight will write: a lost or poisoned one stays so (R385); of the lanes of one load, the lowest
gives the address (R391). -/
def WordSt.await (addr due : Nat) (atomic : Bool) : WordSt → WordSt
  | .poison => .poison
  | .lost a b => .lost a b
  | .clean => .coming addr due atomic
  | .coming a d b => if d = due then .coming a d b else .coming addr due atomic
/-- The code words that the loads in flight will write are due later (R391). -/
def State.markComing (s : State) (d words : Nat) (xs : List Acc) (atomic : Bool) : State :=
  xs.foldl (fun s x =>
    s.modRegs fun r =>
      { r with vst := (List.range words).foldl (fun m j =>
          Cells.update .clean m (3 * (d + j) + x.lane / 32) (.await x.addr.toNat (s.clock + poolFlight) atomic)) r.vst }) s
/-- The same for a scalar. -/
def State.markComingS (s : State) (d : Nat) (a : Word) (atomic : Bool) : State :=
  if d = 0 ∨ 60 < d then s
  else s.modRegs fun r => { r with sst := Cells.set .clean r.sst d (.coming a.toNat (s.clock + poolFlight) atomic) }

/-- Note a pool store or `.nr` atomic in flight (R391). -/
def State.owe (s : State) (a : Word) (loc : Loc) (atomic : Bool) : State :=
  match loc with
  | .pad _ _ => s
  | .phys f =>
    let add (l : List Owed) : List Owed :=
      l.filter (fun w => w.lost || decide (s.clock < w.due)) ++ [⟨a, f.pa, s.clock + poolFlight, atomic, (s.stamp (f.pa / 128)).1, false⟩]
    match s.cur with
    | .none => s
    | .course c _ => s.modCourse c fun x => { x with owed := add x.owed }
    | .lane q => s.modLane q fun x => { x with owed := add x.owed }

/-! ### LD and ST -/

/-- Registers D to D + `words` − 1 take a value of `words` × 32 bits in each lane. -/
def State.setWide (s : State) (d words : Nat) (vals : List (Nat × Nat)) : State :=
  (List.range words).foldl (fun s j =>
    s.setV (d + j) (vals.map fun e => (e.1, (BitVec.ofNat 32 (e.2 / 2 ^ (32 * j)) : Lane32)))) s
/-- The value of registers D to D + `words` − 1 in a lane. -/
def State.getWide (s : State) (d words l : Nat) : Nat :=
  (List.range words).foldl (fun n j => n + (s.vreg (d + j) l).toNat * 2 ^ (32 * j)) 0

/-- Registers of an access. -/
def sizeWords (o : Mem) : Nat := max 1 (sizeBytes o / 4)

/-- What LD and ST need of a place (R234, R236). -/
def memNeed (o : Mem) (wr : Bool) : Need :=
  { n := sizeBytes o, rd := !wr, wr := wr
    elems := if o.ty == f32 || o.ty == bf16x2 || o.ty == f16x2 then some (tyElems o.ty) else none }

/-- The value that LD writes from a place, with flags (R236, R238). -/
def State.loadValue (s : State) (o : Mem) (x : Acc) : Except Exn ((Nat × BitVec 6) × State) :=
  if x.loc.fmt = 0 then do
    let bs ← s.readLoc o.hint.toNat x.loc (sizeBytes o)
    let v := leNat bs.1
    .ok ((if o.ty == i32 then wrapInt 32 (intOf true (8 * sizeBytes o) v) else v, 0), bs.2)
  else do
    let bs ← s.readLoc o.hint.toNat x.loc (tyElems o.ty * fmtBytes x.loc.fmt)
    let rs := (codesOf x.loc.fmt bs.1).map fun c => decodeElem x.loc.fmt ((formatOfTy o.ty).getD .f32) c x.scale
    .ok ((packElems (elemBits o.ty) (rs.map (·.1)), rs.foldl (fun a e => a ||| e.2) 0), bs.2)

/-- A lane's load: its access, value and flags, and that it goes to the pool. -/
structure Loaded where
  acc : Acc
  value : Nat
  flags : BitVec 6
  away : Bool
deriving DecidableEq, Repr, Inhabited

/-- The loads of the lanes, ascending, each checked and then performed (R219, R237). -/
def State.loadAll (s : State) (o : Mem) : List Nat → Except Exn (List Loaded × State)
  | [] => .ok ([], s)
  | l :: ls => do
    let x ← s.checkAcc (spaceOf o.as) l (s.memAddr o false l) (memNeed o false)
    let v ← x.2.loadValue o x.1
    let rest ← v.2.loadAll o ls
    .ok (⟨x.1, v.1.1, v.1.2, x.2.inFlight x.1.loc⟩ :: rest.1, rest.2)

def execLd (o : Mem) (s : State) : Host.Outcome State Fault Refusal :=
  seqInstr (.ld o) (fun t => do
    let xs ← t.loadAll o (Mask.list (t.acted o.g))
    let t1 := xs.2.setWide o.d.toNat (sizeWords o) (xs.1.map fun x => (x.acc.lane, x.value))
    let flags (p : Loaded → Bool) : BitVec 6 := (xs.1.filter p).foldl (fun a x => a ||| x.flags) 0
    let t2 := (t1.orFlags (flags fun x => !x.away)).modRegs fun r => r.addLate t.clock (t.clock + poolFlight) (flags (·.away))
    let t3 := t2.markComing o.d.toNat (sizeWords o) ((xs.1.filter (·.away)).map (·.acc)) false
    .ok (if o.ord = 2 then t3.acquire o.scope.toNat else t3)) s

/-- A WB store that was just made is in flight: its line is still on its way to L2 (R391). One that allocates no line is performed
at once. -/
def State.storeFlies (s : State) : Loc → Bool
  | .phys f => isPool f.pa && f.pol == 0 && s.inL2 (f.pa / 128) && decide (s.clock < (s.tag (f.pa / 128)).due)
  | .pad _ _ => false

/-- Write the bytes of the lanes, ascending (R237). -/
def State.storeAll (s : State) (hint : Nat) : List (Acc × List Byte) → Except Exn State
  | [] => .ok s
  | (x, bs) :: rest => do
    let t ← s.writeLoc hint x.loc bs
    let u := if t.storeFlies x.loc then t.owe x.addr x.loc false else t
    u.storeAll hint rest

/-- The bytes that ST stores in each lane, and flags (R236, R238). -/
def State.storeBytesOf (s : State) (o : Mem) (xs : List Acc) : List (Acc × List Byte) × BitVec 6 :=
  let q := tyElems o.ty
  let value (l : Nat) : Nat := s.getWide o.d.toNat (sizeWords o) l
  let leafOf (x : Acc) : Leaf := match x.loc with
    | .phys f => f
    | .pad _ _ => default
  let enc : List PageResult := xs.flatMap fun x =>
    if x.loc.fmt = 0 then []
    else (List.range q).map fun j =>
      (q * x.lane + j, encodePre x.loc.fmt o.ty (elem o.ty (value x.lane) j) x.scale, (leafOf x).rnd, (leafOf x).sat)
  let done := finishPages s.regs.srseed.toNat enc
  (xs.map fun x =>
    if x.loc.fmt = 0 then (x, natLe (sizeBytes o) (value x.lane))
    else (x, (List.range q).flatMap fun j =>
      natLe (fmtBytes x.loc.fmt) (((done.find? fun e => e.1 == q * x.lane + j).map fun e => e.2.1).getD 0)),
   done.foldl (fun a e => a ||| e.2.2) 0)

def execSt (o : Mem) (s : State) : Host.Outcome State Fault Refusal :=
  seqInstr (.st o) (fun t => do
    let xs ← t.checkAll (spaceOf o.as) (t.memAddr o false) (memNeed o true) (Mask.list (t.acted o.g))
    let w := t.storeBytesOf o xs.1
    let u := xs.2.orFlags w.2
    if o.ord = 1 then ((u.release o.scope.toNat).storeAll o.hint.toNat w.1).map fun u => u.performAt o.scope.toNat
    else u.storeAll o.hint.toNat w.1) s

/-! ### LDS, STS and SLDP -/

/-- A scalar load of `n` bytes at `a`, extended by the type (R150, R239). -/
def State.scalarLoad (s : State) (sp : Space) (hint : Nat) (a : Word) (n : Nat) (t : ElemTy) (d : Nat) : Except Exn State := do
  let x ← s.checkAcc sp 127 a { n := n }
  let bs ← x.2.readLoc hint x.1.loc n
  let v := leNat bs.1
  let u := bs.2.setS d (BitVec.ofNat 64 (if signedTy t then wrapInt 64 (intOf true (8 * n) v) else v))
  .ok (if s.inFlight x.1.loc then u.markComingS d a false else u)

def execLds (o : Mem) (s : State) : Host.Outcome State Fault Refusal :=
  seqInstr (.lds o) (fun t => do
    let u ← t.scalarLoad (spaceOf o.as) o.hint.toNat (t.memAddr o true 0) (sizeBytes o) o.ty (o.d.toNat % 64)
    .ok (if o.ord = 2 then u.acquire o.scope.toNat else u)) s

def execSts (o : Mem) (s : State) : Host.Outcome State Fault Refusal :=
  seqInstr (.sts o) (fun t => do
    let x ← t.checkAcc (spaceOf o.as) 127 (t.memAddr o true 0) { n := sizeBytes o, rd := false, wr := true }
    let w := [(x.1, natLe (sizeBytes o) (t.sreg (o.d.toNat % 64)).toNat)]
    if o.ord = 1 then ((x.2.release o.scope.toNat).storeAll o.hint.toNat w).map fun u => u.performAt o.scope.toNat
    else x.2.storeAll o.hint.toNat w) s

def execSldp (o : S3) (s : State) : Host.Outcome State Fault Refusal :=
  seqInstr (.sldp o) (fun t =>
    let off : Word := match o.b with
      | .imm v => v.signExtend 64
      | .reg _ | .regWide _ => 0
    t.scalarLoad .gen 0 (s.pc + off) (2 ^ o.sub.toNat) o.ty o.d.toNat) s

/-! ### Atomics (R243 to R246) -/

/-- The new value of an atomic from the old one, the operand and the second operand; flags of `.fadd`. -/
def atomNew (op : Nat) (t : ElemTy) (old a b : Nat) : Nat × BitVec 6 :=
  let w := elemBits t
  match op with
  | 0 => ((old + a) % 2 ^ w, 0)
  | 1 => (minNat w (signedTy t) old a, 0)
  | 2 => (maxNat w (signedTy t) old a, 0)
  | 3 => (Nat.land old a, 0)
  | 4 => (Nat.lor old a, 0)
  | 5 => (Nat.xor old a, 0)
  | 6 => (a, 0)
  | 7 => (if old = a then b else old, 0)
  | _ =>
    let r := Ext.add false (elemExt f32 old) (elemExt f32 a)
    FF.f32.round 0 false r.2 r.1

/-- What an atomic needs of a place (R245). -/
def atomNeed (o : Mem) : Need := { n := sizeBytes o, wr := true, atomic := true }

/-- What an atomic reads at a place (R245). -/
def State.atomRead (s : State) (loc : Loc) (n : Nat) : List Byte × State :=
  match loc with
  | .pad b off => s.loadPad b off n
  | .phys f => s.readHere f.pol f.pa n

/-- The atomics of the lanes, ascending, each on what the one before left: the old values by lane (R245). `arg` gives a
lane's operands. -/
def State.atomAll (s : State) (o : Mem) (arg : Nat → Nat × Nat) : List Acc → Except Exn (State × List (Nat × Nat))
  | [] => .ok (s, [])
  | x :: xs => do
    let bs := s.atomRead x.loc (sizeBytes o)
    let old := leNat bs.1
    let r := atomNew (o.sub.toNat % 16) o.ty old (arg x.lane).1 (arg x.lane).2
    let t ← bs.2.writeLoc 0 x.loc (natLe (sizeBytes o) r.1)
    let t1 := t.orFlags r.2
    let t2 := if o.sub.getLsbD 4 && x.loc.pooled && decide (4 ≤ o.scope.toNat) then t1.owe x.addr x.loc true else t1
    let rest ← t2.atomAll o arg xs
    .ok (rest.1, (x.lane, old) :: rest.2)

/-- A release before the accesses of an atomic (R241); its own performance at its scope (R246) and an acquire after
them (R242). -/
def State.beforeAtom (s : State) (o : Mem) : State := if o.ord = 1 then s.release o.scope.toNat else s
def State.afterAtom (s : State) (o : Mem) : State :=
  let t := s.performAt o.scope.toNat
  if o.ord = 2 then t.acquire o.scope.toNat else t

def execAtom (o : Mem) (s : State) : Host.Outcome State Fault Refusal :=
  seqInstr (.atom o) (fun t => do
    let w := sizeWords o
    let xs ← t.checkAll (spaceOf o.as) (t.memAddr o false) (atomNeed o) (Mask.list (t.acted o.g))
    let r ← (xs.2.beforeAtom o).atomAll o (fun l => (t.getWide o.d.toNat w l, t.getWide (o.d.toNat + w) w l)) xs.1
    let u := r.1.afterAtom o
    if o.sub.getLsbD 4 then .ok u
    else
      .ok ((u.setWide o.d.toNat w r.2).markComing o.d.toNat w
        (xs.1.filter fun x => x.loc.pooled && decide (4 ≤ o.scope.toNat)) true)) s

def execAtoms (o : Mem) (s : State) : Host.Outcome State Fault Refusal :=
  seqInstr (.atoms o) (fun t => do
    let d := o.d.toNat % 64
    let a := t.memAddr o true 0
    let x ← t.checkAcc (spaceOf o.as) 127 a (atomNeed o)
    let r ← (x.2.beforeAtom o).atomAll o (fun _ => (lowBitsOf o.ty (t.sreg d), lowBitsOf o.ty (t.sreg (d + 1)))) [x.1]
    let u := r.1.afterAtom o
    if o.sub.getLsbD 4 then .ok u
    else
      let v := u.setS d (widen o.ty ((r.2.headD (0, 0)).2))
      .ok (if x.1.loc.pooled && decide (4 ≤ o.scope.toNat) then v.markComingS d a true else v)) s

end Sys2Proof.Machine
end

