-- ==== Sys2Proof/Machine/CopyBatch.lean ====
section
/-!
DEFINITION. Copies, batches, sync words, fences and cache operations: CPY, CPYG, BSEAL, BWAIT, SWINIT, FENCE, CPF, CWB,
CINV, ICINV (R227 to R231, R247 to R256), and the steps of the copy engine.
-/

namespace Sys2Proof.Machine

open ElemTy

/-! ### Issuing a copy (R247, R248, R250) -/

/-- The chunks of a row from byte `off` (R227): split at every 4 KiB boundary of the source, and of a raw copy's
destination. -/
def splitRow (src dst : Word) (raw : Bool) (n : Nat) : Nat → Nat → List Chunk
  | 0, _ => []
  | fuel + 1, off =>
    let k0 := min (n - off) (4096 - (src + BitVec.ofNat 64 off).toNat % 4096)
    let k := if raw then min k0 (4096 - (dst + BitVec.ofNat 64 off).toNat % 4096) else k0
    if n ≤ off then [] else { src := src, dst := dst, off := off, n := k } :: splitRow src dst raw n fuel (off + k)

/-- A sync word's offset is aligned and within the block's scratchpad (R248, R253). -/
def State.checkSync (s : State) (off : Word) : Except Exn Nat :=
  let b := (s.course s.curCourse).block
  if off.toNat % 16 ≠ 0 then .error (trapC tMisaligned off)
  else if (s.block b).spSize < off.toNat + 16 then .error (trapC tScratch off)
  else .ok off.toNat

/-- Copies queued on a core's engine (R227). -/
def State.copiesOn (s : State) (core : Nat) : Nat := (s.copies.filter fun y => y.core == core).length

/-- Enqueue a copy of the rows given as source and destination addresses, in the open batch. -/
def State.enqueueCopy (s : State) (o : Cp) (rows : List (Word × Word)) : Except Exn State := do
  let c := s.curCourse
  let sync ← if o.sw = 0 then .ok none else (s.checkSync (s.sreg o.sw.toNat)).map some
  if 64 ≤ s.copiesOn (s.coreOf c) then .error .stall
  else
    let raw := o.sub == 0
    .ok { s with
      copies := s.copies ++ [{
        course := c, core := s.coreOf c, batch := (s.course c).openBatch, srcSp := spaceOf o.sas, dstSp := spaceOf o.das, rowb := o.rowb.toNat
        todo := rows.flatMap fun e => splitRow e.1 e.2 raw o.rowb.toNat 40 0
        sync := sync, dec := if raw then none else some o.ty, scope := o.scope.toNat, hint := o.hint.toNat }] }

/-- n strides. -/
def strides (n : Nat) (v : Word) : Word := BitVec.ofNat 64 n * v

def execCpy (o : Cp) (s : State) : Host.Outcome State Fault Refusal :=
  seqInstr (.cpy o) (fun t =>
    t.enqueueCopy o ((List.range o.rows.toNat).map fun r =>
      (t.sreg o.sb.toNat + strides r (t.sreg o.sstr.toNat), t.sreg o.db.toNat + strides r (t.sreg o.dstr.toNat)))) s

def execCpyg (o : Cp) (s : State) : Host.Outcome State Fault Refusal :=
  seqInstr (.cpyg o) (fun t =>
    let ls := Mask.list (t.acted o.g)
    if ls.isEmpty then .ok t
    else
      t.enqueueCopy o (ls.zipIdx.flatMap fun e =>
        (List.range o.rows.toNat).map fun j =>
          (t.sreg o.sb.toNat + strides ((t.vreg o.idx.toNat e.1).toNat + j) (t.sreg o.sstr.toNat),
            t.sreg o.db.toNat + strides (e.2 * o.rows.toNat + j) (t.sreg o.dstr.toNat)))) s

/-! ### Performing a chunk (R227, R231, R249) -/

/-- Divide `n` bytes at `a` at 4 KiB boundaries. -/
def pagePieces (a : Word) : Nat → Nat → List (Word × Nat)
  | 0, _ => []
  | fuel + 1, n =>
    let k := min n (4096 - a.toNat % 4096)
    if n = 0 then [] else (a, k) :: pagePieces (a + BitVec.ofNat 64 k) fuel (n - k)

/-- Check an access of a copy engine for course `c` up to R235 order 9 (R248): IO pages are refused, formatted pages pass as
codes. -/
def State.copyLoc (s : State) (c : Nat) (sp : Space) (a : Word) (n : Nat) (wr : Bool) : Except Exn Loc :=
  let q : Need := { n := n, rd := !wr, wr := wr, align := some 0, raw := true }
  if sp == .gen then
    match s.walkChecked (s.ctxOf c) (s.launchIx c) a q with
    | .error e => .error e
    | .ok f =>
      if f.pol = 3 then .error (trapC tProtection a 8)
      else s.resolveGen (s.ctxOf c) (s.launchIx c) a q
  else s.resolvePad (s.course c).block sp a q

/-- The places of a span given in pieces: those that a chunk under way has already, or as translation gives them now (R220). -/
def State.spanLocs (s : State) (c : Nat) (sp : Space) (wr : Bool) (kept : Option Span) (ps : List (Word × Nat)) : Except Exn Span :=
  match kept with
  | some ls => .ok ls
  | none => ps.mapM fun e => (s.copyLoc c sp e.1 e.2 wr).map fun l => (l, e.2)
/-- R235 orders 10 and 11 of a span. -/
def State.spanReach (s : State) (y : Copy) (wr : Bool) (ps : List (Word × Nat)) (ls : Span) : Except Exn Unit :=
  (collect ((ps.zip ls).map fun e =>
    s.reach y.course (e.2.1.far y.scope) e.1.1 { n := e.2.2, rd := !wr, wr := wr, raw := true } e.2.1)).map fun _ => ()

/-- A byte that chunk number `mine` of copy `y` writes at a place: through L2, as HINT says on a miss (R223, R247); under STREAM in
its course's copy there. -/
def State.engineStore (s : State) (y : Copy) (mine : Option Nat) (v : Byte) : Loc → State
  | .pad b off =>
    let r := s.raceShadows (.course y.course 0) 0 mine (.pad b off) [v]
    r.2.storePad b off r.1
  | .phys f =>
    let ln := f.pa / 128
    let r := s.raceShadows (.course y.course 0) f.pol mine (.phys f.pa) [v]
    let t := r.2.fillAt (dieOf y.core) y.hint ln 0
    let v := r.1.headD v
    if f.pol = 2 then r.2.setMemByte f.pa v
    else if f.pol = 1 then t.as (.course y.course 0) fun t => t.putStream false y.hint f.pa [v]
    else if t.inL2 ln then
      let u := t.setWbByte f.pa v
      { u with tags := Cells.update {} u.tags ln fun g => { g with due := 0, die := dieOf y.core } }
    else { t.setMemByte f.pa v with stamps := Cells.set (0, 0) t.stamps ln (t.nextStamp ln, t.nextStamp ln) }

/-- The bytes of a span, one by one. -/
def spanBytes : Span → List Loc
  | [] => []
  | (l, n) :: rest => (List.range n).map l.shift ++ spanBytes rest
/-- The bytes at places that are no device registers, as copy `y` reads them. -/
def State.spanRead (s : State) (y : Copy) (ls : Span) : List Byte := (spanBytes ls).map fun l => s.engineByte y.course (l.far y.scope) l
/-- Write those bytes of a span whose number `p` holds of. -/
def State.spanWrite (s : State) (y : Copy) (mine : Option Nat) (p : Nat → Bool) (ls : Span) (bs : List Byte) : State :=
  (((spanBytes ls).zip bs).zipIdx.filter fun e => p e.2).foldl (fun s e => s.engineStore y mine e.1.2 e.1.1) s
/-- What of `n` bytes at an address lies in a line. -/
def inLine (pa n ln : Nat) : Nat × Nat := (max pa (128 * ln), min (pa + n) (128 * ln + 128) - max pa (128 * ln))
/-- Granules and words written whole are no longer poisoned (R387), of a STREAM page in the course's copy. -/
def State.spanCover (s : State) (c : Nat) (ls : Span) : State :=
  ls.foldl (fun s e =>
    match e.1 with
    | .phys f =>
      ((List.range e.2).map fun i => (f.pa + i) / 128).eraseDups.foldl (fun s ln =>
        let q := inLine f.pa e.2 ln
        let sound (g : Nat) : Bool := (wholeGranules q.1 q.2).contains g
        match (if f.pol = 1 then { s with cur := Agent.course c 0 }.streamCopy ln else none) with
        | some x => s.setStream { x with bad := (x.bad.1 && !sound (2 * ln), x.bad.2 && !sound (2 * ln + 1)) }
        | none => s.coverPoison f.pol q.1 q.2) s
    | .pad b off => s.modBlock b fun x =>
      { x with spPoison := x.spPoison.filter fun w => !(decide (off ≤ 4 * w.1) && decide (4 * w.1 + 4 ≤ off + e.2)) }) s
/-- The lines of a span that the order of R285 places: of WB pages, and of STREAM pages where the copy writes them back at its
scope. -/
def Copy.orderedLines (y : Copy) (ls : Span) : List Nat :=
  (ls.flatMap fun e =>
    match e.1 with
    | .phys f => if f.pol = 0 ∨ (f.pol = 1 ∧ isFar y.scope f.pa) then e.1.lines e.2 else []
    | .pad _ _ => []).eraseDups
/-- The latest timestamp of stores to a span, and those lines. -/
def State.spanStamp (s : State) (y : Copy) (ls : Span) : Nat × List Nat :=
  let pads := ls.foldl (fun t e => match e.1 with | .pad b off => max t (s.padStamp b off e.2).1 | .phys _ => t) 0
  ((y.orderedLines ls).foldl (fun t ln => max t (s.stamp ln).1) pads, y.orderedLines ls)
/-- R248: what a copy at POOL or SYSTEM scope wrote to the pooled tier and to host memory is performed there. -/
def State.spanPerform (s : State) (y : Copy) (ls : Span) : State :=
  ((y.orderedLines ls).foldl (fun s ln =>
    match { s with cur := Agent.course y.course 0 }.streamCopy ln with
    | some x => if isFar y.scope (128 * ln) then s.writeStream x else s
    | none => s) s).performAt y.scope

/-- What a chunk writes: where it reads and writes, the bytes and flags of each unit, the lines that its reads bring into L2, and
what of it lies behind a 4 KiB boundary of the destination. -/
structure ChunkPlan where
  src : Span
  locs : Span
  units : List (List Byte × BitVec 6)
  lines : List Nat
  rest : Option Chunk := none
deriving DecidableEq, Repr, Inhabited
/-- Bytes that it counts. -/
def ChunkPlan.bytes (p : ChunkPlan) : List Byte := p.units.flatMap (·.1)
/-- Bytes of a unit. -/
def ChunkPlan.width (p : ChunkPlan) : Nat := max 1 (p.units.headD ([], 0)).1.length
/-- The places that a chunk under way has. -/
def Chunk.kept (h : Chunk) (f : Span × Span → Span) : Option Span := if h.begun then some (f h.places) else none
/-- The lines that reads of a span bring into L2. -/
def nearLines (scope : Nat) (ls : Span) : List Nat := (ls.flatMap fun e => if e.1.far scope then [] else e.1.lines e.2).eraseDups

/-- A raw chunk. -/
def State.rawChunk (s : State) (y : Copy) (h : Chunk) : Except Exn ChunkPlan := do
  let from' := pagePieces (h.src + BitVec.ofNat 64 h.off) 3 h.n
  let src ← s.spanLocs y.course y.srcSp false (h.kept (·.1)) from'
  s.spanReach y false from' src
  let dest := pagePieces (h.dst + BitVec.ofNat 64 h.off) 3 h.n
  let dst ← s.spanLocs y.course y.dstSp true (h.kept (·.2)) dest
  s.spanReach y true dest dst
  .ok { src := src, locs := dst, units := (s.spanRead y src).map fun v => ([v], 0), lines := nearLines y.scope src }

/-- The leaf of a place. -/
def Loc.leaf : Loc → Option Leaf
  | .phys f => some f
  | .pad _ _ => none
/-- A decoding chunk, up to the next 4 KiB boundary of the destination, each element with its scale byte (R249). -/
def State.decChunk (s : State) (y : Copy) (h : Chunk) (t : ElemTy) : Except Exn ChunkPlan := do
  let a := h.src + BitVec.ofNat 64 h.off
  let src ← if y.srcSp != .gen then .ok [] else s.spanLocs y.course .gen false (h.kept (·.1)) [(a, h.n)]
  match src.head?.bind fun e => e.1.leaf with
  | none => .error (trapC tFormat a 6)
  | some f =>
    let e := fmtBytes f.fmt
    if f.fmt = 0 ∨ y.rowb % e ≠ 0 ∨ h.src.toNat % e ≠ 0 then .error (trapC tFormat a 6)
    else
      let dst := (formatOfTy t).getD .f32
      let d := dst.width / 8
      let b := h.dst + BitVec.ofNat 64 (h.off / e * d)
      let k := max 1 (min (h.n / e) ((4096 - b.toNat % 4096) / d))
      let from' := [(Loc.phys f, k * e)]
      let scales ← s.elemScales y.course (isFar y.scope f.pa) a (k * e) f k
      let dest := pagePieces b 3 (k * d)
      let locs ← s.spanLocs y.course y.dstSp true (h.kept (·.2)) dest
      if locs.any fun l => l.1.fmt != 0 then .error (trapC tFormat b 6)
      else
        s.spanReach y true dest locs
        let units := ((codesOf f.fmt (s.spanRead y from')).zip scales).map fun c =>
          let r := decodeElem f.fmt dst c.1 c.2.1
          (natLe d r.1, r.2)
        .ok { src := from', locs := locs, units := units
              lines := (nearLines y.scope from' ++ scales.filterMap (·.2)).eraseDups
              rest := if k * e < h.n then some { src := h.src, dst := h.dst, off := h.off + k * e, n := h.n - k * e } else none }

/-- What chunk `h` of copy `y` writes, or the fault it meets. -/
def State.planChunk (s : State) (y : Copy) (h : Chunk) : Except Exn ChunkPlan :=
  match y.dec with
  | none => s.rawChunk y h
  | some t => s.decChunk y h t

/-- Chunks of the copy may begin: it has not ended, no page fault stops it, its region has energy and its context is not
lost; a copy continues while its context is suspended (R231, R352, R357, R361). -/
def State.copyRuns (s : State) (y : Copy) : Bool :=
  y.page.isNone && y.ended.isNone && (s.ctx (s.ctxOf y.course)).st != .lost && !s.quotaStopped 9 (s.launchOf y.course).region

/-- The copy in place `i` becomes `y`, which leaves once no chunk of it is left: a copy that ended then marks its sync word
and its batch, and the batch may be done (R230, R231, R249, R352). -/
def State.putCopy (s : State) (i : Nat) (y : Copy) : State :=
  if y.todo.isEmpty then
    let s1 := { s with copies := s.copies.eraseIdx i }
    let s2 := match y.ended with
      | some (code, addr) => s1.dropCopy y code addr
      | none => s1.modCourse y.course fun x =>
        { x with lateFlags := if y.flags = 0 then x.lateFlags else x.lateFlags ++ [(y.batch, y.flags)] }
    s2.recheckBatches y.course
  else { s with copies := s.copies.set i y }

/-- A chunk's unsettled writes are settled or given up. -/
def State.dropShadows (s : State) (h : Chunk) : State := { s with shadows := s.shadows.filter fun x => some x.mark != h.mark }

/-- R231: copy `i` ends with a fault, of its chunk `k` or of none: that chunk and those that have not begun are lost. -/
def State.failCopy (s : State) (i : Nat) (k : Option Nat) (code : Nat) (addr : Word) : State :=
  match s.copies[i]? with
  | none => s
  | some y =>
    let todo := match k with | some k => y.todo.eraseIdx k | none => y.todo
    let s1 := match k with | some k => s.dropShadows (y.todo.getD k default) | none => s
    s1.putCopy i { y with todo := todo.filter Chunk.begun, page := none, ended := some (y.ended.getD (code, addr)) }

/-- Chunks under way on a core (R227). -/
def State.chunksBegun (s : State) (core : Nat) : Nat :=
  s.copies.foldl (fun n y => if y.core == core then n + (y.todo.filter Chunk.begun).length else n) 0
/-- A chunk of the copy may begin: the engine performs up to 8 at once (R227). -/
def State.mayStart (s : State) (y : Copy) : Bool := s.copyRuns y && decide (s.chunksBegun y.core < 8)
/-- The outcome of chunk `k` of copy `i`, where both exist, and the chunk is under way or may begin. -/
def State.chunkOutcome (s : State) (i k : Nat) : Option (Copy × Chunk × Except Exn ChunkPlan) :=
  match s.copies[i]? with
  | none => none
  | some y =>
    match y.todo[k]? with
    | none => none
    | some h => if h.begun || s.mayStart y then some (y, h, s.planChunk y h) else none

/-- A copy's reads bring lines into L2, as HINT says on a miss (R213, R223, R247). -/
def State.fillSource (s : State) (y : Copy) (q : ChunkPlan) : State :=
  q.lines.foldl (fun s ln => s.fillAt (dieOf y.core) y.hint ln 0) s
/-- The chunk with number `mine` writes the units of its plan that `p` names. -/
def State.writeUnits (s : State) (y : Copy) (mine : Option Nat) (q : ChunkPlan) (p : Nat → Bool) : State :=
  s.spanWrite y mine (fun j => p (j / q.width)) q.locs q.bytes

/-- Chunk `k` of copy `i` may write some of its bytes before it completes. -/
def State.mayBegin (s : State) (i k : Nat) : Bool :=
  match s.chunkOutcome i k with
  | some (_, h, .ok _) => !h.begun
  | _ => false

/-- The bytes that chunk `mark` writes early show to loads with it or without it (R299). -/
def State.castShadows (s : State) (y : Copy) (mark : Nat) (q : ChunkPlan) (p : Nat → Bool) : State :=
  let news := q.bytes.zipIdx.map fun e => if p (e.2 / q.width) then some e.1 else none
  let step (acc : State × Nat) (e : Loc × Nat) : State × Nat :=
    let (spot, pol) := match e.1 with | .pad b off => (Spot.pad b off, 0) | .phys f => (.phys f.pa, f.pol)
    let x : Shadow :=
      { spot := spot, pol := pol, who := .course y.course 0, new := (news.drop acc.2).take e.2, old := s.spanRead y [e], mark := mark }
    ({ acc.1 with shadows := acc.1.shadows ++ [x] }, acc.2 + e.2)
  (q.locs.foldl step (s, 0)).1
/-- Chunk `k` of copy `i` is under way: it reads and writes some of its units, and counts none (R227, R299); what lies behind a
boundary of the destination is another chunk. -/
def State.beginChunk (s : State) (i k : Nat) : State :=
  match s.chunkOutcome i k with
  | some (y, h, .ok q) =>
    if !s.mayBegin i k then s
    else
      let early := (List.range q.units.length).map fun j => Config.pick s.fresh j
      let p (j : Nat) : Bool := early.getD j false
      let flags := (q.units.zipIdx.filter fun e => p e.2).foldl (fun f e => f ||| e.1.2) 0
      let mark := s.fresh
      let s1 := (((({ s with fresh := s.fresh + 1 }).fillSource y q).castShadows y mark q p).writeUnits y (some mark) q p)
      let n := match q.rest with | some r => h.n - r.n | none => h.n
      let h' := { h with n := n, early := early, flags := flags, mark := some mark, places := (q.src, q.locs) }
      { s1 with copies := s1.copies.set i { y with todo := y.todo.set k h' ++ q.rest.toList } }
  | _ => s

/-- Chunk `h` of copy `y` writes what it has not written yet; GEN accesses at POOL or SYSTEM scope are performed there before
it counts (R248). -/
def State.writeChunk (s : State) (y : Copy) (h : Chunk) (q : ChunkPlan) : State :=
  ((((s.fillSource y q).writeUnits y h.mark q fun j => !h.early.getD j false).spanCover y.course q.locs).dropShadows h).spanPerform y
    q.locs
/-- The copy without its chunk `k`, which is complete, but for what lies behind a boundary. -/
def Copy.without (y : Copy) (k : Nat) (h : Chunk) (q : ChunkPlan) : Copy :=
  let late := (q.units.zipIdx.filter fun e => !h.early.getD e.2 false).foldl (fun f e => f ||| e.1.2) h.flags
  { y with
    todo := match q.rest with
      | some r => y.todo.set k r
      | none => y.todo.eraseIdx k
    flags := y.flags ||| late }
/-- A completed chunk waits to be settled by a release, a FENCE or a BWAIT of its course (R299). -/
def State.noteChunk (s : State) (y : Copy) (q : ChunkPlan) : State :=
  let e := s.spanStamp y q.locs
  s.modCourse y.course fun x => { x with chunkTimes := x.chunkTimes ++ [(y.batch, e.1, e.2)] }

/-- COPY_CHUNK_DONE: the chunk's writes, then its count in the sync word (R227, R229, R301). -/
def execCopyChunkDone (i chunk : Nat) (s : State) : Host.Outcome State Fault Refusal :=
  match s.chunkOutcome i chunk with
  | some (y, h, .ok q) =>
    let s1 := (s.writeChunk y h q).noteChunk y q
    let s2 := match y.sync with
      | some off => s1.syncAdd (s1.course y.course).block off q.bytes.length (s1.spanStamp y q.locs).1
      | none => s1
    .next (s2.putCopy i (y.without chunk h q))
  | _ => .next s

/-- COPY_CHUNK_FAULT: a page fault stops the copy until it is answered; any other fault ends it (R231). -/
def execCopyChunkFault (i chunk : Nat) (s : State) : Host.Outcome State Fault Refusal :=
  match s.chunkOutcome i chunk with
  | some (y, _, .error e) =>
    match y.ended, e with
    | none, .page va kind wr _ _ sc =>
      .next (if y.page.isSome then s else { s with copies := s.copies.set i { y with page := some (va, kind, wr, sc, none) } })
    | _, .trap code _ a _ | _, .page a code _ _ _ _ => .next (s.failCopy i (some chunk) code a)
    | _, _ => .next s
  | _ => .next s

/-! ### Batches (R230, R251, R252) -/

def execBseal (o : Sys) (s : State) : Host.Outcome State Fault Refusal :=
  seqInstr (.bseal o) (fun t =>
    let c := t.curCourse
    let x := t.course c
    if 15 ≤ x.openBatch - x.oldest then .error .stall
    else
      .ok (((t.setS o.d.toNat (BitVec.ofNat 64 (x.openBatch % 65536))).modCourse c fun y =>
        { y with openBatch := y.openBatch + 1 }).recheckBatches c)) s

def execBwait (o : Sys) (s : State) : Host.Outcome State Fault Refusal :=
  instr (.bwait o) (fun t =>
    let c := t.curCourse
    let n := o.imm.toNat
    let next := s.pc + Instr.len (.bwait o)
    let u := t.retireBatches c
    let y := u.course c
    if y.openBatch - y.oldest ≤ n then
      match y.failCounted n with
      | some f => .error (trapC tBatch f.addr (BitVec.ofNat 64 (f.seq % 65536 + f.code * 65536)))
      | none => .ok (u.settleBatches.setPc next)
    else .ok (u.setWait (.batch n) next)) s

/-- SWINIT (R253): TARGET, COUNT and FAULT as one action, a store of the agent in the sequential order. -/
def execSwinit (o : Sys) (s : State) : Host.Outcome State Fault Refusal :=
  seqInstr (.swinit o) (fun t => do
    let off ← t.checkSync (t.sreg o.a.toNat)
    let b := (t.course t.curCourse).block
    let target := if o.x = 1 then o.imm.toNat else (t.sreg o.b.toNat).toNat % 2 ^ 32
    let fl := t.padNat b (off + 12) 4
    let at' := max t.sight.time (t.padStamp b off 16).2
    let u := (t.storePadAt b off (natLe 4 target ++ natLe 4 0) at').storePadAt b (off + 12)
      (natLe 4 (fl - if fl.testBit 1 then 2 else 0)) at'
    .ok (u.notBefore (at' + 1))) s

/-! ### FENCE, cache operations and ICINV (R254 to R256, R92) -/

/-- R254: a FENCE of the executing agent at a scope. -/
def State.fenceAt (s : State) (scope : Nat) : State :=
  (((s.release scope).notBefore s.sight.wrote).acquire scope).fenceStream scope

def execFence (o : Sys) (s : State) : Host.Outcome State Fault Refusal :=
  seqInstr (.fence o) (fun t => .ok (t.fenceAt o.x.toNat)) s

/-- CPF of one line: it comes into L2 and, for `.l1` but not under `.by`, into the agent's L1, with a lease; under `.na` it is held
nowhere (R223, R255, R286). The agent's own time stands. -/
def State.prefetchLine (s : State) (hint : Nat) (l1 : Bool) (f : Leaf) : State :=
  let ln := f.pa / 128
  if hint = 1 ∨ 2 ≤ f.pol then s
  else if f.pol = 1 then
    if l1 && hint != 2 && (s.streamCopy ln).isNone then (s.fillL2 hint ln).setStream (s.newStream true hint ln) else s.fillL2 hint ln
  else
    let st := s.stamp ln
    let lease := max st.2 (st.1 + Config.lease s.fresh)
    let e : Held :=
      { cache := s.cacheOf, line := ln, bytes := s.lineBytes ln, bad := s.lineBad ln, wts := st.1, lease := lease, born := s.tick
        first := hint == 3, ctx := s.ctxOf s.curCourse }
    let s1 := { s.fillL2 hint ln with stamps := Cells.set (0, 0) s.stamps ln (st.1, lease), fresh := s.fresh + 1 }
    let s2 := if l1 && hint != 2 && (s.copyFor ln).isNone then s1.hold e else s1
    if s.partitioned then s2.hold { e with cache := dieCache (dieOf s.cacheOf) } else s2

/-- CPF: a lane whose access would fault is dropped (R255). -/
def execCpf (o : Mem) (s : State) : Host.Outcome State Fault Refusal :=
  seqInstr (.cpf o) (fun t =>
    .ok ((Mask.list (t.acted o.g)).foldl (fun u l =>
      match u.walkChecked (u.ctxOf u.curCourse) (u.launchIx u.curCourse) (u.memAddr o false l) { n := 1, lane := l } with
      | .ok f => if isPool f.pa && !u.poolUp then u else u.prefetchLine o.hint.toNat (o.sub == 0) f
      | .error _ => u) t)) s

/-- The lines that a cache operation's lanes name (R255). -/
def State.cacheLines (s : State) (o : Mem) (wr : Bool) : List Nat → Except Exn (List Leaf)
  | [] => .ok []
  | l :: ls => do
    let a := s.memAddr o false l
    let f ← s.walkChecked (s.ctxOf s.curCourse) (s.launchIx s.curCourse) a { n := 1, rd := !wr, wr := wr, lane := l }
    if isPool f.pa && !s.poolUp then .error (.trap tPoolLost l a 9)
    else
      let fs ← s.cacheLines o wr ls
      .ok (f :: fs)

/-- A STREAM copy of the line is written back as a store: the agent's FENCE comes after it (R255, R296). -/
def State.wroteLine (s : State) (ln : Nat) (u : State) : State :=
  if s.stream.any fun x => x.line == ln && x.changed != 0 then
    u.modSight fun v => { v with wrote := max v.wrote (u.stamp ln).1 }
  else u

def execCwb (o : Mem) (s : State) : Host.Outcome State Fault Refusal :=
  seqInstr (.cwb o) (fun t => do
    let fs ← t.cacheLines o false (Mask.list (t.acted o.g))
    .ok (fs.foldl (fun u f => if f.pol < 2 then u.wroteLine (f.pa / 128) (u.writeBackLine (f.pa / 128)) else u) t)) s

/-- CINV: `.wb` as CWB, and the line is removed; `.discard` removes a STREAM page's line from every cache without write-back. It waits for
pins on its lines (R255, R263). -/
def execCinv (o : Mem) (s : State) : Host.Outcome State Fault Refusal :=
  seqInstr (.cinv o) (fun t => do
    let fs ← t.cacheLines o (o.sub == 1) (Mask.list (t.acted o.g))
    if fs.any fun f => f.pol < 2 && t.pinned (f.pa / 128) then .error .stall
    else
      .ok (fs.foldl (fun u f =>
        if 2 ≤ f.pol then u
        else if o.sub = 1 ∧ f.pol = 1 then u.dropStream (f.pa / 128)
        else u.wroteLine (f.pa / 128) (u.flushLine (f.pa / 128))) t)) s

/-- The instruction caches that ICINV at a scope covers (R92). -/
def State.icinvCovers (s : State) (scope core : Nat) : Bool :=
  let home := s.coreOf s.curCourse
  let cl := home / 96
  if scope < 2 then core == home || core == s.cacheOf
  else if scope = 2 then
    if core < 1152 then core / 96 == cl else (core - 1152) / Config.quoinCores == cl
  else true

/-- The agent's fetch buffers are emptied (R92). -/
def State.dropBufs (s : State) : State :=
  match s.cur with
  | .course c _ => s.modCourse c fun x => { x with splits := x.splits.map fun y => { y with buf := [] } }
  | _ => s.setBuf []

/-- ICINV: a FENCE for the stores, and the covered caches lose the lines of the issuer's context (R92). -/
def execIcinv (o : Sys) (s : State) : Host.Outcome State Fault Refusal :=
  seqInstr (.icinv o) (fun t =>
    let num := (t.ctx (t.ctxOf t.curCourse)).num
    let u := t.fenceAt o.x.toNat
    .ok { u.dropBufs with icache := u.icache.filter fun e => !(e.ctx == num && t.icinvCovers o.x.toNat e.core) }) s

end Sys2Proof.Machine
end

