-- ==== Sys2Proof/Machine/Predicate.lean ====
section
/-!
DEFINITION. Predicates, groups and lane exit 0x30 to 0x37 (R160 to R162).
-/

namespace Sys2Proof.Machine

/-- R161: a predicate from a function of the acted lanes. -/
def predInstr (i : Instr) (o : P3) (f : State → Mask → Mask) (s : State) : Host.Outcome State Fault Refusal :=
  seqInstr i (fun t =>
    let m := t.acted o.g
    .ok (t.setP (o.d.toNat % 16) m (f t m))) s

/-- R161: a scalar from the acted lanes; it is written once, with no acted lane too. -/
def maskScalar (i : Instr) (o : P3) (f : State → Mask → Word) (s : State) : Host.Outcome State Fault Refusal :=
  seqInstr i (fun t => .ok (t.setS o.d.toNat (f t (t.acted o.g)))) s

/-- R160: a group from the acted lanes. -/
def groupInstr (i : Instr) (o : P3) (f : State → Mask → Group) (s : State) : Host.Outcome State Fault Refusal :=
  seqInstr i (fun t => .ok (t.setG (o.d.toNat % 8) (f t (t.acted o.g)))) s

/-- The members of a mask. -/
def maskCount (m : Mask) : Nat := (Mask.list m).length

/-- PLOG's operation by SUB. -/
def predLogic (sub : Nat) (a b : Mask) : Mask :=
  match sub with
  | 0 => a &&& b
  | 1 => a ||| b
  | 2 => a ^^^ b
  | 3 => a &&& ~~~b
  | _ => a ||| ~~~b

def execPlog (o : P3) (s : State) : Host.Outcome State Fault Refusal :=
  predInstr (.plog o) o (fun t _ => predLogic o.sub.toNat (t.preg (o.a.toNat % 16)) (t.preg (o.b.toNat % 16))) s

/-- PMOV: from a scalar into 32 lanes of a predicate, or from them into a scalar. -/
def execPmov (o : P3) (s : State) : Host.Outcome State Fault Refusal :=
  let k := o.sub.toNat % 4
  if o.sub.toNat < 4 then
    seqInstr (.pmov o) (fun t =>
      let m := t.acted o.g &&& setMaskWord 0 k 0xFFFFFFFF
      .ok (t.setP (o.d.toNat % 16) m (setMaskWord 0 k (t.sreg o.a.toNat)))) s
  else maskScalar (.pmov o) o (fun t m => maskWord (t.preg (o.a.toNat % 16) &&& m) k) s

def execPcnt (o : P3) (s : State) : Host.Outcome State Fault Refusal :=
  maskScalar (.pcnt o) o (fun t m => BitVec.ofNat 64 (maskCount (t.preg (o.a.toNat % 16) &&& m))) s

def execPfirst (o : P3) (s : State) : Host.Outcome State Fault Refusal :=
  maskScalar (.pfirst o) o (fun t m => BitVec.ofNat 64 ((Mask.list (t.preg (o.a.toNat % 16) &&& m)).headD 96)) s

/-- Sizes of PART by SUB (R161). -/
def partSize (sub : Nat) : Nat := [4, 8, 16, 32, 96].getD sub 96

def execPart (o : P3) (s : State) : Host.Outcome State Fault Refusal :=
  groupInstr (.part o) o (fun t m => ⟨partSize o.sub.toNat, t.preg (o.a.toNat % 16) &&& m⟩) s

def execGset (o : P3) (s : State) : Host.Outcome State Fault Refusal :=
  groupInstr (.gset o) o (fun t m => let g := t.greg (o.a.toNat % 8); ⟨g.size, g.mem &&& m⟩) s

def execGrd (o : P3) (s : State) : Host.Outcome State Fault Refusal :=
  if o.sub = 0 then predInstr (.grd o) o (fun t _ => (t.greg (o.a.toNat % 8)).mem) s
  else maskScalar (.grd o) o (fun t _ => BitVec.ofNat 64 (t.greg (o.a.toNat % 8)).size) s

/-! ### Lane exit (R162) -/

/-- An ejected lane exits: it writes no live-out, its flag word is ORed into the course's, its context is freed
(R138, R183, R370). -/
def State.exitLane (s : State) (q : Nat) : State :=
  let x := s.lane q
  let s1 := s.modLane q fun y => { y with st := .done, wait := .ready }
  let s2 := s1.modCourse x.course fun y =>
    { y with exited := y.exited ||| Mask.one x.lane, regs := y.regs.takeFlags x.regs }
  let s3 := s2.modToken x.course x.tok fun k => { k with after := max k.after x.sight.time }
  (s3.settle x.course).endIfExited x.course

/-- Lanes `m` of split `k` exit; a split left with no member leaves the table, and no deferred set keeps them (R131). -/
def State.exitLanes (s : State) (c k : Nat) (m : Mask) : State :=
  let left (d : Mask × Word) : Option (Mask × Word) := if d.1 &&& ~~~m = 0 then none else some (d.1 &&& ~~~m, d.2)
  let s1 := s.modCourse c fun y =>
    { y with
      exited := y.exited ||| m
      tokens := y.tokens.map fun k => { k with deferred := k.deferred.bind left, outside := k.outside &&& ~~~m } }
  let s2 := s1.modSplit c k fun y =>
    { y with m := y.m &&& ~~~m, a := y.a &&& ~~~m, handler := y.handler && (y.m &&& ~~~m) != 0 }
  (s2.settle c).endIfExited c

def execLexit (o : P3) (s : State) : Host.Outcome State Fault Refusal :=
  instr (.lexit o) (fun t =>
    let m := t.acted o.g
    let next := s.pc + Instr.len (.lexit o)
    match t.cur with
    | .lane q => .ok (if m = 0 then t.setPc next else t.exitLane q)
    | .course c k =>
      match t.spoilMeet c k false with
      | some u => .ok u
      | none => .ok (if m = 0 then t.setPc next else (t.setPc next).exitLanes c k m)
    | .none => .ok t) s

end Sys2Proof.Machine
end

