-- ==== Sys2Proof/Machine/VectorInt.lean ====
section
/-!
DEFINITION. The integer vector instructions, compares, selects and moves 0x40 to 0x5B (R188 to R195). `eff<Name>`
is an instruction's effect on the state before it, which PAIR shares (R82 to R84).
-/

namespace Sys2Proof.Machine

open ElemTy

/-! ### Shared shapes -/

/-- An operation on every element of two lane values, with the flags it sets. -/
def onElems (t : ElemTy) (f : Nat → Bool → Nat → Nat → Nat × BitVec 6) (a b : Nat) : Nat × BitVec 6 :=
  let rs := (List.range (tyElems t)).map fun j => f (elemBits t) (signedTy t) (elem t a j) (elem t b j)
  (packElems (elemBits t) (rs.map (·.1)), rs.foldl (fun x r => x ||| r.2) 0)

/-- An operation that sets no flag. -/
def noFlag (f : Nat → Bool → Nat → Nat → Nat) (w : Nat) (sgn : Bool) (a b : Nat) : Nat × BitVec 6 := (f w sgn a b, 0)

/-- An exact integer operation, wrapped or saturated (R190). -/
def exactInt (sat : Bool) (f : Int → Int → Int) (w : Nat) (sgn : Bool) (a b : Nat) : Nat × BitVec 6 :=
  satInt sgn w sat (f (intOf sgn w a) (intOf sgn w b))

/-- An element-wise integer instruction of two sources, or of one. -/
def intEffect (o : V3) (f : Nat → Bool → Nat → Nat → Nat × BitVec 6) (unary : Bool := false) :
    State → Except Exn VRes :=
  v3Effect o o.ty o.ty unary fun _ a b _ => onElems o.ty f a b

/-! ### Arithmetic and logic (R190) -/

def effVadd (o : V3) : State → Except Exn VRes := intEffect o (exactInt (o.mod.getLsbD 3) (· + ·))
def effVsub (o : V3) : State → Except Exn VRes := intEffect o (exactInt (o.mod.getLsbD 3) (· - ·))
def effVmul (o : V3) : State → Except Exn VRes := intEffect o (exactInt (o.mod.getLsbD 3) (· * ·))
def effVmulh (o : V3) : State → Except Exn VRes := intEffect o (noFlag mulHigh)
def effVdiv (o : V3) : State → Except Exn VRes := intEffect o (noFlag divInt)
def effVrem (o : V3) : State → Except Exn VRes := intEffect o (noFlag remInt)
def effVand (o : V3) : State → Except Exn VRes := intEffect o (noFlag fun _ _ a b => Nat.land a b)
def effVor (o : V3) : State → Except Exn VRes := intEffect o (noFlag fun _ _ a b => Nat.lor a b)
def effVxor (o : V3) : State → Except Exn VRes := intEffect o (noFlag fun _ _ a b => Nat.xor a b)
def effVshl (o : V3) : State → Except Exn VRes := intEffect o (noFlag shlNat)
def effVshr (o : V3) : State → Except Exn VRes := intEffect o (noFlag shrNat)
def effVrot (o : V3) : State → Except Exn VRes := intEffect o (noFlag rotNat)
def effVmin (o : V3) : State → Except Exn VRes := intEffect o (noFlag minNat)
def effVmax (o : V3) : State → Except Exn VRes := intEffect o (noFlag maxNat)
def effVabs (o : V3) : State → Except Exn VRes :=
  intEffect o (exactInt (o.mod.getLsbD 3) fun a _ => (a.natAbs : Int)) true
/-- R192: VBITC; a 64-bit count leaves 0 in the odd register. -/
def effVbitc (o : V3) : State → Except Exn VRes :=
  intEffect o (noFlag fun w _ a _ => bitCount o.sub.toNat w a) true

/-- R190: VADDS adds the absolute differences of the elements to D; under WS no register is read as D, and the value is free (log 16). -/
def effVadds (o : V3) : State → Except Exn VRes :=
  v3Effect o o.ty o.ty false fun l a b d =>
    let w := elemBits o.ty
    (((List.range (tyElems o.ty)).foldl
      (fun n j => n + (intOf true w (elem o.ty a j) - intOf true w (elem o.ty b j)).natAbs)
      (oldD o.ws [0, elemBits o.ty, l, a, b] d)) % 2 ^ 32, 0)

/-- R191: VMAD, exact and rounded once. -/
def effVmad (o : V4) (s : State) : Except Exn VRes :=
  v4Effect o o.ty [o.a, o.b, o.c] (fun l =>
    let a := s.vsrc o.ty o.a l
    let b := s.vsrc o.ty o.b l
    let c := s.vsrc o.ty o.c l
    let w := elemBits o.ty
    let v (x j : Nat) : Int := intOf (signedTy o.ty) w (elem o.ty x j)
    let rs := (List.range (tyElems o.ty)).map fun j =>
      satInt (signedTy o.ty) w (o.mod.getLsbD 3) (v a j * v b j + v c j)
    (packElems w (rs.map (·.1)), rs.foldl (fun x r => x ||| r.2) 0)) s

/-- R191: VADDC, with carry-in pC and carry-out pOut. -/
def effVaddc (o : V4) (s : State) : Except Exn VRes :=
  let sum (l : Nat) : Nat :=
    s.vsrc o.ty o.a l + s.vsrc o.ty o.b l + (if (s.preg (o.c.toNat % 16)).has l then 1 else 0)
  let w := elemBits o.ty
  (v4Effect o o.ty [o.a, o.b] (fun l => (sum l % 2 ^ w, 0)) s).map fun r =>
    { r with carry := some (o.imm.toNat % 16, predMask ((Mask.list r.m).map fun l => (l, sum l / 2 ^ w))) }

/-! ### Bit fields (R192) -/

/-- pos and len for lane `l`: IMM20's, or those of the lane's C. -/
def State.bitField (s : State) (o : V4) (l : Nat) : Nat × Nat :=
  let w := elemBits o.ty
  if o.sub = 0 then (o.imm.toNat % 64, min (o.imm.toNat / 64 % 128) w)
  else
    let c := s.vsrc o.ty o.c l
    (c % 64, min (c / 256 % 128) w)

def effVbfx (o : V4) (s : State) : Except Exn VRes :=
  v4Effect o o.ty ([o.a] ++ if o.sub = 0 then [] else [o.c]) (fun l =>
    let e := s.bitField o l
    (fieldExtract (elemBits o.ty) (signedTy o.ty) (s.vsrc o.ty o.a l) e.1 e.2, 0)) s

def effVbfi (o : V4) (s : State) : Except Exn VRes :=
  v4Effect o o.ty ([o.a] ++ if o.sub = 0 then [] else [o.c]) (fun l =>
    let e := s.bitField o l
    let a := s.vsrc o.ty o.a l
    let d := oldD o.ws [1, elemBits o.ty, l, a, e.1, e.2] (if is64 o.ty then (s.vpair o.d.toNat l).toNat else (s.vreg o.d.toNat l).toNat)
    (fieldInsert (elemBits o.ty) (d % 2 ^ elemBits o.ty) a e.1 e.2, 0)) s

/-! ### Compares (R193) -/

/-- A condition on two exact values; a NaN makes all but NE and UNO false. -/
def condExt (cond : Nat) (a b : Ext) : Bool :=
  let un := a.isNan || b.isNan
  match cond with
  | 0 => a.eq b
  | 1 => !a.eq b
  | 2 => a.lt b
  | 3 => !un && !b.lt a
  | 4 => b.lt a
  | 5 => !un && !a.lt b
  | 6 => !un
  | _ => un

def effVcmp (o : V3) (s : State) : Except Exn VRes :=
  let holds (a b : Nat) : Bool :=
    if o.ty == f32 then condExt o.sub.toNat (elemExt f32 a) (elemExt f32 b)
    else condHolds o.sub.toNat (intOf (signedTy o.ty) (elemBits o.ty) a) (intOf (signedTy o.ty) (elemBits o.ty) b)
  (v3Effect o o.ty o.ty false (fun _ a b _ => (if holds a b then 1 else 0, 0)) s).map fun r =>
    { r with dst := .pred (o.d.toNat % 16) }

/-! ### Selects and moves (R194) -/

def effVsel (o : V4) (s : State) : Except Exn VRes :=
  v4Effect o o.ty [o.a, o.b] (fun l =>
    (if (s.preg (o.c.toNat % 16)).has l then s.vsrc o.ty o.a l else s.vsrc o.ty o.b l, 0)) s

def effVmov (o : V3) : State → Except Exn VRes := v3Effect o o.ty o.ty true fun _ a _ _ => (a, 0)

def effVmovi (o : Vi) (s : State) : Except Exn VRes :=
  let m := s.acted o.g
  let v : Nat := if o.ty == i64 then (o.imm.signExtend 64).toNat else o.imm.toNat
  .ok { m := m, ws := o.ws, dst := vdst o.ty o.d, vals := (Mask.list m).map fun l => (l, v) }

def effVbrd (o : V3) (s : State) : Except Exn VRes :=
  let m := s.acted o.g
  let v := (s.sreg (o.a.toNat % 64)).toNat % 2 ^ elemBits o.ty
  .ok { m := m, ws := o.ws, dst := vdst o.ty o.d, vals := (Mask.list m).map fun l => (l, v) }

def effVext (o : V3) : State → Except Exn VRes :=
  v3Effect o b32 b32 false fun _ a b _ => ((b * 2 ^ 32 + a) / 2 ^ (8 * o.sub.toNat) % 2 ^ 32, 0)

/-- R195, R33: a system value of a lane of a course; a block's index in the launch counts x fastest (log 17). -/
def State.sysValue (s : State) (c lane sub : Nat) : Nat :=
  let x := s.course c
  let b := s.block x.block
  let d := (s.launch b.launch).desc
  let i := 96 * x.index + lane
  let xyz (n : Nat) (dim : Nat × Nat × Nat) : Nat × Nat × Nat :=
    (n % max 1 dim.1, n / max 1 dim.1 % max 1 dim.2.1, n / max 1 dim.1 / max 1 dim.2.1)
  match sub with
  | 0 => lane
  | 1 => lane / 4
  | 2 => x.index
  | 3 => (xyz b.index d.ldim).1
  | 4 => (xyz b.index d.ldim).2.1
  | 5 => (xyz b.index d.ldim).2.2
  | 6 => d.bdim.1
  | 7 => d.bdim.2.1
  | 8 => d.bdim.2.2
  | 9 => d.ldim.1
  | 10 => d.ldim.2.1
  | 11 => d.ldim.2.2
  | 12 => (xyz i d.bdim).1
  | 13 => (xyz i d.bdim).2.1
  | 14 => (xyz i d.bdim).2.2
  | 15 => b.core
  | 16 => b.core / 96
  | _ => if x.consumer then 1 else 0

/-- The VSYS value the agent sees in lane `l`: the course's, or the copy of the hand-over (R137). -/
def State.vsys (s : State) (l sub : Nat) : Nat :=
  match s.cur with
  | .lane q => ((s.lane q).vsys.getD sub 0).toNat
  | _ => s.sysValue s.curCourse l sub

def effVsys (o : V3) (s : State) : Except Exn VRes :=
  let m := s.acted o.g
  .ok { m := m, ws := o.ws, dst := .reg o.d.toNat, vals := (Mask.list m).map fun l => (l, s.vsys l o.sub.toNat) }

/-! ### The instructions -/

def execVadd (o : V3) (s : State) : Host.Outcome State Fault Refusal := vecInstr (.vadd o) (effVadd o) s
def execVsub (o : V3) (s : State) : Host.Outcome State Fault Refusal := vecInstr (.vsub o) (effVsub o) s
def execVmul (o : V3) (s : State) : Host.Outcome State Fault Refusal := vecInstr (.vmul o) (effVmul o) s
def execVmulh (o : V3) (s : State) : Host.Outcome State Fault Refusal := vecInstr (.vmulh o) (effVmulh o) s
def execVmad (o : V4) (s : State) : Host.Outcome State Fault Refusal := vecInstr (.vmad o) (effVmad o) s
def execVdiv (o : V3) (s : State) : Host.Outcome State Fault Refusal := vecInstr (.vdiv o) (effVdiv o) s
def execVrem (o : V3) (s : State) : Host.Outcome State Fault Refusal := vecInstr (.vrem o) (effVrem o) s
def execVand (o : V3) (s : State) : Host.Outcome State Fault Refusal := vecInstr (.vand o) (effVand o) s
def execVor (o : V3) (s : State) : Host.Outcome State Fault Refusal := vecInstr (.vor o) (effVor o) s
def execVxor (o : V3) (s : State) : Host.Outcome State Fault Refusal := vecInstr (.vxor o) (effVxor o) s
def execVshl (o : V3) (s : State) : Host.Outcome State Fault Refusal := vecInstr (.vshl o) (effVshl o) s
def execVshr (o : V3) (s : State) : Host.Outcome State Fault Refusal := vecInstr (.vshr o) (effVshr o) s
def execVrot (o : V3) (s : State) : Host.Outcome State Fault Refusal := vecInstr (.vrot o) (effVrot o) s
def execVmin (o : V3) (s : State) : Host.Outcome State Fault Refusal := vecInstr (.vmin o) (effVmin o) s
def execVmax (o : V3) (s : State) : Host.Outcome State Fault Refusal := vecInstr (.vmax o) (effVmax o) s
def execVabs (o : V3) (s : State) : Host.Outcome State Fault Refusal := vecInstr (.vabs o) (effVabs o) s
def execVbitc (o : V3) (s : State) : Host.Outcome State Fault Refusal := vecInstr (.vbitc o) (effVbitc o) s
def execVbfx (o : V4) (s : State) : Host.Outcome State Fault Refusal := vecInstr (.vbfx o) (effVbfx o) s
def execVbfi (o : V4) (s : State) : Host.Outcome State Fault Refusal := vecInstr (.vbfi o) (effVbfi o) s
def execVaddc (o : V4) (s : State) : Host.Outcome State Fault Refusal := vecInstr (.vaddc o) (effVaddc o) s
def execVadds (o : V3) (s : State) : Host.Outcome State Fault Refusal := vecInstr (.vadds o) (effVadds o) s
def execVcmp (o : V3) (s : State) : Host.Outcome State Fault Refusal := vecInstr (.vcmp o) (effVcmp o) s
def execVsel (o : V4) (s : State) : Host.Outcome State Fault Refusal := vecInstr (.vsel o) (effVsel o) s
def execVmov (o : V3) (s : State) : Host.Outcome State Fault Refusal := vecInstr (.vmov o) (effVmov o) s
def execVmovi (o : Vi) (s : State) : Host.Outcome State Fault Refusal := vecInstr (.vmovi o) (effVmovi o) s
def execVbrd (o : V3) (s : State) : Host.Outcome State Fault Refusal := vecInstr (.vbrd o) (effVbrd o) s
def execVext (o : V3) (s : State) : Host.Outcome State Fault Refusal := vecInstr (.vext o) (effVext o) s
def execVsys (o : V3) (s : State) : Host.Outcome State Fault Refusal := vecInstr (.vsys o) (effVsys o) s

end Sys2Proof.Machine
end

