-- ==== Sys2Proof/Machine/Flow.lean ====
section
/-!
DEFINITION. Control flow 0x20 to 0x2A (R151 to R159): branches, the division of a split (R129 to R131), REGANG
(R132, R133) and the ejection of lanes (R136, R137).
-/

namespace Sys2Proof.Machine

/-! ### Branches -/

/-- The target of a branch at `pc` (R151). -/
def brTarget (o : Br) (pc : Word) : Word := pc + (o.off.signExtend 64 <<< 2)

/-- A branch: its new PC from the state before it (R151). -/
def branch (i : Instr) (f : State → Word → Except Exn (Word × State)) (s : State) : Host.Outcome State Fault Refusal :=
  instr i (fun t => (f t (s.pc + Instr.len i)).map fun e => e.2.setPc e.1) s

/-- A register target (R152): bits 1:0 are zero. -/
def regTarget (v : Word) : Except Exn Word := if v.toNat % 4 = 0 then .ok v else .error (trapC tMisaligned v)

def execJmp (o : Br) (s : State) : Host.Outcome State Fault Refusal :=
  branch (.jmp o) (fun t _ => .ok (brTarget o s.pc, t)) s
def execJmpr (o : Br) (s : State) : Host.Outcome State Fault Refusal :=
  branch (.jmpr o) (fun t _ => (regTarget (t.sreg o.s.toNat)).map fun v => (v, t)) s
def execCall (o : Br) (s : State) : Host.Outcome State Fault Refusal :=
  branch (.call o) (fun t next => .ok (brTarget o s.pc, t.setS 60 next)) s
def execCallr (o : Br) (s : State) : Host.Outcome State Fault Refusal :=
  branch (.callr o) (fun t next => (regTarget (t.sreg o.s.toNat)).map fun v => (v, t.setS 60 next)) s
def execRet (o : Br) (s : State) : Host.Outcome State Fault Refusal :=
  branch (.ret o) (fun t _ => (regTarget (t.sreg 60)).map fun v => (v, t)) s

/-- The compare of BRS holds: sS with zero (R154). -/
def State.brsTaken (t : State) (o : Br) : Bool := condHolds o.p.toNat (intOf (!o.u) 64 (t.sreg o.s.toNat).toNat) 0 != o.n
/-- BRS (R154). -/
def execBrs (o : Br) (s : State) : Host.Outcome State Fault Refusal :=
  branch (.brs o) (fun t next => .ok (if t.brsTaken o then brTarget o s.pc else next, t)) s

/-- The active lanes whose bit of pP, inverted under N, is 1: T of R129, the votes of R156. -/
def State.votes (t : State) (o : Br) : Mask :=
  let p := t.preg o.p.toNat
  t.active &&& (if o.n then ~~~p else p)
/-- The vote of BRU is for the branch (R156). -/
def State.bruTaken (t : State) (o : Br) : Bool :=
  t.active != 0 && (if o.u then t.votes o == t.active else t.votes o != 0)
/-- BRU: a vote of the active lanes (R156). -/
def execBru (o : Br) (s : State) : Host.Outcome State Fault Refusal :=
  branch (.bru o) (fun t next => .ok (if t.bruTaken o then brTarget o s.pc else next, t)) s

/-- LOOPD (R158). -/
def execLoopd (o : Br) (s : State) : Host.Outcome State Fault Refusal :=
  branch (.loopd o) (fun t next =>
    let v := t.sreg o.s.toNat - 1
    .ok (if v ≠ 0 then brTarget o s.pc else next, t.setS o.s.toNat v)) s

/-- NOP (R159). -/
def execNop (o : Br) (s : State) : Host.Outcome State Fault Refusal := branch (.nop o) (fun t next => .ok (next, t)) s

/-! ### Division by slice (R130) -/

/-- The lanes of slice `k`. -/
def sliceMask (k : Nat) : Mask := (0xF : BitVec 96) <<< (4 * k)
/-- The slices that have a lane in `m`, ascending. -/
def slicesOf (m : Mask) : List Nat := (List.range 24).filter fun k => m &&& sliceMask k != 0
/-- All lanes of the slices `ks`. -/
def sliceLanes (ks : List Nat) : Mask := ks.foldl (fun m k => m ||| sliceMask k) 0

/-- A split stands at `pc` and has not issued the instruction there (R130). -/
def Split.stands (y : Split) (pc : Word) (h : Bool) : Bool :=
  y.m != 0 && (y.wait == .ready || y.wait == .stalled) && y.pc == pc && y.handler == h
/-- Lanes `m`, active `a`, form a split at `pc`, or join one that stands there (R130, R132). -/
def State.joinSplit (s : State) (c : Nat) (pc : Word) (m a : Mask) (h : Bool) : State :=
  s.modCourse c fun x =>
    match x.splits.findIdx? fun y => y.stands pc h with
    | some i => { x with splits := x.splits.modify i fun y => { y with m := y.m ||| m, a := y.a ||| a } }
    | none => x.addSplit { pc := pc, m := m, a := a, last := s.tick, handler := h }

/-- R130: the division, or `none` where the split table or a re-entry stack has no room. `next` follows the BRV. Slices with
equal PCs form one split: the taken ones join a split that stands at the target, the others one that stands at `next`. A slice
with no active lane, which meets both conditions of R130, follows `next` (log 20, DEDUCED). -/
def State.divideBySlice (s : State) (c k : Nat) (tok : Nat) (t f : Mask) (target next : Word) : Option State :=
  let x := s.course c
  let sp := x.splits.getD k default
  let torn := (slicesOf t).filter fun j => f &&& sliceMask j != 0
  let tm := sliceLanes ((slicesOf t).filter fun j => f &&& sliceMask j == 0)
  let gone := t &&& sliceLanes torn
  let others := x.splits.set k { sp with m := 0 }
  let stands (pc : Word) : Bool := others.any fun y => y.stands pc sp.handler
  let need := (if stands next then 0 else 1) + (if tm = 0 ∨ target = next ∨ stands target then 0 else 1)
  if decide (8 < (others.filter fun y => y.m != 0).length + need)
      || torn.any (fun j => decide (4 ≤ (x.reentry.filter fun r => r.slice == j).length)) then none
  else
    let stay : Mask := if target = next then Mask.all else ~~~tm
    let restM := sp.m &&& ~~~gone &&& stay
    let restA := sp.a &&& ~~~gone &&& stay
    let s1 := s.modCourse c fun y =>
      { y with reentry := (torn.map fun j => ⟨j, target, t &&& sliceMask j, tok⟩) ++ y.reentry }
    let s2 :=
      if stands next then (s1.modSplit c k fun y => { y with m := 0, a := 0, handler := false }).joinSplit c next restM restA sp.handler
      else s1.modSplit c k fun y => { y with m := restM, a := restA, pc := next }
    some (if tm = 0 ∨ target = next then s2 else s2.joinSplit c target (sp.m &&& tm) (t &&& tm) sp.handler)

/-! ### Ejection (R136, R137) -/

/-- An ejected lane holds its quoin context; a suspended context's are saved (R143). -/
def State.laneHolds (s : State) (q : Lane) : Bool := q.st.live && (s.block (s.course q.course).block).st != .suspended
/-- Quoin contexts of core `i` of a cluster that are in use (R136). -/
def State.quoinUsed (s : State) (i : Nat) : Nat := (s.lanes.filter fun q => q.quoin == i && s.laneHolds q).length
/-- The quoin core of a cluster with the most free contexts, the lowest on a tie. -/
def State.quoinBest (s : State) (cluster : Nat) : Nat :=
  (List.range Config.quoinCores).foldl (fun b i =>
    let n := Config.quoinCores * cluster + i
    if s.quoinUsed n < s.quoinUsed b then n else b) (Config.quoinCores * cluster)
/-- Free quoin contexts of a cluster. -/
def State.quoinFree (s : State) (cluster : Nat) : Nat :=
  Config.quoinContexts - (s.lanes.filter fun q => q.quoin / Config.quoinCores == cluster && s.laneHolds q).length

/-- Byte `j` of the pool object at `a` (R85). -/
def poolAddr (a : Word) (j : Nat) : Word := a + BitVec.ofNat 64 (32 * (j / 24) + j % 24)

/-- A fault of the walk that R164 does not list for BRV counts as a malformed descriptor at `a` (log 19). -/
def descFault (a low : Word) : Exn → Exn
  | .trap code lane ad i => if code = tProtection then .trap code lane ad i else trapC tIllegalOp a low
  | e => e
/-- `n` bytes of a pool object from byte `j`, read as data (R137). Translation and permission faults are the only ones that
reading raises; what is unreadable otherwise counts as malformed (R164, log 19). -/
def State.readPool (s : State) (a : Word) (low : Word) (j : Nat) : Nat → Except Exn (List Byte)
  | 0 => .ok []
  | n + 1 => do
    let at' := poolAddr a j
    let c := s.curCourse
    let loc ← (s.resolveGen (s.ctxOf c) (s.launchIx c) at' { n := 1, align := some 0, raw := true }).mapError (descFault a low)
    match loc with
    | .pad _ _ => .error (trapC tIllegalOp a low)
    | .phys f =>
      if (isPool f.pa && !s.poolUp) || s.poisoned f.pa then .error (trapC tIllegalOp a low)
      else
        let rest ← s.readPool a low (j + 1) n
        .ok (s.readByte f.pol f.pa :: rest)

/-- A hand-over descriptor (R109). -/
structure HandOver where
  ins : List Nat
  outs : List Nat
  smask : Nat
  endOff : BitVec 32
deriving DecidableEq, Repr, Inhabited

/-- Read and check the descriptor at `a` (R137); `low` are bits 31:0 of the BRV. -/
def State.readHandOver (s : State) (a : Word) (tok allot : Nat) (low : Word) : Except Exn HandOver := do
  let h ← s.readPool a low 0 16
  let b (i : Nat) : Nat := (h.getD i 0).toNat
  if 48 < b 5 ∨ 48 < b 6 ∨ b 4 ≠ 0 ∨ b 7 ≠ tok then .error (trapC tIllegalOp a low)
  else
    let l ← s.readPool a low 16 (2 * (b 5 + b 6))
    let regs := (List.range (b 5 + b 6)).map fun i => (l.getD (2 * i) 0).toNat + 256 * (l.getD (2 * i + 1) 0).toNat
    if regs.any fun r => decide (allot ≤ r) then .error (trapC tRegBounds a low)
    else .ok ⟨regs.take (b 5), regs.drop (b 5), leNat (h.drop 8), BitVec.ofNat 32 (leNat (h.take 4))⟩

/-- The context of lane `l` as the hand-over copies it (R137, R370). -/
def State.handLane (s : State) (c l : Nat) (d : HandOver) : Regs :=
  let r := (s.course c).regs
  { v := d.ins.foldl (fun m v => Cells.set 0 m (96 * v + l) (Cells.get 0 r.v (96 * v + l))) []
    vst := d.ins.foldl (fun m v => Cells.set .clean m (3 * v + l / 32) (Cells.get .clean r.vst (3 * v + l / 32))) []
    s := r.s.filter fun e => d.smask.testBit e.1
    sst := r.sst.filter fun e => d.smask.testBit e.1
    p := (List.range 16).foldl (fun m n => Cells.set 0 m n (Cells.get 0 r.p n &&& Mask.one l)) []
    g := r.g, tscr0 := r.tscr0, tscr1 := r.tscr1, srseed := r.srseed }

/-- Eject the lanes of `minority`, which start at `pc` (R137). -/
def State.ejectLanes (s : State) (c tok : Nat) (brv pc : Word) (d : HandOver) (minority : Mask) : State :=
  let per := (d.ins.length + ((List.range 64).filter fun i => d.smask.testBit i).length + 3) / 4
  let endPc := brv + (d.endOff.signExtend 64 <<< 2)
  let s1 := (Mask.list minority).zipIdx.foldl (fun s e =>
    let x : Lane :=
      { course := c, lane := e.1, quoin := s.quoinBest (s.coreOf c / 96), regs := s.handLane c e.1 d
        vsys := (List.range 18).map fun i => BitVec.ofNat 32 (s.sysValue c e.1 i)
        sight := { (s.course c).sight with stale := [] }
        sregs := copiedRegs.foldl (fun m n => Cells.set 0 m n (s.stateReg c n)) []
        pc := pc, tok := tok, endPc := endPc, outs := d.outs
        st := .starting (s.clock + 24 + (e.2 + 1) * per) }
    { s with lanes := s.lanes ++ [x] }) s
  s1.modToken c tok fun k => { k with endPc := endPc }

/-- Damaged words that the hand-over would read (R386, R391); it waits for registers that matrix operations hold (R266). -/
def State.handDamaged (s : State) (d : HandOver) (minority : Mask) : Except Exn Unit :=
  if d.ins.any (s.rowBusy s.curCourse) then .error .stall
  else match s.damaged { vr := d.ins, sr := (List.range 61).filter fun i => d.smask.testBit i } minority with
  | some e => .error e
  | none => .ok ()

/-! ### BRV (R129, R131, R155) -/

/-- BRV of split `k`: T and F, the token, and the first outcome of R129 that applies. -/
def brvCourse (o : Br) (s : State) (c k : Nat) (pc next : Word) : Except Exn State :=
  let x := s.course c
  let tok := o.tok.toNat
  let a := s.active
  let t := s.votes o
  let f := a &&& ~~~t
  let target := brTarget o pc
  if (x.token tok).isOpen then .error (trapC tBarrier)
  else if a = 0 then .ok (s.setPc next)
  else
    let s1 := s.modToken c tok fun _ => { isOpen := true, opened := a, atTrap := x.trap.level }
    let slices :=
      match s1.divideBySlice c k tok t f target next with
      | some u => u
      | none =>
        ((s1.modToken c tok fun y => { y with deferred := some (t, target) }).modSplit c k fun y =>
          { y with a := f }).setPc next
    if t = 0 then .ok (s1.setPc next)
    else if f = 0 then .ok (s1.setPc target)
    else
      let big := maskCount f < maskCount t
      let minority := if big then f else t
      let n := maskCount minority
      match o.ej with
      | some hoff =>
        if !x.trap.level && decide (n ≤ x.ejthr) && decide (n ≤ s.quoinFree (s.coreOf c / 96)) then do
          let d ← s.readHandOver (pc + (hoff.signExtend 64 <<< 2)) tok x.allot (wordLow (.brv o))
          s.handDamaged d minority
          let s2 := s1.ejectLanes c tok pc (if big then next else target) d minority
          .ok ((s2.modSplit c k fun y => { y with m := y.m &&& ~~~minority, a := y.a &&& ~~~minority }).setPc
            (if big then target else next))
        else .ok slices
      | none => .ok slices

def execBrv (o : Br) (s : State) : Host.Outcome State Fault Refusal :=
  instr (.brv o) (fun t =>
    let next := s.pc + Instr.len (.brv o)
    match t.cur with
    | .course c k => brvCourse o t c k s.pc next
    | _ => .ok (t.setPc (if t.votes o ≠ 0 then brTarget o s.pc else next))) s

/-- The instruction, whose effect made `s` into `t`, was a branch that the agent's PC took, wherever its target lies (R91,
R147); a BRV is taken where the agent goes on with T: in an ejected lane, uniform, or with F ejected (R129). -/
def State.branchTaken (s : State) (i : Instr) (t : State) : Bool :=
  match i with
  | .jmp _ | .jmpr _ | .call _ | .callr _ | .ret _ => true
  | .brs o => s.brsTaken o
  | .bru o => s.bruTaken o
  | .loopd o => s.sreg o.s.toNat != 1
  | .brv o =>
    let f := s.active &&& ~~~s.votes o
    s.votes o != 0 && (s.isLane || f == 0 || (decide (s.lanes.length < t.lanes.length) && decide (maskCount f < maskCount (s.votes o))))
  | _ => false
/-- A taken branch, a call, a return or a trap entry empties the fetch buffer (R91), and so does whatever else sends the PC
elsewhere than to `next`. -/
def State.afterFlow (s : State) (i : Instr) (next : Word) (t : State) : State :=
  if s.branchTaken i t || t.pc != next then t.setBuf [] else t

/-! ### REGANG (R132, R133, R139, R157) -/

/-- Pop the re-entries of token `t` that stand on top in the slices of split `k`; they form or join splits, a ninth one where
eight entries of the table are held: R132 names no other outcome (log 21, DEDUCED). -/
def State.popReentries (s : State) (c k t : Nat) : State :=
  let x := s.course c
  let sp := x.splits.getD k default
  let tops := (slicesOf sp.m).filterMap fun j =>
    match x.reentry.find? fun r => r.slice == j with
    | some r => if r.tok == t then some r else none
    | none => none
  let s1 := s.modCourse c fun y => { y with reentry := tops.foldl (fun l r => l.erase r) y.reentry }
  tops.foldl (fun s r => s.joinSplit c r.pc r.lanes r.lanes sp.handler) s1

/-- Ejected lanes of a token that are still out. -/
def State.outstanding (s : State) (c t : Nat) : List Nat :=
  (s.lanes.zipIdx.filter fun e => e.1.course == c && e.1.tok == t && e.1.st.live).map (·.2)

/-- REGANG of split `k` with an effect. -/
def regangCourse (s : State) (c k t : Nat) (next : Word) : State :=
  let s1 := s.popReentries c k t
  let m := (s1.split c k).m
  let s2 := s1.modToken c t fun y => { y with arrived := y.arrived ||| (m &&& y.opened), nextPc := some next }
  let tk := (s2.course c).token t
  match tk.deferred with
  | some (d, target) =>
    let s3 := s2.modToken c t fun y => { y with
      deferred := none, arrived := y.arrived &&& ~~~d, outside := y.outside ||| (m &&& ~~~y.opened) }
    ((s3.modSplit c k fun y => { y with m := d, a := d, pc := target })).settle c
  | none =>
    let s3 := s2.setWait (.regang t) next
    let s4 := if (s3.outstanding c t).isEmpty then s3
      else s3.modToken c t fun y => { y with
        timer := y.timer.or (some (s3.run c)), hardTimer := y.hardTimer.or (some (s3.run c)) }
    s4.settle c

/-- REGANG. One that has no effect (R132, case 1) is no arrival at which a rendezvous fails: R135 says `reaches REGANG` (log 53,
DEDUCED). -/
def execRegang (o : Br) (s : State) : Host.Outcome State Fault Refusal :=
  instr (.regang o) (fun u =>
    let next := s.pc + Instr.len (.regang o)
    let t := o.tok.toNat
    match u.cur with
    | .lane q =>
      let x := u.lane q
      if x.pc = x.endPc then
        .ok (u.modLane q fun y =>
          { y with st := .rejoining (u.clock + 16 + (y.outs.length + 3) / 4), next := next })
      else .ok (u.setPc next)
    | .course c k =>
      let tk := (u.course c).token t
      if !tk.isOpen || (u.split c k).m &&& tk.opened = 0 then .ok (u.setPc next)
      else
        match u.spoilMeet c k true with
        | some v => .ok v
        | none => .ok (regangCourse u c k t next)
    | .none => .ok u) s

end Sys2Proof.Machine
end

