-- ==== Sys2Proof/Machine/Place.lean ====
section
/-!
DEFINITION. Room on a core and who gets it (R56 to R67, R142, R209, R359): carving, budgets, victims, gangs and block
sets, eviction, rotation, and the return of courses that were evicted or parked.
-/

namespace Sys2Proof.Machine

/-! ### Blocks and their needs -/

def Desc.courses (d : Desc) : Nat := d.coursesP + d.coursesC
/-- T_soft and T_hard (R31). -/
def Desc.softTime (d : Desc) : Nat := if d.tsoft = 0 then 20000 else d.tsoft
def Desc.hardTime (d : Desc) : Nat := if d.thard = 0 then 2 ^ 26 else 2 ^ d.thard
/-- R210. -/
def Desc.blockBytes (d : Desc) : Nat := d.scratch + d.courses * d.stack
/-- Allotment of course `i` of a block; producers come first (R32, R33). -/
def Desc.allotOf (d : Desc) (i : Nat) : Nat := 32 * (if i < d.coursesP then d.regsP else d.regsC)

def State.blockLaunch (s : State) (b : Nat) : Launch := s.launch (s.block b).launch
/-- Blocks of launch `l`, in order of index. -/
def State.launchBlocks (s : State) (l : Nat) : List Nat :=
  (s.blocks.zipIdx.filter fun e => e.1.launch == l).map (·.2)
/-- The block has room on its core. -/
def BlockSt.placed : BlockSt → Bool
  | .starting _ | .resident => true
  | _ => false
/-- The course is parked (R142, R354, R357, R367). -/
def Residence.parked : Residence → Bool
  | .parkedEject | .parkedPage | .parkedQuota | .parkedSvc => true
  | _ => false

/-- Sort by `lt`, stably. -/
def insertBy {α : Type} (lt : α → α → Bool) (x : α) : List α → List α
  | [] => [x]
  | y :: ys => if lt x y then x :: y :: ys else y :: insertBy lt x ys
def sortBy {α : Type} (lt : α → α → Bool) (l : List α) : List α := l.foldl (fun acc x => insertBy lt x acc) []

/-- Courses of a block to be carved, as number in the block and allotment, in the order of R57. -/
def State.blockNeed (s : State) (b : Nat) : List (Nat × Nat) :=
  let x := s.block b
  let d := (s.blockLaunch b).desc
  let ids :=
    if x.courses.isEmpty then List.range d.courses
    else (x.courses.filter fun c => (s.course c).place != .ended && !(s.course c).place.parked).map fun c => (s.course c).index
  sortBy (fun a b => decide (b.2 < a.2)) (ids.map fun i => (i, d.allotOf i))

/-! ### What a core holds -/

/-- A course occupies its registers for an incoming placement; `opp`: an OPPORTUNE one (R142, R376). -/
def State.courseHolds (s : State) (opp : Bool) (c : Nat) : Bool :=
  let x := s.course c
  match x.place with
  | .ended => s.ops.any fun o => o.course == c && o.core.isSome
  | .resident => (s.block x.block).st.placed && x.leaving != some .evicted && x.leaving != some .suspended
  | .evicted | .suspended => false
  | _ => (s.block x.block).st.placed && (s.launchOf c).cls == 2 && !opp

/-- Courses on a core. -/
def State.coursesOn (s : State) (opp : Bool) (core : Nat) : List Nat :=
  (List.range s.courses.length).filter fun c => s.regsAt c == core && s.courseHolds opp c
/-- Blocks that have room on a core. -/
def State.blocksOn (s : State) (core : Nat) : List Nat :=
  (List.range s.blocks.length).filter fun b => (s.block b).core == core && (s.block b).st.placed

/-- The lowest free range of `size` in `limit`, at a multiple of `align` (R56, R57). -/
def lowestGap (used : List (Nat × Nat)) (size limit align : Nat) : Option Nat :=
  let up (n : Nat) : Nat := (n + align - 1) / align * align
  let cands := (0 :: used.map fun e => up (e.1 + e.2)).filter fun p =>
    decide (p + size ≤ limit) && used.all fun e => decide (p + size ≤ e.1) || decide (e.1 + e.2 ≤ p)
  cands.min?

/-- R32, R57: quarter and first register of each course, in the order given. -/
def carve (used : List (Nat × Nat × Nat)) : List (Nat × Nat) → Option (List (Nat × Nat × Nat))
  | [] => some []
  | (i, a) :: rest =>
    let fit := [0, 1, 2, 3].findSome? fun q =>
      let u := used.filter fun e => e.1 == q
      if Config.quarterCourses ≤ u.length then none
      else (lowestGap (u.map (·.2)) a Config.quarterRegs 1).map fun base => (q, base)
    match fit with
    | none => none
    | some (q, base) => (carve ((q, base, a) :: used) rest).map ((i, q, base) :: ·)

/-- Ranges in use on a core, apart from the courses `xc`. -/
def State.ranges (s : State) (opp : Bool) (core : Nat) (xc : List Nat) : List (Nat × Nat × Nat) :=
  ((s.coursesOn opp core).filter fun c => !xc.contains c).map fun c =>
    let x := s.course c
    (x.quarter, x.base, x.allot)

/-! ### Budgets and the save area (R19, R209, R359, R59) -/

/-- A region and its ancestors. -/
def State.chain (s : State) : Nat → Nat → List Nat
  | 0, r => [r]
  | fuel + 1, r =>
    match (s.region r).parent with
    | none => [r]
    | some p => r :: s.chain fuel p

/-- The block counts against region `r`. -/
def State.under (s : State) (r b : Nat) : Bool := (s.chain 8 (s.blockLaunch b).region).contains r

/-- Blocks that have room and count against region `r`, apart from `b` and `xb`. -/
def State.heldUnder (s : State) (r b : Nat) (xb : List Nat) : List Nat :=
  (List.range s.blocks.length).filter fun y => (s.block y).st.placed && !xb.contains y && y != b && s.under r y
/-- R19: levels whose SCRATCH_KIB block `b` would break with the blocks `xb` gone. -/
def State.overScratch (s : State) (b : Nat) (xb : List Nat) : List Nat :=
  (s.chain 8 (s.blockLaunch b).region).filter fun r =>
    decide (s.effScratch r * 1024 < ((s.heldUnder r b xb).map fun y => (s.block y).spSize).sum + (s.blockLaunch b).desc.blockBytes)
/-- R19: block `b` on `core` would break MAX_CORES of some level. -/
def State.overCores (s : State) (b core : Nat) (xb : List Nat) : Bool :=
  (s.chain 8 (s.blockLaunch b).region).any fun r =>
    decide (s.effMaxCores r < (core :: (s.heldUnder r b xb).map fun y => (s.block y).core).eraseDups.length)

/-- Bytes of the images of a block and its courses (R359). -/
def Desc.imageBytes (d : Desc) : Nat :=
  d.blockBytes + 4096 + ((List.range d.courses).map fun i => 4096 + 384 * d.allotOf i).sum

/-- Bytes of a context's save area behind its fixed part. -/
def Ctx.saveBytes (x : Ctx) : Nat := (x.ranges.map fun r => fld r 0 21 * 0x200000).sum - 0x100000

/-- R359: the save area has room for one more block. -/
def State.saveOk (s : State) (b : Nat) : Bool :=
  let l := s.blockLaunch b
  let held := (List.range s.blocks.length).filter fun y =>
    y != b && (s.blockLaunch y).ctx == l.ctx && (s.block y).st != .waiting && (s.block y).st != .ended
  decide (((held.map fun y => (s.blockLaunch y).desc.imageBytes).sum + l.desc.imageBytes) ≤ (s.ctx l.ctx).saveBytes)

/-! ### Room and victims (R56, R65, R66) -/

/-- Room found on a core: first byte of scratchpad, course number with quarter and first register, and the courses and
whole blocks that go. -/
structure Room where
  core : Nat
  spBase : Nat
  plan : List (Nat × Nat × Nat)
  xc : List Nat
  xb : List Nat
deriving DecidableEq, Repr, Inhabited

/-- Course `a` is a victim before course `b` (R66). -/
def State.victimBefore (s : State) (a b : Nat) : Bool :=
  let k (c : Nat) : Nat × Nat × Nat × Nat :=
    (s.effPrio (s.launchOf c).region, (s.launchOf c).seq, (s.block (s.course c).block).index, (s.course c).index)
  let x := k a
  let y := k b
  decide (x.1 < y.1) || (x.1 == y.1 && (decide (y.2.1 < x.2.1) || (x.2.1 == y.2.1 &&
    (decide (y.2.2.1 < x.2.2.1) || (x.2.2.1 == y.2.2.1 && decide (y.2.2.2 < x.2.2.2))))))

/-- R65: never evicted for room. -/
def State.protected (s : State) (c : Nat) : Bool :=
  ((s.course c).trap.level && (s.course c).place == .resident) || s.lanes.any fun q => q.course == c && q.st.live
/-- No course of the block is protected. -/
def State.blockFree (s : State) (y : Nat) : Bool := (s.block y).courses.all fun c => !s.protected c

/-- OPPORTUNE courses of a core that may go, in victim order. -/
def State.victimsOn (s : State) (core l : Nat) : List Nat :=
  sortBy s.victimBefore ((s.coursesOn false core).filter fun c =>
    (s.launchOf c).cls == 0 && s.launchIx c != l && (s.course c).place == .resident && (s.course c).leaving.isNone && !s.protected c)

/-- Whole OPPORTUNE blocks of a core that may go, in victim order: their scratchpad stays there even where every course of theirs is
parked, or was evicted alone (R66). -/
def State.blockVictims (s : State) (core l : Nat) : List Nat :=
  let first (y : Nat) : Nat := ((s.block y).courses.head?).getD 0
  sortBy (fun a b => s.victimBefore (first a) (first b)) ((s.blocksOn core).filter fun y =>
    (s.block y).st == .resident && (s.blockLaunch y).cls == 0 && (s.block y).launch != l && s.blockFree y
      && (s.block y).courses.all fun c => (s.course c).place != .resident || (s.course c).leaving.isNone)

/-- R209: the splits of what stays on the core and of context place `x` agree. -/
def State.splitOk (s : State) (core x : Nat) (xb : List Nat) : Bool :=
  ((s.blocksOn core).filter fun b => !xb.contains b).all fun b => (s.ctx (s.blockLaunch b).ctx).split == (s.ctx x).split

/-- Who may go: courses, and whole blocks. -/
structure Victims where
  courses : List Nat := []
  blocks : List Nat := []
deriving DecidableEq, Repr, Inhabited
def Victims.count (v : Victims) : Nat := v.courses.length + v.blocks.length
/-- The OPPORTUNE work of a core that launch `l` may count as room. -/
def State.victims (s : State) (core l : Nat) : Victims := ⟨s.victimsOn core l, s.blockVictims core l⟩

/-- Search for room, taking victims one at a time while room is missing (R65, R66): whole blocks where scratchpad is
missing, of those whose leaving brings it nearer, else whole courses. The budgets of R19 and the save area count as in
`bud`. -/
def State.findRoom (bud s : State) (b core : Nat) (need : List (Nat × Nat)) (whole : Bool) (cands : Victims) :
    Nat → List Nat → List Nat → Option Room
  | 0, _, _ => none
  | fuel + 1, xc, xb =>
    let l := s.blockLaunch b
    let regs := carve (s.ranges (l.cls == 0) core xc) need
    let used := ((s.blocksOn core).filter fun y => !xb.contains y && y != b && (s.block y).spSize != 0).map fun y =>
      ((s.block y).spBase, (s.block y).spSize)
    let gap := lowestGap used l.desc.blockBytes (Config.scratchBytes (s.ctx l.ctx).split) 256
    let same := s.splitOk core l.ctx xb
    let above := bud.overScratch b xb
    let sp := if !whole then some (s.block b).spBase else if same && above.isEmpty then gap else none
    if whole && ((s.ctx l.ctx).partitioned != s.partitioned || bud.overCores b core xb || !bud.saveOk b) then none
    else
      match regs, sp with
      | some plan, some base => some ⟨core, base, plan, xc, xb⟩
      | _, none =>
        let helps (y : Nat) : Bool :=
          (gap.isNone && (s.block y).spSize != 0) || above.any (fun r => s.under r y)
            || (s.ctx (s.blockLaunch y).ctx).split != (s.ctx l.ctx).split
        match cands.blocks.find? fun y => !xb.contains y && helps y with
        | none => none
        | some y =>
          let all := (s.coursesOn false core).filter fun c => (s.course c).block == y && (s.course c).place != .ended
          State.findRoom bud s b core need whole cands fuel (all ++ xc) (y :: xb)
      | none, some _ =>
        match cands.courses.find? fun c => !xc.contains c with
        | none => none
        | some c => State.findRoom bud s b core need whole cands fuel (c :: xc) xb

/-- R56 for block `b` on a core; `victims` counts OPPORTUNE courses as room. -/
def State.roomOn (bud s : State) (b core : Nat) (victims : Bool) : Option Room :=
  if s.mgmt.coresOut.contains core || (Cells.get none s.mgmt.draining core).isSome || (s.block b).courses.any (fun c => (s.course c).leaving.isSome) then none
  else
    let cands := if victims then s.victims core (s.block b).launch else {}
    State.findRoom bud s b core (s.blockNeed b) true cands (cands.count + 1) [] []

/-! ### Choosing (R58, R60, R62) -/

/-- Clusters that a launch's blocks may go to. -/
def State.poolOf (s : State) (l : Launch) : List Nat :=
  (List.range Config.clusters).filter fun k =>
    let x := s.cluster k
    x.pool == l.opclass && x.drain.isNone && x.readyAt == 0
      && (match l.die with | some d => k / 2 == d | none => true)

/-- Cores of a cluster in service. -/
def State.coresOf (s : State) (k : Nat) : List Nat :=
  ((List.range Config.coresPerCluster).map (Config.coresPerCluster * k + ·)).filter fun c => !s.mgmt.coresOut.contains c

/-- Free registers of a cluster. -/
def State.freeRegs (s : State) (opp : Bool) (k : Nat) : Nat :=
  ((s.coresOf k).map fun c => 4 * Config.quarterRegs - ((s.ranges opp c []).map fun e => e.2.2).sum).sum

/-- Clusters by free registers, most first, the lowest number on a tie. -/
def State.byFree (s : State) (opp : Bool) (ks : List Nat) : List Nat :=
  sortBy (fun a b => decide (s.freeRegs opp b < s.freeRegs opp a)) ks

/-- The clusters to try for a launch, apart from those held back. -/
def State.tryOrder (s : State) (l : Launch) (held : List Nat) (only : Option Nat) : List Nat :=
  let pool := (s.poolOf l).filter fun k => !held.contains k
  s.byFree (l.cls == 0) (match only with | some k => pool.filter (· == k) | none => pool)

/-- Resident courses of a core (R58). -/
def State.residentsOn (s : State) (core : Nat) : Nat :=
  (s.courses.zipIdx.filter fun e => e.1.place == .resident && s.coreOf e.2 == core && (s.block e.1.block).st.placed).length

/-- The start core that a block's set has, if it is fixed. -/
def State.setStart (s : State) (b : Nat) : Option Nat :=
  let x := s.block b
  let l := s.launch x.launch
  (l.sets.find? fun e => e.1 == x.index / max 1 l.desc.setCores).map (·.2)
/-- The block is a member of a block set. -/
def State.inSet (s : State) (b : Nat) : Bool := decide (2 ≤ (s.blockLaunch b).desc.setCores)
/-- Its place in the set. -/
def State.member (s : State) (b : Nat) : Nat := (s.block b).index % max 1 (s.blockLaunch b).desc.setCores

/-- Room for a single block: by R58, or on the core that its set gives it (R62, R64). -/
def State.spot (bud s : State) (b : Nat) (victims : Bool) (held : List Nat) (only : Option Nat) : Option Room :=
  let l := s.blockLaunch b
  let ks := s.tryOrder l held only
  if s.inSet b then
    match s.setStart b with
    | some start => if ks.contains (start / Config.coresPerCluster) then State.roomOn bud s b (start + s.member b) victims else none
    | none =>
      ks.findSome? fun k =>
        (List.range (97 - l.desc.setCores)).findSome? fun c =>
          State.roomOn bud s b (Config.coresPerCluster * k + c + s.member b) victims
  else
    ks.findSome? fun k =>
      (sortBy (fun a b => decide (s.residentsOn a < s.residentsOn b)) (s.coresOf k)).findSome? fun c => State.roomOn bud s b c victims

/-! ### Leaving a core (R65, R66, R268, R354, R357, R361, R363) -/

/-- The rotation queues of a cluster's pool learn that room was released there (R67). -/
def State.noteRoom (s : State) (k : Nat) : State :=
  { s with
    clusters := (List.range Config.clusters).foldl (fun m j =>
      if (s.cluster j).pool == (s.cluster k).pool && !(s.cluster j).rotation.isEmpty then
        Cells.update {} m j fun (x : ClusterSt) => { x with retry := true }
      else m) s.clusters }
/-- A block or reservation of a cluster is released: the placements that watch it learn of it, where half their wait has
passed (R63). -/
def State.noteRelease (s : State) (k : Nat) : State :=
  { s.noteRoom k with
    attempts := s.attempts.map fun (a : Attempt) =>
      if a.watched.contains k && decide (a.half ≤ s.clock) then { a with released := true } else a }

/-- The course is to go to `t` at its next instruction boundary, after an open latch window. -/
def State.leave (s : State) (c : Nat) (t : Residence) : State :=
  s.modCourse c fun x => if x.place == .resident && x.leaving.isNone then { x with leaving := some t } else x

/-- When a block was last resident, for its place in a rotation queue; one that never started counts as the oldest (R67). -/
def State.rotationKey (s : State) (b : Nat) : Nat := if (s.block b).begun then (s.block b).left + 1 else 0
/-- Put a waiting block into the rotation queue of a cluster, in order of the time each was last resident (R67). -/
def State.enqueueRotation (s : State) (b k : Nat) : State :=
  s.modCluster k fun x =>
    { x with rotation := insertBy (fun a b => decide (s.rotationKey a < s.rotationKey b)) b x.rotation }

/-- The cluster in whose queue a block that never started waits: the one that R58 would choose with its condition of room dropped,
or that of its set where the set's start is fixed (R67, log 46, DESIGN CHOICE: R62 gives such a block its core, and R67 does not
say that this cluster's queue is meant). -/
def State.homeCluster (s : State) (b : Nat) : Nat :=
  match s.setStart b with
  | some start => start / Config.coresPerCluster
  | none =>
    let l := s.blockLaunch b
    let pool := (List.range Config.clusters).filter fun k =>
      (s.cluster k).pool == l.opclass && (match l.die with | some d => k / 2 == d | none => true)
    ((s.byFree false pool).head?).getD 0

/-- A block waits for room: in the rotation where its launch is EVENTUAL, else as a placement of its own. -/
def State.awaitRoom (s : State) (b : Nat) : State :=
  let x := s.block b
  let l := s.blockLaunch b
  let s1 := s.modBlock b fun y => { y with since := (s.ctx l.ctx).run }
  if l.cls = 1 then
    s1.enqueueRotation b (if x.begun then x.core / Config.coresPerCluster else s.homeCluster b)
  else { s1 with attempts := s1.attempts ++ [{ launch := x.launch, blocks := [b] }] }

/-- R66: a whole block is evicted with its scratchpad image. -/
def State.evictBlock (s : State) (b : Nat) : State :=
  let s1 := (s.block b).courses.foldl (fun s c => if (s.course c).place = .ended then s.saveOps c else s.leave c .evicted) s
  ((s1.modBlock b fun y => { y with st := .evicted, ranQ := false, left := s.clock }).awaitRoom b).noteRelease
    ((s.block b).core / Config.coresPerCluster)

/-- Entry state of course `i` of block `b` (R34, R35). -/
def State.enterCourse (s : State) (b i quarter base : Nat) : Course :=
  let d := (s.blockLaunch b).desc
  let sp := if d.stack = 0 then 0 else d.scratch + (i + 1) * d.stack
  let consumer := decide (d.coursesP ≤ i)
  let sregs := Cells.set 0 (Cells.set 0 [] 1 d.param) 56 (BitVec.ofNat 64 sp)
  let sight : Sight := { time := (s.blockLaunch b).after }
  { block := b, index := i, consumer := consumer, allot := d.allotOf i, quarter := quarter, base := base
    regs := { s := sregs }, ejthr := d.thresh.getD 2, sight := sight
    splits := [{ pc := if consumer then d.entryC else d.entryP, m := Mask.all, a := Mask.all }] }

/-- Cycles until a placed block's courses are ready: zeroing (R210), or the restore of its images (R363). -/
def State.startTime (s : State) (b : Nat) : Nat :=
  let d := (s.blockLaunch b).desc
  if (s.block b).courses.isEmpty then (d.blockBytes + 255) / 256
  else
    64 + (3 * ((List.range d.courses).map d.allotOf).foldl max 0 + 3) / 4 + (d.blockBytes + 511) / 512

/-- A message takes a send permit, or waits for one (R49). -/
def Messages.send (m : Messages) (x : Nat) : Messages :=
  if m.sent.length < 32 then { m with sent := m.sent ++ [x] } else { m with kept := m.kept ++ [x] }
/-- The receiver frees the oldest message, whose permit a message that waits takes (R49). -/
def Messages.deliver (m : Messages) : Messages := { sent := m.sent.drop 1 ++ m.kept.take 1, kept := m.kept.drop 1 }
def Messages.holds (m : Messages) (x : Nat) : Bool := m.sent.contains x || m.kept.contains x

/-- Take room for block `b`: the victims leave, and the leaf carves scratchpad and registers (R57, R61, R62). -/
def State.take (s : State) (b : Nat) (r : Room) : State :=
  let l := (s.block b).launch
  let s1 := r.xb.foldl (fun s y => s.evictBlock y) s
  let s2 := (r.xc.filter fun c => !r.xb.contains (s.course c).block).foldl (fun s c => s.leave c .evicted) s1
  let s3 := s2.modBlock b fun y =>
    { y with core := r.core, spBase := r.spBase, spSize := (s.blockLaunch b).desc.blockBytes, st := .starting (s.clock + s.startTime b) }
  let s4 :=
    if (s.block b).courses.isEmpty then
      let cs := sortBy (fun a b => decide (a.1 < b.1)) r.plan
      { (s3.modBlock b fun y => { y with courses := (List.range cs.length).map (s3.courses.length + ·) }) with
        courses := s3.courses ++ cs.map fun e => s3.enterCourse b e.1 e.2.1 e.2.2 }
    else
      (s.block b).courses.foldl (fun s c =>
        match r.plan.find? fun e => e.1 == (s.course c).index with
        | some (_, q, base) => s.modCourse c fun x => { x with quarter := q, base := base, place := .resident }
        | none => s) s3
  let s5 := s4.modCluster (r.core / Config.coresPerCluster) fun k => { k with down := k.down.send b }
  if s.inSet b && (s.setStart b).isNone then
    s5.modLaunch l fun y => { y with sets := ((s.block b).index / y.desc.setCores, r.core - s.member b) :: y.sets }
  else s5

/-- Place a single block, if room is found. -/
def State.placeOne (s : State) (b : Nat) (victims : Bool) (held : List Nat) (only : Option Nat) : Option State :=
  (State.spot s s b victims held only).map fun r => s.take b r

/-! ### Gangs (R61, R62, R28) -/

/-- The members of a set on cores from a start core: in `w`, what earlier choices took is taken. -/
def State.takeSet (bud w : State) (start : Nat) (victims : Bool) : List Nat → Option (State × List (Nat × Nat))
  | [] => some (w, [])
  | b :: bs =>
    match State.roomOn bud w b (start + w.member b) victims with
    | none => none
    | some r => (State.takeSet bud (w.take b r) start victims bs).map fun e => (e.1, (b, r.core) :: e.2)

/-- R61, choose: a core for every block in ascending index. In `w`, the registers, slots and scratchpad of earlier choices
are taken; the budgets count as they stood before. -/
def State.choose (bud : State) (victims : Bool) (held : List Nat) : Nat → State → List Nat → Option (List (Nat × Nat))
  | _, _, [] => some []
  | 0, _, _ => none
  | fuel + 1, w, b :: bs =>
    let l := w.blockLaunch b
    if w.inSet b && (w.setStart b).isNone then
      let n := l.desc.setCores
      let mine := (b :: bs).filter fun y => (w.block y).index / n == (w.block b).index / n
      match (w.tryOrder l held none).findSome? fun k =>
          (List.range (97 - n)).findSome? fun c => State.takeSet bud w (Config.coresPerCluster * k + c) victims mine with
      | none => none
      | some e => (State.choose bud victims held fuel e.1 ((b :: bs).filter fun y => !mine.contains y)).map (e.2 ++ ·)
    else
      match State.spot bud w b victims held none with
      | none => none
      | some r => (State.choose bud victims held fuel (w.take b r) bs).map ((b, r.core) :: ·)

/-- R61, reserve and commit: the room of every choice, core by core. Where one fails: its core, and the cores of those that were
made before, which are released. -/
def State.reserve (s : State) (victims : Bool) : List (Nat × Nat) → Except (Nat × List Nat) State
  | [] => .ok s
  | e :: rest =>
    match State.roomOn s s e.1 e.2 victims with
    | none => .error (e.2, [])
    | some r => ((s.take e.1 r).reserve victims rest).mapError fun f => (f.1, e.2 :: f.2)

/-- R61: place blocks together, all or none. Where the attempt fails: at which reservation, or none where it failed at a
choice. -/
def State.gang (s : State) (victims : Bool) (held : List Nat) (bs : List Nat) : Except (Option (Nat × List Nat)) State :=
  match State.choose s victims held (bs.length + 1) s bs with
  | none => .error none
  | some cs => (s.reserve victims (sortBy (fun a b => decide (a.2 < b.2)) cs)).mapError some

/-- R28: clusters held back for a RESIDENT launch of context place `x`. -/
def State.heldBack (s : State) (x : Nat) : List Nat :=
  (List.range Config.clusters).filter fun k =>
    (s.cluster k).rotation.any fun b =>
      let l := s.blockLaunch b
      l.ctx == x && l.cls == 1 && decide (4 * 2 ^ l.qlog ≤ (s.ctx x).run - (s.block b).since)

/-! ### Vacating (R362) -/

/-- The course is off its core: its unstarted operations are saved with it and its latches are invalid. -/
def State.vacate (s : State) (c : Nat) (t : Residence) : State :=
  let s1 := (s.saveOps c).modCourse c fun x =>
    { x with place := t, leaving := none, win := none, dirty := [], parkedAt := s.run c, regs := { x.regs with bl := [] } }
  s1.noteRoom (s.coreOf c / Config.coresPerCluster)

/-- A course that is off its core alone may come back as soon as there is room (R142, R66, R354, R357, R367). -/
def State.waitOver (s : State) (c : Nat) : Bool :=
  let x := s.course c
  (s.block x.block).st == .resident && (s.ctx (s.ctxOf c)).st == .running && x.leaving.isNone
    && !s.quotaStopped 9 (s.launchOf c).region
    && match x.place with
      | .evicted | .parkedQuota => true
      | .parkedPage => !(x.splits.any fun y => y.wait.isPage)
      | .parkedSvc => !(x.splits.any fun y => match y.wait with | .svc _ => true | _ => false)
      | .parkedEject =>
        (List.range 8).all (fun t => (s.outstanding c t).isEmpty)
          || (List.range 8).any fun t =>
            !(s.outstanding c t).isEmpty
              && (match (x.token t).hardTimer with | some t0 => decide (t0 + (s.launchOf c).desc.hardTime ≤ s.run c) | none => false)
      | _ => false

/-- A course that is to leave does so once its window is closed and no started operation of it runs; the registers of an
ended course are freed once no operation uses them (R376). -/
def State.settleRooms (s : State) : State :=
  (List.range s.courses.length).foldl (fun s c =>
    let x := s.course c
    match x.place, x.leaving with
    | .resident, some t => if x.win.isNone && !s.engineBusy c then s.vacate c t else s
    | .ended, _ =>
      if !x.freed && !(s.ops.any fun o => o.course == c) then
        (s.modCourse c fun y => { y with freed := true, leaving := none }).noteRoom (s.coreOf c / Config.coresPerCluster)
      else s
    | _, _ => if x.waitFrom.isNone && s.waitOver c then s.modCourse c fun y => { y with waitFrom := some (s.run c) } else s) s

/-! ### Coming back (R142, R362) -/

/-- Waits of a course that comes back: marks are examined at once, stalled instructions issue again (R320). -/
def Wait.restored : Wait → Wait
  | .mark va v cond sgn sc d _ => .mark va v cond sgn sc d 0
  | .stalled | .member _ => .ready
  | w => w

/-- The course is on its core again: its leases and those of its ejected lanes are gone (R287), and its tokens are settled with what happened meanwhile
(R420). -/
def State.revive (s : State) (c : Nat) : State :=
  let s1 := s.modCourse c fun x =>
    { x with
      place := .resident
      sight := { x.sight with since := s.tick + 1 }
      waitFrom := none
      quotaDue := x.quotaDue || (x.place == .parkedQuota && !x.trap.level)
      trap := if x.place == .parkedPage || x.place == .parkedQuota then
          { x.trap with parked := x.trap.parked + (s.run c - x.parkedAt) } else x.trap
      splits := x.splits.map fun y => { y with wait := y.wait.restored, buf := [] } }
  let s2 := { s1 with lanes := s1.lanes.map fun (q : Lane) =>
    if q.course == c then { q with sight := { q.sight with since := s.tick + 1 } } else q }
  (s2.restoreOps c).settle c

/-- Room for course `c` alone on its own core (R142). -/
def State.returnRoom (s : State) (c : Nat) (victims : Bool) : Option Room :=
  let x := s.course c
  let core := s.coreOf c
  let cands : Victims := if victims then { courses := s.victimsOn core (s.launchIx c) } else {}
  let own := if (s.coursesOn false core).contains c then [c] else []
  State.findRoom s s x.block core [(x.index, x.allot)] false cands (cands.count + 1) own []

/-- The course takes its room and is restored; it issues once the victims have left (R66). -/
def State.takeReturn (s : State) (c : Nat) (r : Room) : State :=
  let s1 := (r.xc.filter (· != c)).foldl (fun s d => s.leave d .evicted) s
  match r.plan with
  | (_, q, base) :: _ => (s1.modCourse c fun x => { x with quarter := q, base := base }).revive c
  | [] => s

end Sys2Proof.Machine
end

