-- ==== Sys2Proof/Machine/Sync.lean ====
section
/-!
DEFINITION. Marks, the class check and promotion, the block barriers, SWAIT, YIELD and SLEEP: 0xD0 to 0xDB (R302 to
R327).
-/

namespace Sys2Proof.Machine

/-! ### Marks (R302, R303, R317) -/

/-- R317: the place of the mark at `a`, for an access that reads, or reads and writes. -/
def State.markLeaf (s : State) (a : Word) (wr : Bool) : Except Exn Leaf := do
  if a.toNat % 32 ≠ 0 then .error (trapC tMisaligned a)
  else
    let f ← s.walkChecked (s.ctxOf s.curCourse) (s.launchIx s.curCourse) a { n := 32, wr := wr }
    if f.pol == 1 || f.pol == 3 then .error (trapC tProtection a 8)
    else if f.fmt ≠ 0 then .error (trapC tFormat a 6)
    else if isPool f.pa && !s.poolUp then .error (trapC tPoolLost a 9)
    else if (List.range 32).any fun i => if f.pol = 2 then s.memPoison (f.pa + i) else s.poisoned (f.pa + i) then .error (trapC tPoison a 7)
    else .ok f

/-- VALUE of a mark as the agent reads it, with no lease (R287, R302). -/
def State.markValue (s : State) (f : Leaf) : Word × State :=
  let r := s.readHere f.pol f.pa 8
  (BitVec.ofNat 64 (leNat r.1), r.2)
/-- A 64-bit field of a mark as the device reads it: VALUE at 0, SETTER at 8. -/
def State.markWord (s : State) (f : Leaf) (off : Nat) : Word := BitVec.ofNat 64 (leNat (s.readBytes f.pol (f.pa + off) 8))
def State.markWaiting (s : State) (f : Leaf) : Nat := leNat (s.readBytes f.pol (f.pa + 18) 2)
def State.markWclass (s : State) (f : Leaf) : Nat := (s.readByte f.pol (f.pa + 20)).toNat % 4

/-- External setter. -/
def setterExternal : Word := 0xFFFFFFFFFFFFFFFF

/-- What a SETTER value names in a context (R303, R306). -/
inductive Setter where
  | unbound | external
  | launch (l : Nat)
deriving DecidableEq, Repr, Inhabited

def State.setterOf (s : State) (x : Nat) (w : Word) : Setter :=
  if w = 0 then .unbound
  else if w = setterExternal then .external
  else
    match s.launches.findIdx? fun l => l.ctx == x && l.id == w.toNat with
    | some l => .launch l
    | none => .unbound

/-- Byte 16 of a mark: SCLASS and RETIRED. -/
def markStatus (cls : Nat) (retired : Bool) : Nat := cls % 4 + (if retired then 4 else 0)

/-- MKINIT (R318): all 32 bytes as one write. -/
def execMkinit (o : Sys) (s : State) : Host.Outcome State Fault Refusal :=
  seqInstr (.mkinit o) (fun t => do
    let c := t.curCourse
    let f ← t.markLeaf (t.sreg o.a.toNat) true
    let v := t.sreg o.b.toNat
    let own := t.launchOf c
    if t.markWaiting f ≠ 0 then .error (trapC tBarrier 0 1)
    else
      let write (setter : Word) (status : Nat) : Except Exn State :=
        .ok (t.storePhys 0 f.pol f.pa (natLe 8 0 ++ natLe 8 setter.toNat ++ natLe 16 status))
      if o.x = 0 then write (BitVec.ofNat 64 own.id) (markStatus own.cls false)
      else if o.x = 1 then
        match t.setterOf (t.ctxOf c) v with
        | .launch l => write v (markStatus (t.launch l).cls ((t.launch l).st == .retired))
        | .unbound | .external => .error (trapC tBarrier 0 2)
      else write setterExternal (markStatus 2 false)) s

/-- MKSET and MKADD (R319): `f` of the old VALUE and the operand. -/
def markUpdate (i : Instr) (o : Sys) (imm : Word) (f : Word → Word → Word) (s : State) : Host.Outcome State Fault Refusal :=
  seqInstr i (fun t => do
    let a := t.sreg o.a.toNat
    let leaf ← t.markLeaf a true
    let scope := o.x.toNat % 8
    let v := if o.x.getLsbD 4 then imm else t.sreg o.b.toNat
    let r := (if o.x.getLsbD 3 then t.release scope else t).markValue leaf
    let t2 := (r.2.storePhys 0 leaf.pol leaf.pa (natLe 8 (f r.1 v).toNat)).performAt scope
    let t3 := (t2.wakeMark leaf.pa).setS o.d.toNat r.1
    .ok (if isPool leaf.pa && decide (4 ≤ scope) then t3.markComingS o.d.toNat a true else t3)) s

def execMkset (o : Sys) (s : State) : Host.Outcome State Fault Refusal :=
  markUpdate (.mkset o) o (o.imm.zeroExtend 64) (fun _ v => v) s
def execMkadd (o : Sys) (s : State) : Host.Outcome State Fault Refusal :=
  markUpdate (.mkadd o) o (o.imm.signExtend 64) (fun old v => old + v) s

/-! ### The class check (R305, R306, R310) -/

/-- R306 before any promotion. -/
inductive Check where
  | childJoin | unbound | external | retired | strong
  | weak (l : Nat)
deriving DecidableEq, Repr, Inhabited

/-- R306 for a waiter of launch `own` against class `cls`, by the mark's SETTER. -/
def State.classCheck (s : State) (own cls : Nat) (setter : Word) : Check :=
  match s.setterOf (s.launch own).ctx setter with
  | .unbound => .unbound
  | .external => .external
  | .launch l =>
    let y := s.launch l
    if y.st == .held && y.parent == (s.launch own).id then .childJoin
    else if y.st == .retired || y.st == .lost then .retired
    else if cls ≤ y.cls then .strong
    else .weak l

/-- R310: WEAK_WAIT with its sub-code, the waiter's class and the setter's. -/
def weakWait (a : Word) (sub wcls scls : Nat) : Exn :=
  trapC tWeakWait a (BitVec.ofNat 64 (sub + 256 * scls + 1024 * wcls))

/-- The current class of a setter, 0 when unbound (R310). -/
def State.setterClass (s : State) (x : Nat) (w : Word) : Nat :=
  match s.setterOf x w with
  | .launch l => (s.launch l).cls
  | .external => 2
  | .unbound => 0

/-! ### Promotion (R307 to R309) -/

/-- The launch's blocks leave attempts and rotations. -/
def State.dropWaiting (s : State) (bs : List Nat) : State :=
  { s with
    attempts := s.attempts.filter fun a => !a.blocks.any bs.contains
    clusters := (List.range Config.clusters).foldl (fun m j =>
      if (s.cluster j).rotation.any bs.contains then
        Cells.update {} m j fun (x : ClusterSt) => { x with rotation := x.rotation.filter fun b => !bs.contains b }
      else m) s.clusters }

/-- Bring back every evicted course of the resident blocks of launch `l`. -/
def State.returnAll (s : State) : List Nat → Option State
  | [] => some s
  | c :: cs =>
    match s.returnRoom c true with
    | none => none
    | some r => (s.takeReturn c r).returnAll cs

/-- R307, R308: raise launch `l` to class `cls`, or `none` where gang admission fails. -/
def State.raiseClass (s : State) (l cls : Nat) : Option State :=
  let y := s.launch l
  let s1 := s.modLaunch l fun z => { z with cls := cls }
  let waiting := (s.launchBlocks l).filter fun b => (s.block b).st == .waiting || (s.block b).st == .evicted
  if y.st == .held then some s1
  else if cls = 1 then some (waiting.foldl (fun s b => s.awaitRoom b) (s1.dropWaiting waiting))
  else
    let out := (List.range s.courses.length).filter fun c =>
      s.launchIx c == l && (s.block (s.course c).block).st == .resident && (s.course c).place == .evicted
    match (s1.dropWaiting waiting).gang true [] waiting with
    | .error _ => none
    | .ok t => t.returnAll out

/-- How a promotion ends (R309). -/
inductive Promo where
  | done | failed | depth
deriving DecidableEq, Repr, Inhabited

/-- A waiter of launch `l`: agent, and the address of its mark. -/
def State.marksHeld (s : State) (l : Nat) : List (Agent × Word) :=
  ((List.range s.courses.length).filter fun c => s.launchIx c == l).flatMap (fun c =>
      (s.course c).splits.zipIdx.filterMap fun e => e.1.wait.markOf.map fun a => (Agent.course c e.2, a))
    ++ (s.lanes.zipIdx.filterMap fun e =>
      if s.launchIx e.1.course == l && e.1.st.live then e.1.wait.markOf.map fun a => (Agent.lane e.2, a) else none)

/-- A trap of an agent that waits. One of a course that has a trap in hand is raised when its instruction issues
again (R345). -/
def State.waitTrap (s : State) (a : Agent) (e : Exn) : State :=
  s.as a fun s =>
    let busy :=
      match a with
      | .course c k =>
        let x := s.course c
        (x.trap.level && !(x.splits.getD k default).handler) || !x.pending.isEmpty
      | _ => false
    if busy then s.setWait .stalled s.pc
    else
      match s.settleExn s.pc 0 e with
      | .next t => t
      | _ => s

/-- R309: check the wait of agent `a` again after its launch `l` was raised: the setter to promote next, if any. -/
def State.recheckWait (s : State) (l : Nat) (a : Agent) (va : Word) : State × Option Nat :=
  let x := (s.launch l).ctx
  let cls := (s.launch l).cls
  let setter := match (s.translate x va).toOption with
    | some f => s.markWord f 8
    | none => setterExternal
  let weak (sub : Nat) : State :=
    (s.waitTrap a (weakWait va sub cls (s.setterClass x setter))).noteMark ({ s with cur := a } : State).curCourse va
  match s.classCheck l cls setter with
  | .childJoin => (weak 4, none)
  | .unbound => (weak 5, none)
  | .external | .retired | .strong => (s, none)
  | .weak t => if (s.launch l).fault then (weak 1, none) else (s, some t)

/-- R307 to R309: promote launch `l` to `cls` as link 9 − fuel, and follow the waits of its courses. -/
def State.promote (s : State) : Nat → Nat → Nat → State × Promo
  | 0, _, _ => (s, .depth)
  | fuel + 1, l, cls =>
    if cls ≤ (s.launch l).cls then (s, .done)
    else
      match s.raiseClass l cls with
      | none => (s, .failed)
      | some t =>
        (t.marksHeld l).foldl (fun (p : State × Promo) e =>
          match p.1.recheckWait l e.1 e.2 with
          | (u, some y) =>
            if cls ≤ (u.launch y).cls then (u, p.2)
            else
              let r := u.promote fuel y cls
              (r.1, if p.2 = .done then r.2 else p.2)
          | (u, none) => (u, p.2)) (t, .done)

/-- Links of a promotion chain (R309). -/
def promoLinks : Nat := 8

/-! ### WAITM (R320) -/

/-- COND and SGN of R320. -/
def markHolds (cond : Nat) (sgn : Bool) (v c : Word) : Bool := condHolds cond (intOf sgn 64 v.toNat) (intOf sgn 64 c.toNat)

/-- End an instruction with an exception in a state that keeps what was done before it. -/
def State.raiseHere (s : State) (pc len : Word) (e : Exn) : Except Exn State :=
  match s.settleExn pc len e with
  | .next t => .ok t
  | _ => .ok s

/-- Read VALUE, end the wait or begin it. -/
def State.readMark (t : State) (o : Sys) (f : Leaf) (va c : Word) (gone : Bool) (cls scls : Nat) (pc next : Word) :
    Except Exn State :=
  let cond := o.x.toNat % 8
  let sgn := o.x.getLsbD 3
  let scope := o.x.toNat / 32 % 8
  let r := t.markValue f
  let u := r.2.acquire scope
  if markHolds cond sgn r.1 c then .ok ((u.setS o.d.toNat r.1).setPc next)
  else if gone then u.raiseHere pc 0 (weakWait va 6 cls scls)
  else .ok ((u.setWait (.mark va c cond sgn scope o.d (t.run t.curCourse + 65536)) next).noteMark t.curCourse va)

def execWaitm (o : Sys) (s : State) : Host.Outcome State Fault Refusal :=
  instr (.waitm o) (fun t => do
    let va := t.sreg o.a.toNat
    let pc := s.pc
    let next := s.pc + Instr.len (.waitm o)
    let f ← t.markLeaf va false
    let l := t.launchIx t.curCourse
    let cls := (t.launch l).cls
    let imm : Word := if o.x.getLsbD 3 then o.imm.signExtend 64 else o.imm.zeroExtend 64
    let c := if o.x.getLsbD 4 then imm else t.sreg o.b.toNat
    let setter := t.markWord f 8
    let weak (u : State) (sub : Nat) : Except Exn State :=
      u.raiseHere pc 0 (weakWait va sub cls (u.setterClass (t.launch l).ctx setter))
    match t.classCheck l cls setter with
    | .childJoin => weak t 4
    | .unbound => weak t 5
    | .external | .strong => t.readMark o f va c false cls 0 pc next
    | .retired => t.readMark o f va c true cls (t.setterClass (t.launch l).ctx setter) pc next
    | .weak y =>
      if (t.launch l).fault then weak t 1
      else
        match t.promote promoLinks y cls with
        | (u, .done) => u.readMark o f va c false cls 0 pc next
        | (u, .failed) => weak u 2
        | (u, .depth) => weak u 3) s

/-- R304, R320: examine the mark that agent `a` waits on again. -/
def State.reexamine (s : State) (a : Agent) : State :=
  s.as a fun s =>
    match s.wait with
    | .mark va c cond sgn sc d _ =>
      match s.markLeaf va false with
      | .error e => (s.waitTrap a e).noteMark s.curCourse va
      | .ok f =>
        let r := s.markValue f
        let s := r.2.acquire sc
        if markHolds cond sgn r.1 c then
          let t := (s.setS d.toNat r.1).clearWait
          let u := match a with
            | .course c k => t.setPc (s.split c k).next
            | .lane q => t.setPc (s.lane q).next
            | .none => t
          u.noteMark s.curCourse va
        else
          let w : Wait := .mark va c cond sgn sc d (s.run s.curCourse + 65536)
          match a with
          | .course c k => s.modSplit c k fun x => { x with wait := w }
          | .lane q => s.modLane q fun x => { x with wait := w }
          | .none => s
    | _ => s

/-! ### SWAIT (R321) -/

def execSwait (o : Sys) (s : State) : Host.Outcome State Fault Refusal :=
  instr (.swait o) (fun t => do
    let next := s.pc + Instr.len (.swait o)
    let off ← t.checkSync (t.sreg o.a.toNat)
    let g : BitVec 32 := if o.x = 1 then o.imm.zeroExtend 32 else (t.sreg o.b.toNat).extractLsb' 0 32
    let b := (t.course t.curCourse).block
    match t.syncDone b off g with
    | some v => .ok ((t.endSync b off o.d v).setPc next)
    | none => .ok (t.setWait (.sync off g o.d) next)) s

/-! ### BAR, BARA, BARW (R311 to R315, R322) -/

/-- The splits that issued the instruction together wait for phase `p` of barrier `b`, each since its own issue. -/
def State.waitBar (s : State) (c : Nat) (parts : List Joiner) (b : Nat) (p : BitVec 16) (d : BitVec 6) (arrived : Bool) : State :=
  parts.foldl (fun s j =>
    s.modSplit c j.k fun x =>
      { x with wait := .bar b p d arrived, since := j.sp.since, next := j.sp.pc + Instr.len j.i }) s

/-- The splits that issued the instruction together go on, and sD is written once (R312). -/
def State.passBar (s : State) (c k : Nat) (parts : List Joiner) (d : BitVec 6) (v : Word) : State :=
  let s1 := parts.foldl (fun s j =>
    s.modSplit c j.k fun x => { x with wait := .ready, pc := j.sp.pc + Instr.len j.i }) s
  s1.as (.course c k) fun s => s.setS d.toNat v

/-- R312: an arrival with a count, or `none` where the count conflicts. -/
def Bar.arrive (x : Bar) (count : Nat) : Option Bar :=
  match x.expect with
  | none => some { x with count := x.count + 1, expect := some count }
  | some e => if e ≠ 0 ∧ count ≠ 0 ∧ e ≠ count then none else some { x with count := x.count + 1 }

/-- A barrier instruction: its operand, which a split that stalls has read already (R312), then the effect once every split has
issued it. -/
def barrier (i : Instr) (operand : State → Except Exn Word) (effect : State → Nat → Nat → List Joiner → Word → State)
    (s : State) : Host.Outcome State Fault Refusal :=
  instr i (fun t => do
    let v ← match s.wait with
      | .join _ ops => (.ok (ops.headD (0, 0, 0, 0)).2.1 : Except Exn Word)
      | _ => operand t
    match t.cur with
    | .course c k =>
      let ops := [(0, v, 0, 0)]
      match t.meet c k i 0 ops with
      | .fault => .error (trapC tBarrier)
      | .failed u => .ok u
      | .wait => .ok (t.setWait (.join i ops) (s.pc + Instr.len i))
      | .go parts => .ok (effect t c k parts v)
    | _ => .ok t) s

/-- The count of BAR and BARA: an immediate, or sB bits 4:0 (R322). -/
def barCount (o : Sys) (t : State) : Except Exn Word :=
  if o.x.getLsbD 4 then
    let n : Word := t.sreg o.b.toNat &&& 31
    if 16 < n.toNat then .error (trapC tBarrier 0 4) else .ok n
  else .ok (o.imm.zeroExtend 64)

/-- BAR and BARA: arrive as a release at BLOCK scope (R315), then wait or go on. -/
def arriveBar (o : Sys) (wait : Bool) (t : State) (c k : Nat) (parts : List Joiner) (v : Word) : State :=
  let b := (t.course c).block
  let n := o.x.toNat % 16
  let x := t.bar b n
  match x.arrive v.toNat with
  | none => t.failMeet c parts t.pc
  | some y =>
    let t0 := t.release 1
    let t1 := t0.setBar b n { y with time := max y.time t0.sight.time }
    let t2 := if wait then t1.waitBar c parts n x.phase o.d true else t1.passBar c k parts o.d (t1.barResult b x.phase)
    (t2.checkBar b n).judgeBars b

def execBar (o : Sys) (s : State) : Host.Outcome State Fault Refusal :=
  barrier (.bar o) (barCount o) (arriveBar o true) s
def execBara (o : Sys) (s : State) : Host.Outcome State Fault Refusal :=
  barrier (.bara o) (barCount o) (arriveBar o false) s

def execBarw (o : Sys) (s : State) : Host.Outcome State Fault Refusal :=
  barrier (.barw o) (fun t => .ok (t.sreg o.b.toNat &&& 0xFFFF)) (fun t c k parts v =>
    let b := (t.course c).block
    let n := o.x.toNat % 16
    let p : BitVec 16 := v.extractLsb' 0 16
    if (t.bar b n).phase ≠ p then (t.passBar c k parts o.d (t.barResult b p)).notBefore (t.bar b n).time
    else (t.waitBar c parts n p o.d false).judgeBars b) s

/-! ### PROMOTE and CLSRD (R323, R324) -/

def execPromote (o : Sys) (s : State) : Host.Outcome State Fault Refusal :=
  seqInstr (.promote o) (fun t => do
    let f ← t.markLeaf (t.sreg o.a.toNat) false
    let l := t.launchIx t.curCourse
    let cls := (t.launch l).cls
    let r : State × Nat :=
      match t.classCheck l cls (t.markWord f 8) with
      | .childJoin => (t, 4)
      | .unbound => (t, 5)
      | .external | .retired | .strong => (t, 0)
      | .weak y =>
        match t.promote promoLinks y cls with
        | (u, .done) => (u, 1)
        | (u, .failed) => (u, 2)
        | (u, .depth) => (u, 3)
    .ok (r.1.setS o.d.toNat (BitVec.ofNat 64 r.2))) s

/-- Bits 4:0 of CLSRD's mark form. -/
def State.setterBits (s : State) (x : Nat) (setter : Word) : Nat :=
  match s.setterOf x setter with
  | .unbound => 16
  | .external => 8 + 2
  | .launch l => if (s.launch l).st == .retired then 4 else (s.launch l).cls

def execClsrd (o : Sys) (s : State) : Host.Outcome State Fault Refusal :=
  seqInstr (.clsrd o) (fun t => do
    let own := t.launchOf t.curCourse
    if o.a = 0 then .ok (t.setS o.d.toNat (BitVec.ofNat 64 (own.cls + 4 * own.admitted)))
    else
      let f ← t.markLeaf (t.sreg o.a.toNat) false
      let v := t.markWclass f * 2 ^ 48 + t.markWaiting f * 2 ^ 32 + t.setterBits own.ctx (t.markWord f 8)
      .ok (t.setS o.d.toNat (BitVec.ofNat 64 v))) s

/-! ### YIELD and SLEEP (R325, R326) -/

/-- R325: the course counts as the one that issued last; under `.quantum` an EVENTUAL block has run Q. -/
def State.yields (s : State) (quantum : Bool) : State :=
  match s.cur with
  | .course c _ =>
    let t := s.modCourse c fun x => { x with last := s.tick }
    if quantum && (s.launchOf c).cls == 1 then t.modBlock (s.course c).block fun y => { y with ranQ := true } else t
  | _ => s

def execYield (o : Sys) (s : State) : Host.Outcome State Fault Refusal :=
  seqInstr (.yield o) (fun t => .ok (t.yields (o.x == 1))) s

/-- SLEEP: in running time of the context, or in cycles in an ejected lane. -/
def execSleep (o : Sys) (s : State) : Host.Outcome State Fault Refusal :=
  instr (.sleep o) (fun t =>
    let n := if o.x = 1 then o.imm.toNat else (t.sreg o.a.toNat).toNat
    let next := s.pc + Instr.len (.sleep o)
    if n = 0 then .ok ((t.yields false).setPc next)
    else
      let now := if t.isLane then t.clock else t.run t.curCourse
      .ok (t.setWait (.sleep (now + n)) next)) s

/-- SLEEP_EXPIRE: the time has run and the course is on its core. -/
def execSleepExpire (p : Party) (s : State) : Host.Outcome State Fault Refusal :=
  match p with
  | .course c k =>
    match (s.split c k).wait with
    | .sleep t => if (s.course c).place == .resident && decide (t ≤ s.run c) then .next (s.resume c k) else .next s
    | _ => .next s
  | .lane q =>
    match (s.lane q).wait with
    | .sleep t => if decide (t ≤ s.clock) then .next (s.resumeLane q) else .next s
    | _ => .next s
  | .copy _ | .op _ => .next s

end Sys2Proof.Machine
end

