-- ==== Sys2Proof/Machine/System.lean ====
section
/-!
DEFINITION. The service ring, traps by instruction, state registers, CKILL and CKPT: 0xE0 to 0xE7 (R343, R366 to R371),
the guard pattern of the pooled tier and reserved opcodes (R84, R90).
-/

namespace Sys2Proof.Machine

/-! ### The fixed part of a save area (R359) -/

/-- First byte of RANGE0 of the context at place `x`. -/
def State.saveBase (s : State) (x : Nat) : Nat := fld ((s.ctx x).ranges.headD 0) 21 31 * 0x200000

/-- A store under a POLICY that no course makes: it races chunks under way (R300). -/
def State.storeRaced (s : State) (pol pa : Nat) (bs : List Byte) : State :=
  let r := s.raceShadows .none pol none (.phys pa) bs
  r.2.storeBytes pol pa r.1
/-- Write bytes of the device's own, and write them back so that host software sees them; a line that L2 did not hold is not held
afterwards. -/
def State.hostStore (s : State) (pa : Nat) (bs : List Byte) : State :=
  ((List.range ((pa % 128 + bs.length + 127) / 128)).map (pa / 128 + ·)).foldl (fun t ln =>
    let u := t.cleanLine ln
    if s.inL2 ln then u
    else { u with wb := Cells.erase u.wb ln, tags := Cells.erase u.tags ln, linePoison := u.linePoison.filter fun e => e.1 / 2 != ln })
    (s.storeRaced 0 pa bs)

/-- Indices of the fixed part: 0 SVC_HEAD, 1 SVC_TAIL, 2 FLOG_HEAD, 3 FLOG_TAIL, 4 PF_HEAD, 5 PF_TAIL. -/
def State.saveIx (s : State) (x i : Nat) : Nat := (s.read64 (s.saveBase x + 8 * i)).toNat
def State.setSaveIx (s : State) (x i n : Nat) : State := s.hostStore (s.saveBase x + 8 * i) (natLe 8 n)

/-- Raise the vector of the context at place `x` (R42). -/
def State.raiseVector (s : State) (x : Nat) : State := { s with vectors := (s.ctx x).vector :: s.vectors }

/-! ### SVC (R366, R367) -/

/-- The header slot of a request. -/
def svcHeader (launch block course service : Nat) (lanes : Mask) : List Byte :=
  natLe 8 launch ++ natLe 4 block ++ natLe 1 course ++ natLe 1 (maskCount lanes) ++ natLe 2 service
    ++ natLe 12 lanes.toNat ++ natLe 36 0

/-- The argument slot of a lane: v0 to v7, and zeros where the host's results go. -/
def State.svcArgs (s : State) (l : Nat) : List Byte :=
  ((List.range 8).flatMap fun r => natLe 4 (s.vreg r l).toNat) ++ natLe 32 0

/-- Byte address of a service slot, modulo 4,096. -/
def State.svcSlot (s : State) (x n : Nat) : Nat := s.saveBase x + 0x10000 + 64 * (n % 4096)

/-- R367 for the lanes `m` of split `k` of course `c`. -/
def State.request (s : State) (c k : Nat) (m : Mask) (service : Nat) (pc next : Word) : Except Exn State :=
  let x := s.ctxOf c
  let n := maskCount m
  let head := s.saveIx x 0
  if s.saveIx x 1 + 4096 < head + 1 + n then .error .stall
  else
    let header := svcHeader (s.launchOf c).id (s.block (s.course c).block).index (s.course c).index service m
    let s1 := s.hostStore (s.svcSlot x head) header
    let s2 := (Mask.list m).zipIdx.foldl (fun u e => u.hostStore (s.svcSlot x (head + 1 + e.2)) (s.svcArgs e.1)) s1
    let s3 := (s2.setSaveIx x 0 (head + 1 + n)).raiseVector x
    let s4 := s3.modCtx x fun y =>
      { y with svcs := y.svcs ++ [⟨head % 4096, c, k, m, pc, service⟩] }
    .ok ((s4.setWait (.svc (head % 4096)) next).leave c .parkedSvc)

def execSvc (o : Sys) (s : State) : Host.Outcome State Fault Refusal :=
  instr (.svc o) (fun t =>
    let next := s.pc + Instr.len (.svc o)
    let m := t.active
    match t.cur with
    | .course c k => if m = 0 then .ok (t.setPc next) else t.request c k m o.imm.toNat s.pc next
    | _ => .ok t) s

/-! ### TRAP, BRK, TRET (R350, R369, R155) -/

def execTrap (o : Sys) (s : State) : Host.Outcome State Fault Refusal :=
  instr (.trap o) (fun _ => .error (.trapNext tTrap s.pc (o.imm.zeroExtend 64))) s

def execBrk (o : Sys) (s : State) : Host.Outcome State Fault Refusal :=
  instr (.brk o) (fun _ => .error (trapC tBrk s.pc (o.imm.zeroExtend 64))) s

/-- TRET: ILLEGAL_OP outside trap level, BARRIER_MISUSE while a token opened at trap level is open. -/
def execTret (o : Sys) (s : State) : Host.Outcome State Fault Refusal :=
  instr (.tret o) (fun t =>
    match t.cur with
    | .course c k =>
      let x := t.course c
      if !x.trap.level then .error (trapC tIllegalOp 0 (wordLow (.tret o)))
      else if x.tokens.any fun y => y.isOpen && y.atTrap then .error (trapC tBarrier)
      else .ok (t.returnTrap c k)
    | _ => .error (trapC tIllegalOp 0 (wordLow (.tret o)))) s

/-! ### SRD and SWR (R343, R370, R371) -/

/-- A trap register by index (R343). -/
def TrapState.reg (x : TrapState) : Nat → Word
  | 0 => x.cause
  | 1 => x.lane
  | 2 => x.pc
  | 3 => x.addr
  | 4 => x.info
  | 5 => x.opc
  | 6 => x.ocause
  | _ => 0

/-- State register `n` as the executing agent reads it. -/
def State.readState (s : State) (n : Nat) : Word :=
  match s.cur with
  | .course c _ => if n < 7 then (s.course c).trap.reg n else s.stateReg c n
  | .lane q =>
    let x := s.lane q
    if n < 7 then 0
    else
      match n with
      | 0x008 => x.regs.tscr0
      | 0x009 => x.regs.tscr1
      | 0x010 => x.regs.srseed.zeroExtend 64
      | _ => Cells.get 0 x.sregs n
  | .none => 0

def execSrd (o : Sys) (s : State) : Host.Outcome State Fault Refusal :=
  seqInstr (.srd o) (fun t => .ok (t.setS o.d.toNat (t.readState o.x.toNat))) s

/-- A write of state register `n`. -/
def State.writeState (s : State) (n : Nat) (v low : Word) : Except Exn State :=
  match n with
  | 0x008 => .ok (s.modRegs fun r => { r with tscr0 := v })
  | 0x009 => .ok (s.modRegs fun r => { r with tscr1 := v })
  | 0x010 => .ok (s.modRegs fun r => { r with srseed := v.extractLsb' 0 16 })
  | _ =>
    match s.cur with
    | .course c _ =>
      if !(s.course c).trap.level then .error (trapC tIllegalOp 0 low)
      else if v.toNat % 4 ≠ 0 then .error (trapC tMisaligned v)
      else .ok (s.modCourse c fun x => { x with trap := { x.trap with pc := v } })
    | _ => .error (trapC tIllegalOp 0 low)

def execSwr (o : Sys) (s : State) : Host.Outcome State Fault Refusal :=
  seqInstr (.swr o) (fun t => t.writeState o.x.toNat (t.sreg o.a.toNat) (wordLow (.swr o))) s

/-! ### CKILL and CKPT (R352, R363, R369, R370) -/

def execCkill (o : Sys) (s : State) : Host.Outcome State Fault Refusal :=
  instr (.ckill o) (fun t =>
    match t.cur with
    | .course c k =>
      .ok (t.killCourse c { reason := 1, trap := { code := 0, pc := s.pc, split := k }, user := t.sreg o.a.toNat })
    | .lane q => .ok (t.exitLane q)
    | .none => .ok t) s

/-- Dirty registers of a course (R363). -/
def Course.dirtyRegs (x : Course) : List Nat := x.dirty.map (·.1)

/-- CKPT: `.wait` stalls until no register that was dirty at issue is dirty; checkpointing is visible in timing only. -/
def execCkpt (o : Sys) (s : State) : Host.Outcome State Fault Refusal :=
  instr (.ckpt o) (fun t =>
    let next := s.pc + Instr.len (.ckpt o)
    match t.cur with
    | .course c _ =>
      let rs := (t.course c).dirtyRegs
      .ok (if o.x = 1 ∧ rs ≠ [] then t.setWait (.ckpt rs) next else t.setPc next)
    | _ => .ok (t.setPc next)) s

/-! ### The guard pattern and reserved opcodes (R84, R90) -/

/-- A PGUARD at the PC. Like a reserved opcode, it is not on the list of R125: it closes an open window before it faults (log 54,
DESIGN CHOICE). -/
def execPguard (w : BitVec 64) (s : State) : Host.Outcome State Fault Refusal :=
  instr (.pguard w) (fun _ => .error (trapC tExecPool s.pc)) s

def execReservedOpcode (w : BitVec 64) (s : State) : Host.Outcome State Fault Refusal :=
  instr (.reservedOpcode w) (fun _ => .error (trapC tIllegalOp 0 ((w.extractLsb' 0 32).zeroExtend 64))) s

end Sys2Proof.Machine
end

