-- ==== Sys2Proof/Machine/CourseEvents.lean ====
section
/-!
DEFINITION. Events of courses and ejected lanes: traps that waited, the watchdog, PASSN, shadow-latch replay, ejected
lanes, parking and return, checkpoint copies, page faults and the answers of host software (R116, R128, R137 to R142,
R345, R349, R354 to R356, R363, R367).
-/

namespace Sys2Proof.Machine

/-! ### Traps that waited (R345) -/

/-- The oldest trap of a course that waits and can be delivered: outside trap level, or where it arose in the handler. -/
def State.trapDue (s : State) (c : Nat) : Option Trap :=
  let x := s.course c
  let here (t : Trap) : Bool := !x.trap.level || (x.splits.getD t.split default).handler
  let others := (List.range s.courses.length).filter fun d =>
    d != c && s.coreOf d == s.coreOf c && (s.course d).place == .resident && !(s.course d).trap.level
  match x.pending.find? here with
  | none => none
  | some t =>
    if x.place == .resident && x.leaving.isNone && s.ctxRuns c && x.win.isNone
        && (x.trap.level || s.noHandler c
          || (decide (s.handlers (s.coreOf c) < Config.handlersPerCore)
            && others.all fun d => (s.course d).pending.all fun u => decide (t.raised ≤ u.raised))) then some t
    else none

/-- TRAP_ENTRY: the trap of the course that was raised first is delivered. Instructions of other splits that had trapped as
well issue again after TRET; a failed SVC does not, and its trap waits (R367). -/
def execTrapEntry (c : Nat) (s : State) : Host.Outcome State Fault Refusal :=
  match s.trapDue c with
  | some t =>
    .next ((s.modCourse c fun x => { x with pending := (x.pending.erase t).filter fun u => u.code == tSvc }).deliver c t)
  | none => .next s

/-! ### The watchdog (R349) -/

/-- Running time at trap level, parked time apart. -/
def State.trapTime (s : State) (c : Nat) : Nat :=
  let x := s.course c
  let away := if x.place == .parkedPage || x.place == .parkedQuota then s.run c - x.parkedAt else 0
  s.run c - x.trap.since - x.trap.parked - away

def State.watchdogDue (s : State) (c : Nat) : Bool := (s.course c).trap.level && decide (2 ^ 24 ≤ s.trapTime c)

/-- WATCHDOG. The trap is never delivered; the record holds its code and the PC of the course's handler. -/
def execWatchdog (c : Nat) (s : State) : Host.Outcome State Fault Refusal :=
  if s.watchdogDue c then
    let k := (s.course c).trap.split
    let t : Trap := { code := tWatchdog, pc := (s.split c k).pc, split := k }
    .next (s.killCourse c { reason := 4, trap := t, cause := causeWord t false })
  else .next s

/-! ### PASSN and replays (R116, R128, R389) -/

def execPassnChange (cluster n : Nat) (s : State) : Host.Outcome State Fault Refusal :=
  if cluster < Config.clusters ∧ (n = 1 ∨ n = 2 ∨ n = 4) then .next (s.modCluster cluster fun x => { x with passn := n })
  else .next s

/-- A period of a watched count: its number, and what was counted in it (R416, log 49, DESIGN CHOICE: the hours and seconds of the
thresholds are those of the device's clock). -/
def tally (m : Cells (Nat × Nat)) (unit period n : Nat) : Cells (Nat × Nat) :=
  Cells.update (0, 0) m unit fun x => (period, (if x.1 = period then x.2 else 0) + n)
/-- A unit that its counter calls for an action on is noted once. -/
def noteUnit (l : List Nat) (unit : Nat) (p : Bool) : List Nat := if p && !l.contains unit then unit :: l else l
/-- A replay of a quarter is counted; 2^20 in a second call for a recalibration (R416). -/
def State.replayed (s : State) (q : Nat) : State :=
  let m := tally s.mgmt.replays q (s.clock / 1750000000) 1
  { s with
    replayCnt := Cells.update 0 s.replayCnt q (· + 1)
    mgmt := { s.mgmt with replays := m, slow := noteUnit s.mgmt.slow q (decide (2 ^ 20 ≤ (Cells.get (0, 0) m q).2)) } }

def execShadowLatchReplay (u : ReplayUnit) (s : State) : Host.Outcome State Fault Refusal :=
  match u with
  | .quarter q => if q < 4608 then .next (s.replayed q) else .next s
  | .quoin i => if i < 288 then .next { s with replayQn := Cells.update 0 s.replayQn i (· + 1) } else .next s

/-! ### Ejected lanes (R137, R139) -/

def State.laneStartDue (s : State) (q : Nat) : Bool :=
  match (s.lane q).st with
  | .starting t => decide (t ≤ s.clock) && s.ctxRuns (s.lane q).course
  | _ => false

def execEjectLaneStart (q : Nat) (s : State) : Host.Outcome State Fault Refusal :=
  if s.laneStartDue q then .next (s.modLane q fun x => { x with st := .running }) else .next s

def State.rejoinDue (s : State) (q : Nat) : Bool :=
  let x := s.lane q
  match x.st with
  | .rejoining t =>
    decide (t ≤ s.clock) && s.ctxRuns x.course
      && x.outs.all fun r =>
        match Cells.get .clean x.regs.vst (3 * r + x.lane / 32) with
        | .coming _ due _ => decide (due ≤ s.clock)
        | _ => true
  | _ => false

/-- The code of the fault that reading a live-out register raises (R386, R391). -/
def Lane.outFault (x : Lane) : Option Nat :=
  x.outs.findSome? fun r =>
    match Cells.get .clean x.regs.vst (3 * r + x.lane / 32) with
    | .poison => some tPoison
    | .lost .. => some tPoolLost
    | _ => none

/-- LANE_REJOIN: the live-outs are written, the flag word is ORed in, the context is freed, and the token may
complete. -/
def execLaneRejoin (q : Nat) (s : State) : Host.Outcome State Fault Refusal :=
  let x := s.lane q
  if !s.rejoinDue q then .next s
  else
    match x.outFault with
    | some code => .next (s.stopLane q code x.pc)
    | none =>
      let s1 := (s.modLane q fun y => { y with st := .done, wait := .ready }).modCourse x.course fun c =>
        { c with
          regs := { c.regs with
            v := x.outs.foldl (fun m r => Cells.set 0 m (96 * r + x.lane) (Cells.get 0 x.regs.v (96 * r + x.lane))) c.regs.v
            vst := x.outs.foldl (fun m r => writeWords false r (Mask.one x.lane) m) c.regs.vst
            flags := (c.regs.takeFlags x.regs).flags, late := (c.regs.takeFlags x.regs).late }
          dirty := x.outs.foldl (fun m r => Cells.set false m r true) c.dirty }
      .next ((s1.modToken x.course x.tok fun k =>
        { k with back := k.back ||| Mask.one x.lane, after := max k.after x.sight.time, nextPc := some x.next }).settle x.course)

/-! ### T_soft and T_hard (R142) -/

/-- A timer of token `t` that started at `from'` has run `n` cycles while lanes are out, and its course is on its core outside
trap level. -/
def State.ejectTimer (s : State) (c t : Nat) (from' : Option Nat) (n : Nat) : Bool :=
  let x := s.course c
  x.place == .resident && x.leaving.isNone && !x.trap.level && s.ctxRuns c && x.win.isNone
    && !(s.outstanding c t).isEmpty
    && match from' with | some t0 => decide (t0 + n ≤ s.run c) | none => false

def State.softDue (s : State) (c t : Nat) : Bool :=
  s.ejectTimer c t ((s.course c).token t).timer (s.launchOf c).desc.softTime && !((s.course c).token t).softDone

def execEjectSoftPark (c t : Nat) (s : State) : Host.Outcome State Fault Refusal :=
  if s.softDue c t then .next ((s.modToken c t fun y => { y with softDone := true }).leave c .parkedEject) else .next s

def State.overdueDue (s : State) (c t : Nat) : Bool :=
  s.ejectTimer c t ((s.course c).token t).hardTimer (s.launchOf c).desc.hardTime && (s.course c).pending.isEmpty
    && !((s.course c).waitingAt t).isEmpty

/-- EJECT_OVERDUE, taken by the split that first began to wait; TRET resumes the wait with a new T_hard. -/
def execEjectOverdue (c t : Nat) (s : State) : Host.Outcome State Fault Refusal :=
  match firstWaiting ((s.course c).waitingAt t) with
  | some (k, sp) =>
    if s.overdueDue c t then
      let s1 := s.modToken c t fun y => { y with arrived := y.arrived &&& ~~~sp.m, hardTimer := none }
      .next (s1.raise c
        { code := tEjectOverdue, pc := sp.pc, info := BitVec.ofNat 64 (s.outstanding c t).length, split := k })
    else .next s
  | none => .next s

/-! ### Coming back (R66, R142, R354, R357, R367) -/

/-- Room for a course that may come back: a RESIDENT course takes its room from OPPORTUNE work at once, an EVENTUAL one
after 2^16 cycles (R142). -/
def State.restoreRoom (s : State) (c : Nat) : Option Room :=
  let x := s.course c
  if !s.waitOver c then none
  else
    let cls := (s.launchOf c).cls
    let old := match x.waitFrom with | some t => decide (t + 65536 ≤ s.run c) | none => false
    s.returnRoom c (cls == 2 || (cls == 1 && old))

def execCourseRestore (c : Nat) (s : State) : Host.Outcome State Fault Refusal :=
  match s.restoreRoom c with
  | some r => .next (s.takeReturn c r)
  | none => .next s

/-! ### Checkpoint copies (R363, R369) -/

/-- Splits in CKPT.wait none of whose registers is dirty any more go on. -/
def State.recheckCkpt (s : State) (c : Nat) : State :=
  s.forSplits c fun s k x =>
    match x.wait with
    | .ckpt rs => if rs.any fun r => (s.course c).dirtyRegs.contains r then s else s.resume c k
    | _ => s

/-- A register of the course is dirty, or a CKPT.wait can end, and the course is on its core. -/
def State.checkpointDue (s : State) (c : Nat) : Bool :=
  let x := s.course c
  x.place == .resident && s.ctxRuns c
    && (!x.dirty.isEmpty || x.splits.any fun y => match y.wait with | .ckpt _ => true | _ => false)

def execCheckpointCopy (c reg : Nat) (s : State) : Host.Outcome State Fault Refusal :=
  if s.checkpointDue c then .next ((s.modCourse c fun x => { x with dirty := Cells.erase x.dirty reg }).recheckCkpt c)
  else .next s

/-! ### Page faults (R354 to R356) -/

/-- What a party waits for: address, kind, store, fetch, lane, the element's address where it is a scale byte, record. -/
structure PageFault where
  va : Word
  kind : Nat
  write : Bool
  exec : Bool
  lane : Nat
  scale : Option Word
  record : Option Nat
deriving DecidableEq, Repr, Inhabited

def Wait.pageFault : Wait → Option PageFault
  | .page va kind wr ex lane scale r _ _ => some ⟨va, kind, wr, ex, lane, scale, r⟩
  | _ => none
def Wait.withRecord (i : Nat) : Wait → Wait
  | .page va kind wr ex lane scale _ since win => .page va kind wr ex lane scale (some i) since win
  | w => w

/-- The page fault of a party. -/
def State.pageOf (s : State) : Party → Option PageFault
  | .course c k => (s.split c k).wait.pageFault
  | .lane q => (s.lane q).wait.pageFault
  | .copy i =>
    match s.copies[i]? with
    | some y => y.page.map fun p => ⟨p.1, p.2.1, p.2.2.1, false, 127, p.2.2.2.1, p.2.2.2.2⟩
    | none => none
  | .op i =>
    match s.ops[i]? with
    | some y => y.page.map fun p => ⟨p.2.1, p.2.2.1, false, false, 127, p.2.2.2.1, p.2.2.2.2⟩
    | none => none

/-- The course of a party. -/
def State.partyCourse (s : State) : Party → Nat
  | .course c _ => c
  | .lane q => (s.lane q).course
  | .copy i => (s.copies.getD i default).course
  | .op i => (s.ops.getD i default).course

/-- The party's fault is in record `r`. -/
def State.joinRecord (s : State) (r : Nat) : Party → State
  | .course c k => s.modSplit c k fun x => { x with wait := x.wait.withRecord r }
  | .lane q => s.modLane q fun x => { x with wait := x.wait.withRecord r }
  | .copy i =>
    { s with copies := s.copies.modify i fun y => { y with page := y.page.map fun p => (p.1, p.2.1, p.2.2.1, p.2.2.2.1, some r) } }
  | .op i =>
    { s with ops := s.ops.modify i fun (y : MatOp) => { y with page := y.page.map fun p => (p.1, p.2.1, p.2.2.1, p.2.2.2.1, some r) } }

/-- SOURCE of R355. -/
def partySource : Party → Bool → Nat
  | _, true => 4
  | .course .., _ => 0
  | .lane _, _ => 1
  | .copy _, _ => 2
  | .op _, _ => 3

/-- Address of record `n` of the page-fault ring of the context at place `x`. -/
def State.pfSlot (s : State) (x n : Nat) : Nat := s.saveBase x + 0x90000 + 32 * (n % 1024)

/-- WRITE and EXEC in byte 7. -/
def pageBits (f : PageFault) : Nat := (if f.write then 128 else 0) + (if f.exec then 64 else 0)

/-- TLANE of R355: an ejected lane is itself the lane. -/
def State.pageLane (s : State) (f : PageFault) : Party → Nat
  | .lane q => (s.lane q).lane
  | _ => f.lane

/-- A page-fault record (R355). -/
def pageRecord (f : PageFault) (source course block launch : Nat) : List Byte :=
  natLe 8 (pageBits f * 2 ^ 56) ++ natLe 1 (f.kind + 16 * source) ++ natLe 1 0 ++ natLe 1 f.lane ++ natLe 1 course
    ++ natLe 4 block ++ natLe 8 launch ++ natLe 8 f.va.toNat

/-- A page fault is to be recorded, or joins a pending record of its unit and kind. -/
def State.recordPage (s : State) (p : Party) (f : PageFault) : State :=
  let c := s.partyCourse p
  let x := s.ctxOf c
  match (s.ctx x).pfs.find? fun r => r.unit == f.va.toNat / 65536 && r.kind == f.kind with
  | some r =>
    let a := s.pfSlot x r.index + 7
    (s.hostStore a [s.readByte 0 a ||| BitVec.ofNat 8 (pageBits f)]).joinRecord r.index p
  | none =>
    let head := s.saveIx x 4
    if s.saveIx x 5 + 1024 < head + 1 then s
    else
      let rec' := pageRecord { f with lane := s.pageLane f p } (partySource p f.scale.isSome) (s.course c).index (s.block (s.course c).block).index (s.launchOf c).id
      let s1 := ((s.hostStore (s.pfSlot x head) rec').setSaveIx x 4 (head + 1)).raiseVector x
      (s1.modCtx x fun y => { y with pfs := y.pfs ++ [⟨head, f.va.toNat / 65536, f.kind⟩] }).joinRecord head p

def execPageFaultRecord (p : Party) (s : State) : Host.Outcome State Fault Refusal :=
  match s.pageOf p with
  | some f => .next (if f.record.isNone then s.recordPage p f else s)
  | none => .next s

/-- A split of the course has waited 4,096 cycles on a page fault; while a handler runs, the handler's (R347). -/
def State.pageParkDue (s : State) (c : Nat) : Bool :=
  let x := s.course c
  x.place == .resident && x.leaving.isNone
    && x.splits.any fun y =>
      (!x.trap.level || y.handler) && match y.wait with
      | .page _ _ _ _ _ _ _ since _ => decide (since + 4096 ≤ s.run c)
      | _ => false

def execPageFaultPark (c : Nat) (s : State) : Host.Outcome State Fault Refusal :=
  if s.pageParkDue c then .next (s.leave c .parkedPage) else .next s

/-- Course `c`, with a split whose fault is in record `r`, takes the answer; a fetch has TINFO 0 (R90), and a fault on a scale
byte names the element (R219). -/
def State.answerCourse (s : State) (c r : Nat) (fail : Bool) : State :=
  s.forSplits c fun s k x =>
    match x.wait with
    | .page va kind _ ex lane scale (some i) _ win =>
      if i != r then s
      else
        let s1 := s.modSplit c k fun y => { y with wait := .ready }
        let y := s.course c
        if !fail || (y.trap.level && !x.handler) || !y.pending.isEmpty then s1
        else
          s1.raise c
            { code := tPageFault, lane := lane, pc := x.pc, addr := scale.getD va, window := win.isSome, split := k
              info := BitVec.ofNat 64 ((if ex then 0 else kind) + win.getD 0 % 256 * 2 ^ 32) }
    | _ => s

/-- Ejected lanes of context place `x` whose fault is in record `r` take the answer. -/
def State.answerLanes (s : State) (x r : Nat) (fail : Bool) : State :=
  (List.range s.lanes.length).foldl (fun s q =>
    let y := s.lane q
    match y.wait with
    | .page _ _ _ _ _ _ (some i) _ _ =>
      if i != r || s.ctxOf y.course != x then s
      else if fail then s.stopLane q tPageFault y.pc
      else s.modLane q fun z => { z with wait := .ready }
    | _ => s) s

/-- The first copy or engine operation of context place `x` whose fault is in record `r`. -/
def State.copyIn (s : State) (x r : Nat) : Option Nat :=
  s.copies.findIdx? fun y => s.ctxOf y.course == x && (match y.page with | some p => p.2.2.2.2 == some r | none => false)
def State.opIn (s : State) (x r : Nat) : Option Nat :=
  s.ops.findIdx? fun y => s.ctxOf y.course == x && (match y.page with | some p => p.2.2.2.2 == some r | none => false)

/-- Copies and engine operations take the answer, one after another. -/
def State.answerUnits (s : State) (x r : Nat) (fail : Bool) : Nat → State
  | 0 => s
  | fuel + 1 =>
    match s.copyIn x r, s.opIn x r with
    | some i, _ =>
      let va := ((s.copies.getD i default).page.map fun p => p.2.2.2.1.getD p.1).getD 0
      let t := if fail then s.failCopy i none tPageFault va
        else { s with copies := s.copies.modify i fun (y : Copy) => { y with page := none } }
      t.answerUnits x r fail fuel
    | none, some i =>
      let va := ((s.ops.getD i default).page.map fun p => p.2.2.2.1.getD p.2.1).getD 0
      let t := if fail then s.failOp i tPageFault va
        else { s with ops := s.ops.modify i fun (y : MatOp) => { y with page := none } }
      t.answerUnits x r fail fuel
    | none, none => s

/-- PFRESP: STATUS is read once; 0 leaves the record pending, 1 makes every access walk again, others fail it. -/
def execPfresp (ctx idx : Nat) (s : State) : Host.Outcome State Fault Refusal :=
  match s.ctxPlace ctx with
  | none => .next s
  | some x =>
    match (s.ctx x).pfs.find? fun r => r.index % 1024 == idx % 1024 with
    | none => .next s
    | some r =>
      let status := (s.readByte 0 (s.pfSlot x r.index + 9)).toNat
      if status = 0 then .next s
      else
        let fail : Bool := status != 1
        let s1 := s.modCtx x fun y => { y with pfs := y.pfs.filter (· != r) }
        let s2 := ((List.range s.courses.length).filter fun c => s.ctxOf c == x).foldl
          (fun s c => s.answerCourse c r.index fail) s1
        let s3 := s2.answerLanes x r.index fail
        .next (s3.answerUnits x r.index fail (s.copies.length + s.ops.length))

/-! ### SVCDONE (R367, R373) -/

/-- The results in a request's slots: v0 and v1 of its lanes. -/
def State.svcResults (s : State) (x : Nat) (r : SvcReq) : List (Nat × Lane32 × Lane32) :=
  (Mask.list r.lanes).zipIdx.map fun e =>
    let a := s.svcSlot x (r.slot + 1 + e.2)
    (e.1, BitVec.ofNat 32 (leNat (s.readBytes 0 (a + 32) 4)), BitVec.ofNat 32 (leNat (s.readBytes 0 (a + 36) 4)))

/-- A request is done: DONE writes its results and its split goes on after the SVC; FAIL makes it take SVC. -/
def State.finishSvc (s : State) (x : Nat) (r : SvcReq) (done : Bool) : State :=
  let waits := match (s.split r.course r.split).wait with | .svc n => n == r.slot | _ => false
  if (s.course r.course).place = .ended || !waits then s
  else if done then
    let vs := s.svcResults x r
    let s1 := s.as (.course r.course r.split) fun s =>
      (s.setV 0 (vs.map fun e => (e.1, e.2.1))).setV 1 (vs.map fun e => (e.1, e.2.2))
    s1.resume r.course r.split
  else
    let s1 := s.modSplit r.course r.split fun y => { y with wait := .ready, pc := r.pc }
    s1.raise r.course { code := tSvc, pc := r.pc, info := BitVec.ofNat 64 r.service, split := r.split }

/-- SVCDONE: a slot that is no header of a pending request, or whose STATUS is 0, is ignored. -/
def execSvcdone (ctx slot : Nat) (s : State) : Host.Outcome State Fault Refusal :=
  match s.ctxPlace ctx with
  | none => .next s
  | some x =>
    match (s.ctx x).svcs.find? fun r => r.slot == slot with
    | none => .next s
    | some r =>
      let status := (s.readByte 0 (s.svcSlot x slot + 28)).toNat
      if status = 0 then .next s
      else .next ((s.modCtx x fun y => { y with svcs := y.svcs.filter (· != r) }).finishSvc x r (status == 1))

end Sys2Proof.Machine
end

