-- ==== Sys2Proof/Machine/BlockEvents.lean ====
section
/-!
DEFINITION. Placement attempts, rotation, blocks that start, move and end, fault-log records, energy, and launches that
retire (R16, R19 to R21, R28, R29, R53, R57 to R67, R353, R357, R365, R376 to R383).
-/

namespace Sys2Proof.Machine

/-! ### Placement (R58, R61 to R63) -/

/-- PARTITIONED mode: the base die with the most free registers (R58). -/
def State.chooseDie (s : State) (l : Launch) : Nat :=
  let free (d : Nat) : Nat := s.freeRegs (l.cls == 0) (2 * d) + s.freeRegs (l.cls == 0) (2 * d + 1)
  ((sortBy (fun a b => decide (free b < free a)) (List.range 6)).head?).getD 0

/-- Number of blocks (R33). -/
def Desc.blockCount (d : Desc) : Nat := d.ldim.1 * d.ldim.2.1 * d.ldim.2.2
/-- The blocks of a launch, set by set. -/
def Desc.groups (d : Desc) (first : Nat) : List (List Nat) :=
  let n := d.blockCount
  let w := max 1 d.setCores
  (List.range (n / w)).map fun g => (List.range w).map fun i => first + w * g + i

/-- The values that a launch is admitted with now: those its descriptor leaves open are its region's (R23, R31). -/
def State.readmit (s : State) (l : Nat) : Launch :=
  let x := s.launch l
  let cls := x.desc.cls.getD (s.effClass x.region)
  { x with
    admitted := cls, cls := if x.admitted < x.cls then max x.cls cls else cls
    fault := x.desc.policy.getD (s.effPolicy x.region), opclass := x.desc.opclass.getD (s.effOpclass x.region)
    qlog := s.effQlog x.region, seq := s.tick }

/-- Pass blocks of launch `l`, the first of which is `first`, to placement (R44, R61, R64, R67). -/
def State.queueBlocks (s : State) (l first : Nat) : State :=
  let x := s.launch l
  let new : List Attempt :=
    if x.cls = 0 then (x.desc.groups first).map fun bs => { launch := l, blocks := bs }
    else [{ launch := l, blocks := (List.range x.desc.blockCount).map (first + ·) }]
  { s with attempts := s.attempts ++ new }

/-- The processed launch `l` is admitted and its blocks are passed to placement; a RESIDENT one is admitted when its attempt
succeeds (R29), and one with no block has nothing to place (R46). In PARTITIONED mode its base die is fixed (R58). -/
def State.startPlacement (s : State) (l : Nat) : State :=
  let x := s.readmit l
  let n := x.desc.blockCount
  let die := if (s.ctx x.ctx).partitioned then some (s.chooseDie x) else none
  let s1 := { s with blocks := s.blocks ++ (List.range n).map fun (i : Nat) => ({ launch := l, index := i, since := (s.ctx x.ctx).run } : Block) }
  let s2 := s1.modLaunch l fun _ => { x with st := if x.cls = 2 ∧ n ≠ 0 then .placing else .running, die := die }
  if n = 0 then s2 else s2.queueBlocks l s.blocks.length

/-- Clusters of a launch's operating-class pool. -/
def State.poolClusters (s : State) (l : Launch) : List Nat :=
  (List.range Config.clusters).filter fun k => (s.cluster k).pool == l.opclass

/-- R63: cycles from failed attempt `n` to the next, `core` being the core C. -/
def backOff (n core : Nat) : Nat := min (256 * 2 ^ (n - 1)) 65536 + core * 167 % 256

/-- Blocks of an EVENTUAL launch start one at a time, in ascending index: each takes free room, or waits in the rotation
from then on (R64, R67; log 46, DESIGN CHOICE: no rule says in which order they are tried). -/
def State.startEach (s : State) (bs : List Nat) : State :=
  bs.foldl (fun s b => match s.placeOne b false [] none with | some t => t | none => s.awaitRoom b) s

/-- A failed attempt of launch `l` waits (R63): where a reservation failed, at that core and its cluster; where a choice did, at the
lowest core in service of the pool and all its clusters. The reservations it made before are released. -/
def State.attemptFails (s : State) (i : Nat) (a : Attempt) (l : Launch) (at' : Option (Nat × List Nat)) : State :=
  let pool := s.poolClusters l
  let core := (at'.map (·.1)).getD (((pool.flatMap s.coresOf).min?).getD 0)
  let w := backOff (a.n + 1) core
  let made := ((at'.map (·.2)).getD []).map (· / Config.coresPerCluster)
  let s1 := made.eraseDups.foldl (fun s k => s.noteRelease k) s
  { s1 with
    attempts := s1.attempts.set i
      { a with
        n := a.n + 1, due := s.clock + w, half := s.clock + (w + 1) / 2, released := false
        watched := match at' with | some c => [c.1 / Config.coresPerCluster] | none => pool } }

/-- The launch as an attempt takes it: one that is not admitted yet has the values of now, and the base die of now (R23,
R29, R58). -/
def State.attemptLaunch (s : State) (l : Nat) : Launch :=
  let x := s.launch l
  if x.st != .placing then x
  else
    let y := s.readmit l
    { y with die := if (s.ctx y.ctx).partitioned then some (s.chooseDie y) else none }

/-- Try attempt `i` (R61): its room is reserved and committed in one step, or the attempt fails (R63). A RESIDENT launch is
admitted with it (R29). -/
def State.tryAttempt (s : State) (i : Nat) (a : Attempt) : State :=
  let l := s.attemptLaunch a.launch
  let s1 := s.modLaunch a.launch fun _ => { l with st := if l.st == .placing then .running else l.st }
  let rest (t : State) : State := { t with attempts := t.attempts.eraseIdx i }
  if l.cls = 1 then (rest s1).startEach a.blocks
  else if l.st == .placing && l.cls != 2 then (rest s1).queueBlocks a.launch (a.blocks.headD 0)
  else
    match s1.gang (l.cls == 2) (if l.cls = 2 then s.heldBack l.ctx else []) a.blocks with
    | .ok t => rest t
    | .error at' => s.attemptFails i a l at'

/-- The attempt's context runs. -/
def State.attemptRuns (s : State) (a : Attempt) : Bool := (s.ctx (s.launch a.launch).ctx).st == .running

def State.attemptDue (s : State) (i : Nat) : Option Attempt :=
  match s.attempts[i]? with
  | some a => if a.n = 0 ∧ s.attemptRuns a then some a else none
  | none => none

def State.retryDue (s : State) (i : Nat) : Option Attempt :=
  match s.attempts[i]? with
  | some a =>
    if a.n ≠ 0 ∧ s.attemptRuns a ∧ (a.due ≤ s.clock ∨ (a.released ∧ a.half ≤ s.clock)) then some a else none
  | none => none

def execPlacementAttempt (i : Nat) (s : State) : Host.Outcome State Fault Refusal :=
  match s.attemptDue i with
  | some a => .next (s.tryAttempt i a)
  | none => .next s

def execPlacementRetry (i : Nat) (s : State) : Host.Outcome State Fault Refusal :=
  match s.retryDue i with
  | some a => .next (s.tryAttempt i a)
  | none => .next s

/-! ### Rotation (R67) -/

/-- The first block of a rotation queue whose context runs: one whose context does not run cannot start, and is passed over (log
46, DESIGN CHOICE: R67 does not say what becomes of the queue then). -/
def State.rotationHead (s : State) (k : Nat) : Option Nat :=
  (s.cluster k).rotation.find? fun b => (s.ctx (s.blockLaunch b).ctx).st == .running

def State.rotationDue (s : State) (k : Nat) : Option Nat :=
  let x := s.cluster k
  if x.retry || decide (x.tried + 4096 ≤ s.clock) then s.rotationHead k else none

/-- A resident EVENTUAL block has run its quantum since it became resident (R67, R325). -/
def State.ranQuantum (s : State) (v : Nat) : Bool :=
  let y := s.block v
  let l := s.blockLaunch v
  y.ranQ || decide (y.since + 2 ^ l.qlog ≤ (s.ctx l.ctx).run)

/-- Blocks of cluster `k` that may be rotated out for block `b`, in victim order. -/
def State.rotatable (s : State) (b k : Nat) : List Nat :=
  let first (v : Nat) : Nat := ((s.block v).courses.head?).getD 0
  sortBy (fun a b => s.victimBefore (first a) (first b)) ((List.range s.blocks.length).filter fun v =>
    let y := s.block v
    y.st == .resident && y.core / Config.coresPerCluster == k && (s.blockLaunch v).ctx == (s.blockLaunch b).ctx
      && (s.blockLaunch v).cls == 1 && s.ranQuantum v
      && s.blockFree v && y.courses.all fun c => (s.course c).leaving.isNone)

/-- The room that block `b` finds where block `v` goes; OPPORTUNE courses of the core may count as room beside it (log 46, DESIGN
CHOICE: R67 lets a head that has waited count them, and does not say whether it may do both at once). -/
def State.rotateRoom (s : State) (b v : Nat) : Option Room :=
  let core := (s.block v).core
  let k := core / Config.coresPerCluster
  let l := s.blockLaunch b
  let fits :=
    !s.inSet b ||
      match s.setStart b with
      | some start => core == start + s.member b
      | none => decide (s.member b ≤ core % 96) && decide (core % 96 - s.member b + l.desc.setCores ≤ 96)
  if !fits || !(s.poolOf l).contains k || s.mgmt.coresOut.contains core || (Cells.get none s.mgmt.draining core).isSome
      || (s.block b).courses.any (fun c => (s.course c).leaving.isSome) then none
  else
    let cands := s.victims core (s.block b).launch
    let mine := (s.coursesOn false core).filter fun c => (s.course c).block == v && (s.course c).place != .ended
    State.findRoom s s b core (s.blockNeed b) true cands (cands.count + 1) mine [v]

/-- R67 for the head block `b` of cluster `k`: free room in the pool; after 2^16 cycles room of OPPORTUNE courses of the
cluster, then that of a block which has run its quantum. -/
def State.placeHead (s : State) (b k : Nat) : Option State :=
  let old := decide ((s.block b).since + 65536 ≤ (s.ctx (s.blockLaunch b).ctx).run)
  match s.placeOne b false [] none with
  | some t => some t
  | none =>
    if !old then none
    else
      match s.placeOne b true [] (some k) with
      | some t => some t
      | none => ((s.rotatable b k).findSome? fun v => s.rotateRoom b v).map fun r => s.take b r

def execRotationAttempt (k : Nat) (s : State) : Host.Outcome State Fault Refusal :=
  match s.rotationDue k with
  | none => .next s
  | some b =>
    let s1 := s.modCluster k fun x => { x with tried := s.clock, retry := false }
    match s1.placeHead b k with
    | some t => .next (t.modCluster k fun x => { x with rotation := x.rotation.filter (· != b) })
    | none => .next s1

/-! ### A block starts, moves and ends (R57, R365, R377, R378) -/

/-- No course of a block that has gone still runs on scratchpad that block `b` was given. -/
def State.padClear (s : State) (b : Nat) : Bool :=
  let x := s.block b
  s.blocks.zipIdx.all fun e =>
    let y := e.1
    e.2 == b || y.core != x.core || y.st.placed || decide (y.spBase + y.spSize ≤ x.spBase) || decide (x.spBase + x.spSize ≤ y.spBase)
      || y.courses.all fun c => (s.course c).place != .resident

/-- A placed block is zeroed or restored, its leaf has the scheduler core's message, and what made room for it has left
(R49, R57, R210). -/
def State.startDue (s : State) (b : Nat) : Bool :=
  let x := s.block b
  match x.st with
  | .starting t =>
    decide (t ≤ s.clock) && (s.ctx (s.blockLaunch b).ctx).st == .running
      && (List.range Config.clusters).all (fun k => !(s.cluster k).down.holds b) && s.padClear b && x.courses.all s.regsClear
  | _ => false

/-- R209: a core that changes its split gives up its L1: STREAM copies are written back, and all copies are dropped. -/
def State.giveUpL1 (s : State) (core : Nat) : State :=
  let mine (x : StreamLine) : Bool := match x.who with | .course c _ => s.coreOf c == core | _ => false
  let t := (s.stream.filter mine).foldl (fun s x => s.writeStream x) s
  { t with stream := t.stream.filter fun x => !mine x, held := t.held.filter fun e => e.cache != core }

def execBlockStart (b : Nat) (s : State) : Host.Outcome State Fault Refusal :=
  if !s.startDue b then .next s
  else
    let x := s.block b
    let c := s.ctx (s.blockLaunch b).ctx
    let s0 := if (s.coreSt x.core).split = c.split then s else (s.giveUpL1 x.core).modCore x.core fun k => { k with split := c.split }
    let s1 := s0.modBlock b fun y =>
      { y with st := .resident, since := if y.moving || y.resumed then y.since else c.run, begun := true, moving := false, resumed := false }
    .next (x.courses.foldl (fun s c =>
      match (s.course c).place with
      | .resident => s.revive c
      | .ended => s.restoreOps c
      | _ => s) s1)

/-- R365: the block may move to a core of its pool. -/
def State.mayMigrate (s : State) (b core : Nat) : Bool :=
  let x := s.block b
  let from' := x.core / Config.coresPerCluster
  let dest := core / Config.coresPerCluster
  x.st == .resident && decide (core < Config.cores) && core != x.core && !s.inSet b
    && (s.poolOf { s.blockLaunch b with opclass := (s.cluster from').pool }).contains dest
    && x.courses.all (fun c =>
      let y := s.course c
      y.leaving.isNone && y.win.isNone && !y.trap.level && !s.engineBusy c && (y.place != .ended || !s.ops.any fun o => o.course == c))
    && (dest == from' || !(s.lanes.any fun q => (s.course q.course).block == b && q.st.live))

/-- HOT_SPOT_MIGRATION: images, scratchpad and barrier state move together; waits are kept, latches are invalid. -/
def execHotSpotMigration (b core : Nat) (s : State) : Host.Outcome State Fault Refusal :=
  if !s.mayMigrate b core then .next s
  else
    match State.roomOn s s b core false with
    | none => .next s
    | some r =>
      let s1 := (s.block b).courses.foldl (fun s c =>
        (s.saveOps c).modCourse c fun x => { x with dirty := [], regs := { x.regs with bl := [] } }) s
      let s2 := r.plan.foldl (fun s e =>
        match (s.block b).courses.find? fun c => (s.course c).index == e.1 with
        | some c => s.modCourse c fun x => { x with quarter := e.2.1, base := e.2.2, place := .resident }
        | none => s) s1
      .next ((s2.modBlock b fun x =>
        { x with core := core, spBase := r.spBase, st := .starting (s.clock + s.startTime b), moving := true }).noteRelease
          ((s.block b).core / Config.coresPerCluster))

/-- Stores and `.nr` atomics to the pool that are under way (R391). -/
def State.owes (s : State) (ws : List Owed) : Bool := ws.any fun w => !w.lost && decide (s.clock < w.due)
/-- R377, R378: every course has ended, every operation of their batches is done, every access of theirs and of their ejected
lanes is performed, and every kill is on record. -/
def State.endDue (s : State) (b : Nat) : Bool :=
  let x := s.block b
  x.st != .ended && !x.courses.isEmpty
    && x.courses.all fun c =>
      let y := s.course c
      y.place == .ended && (y.kill.isNone || y.logged) && !s.owes y.owed && !(s.lanes.any fun q => q.course == c && s.owes q.owed)
        && !(s.copies.any fun z => z.course == c) && !(s.ops.any fun o => o.course == c)

/-- The block leaves the machine: its scratchpad, barriers and registers are free, and its leaf reports it (R49, R378). -/
def State.freeBlock (s : State) (b : Nat) : State :=
  let k := (s.block b).core / Config.coresPerCluster
  let s1 := (s.dropWaiting [b]).modCluster k fun x => { x with up := x.up.send b }
  (s1.modBlock b fun x => { x with st := .ended, sp := [], spPoison := [], spTime := [], spSize := 0, bars := [] }).noteRelease k

/-- The latest timestamp of what a course and its ejected lanes did, chunks of its copies among it. -/
def State.lastTime (s : State) (c : Nat) : Nat :=
  let x := s.course c
  ((x.tokens.map (·.after)) ++ (x.chunkTimes.map (·.2.1)) ++ ((s.lanes.filter fun q => q.course == c).map (·.sight.time))).foldl max
    x.sight.time
/-- A block's end is a release at DEVICE scope: what its courses and their lanes did, and every batch of theirs, comes before what
follows it (R241, R299, R378). -/
def State.publishBlock (s : State) (b : Nat) : State :=
  (s.block b).courses.foldl (fun s c =>
    s.modCourse c fun x => { x with chunkTimes := [], sight := { x.sight with time := s.lastTime c } }) s

/-- BLOCK_END: the release, then the room is free. -/
def execBlockEnd (b : Nat) (s : State) : Host.Outcome State Fault Refusal :=
  if s.endDue b then .next ((s.publishBlock b).freeBlock b) else .next s

/-! ### The fault log (R353, R381) -/

/-- A record of a killed course. -/
def faultRecord (k : Kill) (launch block course : Nat) : List Byte :=
  natLe 8 k.user.toNat ++ natLe 3 0 ++ natLe 1 k.lanes ++ natLe 2 k.ops ++ natLe 2 k.copies ++ natLe 8 k.cause.toNat
    ++ natLe 8 k.trap.info.toNat ++ natLe 8 k.trap.addr.toNat ++ natLe 8 k.trap.pc.toNat ++ natLe 1 0
    ++ natLe 1 k.trap.lane ++ natLe 1 k.reason ++ natLe 1 course ++ natLe 4 block ++ natLe 8 launch

/-- A record of a launch whose completion mark could not be written. -/
def markRecord (launch : Nat) (mark : Word) : List Byte :=
  natLe 32 0 ++ natLe 8 mark.toNat ++ natLe 10 0 ++ natLe 1 6 ++ natLe 5 0 ++ natLe 8 launch

/-- Write a record at FLOG_HEAD, advance it and raise the vector. -/
def State.writeLog (s : State) (x : Nat) (rec' : List Byte) : State :=
  let head := s.saveIx x 2
  ((s.hostStore (s.saveBase x + 0x50000 + 64 * (head % 4096)) rec').setSaveIx x 2 (head + 1)).raiseVector x

/-- The fault log has a free record. -/
def State.logRoom (s : State) (x : Nat) : Bool := decide (s.saveIx x 2 + 1 ≤ s.saveIx x 3 + 4096)

/-- A killed course's work has settled and its record is to be written. -/
def State.killDue (s : State) (c : Nat) : Option Kill :=
  let y := s.course c
  if y.logged || (s.ops.any fun o => o.course == c) || (s.copies.any fun z => z.course == c) || !s.logRoom (s.ctxOf c)
      || (s.ctx (s.ctxOf c)).st == .lost then
    none
  else y.kill

/-- A context's oldest REASON 6 record is to be written. -/
def State.markDue (s : State) (x : Nat) : Option (Nat × Word) :=
  if s.logRoom x then (s.ctx x).markFails.head? else none

/-- FAULT_LOG_RECORD: of course `i`, or behind the courses of context place `i`. -/
def execFaultLogRecord (i : Nat) (s : State) : Host.Outcome State Fault Refusal :=
  let n := s.courses.length
  if i < n then
    match s.killDue i with
    | none => .next s
    | some k =>
      let y := s.course i
      .next ((s.writeLog (s.ctxOf i) (faultRecord k (s.launchOf i).id (s.block y.block).index y.index)).modCourse i fun z =>
        { z with logged := true })
  else
    match s.markDue (i - n) with
    | none => .next s
    | some e =>
      .next ((s.writeLog (i - n) (markRecord e.1 e.2)).modCtx (i - n) fun y => { y with markFails := y.markFails.drop 1 })

/-! ### Energy (R16, R20, R21, R357) -/

/-- A quota of 0xFFFF_FFFF means unlimited. -/
def unlimited : Nat := 0xFFFFFFFF

/-- The D fields of an RCB (R15, R16). -/
def Region.rcbBytes (r : Region) : List Byte :=
  natLe 8 r.used ++ natLe 8 r.overdraft ++ natLe 8 r.total ++ natLe 1 r.depth ++ natLe 1 r.state

/-- Write a region's D fields into its RCB (R16), where its address lay when its last REGION packet was processed; that packet
asked for a page that can be written. An RCB of the pooled tier keeps what it holds while the link is down (log 32, DESIGN
CHOICE: no rule says what becomes of a D field that cannot be written). -/
def State.writeRcb (s : State) (r : Nat) : State :=
  let x := s.region r
  if isPool x.pa && !s.poolUp then s else s.hostStore (x.pa + 32) x.rcbBytes

/-- R20 at one region. -/
def State.exhausted (s : State) (r : Nat) : Bool :=
  let q := s.effQuota r
  decide (q ≠ unlimited) && decide (q ≤ (s.region r).used)

/-- R357 for one course: it stops and parks; one that is away already takes QUOTA_EXHAUSTED when it is back. -/
def State.quotaPark (s : State) (c : Nat) : State :=
  let x := s.course c
  if x.place = .ended then s
  else if x.place = .resident ∧ x.leaving.isNone then s.leave c .parkedQuota
  else s.modCourse c fun y => { y with quotaDue := y.quotaDue || !y.trap.level }

/-- Stop the regions of a context whose quota is exhausted (R21, R357). -/
def State.judgeQuota (s : State) (x : Nat) : State :=
  (List.range s.regions.length).foldl (fun s r =>
    let y := s.region r
    if y.ctx != x || y.state == 0 || y.stopped || !s.exhausted r then s
    else
      let s1 := s.modRegion r fun z => { z with stopped := true }
      ((List.range s.courses.length).filter fun c => (s.chain 8 (s.launchOf c).region).contains r).foldl
        (fun s c => s.quotaPark c) s1) s

/-- Charge a launch's whole mJ to its region and every ancestor. -/
def State.chargeLaunch (s : State) (l : Nat) : State :=
  let x := s.launch l
  let mj := x.uj / 1000
  let s1 := s.modLaunch l fun y => { y with uj := y.uj % 1000 }
  (s.chain 8 x.region).foldl (fun s r => s.modRegion r fun y => { y with used := y.used + mj, total := y.total + mj }) s1

/-- The number of a meter. -/
def Meter.num : Meter → Nat
  | .engine k => k
  | .core k => 1152 + k
  | .quoin i => 2304 + i
  | .copier k => 2592 + k
  | .slice n => 3744 + n
  | .channel n => 3888 + n
/-- Every meter of the device. -/
def Meter.all : List Meter :=
  (List.range 1152).flatMap (fun k => [.engine k, .core k, .copier k, .channel k]) ++ (List.range 288).map .quoin ++ (List.range 144).map .slice

/-- What R21 divides a meter's energy by, by launch: cycles, beats (registers where none was issued), bytes, or lines; those of page
walks, instruction fetches and uncached accesses are free values, of launches that some unit served in the interval (log 9). -/
def State.amounts (s : State) (m : Meter) : List (Nat × Nat) :=
  let seen := s.served.filterMap fun e => if e.1 == m then some e.2 else none
  match m with
  | .core k =>
    if seen.isEmpty then
      (s.courses.zipIdx.filter fun e => e.1.place == .resident && s.coreOf e.2 == k && (s.block e.1.block).st.placed).map fun e =>
        (s.launchIx e.2, e.1.allot)
    else seen
  | .slice _ | .channel _ =>
    seen ++ (s.served.map (·.2.1)).eraseDups.map fun l => (l, Config.walkLines m.num l s.tick)
  | _ => seen
/-- The share of launch `l` in a meter's energy since the interval began, in whole µJ (R21). -/
def State.meterShare (s : State) (l : Nat) (m : Meter) : Nat :=
  let as := s.amounts m
  let total := (as.map (·.2)).sum
  let mine := ((as.filter fun e => e.1 == l).map (·.2)).sum
  if total = 0 then 0 else Config.meter m.num s.tick * mine / total
/-- What launch `l` is given of the interval's energy. -/
def State.energyOf (s : State) (l : Nat) : Nat := (Meter.all.map (s.meterShare l)).sum

/-- ENERGY_ATTRIBUTION: each meter's energy over the interval is divided among the launches that its unit served. -/
def execEnergyAttribution (s : State) : Host.Outcome State Fault Refusal :=
  if s.clock / 1024 ≤ s.energyAt then .next s
  else
    .next { s with
      energyAt := s.clock / 1024
      served := []
      launches := s.launches.zipIdx.map fun e => { e.1 with uj := e.1.uj + s.energyOf e.2 } }

/-- ENERGY_CHARGE: every launch's charge is applied, and exhaustion is judged. -/
def execEnergyCharge (s : State) : Host.Outcome State Fault Refusal :=
  if s.clock / 65536 ≤ s.chargeAt then .next s
  else
    let s1 := (List.range s.launches.length).foldl (fun s l => s.chargeLaunch l) { s with chargeAt := s.clock / 65536 }
    .next ((List.range s.ctxs.length).foldl (fun s x => s.judgeQuota x) s1)

/-- The root region of a context. -/
def State.rootOf (s : State) (x : Nat) : Option Nat :=
  s.regions.findIdx? fun r => r.ctx == x && r.parent.isNone && r.state != 0

/-- A region at a period boundary (R20). -/
def State.periodRegion (s : State) (r : Nat) : Region :=
  let x := s.region r
  let q := s.effQuota r
  let excess := if q = unlimited then 0 else x.used - q
  { x with overdraft := excess, used := excess, stopped := x.stopped && decide (q ≠ unlimited) && decide (q ≤ excess) }

/-- QUOTA_PERIOD_BOUNDARY: the courses of regions that are no longer exhausted may come back. -/
def execQuotaPeriodBoundary (ctx : Nat) (s : State) : Host.Outcome State Fault Refusal :=
  match s.rootOf ctx with
  | none => .next s
  | some root =>
    let x := s.region root
    if s.clock < x.boundary then .next s
    else
      let s1 := { s with
        regions := s.regions.zipIdx.map fun (e : Region × Nat) => if e.1.ctx == ctx && e.1.state != 0 then s.periodRegion e.2 else e.1 }
      let s2 := s1.modRegion root fun y => { y with boundary := y.boundary + y.periodMs * 1750000 }
      .next ((List.range s.regions.length).foldl (fun s r =>
        if (s.region r).ctx = ctx ∧ (s.region r).state ≠ 0 then s.writeRcb r else s) s2)

/-! ### Clusters (R60) -/

/-- No block, no quoin context in use, and nothing that still runs or leaves. -/
def State.clusterEmpty (s : State) (k : Nat) : Bool :=
  !(s.blocks.any fun b => b.st.placed && b.core / Config.coresPerCluster == k)
    && !(s.lanes.any fun q => q.quoin / Config.quoinCores == k && s.laneHolds q)
    && !((List.range s.courses.length).any fun c =>
      s.coreOf c / Config.coresPerCluster == k && (s.course c).place == .resident
        && (s.block (s.course c).block).st != .ended)
    && !(s.ops.any fun o => match o.core with | some c => c / Config.coresPerCluster == k | none => false)

/-- A launch of a pool has waited 2^16 cycles for room, in the running time of its context (log 46, DESIGN CHOICE: R60 names
cycles only, where R67 counts running time for the wait of the same length). -/
def State.poolWaits (s : State) (pool : Nat) : Bool :=
  (List.range s.blocks.length).any fun b =>
    let l := s.blockLaunch b
    let x := s.block b
    l.opclass == pool && (x.st == .waiting || x.st == .evicted) && l.st != .lost
      && decide (x.since + 65536 ≤ (s.ctx l.ctx).run)

/-- R60: cluster `k` may join a pool. -/
def State.mayReassign (s : State) (k pool : Nat) : Bool :=
  let ok (j : Nat) : Bool :=
    (s.cluster j).pool != pool && s.clusterEmpty j
      && (List.range Config.clusters).any fun i => i != j && (s.cluster i).pool == (s.cluster j).pool && s.clusterEmpty i
  decide (pool ≤ 2) && s.poolWaits pool && (List.range Config.clusters).find? ok == some k

def execClusterReassign (cluster pool : Nat) (s : State) : Host.Outcome State Fault Refusal :=
  if s.mayReassign cluster pool then
    .next (s.modCluster cluster fun x => { x with pool := pool, readyAt := s.clock + 35000 })
  else .next s

def State.oppointDue (s : State) (k : Nat) : Bool :=
  let t := (s.cluster k).readyAt
  decide (t ≠ 0) && decide (t ≤ s.clock)

def execClusterOppointReady (cluster : Nat) (s : State) : Host.Outcome State Fault Refusal :=
  if s.oppointDue cluster then .next (s.modCluster cluster fun x => { x with readyAt := 0 })
  else .next s

/-! ### Launches that retire (R379 to R382) -/

/-- All blocks of the launch have ended, and the scheduler core has their leaves' reports (R49). -/
def State.retireDue (s : State) (l : Nat) : Bool :=
  (s.launch l).st == .running && decide (l < s.launches.length)
    && (s.launchBlocks l).all fun b =>
      (s.block b).st == .ended && (List.range Config.clusters).all fun k => !(s.cluster k).up.holds b

/-- R380: the completion mark at a physical address. -/
def State.writeDone (s : State) (pa cls : Nat) : State :=
  let v := leNat (s.readBytes 0 pa 8)
  let status := (s.readByte 0 (pa + 16)).toNat / 8 * 8 + markStatus cls true
  let s1 := (s.hostStore pa (natLe 8 (max v 1))).hostStore (pa + 16) (natLe 1 status)
  s1.wakeMark pa

/-- The latest timestamp of what a launch's agents did, once its blocks have ended (R378). -/
def State.launchTime (s : State) (l : Nat) : Nat :=
  ((s.launchBlocks l).flatMap fun b => (s.block b).courses).foldl (fun t c => max t (s.course c).sight.time) (s.launch l).after
/-- The next store to the line of an address is placed after time `t` (R286). -/
def State.storeAfter (s : State) (pa t : Nat) : State :=
  { s with stamps := Cells.update (0, 0) s.stamps (pa / 128) fun e => (e.1, max e.2 t) }
/-- Step 3 of R379: the mark is written, after everything that the launch's agents did, or its failure is put on record (R381). -/
def State.completeMark (s : State) (l : Nat) : State :=
  let x := s.launch l
  match x.donePa with
  | none => s
  | some pa =>
    if (isPool pa && !s.poolUp) || s.anyPoison pa 32 then
      s.modCtx x.ctx fun y => { y with markFails := y.markFails ++ [(x.id, x.desc.doneMark)] }
    else (s.storeAfter pa (s.launchTime l)).writeDone pa (if x.desc.blockCount = 0 then x.admitted else x.cls)

/-- A packet completes: it is no longer counted for ORDER, and its queue's vector is raised if it asks (R42, R45). -/
def State.completePacket (s : State) (q n : Nat) (irq : Bool) : State :=
  let s1 := s.modQueue q fun y => { y with open' := y.open'.filter (· != n) }
  if irq then { s1 with vectors := fld (s.queue q).ctl 16 16 :: s1.vectors } else s1

/-- Step 2 of R379 for the interval under way: the launch is given its share, and takes no part in the rest. -/
def State.meterLast (s : State) (l : Nat) : State :=
  { s.modLaunch l fun x => { x with uj := x.uj + s.energyOf l } with served := s.served.filter fun e => e.2.1 != l }

/-- The steps of R379 in order. -/
def State.retire (s : State) (l : Nat) : State :=
  let x := s.launch l
  let s1 := ((s.performAt 5).meterLast l).chargeLaunch l
  let s2 := ((s.chain 8 x.region).foldl (fun s r => s.writeRcb r) s1).judgeQuota x.ctx
  let s3 := s2.completeMark l
  let s4 := if x.owned then s3.completePacket x.queue x.packet x.irq else s3
  s4.modLaunch l fun y => { y with st := .retired, cls := y.admitted, owned := false }

/-- Launches that launch `l` held (R53). -/
def State.heldBy (s : State) (l : Nat) : List Nat :=
  (List.range s.launches.length).filter fun k =>
    (s.launch k).st == .held && (s.launch k).ctx == (s.launch l).ctx && (s.launch k).parent == (s.launch l).id

/-- A launch that another one held starts after everything that this one's agents did (R53, R379). -/
def State.startAfter (s : State) (k l : Nat) : State := s.modLaunch k fun x => { x with after := max x.after (s.launchTime l) }
/-- Launch `l` is admitted; one with no block retires at once, and releases those it held in turn (R53, R382). -/
def State.admitLaunch (s : State) : Nat → Nat → State
  | 0, l => s.startPlacement l
  | fuel + 1, l =>
    let t := s.startPlacement l
    if (s.launch l).desc.blockCount ≠ 0 then t
    else
      let u := t.retire l
      (u.heldBy l).foldl (fun s k => (s.startAfter k l).admitLaunch fuel k) u

/-- LAUNCH_RETIRE: the steps of R379 in order; children that the launch held are passed to placement (R53). -/
def execLaunchRetire (l : Nat) (s : State) : Host.Outcome State Fault Refusal :=
  if !s.retireDue l then .next s
  else
    let t := s.retire l
    .next ((t.heldBy l).foldl (fun s k => (s.startAfter k l).admitLaunch s.launches.length k) t)

end Sys2Proof.Machine
end

