-- ==== Sys2Proof/Machine/Approx.lean ====
section
/-!
DEFINITION. The approximate functions VFRCP, VFRSQ, VFEXP2, VFLOG2, VFSIN, VFCOS and VFTANH (R184, R185): the exact
value to more than 2^-120, the bound of R184 around it, and a free value inside that bound (log 10).
-/

namespace Sys2Proof.Machine

/-! ### Functions in fixed point, 192 fraction bits -/

/-- One, π and ln 2 with 192 fraction bits, and 1/(2π) with 352. -/
def fxOne : Nat := 2 ^ 192
def fxPi : Nat := 19720096697726538562396133364228268891463450865190089732560
def fxLn2 : Nat := 4350955369971217654477563090224794165364344896676135745069
def fxInvTwoPi : Nat :=
  1460086566836962181592887452642178875564762719458888405225159696317256626899154985505630432591576176937914

/-- e^r for 0 ≤ r < 1, by its power series from term `k`. -/
def fxExpFrom (r : Nat) : Nat → Nat → Nat → Nat
  | 0, _, _ => 0
  | fuel + 1, k, term => term + fxExpFrom r fuel (k + 1) (term * r / fxOne / (k + 1))
def fxExp (r : Nat) : Nat := fxExpFrom r 60 0 fxOne

/-- ln m for 1 ≤ m < 2, by the series of 2 atanh ((m − 1)/(m + 1)). -/
def fxLn (m : Nat) : Nat :=
  let y := (m - fxOne) * fxOne / (m + fxOne)
  let y2 := y * y / fxOne
  2 * ((List.range 64).foldl (fun (e : Nat × Nat) k => (e.1 + e.2 / (2 * k + 1), e.2 * y2 / fxOne)) (0, y)).1

/-- The alternating series of sine (`first` 1) and cosine (`first` 0) at a. -/
def fxTrig (first a : Nat) : Int :=
  let a2 := a * a / fxOne
  let t0 := if first = 1 then a else fxOne
  ((List.range 40).foldl (fun (e : Int × Nat) k =>
    (if k % 2 = 0 then e.1 + e.2 else e.1 - e.2,
      e.2 * a2 / fxOne / ((2 * k + 1 + first) * (2 * k + 2 + first)))) (0, t0)).1

/-- A signed fixed-point number as an inexact value. -/
def fxExt (x : Int) : Ext := .fin (decide (x < 0)) x.natAbs (-192) true

/-! ### The exact values -/

/-- 1/x for a finite nonzero x. -/
def exactRcp (x : Ext) : Ext := ((Ext.fin false 1 0 false).div x).1

/-- 1/√x for a finite positive x. -/
def exactRsq : Ext → Ext
  | .fin _ m e _ =>
    let odd := e % 2 = 1
    let a := if odd then 2 * m else m
    let h := (if odd then e - 1 else e) / 2
    let r := sqrtFrom (2 ^ 256 / a) 129 0
    .fin false r (-h - 128) (decide (r * r * a ≠ 2 ^ 256))
  | x => x

/-- The finite value in fixed point, where it is below 2^14, rounded down in magnitude. -/
def fxAbs (m : Nat) (e : Int) : Nat := if -192 ≤ e then scaleTo m e (-192) else m / 2 ^ (-192 - e).toNat

/-- 2^x. -/
def exactExp2 : Ext → Ext
  | .fin neg m e _ =>
    let top : Int := e + bitLen m - 1
    if 9 < top then (if neg then .fin false 1 (-400) true else .fin false 1 400 true)
    else
      let a := fxAbs m e
      let v : Int := if neg then -(a : Int) else a
      let n : Int := v / fxOne
      let f := (v % fxOne).toNat
      if f = 0 ∧ -192 ≤ e then .fin false 1 n false else .fin false (fxExp (f * fxLn2 / fxOne)) (n - 192) true
  | x => x

/-- log2 x for a finite positive x. -/
def exactLog2 : Ext → Ext
  | .fin _ m e _ =>
    let k := bitLen m - 1
    let m1 := m * fxOne / 2 ^ k
    let n : Int := e + k
    if m = 2 ^ k then .fin (decide (n < 0)) n.natAbs 0 false
    else fxExt (n * fxOne + (fxLn m1 * fxOne / fxLn2 : Nat))
  | x => x

/-- sin x (`sine`) or cos x for a finite nonzero x in radians. -/
def exactTrig (sine : Bool) : Ext → Ext
  | .fin neg m e _ =>
    let full := 2 ^ 352
    let t := (if 0 ≤ e then m * fxInvTwoPi * 2 ^ e.toNat else m * fxInvTwoPi / 2 ^ (-e).toNat) % full
    let q := 4 * t / full
    let a := (4 * t % full / 2 ^ 160) * fxPi / fxOne / 2
    let v :=
      match (if sine then q else q + 1) % 4 with
      | 0 => fxTrig 1 a
      | 1 => fxTrig 0 a
      | 2 => -fxTrig 1 a
      | _ => -fxTrig 0 a
    fxExt (if sine && neg then -v else v)
  | x => x

/-- tanh x for a finite nonzero x. -/
def exactTanh : Ext → Ext
  | .fin neg m e _ =>
    let top : Int := e + bitLen m - 1
    if top < -20 then
      -- x − x³/3
      .fin neg ((3 * m * 2 ^ 160 - m ^ 3 * 2 ^ 160 / 2 ^ (-2 * e).toNat) / 3) (e - 160) true
    else if 5 < top then .fin neg (fxOne - 1) (-192) true
    else
      let p := (List.range 7).foldl (fun p _ => p * p / fxOne) (fxExp (2 * fxAbs m e / 128))
      .fin neg ((p - fxOne) * fxOne / (p + fxOne)) (-192) true
  | x => x

/-! ### Bounds (R184) -/

/-- |x − y| ≤ m × 2^e for finite values. -/
def Ext.within (x y : Ext) (m : Nat) (e : Int) : Bool :=
  match x, y with
  | .fin n1 m1 e1 _, .fin n2 m2 e2 _ =>
    let u := min (min e1 e2) e
    let a : Int := scaleTo m1 e1 u
    let b : Int := scaleTo m2 e2 u
    decide (((if n1 then -a else a) - (if n2 then -b else b)).natAbs ≤ scaleTo m e u)
  | _, _ => false

/-- The bound around an exact value: units of the FP32 spacing at it, or an absolute error 2^-n. -/
inductive Bound where
  | ulps (k : Nat)
  | abs (n : Nat)
deriving DecidableEq, Repr, Inhabited

def Bound.holds (b : Bound) (y c : Ext) : Bool :=
  match b, y with
  | .abs n, _ => c.within y 1 (-(n : Int))
  | .ulps k, .fin _ m e _ => c.within y k (max (e + bitLen m - 1) (-126) - 23)
  | _, _ => false

/-- The FP32 result of function `opc` whose exact value is `y`: the free value where it keeps the bound, else the
nearest. -/
def approxCode (opc : Nat) (bits : Nat) (b : Bound) (y : Ext) : Nat :=
  let c := (Config.approx opc (BitVec.ofNat 32 bits)).toNat
  let v := FF.f32.toExt c
  if b.holds y v then c else (FF.f32.round 0 false 0 y).1

/-- One result in format `f` from the exact value `y` of an element `bits` (R184): the FP32 result within the bound,
rounded once under RNE into the element format; flags by R182. -/
def approxResult (f : FF) (sat : Bool) (opc bits : Nat) (b : Bound) (y : Ext) : Nat × BitVec 6 :=
  let whole := f.round 0 sat 0 y
  let huge := (FF.f32.round 0 false 0 y).2 &&& fOF != 0
  if huge then whole
  else
    let c := approxCode opc bits b y
    let r := if f == .f32 then (c, 0) else f.round 0 sat 0 (FF.f32.toExt c)
    let exact : Bool := match y with
      | .fin _ _ _ st => !st && (f.toExt r.1).eq y
      | _ => true
    let tiny : Bool := match y with
      | .fin _ m e _ => decide (e + bitLen m - 1 < 1 - (f.bias : Int))
      | _ => false
    (r.1, (r.2 &&& (fOF ||| fSAT)) ||| (if exact then 0 else fNX) ||| (if !exact && tiny then fUF else 0))

/-- A special operand's result (R185), or the function's exact value and bound. -/
def specialOf (opc : Nat) (x : Ext) : Sum (Ext × BitVec 6) (Ext × Bound) :=
  match opc, x with
  | _, .nan => .inl (.nan, 0)
  | 0x69, .inf n => .inl (Ext.zero n, 0)
  | 0x69, .fin n 0 _ _ => .inl (.inf n, fDZ)
  | 0x69, x => .inr (exactRcp x, .ulps 1)
  | 0x6A, .inf n => .inl (if n then (.nan, fIV) else (Ext.zero false, 0))
  | 0x6A, .fin n 0 _ _ => .inl (.inf n, fDZ)
  | 0x6A, .fin true _ _ _ => .inl (.nan, fIV)
  | 0x6A, x => .inr (exactRsq x, .ulps 2)
  | 0x6B, .inf n => .inl (if n then Ext.zero false else .inf false, 0)
  | 0x6B, .fin _ 0 _ _ => .inl (.fin false 1 0 false, 0)
  | 0x6B, x => .inr (exactExp2 x, .ulps 2)
  | 0x6C, .inf n => .inl (if n then (.nan, fIV) else (.inf false, 0))
  | 0x6C, .fin _ 0 _ _ => .inl (.inf true, fDZ)
  | 0x6C, .fin true _ _ _ => .inl (.nan, fIV)
  | 0x6C, x =>
    if x.eq (.fin false 1 0 false) then .inl (Ext.zero false, 0)
    else
      .inr (exactLog2 x, if x.lt (.fin false 1 (-1) false) || (Ext.fin false 2 0 false).lt x then .ulps 2 else .abs 22)
  | 0x6D, .inf _ | 0x6E, .inf _ => .inl (.nan, fIV)
  | 0x6D, .fin n 0 _ _ => .inl (Ext.zero n, 0)
  | 0x6E, .fin _ 0 _ _ => .inl (.fin false 1 0 false, 0)
  | 0x6D, x => .inr (exactTrig true x, .abs 21)
  | 0x6E, x => .inr (exactTrig false x, .abs 21)
  | _, .inf n => .inl (.fin n 1 0 false, 0)
  | _, .fin n 0 _ _ => .inl (Ext.zero n, 0)
  | _, x => .inr (exactTanh x, .ulps 2)

/-- Result and flags of function `opc` on one element. -/
def special (f : FF) (sat : Bool) (opc bits : Nat) : Nat × BitVec 6 :=
  match specialOf opc (f.toExt bits) with
  | .inl (y, fl) => f.round 0 sat fl y
  | .inr (y, b) => approxResult f sat opc bits b y

end Sys2Proof.Machine
end

