-- ==== Sys2Proof/Machine/VectorFloat.lean ====
section
/-!
DEFINITION. The floating-point vector instructions 0x60 to 0x73 (R196, R197). `eff<Name>` is an instruction's effect
on the state before it, which PAIR shares.
-/

namespace Sys2Proof.Machine

open ElemTy

/-! ### Shared shapes -/

/-- The format of a floating element type. -/
def fmtOf (t : ElemTy) : FF := (formatOfTy t).getD .f32

/-- The instruction's mode is RD (R168). -/
def isRd (mod : BitVec 4) : Bool := mod.toNat % 8 == 2

/-- An element-wise rounded instruction of A and B (R196). -/
def floatEffect (o : V3) (f : Ext → Ext → Ext × BitVec 6) (s : State) : Except Exn VRes :=
  roundEffect o.g o.ws o.ty o.d o.mod 0 [o.a, o.b] (fun l =>
    let a := s.vsrc o.ty o.a l
    let b := s.vsrc o.ty o.b l
    (List.range (tyElems o.ty)).map fun j =>
      let r := f (elemExt o.ty (elem o.ty a j)) (elemExt o.ty (elem o.ty b j))
      (fmtOf o.ty).prep r.2 r.1) s

/-- The same of A alone. -/
def floatUnary (o : V3) (f : Ext → Pre) (s : State) : Except Exn VRes :=
  roundEffect o.g o.ws o.ty o.d o.mod 0 [o.a] (fun l =>
    let a := s.vsrc o.ty o.a l
    (List.range (tyElems o.ty)).map fun j => f (elemExt o.ty (elem o.ty a j))) s

/-- An element-wise instruction on codes that does not round. -/
def codeEffect (o : V3) (unary : Bool) (f : Nat → Nat → Nat × BitVec 6) : State → Except Exn VRes :=
  v3Effect o o.ty o.ty unary fun _ a b _ => onElems o.ty (fun _ _ x y => f x y) a b

/-! ### Arithmetic (R196) -/

def effVfadd (o : V3) : State → Except Exn VRes := floatEffect o (Ext.add (isRd o.mod))
def effVfsub (o : V3) : State → Except Exn VRes := floatEffect o fun a b => Ext.add (isRd o.mod) a b.neg
def effVfmul (o : V3) : State → Except Exn VRes := floatEffect o Ext.mul
def effVfdiv (o : V3) : State → Except Exn VRes := floatEffect o Ext.div
def effVfsqrt (o : V3) : State → Except Exn VRes :=
  floatUnary o fun a => let r := a.sqrt; (fmtOf o.ty).prep r.2 r.1
def effVfrnd (o : V3) : State → Except Exn VRes := floatUnary o (prepRnd (fmtOf o.ty))

/-- VFSCALE: every element of A times 2^n, n the lane's B as `.i32`; beyond ±4,096 every such n gives one result. -/
def effVfscale (o : V3) (s : State) : Except Exn VRes :=
  roundEffect o.g o.ws o.ty o.d o.mod 0 [o.a, o.b] (fun l =>
    let a := s.vsrc o.ty o.a l
    let n := max (-4096) (min 4096 (intOf true 32 (s.vsrc i32 o.b l)))
    (List.range (tyElems o.ty)).map fun j => (fmtOf o.ty).prep 0 ((elemExt o.ty (elem o.ty a j)).scale n)) s

/-- VFMA: exact a × b + c, rounded once. -/
def effVfma (o : V4) (s : State) : Except Exn VRes :=
  roundEffect o.g o.ws o.ty o.d o.mod (o.imm.extractLsb' 0 16) [o.a, o.b, o.c] (fun l =>
    let v (f : BitVec 12) (j : Nat) : Ext := elemExt o.ty (elem o.ty (s.vsrc o.ty f l) j)
    (List.range (tyElems o.ty)).map fun j =>
      let p := (v o.a j).mul (v o.b j)
      let r := Ext.add (isRd o.mod) p.1 (v o.c j)
      (fmtOf o.ty).prep (p.2 ||| r.2) r.1) s

/-- VFMIN (`least`) and VFMAX on codes: −0 is less than +0, a NaN yields to a number. -/
def minMaxCode (f : FF) (least : Bool) (a b : Nat) : Nat :=
  let x := f.toExt a
  let y := f.toExt b
  let neg (c : Nat) : Bool := c.testBit (f.width - 1)
  if x.isNan && y.isNan then f.nanCode
  else if x.isNan then b
  else if y.isNan then a
  else if x.eq y then (if neg a == least then a else b)
  else if x.lt y == least then a else b

def effVfmin (o : V3) : State → Except Exn VRes := codeEffect o false fun a b => (minMaxCode (fmtOf o.ty) true a b, 0)
def effVfmax (o : V3) : State → Except Exn VRes := codeEffect o false fun a b => (minMaxCode (fmtOf o.ty) false a b, 0)

/-- VFCLASS: the one bit that names an element's class. -/
def classMask (f : FF) (c : Nat) : Nat :=
  let neg := c.testBit (f.width - 1)
  let m := c % 2 ^ (f.width - 1)
  match f.toExt c with
  | .nan => 256
  | .inf _ => if neg then 1 else 128
  | .fin _ _ _ _ =>
    if m = 0 then (if neg then 8 else 16)
    else if m < 2 ^ f.frac then (if neg then 4 else 32)
    else if neg then 2 else 64

def effVfclass (o : V3) : State → Except Exn VRes := codeEffect o true fun a _ => (classMask (fmtOf o.ty) a, 0)

/-- The approximate functions (R184, R185). -/
def specialEffect (o : V3) (opc : Nat) : State → Except Exn VRes :=
  codeEffect o true fun a _ => special (fmtOf o.ty) (o.mod.getLsbD 3) opc a

def effVfrcp (o : V3) : State → Except Exn VRes := specialEffect o 0x69
def effVfrsq (o : V3) : State → Except Exn VRes := specialEffect o 0x6A
def effVfexp2 (o : V3) : State → Except Exn VRes := specialEffect o 0x6B
def effVflog2 (o : V3) : State → Except Exn VRes := specialEffect o 0x6C
def effVfsin (o : V3) : State → Except Exn VRes := specialEffect o 0x6D
def effVfcos (o : V3) : State → Except Exn VRes := specialEffect o 0x6E
def effVftanh (o : V3) : State → Except Exn VRes := specialEffect o 0x6F

/-! ### Dot products (R197) -/

/-- The exact sum of C and the products: NaN first, else sums and products with their flags. -/
def dotExt (rd : Bool) (c : Ext) (ps : List (Ext × Ext)) : Ext × BitVec 6 :=
  if c.isNan || ps.any (fun p => p.1.isNan || p.2.isNan) then (.nan, 0)
  else
    ps.foldl (fun (e : Ext × BitVec 6) p =>
      let m := p.1.mul p.2
      let r := Ext.add rd e.1 m.1
      (r.1, e.2 ||| m.2 ||| r.2)) (c, 0)

/-- VDOT2 and VDOT4 into one 32-bit accumulator. -/
def dotEffect (o : V4) (s : State) : Except Exn VRes :=
  let pairs (l : Nat) : List (Nat × Nat) :=
    (List.range (tyElems o.ty)).map fun j => (elem o.ty (s.vsrc o.ty o.a l) j, elem o.ty (s.vsrc o.ty o.b l) j)
  if signedTy o.ty then
    v4Effect o i32 [o.a, o.b, o.c] (fun l =>
      let w := elemBits o.ty
      satInt true 32 (o.mod.getLsbD 3)
        ((pairs l).foldl (fun n p => n + intOf true w p.1 * intOf true w p.2) (intOf true 32 (s.vsrc i32 o.c l)))) s
  else
    roundEffect o.g o.ws f32 o.d o.mod (o.imm.extractLsb' 0 16) [o.a, o.b, o.c] (fun l =>
      let r := dotExt (isRd o.mod) (elemExt f32 (s.vsrc f32 o.c l))
        ((pairs l).map fun p => (elemExt o.ty p.1, elemExt o.ty p.2))
      [FF.f32.prep r.2 r.1]) s

def effVdot2 (o : V4) : State → Except Exn VRes := dotEffect o
def effVdot4 (o : V4) : State → Except Exn VRes := dotEffect o

/-! ### The instructions -/

def execVfadd (o : V3) (s : State) : Host.Outcome State Fault Refusal := vecInstr (.vfadd o) (effVfadd o) s
def execVfsub (o : V3) (s : State) : Host.Outcome State Fault Refusal := vecInstr (.vfsub o) (effVfsub o) s
def execVfmul (o : V3) (s : State) : Host.Outcome State Fault Refusal := vecInstr (.vfmul o) (effVfmul o) s
def execVfma (o : V4) (s : State) : Host.Outcome State Fault Refusal := vecInstr (.vfma o) (effVfma o) s
def execVfmin (o : V3) (s : State) : Host.Outcome State Fault Refusal := vecInstr (.vfmin o) (effVfmin o) s
def execVfmax (o : V3) (s : State) : Host.Outcome State Fault Refusal := vecInstr (.vfmax o) (effVfmax o) s
def execVfclass (o : V3) (s : State) : Host.Outcome State Fault Refusal := vecInstr (.vfclass o) (effVfclass o) s
def execVfdiv (o : V3) (s : State) : Host.Outcome State Fault Refusal := vecInstr (.vfdiv o) (effVfdiv o) s
def execVfsqrt (o : V3) (s : State) : Host.Outcome State Fault Refusal := vecInstr (.vfsqrt o) (effVfsqrt o) s
def execVfrcp (o : V3) (s : State) : Host.Outcome State Fault Refusal := vecInstr (.vfrcp o) (effVfrcp o) s
def execVfrsq (o : V3) (s : State) : Host.Outcome State Fault Refusal := vecInstr (.vfrsq o) (effVfrsq o) s
def execVfexp2 (o : V3) (s : State) : Host.Outcome State Fault Refusal := vecInstr (.vfexp2 o) (effVfexp2 o) s
def execVflog2 (o : V3) (s : State) : Host.Outcome State Fault Refusal := vecInstr (.vflog2 o) (effVflog2 o) s
def execVfsin (o : V3) (s : State) : Host.Outcome State Fault Refusal := vecInstr (.vfsin o) (effVfsin o) s
def execVfcos (o : V3) (s : State) : Host.Outcome State Fault Refusal := vecInstr (.vfcos o) (effVfcos o) s
def execVftanh (o : V3) (s : State) : Host.Outcome State Fault Refusal := vecInstr (.vftanh o) (effVftanh o) s
def execVfscale (o : V3) (s : State) : Host.Outcome State Fault Refusal := vecInstr (.vfscale o) (effVfscale o) s
def execVfrnd (o : V3) (s : State) : Host.Outcome State Fault Refusal := vecInstr (.vfrnd o) (effVfrnd o) s
def execVdot2 (o : V4) (s : State) : Host.Outcome State Fault Refusal := vecInstr (.vdot2 o) (effVdot2 o) s
def execVdot4 (o : V4) (s : State) : Host.Outcome State Fault Refusal := vecInstr (.vdot4 o) (effVdot4 o) s

end Sys2Proof.Machine
end

