-- ==== Sys2Proof/Machine/Collective.lean ====
section
/-!
DEFINITION. The collectives 0x80 to 0x87 (R186, R201 to R206).
-/

namespace Sys2Proof.Machine

open ElemTy

/-- What a contributing lane brings: lane, A, B, C; a predicate operand counts 1 where it is set. -/
abbrev Contribution := Nat × Word × Word × Word

/-- The contributing lanes of the block of lane `l`, ascending, for blocks of `n`. -/
def blockOf (n l : Nat) (cs : List Contribution) : List Contribution :=
  (List.range 96).filterMap fun j => if j / n = l / n then cs.find? fun e => e.1 == j else none

/-- A mask result (R201): bit k of lane `l` stands for position 32w + k of its block. -/
def maskResult (n l : Nat) (cs : List Contribution) (f : Contribution → Bool) : Nat :=
  cs.foldl (fun v e =>
    if e.1 % n / 32 = l % n / 32 ∧ f e then v + 2 ^ (e.1 % n % 32) else v) 0

/-! ### Shuffles (R203) -/

/-- The source lane of lane `l` under SUB, δ and index `b`, if it is in the block. -/
def shuffleSource (sub n delta l b : Nat) : Option Nat :=
  let p := l % n
  let s : Int :=
    match sub with
    | 0 => (b % n : Nat)
    | 1 => (p : Int) - delta
    | 2 => (p : Int) + delta
    | _ => (Nat.xor p delta : Nat)
  if 0 ≤ s ∧ s < n then some (l / n * n + s.toNat) else none

/-- The value of contributing lane `l`, else `d`. -/
def pickLane (cs : List Contribution) (l : Option Nat) (d : Word) : Word :=
  match l with
  | some j => ((cs.find? fun e => e.1 == j).map (·.2.1)).getD d
  | none => d

/-! ### Reductions (R186, R205) -/

/-- One step of a reduction: operation SUB bits 2:0 on two values of a type, with flags. -/
def reduceStep (t : ElemTy) (op : Nat) (a b : Nat) : Nat × BitVec 6 :=
  let w := elemBits t
  if t == f32 then
    match op with
    | 0 =>
      let r := Ext.add false (elemExt f32 a) (elemExt f32 b)
      FF.f32.round 0 false r.2 r.1
    | 1 => (minMaxCode .f32 true a b, 0)
    | _ => (minMaxCode .f32 false a b, 0)
  else
    match op with
    | 0 => ((a + b) % 2 ^ w, 0)
    | 1 => (minNat w (signedTy t) a b, 0)
    | 2 => (maxNat w (signedTy t) a b, 0)
    | 3 => (Nat.land a b, 0)
    | 4 => (Nat.lor a b, 0)
    | _ => (Nat.xor a b, 0)

/-- The identity of an operation (R186, R205). -/
def reduceIdentity (t : ElemTy) (op : Nat) : Nat :=
  let w := elemBits t
  match op with
  | 0 => if t == f32 then 0x80000000 else 0
  | 1 => if t == f32 then 0x7F800000 else wrapInt w (intMax (signedTy t) w)
  | 2 => if t == f32 then 0xFF800000 else wrapInt w (intMin (signedTy t) w)
  | 3 => 2 ^ w - 1
  | _ => 0

/-- Combine neighbours once. -/
def pairUp (f : Nat → Nat → Nat × BitVec 6) : List Nat → List Nat × BitVec 6
  | a :: b :: rest =>
    let r := f a b
    let q := pairUp f rest
    (r.1 :: q.1, r.2 ||| q.2)
  | l => (l, 0)

/-- The tree over 4, 8, 16 or 32 positions, `fuel` levels. -/
def treeReduce (f : Nat → Nat → Nat × BitVec 6) : Nat → List Nat → Nat × BitVec 6
  | 0, l => (l.headD 0, 0)
  | fuel + 1, l =>
    let q := pairUp f l
    let r := treeReduce f fuel q.1
    (r.1, q.2 ||| r.2)

/-- R186: the value of a block of positions. -/
def blockReduce (f : Nat → Nat → Nat × BitVec 6) (vs : List Nat) : Nat × BitVec 6 :=
  if vs.length = 96 then
    let a := treeReduce f 5 (vs.take 32)
    let b := treeReduce f 5 ((vs.drop 32).take 32)
    let c := treeReduce f 5 (vs.drop 64)
    let r := f a.1 b.1
    let q := f r.1 c.1
    (q.1, a.2 ||| b.2 ||| c.2 ||| r.2 ||| q.2)
  else treeReduce f vs.length.log2 vs

/-- The values at the positions of the block of lane `l`, identities where none contributes. -/
def blockValues (n l : Nat) (cs : List Contribution) (ident : Nat) : List Nat :=
  (List.range n).map fun p => ((cs.find? fun e => e.1 == l / n * n + p).map fun e => e.2.1.toNat).getD ident

/-- R205: the running results of a scan and its flags. -/
def scanFrom (f : Nat → Nat → Nat × BitVec 6) (excl : Bool) : Nat → List Nat → List Nat × BitVec 6
  | _, [] => ([], 0)
  | acc, v :: vs =>
    let r := f acc v
    let q := scanFrom f excl r.1 vs
    ((if excl then acc else r.1) :: q.1, r.2 ||| q.2)

/-! ### Results of a collective -/

/-- The results of a collective: for each lane that receives one its value, and the flags. `n` is the group's
block size. -/
def collResult (opc : BitVec 8) (o : V4) (n : Nat) (cs : List Contribution) : List (Nat × Word) × BitVec 6 :=
  let sub := o.sub.toNat
  let delta := o.imm.toNat / 8 % 128
  let all (f : Contribution → List Contribution → Word) : List (Nat × Word) × BitVec 6 :=
    (cs.map fun e => (e.1, f e (blockOf n e.1 cs)), 0)
  let nat (x : Nat) : Word := BitVec.ofNat 64 x
  match opc.toNat with
  | 0x80 => all fun e bl => pickLane bl (shuffleSource sub n delta e.1 e.2.2.1.toNat) e.2.1
  | 0x81 => all fun e bl => pickLane bl (shuffleSource sub n delta e.1 e.2.2.1.toNat) e.2.2.2
  | 0x82 =>
    all fun e bl =>
      if sub = 0 then pickLane bl (if delta < n then some (e.1 / n * n + delta) else none) e.2.1
      else pickLane bl ((bl.find? fun x => x.2.2.2 != 0).map (·.1)) e.2.1
  | 0x83 =>
    all fun e bl =>
      match sub with
      | 0 => if bl.any fun x => x.2.1 != 0 then 1 else 0
      | 1 => if bl.all fun x => x.2.1 != 0 then 1 else 0
      | 2 => nat (maskResult n e.1 bl fun x => x.2.1 != 0)
      | _ => nat (bl.filter fun x => x.2.1 != 0).length
  | 0x84 =>
    all fun e bl =>
      if sub = 0 then nat (maskResult n e.1 bl fun x => x.2.1 == e.2.1)
      else if bl.all fun x => x.2.1 == e.2.1 then 1 else 0
  | 0x85 =>
    let f := reduceStep o.ty (sub % 8)
    let rs := cs.map fun e => (e.1, blockReduce f (blockValues n e.1 cs (reduceIdentity o.ty (sub % 8))))
    (rs.map fun e => (e.1, nat e.2.1), rs.foldl (fun a e => a ||| e.2.2) 0)
  | 0x86 =>
    let f := reduceStep o.ty (sub % 8)
    let i := reduceIdentity o.ty (sub % 8)
    let rs := cs.map fun e =>
      let r := scanFrom f (8 ≤ sub) i (blockValues n e.1 cs i)
      (e.1, r.1.getD (e.1 % n) 0, r.2)
    (rs.map fun e => (e.1, nat e.2.1), rs.foldl (fun a e => a ||| e.2.2) 0)
  | _ =>
    (cs.filterMap fun e =>
      let bl := blockOf n e.1 cs
      let vs := bl.filter fun x => x.2.2.2 != 0
      match bl.findIdx? fun x => x.1 == e.1 with
      | some k => (vs[k]?).map fun x => (e.1, x.2.1)
      | none => none, 0)

/-- The result is a predicate (R204). -/
def collPred (opc : BitVec 8) (o : V4) : Bool :=
  (opc.toNat == 0x83 && decide (o.sub.toNat < 2)) || (opc.toNat == 0x84 && o.sub == 1)

/-- Write the results that the lanes of one split receive, into that split's destination (R202). -/
def State.writeColl (s : State) (opc : BitVec 8) (o : V4) (vals : List (Nat × Word)) : State :=
  if collPred opc o then
    s.setP (o.d.toNat % 16) (vals.foldl (fun m e => m ||| Mask.one e.1) 0)
      (predMask (vals.map fun e => (e.1, e.2.toNat)))
  else if is64 o.ty && opc.toNat != 0x84 then s.setV64 o.d.toNat vals
  else s.setV o.d.toNat (vals.map fun e => (e.1, (e.2.extractLsb' 0 32 : Lane32)))

/-- R202: every result in one step, and the splits that stalled go on. -/
def State.finishColl (s : State) (c k n : Nat) (opc : BitVec 8) (o : V4) (parts : List Joiner) : State :=
  let r := collResult opc o n (parts.flatMap (·.ops))
  let s1 := parts.foldl (fun s j =>
    match collOf j.i with
    | none => s
    | some (_, oj) =>
      let mine := r.1.filter fun e => j.ops.any fun x => x.1 == e.1
      let t := s.as (.course c j.k) fun u => u.writeColl opc oj mine
      if j.k == k then t else t.resume c j.k) s
  s1.orFlags r.2

/-- A collective (R135, R202): `src` gives A, B and C of a lane, `fs` the latch fields it reads; a split that stalls has read
its operands already. -/
def collective (i : Instr) (o : V4) (fs : List (BitVec 12)) (src : State → Nat → Word × Word × Word) (s : State) :
    Host.Outcome State Fault Refusal :=
  instr i (fun t =>
    match t.cur, collOf i with
    | .course c k, some (opc, _) => do
      let g := t.greg (o.imm.toNat % 8)
      let next := s.pc + Instr.len i
      let ops ← match s.wait with
        | .join _ ops => (.ok ops : Except Exn (List (Nat × Word × Word × Word)))
        | _ => do
          let m := t.acted o.g
          t.latchCheck m fs
          .ok ((Mask.list (m &&& g.mem)).map fun l => (l, src t l))
      match t.meet c k i g.mem ops with
      | .fault => .error (trapC tCollective)
      | .failed u => .ok u
      | .wait => .ok (t.setWait (.join i ops) next)
      | .go parts => .ok ((t.finishColl c k g.size opc o parts).setPc next)
    | _, _ => .ok t) s

/-- A vector operand as 64 bits. -/
def State.csrc (s : State) (t : ElemTy) (f : BitVec 12) (l : Nat) : Word := BitVec.ofNat 64 (s.vsrc t f l)
/-- A predicate operand. -/
def State.cpred (s : State) (n l : Nat) : Word := if (s.preg (n % 16)).has l then 1 else 0

/-- Latch fields of a shuffle. -/
def shuffleFields (o : V4) (fallback : Bool) : List (BitVec 12) :=
  [o.a] ++ (if o.sub = 0 then [o.b] else []) ++ (if fallback then [o.c] else [])

def execVshfl (o : V4) (s : State) : Host.Outcome State Fault Refusal :=
  collective (.vshfl o) o (shuffleFields o false) (fun t l =>
    (t.csrc o.ty o.a l, if o.sub = 0 then t.csrc b32 o.b l else 0, 0)) s
def execVshfx (o : V4) (s : State) : Host.Outcome State Fault Refusal :=
  collective (.vshfx o) o (shuffleFields o true) (fun t l =>
    (t.csrc o.ty o.a l, if o.sub = 0 then t.csrc b32 o.b l else 0, t.csrc o.ty o.c l)) s
def execVbcast (o : V4) (s : State) : Host.Outcome State Fault Refusal :=
  collective (.vbcast o) o [o.a] (fun t l => (t.csrc o.ty o.a l, 0, if o.sub = 1 then t.cpred o.c.toNat l else 0)) s
def execVvote (o : V4) (s : State) : Host.Outcome State Fault Refusal :=
  collective (.vvote o) o [] (fun t l => (t.cpred o.a.toNat l, 0, 0)) s
def execVmatch (o : V4) (s : State) : Host.Outcome State Fault Refusal :=
  collective (.vmatch o) o [o.a] (fun t l => (t.csrc o.ty o.a l, 0, 0)) s
def execVred (o : V4) (s : State) : Host.Outcome State Fault Refusal :=
  collective (.vred o) o [o.a] (fun t l => (t.csrc o.ty o.a l, 0, 0)) s
def execVscan (o : V4) (s : State) : Host.Outcome State Fault Refusal :=
  collective (.vscan o) o [o.a] (fun t l => (t.csrc o.ty o.a l, 0, 0)) s
def execVcmpr (o : V4) (s : State) : Host.Outcome State Fault Refusal :=
  collective (.vcmpr o) o [o.a] (fun t l => (t.csrc o.ty o.a l, 0, t.cpred o.c.toNat l)) s

end Sys2Proof.Machine
end

