-- ==== Sys2Proof/Machine/Convert.lean ====
section
/-!
DEFINITION. Conversion and packing 0x78 to 0x7A (R198, R199), and the PAIR of two vector instructions (R82 to R84).
-/

namespace Sys2Proof.Machine

open ElemTy

/-- One element converted, before its rounding step (R175, R177, R198). -/
def convertPre (dst : ElemTy) (x : Ext) : Pre :=
  match formatOfTy dst with
  | some f => f.prep 0 x
  | none => prepInt (signedTy dst) (elemBits dst) x

/-- Source and destination places of the elements that VCVT converts. -/
def cvtPlaces (dst src : ElemTy) (k : Nat) : List (Nat × Nat) :=
  let cd := tyElems dst
  let cs := tyElems src
  if cs ≤ cd then (List.range cs).map fun j => (j, if cs = cd then j else k * cs + j)
  else (List.range cd).map fun j => (k * cd + j, j)

/-- R198: VCVT; a narrowing one keeps the other elements of D, which are 0 under WS. -/
def effVcvt (o : V3) (s : State) : Except Exn VRes := do
  let src := (tyOf (o.sub.toNat % 16)).getD b32
  let m := s.acted o.g
  s.latchCheck m [o.a]
  let places := cvtPlaces o.ty src (o.b.toNat % 4)
  let q := tyElems o.ty
  let all := (Mask.list m).flatMap fun l =>
    places.map fun e => (q * l + e.2, convertPre o.ty (elemExt src (elem src (s.vsrc src o.a l) e.1)))
  let done := finishAll (o.mod.toNat % 8) (o.mod.getLsbD 3) s.regs.srseed.toNat all
  let value (l : Nat) : Nat :=
    let old := if o.ws || is64 o.ty then 0 else (s.vreg o.d.toNat l).toNat
    (done.filter fun e => e.1 / q == l).foldl (fun v e => setElem (elemBits o.ty) v (e.1 % q) e.2.1) old
  .ok { m := m, ws := o.ws, dst := vdst o.ty o.d, vals := (Mask.list m).map fun l => (l, value l)
        fl := done.foldl (fun a e => a ||| e.2.2) 0, reads := latchReads [o.a] }

/-- R199: VPACK; under WS no register is read as D, and the bytes kept are free (log 16). -/
def effVpack (o : V3) : State → Except Exn VRes :=
  v3Effect o o.ty o.ty false fun l a b d =>
    let d := oldD o.ws [2, o.sub.toNat, l, a, b] d
    if o.ty == i16x2 then (b % 2 ^ 16 * 2 ^ 16 + a % 2 ^ 16, 0)
    else (setElem 8 (setElem 8 d (2 * o.sub.toNat) a) (2 * o.sub.toNat + 1) b, 0)

/-- R199: VUNPK into D and D + 1. -/
def effVunpk (o : V3) (s : State) : Except Exn VRes :=
  let w := elemBits o.ty
  let h := if o.ty == i8x4 then o.sub.toNat / 2 else 0
  let ext (x : Nat) : Nat := if o.sub.getLsbD 0 then x else wrapInt 32 (intOf true w x)
  (v3Effect o o.ty o.ty true (fun _ a _ _ => (ext (elem o.ty a (2 * h)) + ext (elem o.ty a (2 * h + 1)) * 2 ^ 32, 0)) s).map
    fun r => { r with dst := .two o.d.toNat }

def execVcvt (o : V3) (s : State) : Host.Outcome State Fault Refusal := vecInstr (.vcvt o) (effVcvt o) s
def execVpack (o : V3) (s : State) : Host.Outcome State Fault Refusal := vecInstr (.vpack o) (effVpack o) s
def execVunpk (o : V3) (s : State) : Host.Outcome State Fault Refusal := vecInstr (.vunpk o) (effVunpk o) s

/-! ### PAIR -/

/-- The effect of one half of a PAIR (R82): that of the V3 instruction it stands for. -/
def halfEffect (h : Half) (s : State) : Except Exn VRes :=
  let o := halfV3 h
  match h.op7.toNat with
  | 0x00 => effVadd o s | 0x01 => effVsub o s | 0x02 => effVmul o s | 0x03 => effVmulh o s
  | 0x05 => effVdiv o s | 0x06 => effVrem o s | 0x07 => effVand o s | 0x08 => effVor o s
  | 0x09 => effVxor o s | 0x0A => effVshl o s | 0x0B => effVshr o s | 0x0C => effVrot o s
  | 0x0D => effVmin o s | 0x0E => effVmax o s | 0x0F => effVabs o s | 0x10 => effVbitc o s
  | 0x14 => effVadds o s | 0x15 => effVcmp o s | 0x17 => effVmov o s | 0x19 => effVbrd o s
  | 0x1A => effVext o s | 0x1B => effVsys o s
  | 0x20 => effVfadd o s | 0x21 => effVfsub o s | 0x22 => effVfmul o s | 0x24 => effVfmin o s
  | 0x25 => effVfmax o s | 0x26 => effVfclass o s | 0x27 => effVfdiv o s | 0x28 => effVfsqrt o s
  | 0x29 => effVfrcp o s | 0x2A => effVfrsq o s | 0x2B => effVfexp2 o s | 0x2C => effVflog2 o s
  | 0x2D => effVfsin o s | 0x2E => effVfcos o s | 0x2F => effVftanh o s | 0x30 => effVfscale o s
  | 0x31 => effVfrnd o s
  | _ => .error (trapC tIllegalPair 0 0)

/-- Of the faults of the two halves of one instruction: half 0's, but of one fault in both the lowest lane (R345). -/
def firstFault (e f : Exn) : Exn :=
  match e, f with
  | .trap c l a i, .trap c' l' a' i' => if c = c' ∧ l' < l then .trap c' l' a' i' else .trap c l a i
  | _, _ => e
/-- Both effects, or the fault of the one instruction they are. -/
def bothHalves : Except Exn VRes → Except Exn VRes → Except Exn (VRes × VRes)
  | .ok r, .ok q => .ok (r, q)
  | .error e, .error f => .error (firstFault e f)
  | .error e, .ok _ | .ok _, .error e => .error e

/-- R84: both halves read before either writes; half 0's result enters the latches first. -/
def execPair (h0 h1 : Half) (s : State) : Host.Outcome State Fault Refusal :=
  seqInstr (.pair h0 h1) (fun t => (bothHalves (halfEffect h0 t) (halfEffect h1 t)).map fun r =>
    ((t.commit r.1).commit r.2).windowStep s.pc (r.1.reads ++ r.2.reads) [r.1.ws, r.2.ws]) s

end Sys2Proof.Machine
end

