-- ==== Sys2Proof/Machine/QueueEvents.lean ====
section
/-!
DEFINITION. Queues, packets, regions and leases (R15 to R18, R22 to R24, R29 to R53, R302 to R304, R421).
-/

namespace Sys2Proof.Machine

/-! ### Queue state (R38, R39, R45) -/

def Queue.ctxNum (x : Queue) : Nat := fld x.ctl 32 32
def Queue.enabled (x : Queue) : Bool := x.ctl.getLsbD 8
def Queue.inError (x : Queue) : Bool := x.stat.getLsbD 0
/-- QSTAT with ERROR and a code, where no wait is parked (R47). -/
def errorStat (code : Nat) : Word := BitVec.ofNat 64 (code * 256 + 1)

/-- The context that owns the queue. -/
def State.queueCtx (s : State) (q : Nat) : Option Nat := s.ctxPlace (s.queue q).ctxNum

/-- A WAITMARKS, a REMOVE or a LAUNCH that waits holds the queue (R24, R29, R44, R53). -/
def State.queueHeld (s : State) (q : Nat) : Bool :=
  (s.queue q).hold.isSome
    || s.launches.any fun l => l.queue == q && l.owned && (l.st == .held || l.st == .placing)

/-- The queue goes to ERROR at the packet that stands at its head; it is read again when processing resumes (R41, R47). -/
def State.queueError (s : State) (q code : Nat) : State :=
  s.modQueue q fun x => { x with stat := errorStat code, pkt := none }

/-- Every packet before this one has completed, if ORDER asks for it (R45); one that QREPAIR skipped was never processed and
is not waited for (log 32, DESIGN CHOICE: no rule says whether it counts as completed). -/
def orderOk (x : Queue) (p : Packet) : Bool := !(p.bytes.getD 1 0).getLsbD 0 || x.open'.isEmpty

/-! ### Packets as numbers (R42, R43) -/

def Packet.num (p : Packet) : Nat := leNat p.bytes
/-- `len` bits from bit `lo`. -/
def Packet.fld (p : Packet) (lo len : Nat) : Nat := p.num / 2 ^ lo % 2 ^ len
def Packet.type (p : Packet) : Nat := p.fld 0 8
def Packet.irq (p : Packet) : Bool := p.fld 9 1 == 1
/-- The fields given by first bit and length are zero. -/
def Packet.zero (p : Packet) (fs : List (Nat × Nat)) : Bool := fs.all fun f => p.fld f.1 f.2 == 0

/-- A packet of a given type that stands at the head of its queue and may be processed. -/
def State.head (s : State) (q type : Nat) : Option Packet :=
  let x := s.queue q
  match x.pkt with
  | some p =>
    if x.enabled && !x.inError && !s.queueHeld q && orderOk x p && p.type == type then some p else none
  | none => none

/-- How processing a packet ends: an error code, or the state with the packet processed, and whether it is complete. -/
abbrev Processed := Except Nat (State × Bool)

/-- QREAD moves past packet `p` (R41). -/
def State.passPacket (s : State) (q : Nat) (p : Packet) (complete : Bool) : State :=
  let s1 := s.modQueue q fun x =>
    { x with pkt := none, read := x.read + 1, open' := x.open' ++ [p.index] }
  if complete then s1.completePacket q p.index p.irq else s1

/-- Process the packet of type `type` at the head of queue `q`, with the checks of the header first (R421); the queue has had
its turn (R45). A queue whose CONTEXT names no context goes to ERROR with ADDRESS_FAULT (log 32, DESIGN CHOICE: R47 names no
code for it). -/
def State.process (s : State) (q type : Nat) (body : State → Nat → Packet → Processed) : State :=
  match s.head q type with
  | none => s
  | some p =>
    let u := { s with turn := q }
    if !p.zero [(10, 22)] then u.queueError q 2
    else
      match u.queueCtx q with
      | none => u.queueError q 6
      | some x =>
        match body (u.passPacket q p false) x p with
        | .error code => u.queueError q code
        | .ok (t, done) => if done then t.completePacket q p.index p.irq else t

/-! ### Accesses of the scheduler core (R47) -/

/-- Bytes at a virtual address, at SYSTEM scope, or `none` where R47 calls it ADDRESS_FAULT. -/
def State.schedRead (s : State) (x : Nat) (va : Word) (n : Nat) : Option (List Byte) :=
  match s.translate x va with
  | .ok f =>
    if !f.r || f.pol == 3 || (isPool f.pa && !s.poolUp) || s.anyPoison f.pa n then none else some (s.readBytes f.pol f.pa n)
  | .error _ => none

/-- 256 bytes, 64 at a time. -/
def State.schedRead256 (s : State) (x : Nat) (va : Word) : Option (List Byte) :=
  match s.schedRead x va 64, s.schedRead x (va + 64) 64, s.schedRead x (va + 128) 64, s.schedRead x (va + 192) 64 with
  | some a, some b, some c, some d => some (a ++ b ++ c ++ d)
  | _, _, _, _ => none

/-- The place of a mark that the scheduler core reads, or reads and writes (R302). A mark on a STREAM, IO or formatted page is
an ADDRESS_FAULT (log 32, DESIGN CHOICE: no cause of R47 lists it). -/
def State.schedMark (s : State) (x : Nat) (va : Word) (wr : Bool) : Option Leaf :=
  match s.translate x va with
  | .ok f =>
    if !f.r || (wr && !f.w) || f.pol == 1 || f.pol == 3 || f.fmt != 0 || (isPool f.pa && !s.poolUp) || s.anyPoison f.pa 32 then none
    else some f
  | .error _ => none

/-- A write of the scheduler core at SYSTEM scope, a release (R44, R52). -/
def State.schedStore (s : State) (pa : Nat) (bs : List Byte) : State := (s.performAt 5).hostStore pa bs

/-! ### Reading a packet (R41) -/

/-- Types of R42. -/
def packetTypes : List Nat := [1, 2, 3, 4, 5, 15]

/-- A packet is to be read, or the one read has a reserved type and may be processed. -/
def State.packetDue (s : State) (q : Nat) : Bool :=
  let x := s.queue q
  x.enabled && !x.inError && !s.queueHeld q
    && match x.pkt with
      | none => decide (x.read.toNat < x.kick.toNat)
      | some p => orderOk x p && !packetTypes.contains p.type

/-- PACKET_READ; a queue whose CONTEXT names no context takes ADDRESS_FAULT (log 32, DESIGN CHOICE). -/
def execPacketRead (q : Nat) (s : State) : Host.Outcome State Fault Refusal :=
  if !s.packetDue q then .next s
  else
    let x := s.queue q
    match x.pkt with
    | some _ => .next ({ s with turn := q }.queueError q 1)
    | none =>
      let slot := x.read.toNat % 2 ^ fld x.ctl 0 5
      let got := match s.queueCtx q with
        | some c => s.schedRead c (x.base + BitVec.ofNat 64 (64 * slot)) 64
        | none => none
      match got with
      | none => .next ({ s with turn := q }.queueError q 6)
      | some bytes =>
        .next ((s.performAt 5).modQueue q fun y =>
          { y with pkt := some { index := x.read.toNat, bytes := bytes, since := s.clock } })

/-! ### NOP and SETMARK -/

def execNopPacket (q : Nat) (s : State) : Host.Outcome State Fault Refusal :=
  .next (s.process q 15 fun t _ p => if p.zero [(64, 448)] then .ok (t, true) else .error 2)

/-- SETMARK: a release at SYSTEM scope that wakes the mark's waiters. -/
def setmarkBody (s : State) (x : Nat) (p : Packet) : Processed :=
  let va : Word := BitVec.ofNat 64 (p.fld 64 64)
  if !p.zero [(194, 318)] || 1 < p.fld 192 2 then .error 2
  else if va.toNat % 32 ≠ 0 then .error 5
  else
    match s.schedMark x va true with
    | none => .error 6
    | some f =>
      let old := leNat (s.readBytes f.pol f.pa 8)
      let v := p.fld 128 64
      .ok ((s.schedStore f.pa (natLe 8 (if p.fld 192 2 = 0 then v else old + v))).wakeMark f.pa, true)

def execSetmark (q : Nat) (s : State) : Host.Outcome State Fault Refusal := .next (s.process q 3 setmarkBody)

/-! ### WAITMARKS (R44, R50) -/

/-- Conditions: code, mark, comparand. -/
def Packet.conds (p : Packet) : List (Nat × Word × Nat) :=
  (List.range (p.fld 77 2)).map fun i =>
    (p.fld (64 + 4 * i) 4, BitVec.ofNat 64 (p.fld (128 + 128 * i) 64), p.fld (192 + 128 * i) 64)

/-- Whether each condition holds, or `none` where a read fails. -/
def State.condsHold (s : State) (x : Nat) : List (Nat × Word × Nat) → Option (List Bool)
  | [] => some []
  | (code, va, v) :: rest =>
    match s.schedMark x va false, s.condsHold x rest with
    | some f, some bs => some (condHolds code (leNat (s.readBytes f.pol f.pa 8)) v :: bs)
    | _, _ => none

/-- The packet's conditions hold together. -/
def State.waitHolds (s : State) (x : Nat) (p : Packet) : Option Bool :=
  (s.condsHold x p.conds).map fun bs => if p.fld 76 1 = 1 then bs.any id else bs.all id

/-- The running time of a context place. -/
def State.runOf (s : State) (x : Nat) : Nat := (s.ctx x).run

/-- Waits that take a slot of the scheduler core (R50). -/
def State.slotted (s : State) : List (Nat × Packet) :=
  s.queues.filterMap fun e =>
    match e.2.hold with
    | some p => if p.type == 2 && !p.parked then some (e.1, p) else none
    | none => none

/-- R50: the wait of queue `q` is parked: its packet's bytes go to slot `q` of the parking area. -/
def State.parkWait (s : State) (q : Nat) : State :=
  match (s.queue q).hold, s.queueCtx q with
  | some p, some x =>
    (s.hostStore (s.saveBase x + 0xA0000 + 64 * q) p.bytes).modQueue q fun y =>
      { y with stat := y.stat ||| 2, hold := some { p with parked := true } }
  | _, _ => s

/-- The slots are full: the oldest wait is parked at once. -/
def State.makeSlot (s : State) : State :=
  if s.slotted.length < Config.waitSlots then s
  else
    match s.slotted with
    | [] => s
    | e :: es => s.parkWait (es.foldl (fun b y => if y.2.since < b.2.since then y else b) e).1

def waitmarksBody (q : Nat) (s : State) (x : Nat) (p : Packet) : Processed :=
  if !p.zero [(79, 49)] || 5 < p.fld 64 4 || 5 < p.fld 68 4 || 5 < p.fld 72 4 then .error 2
  else if p.fld 77 2 = 0 ∨ p.fld 128 5 ≠ 0 ∨ p.fld 256 5 ≠ 0 ∨ p.fld 384 5 ≠ 0 then .error 5
  else
    match s.waitHolds x p with
    | none => .error 6
    | some true => .ok (s, true)
    | some false =>
      .ok (s.makeSlot.modQueue q fun y => { y with hold := some { p with since := s.clock, due := s.runOf x + 65536 } }, false)

def execWaitmarks (q : Nat) (s : State) : Host.Outcome State Fault Refusal := .next (s.process q 2 (waitmarksBody q))

/-- The WAITMARKS that holds the queue. -/
def State.queueWait (s : State) (q : Nat) : Option Packet :=
  match (s.queue q).hold with
  | some p => if p.type = 2 then some p else none
  | none => none

/-- The wait of queue `q` is over: it completes, or its read failed and QREAD goes back (R421). -/
def State.reexamineQueue (s : State) (q : Nat) : State :=
  match s.queueWait q, s.queueCtx q with
  | some p, some x =>
    match s.waitHolds x p with
    | some true =>
      (s.modQueue q fun y => { y with hold := none, stat := y.stat &&& ~~~2 }).completePacket q p.index p.irq
    | some false => s.modQueue q fun y => { y with hold := some { p with due := s.runOf x + 65536 } }
    | none =>
      s.modQueue q fun y =>
        { y with hold := none, stat := errorStat 6, read := BitVec.ofNat 64 p.index, open' := y.open'.filter (· != p.index) }
  | _, _ => s

/-- MARK_REEXAMINE is due for the waiter (R304). -/
def State.reexamineDue (s : State) : Waiter → Bool
  | .course c k =>
    match (s.split c k).wait with
    | .mark _ _ _ _ _ _ due =>
      (s.course c).place == .resident && (s.block (s.course c).block).st == .resident && s.ctxRuns c && decide (due ≤ s.run c)
    | _ => false
  | .lane q =>
    match (s.lane q).wait with
    | .mark _ _ _ _ _ _ due => s.ctxRuns (s.lane q).course && decide (due ≤ s.run (s.lane q).course)
    | _ => false
  | .queue q =>
    match s.queueWait q, s.queueCtx q with
    | some p, some x => decide (p.due ≤ s.runOf x)
    | _, _ => false

def execMarkReexamine (w : Waiter) (s : State) : Host.Outcome State Fault Refusal :=
  if !s.reexamineDue w then .next s
  else
    match w with
    | .course c k => .next (s.reexamine (.course c k))
    | .lane q => .next (s.reexamine (.lane q))
    | .queue q => .next (s.reexamineQueue q)

def State.parkDue (s : State) (q : Nat) : Bool :=
  match s.queueWait q with
  | some p => !p.parked && decide (p.since + 65536 ≤ s.clock)
  | none => false

def execWaitPark (q : Nat) (s : State) : Host.Outcome State Fault Refusal :=
  if s.parkDue q then .next (s.parkWait q) else .next s

/-! ### Wait cycles (R50) -/

/-- Pending packets of a queue that SETMARK, or name as DONE_MARK, the mark at a physical place. -/
def State.pendingSetters (s : State) (pa : Nat) (q : Nat) : Nat :=
  let x := s.queue q
  match s.queueCtx q with
  | none => 0
  | some c =>
    let at' (va : Word) : Bool := (s.translate c va).toOption.map (·.pa) == some pa
    ((List.range (x.kick.toNat - x.read.toNat)).filter fun i =>
      let slot := (x.read.toNat + i) % 2 ^ fld x.ctl 0 5
      match s.schedRead c (x.base + BitVec.ofNat 64 (64 * slot)) 64 with
      | none => false
      | some bytes =>
        let p : Packet := { index := 0, bytes := bytes }
        if p.type = 3 then at' (BitVec.ofNat 64 (p.fld 64 64))
        else if p.type = 1 then
          match s.schedRead256 c (BitVec.ofNat 64 (p.fld 64 64)) with
          | some d =>
            let m := leNat d / 2 ^ 320 % 2 ^ 64
            m != 0 && at' (BitVec.ofNat 64 m)
          | none => false
        else false).length

/-- The parked wait of a queue. -/
def State.parkedWait (s : State) (q : Nat) : Option Packet := (s.queueWait q).filter (·.parked)

/-- Queues on which the mark of a false condition of a parked wait depends: its setter has retired or was never bound, and
every packet that could change it lies behind that queue's own parked wait. -/
def State.markDepends (s : State) (x : Nat) (va : Word) : Option Nat :=
  match s.schedMark x va false with
  | none => none
  | some f =>
    let gone := match s.setterOf x (s.markWord f 8) with
      | .unbound => true
      | .external => false
      | .launch l => (s.launch l).st == .retired
    let withSetters := (s.queues.map (·.1)).filter fun q => 0 < s.pendingSetters f.pa q
    match gone, withSetters with
    | true, [b] => if (s.parkedWait b).isSome then some b else none
    | _, _ => none

/-- The queues that the parked wait of queue `q` depends on: one of an all-of wait's false conditions is enough; every
condition of an any-of wait must depend on the same queue. -/
def State.dependsOn (s : State) (q : Nat) : List Nat :=
  match s.parkedWait q, s.queueCtx q with
  | some p, some x =>
    match s.condsHold x p.conds with
    | none => []
    | some bs =>
      let ds := ((p.conds.zip bs).filter fun e => !e.2).map fun e => s.markDepends x e.1.2.1
      if p.fld 76 1 = 0 then ds.filterMap id
      else
        match ds with
        | some b :: rest => if rest.all (· == some b) then [b] else []
        | _ => []
  | _, _ => []

/-- Each queue depends on the next, and the last on the first. -/
def State.waitCycle (s : State) (qs : List Nat) : Bool :=
  match qs with
  | [] => false
  | q :: rest => (qs.zip (rest ++ [q])).all fun e => (s.dependsOn e.1).contains e.2

/-- QUEUE_DEADLOCK: every queue of the cycle goes to ERROR; its wait is abandoned and QREAD stands at that packet. -/
def execQueueDeadlock (qs : List Nat) (s : State) : Host.Outcome State Fault Refusal :=
  if !s.waitCycle qs then .next s
  else
    .next (qs.foldl (fun s q =>
      match s.queueWait q with
      | some p => s.modQueue q fun y =>
          { y with hold := none, stat := errorStat 8, read := BitVec.ofNat 64 p.index, open' := y.open'.filter (· != p.index) }
      | none => s) s)

/-! ### REGION (R15 to R18, R22 to R24) -/

/-- The W fields of an RCB at a virtual and a physical address, without its place in the tree. -/
def rcbFields (ctx : Nat) (rcb : Word) (pa w : Nat) : Region :=
  let f (lo len : Nat) : Nat := w / 2 ^ lo % 2 ^ len
  { ctx := ctx, rcb := rcb, pa := pa, maxCores := f 128 16, scratchKib := f 160 32, quotaMj := f 192 32, prio := f 80 4
    domain := f 144 16, defClass := f 88 2, policy := f 96 1 == 1, defOpclass := f 104 2, poolEn := f 112 1 == 1
    qlog := f 120 5, periodMs := f 224 32, override := BitVec.ofNat 10 (f 64 10) }

/-- R22: reserved fields and ranges, for a root or another region. -/
def rcbLegal (w : Nat) (r : Region) (root : Bool) : Bool :=
  let z (lo len : Nat) : Bool := w / 2 ^ lo % 2 ^ len == 0
  z 464 1584 && z 125 3 && z 113 7 && z 106 6 && z 97 7 && z 90 6 && z 84 4 && z 74 6
    && r.defClass != 3 && r.defOpclass != 3 && decide (16 ≤ r.qlog) && decide (r.qlog ≤ 30) && decide (r.maxCores ≤ 1152)
    && (!root || (decide (1 ≤ r.periodMs) && decide (r.periodMs ≤ 60000)))

/-- The region of a context at an RCB address, unless it is free. -/
def State.regionAt (s : State) (x : Nat) (rcb : Word) : Option Nat :=
  s.regions.findIdx? fun r => r.ctx == x && r.rcb == rcb && r.state != 0
/-- As `regionAt`, where its STATE is 1. -/
def State.activeAt (s : State) (x : Nat) (rcb : Word) : Option Nat := (s.regionAt x rcb).filter fun r => (s.region r).state == 1

/-- The RCB that a packet names, as physical address and contents, where it can be read and written (log 32, DESIGN CHOICE: R16
has its D fields written, and no rule says that its page must allow it). -/
def State.readRcb (s : State) (x : Nat) (rcb : Word) : Option (Nat × Nat) :=
  match s.translate x rcb with
  | .ok f => if f.w then (s.schedRead256 x rcb).map fun bs => (f.pa, leNat bs) else none
  | .error _ => none

/-- Levels of the subtree below region `r`. -/
def State.heightBelow (s : State) (r : Nat) : Nat :=
  (List.range s.regions.length).foldl (fun h y =>
    if (s.region y).state ≠ 0 ∧ (s.chain 8 y).contains r then max h ((s.region y).depth - (s.region r).depth) else h) 0

/-- Depths of the regions under `r`, and their RCBs, after `r` moved. -/
def State.redepth (s : State) (r : Nat) : State :=
  ((List.range s.regions.length).filter fun y => (s.region y).state != 0 && (s.chain 8 y).contains r).foldl (fun s y =>
    (s.modRegion y fun z => { z with depth := (s.chain 8 y).length }).writeRcb y) s

/-- REGION INSTALL. The first quota period of a root runs from its installation (log 32, DESIGN CHOICE: R20 does not say when
it starts). -/
def regionInstallBody (s : State) (x : Nat) (p : Packet) : Processed :=
  let rcb : Word := BitVec.ofNat 64 (p.fld 64 64)
  if !p.zero [(130, 382)] then .error 2
  else if rcb.toNat % 256 ≠ 0 then .error 5
  else
    match s.readRcb x rcb with
    | none => .error 6
    | some (pa, w) =>
      let parentVa : Word := BitVec.ofNat 64 (w % 2 ^ 64)
      let root := decide (parentVa = 0)
      let r := rcbFields x rcb pa w
      if (s.regionAt x rcb).isSome || w / 2 ^ 456 % 256 != 0 || !rcbLegal w r root then .error 4
      else if root then
        if (s.rootOf x).isSome then .error 4
        else
          let r1 := { r with state := 1, depth := 1, boundary := s.clock + r.periodMs * 1750000 }
          .ok (({ s with regions := s.regions ++ [r1] }).writeRcb s.regions.length, true)
      else
        match s.activeAt x parentVa with
        | none => .error 4
        | some up =>
          let d := (s.region up).depth + 1
          if 8 < d then .error 4
          else
            let r1 := { r with state := 1, depth := d, parent := some up }
            .ok (({ s with regions := s.regions ++ [r1] }).writeRcb s.regions.length, true)

/-- Take the W fields of a re-read RCB. -/
def Region.updated (old new : Region) (up : Option Nat) : Region :=
  { old with
    pa := new.pa, parent := up, maxCores := new.maxCores, scratchKib := new.scratchKib, quotaMj := new.quotaMj, prio := new.prio
    domain := new.domain, defClass := new.defClass, policy := new.policy, defOpclass := new.defOpclass
    poolEn := new.poolEn, qlog := new.qlog, periodMs := new.periodMs, override := new.override }

/-- REGION UPDATE; the running quota period keeps its end (log 32, DESIGN CHOICE: no rule says what a changed PERIOD_MS does
to it). -/
def regionUpdateBody (s : State) (x : Nat) (p : Packet) : Processed :=
  let rcb : Word := BitVec.ofNat 64 (p.fld 64 64)
  if !p.zero [(130, 382)] then .error 2
  else if rcb.toNat % 256 ≠ 0 then .error 5
  else
    match s.readRcb x rcb, s.activeAt x rcb with
    | none, _ => .error 6
    | some _, none => .error 4
    | some (pa, w), some r =>
      let parentVa : Word := BitVec.ofNat 64 (w % 2 ^ 64)
      let root := (s.region r).parent.isNone
      let new := rcbFields x rcb pa w
      if !rcbLegal w new root || root != decide (parentVa = 0) then .error 4
      else if root then .ok ((s.modRegion r fun y => y.updated new none).writeRcb r, true)
      else
        match s.activeAt x parentVa with
        | none => .error 4
        | some up =>
          if (s.chain 8 up).contains r || decide (8 < (s.region up).depth + 1 + s.heightBelow r) then .error 4
          else .ok ((s.modRegion r fun y => y.updated new (some up)).redepth r, true)

/-- REGION REMOVE; the RCB is not read (R16). -/
def regionRemoveBody (q : Nat) (s : State) (x : Nat) (p : Packet) : Processed :=
  let rcb : Word := BitVec.ofNat 64 (p.fld 64 64)
  if !p.zero [(130, 382)] then .error 2
  else if rcb.toNat % 256 ≠ 0 then .error 5
  else
    match s.activeAt x rcb with
    | none => .error 4
    | some r =>
      let s1 := (s.modRegion r fun y => { y with state := 2, remover := some q }).writeRcb r
      .ok (s1.modQueue q fun y => { y with hold := some { p with since := s.clock } }, false)

/-- The operation of the REGION packet at the head of a queue. -/
def State.regionOp (s : State) (q : Nat) : Option Nat := (s.head q 4).map fun p => p.fld 128 2

/-- REGION INSTALL, and OP 3, which is reserved. -/
def execRegionInstall (q : Nat) (s : State) : Host.Outcome State Fault Refusal :=
  match s.regionOp q with
  | some 0 => .next (s.process q 4 regionInstallBody)
  | some 3 => .next (s.process q 4 fun _ _ _ => .error 2)
  | _ => .next s

def execRegionUpdate (q : Nat) (s : State) : Host.Outcome State Fault Refusal :=
  if s.regionOp q = some 1 then .next (s.process q 4 regionUpdateBody) else .next s

def execRegionRemove (q : Nat) (s : State) : Host.Outcome State Fault Refusal :=
  if s.regionOp q = some 2 then .next (s.process q 4 (regionRemoveBody q)) else .next s

/-- The launch counts as unretired (R24, R360). -/
def Launch.unretired (l : Launch) : Bool := l.st != .retired && l.st != .lost

def State.removeDue (s : State) (r : Nat) : Bool :=
  (s.region r).state == 2 && !(s.regions.any fun y => y.parent == some r && y.state != 0)
    && !(s.launches.any fun l => l.region == r && l.ctx == (s.region r).ctx && l.unretired)

/-- REGION_REMOVE_COMPLETE: STATE becomes 0; the packet that holds its queue completes (R24). -/
def execRegionRemoveComplete (r : Nat) (s : State) : Host.Outcome State Fault Refusal :=
  if !s.removeDue r then .next s
  else
    let s1 := (s.modRegion r fun y => { y with state := 0, remover := none }).writeRcb r
    match (s.region r).remover with
    | none => .next s1
    | some q =>
      match (s1.queue q).hold with
      | some p => .next ((s1.modQueue q fun y => { y with hold := none }).completePacket q p.index p.irq)
      | none => .next s1

/-! ### LAUNCH (R29 to R36, R44, R53) -/

/-- The launch descriptor from its bytes as a number. -/
def descOf (w : Nat) : Desc :=
  let f (lo len : Nat) : Nat := w / 2 ^ lo % 2 ^ len
  { thard := f 672 8, tsoft := f 640 32, thresh := if f 636 1 = 1 then some (f 632 4) else none
    opclass := if f 626 1 = 1 then some (f 624 2) else none, policy := if f 617 1 = 1 then some (f 616 1 == 1) else none
    cls := if f 610 1 = 1 then some (f 608 2) else none, regsC := f 600 8, regsP := f 592 8, coursesC := f 584 8
    coursesP := f 576 8, setCores := f 568 8, bdim := (f 544 8, f 552 8, f 560 8), ldim := (f 448 32, f 480 32, f 512 32)
    stack := f 416 32, scratch := f 384 32, doneMark := BitVec.ofNat 64 (f 320 64), region := BitVec.ofNat 64 (f 256 64)
    handler := BitVec.ofNat 64 (f 192 64), param := BitVec.ofNat 64 (f 128 64), entryC := BitVec.ofNat 64 (f 64 64)
    entryP := BitVec.ofNat 64 (f 0 64) }

/-- R31 to R34, R36, apart from the region: `pad` is the scratchpad of the context's split. A reserved CLASS or OPCLASS is
accepted while its X bit is 0, and an EJ_THRESH above 8 is not (log 32, DESIGN CHOICE: R36 does not say whether a field that
its X bit leaves unused is checked). -/
def descLegal (w : Nat) (d : Desc) (pad : Nat) : Bool :=
  let f (lo len : Nat) : Nat := w / 2 ^ lo % 2 ^ len
  let z (lo len : Nat) : Bool := f lo len == 0
  z 688 1360 && z 637 3 && z 627 5 && z 618 6 && z 611 5 && f 680 8 == 1
    && (d.thard == 0 || (decide (10 ≤ d.thard) && decide (d.thard ≤ 40))) && decide (f 632 4 ≤ 8)
    && d.opclass != some 3 && d.cls != some 3
    && decide (1 ≤ d.coursesP) && decide (d.coursesP ≤ 16) && decide (1 ≤ d.regsP) && decide (d.regsP ≤ 64)
    && ((d.coursesC == 0 && d.regsC == 0 && d.entryC == 0)
      || (decide (1 ≤ d.coursesC) && decide (1 ≤ d.regsC) && decide (d.courses ≤ 16)))
    && d.bdim.1 * d.bdim.2.1 * d.bdim.2.2 == 96 * d.courses && decide (d.blockCount < 2 ^ 32)
    && (carve [] (sortBy (fun a b => decide (b.2 < a.2)) ((List.range d.courses).map fun i => (i, d.allotOf i)))).isSome
    && d.stack % 64 == 0 && d.scratch % 256 == 0 && decide (d.blockBytes ≤ pad)
    && (decide (d.setCores < 2) || (decide (d.setCores ≤ 96) && d.blockCount % d.setCores == 0))
    && d.doneMark.toNat % 32 == 0 && d.handler.toNat % 4 == 0 && d.entryC.toNat % 4 == 0 && d.entryP.toNat % 4 == 0

/-- The Folend with nothing on it, one context and one launch, for R29's test; on base die `die` alone if given. Clusters
stand in their pools of this moment (log 32, DESIGN CHOICE: R29 does not say which pools the test assumes). -/
def State.emptyFor (s : State) (x : Nat) (l : Launch) (die : Option Nat) : State :=
  let c := s.ctx x
  let big : Word := 0x1FFFFF
  { State.reset with
    mgmt := { ({} : Mgmt) with coresOut := s.mgmt.coresOut }
    clusters := (List.range Config.clusters).foldl (fun m k =>
      Cells.set {} m k ({ pool := (s.cluster k).pool } : ClusterSt)) []
    partitioned := c.partitioned
    ctxs := [{ c with ranges := List.replicate 8 big, st := .running }]
    regions := [{ ctx := 0, rcb := 0, maxCores := 1152, scratchKib := 0xFFFFFFFF, state := 1 }]
    launches := [{ l with ctx := 0, region := 0, die := die }]
    blocks := (List.range l.desc.blockCount).map fun (i : Nat) => ({ launch := 0, index := i } : Block) }

/-- R29, R59: all blocks of a RESIDENT launch could be resident together on an empty Folend, or one empty base die. -/
def State.couldReside (s : State) (x : Nat) (l : Launch) : Bool :=
  let n := l.desc.blockCount
  let fits (die : Option Nat) : Bool := ((s.emptyFor x l die).gang false [] (List.range n)).toOption.isSome
  if (s.ctx x).partitioned then (List.range 6).any fun d => fits (some d) else fits none

/-- The launch that a LAUNCH packet describes. -/
def State.launchFrom (s : State) (q x : Nat) (p : Packet) (d : Desc) (r : Nat) : Launch :=
  let cls := d.cls.getD (s.effClass r)
  { id := (s.ctx x).nextLaunch, ctx := x, queue := q, packet := p.index, owned := true, irq := p.irq
    desc := if p.fld 128 1 = 1 then { d with param := BitVec.ofNat 64 (p.fld 256 64) } else d
    admitted := cls, cls := cls, fault := d.policy.getD (s.effPolicy r), opclass := d.opclass.getD (s.effOpclass r)
    qlog := s.effQlog r, region := r, parent := p.fld 192 64, seq := s.tick }

/-- R303: the DONE_MARK is bound to a launch; RETIRED becomes 0 and SCLASS its class. -/
def State.bindDone (s : State) (f : Leaf) (id cls : Nat) : State :=
  let status := (s.readByte f.pol (f.pa + 16)).toNat / 8 * 8 + markStatus cls false
  (s.hostStore (f.pa + 8) (natLe 8 id)).hostStore (f.pa + 16) (natLe 1 status)

/-- PARENT names a launch that is unretired (R53); one that names no launch ever issued holds nothing (log 32, DESIGN CHOICE:
neither case of R53 covers it). -/
def State.parentHolds (s : State) (x parent : Nat) : Bool :=
  parent != 0 && s.launches.any fun l => l.ctx == x && l.id == parent && l.unretired

def launchBody (q : Nat) (s : State) (x : Nat) (p : Packet) : Processed :=
  let at' : Word := BitVec.ofNat 64 (p.fld 64 64)
  if !p.zero [(129, 63), (320, 192)] then .error 2
  else if at'.toNat % 64 ≠ 0 then .error 5
  else
    match s.schedRead256 x at' with
    | none => .error 6
    | some bytes =>
      let w := leNat bytes
      let d := descOf w
      let mark : Option (Option Leaf) := if d.doneMark = 0 then none else some (s.schedMark x d.doneMark true)
      if mark = some none then .error 6
      else
        let region := if d.region = 0 then (s.rootOf x).filter fun r => (s.region r).state == 1 else s.activeAt x d.region
        match region with
        | none => .error 3
        | some r =>
          if !descLegal w d (Config.scratchBytes (s.ctx x).split) then .error 3
          else
            let l := s.launchFrom q x p d r
            if l.cls = 2 ∧ !s.couldReside x l then .error 3
            else
              let leaf : Option Leaf := mark.join
              let held := s.parentHolds x l.parent
              let s1 := { s with
                launches := s.launches ++ [{ l with donePa := leaf.map Leaf.pa, st := if held then .held else .running }]
                icache := s.icache.filter fun e => e.ctx != (s.ctx x).num
                held := s.held.filter fun e => e.ctx != x }
              let s2 := s1.modCtx x fun y => { y with nextLaunch := y.nextLaunch + 1 }
              let s3 := match leaf with
                | some f => s2.bindDone f l.id l.cls
                | none => s2
              .ok (if held then s3 else s3.admitLaunch s3.launches.length s.launches.length, false)

/-- LAUNCH_PACKET; a context that is not running admits nothing (R361). -/
def execLaunchPacket (q : Nat) (s : State) : Host.Outcome State Fault Refusal :=
  match s.queueCtx q with
  | some x => if (s.ctx x).st = .running then .next (s.process q 1 (launchBody q)) else .next s
  | none => .next (s.process q 1 fun _ _ _ => .error 6)

/-! ### Leases (R51, R52) -/

/-- The arbiter writes VALUE of a lease's mark and wakes its waiters. -/
def State.report (s : State) (pa v : Nat) : State := (s.schedStore pa (natLe 8 v)).wakeMark pa

def Lease.open' (l : Lease) : Bool :=
  match l.st with
  | .ended => false
  | _ => true

def leaseRequestBody (s : State) (x : Nat) (p : Packet) : Processed :=
  let va : Word := BitVec.ofNat 64 (p.fld 64 64)
  let dur := p.fld 128 32
  if !p.zero [(160, 32), (194, 318)] then .error 2
  else if va.toNat % 32 ≠ 0 ∨ dur = 0 ∨ 50000 < dur then .error 5
  else
    match s.schedMark x va true with
    | none => .error 6
    | some f =>
      let s1 := s.hostStore (f.pa + 8) (natLe 8 setterExternal.toNat)
      if s.leases.any fun l => l.ctx == x && l.open' then .ok (s1.report f.pa 4, true)
      else
        .ok ({ s1 with leases := s1.leases ++ [{ ctx := x, mark := f.pa, durUs := dur, st := .pending, asked := s.clock }] }, true)

/-- The lease is over, and its mark says so. -/
def State.finishLease (s : State) (i v : Nat) : State :=
  match s.leases[i]? with
  | none => s
  | some l => ({ s with leases := s.leases.set i { l with st := .ended } }).report l.mark v

/-- LEASE RELEASE; a request still pending ends with 3 as well (log 32, DESIGN CHOICE: R52 does not say what its mark takes). -/
def leaseReleaseBody (s : State) (x : Nat) (p : Packet) : Processed :=
  if !p.zero [(160, 32), (194, 318)] then .error 2
  else
    match s.leases.findIdx? fun l => l.ctx == x && l.open' with
    | none => .ok (s, true)
    | some i => .ok (s.finishLease i 3, true)

/-- The operation of the LEASE packet at the head of a queue. -/
def State.leaseOp (s : State) (q : Nat) : Option Nat := (s.head q 5).map fun p => p.fld 192 2

/-- LEASE REQUEST, and the reserved operations. -/
def execLeaseRequest (q : Nat) (s : State) : Host.Outcome State Fault Refusal :=
  match s.leaseOp q with
  | some 0 => .next (s.process q 5 leaseRequestBody)
  | some 2 | some 3 => .next (s.process q 5 fun _ _ _ => .error 2)
  | _ => .next s

def execLeaseRelease (q : Nat) (s : State) : Host.Outcome State Fault Refusal :=
  if s.leaseOp q = some 1 then .next (s.process q 5 leaseReleaseBody) else .next s

/-- R52: a pending request is answered within 50 ms, 87,500,000 cycles; requests that are due together are answered one a
cycle. -/
def State.answerDue (s : State) (i : Nat) : Bool :=
  match s.leases[i]? with
  | some l => l.st == .pending && decide (l.asked + 87500000 ≤ s.clock + s.leases.length)
  | none => false

/-- LEASE_GRANT: the arbiter's decision on a pending request; a lease covers the clusters in the OC-B pool then. -/
def execLeaseGrant (i : Nat) (grant : Bool) (s : State) : Host.Outcome State Fault Refusal :=
  match s.leases[i]? with
  | none => .next s
  | some l =>
    if l.st ≠ .pending then .next s
    else if grant then
      let ks := (List.range Config.clusters).filter fun k => (s.cluster k).pool == 2
      .next (({ s with
        leases := s.leases.set i { l with st := .live, granted := s.clock, endAt := s.clock + l.durUs * 1750, clusters := ks } }).report
          l.mark 1)
    else .next (s.finishLease i 4)

/-- The live lease granted most recently, where it has 175,000 cycles left, so that boost lasts that long after a notice (R51,
R52). -/
def State.revocable (s : State) (l : Lease) : Bool :=
  l.st == .live && decide (s.clock + 175000 ≤ l.endAt) && !s.leases.any fun y => y.st == .live && decide (l.granted < y.granted)
/-- LEASE_REVOKE: notice to that lease, 175,000 cycles before its end. -/
def execLeaseRevoke (i : Nat) (s : State) : Host.Outcome State Fault Refusal :=
  match s.leases[i]? with
  | none => .next s
  | some l =>
    if !s.revocable l then .next s
    else .next (({ s with leases := s.leases.set i { l with st := .ending (s.clock + 175000) } }).report l.mark 2)

def State.leaseEndDue (s : State) (i : Nat) : Bool :=
  match s.leases[i]? with
  | some l =>
    match l.st with
    | .live => decide (l.endAt ≤ s.clock)
    | .ending t => decide (t ≤ s.clock)
    | _ => false
  | none => false

def execLeaseEnd (i : Nat) (s : State) : Host.Outcome State Fault Refusal :=
  if s.leaseEndDue i then .next (s.finishLease i 3) else .next s

/-! ### The queue registers (R37 to R40, R48) -/

/-- The fields of QCTL that a write sets. -/
def qctlMask : Word := 0xFFFFFFFFFFFF031F

/-- A queue that could be enabled with a QCTL value (R39). -/
def queueValid (x : Queue) (v : Word) : Bool :=
  let n := fld v 0 5
  decide (4 ≤ n) && decide (n ≤ 20) && x.base.toNat % (64 * 2 ^ n) == 0

/-- QUEUE_ENABLE: a write of QCTL with ENABLE set. -/
def execQueueEnable (q : Nat) (v : Word) (s : State) : Host.Outcome State Fault Refusal :=
  let x := s.queue q
  let w := (v &&& qctlMask) ||| 0x100
  if Config.queues ≤ q then .next s
  else if x.enabled then .next (s.modQueue q fun y => { y with ctl := w })
  else if queueValid x v then
    .next (s.modQueue q fun y => { y with ctl := w, kick := 0, read := 0, stat := 0, pkt := none, hold := none, open' := [] })
  else .next (s.modQueue q fun y => { y with ctl := w &&& ~~~0x100 })

/-- A launch that only holds its queue is abandoned (R39); the children that it held are passed to placement (log 32, DESIGN
CHOICE: R53 does not say what becomes of them). -/
def State.abandonLaunch (s : State) (l : Nat) : State :=
  let mine := s.launchBlocks l
  let s1 := mine.foldl (fun s b => s.modBlock b fun y => { y with st := .ended }) (s.dropWaiting mine)
  let s2 := s1.modLaunch l fun y => { y with st := .lost, owned := false }
  (s2.heldBy l).foldl (fun s k => s.admitLaunch s.launches.length k) s2

/-- QUEUE_DISABLE: processing stops, the packet that holds the queue is abandoned, and admitted launches run on without
their packet. -/
def execQueueDisable (q : Nat) (v : Word) (s : State) : Host.Outcome State Fault Refusal :=
  if Config.queues ≤ q then .next s
  else
    let s1 := s.modQueue q fun y =>
      { y with ctl := (v &&& qctlMask) &&& ~~~0x100, stat := y.stat &&& ~~~2, pkt := none, hold := none }
    let s2 := (List.range s1.regions.length).foldl (fun s r =>
      s.modRegion r fun y => if y.remover == some q then { y with remover := none } else y) s1
    let mine := (List.range s2.launches.length).filter fun l => (s2.launch l).queue == q && (s2.launch l).owned
    let s3 := (mine.filter fun l => (s2.launch l).st == .held || (s2.launch l).st == .placing).foldl
      (fun s l => s.abandonLaunch l) s2
    .next (mine.foldl (fun s l => s.modLaunch l fun y => { y with owned := false }) s3)

/-- QUEUE_KICK. -/
def execQueueKick (q : Nat) (v : Word) (s : State) : Host.Outcome State Fault Refusal :=
  if q < Config.queues then .next (s.kickQueue q v) else .next s

/-- QUEUE_ERROR_CLEAR: QREPAIR is taken where it lies from QREAD to QKICK. -/
def execQueueErrorClear (q : Nat) (s : State) : Host.Outcome State Fault Refusal :=
  let x := s.queue q
  if !x.inError then .next s
  else if x.read.toNat ≤ x.repair.toNat ∧ x.repair.toNat ≤ x.kick.toNat then
    .next (s.modQueue q fun y => { y with read := y.repair, stat := y.stat &&& ~~~1, pkt := none })
  else .next (s.modQueue q fun y => { y with stat := errorStat 9 ||| (y.stat &&& 2) })

end Sys2Proof.Machine
end

