-- ==== Sys2Proof/Machine/HostEvents.lean ====
section
/-!
DEFINITION. The host port: registers without a behaviour of their own, translation-cache invalidation, contexts and
their switches, the host's accesses, and the transfer channels to peers (R5, R37, R59, R220, R225, R359 to R364, R394,
R395, R402 to R407).
-/

namespace Sys2Proof.Machine

/-! ### Registers (R37, R220, R360, R399, R403) -/

def PoolWin.enabled (x : PoolWin) : Bool := x.ctl.getLsbD 0

/-- A write of a queue register that only stores its value. -/
def State.writeQueueReg (s : State) (q off : Nat) (v : Word) : State :=
  if off = 0 then s.modQueue q fun x => { x with base := v }
  else if off = 0x28 then s.modQueue q fun x => { x with repair := v }
  else s

/-- A write of a window register that only stores its value. -/
def State.writeWindowReg (s : State) (w off : Nat) (v : Word) : State :=
  let set (f : PoolWin → PoolWin) : State :=
    if (Cells.get {} s.windows w).enabled then s else { s with windows := Cells.update {} s.windows w f }
  if off = 0 then set fun x => { x with base := v &&& 0xFFFFFC0000000 }
  else if off = 8 then set fun x => { x with size := v &&& 0x7FFF }
  else if off = 0x10 then set fun x => { x with fab := v }
  else s

/-- A write of a channel register that only stores its value. -/
def State.writeChannelReg (s : State) (h off : Nat) (v : Word) : State :=
  let set (f : Channel → Channel) : State := if (s.channel h).enabled then s else s.modChannel h f
  if off = 0x08 then set fun x => { x with send := v }
  else if off = 0x10 then set fun x => { x with smark := v }
  else if off = 0x18 then set fun x => { x with recv := v }
  else if off = 0x20 then set fun x => { x with rsize := v }
  else if off = 0x28 then set fun x => { x with rmark := v }
  else s

/-- REGISTER_WRITE: the registers that store what is written; every other write here is ignored. -/
def execRegisterWrite (off : Nat) (v : Word) (s : State) : Host.Outcome State Fault Refusal :=
  if off < 0x40000 then .next (s.writeQueueReg (off / 64) (off % 64) v)
  else if off = 0x40000 then .next { s with tlbVa := v }
  else if off = 0x60000 then .next { s with ctxAddr := v }
  else if 0x90000 ≤ off ∧ off < 0x90800 then .next (s.writeWindowReg ((off - 0x90000) / 32) (off % 32) v)
  else if 0xB0000 ≤ off ∧ off < 0xB3000 then .next (s.writeChannelReg ((off - 0xB0000) / 64) (off % 64) v)
  else .next s

/-! ### Translation-cache invalidation (R220) -/

/-- TLB_INVALIDATE: a write of TLBINV_CTL. -/
def execTlbInvalidate (v : Word) (s : State) : Host.Outcome State Fault Refusal :=
  let done := s.tlbCtl.getLsbD 1
  let kept := v &&& 0xFFFFFFFF00000004
  if !v.getLsbD 0 then .next { s with tlbCtl := kept ||| (if done then 2 else 0) }
  else if done then
    .next { s with tlbCtl := kept, tlbJob := some (.remove (fld v 32 32) (v.getLsbD 2) (s.tlbVa.toNat % 2 ^ 57 / 2 ^ 16 * 2 ^ 16)) }
  else .next s

/-- When the word's load is performed, at the latest. -/
def WordSt.flightEnd : WordSt → Nat
  | .coming _ due _ => due
  | _ => 0
/-- When the accesses to the pool that a register set waits for are performed, at the latest. -/
def Regs.flightEnd (r : Regs) : Nat := (r.vst ++ r.sst).foldl (fun n e => max n e.2.flightEnd) 0
/-- When every access of a context's agents that is under way is performed, at the latest (R391). -/
def State.flightEnd (s : State) (x : Nat) : Nat :=
  let one (c : Nat) (r : Regs) (ws : List Owed) (n : Nat) : Nat :=
    if s.ctxOf c = x then ws.foldl (fun n w => max n w.due) (max n r.flightEnd) else n
  let courses := s.courses.zipIdx.foldl (fun n e => one e.2 e.1.regs e.1.owed n) 0
  s.lanes.foldl (fun n q => one q.course q.regs q.owed n) courses

/-- The numbers of the chunks and tile fetches of a context that are under way. -/
def State.underWay (s : State) (x : Nat) : List Nat :=
  (s.copies.filter fun y => s.ctxOf y.course == x).flatMap (fun y => y.todo.filterMap (·.mark))
    ++ (s.ops.filter fun o => s.ctxOf o.course == x).flatMap fun o => o.early.map (·.mark)
/-- The removal of an invalidation (R220): every held entry of the context that maps the page, or all of them. -/
def State.tlbRemove (s : State) : State :=
  match s.tlbJob with
  | some (.remove ctx all va) =>
    { s with
      walks := s.walks.filter fun w => !((s.ctx w.ctx).num == ctx && (all || w.maps va))
      tlbJob := some (match s.ctxPlace ctx with | some x => .settle (s.flightEnd x) (s.underWay x) | none => .settle 0 []) }
  | _ => s
/-- The removal is finished, and every access that used a removed entry has been performed (R220). -/
def State.tlbSettled (s : State) : Bool :=
  match s.tlbJob with
  | some (.settle t marks) =>
    decide (t ≤ s.clock) && !marks.any fun m =>
      s.copies.any (fun y => y.todo.any fun h => h.mark == some m) || s.ops.any fun o => o.early.any fun r => r.mark == m
  | _ => false

def execTlbInvalidateDone (s : State) : Host.Outcome State Fault Refusal :=
  if s.tlbSettled then .next { s with tlbCtl := s.tlbCtl ||| 2, tlbJob := none } else .next s

/-! ### Contexts (R358 to R360) -/

def ctxStatus (n : Nat) (busy : Bool) (err : Nat) : Word := BitVec.ofNat 64 (n * 2 ^ 32 + err * 256 + if busy then 1 else 0)
def State.ctxBusy (s : State) : Bool := s.ctxStat.getLsbD 0

/-- A CTXCMD write, ignored while BUSY: `f` answers the state, BUSY and ERR. -/
def State.command (s : State) (n op : Nat) (f : State → State × Bool × Nat) : State :=
  if s.ctxBusy then s
  else
    let r := f { s with ctxCmd := BitVec.ofNat 64 (n * 2 ^ 32 + op) }
    { r.1 with ctxStat := ctxStatus n r.2.1 r.2.2 }

/-- RANGE entries as first byte and bytes (R358). -/
def rangeSpan (r : Word) : Nat × Nat := (fld r 21 31 * 0x200000, fld r 0 21 * 0x200000)

/-- Two ranges overlap. -/
def spansMeet (a b : Nat × Nat) : Bool := decide (a.1 < b.1 + b.2) && decide (b.1 < a.1 + a.2)

/-- Some two of a list of ranges overlap. -/
def anyMeet : List (Nat × Nat) → Bool
  | [] => false
  | a :: as => as.any (spansMeet a) || anyMeet as

/-- R359: RANGE0 holds at least 1 MiB of host memory, no range lies in the pooled tier, none overlaps another. -/
def rangesOk (rs : List Word) : Bool :=
  let spans := (rs.map rangeSpan).filter fun e => e.2 != 0
  let first := rangeSpan (rs.headD 0)
  decide (0x100000 ≤ first.2) && isHost first.1 && isHost (first.1 + first.2 - 1)
    && spans.all (fun e => !spansMeet e (0x8000000000000, 0x4000000000000)) && !anyMeet spans

/-- The context record at CTXADDR as a number, where there is one. -/
def State.readCrec (s : State) : Option Nat :=
  let a := s.ctxAddr.toNat
  if a % 256 ≠ 0 ∨ !isHost a ∨ s.anyPoison a 256 then none else some (leNat (s.readBytes 0 a 256))

/-- SCB0 to SCB15 of a context record. -/
def crecScb (w : Nat) : List (Word × Word) :=
  (List.range 16).map fun k => (BitVec.ofNat 64 (w / 2 ^ (1024 + 128 * k)), BitVec.ofNat 64 (w / 2 ^ (1088 + 128 * k)))

/-- The context that a record describes. -/
def crecCtx (n w : Nat) : Ctx :=
  { num := n, ptbase := w % 2 ^ 64, ranges := (List.range 8).map fun i => BitVec.ofNat 64 (w / 2 ^ (512 + 64 * i))
    split := w / 2 ^ 80 % 4, partitioned := w / 2 ^ 82 % 2 == 1, vector := w / 2 ^ 64 % 2 ^ 16, scb := crecScb w }

/-- A record breaks its map: a reserved field, an unaligned PTBASE, or SPLIT 3. -/
def crecMalformed (w : Nat) : Bool :=
  w / 2 ^ 83 % 2 ^ 429 != 0 || w / 2 ^ 80 % 4 == 3 || w % 4096 != 0
    || (List.range 8).any fun i => w / 2 ^ (512 + 64 * i + 52) % 2 ^ 12 != 0

/-- CONTEXT_CREATE, with the checks of R360 in order; the indices of a new context are 0 (R374). -/
def execContextCreate (n : Nat) (s : State) : Host.Outcome State Fault Refusal :=
  .next (s.command n 1 fun s =>
    if (s.ctxPlace n).isSome then (s, false, 2)
    else
      match s.readCrec with
      | none => (s, false, 1)
      | some w =>
        let c := crecCtx n w
        if crecMalformed w then (s, false, 1)
        else if !rangesOk c.ranges then (s, false, 3)
        else ({ s with ctxs := s.ctxs ++ [c] }.hostStore (rangeSpan (c.ranges.headD 0)).1 (natLe 48 0), false, 0))

/-- A launch of the context at place `x` is unretired. -/
def State.hasWork (s : State) (x : Nat) : Bool := s.launches.any fun l => l.ctx == x && l.unretired

/-- CONTEXT_DESTROY. -/
def execContextDestroy (n : Nat) (s : State) : Host.Outcome State Fault Refusal :=
  .next (s.command n 4 fun s =>
    match s.ctxPlace n with
    | none => (s, false, 2)
    | some x =>
      if s.hasWork x then (s, false, 2)
      else
        (({ s with regions := s.regions.map fun (r : Region) => if r.ctx == x then { r with state := 0 } else r }).modCtx x
          fun c => { c with st := .destroyed }, false, 0))

/-- CONTEXT_SCB: SCB is read again from the record at CTXADDR. -/
def execContextScb (n : Nat) (s : State) : Host.Outcome State Fault Refusal :=
  .next (s.command n 5 fun s =>
    match s.ctxPlace n with
    | none => (s, false, 2)
    | some x =>
      if (s.ctx x).st = .lost then (s, false, 4)
      else if s.hasWork x then (s, false, 2)
      else
        match s.readCrec with
        | none => (s, false, 1)
        | some w => (s.modCtx x fun c => { c with scb := crecScb w }, false, 0))

/-! ### Suspending and resuming (R59, R361, R362) -/

/-- Courses of the context at place `x`. -/
def State.ctxCourses (s : State) (x : Nat) : List Nat := (List.range s.courses.length).filter fun c => s.ctxOf c == x
def State.ctxBlocks (s : State) (x : Nat) : List Nat :=
  (List.range s.blocks.length).filter fun b => (s.blockLaunch b).ctx == x

/-- Begin to pre-empt a context: each course stops at its next instruction boundary. -/
def State.suspendCtx (s : State) (x : Nat) (bySched : Bool) : State :=
  (s.ctxCourses x).foldl (fun s c => if (s.course c).leaving.isNone then s.leave c .suspended else s)
    (s.modCtx x fun c => { c with st := .suspending, bySched := bySched })

def execContextSuspend (n : Nat) (s : State) : Host.Outcome State Fault Refusal :=
  .next (s.command n 2 fun s =>
    match s.ctxPlace n with
    | none => (s, false, 2)
    | some x =>
      match (s.ctx x).st with
      | .running => (s.suspendCtx x false, true, 0)
      | .lost => (s, false, 4)
      | _ => (s, false, 2))

/-- Every started operation of the context has completed and every course is off its core. -/
def State.suspendDue (s : State) (x : Nat) : Bool :=
  (s.ctx x).st == .suspending
    && (s.ctxCourses x).all fun c => (s.course c).place != .resident && !s.engineBusy c

/-- BUSY of a command on context number `n` ends. -/
def State.endCommand (s : State) (n : Nat) : State :=
  if s.ctxBusy && fld s.ctxStat 32 32 == n then { s with ctxStat := ctxStatus n false 0 } else s

/-- Clusters where the context has blocks with room. -/
def State.placedClusters (s : State) (x : Nat) : List Nat :=
  (((s.ctxBlocks x).filter fun b => (s.block b).st.placed).map fun b => (s.block b).core / Config.coresPerCluster).eraseDups
/-- SUSPEND_COMPLETE: scratchpads and barrier state are saved, and the context's clock stops. -/
def execSuspendComplete (n : Nat) (s : State) : Host.Outcome State Fault Refusal :=
  match s.ctxPlace n with
  | none => .next s
  | some x =>
    if !s.suspendDue x then .next s
    else
      let s0 := (s.ctxCourses x).foldl (fun s c => s.saveOps c) s
      let s1 := (s.ctxBlocks x).foldl (fun s b =>
        s.modBlock b fun y => if y.st.placed then { y with st := .suspended } else y) s0
      .next (((s.placedClusters x).foldl (fun s k => s.noteRelease k) (s1.modCtx x fun c => { c with st := .suspended })).endCommand n)

/-- The block has ejected lanes. -/
def State.blockLanes (s : State) (b : Nat) : List Nat :=
  (List.range s.lanes.length).filter fun q => (s.course (s.lane q).course).block == b && (s.lane q).st.live

/-- Room for a suspended block with ejected lanes, in its cluster, which must have quoin contexts for them; each lane takes the
quoin core that R136 gives it, the block's own lanes standing on none before (R143); their leases are gone (R287). -/
def State.placeWithLanes (s : State) (b : Nat) (victims : Bool) : Option State :=
  let k := (s.block b).core / Config.coresPerCluster
  let qs := s.blockLanes b
  let off := qs.foldl (fun s q => s.modLane q fun y => { y with quoin := Config.clusters * Config.quoinCores }) s
  if off.quoinFree k < qs.length then none
  else
    (off.placeOne b victims [] (some k)).map fun t =>
      qs.foldl (fun s q => s.modLane q fun y =>
        { y with quoin := s.quoinBest k, sight := { y.sight with since := s.tick + 1 } }) t

/-- Place blocks with ejected lanes one by one. -/
def State.placeLaned (s : State) : List Nat → Option State
  | [] => some s
  | b :: bs =>
    match s.placeWithLanes b ((s.blockLaunch b).cls == 2) with
    | none => none
    | some t => t.placeLaned bs

/-- Place the other blocks launch by launch. -/
def State.placeLaunches (s : State) (bs : List Nat) : List Nat → Option State
  | [] => some s
  | l :: ls =>
    let mine := bs.filter fun b => (s.block b).launch == l
    match s.gang ((s.launch l).cls == 2) [] mine with
    | .error _ => none
    | .ok t => t.placeLaunches bs ls

/-- Block sets of the context none of whose members has ejected lanes may take other cores. -/
def State.freeSets (s : State) (x : Nat) : State :=
  { s with launches := s.launches.zipIdx.map fun (e : Launch × Nat) =>
      if e.1.ctx != x then e.1
      else
        { e.1 with sets := e.1.sets.filter fun g => (s.launchBlocks e.2).any fun b =>
            (s.block b).index / max 1 e.1.desc.setCores == g.1 && !(s.blockLanes b).isEmpty } }

/-- R361: every suspended block of the context finds room, or none takes any. -/
def State.resumeBlocks (s : State) (x : Nat) : Option State :=
  let bs := (s.ctxBlocks x).filter fun b => (s.block b).st == .suspended
  let laned := bs.filter fun b => !(s.blockLanes b).isEmpty
  let rest := bs.filter fun b => (s.blockLanes b).isEmpty
  match (s.freeSets x).placeLaned laned with
  | none => none
  | some t =>
    (t.placeLaunches rest (List.range s.launches.length)).map fun u =>
      bs.foldl (fun s b => s.modBlock b fun y => { y with resumed := true }) u

/-- A context that is being resumed finds its room now. -/
def State.resumeDue (s : State) (x : Nat) : Option State :=
  if (s.ctx x).st = .resuming ∧ (s.ctx x).partitioned = s.partitioned then s.resumeBlocks x else none

/-- CONTEXT_RESUME: the command, and then the step in which every block has found its room. -/
def execContextResume (n : Nat) (s : State) : Host.Outcome State Fault Refusal :=
  match s.ctxPlace n with
  | none => .next (s.command n 3 fun s => (s, false, 2))
  | some x =>
    match (s.ctx x).st with
    | .resuming =>
      match s.resumeDue x with
      | some t => .next ((t.modCtx x fun c => { c with st := .running, bySched := false }).endCommand n)
      | none => .next s
    | .suspended => .next (s.command n 3 fun s => (s.modCtx x fun c => { c with st := .resuming }, true, 0))
    | .lost => .next (s.command n 3 fun s => (s, false, 4))
    | _ => .next (s.command n 3 fun s => (s, false, 2))

/-- Every cache is written back and emptied (R5). -/
def State.fullFlush (s : State) : State :=
  let t := (s.stream.foldl (fun s x => s.writeStream x) s).flushWhere fun _ => true
  { t with stream := [], held := [] }

/-- WHOLE_CONTEXT_SWITCH to an L2 mode: the contexts of the other mode are pre-empted; once they are, the caches are
flushed, the mode changes, and the contexts that the scheduler core had suspended in the new mode come back. -/
def execWholeContextSwitch (mode : Nat) (s : State) : Host.Outcome State Fault Refusal :=
  let target : Bool := mode == 1
  if 1 < mode ∨ target = s.partitioned then .next s
  else
    let old := (List.range s.ctxs.length).filter fun x => (s.ctx x).partitioned != target
    let live := old.filter fun x => (s.ctx x).st == .running
    if !live.isEmpty then .next (live.foldl (fun s x => s.suspendCtx x true) s)
    else if old.any fun x => (s.ctx x).st == .suspending || (s.ctx x).st == .resuming then .next s
    else
      let s1 := { s.fullFlush with partitioned := target }
      .next { s1 with ctxs := s1.ctxs.map fun (c : Ctx) =>
        if c.partitioned == target && c.bySched && c.st == .suspended then { c with st := .resuming } else c }

/-! ### Losing a context (R364, R383) -/

/-- A granule of the save area is poisoned, or lies in a mapped-out channel (R215, R387); no image lies in the fixed part, the
first 1 MiB of RANGE0 (R359). -/
def State.savePoisoned (s : State) (x : Nat) : Bool :=
  let images : List (Nat × Nat) := ((s.ctx x).ranges.map rangeSpan).zipIdx.map fun e =>
    if e.2 = 0 then (e.1.1 + 0x100000, e.1.2 - 0x100000) else e.1
  let meets (a n : Nat) : Bool := images.any fun r => spansMeet r (a, n)
  s.poison.any (fun e => e.2 && meets (64 * e.1) 64) || s.mgmt.channelsOut.any fun c => meets (c * 0x18000000) 0x18000000
/-- A save or a restore of the context is under way: of a course that leaves its core, of dirty registers, of a course that may
come back now, or of a block that comes back (R361 to R363). -/
def State.saveActive (s : State) (x : Nat) : Bool :=
  s.courses.zipIdx.any (fun e => s.ctxOf e.2 == x && e.1.place != .ended
      && (e.1.leaving.isSome || !e.1.dirty.isEmpty || (e.1.place != .resident && (s.restoreRoom e.2).isSome)))
    || s.blocks.any fun b => (s.launch b.launch).ctx == x && b.begun && (match b.st with | .starting _ => true | _ => false)

/-- The context is lost: operations and chunks that are under way complete, its unretired launches end with no record, CTXSTAT shows ERR 4, its vector is raised. -/
def State.loseContext (s : State) (x : Nat) : State :=
  let mine (c : Nat) : Bool := s.ctxOf c == x
  let bs := s.ctxBlocks x
  let s1 := bs.foldl (fun s b => s.modBlock b fun y => { y with st := .ended, spSize := 0 }) (s.dropWaiting bs)
  let s2 := { s1 with
    copies := s1.copies.filterMap fun (y : Copy) => if mine y.course then y.cutOff 0 0 else some y
    ops := s1.ops.filter fun o => !(mine o.course && o.started.isNone)
    lanes := s1.lanes.map fun (q : Lane) => if mine q.course && q.st.live then { q with st := .done, wait := .ready } else q
    launches := s1.launches.map fun (l : Launch) => if l.ctx == x && l.unretired then { l with st := .lost, owned := false } else l
    ctxStat := ctxStatus (s.ctx x).num false 4 }
  let s3 := (s.ctxCourses x).foldl (fun s c => s.modCourse c fun y =>
    if y.place == .ended then y
    else
      { y with place := .ended, splits := [], reentry := [], tokens := [], pending := [], win := none
               trap := { y.trap with level := false } }) s2
  ((s.placedClusters x).foldl (fun s k => s.noteRelease k) (s3.modCtx x fun c => { c with st := .lost })).raiseVector x

/-- A save or restore may meet poison in the save area, where the context is lost (R364, R387); which granule an image lies in
is the Folend's choice (R359), so the event may also stay out. -/
def State.lostDue (s : State) (x : Nat) : Bool :=
  (s.ctx x).st != .lost && (s.ctx x).st != .destroyed && s.saveActive x && s.savePoisoned x

def execContextLost (n : Nat) (s : State) : Host.Outcome State Fault Refusal :=
  match s.ctxPlace n with
  | some x => if s.lostDue x then .next (s.loseContext x) else .next s
  | none => .next s

/-! ### The host's own accesses (R215, R359, R394, R395) -/

/-- SAVE_AREA_TAIL_ADVANCE: host software writes SVC_TAIL (ring 0), FLOG_TAIL (1) or PF_TAIL (2). -/
def execSaveAreaTailAdvance (ctx ring : Nat) (v : Word) (s : State) : Host.Outcome State Fault Refusal :=
  match s.ctxPlace ctx with
  | some x => if ring < 3 then .next (s.setSaveIx x (2 * ring + 1) v.toNat) else .next s
  | none => .next s

/-- An address of the refuge area. -/
def inRefuge (pa : Nat) : Bool := decide (Config.refugeBase ≤ pa) && decide (pa < Config.refugeBase + 0x40000000)

/-- Pieces of a span that lie in one granule of 64 bytes each. -/
def granulePieces (pa : Nat) : Nat → List Byte → List (Nat × List Byte)
  | 0, _ => []
  | _, [] => []
  | fuel + 1, bs =>
    let k := 64 - pa % 64
    (pa, bs.take k) :: granulePieces (pa + k) fuel (bs.drop k)

/-- What the device holds of a line of the pooled tier or of host memory is written back and dropped. A copy under a lease may
serve loads as before: what they may return does not change (R295), and whether a cache keeps it is a free value; the copy
that a read still pending would leave is not kept (R401). -/
def State.yieldLine (s : State) (ln : Nat) : State :=
  let t := s.flushLine ln
  let pending : Bool := s.inL2 ln && decide (s.clock < (s.tag ln).due)
  { t with
    fresh := s.fresh + 1
    held := (s.held.zipIdx.filter fun e => e.1.line != ln || (!pending && Config.pick s.fresh e.2)).map (·.1) }
/-- A store of another party to a byte of a line that it took back; a chunk under way races it (R300). -/
def State.foreignStore (s : State) (e : Nat × Byte) : State :=
  let r := s.raceShadows .none 0 none (.phys e.1) [e.2]
  let q := r.2.raceShadows .none 2 none (.phys e.1) r.1
  q.2.setMemByte e.1 (q.1.headD e.2)
/-- Stores of another party to bytes of a line that it took back. -/
def State.foreignStores (s : State) (ln : Nat) (es : List (Nat × Byte)) : State :=
  (es.filter fun e => e.1 / 128 == ln).foldl (fun s e => s.foreignStore e) s

/-- HOST_DRAM_ACCESS: a read answers the bytes, or poison; a write to bonded DRAM is a WB store (R395); writes of a mapped-out channel or of the refuge area are
dropped. An address in host memory stands for the host's own access to it, for which it takes the line back (R394, R395). -/
def execHostDramAccess (pa n : Nat) (write : Option (List Byte)) (s : State) : Host.Outcome State Fault Refusal :=
  let all (f : Nat → Bool) : Bool := f pa && f (pa + n - 1)
  if n = 0 ∨ (!all isDram && !all isHost) then .next s
  else
    match write with
    | none => .next { s with hostReads := (pa, if s.anyPoison pa n then none else some (s.readBytes 0 pa n)) :: s.hostReads }
    | some bs =>
      if bs.length ≠ n then .next s
      else
        .next ((granulePieces pa (n + 1) bs).foldl (fun s e =>
          if inRefuge e.1 || (isDram e.1 && s.mgmt.channelsOut.contains (e.1 / 0x18000000)) then s
          else
            (if isHost e.1 then (s.yieldLine (e.1 / 128)).foreignStores (e.1 / 128) (e.2.zipIdx.map fun b => (e.1 + b.2, b.1))
             else
              s.storeRaced 0 e.1 e.2).coverPoison 0 e.1 e.2.length) s)

/-- HOST_SNOOP: the host takes a line of its memory back, and may store to it. -/
def execHostSnoop (o : TakeBack) (s : State) : Host.Outcome State Fault Refusal :=
  if isHost (128 * o.line) then .next ((s.yieldLine o.line).foreignStores o.line o.stores) else .next s

/-! ### Transfer channels and links (R402 to R407) -/

def Channel.ctxNum (x : Channel) : Nat := fld x.ctl 32 32
def State.channelCtx (s : State) (h : Nat) : Option Nat := s.ctxPlace (s.channel h).ctxNum

/-- CHANNEL_ENABLE: a write of CHCTL without ERROR. Enabling starts the channel afresh, without its ERROR, as R39 says of a
queue; disabling while a descriptor arrives is an error of both sides (R407). -/
def execChannelEnable (h : Nat) (v : Word) (s : State) : Host.Outcome State Fault Refusal :=
  let x := s.channel h
  let size := fld v 0 5
  let fields := v &&& 0xFFFFFFFF0000031F
  if 192 ≤ h then .next s
  else if x.enabled then
    let s1 := s.modChannel h fun y => { y with ctl := (fields &&& ~~~0x1F) ||| (x.ctl &&& 0x41F) }
    if v.getLsbD 8 then .next s1 else .next (if x.arriving then s1.channelFail h else s1.tellState h)
  else if v.getLsbD 8 && decide (4 ≤ size) && decide (size ≤ 16) && x.send.toNat % (64 * 2 ^ size) == 0 then
    .next ((s.modChannel h fun y =>
      { y with ctl := fields, kick := 0, read := 0, sending := false, failed := false, arriving := false }).tellState h)
  else .next (s.modChannel h fun y => { y with ctl := (fields &&& ~~~0x100) ||| (x.ctl &&& 0x400) })

/-- CHANNEL_ERROR_CLEAR: this side's ERROR ends; a descriptor that failed is skipped. -/
def execChannelErrorClear (h : Nat) (s : State) : Host.Outcome State Fault Refusal :=
  let x := s.channel h
  if !x.inError then .next s
  else
    let s1 := s.modChannel h fun y =>
      { y with ctl := y.ctl &&& ~~~0x400, read := if y.failed then y.read + 1 else y.read, failed := false }
    .next (s1.tellState h)

/-- CHANNEL_KICK. -/
def execChannelKick (h : Nat) (v : Word) (s : State) : Host.Outcome State Fault Refusal :=
  if h < 192 then .next (s.kickChannel h v) else .next s

/-- Address of the descriptor at CHREAD. -/
def Channel.descVa (x : Channel) : Word := x.send + BitVec.ofNat 64 (64 * (x.read.toNat % 2 ^ fld x.ctl 0 5))

/-- The descriptor at CHREAD takes a STATUS. -/
def State.setStatus (s : State) (h v : Nat) : State :=
  let x := s.channel h
  match s.channelCtx h with
  | none => s
  | some c =>
    match (s.translate c (x.descVa + 24)).toOption with
    | some f => if f.w && f.pol < 3 then s.hostStore f.pa (natLe 1 v) else s
    | none => s

/-- The descriptor at CHREAD fails with a STATUS. -/
def State.failDesc (s : State) (h v : Nat) : State :=
  ((s.setStatus h v).modChannel h fun x => { x with failed := true, sending := false }).channelFail h

/-- Bytes at a virtual address, page by page, in the order given, or `none` at a fault. -/
def State.readSpan (s : State) (c : Nat) : List (Word × Nat) → Option (List Byte)
  | [] => some []
  | (a, n) :: rest =>
    match s.schedRead c a n, s.readSpan c rest with
    | some b, some bs => some (b ++ bs)
    | _, _ => none

/-- Write bytes at a virtual address, page by page; at a fault the bytes before it stay written. -/
def State.writeSpan (s : State) (c : Nat) : List (Word × Nat) → List Byte → State × Bool
  | [], _ => (s, true)
  | (a, n) :: rest, bs =>
    match s.translate c a with
    | .ok f =>
      if !f.w || f.pol == 3 || (isPool f.pa && !s.poolUp) then (s, false)
      else ((s.storeRaced f.pol f.pa (bs.take n)).coverPoison f.pol f.pa n).writeSpan c rest (bs.drop n)
    | .error _ => (s, false)

/-- MKADD 1 to a channel's mark, as a release at DEVICE scope; `false` at a fault. -/
def State.bumpMark (s : State) (c : Nat) (va : Word) : State × Bool :=
  match s.schedMark c va true with
  | none => (s, false)
  | some f => ((s.storeRaced f.pol f.pa (natLe 8 (leNat (s.readBytes f.pol f.pa 8) + 1))).wakeMark f.pa, true)

/-- A descriptor is to be sent: both ends are enabled, neither is in ERROR, the link is up, and none is under way. -/
def State.sendDue (s : State) (h : Nat) : Bool :=
  let x := s.channel h
  x.enabled && !x.inError && !x.sending && x.pEnable && !x.pError && (s.linkOf h).up && decide (x.read.toNat < x.kick.toNat)

/-- CHANNEL_SEND (R404, R405). -/
def execChannelSend (h : Nat) (s : State) : Host.Outcome State Fault Refusal :=
  if !s.sendDue h then .next s
  else
    let x := s.channel h
    match s.channelCtx h with
    | none => .next (s.failDesc h 4)
    | some c =>
      let t := s.performAt 5
      match t.schedRead c x.descVa 64 with
      | none => .next (t.failDesc h 4)
      | some bytes =>
        let w := leNat bytes
        let len := w / 2 ^ 128 % 2 ^ 32
        let off := w / 2 ^ 64 % 2 ^ 64
        let src : Word := BitVec.ofNat 64 w
        if w / 2 ^ 200 ≠ 0 ∨ w / 2 ^ 160 % 2 ^ 32 ≠ 0 ∨ len = 0 ∨ 16777216 < len ∨ x.pSize.toNat < off + len then
          .next (t.failDesc h 2)
        else
          match t.readSpan c (pagePieces src 4098 len) with
          | none => .next (t.failDesc h 4)
          | some bs =>
            .next (({ t with peerOut := .bytes h off bs :: t.peerOut }).modChannel h fun y => { y with sending := true })

/-- The receiver's part of R405: some bytes of a descriptor arrive, and with the last the mark is counted up. -/
def State.receive (s : State) (h : Nat) (m : PeerMsg) : State :=
  let x := s.channel h
  if !x.enabled || x.inError || !(s.linkOf h).up then s
  else
    match s.channelCtx h with
    | none => s.channelFail h
    | some c =>
      let put := s.writeSpan c (pagePieces (x.recv + BitVec.ofNat 64 m.off) 4098 m.bytes.length) m.bytes
      if !put.2 then put.1.channelFail h
      else if !m.last then put.1.modChannel h fun y => { y with arriving := true }
      else
        let up := (put.1.modChannel h fun y => { y with arriving := false }).bumpMark c x.rmark
        if up.2 then { up.1 with peerOut := .done h :: up.1.peerOut } else up.1.channelFail h

/-- The sender's last part of R405. -/
def State.sent (s : State) (h : Nat) : State :=
  let x := s.channel h
  if !x.sending then s
  else
    let s1 := s.setStatus h 1
    let s2 := match s.channelCtx h with
      | some c => if x.smark = 0 then s1 else (s1.bumpMark c x.smark).1
      | none => s1
    s2.modChannel h fun y => { y with sending := false, read := y.read + 1 }

/-- CHANNEL_RECEIVE: a descriptor's bytes arrive from the peer, or the peer has received those of ours. -/
def execChannelReceive (h : Nat) (m : Option PeerMsg) (s : State) : Host.Outcome State Fault Refusal :=
  match m with
  | some b => .next (s.receive h b)
  | none => .next (s.sent h)

/-- CHANNEL_STATE_MESSAGE: an ERROR that becomes 1 at the partner sets it here too; a descriptor under way whose partner
is disabled or in ERROR takes STATUS 5. -/
def execChannelStateMessage (h : Nat) (enable error : Bool) (size : Word) (s : State) : Host.Outcome State Fault Refusal :=
  let x := s.channel h
  let s1 := s.modChannel h fun y => { y with pEnable := enable, pError := error, pSize := size }
  if x.sending && (!enable || error) then .next (s1.failDesc h 5)
  else if error && !x.pError then .next (s1.channelFail h)
  else .next s1

/-- PEER_LINK_DOWN: every channel of the link goes to ERROR; a descriptor under way takes STATUS 3. -/
def execPeerLinkDown (l : Nat) (s : State) : Host.Outcome State Fault Refusal :=
  if 12 ≤ l then .next s
  else
    let s1 := { s with links := Cells.update {} s.links l fun x => { x with up := false } }
    .next (((List.range 16).map (16 * l + ·)).foldl (fun s h =>
      if (s.channel h).sending then s.failDesc h 3 else s.channelFail h) s1)

/-- LINK_FLIT_RETRY: nothing but timing changes. -/
def execLinkFlitRetry (_l : Nat) (s : State) : Host.Outcome State Fault Refusal := .next s

/-- LINK_LANE_DEGRADE. -/
def execLinkLaneDegrade (l : Nat) (s : State) : Host.Outcome State Fault Refusal :=
  if l < 12 then .next { s with links := Cells.update {} s.links l fun x => if x.up then { x with lanes := 4 } else x }
  else .next s

end Sys2Proof.Machine
end

