-- ==== Sys2Proof/Machine/PoolEvents.lean ====
section
/-!
DEFINITION. The pool link and its refuge, pool windows, back-invalidation, and what damage in storage ends (R25, R49, R232,
R364, R383 to R393, R397 to R401).
-/

namespace Sys2Proof.Machine

/-! ### The pool link (R390 to R393) -/

/-- POOLSTAT.LINK. -/
def State.poolLink (s : State) : Bool := (s.portA || s.portB) && s.poolReach

/-- Address of record `i` of the refuge (R392). -/
def refugeAt (i : Nat) : Nat := Config.refugeBase + 144 * i

/-- VALID of record `i`. -/
def State.refugeValid (s : State) (i : Nat) : Bool := (s.readByte 0 (refugeAt i)).getLsbD 0

/-- POOLSTAT.PENDING. -/
def State.poolPending (s : State) : Bool := (List.range s.poolRecords).any s.refugeValid

/-- POOLSTAT as host software reads it (R393). -/
def State.poolStat (s : State) : Word :=
  let b (v : Bool) (k : Nat) : Nat := if v then 2 ^ k else 0
  BitVec.ofNat 64 (s.poolRecords * 2 ^ 32 + s.poolCause * 256 + b s.poolPending 3 + b s.poolMoving 2 + b s.poolLink 1
    + b s.poolUp 0)

/-- The context whose window holds a pooled-tier address. -/
def State.windowCtx (s : State) (pa : Nat) : Nat :=
  match s.windows.find? fun e =>
    e.2.enabled && decide (e.2.base.toNat ≤ pa) && decide (pa < e.2.base.toNat + e.2.size.toNat * 0x40000000) with
  | some e => fld e.2.ctl 32 32
  | none => 0

/-- A record of R232 for a dirty line. -/
def State.refugeRecord (s : State) (ln : Nat) (line : List Byte) : List Byte :=
  let pa := 128 * ln
  let p0 := s.poisoned pa
  let p1 := s.poisoned (pa + 64)
  let keep (p : Bool) (bs : List Byte) : List Byte := if p then bs.map fun _ => 0 else bs
  natLe 4 (1 + (if p0 then 2 else 0) + if p1 then 4 else 0) ++ natLe 4 (s.windowCtx pa) ++ natLe 8 pa
    ++ keep p0 (line.take 64) ++ keep p1 (line.drop 64)

/-- R391: what a code word whose load is in flight becomes. -/
def WordSt.atLoss (clock : Nat) : WordSt → WordSt
  | .coming a due atomic => if clock < due then .lost a atomic else .clean
  | w => w

/-- R391 for a register set. -/
def Regs.atLoss (clock : Nat) (r : Regs) : Regs :=
  { r with
    vst := (r.vst.map fun e => (e.1, e.2.atLoss clock)).filter fun e => e.2 != .clean
    sst := (r.sst.map fun e => (e.1, e.2.atLoss clock)).filter fun e => e.2 != .clean
    late := r.late.filter fun e => decide (e.1 ≤ clock) }

/-- R391: a store or `.nr` atomic in flight that the loss of the link takes: a store whose line has not come, and was not written to
the pool since. -/
def State.takes (s : State) (w : Owed) : Bool :=
  let ln := w.pa / 128
  let g := s.tag ln
  w.lost || (decide (s.clock < w.due)
    && (w.atomic || (s.inL2 ln && !g.clean && decide (s.clock < g.due) && decide (g.wrote < w.time))))
/-- Those of a list; the others were performed and are forgotten. -/
def State.owedAtLoss (s : State) (ws : List Owed) : List Owed := (ws.filter s.takes).map fun w => { w with lost := true }

/-- A byte that a chunk wrote early to the pool gives way to what stood there. -/
def State.putBack (s : State) (x : Shadow) (pa : Nat) (b : Byte) : State :=
  let ln := pa / 128
  if x.pol = 1 then
    { s with stream := s.stream.map fun y =>
        if y.who == x.who && y.line == ln then { y with bytes := y.bytes.set (pa % 128) b } else y }
  else if x.pol = 0 ∧ s.inL2 ln then { s with wb := Cells.set [] s.wb ln ((s.lineBytes ln).set (pa % 128) b) }
  else s.setMemByte pa b
/-- R391: a chunk under way that writes to the pool is not performed. -/
def State.undoChunks (s : State) : State :=
  s.shadows.reverse.foldl (fun s x =>
    match x.spot with
    | .phys a =>
      (x.new.zip x.old).zipIdx.foldl (fun s e =>
        if e.1.1.isSome && isPool (a + e.2) then s.putBack x (a + e.2) e.1.2 else s) s
    | .pad _ _ => s) s

/-- Drop the lines that `p` names from L2 and from every cache that holds copies under a lease. -/
def State.dropLines (s : State) (p : Nat → Bool) : State :=
  { s with
    wb := s.wb.filter fun e => !p e.1
    tags := s.tags.filter fun e => !p e.1
    linePoison := s.linePoison.filter fun e => !p (e.1 / 2)
    held := s.held.filter fun e => !p e.line }
/-- R392: what a STREAM copy's stores changed is merged into L2's line, which is dirty then. -/
def State.mergeStream (s : State) (x : StreamLine) : State :=
  if x.changed = 0 then s
  else
    let old := match Cells.get [] s.wb x.line with | [] => x.bytes | line => line
    { s with
      wb := Cells.set [] s.wb x.line (old.zipIdx.map fun e => if x.changed.getLsbD e.2 then x.bytes.getD e.2 0 else e.1)
      linePoison := s.withLinePoison x.line (x.overBad (if s.inL2 x.line then s.lineBad x.line else x.bad))
      tags := Cells.update {} s.tags x.line fun g => { g with clean := false } }
/-- No instruction cache and no fetch buffer holds a line where `p` says. -/
def State.dropCode (s : State) (p : Nat → Bool) : State :=
  let keep (l : List FLine) : List FLine := l.filter fun e => !p e.pa
  { s with
    icache := s.icache.filter fun e => !p e.pa
    courses := s.courses.map fun (x : Course) => { x with splits := x.splits.map fun y => { y with buf := keep y.buf } }
    lanes := s.lanes.map fun (q : Lane) => { q with buf := keep q.buf } }

/-- R390 to R392: the pool link is lost. A line that is still on its way never came, nor did the stores to it; a dirty line
becomes a record of the refuge, and no cache holds a pool line afterwards. -/
def State.losePool (s : State) (cause : Nat) : State :=
  let pool (ln : Nat) : Bool := isPool (128 * ln)
  let s0 := s.undoChunks.dropLines fun ln => pool ln && decide (s.clock < (s.tag ln).due)
  let s1 := (s0.stream.filter fun x => pool x.line).foldl (fun s x => s.mergeStream x) s0
  let dirty := s1.wb.filter fun e => pool e.1 && !(s1.tag e.1).clean
  let s2 := dirty.zipIdx.foldl (fun s e => s.hostStore (refugeAt e.2) (s.refugeRecord e.1.1 e.1.2)) s1
  let s3 := (s2.dropLines pool).dropCode isPool
  { s3 with
    stream := s3.stream.filter fun x => !pool x.line
    courses := s3.courses.map fun (x : Course) => { x with regs := x.regs.atLoss s.clock, owed := s.owedAtLoss x.owed }
    lanes := s3.lanes.map fun (q : Lane) => { q with regs := q.regs.atLoss s.clock, owed := s.owedAtLoss q.owed }
    poolUp := false, poolCause := cause, poolRecords := if s.poolUp then dirty.length else s.poolRecords
    poolMoving := s.poolUp }
/-- After a change of the ports or of the fabric's report: where the link was up and is not any more, it is lost (R390). -/
def State.watchLink (before : State) (cause : Nat) (s : State) : State := if before.poolLink && !s.poolLink then s.losePool cause else s

/-- POOL_LINK_LOSS: 1 both ports go down, 2 the fabric reports the pool unreachable. -/
def execPoolLinkLoss (cause : Nat) (s : State) : Host.Outcome State Fault Refusal :=
  if cause = 1 then .next (State.watchLink s 1 { s with portA := false, portB := false })
  else if cause = 2 then .next (State.watchLink s 2 { s with poolReach := false })
  else .next s

/-- POOL_DROP. -/
def execPoolDrop (s : State) : Host.Outcome State Fault Refusal := .next (s.losePool 3)

/-- REFUGE_MOVE_DONE. -/
def execRefugeMoveDone (s : State) : Host.Outcome State Fault Refusal := .next { s with poolMoving := false }

/-- POOL_PORT_CHANGE: port A (0) or B (1) trains or goes down; 2 stands for the fabric's report that the pool is reachable, or not
(R390, R393). Nothing trains or is reported before step 7 of the boot (R408). -/
def execPoolPortChange (port : Nat) (up : Bool) (s : State) : Host.Outcome State Fault Refusal :=
  if s.mgmt.step < 7 then .next s
  else if port = 0 then .next (State.watchLink s 1 { s with portA := up })
  else if port = 1 then .next (State.watchLink s 1 { s with portB := up })
  else if port = 2 then .next (State.watchLink s 2 { s with poolReach := up })
  else .next s

/-- POOL_RESUME. -/
def execPoolResume (s : State) : Host.Outcome State Fault Refusal :=
  if s.poolLink && !s.poolMoving && !s.poolPending then .next { s with poolUp := true } else .next s

/-- Records that a REFUGE_ACT names. -/
def State.refugeNamed (s : State) (all : Bool) (i : Nat) : List Nat :=
  (if all then List.range s.poolRecords else [i]).filter fun k => decide (k < s.poolRecords) && s.refugeValid k

/-- VALID of record `i` becomes 0. -/
def State.clearValid (s : State) (i : Nat) : State :=
  s.hostStore (refugeAt i) [s.readByte 0 (refugeAt i) &&& 0xFE]

/-- Write record `i` to the pool; granules whose PGRAN bit is set arrive poisoned. -/
def State.returnRecord (s : State) (i : Nat) : State :=
  let a := refugeAt i
  let pa := leNat (s.readBytes 0 (a + 8) 8)
  let flags := s.readByte 0 a
  let s1 := s.storeBytes 2 pa (s.readBytes 0 (a + 16) 128)
  let p0 := flags.getLsbD 1
  let p1 := flags.getLsbD 2
  ((s1.setPoison pa p0).setPoison (pa + 64) p1).clearValid i

/-- REFUGE_WRITEBACK, ignored while LINK is 0. -/
def execRefugeWriteback (all : Bool) (i : Nat) (s : State) : Host.Outcome State Fault Refusal :=
  if s.poolLink then .next ((s.refugeNamed all i).foldl (fun s k => s.returnRecord k) s) else .next s

/-- REFUGE_DISCARD. -/
def execRefugeDiscard (all : Bool) (i : Nat) (s : State) : Host.Outcome State Fault Refusal :=
  .next ((s.refugeNamed all i).foldl (fun s k => s.clearValid k) s)

/-! ### Windows and back-invalidation (R399 to R401) -/

/-- The fields of PWCTL that a write sets. -/
def pwctlMask : Word := 0xFFFFFFFF0FFF0301

/-- R400: a window may be enabled with a PWCTL value. -/
def State.windowValid (s : State) (w : Nat) (v : Word) : Bool :=
  let x := Cells.get {} s.windows w
  let base := x.base.toNat
  let n := x.size.toNat * 0x40000000
  let others := s.windows.filter fun e => e.1 != w && e.2.enabled
  let mine := others.filter fun e => fld e.2.ctl 32 32 == fld v 32 32
  decide (1 ≤ x.size.toNat) && decide (x.size.toNat ≤ 16384) && isPool base && isPool (base + n - 1) && fld v 8 2 != 0
    && others.all (fun e => !spansMeet (base, n) (e.2.base.toNat, e.2.size.toNat * 0x40000000))
    && decide (x.size.toNat + (mine.map fun e => e.2.size.toNat).sum ≤ 16384)

/-- POOL_WINDOW_ENABLE: a write of PWCTL with ENABLE set. -/
def execPoolWindowEnable (w : Nat) (v : Word) (s : State) : Host.Outcome State Fault Refusal :=
  if 64 ≤ w ∨ (Cells.get {} s.windows w).enabled then .next s
  else
    let c := (v &&& pwctlMask) &&& ~~~1
    .next { s with windows := Cells.update {} s.windows w fun x => { x with ctl := if s.windowValid w v then c ||| 1 else c } }

/-- The lines where `p` holds are written back and dropped from every cache. -/
def State.writeBackWhere (s : State) (p : Nat → Bool) : State :=
  let lines := ((s.wb.map (·.1)) ++ s.held.map Held.line ++ s.stream.map StreamLine.line).eraseDups.filter fun ln => p (128 * ln)
  (lines.foldl (fun s ln => s.flushLine ln) s).dropCode p

/-- POOL_WINDOW_DISABLE: a write of PWCTL with ENABLE clear. -/
def execPoolWindowDisable (w : Nat) (v : Word) (s : State) : Host.Outcome State Fault Refusal :=
  let x := Cells.get {} s.windows w
  let busy := match s.ctxPlace (fld x.ctl 32 32) with
    | some c => s.hasWork c
    | none => false
  if 64 ≤ w then .next s
  else if !x.enabled then
    .next { s with windows := Cells.update {} s.windows w fun x => { x with ctl := (v &&& pwctlMask) &&& ~~~1 } }
  else if busy then .next s
  else
    let s1 := s.writeBackWhere fun pa => decide (x.base.toNat ≤ pa) && decide (pa < x.base.toNat + x.size.toNat * 0x40000000)
    .next { s1 with windows := Cells.update {} s1.windows w fun x => { x with ctl := x.ctl &&& ~~~1 } }

/-- R401: stores of the device to a line that are under way are performed. -/
def State.landLine (s : State) (ln : Nat) : State :=
  let rest (ws : List Owed) : List Owed := ws.filter fun w => w.lost || w.atomic || w.pa / 128 != ln
  { s with
    tags := if (Cells.get [] s.wb ln).isEmpty then s.tags else Cells.update {} s.tags ln fun g => { g with due := 0 }
    courses := s.courses.map fun (x : Course) => { x with owed := rest x.owed }
    lanes := s.lanes.map fun (q : Lane) => { q with owed := rest q.owed } }

/-- BISNP: the device's stores to the line are performed, what it holds of it is written back and dropped, and BIRsp is sent;
another accelerator may then store to it (R295, R401). It comes over the link, before a RESUME too. -/
def execBisnp (o : TakeBack) (s : State) : Host.Outcome State Fault Refusal :=
  if isPool (128 * o.line) && s.poolLink then
    let t := (s.landLine o.line).yieldLine o.line
    .next ({ t with birsps := o.line :: t.birsps }.foreignStores o.line o.stores)
  else .next s

/-! ### Errors (R384 to R389) -/

/-- ERRCNT of class `k` after `c` corrected and `u` uncorrectable errors. -/
def State.countErrors (s : State) (k c u : Nat) : State :=
  if 7 ≤ k then s
  else
    { s with errCnt := Cells.update 0 s.errCnt k fun w =>
        BitVec.ofNat 64 (min 0xFFFFFFFF (fld w 32 32 + u) * 2 ^ 32 + min 0xFFFFFFFF (fld w 0 32 + c)) }

/-- Cycles of an hour. -/
def hour : Nat := 6300000000000
/-- Firmware counts the errors corrected in a core, or in a DRAM channel: more than 1,000 and 10,000 in an hour call for an action
(R416). -/
def State.watchErrors (s : State) (k unit n : Nat) : State :=
  let h := s.clock / hour
  let m := s.mgmt
  if (k = 0 ∨ k = 2 ∨ k = 5) ∧ unit < Config.cores then
    let e := tally m.coreErrs unit h n
    { s with mgmt := { m with coreErrs := e, sick := noteUnit m.sick unit (decide (1000 < (Cells.get (0, 0) e unit).2)) } }
  else if k = 4 ∧ unit < 1152 then
    let e := tally m.chanErrs unit h n
    { s with mgmt := { m with chanErrs := e, hot := noteUnit m.hot unit (decide (10000 < (Cells.get (0, 0) e unit).2)) } }
  else s

/-- ECC_CORRECTED: counters only. -/
def execEccCorrected (cls : Nat) (n : Corrections) (s : State) : Host.Outcome State Fault Refusal :=
  .next ((s.countErrors cls n.count 0).watchErrors cls n.unit n.count)

/-- R25, R383, R388: a launch ends with every course killed, with row 6 of R388 in TINFO; its blocks that never started end. -/
def State.endLaunch (s : State) (l : Nat) : State :=
  let info : Word := 0x26
  let bs := s.launchBlocks l
  let s1 := (bs.flatMap fun b => (s.block b).courses).foldl (fun s c =>
    s.killCourse c { reason := 1, trap := { code := 0, pc := ((s.course c).splits.headD default).pc, info := info } }) s
  let waiting := bs.filter fun b => (s.block b).courses.isEmpty
  let s2 := waiting.foldl (fun s b => s.modBlock b fun y => { y with st := .ended }) (s1.dropWaiting bs)
  s2.modLaunch l fun y => if y.st == .held || y.st == .placing then { y with st := .running } else y

/-- The unretired launches of the fault domain of every launch with work on the cores named, context by context (R25). -/
def State.domainOf (s : State) (cores : List Nat) : List Nat :=
  let hit := (List.range s.launches.length).filter fun l =>
    (s.launch l).unretired && (s.launchBlocks l).any fun b => (s.block b).st.placed && cores.contains (s.block b).core
  let same (a b : Nat) : Bool :=
    (s.launch a).ctx == (s.launch b).ctx && s.effDomain (s.launch a).region == s.effDomain (s.launch b).region
  (List.range s.launches.length).filter fun l => (s.launch l).unretired && hit.any fun h => same h l
/-- Those launches end; a slice whose state was damaged keeps the event until they have retired (R388, R416). -/
def State.endDomains (s : State) (slice : Option Nat) (cores : List Nat) : State :=
  let ls := s.domainOf cores
  let t := ls.foldl (fun s l => s.endLaunch l) s
  match slice with
  | some n => { t with mgmt := { t.mgmt with contained := (n, ls) :: t.mgmt.contained } }
  | none => t
/-- The core in whose own storage an error lies. -/
def State.damagedCore (s : State) : Damage → Option Nat
  | .vreg c _ _ | .sreg c _ => some (s.coreOf c)
  | .scratch b _ | .blockState b => some (s.block b).core
  | .l1 k _ => if k < Config.cores then some k else none
  | _ => none

/-- R384: an error in a line of L2, or of the dirty data that an L1 holds of it: a clean line is dropped, and fetched again when it
is used; of a dirty one the granule is poisoned. -/
def State.damageLine (s : State) (g : Nat) : State :=
  let ln := g / 2
  if !s.inL2 ln then s
  else if (s.tag ln).clean then
    ({ s with wb := Cells.erase s.wb ln, tags := Cells.erase s.tags ln
              linePoison := s.linePoison.filter fun e => e.1 / 2 != ln }.flushStream ln).forgetLine ln
  else { s with linePoison := Cells.set false s.linePoison g true }
/-- R384: an error in the cache of a core or quoin core: a clean copy is dropped; of a dirty STREAM copy the granule is poisoned;
where the cache holds neither, it is the dirty line's data. -/
def State.damageL1 (s : State) (cache g : Nat) : State :=
  let ln := g / 2
  let mine (x : StreamLine) : Bool := x.line == ln && !x.l2 && { s with cur := x.who }.cacheOf == cache
  let copy (e : Held) : Bool := e.cache == cache && e.line == ln
  if s.held.any copy || s.stream.any mine then
    { s with
      held := s.held.filter fun e => !copy e
      stream := s.stream.filterMap fun x =>
        if !mine x then some x
        else if x.changed = 0 then none
        else some { x with bad := if g % 2 = 0 then (true, x.bad.2) else (x.bad.1, true) } }
  else s.damageLine g

/-- What an uncorrectable error in a place ends (R384, R388). -/
def State.damage (s : State) : Damage → State
  | .vreg c reg word =>
    s.modCourse c fun x => { x with regs := { x.regs with vst := Cells.set .clean x.regs.vst (3 * reg + word) .poison } }
  | .sreg c reg => s.modCourse c fun x => { x with regs := { x.regs with sst := Cells.set .clean x.regs.sst reg .poison } }
  | .laneReg q reg =>
    s.modLane q fun x =>
      { x with regs := { x.regs with vst := Cells.set .clean x.regs.vst (3 * reg + x.lane / 32) .poison } }
  | .laneScalar q reg =>
    s.modLane q fun x => { x with regs := { x.regs with sst := Cells.set .clean x.regs.sst reg .poison } }
  | .cached g => s.damageLine g
  | .l1 k g => s.damageL1 k g
  | .parity k =>
    { s with opcache := s.opcache.filter fun e => e.core != k, icache := s.icache.filter fun e => e.core != k }
  | .memory g => s.setPoison (64 * g) true
  | .scratch b word => s.modBlock b fun x => { x with spPoison := Cells.set false x.spPoison word true }
  | .blockState b =>
    (s.block b).courses.foldl (fun s c =>
      s.killCourse c { reason := 5, trap := { code := 0, pc := ((s.course c).splits.headD default).pc } }) s
  | .saveArea n =>
    match s.ctxPlace n with
    | some x => s.setPoison (s.saveBase x + 0x100000) true
    | none => s
  | .shared slice cores => s.endDomains slice cores
  | .scheduler =>
    if s.mgmt.failed = 0 then { s with mgmt := { s.mgmt with failed := 1, takeover := true } }
    else
      let s1 := (List.range s.ctxs.length).foldl (fun s x =>
        if (s.ctx x).st = .destroyed ∨ (s.ctx x).st = .lost then s else s.loseContext x) s
      { s1 with mgmt := { s1.mgmt with failed := 2, takeover := false }, mctp := .failure :: s1.mctp }

/-- ECC_UNCORRECTABLE: the counter, in which a parity refetch is no uncorrectable error, and the smallest scope that owns the
state; a core whose own count rises is to be drained (R416). -/
def execEccUncorrectable (cls : Nat) (d : Damage) (s : State) : Host.Outcome State Fault Refusal :=
  let s1 := match d with
    | .parity k => (s.countErrors cls 1 0).watchErrors 5 k 1
    | _ => s.countErrors cls 0 1
  let s2 := match s.damagedCore d with
    | some k => { s1 with mgmt := { s1.mgmt with sick := noteUnit s1.mgmt.sick k true } }
    | none => s1
  .next (s2.damage d)

/-- DRAM_SCRUB and L2_SCRUB: corrected data is written back in place. -/
def execDramScrub (_ch : Nat) (s : State) : Host.Outcome State Fault Refusal := .next s
def execL2Scrub (_slice : Nat) (s : State) : Host.Outcome State Fault Refusal := .next s

/-- SCHEDULER_FAILOVER: the other scheduler core takes over every queue as it stands: the spare, or after a hand-over the core that
ran before (R49, R415). -/
def State.failoverDue (s : State) : Bool := s.mgmt.takeover

def execSchedulerFailover (s : State) : Host.Outcome State Fault Refusal :=
  if s.failoverDue then .next { s with mgmt := { s.mgmt with spare := !s.mgmt.spare, takeover := false } } else .next s

end Sys2Proof.Machine
end

