-- ==== Sys2Proof/Machine/ManageEvents.lean ====
section
/-!
DEFINITION. The management controller: boot and its journal, firmware update, mapping out and recalibration, and
attestation (R8, R408 to R418).
-/

namespace Sys2Proof.Machine

/-- Send a message over MCTP; a controller whose boot stopped answers with the journal only (R410). -/
def State.answer (s : State) (m : Mctp) : State :=
  { s with mctp := (if s.mgmt.stopped then .journalOnly s.mgmt.journal else m) :: s.mctp }

def State.modMgmt (s : State) (f : Mgmt → Mgmt) : State := { s with mgmt := f s.mgmt }

/-! ### Boot (R408 to R411) -/

/-- Steps that may be skipped (R408). -/
def bootOptional (step : Nat) : Bool := step == 7 || step == 8
/-- Units of a step: channels, cores, slices, links, clusters (R409). -/
def bootCount (step : Nat) : Nat :=
  if step = 3 then 1152 else if step = 4 then Config.cores else if step = 5 then 144 else if step = 8 ∨ step = 10 then 12 else 1
/-- The unit whose step comes next (R408). -/
def Mgmt.nextUnit (m : Mgmt) : Nat × Nat :=
  if m.step = 0 then (1, 0) else if m.unit + 1 < bootCount m.step then (m.step, m.unit + 1) else (m.step + 1, 0)

/-- RESULT of the last time that a way of a unit's step was taken. -/
def Mgmt.lastWay (m : Mgmt) (step unit way : Nat) : Option (BitVec 8) :=
  (m.journal.find? fun j => j.step.toNat == step && j.unit.toNat == unit && j.way.toNat == way).map (·.result)

/-- The unit was mapped out by step 3 or 4, or by firmware. -/
def Mgmt.isOut (m : Mgmt) (step unit : Nat) : Bool :=
  (step == 3 && m.channelsOut.contains unit) || (step == 4 && m.coresOut.contains unit)
/-- How a unit's step is done on the next boot: 0 standard, 1 the alternative, 2 skipped, or the boot stops (R410). A unit that
is mapped out stays out, and is tried the standard way once host software had it cleared; an alternative that a reset cut off has
not failed. -/
def Mgmt.wayOf (m : Mgmt) (step unit : Nat) : Option Nat :=
  let std := m.lastWay step unit 0
  if m.cleared.contains (step, unit) then some 0
  else if m.isOut step unit then some 1
  else if std.isNone || std == some 0 then some 0
  else if step = 7 then some 2
  else if m.lastWay step unit 1 ≠ some 1 then some 1
  else if bootOptional step then some 2
  else none

/-- A unit is in a list, or out of it. -/
def mark (l : List Nat) (u : Nat) (out back : Bool) : List Nat :=
  if out then (if l.contains u then l else u :: l) else if back then l.filter (· != u) else l

/-- A ramp table whose eight steps lie in their range (R283). -/
def slewOk (v : Nat) : Bool := (List.range 8).all fun j => decide (1 ≤ v / 256 ^ j % 256) && decide (v / 256 ^ j % 256 ≤ 32)
/-- Step 9: the records that verify of the current set, or of the previous one, are in force: SLEWTAB of the base dies and the
clusters' pools (R60, R283, R417). A value out of its range is not applied (log 11). -/
def State.loadRecords (s : State) (previous : Bool) : State :=
  let rs := ((Config.records previous).filter fun r => Config.verifies r.2.2).map fun r => (r.1, r.2.1)
  let value (k : Nat) : Option Nat := (rs.find? fun r => r.1 == k).map (·.2)
  { s with
    mgmt := { s.mgmt with active := rs }
    slewTab := (List.range 6).foldl (fun m d =>
      match value d with
      | some v => if slewOk v then Cells.set slewDefault m d (BitVec.ofNat 64 v) else m
      | none => m) s.slewTab
    clusters := (List.range Config.clusters).foldl (fun m k =>
      match value (8 + k) with
      | some v => if v ≤ 2 then Cells.update {} m k fun (x : ClusterSt) => { x with pool := v } else m
      | none => m) s.clusters }

/-- The images of a bank, of which `later` takes the place of the controller's where it waits for this start (R412). -/
def Mgmt.booting (bank : Cells Firmware) (later : Option Firmware) : Cells Firmware :=
  match later with | some v => Cells.set {} bank 0 v | none => bank
/-- Step 1 has passed: the bank's images are those that run, and the controller's has started. -/
def Mgmt.chosen (m : Mgmt) (b : Bool) : Mgmt :=
  { m with fromB := b, runs := Mgmt.booting (if b then m.bankB else m.bankA) m.controller, controller := none }
/-- Both signatures of every image of a bank verify (R408). -/
def Mgmt.bankOk (m : Mgmt) (b : Bool) : Bool :=
  (List.range 4).all fun c => Config.verifies (Cells.get {} (if b then m.bankB else m.bankA) c).image
/-- Step 10 of the last cluster has passed: the scheduler core, or its spare where the alternative was taken, has started; bank B's
images, if they were booted, stand in bank A as well (R410). -/
def Mgmt.started (m : Mgmt) : Mgmt :=
  { m with running := true, bankA := if m.fromB then m.bankB else m.bankA, fromB := false }

/-- What a unit's step that passed does. At step 10 the cluster's leaf controller starts, and with the last cluster's the scheduler
core. -/
def State.bootEffect (s : State) (u : BootUnit) (way : Nat) : State :=
  if way = 2 then s
  else
    let back : Bool := s.mgmt.cleared.contains (u.step, u.unit)
    match u.step with
    | 1 => s.modMgmt fun m => m.chosen (way == 1)
    | 3 => s.modMgmt fun m => { m with channelsOut := mark m.channelsOut u.unit (way == 1) back }
    | 4 => s.modMgmt fun m => { m with coresOut := mark m.coresOut u.unit (way == 1) back }
    | 5 => s.modMgmt fun m => { m with slices := mark m.slices u.unit (way == 1) (way == 0) }
    | 7 => { s with portA := true, portB := true, poolReach := true }
    | 8 => { s with links := Cells.set {} s.links u.unit ({ up := true, lanes := if way = 1 then 4 else 8 } : Link) }
    | 9 => s.loadRecords (way == 1)
    | 10 =>
      let run (c : Nat) : Firmware := Cells.get {} s.mgmt.runs c
      let s1 := s.modCluster u.unit fun x => { x with leaf := run 1, microcode := run 3 }
      let s2 := if way = 1 then s1.modMgmt fun m => { m with spare := true, failed := 1 } else s1
      if u.unit + 1 < bootCount 10 then s2 else s2.modMgmt Mgmt.started
    | _ => s

/-- How a unit's step goes, done in a way: step 1 fails where an image of its bank does not verify (R408). -/
def Mgmt.trial (m : Mgmt) (u : BootUnit) (way : Nat) : Trial :=
  let r := if way = 0 then u.std else u.alt
  if way = 2 then .pass else if u.step = 1 ∧ r = .pass ∧ !m.bankOk (way == 1) then .fail else r
/-- The record of it (R409). -/
def Mgmt.entry (m : Mgmt) (u : BootUnit) (way : Nat) : Journal :=
  let r := m.trial u way
  { boot := m.boot, step := BitVec.ofNat 16 u.step, unit := BitVec.ofNat 32 u.unit, way := BitVec.ofNat 8 way
    result := match r with | .pass => 0 | .fail => 1 | .cut => 2
    detail := if r = .fail then Config.bootCause u.step u.unit m.boot.toNat else 0 }
/-- The record is written. -/
def Mgmt.noted (m : Mgmt) (j : Journal) (u : BootUnit) : Mgmt :=
  { m with journal := (j :: m.journal).take 4096, cleared := m.cleared.filter (· != (u.step, u.unit)) }

/-- Every unit of every step in order, to the end of step 10: a record as each unit finishes; the boot waits for a reset at a
unit that fails or is cut off by one, and stops at one that has no way left. -/
def State.bootUnits (s : State) : List BootUnit → State
  | [] => s
  | u :: us =>
    if s.mgmt.running || s.mgmt.nextUnit != (u.step, u.unit) then s
    else
      match s.mgmt.wayOf u.step u.unit with
      | none => s.modMgmt fun m => { m with stopped := true }
      | some way =>
        let j := s.mgmt.entry u way
        if s.mgmt.trial u way = .pass then
          ((s.bootEffect u way).modMgmt fun m => { m.noted j u with step := u.step, unit := u.unit }).bootUnits us
        else s.modMgmt fun m => m.noted j u

/-- The ranges of R215 and the mapped-out units (R411). -/
def State.bootReport (s : State) : Mctp :=
  .report ((Config.refugeBase, 0x40000000) :: s.mgmt.channelsOut.map fun c => (c * 0x18000000, 0x18000000)) s.mgmt.coresOut
    s.mgmt.channelsOut s.mgmt.slices

/-- A reset: the device stands as `State.reset`, but for its memory, what it said to the outside, the management flash, the
fuses, the units that are out of service, and the controller's image that waits for its restart, which this is (R412). -/
def State.restart (s : State) : State :=
  let m := s.mgmt
  { State.reset with
    mem := s.mem, poison := s.poison, vectors := s.vectors, mctp := s.mctp, peerOut := s.peerOut, hostReads := s.hostReads
    birsps := s.birsps, tick := s.tick, inputs := s.inputs, fresh := s.fresh
    mgmt :=
      { ({} : Mgmt) with
        boot := m.boot + 1, journal := m.journal, coresOut := m.coresOut, channelsOut := m.channelsOut, slices := m.slices
        rows := m.rows, fuse := m.fuse, bankA := m.bankA, bankB := m.bankB, cleared := m.cleared, controller := m.controller
        activeB := if m.controller.isSome then m.activeB.filter (· == 0) else [] } }

/-- BOOT after a reset: the units' tests go as they go; the report is sent once step 10 has passed, the journal if the boot
stops. -/
def execBoot (us : List BootUnit) (s : State) : Host.Outcome State Fault Refusal :=
  let t := s.restart.bootUnits us
  .next (if t.mgmt.running then t.answer t.bootReport
    else if t.mgmt.stopped then t.answer (.journalOnly t.mgmt.journal) else t)

/-- CLEAR_MAP_OUT: the unit is tried the standard way at the next boot. -/
def execClearMapOut (step unit : Nat) (s : State) : Host.Outcome State Fault Refusal :=
  if step = 3 ∨ step = 4 then .next (s.modMgmt fun m => { m with cleared := (step, unit) :: m.cleared }) else .next s

/-! ### Firmware update (R412, R413) -/

/-- The image of a component that is in force lies in bank B. -/
def Mgmt.inB (m : Mgmt) (comp : Nat) : Bool := m.fromB || m.activeB.contains comp
/-- The image of a component in the inactive bank becomes `v`; the image 0 erases it (R412, R413). -/
def Mgmt.stage (m : Mgmt) (comp : Nat) (v : Firmware) : Mgmt :=
  if m.inB comp then { m with bankA := Cells.set {} m.bankA comp v } else { m with bankB := Cells.set {} m.bankB comp v }
/-- Staged images are given up. -/
def Mgmt.unstage (m : Mgmt) (p : Staged → Bool) : Mgmt :=
  { (m.staged.filter p).foldl (fun m x => if x.transferred then m.stage x.comp {} else m) m with staged := m.staged.filter fun x => !p x }

/-- Answer a PLDM command: 1 RequestUpdate to 8 CancelUpdate. -/
def State.pldm (s : State) (command : Nat) (ok : Bool) (f : Mgmt → Mgmt) : State :=
  if s.mgmt.stopped then s.answer .failure
  else (if ok then s.modMgmt f else s).answer (.pldm command ok)

/-- The staged image of a component. -/
def Mgmt.image (m : Mgmt) (comp : Nat) : Option Staged := m.staged.find? fun x => x.comp == comp
def Mgmt.setImage (m : Mgmt) (x : Staged) : Mgmt :=
  { m with staged := x :: m.staged.filter fun y => y.comp != x.comp }

def execRequestUpdate (s : State) : Host.Outcome State Fault Refusal :=
  .next (s.pldm 1 (!s.mgmt.updating) fun m => { m with updating := true, table := [], staged := [] })

def execPassComponentTable (cs : List Nat) (s : State) : Host.Outcome State Fault Refusal :=
  .next (s.pldm 2 s.mgmt.updating fun m => { m with table := cs.filter fun c => c < 4 })

def execUpdateComponent (comp image : Nat) (s : State) : Host.Outcome State Fault Refusal :=
  .next (s.pldm 3 (s.mgmt.updating && s.mgmt.table.contains comp) fun m => m.setImage { comp := comp, image := image })

def execTransferComplete (comp : Nat) (s : State) : Host.Outcome State Fault Refusal :=
  .next (s.pldm 4 (s.mgmt.image comp).isSome fun m =>
    match m.image comp with
    | some x => (m.setImage { x with transferred := true }).stage comp { image := x.image }
    | none => m)

/-- R413: both signatures verify and the security version is at least that of the fuses. -/
def Mgmt.verified (m : Mgmt) (comp version : Nat) : Bool :=
  match m.image comp with
  | some x => x.transferred && Config.verifies x.image && decide (m.fuse ≤ version)
  | none => false

/-- VERIFY_COMPLETE: success, or the staged image is erased. -/
def execVerifyComplete (comp version : Nat) (s : State) : Host.Outcome State Fault Refusal :=
  if s.mgmt.verified comp version then
    .next (s.pldm 5 true fun m =>
      match m.image comp with
      | some x => (m.setImage { x with version := some version }).stage comp ⟨x.image, version⟩
      | none => m)
  else .next ((s.modMgmt fun m => m.unstage fun x => x.comp == comp).pldm 5 false id)

def execApplyComplete (comp : Nat) (s : State) : Host.Outcome State Fault Refusal :=
  let ok : Bool := match s.mgmt.image comp with
    | some x => x.version.isSome
    | none => false
  .next (s.pldm 6 ok fun m =>
    match m.image comp with
    | some x => m.setImage { x with applied := true }
    | none => m)

/-- The image of the component that is ready to be activated. -/
def Mgmt.ready (m : Mgmt) (comp : Nat) : Option Firmware :=
  match m.image comp with
  | some x => if x.applied then x.version.map fun v => ⟨x.image, v⟩ else none
  | none => none
/-- Components whose image in force lies in bank B once those that are ready are activated: the bank where they were staged is
theirs from now on (log 49). -/
def Mgmt.activated (m : Mgmt) : List Nat := (List.range 4).filter fun c => if (m.ready c).isSome then !m.inB c else m.inB c

/-- ACTIVATE_FIRMWARE: the fuse version rises; the controller's image waits for its restart, leaves and microcode roll by R414
from cluster 0, with what an earlier roll had not finished, the scheduler core's image goes by R415. -/
def execActivateFirmware (s : State) : Host.Outcome State Fault Refusal :=
  let ok : Bool := s.mgmt.updating && s.mgmt.staged.any (·.applied)
  let roll : Bool := ok && ((s.mgmt.ready 1).isSome || (s.mgmt.ready 3).isSome)
  let s1 := match s.mgmt.leaf with
    | some (k, _) => if roll then s.modCluster k fun x => { x with drain := none } else s
    | none => s
  .next (s1.pldm 7 ok fun m =>
    let old := m.leaf.getD (0, none, none)
    { m with
      fuse := ((List.range 4).filterMap fun c => (m.ready c).map (·.version)).foldl max m.fuse, updating := false, staged := [], table := []
      activeB := m.activated
      controller := (m.ready 0).orElse fun _ => m.controller
      scheduler := (m.ready 2).orElse fun _ => m.scheduler
      left := if roll then [] else m.left
      leaf := if roll then some (0, (m.ready 1).orElse fun _ => old.2.1, (m.ready 3).orElse fun _ => old.2.2) else m.leaf })

/-- The management controller restarts and runs the image that waited for it; the Folend keeps running (R412). -/
def State.restartController (s : State) : State :=
  s.modMgmt fun m =>
    match m.controller with
    | some v => { m with controller := none, runs := Cells.set {} m.runs 0 v }
    | none => m

def execGetStatus (s : State) : Host.Outcome State Fault Refusal :=
  .next (s.answer (.status (s.mgmt.updating || s.mgmt.leaf.isSome || s.mgmt.scheduler.isSome || s.mgmt.controller.isSome) s.mgmt.left))

def execCancelUpdate (s : State) : Host.Outcome State Fault Refusal :=
  .next (s.pldm 8 s.mgmt.updating fun m => { m.unstage fun _ => true with updating := false, table := [] })

/-! ### Rolling updates and hand-over (R414, R415) -/

/-- The rolling update goes on with the cluster after `k`; after the last, the new versions are the device's. -/
def State.nextLeaf (s : State) (k : Nat) (leafs micro : Option Firmware) : State :=
  if k + 1 < Config.clusters then s.modMgmt fun m => { m with leaf := some (k + 1, leafs, micro) }
  else
    s.modMgmt fun m =>
      let set (vs : Cells Firmware) (c : Nat) (v : Option Firmware) : Cells Firmware :=
        match v with | some n => Cells.set {} vs c n | none => vs
      { m with leaf := none, runs := set (set m.runs 1 leafs) 3 micro }

/-- LEAF_UPDATE_CLUSTER: the cluster takes no new block; once it is empty its new leaf starts and it rejoins its pool. -/
def execLeafUpdateCluster (cluster : Nat) (s : State) : Host.Outcome State Fault Refusal :=
  match s.mgmt.leaf with
  | none => .next s
  | some (k, leafs, micro) =>
    if k ≠ cluster then .next s
    else if (s.cluster k).drain.isNone then .next (s.modCluster k fun x => { x with drain := some s.clock })
    else if s.clusterEmpty k then
      let s1 := s.modCluster k fun x =>
        { x with drain := none, leaf := leafs.getD x.leaf, microcode := micro.getD x.microcode }
      .next (s1.nextLeaf k leafs micro)
    else .next s

/-- The cluster being drained has held work for 2^36 cycles. -/
def State.drainOverdue (s : State) (k : Nat) : Bool :=
  match s.mgmt.leaf, (s.cluster k).drain with
  | some (j, _), some t => j == k && decide (t + 2 ^ 36 ≤ s.clock)
  | _, _ => false

def execLeafDrainTimeout (cluster : Nat) (s : State) : Host.Outcome State Fault Refusal :=
  match s.mgmt.leaf with
  | some (_, leafs, micro) =>
    if !s.drainOverdue cluster then .next s
    else
      let s1 := (s.modCluster cluster fun x => { x with drain := none }).modMgmt fun m => { m with left := m.left ++ [cluster] }
      .next (s1.nextLeaf cluster leafs micro)
  | none => .next s

/-- A new scheduler image waits, and the spare is sound. -/
def State.handoverDue (s : State) : Bool := s.mgmt.scheduler.isSome && s.mgmt.failed == 0

/-- SCHEDULER_HANDOVER: at a packet boundary the spare takes over queues, waits, leases and promotions as they stand. -/
def execSchedulerHandover (s : State) : Host.Outcome State Fault Refusal :=
  match s.mgmt.scheduler with
  | some v =>
    if s.handoverDue then
      .next (s.modMgmt fun m => { m with scheduler := none, spare := !m.spare, runs := Cells.set {} m.runs 2 v })
    else .next s
  | none => .next s

/-! ### Mapping out and recalibration (R416) -/

/-- Nothing has room on the core. -/
def State.coreEmpty (s : State) (core : Nat) : Bool :=
  (s.blocksOn core).isEmpty && !(s.ops.any fun o => o.core == some core)
    && !((List.range s.courses.length).any fun c => s.coreOf c == core && (s.course c).place == .resident
      && (s.block (s.course c).block).st != .ended)

/-- The core has been drained for 2^36 cycles and is not empty: it stays in service, as a cluster of R414 does. -/
def State.coreOverdue (s : State) (core : Nat) : Bool :=
  match Cells.get none s.mgmt.draining core with
  | some t => decide (t + 2 ^ 36 ≤ s.clock) && !s.coreEmpty core
  | none => false
/-- CORE_MAP_OUT of a core whose counters call for it: the core takes no new block; once it is empty, and so every containment event
on it has settled (R388), it is mapped out. -/
def execCoreMapOut (core : Nat) (s : State) : Host.Outcome State Fault Refusal :=
  let since := Cells.get none s.mgmt.draining core
  if s.mgmt.coresOut.contains core || (!s.mgmt.sick.contains core && since.isNone) then .next s
  else if s.coreEmpty core then
    .next (s.modMgmt fun m =>
      { m with coresOut := core :: m.coresOut, draining := Cells.erase m.draining core, sick := m.sick.filter (· != core) })
  else if s.coreOverdue core then
    .next (s.modMgmt fun m => { m with draining := Cells.erase m.draining core, sick := m.sick.filter (· != core) })
  else if since.isSome then .next s
  else .next (s.modMgmt fun m => { m with draining := Cells.set none m.draining core (some s.clock) })

/-- DRAM_ROW_SPARE: a row of a channel whose counter calls for it. -/
def execDramRowSpare (ch row : Nat) (s : State) : Host.Outcome State Fault Refusal :=
  if s.mgmt.hot.contains ch then
    .next (s.modMgmt fun m =>
      { m with hot := m.hot.filter (· != ch), rows := if m.rows.contains (ch, row) then m.rows else (ch, row) :: m.rows })
  else .next s

/-- CHANNEL_MAP_OUT of a channel that failed uncorrectably; no row of R388 names a channel, so it waits for nothing. -/
def execChannelMapOut (ch : Nat) (s : State) : Host.Outcome State Fault Refusal :=
  if ch < 1152 ∧ !s.mgmt.channelsOut.contains ch then
    .next (s.modMgmt fun m => { m with channelsOut := ch :: m.channelsOut })
  else .next s

/-- A containment event of the slice has not settled: a launch that it ends has not retired (R388, R416). -/
def State.containing (s : State) (slice : Nat) : Bool :=
  s.mgmt.contained.any fun e => e.1 == slice && e.2.any fun l => (s.launch l).unretired
/-- L2_SLICE_DEGRADE of a slice that failed: after a write-back of its lines the slice runs on its lower 2 MiB. Lines that a tile
fetch has pinned stay (R263), and what containment decides comes first (R388). -/
def execL2SliceDegrade (slice : Nat) (s : State) : Host.Outcome State Fault Refusal :=
  if 144 ≤ slice ∨ s.mgmt.slices.contains slice then .next s
  else if s.containing slice then
    .next (s.modMgmt fun m => { m with failing := noteUnit m.failing slice true })
  else
    let mine (pa : Nat) : Bool := s.slice (pa / 128) == slice
    .next (((s.cleanWhere mine).flushWhere fun pa => mine pa && !s.pinned (pa / 128)).modMgmt fun m =>
      { m with slices := slice :: m.slices, failing := m.failing.filter (· != slice), contained := m.contained.filter (·.1 != slice) })

/-- QUARTER_RECALIBRATE of a quarter whose replays call for it: it issues nothing for up to 10,000 cycles; how many is a free
value. -/
def execQuarterRecalibrate (q : Nat) (s : State) : Host.Outcome State Fault Refusal :=
  if s.mgmt.slow.contains q then
    let n := (Config.freeValue s.fresh).toNat % 10001
    .next ({ s with fresh := s.fresh + 1 }.modMgmt fun m => { m with recal := Cells.set 0 m.recal q (s.clock + n), slow := m.slow.filter (· != q) })
  else .next s

/-! ### Attestation (R418) -/

def execGetDigests (s : State) : Host.Outcome State Fault Refusal := .next (s.answer (.digests Config.digests))
/-- GET_CERTIFICATE: the identity statement with its two signatures (R8, R418). -/
def execGetCertificate (s : State) : Host.Outcome State Fault Refusal :=
  .next (s.answer (.certificate Config.identity (Config.signature Config.identity)))
def execChallenge (nonce : Nat) (s : State) : Host.Outcome State Fault Refusal :=
  .next (s.answer (.challenge nonce (Config.signature [nonce])))

/-- The number of an image, and its version. -/
def Firmware.nums (x : Firmware) : List Nat := [x.image, x.version]
/-- What runs with its versions, the fuse version, each cluster's leaf and microcode, the configuration in force, and the last
boot's journal. -/
def State.measured (s : State) : List Nat :=
  let m := s.mgmt
  let last := m.journal.filter fun j => j.boot == m.boot
  (List.range 4).flatMap (fun c => (Cells.get {} m.runs c).nums) ++ [m.fuse]
    ++ (List.range 12).flatMap (fun k => (s.cluster k).leaf.nums ++ (s.cluster k).microcode.nums ++ [(s.cluster k).pool])
    ++ (List.range 6).map (fun d => (Cells.get slewDefault s.slewTab d).toNat) ++ m.active.flatMap (fun e => [e.1, e.2])
    ++ last.flatMap fun j => [j.boot.toNat, j.unit.toNat, j.step.toNat, j.way.toNat, j.result.toNat, j.detail.toNat]

def execGetMeasurements (s : State) : Host.Outcome State Fault Refusal :=
  .next (s.answer (.measurements s.measured (Config.signature s.measured)))

end Sys2Proof.Machine
end

