-- ==== Sys2Proof/Machine/Dispatch.lean ====
section
/-!
DEFINITION. The one dispatch from an instruction or event to its meaning, one arm per constructor.
-/

namespace Sys2Proof.Machine

def exec (i : Instr) (s : State) : Host.Outcome State Fault Refusal :=
  match i with
  | .sadd o => Sys2Proof.Machine.execSadd o s
  | .ssub o => Sys2Proof.Machine.execSsub o s
  | .smul o => Sys2Proof.Machine.execSmul o s
  | .smulh o => Sys2Proof.Machine.execSmulh o s
  | .sdiv o => Sys2Proof.Machine.execSdiv o s
  | .srem o => Sys2Proof.Machine.execSrem o s
  | .sand o => Sys2Proof.Machine.execSand o s
  | .sor o => Sys2Proof.Machine.execSor o s
  | .sxor o => Sys2Proof.Machine.execSxor o s
  | .sshl o => Sys2Proof.Machine.execSshl o s
  | .sshr o => Sys2Proof.Machine.execSshr o s
  | .srot o => Sys2Proof.Machine.execSrot o s
  | .smin o => Sys2Proof.Machine.execSmin o s
  | .smax o => Sys2Proof.Machine.execSmax o s
  | .sbitc o => Sys2Proof.Machine.execSbitc o s
  | .smov o => Sys2Proof.Machine.execSmov o s
  | .smovi o => Sys2Proof.Machine.execSmovi o s
  | .sset o => Sys2Proof.Machine.execSset o s
  | .ssel o => Sys2Proof.Machine.execSsel o s
  | .saddr o => Sys2Proof.Machine.execSaddr o s
  | .sext o => Sys2Proof.Machine.execSext o s
  | .sbfx o => Sys2Proof.Machine.execSbfx o s
  | .sbfi o => Sys2Proof.Machine.execSbfi o s
  | .sldp o => Sys2Proof.Machine.execSldp o s
  | .jmp o => Sys2Proof.Machine.execJmp o s
  | .jmpr o => Sys2Proof.Machine.execJmpr o s
  | .call o => Sys2Proof.Machine.execCall o s
  | .callr o => Sys2Proof.Machine.execCallr o s
  | .ret o => Sys2Proof.Machine.execRet o s
  | .brs o => Sys2Proof.Machine.execBrs o s
  | .brv o => Sys2Proof.Machine.execBrv o s
  | .bru o => Sys2Proof.Machine.execBru o s
  | .regang o => Sys2Proof.Machine.execRegang o s
  | .loopd o => Sys2Proof.Machine.execLoopd o s
  | .nop o => Sys2Proof.Machine.execNop o s
  | .plog o => Sys2Proof.Machine.execPlog o s
  | .pmov o => Sys2Proof.Machine.execPmov o s
  | .pcnt o => Sys2Proof.Machine.execPcnt o s
  | .pfirst o => Sys2Proof.Machine.execPfirst o s
  | .part o => Sys2Proof.Machine.execPart o s
  | .gset o => Sys2Proof.Machine.execGset o s
  | .grd o => Sys2Proof.Machine.execGrd o s
  | .lexit o => Sys2Proof.Machine.execLexit o s
  | .ejctl o => Sys2Proof.Machine.execEjctl o s
  | .vadd o => Sys2Proof.Machine.execVadd o s
  | .vsub o => Sys2Proof.Machine.execVsub o s
  | .vmul o => Sys2Proof.Machine.execVmul o s
  | .vmulh o => Sys2Proof.Machine.execVmulh o s
  | .vmad o => Sys2Proof.Machine.execVmad o s
  | .vdiv o => Sys2Proof.Machine.execVdiv o s
  | .vrem o => Sys2Proof.Machine.execVrem o s
  | .vand o => Sys2Proof.Machine.execVand o s
  | .vor o => Sys2Proof.Machine.execVor o s
  | .vxor o => Sys2Proof.Machine.execVxor o s
  | .vshl o => Sys2Proof.Machine.execVshl o s
  | .vshr o => Sys2Proof.Machine.execVshr o s
  | .vrot o => Sys2Proof.Machine.execVrot o s
  | .vmin o => Sys2Proof.Machine.execVmin o s
  | .vmax o => Sys2Proof.Machine.execVmax o s
  | .vabs o => Sys2Proof.Machine.execVabs o s
  | .vbitc o => Sys2Proof.Machine.execVbitc o s
  | .vbfx o => Sys2Proof.Machine.execVbfx o s
  | .vbfi o => Sys2Proof.Machine.execVbfi o s
  | .vaddc o => Sys2Proof.Machine.execVaddc o s
  | .vadds o => Sys2Proof.Machine.execVadds o s
  | .vcmp o => Sys2Proof.Machine.execVcmp o s
  | .vsel o => Sys2Proof.Machine.execVsel o s
  | .vmov o => Sys2Proof.Machine.execVmov o s
  | .vmovi o => Sys2Proof.Machine.execVmovi o s
  | .vbrd o => Sys2Proof.Machine.execVbrd o s
  | .vext o => Sys2Proof.Machine.execVext o s
  | .vsys o => Sys2Proof.Machine.execVsys o s
  | .vfadd o => Sys2Proof.Machine.execVfadd o s
  | .vfsub o => Sys2Proof.Machine.execVfsub o s
  | .vfmul o => Sys2Proof.Machine.execVfmul o s
  | .vfma o => Sys2Proof.Machine.execVfma o s
  | .vfmin o => Sys2Proof.Machine.execVfmin o s
  | .vfmax o => Sys2Proof.Machine.execVfmax o s
  | .vfclass o => Sys2Proof.Machine.execVfclass o s
  | .vfdiv o => Sys2Proof.Machine.execVfdiv o s
  | .vfsqrt o => Sys2Proof.Machine.execVfsqrt o s
  | .vfrcp o => Sys2Proof.Machine.execVfrcp o s
  | .vfrsq o => Sys2Proof.Machine.execVfrsq o s
  | .vfexp2 o => Sys2Proof.Machine.execVfexp2 o s
  | .vflog2 o => Sys2Proof.Machine.execVflog2 o s
  | .vfsin o => Sys2Proof.Machine.execVfsin o s
  | .vfcos o => Sys2Proof.Machine.execVfcos o s
  | .vftanh o => Sys2Proof.Machine.execVftanh o s
  | .vfscale o => Sys2Proof.Machine.execVfscale o s
  | .vfrnd o => Sys2Proof.Machine.execVfrnd o s
  | .vdot2 o => Sys2Proof.Machine.execVdot2 o s
  | .vdot4 o => Sys2Proof.Machine.execVdot4 o s
  | .vcvt o => Sys2Proof.Machine.execVcvt o s
  | .vpack o => Sys2Proof.Machine.execVpack o s
  | .vunpk o => Sys2Proof.Machine.execVunpk o s
  | .ffrd o => Sys2Proof.Machine.execFfrd o s
  | .ffclr o => Sys2Proof.Machine.execFfclr o s
  | .vshfl o => Sys2Proof.Machine.execVshfl o s
  | .vshfx o => Sys2Proof.Machine.execVshfx o s
  | .vbcast o => Sys2Proof.Machine.execVbcast o s
  | .vvote o => Sys2Proof.Machine.execVvote o s
  | .vmatch o => Sys2Proof.Machine.execVmatch o s
  | .vred o => Sys2Proof.Machine.execVred o s
  | .vscan o => Sys2Proof.Machine.execVscan o s
  | .vcmpr o => Sys2Proof.Machine.execVcmpr o s
  | .ld o => Sys2Proof.Machine.execLd o s
  | .st o => Sys2Proof.Machine.execSt o s
  | .lds o => Sys2Proof.Machine.execLds o s
  | .sts o => Sys2Proof.Machine.execSts o s
  | .atom o => Sys2Proof.Machine.execAtom o s
  | .atoms o => Sys2Proof.Machine.execAtoms o s
  | .cpy o => Sys2Proof.Machine.execCpy o s
  | .cpyg o => Sys2Proof.Machine.execCpyg o s
  | .bseal o => Sys2Proof.Machine.execBseal o s
  | .bwait o => Sys2Proof.Machine.execBwait o s
  | .swinit o => Sys2Proof.Machine.execSwinit o s
  | .fence o => Sys2Proof.Machine.execFence o s
  | .cpf o => Sys2Proof.Machine.execCpf o s
  | .cwb o => Sys2Proof.Machine.execCwb o s
  | .cinv o => Sys2Proof.Machine.execCinv o s
  | .icinv o => Sys2Proof.Machine.execIcinv o s
  | .hset o => Sys2Proof.Machine.execHset o s
  | .hgen o => Sys2Proof.Machine.execHgen o s
  | .mma o => Sys2Proof.Machine.execMma o s
  | .mmas o => Sys2Proof.Machine.execMmas o s
  | .mzero o => Sys2Proof.Machine.execMzero o s
  | .mcvt o => Sys2Proof.Machine.execMcvt o s
  | .mstat o => Sys2Proof.Machine.execMstat o s
  | .msclr o => Sys2Proof.Machine.execMsclr o s
  | .ocfence o => Sys2Proof.Machine.execOcfence o s
  | .mkinit o => Sys2Proof.Machine.execMkinit o s
  | .mkset o => Sys2Proof.Machine.execMkset o s
  | .mkadd o => Sys2Proof.Machine.execMkadd o s
  | .waitm o => Sys2Proof.Machine.execWaitm o s
  | .swait o => Sys2Proof.Machine.execSwait o s
  | .bar o => Sys2Proof.Machine.execBar o s
  | .bara o => Sys2Proof.Machine.execBara o s
  | .barw o => Sys2Proof.Machine.execBarw o s
  | .promote o => Sys2Proof.Machine.execPromote o s
  | .clsrd o => Sys2Proof.Machine.execClsrd o s
  | .yield o => Sys2Proof.Machine.execYield o s
  | .sleep o => Sys2Proof.Machine.execSleep o s
  | .svc o => Sys2Proof.Machine.execSvc o s
  | .trap o => Sys2Proof.Machine.execTrap o s
  | .tret o => Sys2Proof.Machine.execTret o s
  | .srd o => Sys2Proof.Machine.execSrd o s
  | .swr o => Sys2Proof.Machine.execSwr o s
  | .brk o => Sys2Proof.Machine.execBrk o s
  | .ckill o => Sys2Proof.Machine.execCkill o s
  | .ckpt o => Sys2Proof.Machine.execCkpt o s
  | .pair h0 h1 => Sys2Proof.Machine.execPair h0 h1 s
  | .pguard w => Sys2Proof.Machine.execPguard w s
  | .reservedOpcode w => Sys2Proof.Machine.execReservedOpcode w s
  | .trapEntry c => Sys2Proof.Machine.execTrapEntry c s
  | .watchdog c => Sys2Proof.Machine.execWatchdog c s
  | .passnChange cluster n => Sys2Proof.Machine.execPassnChange cluster n s
  | .shadowLatchReplay u => Sys2Proof.Machine.execShadowLatchReplay u s
  | .ejectLaneStart q => Sys2Proof.Machine.execEjectLaneStart q s
  | .laneRejoin q => Sys2Proof.Machine.execLaneRejoin q s
  | .ejectSoftPark c t => Sys2Proof.Machine.execEjectSoftPark c t s
  | .ejectOverdue c t => Sys2Proof.Machine.execEjectOverdue c t s
  | .courseRestore c => Sys2Proof.Machine.execCourseRestore c s
  | .sleepExpire p => Sys2Proof.Machine.execSleepExpire p s
  | .checkpointCopy c reg => Sys2Proof.Machine.execCheckpointCopy c reg s
  | .pageFaultRecord p => Sys2Proof.Machine.execPageFaultRecord p s
  | .pageFaultPark c => Sys2Proof.Machine.execPageFaultPark c s
  | .tileFetchDone k tile => Sys2Proof.Machine.execTileFetchDone k tile s
  | .mmaStart core => Sys2Proof.Machine.execMmaStart core s
  | .mmaComplete core => Sys2Proof.Machine.execMmaComplete core s
  | .mzeroComplete core => Sys2Proof.Machine.execMzeroComplete core s
  | .mcvtComplete core => Sys2Proof.Machine.execMcvtComplete core s
  | .slewStep die => Sys2Proof.Machine.execSlewStep die s
  | .copyChunkDone k chunk => Sys2Proof.Machine.execCopyChunkDone k chunk s
  | .copyChunkFault k chunk => Sys2Proof.Machine.execCopyChunkFault k chunk s
  | .blockStart b => Sys2Proof.Machine.execBlockStart b s
  | .blockEnd b => Sys2Proof.Machine.execBlockEnd b s
  | .launchRetire l => Sys2Proof.Machine.execLaunchRetire l s
  | .faultLogRecord k => Sys2Proof.Machine.execFaultLogRecord k s
  | .placementAttempt k => Sys2Proof.Machine.execPlacementAttempt k s
  | .placementRetry k => Sys2Proof.Machine.execPlacementRetry k s
  | .rotationAttempt cluster => Sys2Proof.Machine.execRotationAttempt cluster s
  | .clusterReassign cluster pool => Sys2Proof.Machine.execClusterReassign cluster pool s
  | .clusterOppointReady cluster => Sys2Proof.Machine.execClusterOppointReady cluster s
  | .hotSpotMigration b core => Sys2Proof.Machine.execHotSpotMigration b core s
  | .energyAttribution => Sys2Proof.Machine.execEnergyAttribution s
  | .energyCharge => Sys2Proof.Machine.execEnergyCharge s
  | .quotaPeriodBoundary ctx => Sys2Proof.Machine.execQuotaPeriodBoundary ctx s
  | .packetRead q => Sys2Proof.Machine.execPacketRead q s
  | .launchPacket q => Sys2Proof.Machine.execLaunchPacket q s
  | .waitmarks q => Sys2Proof.Machine.execWaitmarks q s
  | .setmark q => Sys2Proof.Machine.execSetmark q s
  | .regionInstall q => Sys2Proof.Machine.execRegionInstall q s
  | .regionUpdate q => Sys2Proof.Machine.execRegionUpdate q s
  | .regionRemove q => Sys2Proof.Machine.execRegionRemove q s
  | .regionRemoveComplete r => Sys2Proof.Machine.execRegionRemoveComplete r s
  | .leaseRequest q => Sys2Proof.Machine.execLeaseRequest q s
  | .leaseRelease q => Sys2Proof.Machine.execLeaseRelease q s
  | .nopPacket q => Sys2Proof.Machine.execNopPacket q s
  | .leaseGrant k grant => Sys2Proof.Machine.execLeaseGrant k grant s
  | .leaseRevoke k => Sys2Proof.Machine.execLeaseRevoke k s
  | .leaseEnd k => Sys2Proof.Machine.execLeaseEnd k s
  | .markReexamine w => Sys2Proof.Machine.execMarkReexamine w s
  | .waitPark q => Sys2Proof.Machine.execWaitPark q s
  | .queueDeadlock qs => Sys2Proof.Machine.execQueueDeadlock qs s
  | .queueEnable q v => Sys2Proof.Machine.execQueueEnable q v s
  | .queueDisable q v => Sys2Proof.Machine.execQueueDisable q v s
  | .queueKick q v => Sys2Proof.Machine.execQueueKick q v s
  | .queueErrorClear q => Sys2Proof.Machine.execQueueErrorClear q s
  | .registerWrite off v => Sys2Proof.Machine.execRegisterWrite off v s
  | .tlbInvalidate v => Sys2Proof.Machine.execTlbInvalidate v s
  | .tlbInvalidateDone => Sys2Proof.Machine.execTlbInvalidateDone s
  | .contextCreate n => Sys2Proof.Machine.execContextCreate n s
  | .contextSuspend n => Sys2Proof.Machine.execContextSuspend n s
  | .suspendComplete n => Sys2Proof.Machine.execSuspendComplete n s
  | .contextResume n => Sys2Proof.Machine.execContextResume n s
  | .contextDestroy n => Sys2Proof.Machine.execContextDestroy n s
  | .contextScb n => Sys2Proof.Machine.execContextScb n s
  | .contextLost n => Sys2Proof.Machine.execContextLost n s
  | .pfresp ctx idx => Sys2Proof.Machine.execPfresp ctx idx s
  | .svcdone ctx slot => Sys2Proof.Machine.execSvcdone ctx slot s
  | .schedulerFailover => Sys2Proof.Machine.execSchedulerFailover s
  | .leafUpdateCluster cluster => Sys2Proof.Machine.execLeafUpdateCluster cluster s
  | .leafDrainTimeout cluster => Sys2Proof.Machine.execLeafDrainTimeout cluster s
  | .schedulerHandover => Sys2Proof.Machine.execSchedulerHandover s
  | .coreMapOut core => Sys2Proof.Machine.execCoreMapOut core s
  | .dramRowSpare ch row => Sys2Proof.Machine.execDramRowSpare ch row s
  | .l2SliceDegrade slice => Sys2Proof.Machine.execL2SliceDegrade slice s
  | .quarterRecalibrate q => Sys2Proof.Machine.execQuarterRecalibrate q s
  | .wholeContextSwitch mode => Sys2Proof.Machine.execWholeContextSwitch mode s
  | .poolResume => Sys2Proof.Machine.execPoolResume s
  | .poolDrop => Sys2Proof.Machine.execPoolDrop s
  | .refugeWriteback all k => Sys2Proof.Machine.execRefugeWriteback all k s
  | .refugeDiscard all k => Sys2Proof.Machine.execRefugeDiscard all k s
  | .poolLinkLoss cause => Sys2Proof.Machine.execPoolLinkLoss cause s
  | .refugeMoveDone => Sys2Proof.Machine.execRefugeMoveDone s
  | .poolPortChange port up => Sys2Proof.Machine.execPoolPortChange port up s
  | .bisnp o => Sys2Proof.Machine.execBisnp o s
  | .poolWindowEnable w v => Sys2Proof.Machine.execPoolWindowEnable w v s
  | .poolWindowDisable w v => Sys2Proof.Machine.execPoolWindowDisable w v s
  | .hostDramAccess pa n write => Sys2Proof.Machine.execHostDramAccess pa n write s
  | .channelEnable ch v => Sys2Proof.Machine.execChannelEnable ch v s
  | .channelErrorClear ch => Sys2Proof.Machine.execChannelErrorClear ch s
  | .channelKick ch v => Sys2Proof.Machine.execChannelKick ch v s
  | .channelSend ch => Sys2Proof.Machine.execChannelSend ch s
  | .channelReceive ch m => Sys2Proof.Machine.execChannelReceive ch m s
  | .channelStateMessage ch enable error size => Sys2Proof.Machine.execChannelStateMessage ch enable error size s
  | .peerLinkDown l => Sys2Proof.Machine.execPeerLinkDown l s
  | .linkFlitRetry l => Sys2Proof.Machine.execLinkFlitRetry l s
  | .linkLaneDegrade l => Sys2Proof.Machine.execLinkLaneDegrade l s
  | .eccCorrected cls n => Sys2Proof.Machine.execEccCorrected cls n s
  | .eccUncorrectable cls d => Sys2Proof.Machine.execEccUncorrectable cls d s
  | .dramScrub ch => Sys2Proof.Machine.execDramScrub ch s
  | .l2Scrub slice => Sys2Proof.Machine.execL2Scrub slice s
  | .boot us => Sys2Proof.Machine.execBoot us s
  | .clearMapOut step unit => Sys2Proof.Machine.execClearMapOut step unit s
  | .requestUpdate => Sys2Proof.Machine.execRequestUpdate s
  | .passComponentTable cs => Sys2Proof.Machine.execPassComponentTable cs s
  | .updateComponent comp image => Sys2Proof.Machine.execUpdateComponent comp image s
  | .transferComplete comp => Sys2Proof.Machine.execTransferComplete comp s
  | .verifyComplete comp version => Sys2Proof.Machine.execVerifyComplete comp version s
  | .applyComplete comp => Sys2Proof.Machine.execApplyComplete comp s
  | .activateFirmware => Sys2Proof.Machine.execActivateFirmware s
  | .getStatus => Sys2Proof.Machine.execGetStatus s
  | .cancelUpdate => Sys2Proof.Machine.execCancelUpdate s
  | .channelMapOut ch => Sys2Proof.Machine.execChannelMapOut ch s
  | .getDigests => Sys2Proof.Machine.execGetDigests s
  | .getCertificate => Sys2Proof.Machine.execGetCertificate s
  | .challenge nonce => Sys2Proof.Machine.execChallenge nonce s
  | .getMeasurements => Sys2Proof.Machine.execGetMeasurements s
  | .saveAreaTailAdvance ctx ring v => Sys2Proof.Machine.execSaveAreaTailAdvance ctx ring v s
  | .hostSnoop o => Sys2Proof.Machine.execHostSnoop o s

end Sys2Proof.Machine
end

