-- ==== Sys2Proof/Machine/Schedule.lean ====
section
/-!
DEFINITION. The actions that may come next: an issue of each quarter and of each ejected lane, every event of the
device that is due, what caches, fetch buffers, engines and links do on their own (logs 2, 4 and 5); and what every cycle
does by itself.
-/

namespace Sys2Proof.Machine

/-- Something that may happen at a step. -/
inductive Action where
  | event (i : Instr)
  | issue (a : Agent)
  /-- The agent's fetch buffer takes the next line (R91). -/
  | prefetch (a : Agent)
  /-- A line leaves L2; a copy leaves its cache; a STREAM copy; a line of an instruction cache (log 4). The last three by
  their place. -/
  | evictLine (ln : Nat) | dropCopy (i : Nat) | dropStream (i : Nat) | dropCode (i : Nat)
  | beginChunk (i k : Nat) | beginTile (i t : Nat)
  /-- The oldest message on the link of a cluster arrives, at the scheduler core or at the leaf (R49). -/
  | deliver (k : Nat) (up : Bool)
  /-- A walker reads page-table entries of a context, for the scheduler core or for a course's core; held entries are removed
  (R219, R220). -/
  | walk (x : Nat) (c : Option Nat) | tlbRemove
  /-- The management controller restarts (R412). -/
  | restart
deriving DecidableEq, Repr, Inhabited

/-! ### An issue -/

/-- The instruction did not issue: it stalls, or its split stalls at a rendezvous as before. -/
def notIssued (before after : Wait) : Bool :=
  match before, after with
  | _, .stalled | _, .member _ | .join .., .join .. => true
  | _, _ => false
/-- An instruction that does not issue takes no part in issue choice and leaves the latches (R120, R121, R124): what
`beginIssue` did to `s` is undone in `t`. -/
def State.unissue (s t : State) : State :=
  match s.cur with
  | .course c k =>
    ({ t with quarters := s.quarters }.modCourse c fun x =>
      { x with last := (s.course c).last, regs := { x.regs with bl := (s.course c).regs.bl } }).modSplit c k fun x =>
        { x with last := (s.split c k).last }
  | .lane q => t.modLane q fun x => { x with last := (s.lane q).last }
  | .none => t
/-- An instruction that issues in one beat whatever the gangs of its split (R147, R265, R369). -/
def Instr.oneBeat (i : Instr) : Bool :=
  let n := match encode i with | some w => (opcOf w).toNat | none => 0
  Instr.isEngine i || (decide (1 ≤ n) && decide (n ≤ 0x18)) || (decide (0x20 ≤ n) && decide (n ≤ 0x2A) && n != 0x26 && n != 0x27)
    || (match i with | .ckpt o => o.x == 0 | _ => false)
/-- The gangs of an active set: its slices that hold a lane, eight to a gang (R115). -/
def gangsOf (a : Mask) : Nat → List Nat → List (List Nat)
  | 0, _ => []
  | fuel + 1, l => if l.isEmpty then [] else l.take 8 :: gangsOf a fuel (l.drop 8)
/-- Some gang writes a vector register in some but not all of its 32 physical lanes (R117). -/
def partWrites (a acted : Mask) : Bool :=
  (gangsOf a 3 (slicesOf a)).any fun g =>
    let lanes := g.flatMap fun n => (List.range 4).map (4 * n + ·)
    lanes.any acted.has && !(g.length == 8 && lanes.all acted.has)
/-- Beats of instruction `i` of the executing agent: one per gang and one more for a partial write, or one in all (R115, R117,
R147); one that issues with no lane active takes one (log 9). -/
def State.beats (s : State) (i : Instr) : Nat :=
  let u := usesOf i
  if Instr.oneBeat i then 1
  else max 1 (gangsOf s.active 3 (slicesOf s.active)).length + if !u.vw.isEmpty && partWrites s.active (s.usesMask u) then 1 else 0
/-- The core's meter counts the beats of an instruction that issued (R21). -/
def State.countBeats (s : State) (i : Instr) (t : State) : State :=
  match s.cur with
  | .course c _ => { t with served := (.core (s.coreOf c), s.launchIx c, s.beats i) :: t.served }
  | _ => t
/-- After an instruction `i` of the agent that `s` names: it issued or not; one that did may have branched (R91). -/
def State.afterIssue (s : State) (i : Instr) (t : State) : State :=
  if notIssued s.wait t.wait then s.unissue t
  else
    let u := s.countBeats i t
    if t.wait = .ready then s.afterFlow i (s.pc + Instr.len i) u else u

/-- The outcome with `f` applied to a next state. -/
def afterNext (f : State → State) : Host.Outcome State Fault Refusal → Host.Outcome State Fault Refusal
  | .next s => .next (f s)
  | .fault r => .fault r
  | .refused r => .refused r

/-- Issue for the agent that the state names: account for the issue, then a trap that is due, else fetch, decode
and execute. A fault of the fetch, and of a decoding that gives no instruction, comes inside a latch window that is open (log 54,
DESIGN CHOICE: R125 and R127 do not say whether what cannot be decoded closes the window first). -/
def issueStep (s : State) : Host.Outcome State Fault Refusal :=
  let s1 := s.beginIssue
  match s1.dueTrap with
  | some (e, s2) => s2.settleExn s.pc 0 e
  | none =>
    match s1.fetch with
    | .error e => s1.settleExn s.pc 0 e
    | .ok (i, s2) => afterNext (s.afterIssue i) (exec i s2)

/-- The agent's instruction would issue now. -/
def State.couldIssue (s : State) (a : Agent) : Bool :=
  let u := { s with cur := a }
  match issueStep u with
  | .next t => !notIssued u.wait t.wait
  | _ => true

/-! ### What every cycle does -/

/-- R314 for every block on a core. -/
def State.settleBars (s : State) : State :=
  (List.range s.blocks.length).foldl (fun s b => if (s.block b).st = .resident then s.judgeBars b else s) s

/-- The context's clock runs (R27, R361). -/
def State.clockRuns (s : State) (x : Nat) : Bool :=
  ((s.ctx x).st == .running && !s.restoring x) || (s.ctx x).st == .suspending
/-- What the meters of engines and quoin cores count in a cycle (R21, R282): the operation or the filler that runs, the
contexts occupied. -/
def State.countCycle (s : State) : State :=
  let runs := s.ops.filterMap fun o =>
    match o.core, o.started with
    | some core, some _ => some (Meter.engine core, s.launchIx o.course, 1)
    | _, _ => none
  let filler := s.cores.filterMap fun e =>
    if e.2.arrays = 0 ∨ runs.any (fun r => r.1 == .engine e.1) then none
    else e.2.filler.map fun l => (Meter.engine e.1, l, 1)
  let lanes := (s.lanes.filter fun q => q.st.live).map fun q => (Meter.quoin q.quoin, s.launchIx q.course, 1)
  { s with served := runs ++ filler ++ lanes ++ s.served }

/-- A line that a cache holds: how it leaves, whether it is to leave before others, whether it may leave now. -/
abbrev CacheLine := Action × Bool × Bool
/-- A line of L2 that no tile fetch pins and that is not on its way from the pool may leave (R263, R391). -/
def State.mayEvict (s : State) (ln : Nat) : Bool := !s.pinned ln && decide ((s.tag ln).due ≤ s.clock)
/-- The line leaves its cache; a STREAM copy is written back first (R222). -/
def State.evict (s : State) : Action → State
  | .evictLine ln => s.flushLine ln
  | .dropCopy i => { s with held := s.held.eraseIdx i }
  | .dropStream i =>
    match s.stream[i]? with
    | some x => let t := s.writeStream x; { t with stream := t.stream.eraseIdx i }
    | none => s
  | .dropCode i => { s with icache := s.icache.eraseIdx i }
  | _ => s
/-- A cache that holds more lines than it has room for gives some up; which of those that may leave is a free value. -/
def State.trim (cap : Nat) (lines : State → List CacheLine) : Nat → State → State
  | 0, s => s
  | fuel + 1, s =>
    let all := lines s
    if all.length ≤ cap then s
    else
      let free := all.filter (·.2.2)
      let pick := match free.filter (·.2.1) with | [] => free | fs => fs
      match pick[(Config.freeValue s.fresh).toNat % pick.length]? with
      | none => s
      | some e => State.trim cap lines fuel ({ s with fresh := s.fresh + 1 }.evict e.1)

/-- The copies of a cache, by place. -/
def State.copyLines (s : State) (cache : Nat) : List CacheLine :=
  (s.held.zipIdx.filter fun e => e.1.cache == cache).map fun e => (.dropCopy e.2, e.1.first, true)
/-- The lines of an L2 slice, with those of the copies that a die's private L2 holds there (R213, R293). -/
def State.sliceLines (s : State) (n : Nat) : List CacheLine :=
  ((s.wb.filter fun e => s.slice e.1 == n).map fun e => (.evictLine e.1, (s.tag e.1).first, s.mayEvict e.1))
    ++ (s.held.zipIdx.filter fun e =>
        e.1.cache == dieCache (n / 24) && sliceOf true (n / 24) e.1.line == n && !((s.tag e.1.line).die == n / 24 && !(Cells.get [] s.wb e.1.line).isEmpty)).map
      fun e => (.dropCopy e.2, e.1.first, true)
/-- The lines of a core's L1: leased copies and STREAM copies (R208). -/
def State.l1Lines (s : State) (core : Nat) : List CacheLine :=
  s.copyLines core
    ++ (s.stream.zipIdx.filter fun e => !e.1.l2 && match e.1.who with | .course c _ => s.coreOf c == core | _ => false).map
      fun e => (.dropStream e.2, e.1.first, true)
def State.codeLines (s : State) (core : Nat) : List CacheLine :=
  (s.icache.zipIdx.filter fun e => e.1.core == core).map fun e => (.dropCode e.2, false, true)

/-- Lines of an L2 slice: 4 MiB, half of it in a slice that was degraded (R5, R208, R416). -/
def State.sliceCap (s : State) (n : Nat) : Nat := if s.mgmt.slices.contains n then 16384 else 32768
/-- Lines of a core's L1 (R4). -/
def l1Cap (split : Nat) : Nat := (0x200000 - Config.scratchBytes split) / 128
/-- Lines of the instruction cache of a core, or of a quoin core (R91). -/
def codeCap (core : Nat) : Nat := if core < Config.cores then 2048 else 1024
/-- No cache holds more than it has room for (R4, R91, R208). -/
def State.trimCaches (s : State) : State :=
  let s1 := if s.wb.length + s.held.length ≤ 16384 then s
    else (List.range 144).foldl (fun s n => State.trim (s.sliceCap n) (fun t => t.sliceLines n) (s.sliceLines n).length s) s
  let s2 := if s1.held.length + s1.stream.length ≤ 5120 then s1
    else (List.range Config.cores).foldl (fun s k =>
      State.trim (l1Cap (s.coreSt k).split) (fun t => t.l1Lines k) (s.l1Lines k).length s) s1
  if s2.icache.length ≤ 1024 then s2
  else ((s2.icache.map (·.core)).eraseDups).foldl (fun s k => State.trim (codeCap k) (fun t => t.codeLines k) (s.codeLines k).length s) s2

/-- The cycle after a step that began at a clock and a tick: courses that can leave do, saved operations are queued again, engines reach the heads of their
queues, the clocks advance, limiters act at the new clock, caches stay within their room, and nobody executes (R27, R282,
R357, log 12). -/
def State.tickOver (clock tick : Nat) (s : State) : State :=
  let t := s.settleRooms.requeueOps.reachHeads.settleBars.countCycle.trimCaches
  let u := { t with
    clock := clock + 1
    ctxs := t.ctxs.zipIdx.map fun (e : Ctx × Nat) => if t.clockRuns e.2 then { e.1 with run := e.1.run + 1 } else e.1 }
  { u.slewAll with clock := clock + 1, tick := tick + 1, cur := .none }

/-! ### Issues -/

/-- An ejected lane may issue. -/
def State.laneReady (s : State) (q : Nat) : Bool :=
  let x := s.lane q
  x.st == .running && s.ctxRuns x.course
    && match x.wait with
      | .ready => true
      | .stalled | .join .. => s.couldIssue (.lane q)
      | .member _ => !s.memberOut x.wait && s.couldIssue (.lane q)
      | w => s.syncOver x.course w

/-- The issues that may come next: each quarter's choice, and ejected lanes. -/
def State.issues (s : State) : List Action :=
  let quarters := ((List.range s.courses.length).map s.quarterOf).eraseDups
  let chosen := quarters.filterMap (s.chooseSplit fun c k => s.couldIssue (.course c k))
  (chosen.filter fun e => !s.windowHeld e.1 e.2).map (fun e => .issue (.course e.1 e.2))
    ++ ((List.range s.lanes.length).filter s.laneReady).map fun q => .issue (.lane q)

/-! ### Events that are due -/

/-- An event where it is due. -/
def on (due : Bool) (i : Instr) : List Instr := if due then [i] else []

/-- A page fault of the party is not recorded yet. -/
def State.unrecorded (s : State) (p : Party) : Bool :=
  match s.pageOf p with
  | some f => f.record.isNone
  | none => false

/-- SLEEP_EXPIRE is due for the party. -/
def State.sleepDue (s : State) : Party → Bool
  | .course c k =>
    match (s.split c k).wait with
    | .sleep t => (s.course c).place == .resident && decide (t ≤ s.run c)
    | _ => false
  | .lane q =>
    match (s.lane q).wait with
    | .sleep t => decide (t ≤ s.clock)
    | _ => false
  | _ => false

/-- Events of course `c`. -/
def State.courseEvents (s : State) (c : Nat) : List Instr :=
  let x := s.course c
  on (s.trapDue c).isSome (.trapEntry c) ++ on (s.watchdogDue c) (.watchdog c)
    ++ ((List.range 8).flatMap fun t =>
      on (s.softDue c t) (.ejectSoftPark c t) ++ on (s.overdueDue c t) (.ejectOverdue c t))
    ++ on (x.place != .resident && (s.restoreRoom c).isSome) (.courseRestore c)
    ++ (if s.checkpointDue c then (match x.dirtyRegs with | [] => [.checkpointCopy c 0] | rs => rs.map fun r => .checkpointCopy c r)
      else [])
    ++ on (s.pageParkDue c) (.pageFaultPark c)
    ++ ((List.range x.splits.length).flatMap fun k =>
      on (s.sleepDue (.course c k)) (.sleepExpire (.course c k)) ++ on (s.unrecorded (.course c k)) (.pageFaultRecord (.course c k))
        ++ on (s.reexamineDue (.course c k)) (.markReexamine (.course c k)))

/-- Events of ejected lane `q`. -/
def State.laneEvents (s : State) (q : Nat) : List Instr :=
  on (s.laneStartDue q) (.ejectLaneStart q) ++ on (s.rejoinDue q) (.laneRejoin q)
    ++ on (s.sleepDue (.lane q)) (.sleepExpire (.lane q)) ++ on (s.unrecorded (.lane q)) (.pageFaultRecord (.lane q))
    ++ on (s.reexamineDue (.lane q)) (.markReexamine (.lane q))

/-- Events of copy `i`. -/
def State.copyEvents (s : State) (i : Nat) : List Instr :=
  on (s.unrecorded (.copy i)) (.pageFaultRecord (.copy i))
    ++ (List.range (s.copies.getD i default).todo.length).flatMap fun k =>
      match s.chunkOutcome i k with
      | some (_, _, .ok _) => [.copyChunkDone i k]
      | some (_, _, .error (.trap ..)) | some (_, _, .error (.page ..)) => [.copyChunkFault i k]
      | _ => []

/-- Events of engine operation `i`. -/
def State.opEvents (s : State) (i : Nat) : List Instr :=
  let o := s.ops.getD i default
  on (s.unrecorded (.op i)) (.pageFaultRecord (.op i))
    ++ (if s.fetches i && o.page.isNone then
      ((List.range o.tags.length).filter fun t => (o.tiles.getD t none).isNone).map fun t => .tileFetchDone i t
    else [])

/-- Events of the engine of a core. -/
def State.engineEvents (s : State) (core : Nat) : List Instr :=
  match s.engineHead core with
  | none => []
  | some (_, o) =>
    if o.started.isSome then
      on (decide (o.finish ≤ s.clock)) (match o.kind with
        | .mma | .mmas => .mmaComplete core
        | .mzero => .mzeroComplete core
        | .mcvt => .mcvtComplete core)
    else
      on (o.isMma && o.ready.isSome && !o.tiles.any (·.isNone) && decide ((s.coreSt core).arrays = 4)
        && decide (o.issued + 4 ≤ s.clock)) (.mmaStart core)

/-- Migrations that empty a cluster or a core (R414, R416). -/
def State.drainMoves (s : State) (b : Nat) : List Instr :=
  let core := (s.block b).core
  if (s.block b).st == .resident && ((s.cluster (core / 96)).drain.isSome || (Cells.get none s.mgmt.draining core).isSome) then
    match (List.range Config.cores).find? fun k => s.mayMigrate b k && (State.roomOn s s b k false).isSome with
    | some k => [.hotSpotMigration b k]
    | none => []
  else []

/-- Events of blocks, launches, regions and energy. -/
def State.workEvents (s : State) : List Instr :=
  let nb := List.range s.blocks.length
  (nb.flatMap fun b => on (s.startDue b) (.blockStart b) ++ on (s.endDue b) (.blockEnd b) ++ s.drainMoves b)
    ++ ((List.range s.launches.length).flatMap fun l => on (s.retireDue l) (.launchRetire l))
    ++ ((List.range s.courses.length).flatMap fun c => on (s.killDue c).isSome (.faultLogRecord c))
    ++ ((List.range s.ctxs.length).flatMap fun x =>
      on (s.markDue x).isSome (.faultLogRecord (s.courses.length + x))
        ++ on (match s.rootOf x with | some r => decide ((s.region r).boundary ≤ s.clock) | none => false) (.quotaPeriodBoundary x))
    ++ ((List.range s.regions.length).flatMap fun r => on (s.removeDue r) (.regionRemoveComplete r))
    ++ on (decide (s.energyAt < s.clock / 1024)) .energyAttribution ++ on (decide (s.chargeAt < s.clock / 65536)) .energyCharge

/-- A cycle of waits through queue `q`, found along the first dependence of each. -/
def State.cycleFrom (s : State) (q : Nat) : Nat → Nat → List Nat → Option (List Nat)
  | 0, _, _ => none
  | fuel + 1, k, path =>
    (s.dependsOn k).findSome? fun n =>
      if n = q then some (path ++ [k]) else if (path ++ [k]).contains n then none else s.cycleFrom q fuel n (path ++ [k])

/-- The queue has a packet to read or to process. -/
def State.queueReady (s : State) (q : Nat) : Bool :=
  let x := s.queue q
  x.enabled && !x.inError && !s.queueHeld q
    && match x.pkt with
      | none => decide (x.read.toNat < x.kick.toNat)
      | some p => orderOk x p && (p.type != 1 || (match s.queueCtx q with | some x => (s.ctx x).st == .running | none => true))
/-- The queue whose turn it is: of those that have a packet ready, the next in ascending number after the one served last; after
reset, queue 0 counts as that one (R45, log 32, DESIGN CHOICE: the rule says round-robin, and neither the order of a round nor its
start). -/
def State.turnQueue (s : State) : Option Nat :=
  let qs := s.queues.map (·.1)
  ((qs.filter fun q => decide (s.turn < q)) ++ qs.filter fun q => decide (q ≤ s.turn)).find? s.queueReady

/-- Reading and processing the packet of a queue. -/
def State.packetEvents (s : State) (q : Nat) : List Instr :=
  on (s.packetDue q) (.packetRead q) ++ on (s.head q 15).isSome (.nopPacket q) ++ on (s.head q 3).isSome (.setmark q)
    ++ on (s.head q 2).isSome (.waitmarks q) ++ on (s.head q 1).isSome (.launchPacket q)
    ++ (match s.regionOp q with | some 1 => [.regionUpdate q] | some 2 => [.regionRemove q] | some _ => [.regionInstall q] | none => [])
    ++ (match s.leaseOp q with | some 1 => [.leaseRelease q] | some _ => [.leaseRequest q] | none => [])
/-- Events of the wait that holds a queue. -/
def State.queueEvents (s : State) (q : Nat) : List Instr :=
  on (s.reexamineDue (.queue q)) (.markReexamine (.queue q)) ++ on (s.parkDue q) (.waitPark q)
    ++ (match s.cycleFrom q s.queues.length q [] with | some qs => [.queueDeadlock qs] | none => [])

/-- Events of leases: what the arbiter answers, and when it revokes, are free (log 32). -/
def State.leaseEvents (s : State) : List Instr :=
  s.leases.zipIdx.flatMap fun e =>
    (if e.1.st = .pending then [.leaseGrant e.2 true, .leaseGrant e.2 false] else [])
      ++ on (s.revocable e.1) (.leaseRevoke e.2) ++ on (s.leaseEndDue e.2) (.leaseEnd e.2)
/-- Answers that are due now (R52). -/
def State.urgent (s : State) : List Instr :=
  if s.mgmt.running then
    (List.range s.leases.length).flatMap fun i => if s.answerDue i then [.leaseGrant i true, .leaseGrant i false] else []
  else []

/-- Events of the scheduler core, which runs once the boot has passed step 10 (R408). -/
def State.schedulerEvents (s : State) : List Instr :=
  let ks := List.range Config.clusters
  (match s.turnQueue with | some q => s.packetEvents q | none => []) ++ (s.queues.flatMap fun e => s.queueEvents e.1)
    ++ ((List.range s.attempts.length).flatMap fun i =>
      on (s.attemptDue i).isSome (.placementAttempt i) ++ on (s.retryDue i).isSome (.placementRetry i))
    ++ (ks.flatMap fun k =>
      on (s.rotationDue k).isSome (.rotationAttempt k) ++ on (s.oppointDue k) (.clusterOppointReady k)
        ++ ([0, 1, 2].flatMap fun p => on (s.mayReassign k p) (.clusterReassign k p)))
    ++ s.leaseEvents

/-- The scheduler core switches L2 modes by itself for a context of the other mode that has work (R59). -/
def State.switchWanted (s : State) : Bool :=
  (List.range s.ctxs.length).any fun x =>
    let c := s.ctx x
    c.partitioned != s.partitioned && s.hasWork x
      && (c.st == .running || c.st == .resuming || (c.st == .suspended && c.bySched))

/-- Events of contexts, of the pool, of channels and of firmware. -/
def State.deviceEvents (s : State) : List Instr :=
  (s.ctxs.zipIdx.flatMap fun e =>
    on (s.suspendDue e.2) (.suspendComplete e.1.num) ++ on (s.resumeDue e.2).isSome (.contextResume e.1.num)
      ++ on (s.lostDue e.2) (.contextLost e.1.num))
    ++ on s.switchWanted (.wholeContextSwitch (if s.partitioned then 0 else 1))
    ++ on s.tlbSettled .tlbInvalidateDone ++ on s.poolMoving .refugeMoveDone
    ++ (s.channels.flatMap fun e => on (s.sendDue e.1) (.channelSend e.1))
    ++ (match s.mgmt.leaf with
      | some (k, _) =>
        on ((s.cluster k).drain.isNone || s.clusterEmpty k) (.leafUpdateCluster k) ++ on (s.drainOverdue k) (.leafDrainTimeout k)
      | none => [])
    ++ on s.handoverDue .schedulerHandover ++ on s.failoverDue .schedulerFailover
    ++ (s.mgmt.draining.flatMap fun e => on (s.coreEmpty e.1 || s.coreOverdue e.1) (.coreMapOut e.1))
    ++ (s.mgmt.sick.filter fun k => (Cells.get none s.mgmt.draining k).isNone).map (fun k => .coreMapOut k)
    ++ s.mgmt.hot.map (fun ch => .dramRowSpare ch (Config.freeValue s.fresh).toNat) ++ s.mgmt.slow.map (fun q => .quarterRecalibrate q)
    ++ (s.mgmt.failing.filter fun n => !s.containing n).map (fun n => .l2SliceDegrade n)

/-- Every event of the device that is due. -/
def State.dueEvents (s : State) : List Instr :=
  ((List.range s.courses.length).flatMap s.courseEvents) ++ ((List.range s.lanes.length).flatMap s.laneEvents)
    ++ ((List.range s.copies.length).flatMap s.copyEvents) ++ ((List.range s.ops.length).flatMap s.opEvents)
    ++ ((s.ops.filterMap (·.core)).eraseDups.flatMap s.engineEvents)
    ++ s.workEvents ++ (if s.mgmt.running && !s.mgmt.takeover then s.schedulerEvents else []) ++ s.deviceEvents

/-! ### What the device does on its own -/

/-- The agents that hold a line in their fetch buffers and not the next. -/
def State.prefetchers (s : State) : List Agent :=
  ((List.range s.courses.length).flatMap fun c =>
    if (s.course c).place == .resident && s.ctxRuns c then
      (((s.course c).splits.zipIdx.filter fun e => e.1.m != 0 && e.1.buf.length == 1).map fun e => Agent.course c e.2)
    else [])
    ++ (s.lanes.zipIdx.filter fun e => e.1.st == .running && e.1.buf.length == 1).map fun e => Agent.lane e.2

/-- Lines that leave caches, fetch buffers that are filled, chunks and tiles that begin, messages that arrive, walks and the
removal of translations, the management controller's restart. -/
def State.ownActions (s : State) : List Action :=
  s.prefetchers.map Action.prefetch
    ++ (s.wb.filter fun e => s.mayEvict e.1).map (fun e => .evictLine e.1)
    ++ (List.range s.held.length).map Action.dropCopy ++ (List.range s.stream.length).map Action.dropStream
    ++ (List.range s.icache.length).map Action.dropCode
    ++ ((List.range s.copies.length).flatMap fun i =>
      ((List.range (s.copies.getD i default).todo.length).filter fun k => s.mayBegin i k).map fun k => .beginChunk i k)
    ++ ((List.range s.ops.length).flatMap fun i =>
      if s.fetches i then (List.range (s.ops.getD i default).tags.length).map fun t => .beginTile i t else [])
    ++ ((List.range Config.clusters).flatMap fun k =>
      (if (s.cluster k).down.sent.isEmpty then [] else [.deliver k false]) ++ (if (s.cluster k).up.sent.isEmpty then [] else [.deliver k true]))
    ++ (List.range s.ctxs.length).map (fun x => .walk x none)
    ++ ((List.range s.courses.length).filter fun c => (s.course c).place != .ended).map (fun c => .walk (s.ctxOf c) (some c)) ++ (match s.tlbJob with | some (.remove ..) => [.tlbRemove] | _ => [])
    ++ if s.mgmt.controller.isSome then [.restart] else []

/-- Everything that may come next. -/
def State.enabled (s : State) : List Action :=
  match s.urgent with
  | [] => s.issues ++ s.dueEvents.map .event ++ s.ownActions
  | is => is.map .event

/-! ### Doing an action -/

/-- The launch for which an action moves lines, and the core or quoin core that asks for them (R21, R213). -/
def State.payer (s : State) : Action → Option (Nat × Nat)
  | .issue a | .prefetch a =>
    let u := { s with cur := a }
    if a = .none then none else some (s.launchIx u.curCourse, u.cacheOf)
  | .event (.copyChunkDone i _) | .beginChunk i _ => (s.copies[i]?).map fun y => (s.launchIx y.course, y.core)
  | .event (.tileFetchDone i _) | .beginTile i _ => (s.ops[i]?).bind fun o => o.core.map fun k => (s.launchIx o.course, k)
  | .walk _ (some c) => some (s.launchIx c, s.coreOf c)
  | _ => none
/-- What the copy engine moves at an action, and the lines that an engine reads through L2. -/
def State.engineWork (s : State) : Action → Nat × List Nat
  | .event (.copyChunkDone i k) =>
    match s.chunkOutcome i k with
    | some (_, _, .ok q) => (q.bytes.length, q.lines)
    | _ => (0, [])
  | .event (.tileFetchDone i t) => (0, s.tileLines i t)
  | .walk x (some _) => (0, walkedLines s ((Config.freeValue s.fresh).toNat % 2 ^ 57) walkLevels (s.ctx x).ptbase)
  | _ => (0, [])
/-- Lines that moved between a slice and what reads through it, and lines that moved between a slice and memory, from `s` to
`t`. -/
def linesMoved (s t : State) : List Nat × List Nat :=
  let lines := ((s.wb ++ t.wb).map (·.1)).eraseDups
  ((t.held.filter fun e => !s.held.contains e).map (·.line) ++ (t.stream.filter fun e => !s.stream.contains e).map (·.line)
      ++ (t.stamps.filter fun e => s.stamp e.1 != e.2).map (·.1),
    lines.filter fun ln => s.inL2 ln != t.inL2 ln || (s.tag ln).clean != (t.tag ln).clean)
/-- What the copy engine, slices and channels count for an action (R21): the slice is that of the core that asks, or the one that
holds the line (R213). -/
def State.account (s : State) (a : Action) (t : State) : State :=
  match s.payer a with
  | none => t
  | some (l, core) =>
    let work := s.engineWork a
    let moved := linesMoved s t
    let holder (ln : Nat) : Nat := if t.inL2 ln then t.slice ln else if s.inL2 ln then s.slice ln else sliceOf s.partitioned (dieOf core) ln
    { t with
      served := (if work.1 = 0 then [] else [(Meter.copier core, l, work.1)])
        ++ (work.2 ++ moved.1).map (fun ln => (.slice (sliceOf s.partitioned (dieOf core) ln), l, 1))
        ++ moved.2.map (fun ln => (.slice (holder ln), l, 1))
        ++ (moved.2.filter fun ln => isDram (128 * ln)).map (fun ln => (.channel (128 * ln / 0x18000000), l, 1)) ++ t.served }

/-- Do one action that may come. -/
def perform (s : State) (a : Action) : Host.Outcome State Fault Refusal :=
  afterNext (s.account a) (match a with
    | .event i => exec i s
    | .issue a => issueStep { s with cur := a }
    | .prefetch a => .next { { s with cur := a }.prefetch with cur := s.cur }
    | .beginChunk i k => .next (s.beginChunk i k)
    | .beginTile i t => .next (s.beginTile i t)
    | .deliver k up => .next (s.modCluster k fun x => if up then { x with up := x.up.deliver } else { x with down := x.down.deliver })
    | .walk x c => .next (s.walk x c)
    | .tlbRemove => .next s.tlbRemove
    | .restart => .next s.restartController
    | .evictLine _ | .dropCopy _ | .dropStream _ | .dropCode _ => .next (s.evict a))

end Sys2Proof.Machine
end

