-- ==== Sys2Proof/Machine/Step.lean ====
section
/-!
DEFINITION. One step of the device: an instruction of the agent chosen to issue, an outside event, an event of
the device that is due, or an idle cycle; then the clock advances by one cycle (logs 2 and 12).
-/

namespace Sys2Proof.Machine

/-- What one cycle performs before the clocks advance: an answer that is due, the outside event that comes, one action that may
come, or the instruction of the agent that the state names. -/
def act (s : State) : Host.Outcome State Fault Refusal :=
  if s.cur ≠ .none then perform s (.issue s.cur)
  else
    match s.inputs, s.urgent with
    | i :: rest, [] => exec i { s with inputs := rest }
    | _, _ =>
      match s.enabled with
      | [] => .next s
      | a :: as => perform s ((a :: as).getD (Config.order s.tick % (as.length + 1)) a)

/-- One step. -/
def step (s : State) : Host.Outcome State Fault Refusal := afterNext (State.tickOver s.clock s.tick) (act s)

/-- A course of one block on core 0, alone in a context, launch and region of its own, that stands at the start of
the line 0x1000, which its instruction cache holds with the word there; it issues at the next step. -/
def State.withFetchWord (s : State) (nbits w : Nat) : State :=
  let bytes := wordBytes (BitVec.ofNat 128 (w % 2 ^ nbits)) 16 ++ List.replicate 16 0
  { s with
    ctxs := s.ctxs ++ [{ num := 1 }]
    regions := s.regions ++ [{ ctx := s.ctxs.length, rcb := 0, maxCores := 1152, scratchKib := 0xFFFFFFFF
                               quotaMj := 0xFFFFFFFF, qlog := 20, periodMs := 1000, poolEn := true, state := 1, depth := 1
                               boundary := s.clock + 1750000000 }]
    launches := s.launches ++ [{ id := 1, ctx := s.ctxs.length, region := s.regions.length, admitted := 1, cls := 1
                                 st := .running
                                 desc := { coursesP := 1, regsP := 64, bdim := (96, 1, 1), ldim := (1, 1, 1)
                                           scratch := 65536, handler := 0x2000 } }]
    blocks := s.blocks ++ [{ launch := s.launches.length, index := 0, st := .resident, begun := true, spSize := 65536
                             courses := [s.courses.length] }]
    courses := s.courses ++ [{ block := s.blocks.length, index := 0, allot := 2048
                               splits := [{ pc := 0x1000, m := Mask.all, a := Mask.all }] }]
    icache := ⟨0, 1, 0x1000, 0x1000, bytes⟩ :: s.icache
    cur := .course s.courses.length 0 }

end Sys2Proof.Machine
end

