-- ==== Sys2Proof/Safety.lean ====
section
/-!
DEFINITION. The words in which claims are stated: when an instruction of a split or of an ejected lane may
complete, what it may change, and what a write of a register leaves.
-/

namespace Sys2Proof.Machine

/-! ### When an instruction completes -/

/-- The state in which instruction `i` does its work: a latch window that it is no part of is closed (R125) and its
agent waits no longer. -/
def State.entering (s : State) (i : Instr) : State := (s.closeWindow i).clearWait

/-- Nothing that the operand fields alone decide keeps instruction `i` of the executing agent from its effect: the agent
exists, every vector register named lies in its allotment (R72), an ejected lane may execute it (R138), no matrix
operation of the course holds a register of it (R266), and no register word that it reads is damaged, lost or still to
come (R386, R391); a matrix operation meets damage in its rows when it starts. -/
structure Ready (i : Instr) (s : State) : Prop where
  agent : s.hasAgent = true
  bounds : ∀ r ∈ (usesOf i).vr ++ (usesOf i).vw, r < (s.course s.curCourse).allot
  ejectable : s.isLane = true → ejectIllegal i = false
  free : s.rowsHeld i (usesOf i) = false
  sound : ∀ w ∈ usesParts i, s.damaged (if Instr.isEngine i then { w with vr := [] } else w) (s.usesMask w) = none

/-- The PC of the instruction after `i`, which stands at the agent's PC. -/
def State.nextPc (s : State) (i : Instr) : Word := s.pc + Instr.len i

/-! ### What an instruction may change -/

/-- A course without its registers, splits, dirty bits and latch window. -/
def Course.rest (x : Course) : Course := { x with regs := {}, splits := [], dirty := [], win := none }
/-- An ejected lane without its registers, PC and wait. -/
def Lane.rest (x : Lane) : Lane := { x with regs := {}, pc := 0, wait := .ready, since := 0, next := 0 }
/-- The device without its courses and ejected lanes: memory, caches, scratchpads, copies, matrix engines, queues, every
register of the host port. -/
def State.rest (s : State) : State := { s with courses := [], lanes := [] }

/-- The registers of the executing agent that an instruction may write. -/
structure Touch where
  v : List Nat := []
  s : List Nat := []
  p : List Nat := []
  g : List Nat := []
  flags : Bool := false
  latches : Bool := false

/-- What may be written by one of two instructions. -/
def Touch.join (a b : Touch) : Touch :=
  ⟨a.v ++ b.v, a.s ++ b.s, a.p ++ b.p, a.g ++ b.g, a.flags || b.flags, a.latches || b.latches⟩

/-- From `s` to `t` nothing changed but the registers `w` of the executing agent, its PC, its wait, the dirty bits of its
course and its course's latch window: no other register, no byte of memory, no other split, course or lane. -/
structure Frame (w : Touch) (s t : State) : Prop where
  rest : t.rest = s.rest
  mem : ∀ pol pa, t.readByte pol pa = s.readByte pol pa
  courses : ∀ c, (∀ k, s.cur ≠ .course c k) → t.courses[c]? = s.courses[c]?
  lanes : ∀ q, s.cur ≠ .lane q → t.lanes[q]? = s.lanes[q]?
  course : ∀ c, (t.course c).rest = (s.course c).rest
  lane : ∀ q, (t.lane q).rest = (s.lane q).rest
  splits : ∀ c k j, s.cur = .course c k → j ≠ k → t.split c j = s.split c j
  members : ∀ c k, (t.split c k).m = (s.split c k).m
  active : (∀ n ∈ w.s, n < 61) → t.active = s.active
  vregs : ∀ r, r ∉ w.v → ∀ l, l < 96 → t.vreg r l = s.vreg r l
  sregs : ∀ n, n ∉ w.s → (n < 61 ∨ ∀ m ∈ w.s, m < 61) → t.sreg n = s.sreg n
  pregs : ∀ n, n ∉ w.p → t.preg n = s.preg n
  gregs : ∀ n, n ∉ w.g → t.greg n = s.greg n
  flags : w.flags = false → t.regs.flags = s.regs.flags
  latches : w.latches = false → t.regs.bl = s.regs.bl
  special : t.regs.tscr0 = s.regs.tscr0 ∧ t.regs.tscr1 = s.regs.tscr1 ∧ t.regs.srseed = s.regs.srseed

/-- `t` holds what a write of `v` into scalar `d` leaves, the agent of `s` having executed it: s0 reads 0; s1 to s60 hold
the value; s61 to s63 replace 32 lanes of a split's active set by those of the value that are members, and leave an
ejected lane's alone (R118, R138, R146). -/
structure WroteS (s t : State) (d : Nat) (v : Word) : Prop where
  zero : d = 0 → t.sreg 0 = 0
  plain : 0 < d → d < 61 → t.sreg d = v
  split : ∀ c k, s.cur = .course c k → 61 ≤ d → t.active = setMaskWord s.active (d - 61) v &&& (s.split c k).m
  ejected : ∀ q, s.cur = .lane q → 61 ≤ d → t.active = s.active

/-- `t` holds what a write of predicate `n` in the lanes `m` leaves: those lanes take their bits of `v`, the others keep
theirs, and p0 stays all ones (R161). -/
def WroteP (s t : State) (n : Nat) (m v : Mask) : Prop :=
  t.preg n = if n = 0 then Mask.all else (s.preg n &&& ~~~m) ||| (v &&& m)

/-- In `t` the agent stands at `pc` and waits for nothing, and nothing but `w` changed. -/
structure Goes (pc : Word) (w : Touch) (s t : State) : Prop where
  pc : t.pc = pc
  ready : t.wait = .ready
  frame : Frame w s t

/-- Instruction `i` is done in `t`, and the next one in sequence follows. -/
def Done (i : Instr) (w : Touch) (s t : State) : Prop := Goes (s.nextPc i) w s t

/-! ### Results of scalar instructions (R145, R148) -/

/-- The types of a scalar instruction (R145). -/
def ScalarTy (t : ElemTy) : Prop := t = .i32 ∨ t = .n32 ∨ t = .i64 ∨ t = .n64

/-- The result of a scalar operation of a type: `f` on the low 32 bits of the sources, sign- or zero-extended into the
register, or `g` on whole registers (R145). -/
def byWidth (t : ElemTy) (f : BitVec 32 → BitVec 32 → BitVec 32) (g : Word → Word → Word) (a b : Word) : Word :=
  match t with
  | .i32 => (f (a.truncate 32) (b.truncate 32)).signExtend 64
  | .n32 => (f (a.truncate 32) (b.truncate 32)).zeroExtend 64
  | _ => g a b

/-- `f` for a signed type, `g` for an unsigned one. -/
def bySign (t : ElemTy) (f g : α) : α := if t = .i32 ∨ t = .i64 then f else g

/-- High half of the product of two signed and of two unsigned numbers. -/
def mulHighS (w : Nat) (a b : BitVec w) : BitVec w := (a.signExtend (2 * w) * b.signExtend (2 * w)).extractLsb' w w
def mulHighU (w : Nat) (a b : BitVec w) : BitVec w := (a.zeroExtend (2 * w) * b.zeroExtend (2 * w)).extractLsb' w w
/-- Quotients and remainders, all ones and the dividend by zero. -/
def quotS (a b : BitVec w) : BitVec w := if b = 0 then BitVec.allOnes w else a.sdiv b
def quotU (a b : BitVec w) : BitVec w := if b = 0 then BitVec.allOnes w else a / b
def restS (a b : BitVec w) : BitVec w := if b = 0 then a else a.srem b
def restU (a b : BitVec w) : BitVec w := if b = 0 then a else a % b
/-- The lesser and the greater of two numbers. -/
def lessS (a b : BitVec w) : BitVec w := if b.slt a then b else a
def lessU (a b : BitVec w) : BitVec w := if b.ult a then b else a
def moreS (a b : BitVec w) : BitVec w := if a.slt b then b else a
def moreU (a b : BitVec w) : BitVec w := if a.ult b then b else a
/-- Bit counts and reversal by SUB: ones, leading zeros, trailing zeros, reverse order. -/
def countBits (sub : Nat) (b : BitVec w) : BitVec w :=
  match sub with
  | 0 => BitVec.ofNat w ((List.range w).countP fun i => b.getLsbD i)
  | 1 => BitVec.ofNat w (((List.range w).takeWhile fun i => !b.getMsbD i).length)
  | 2 => BitVec.ofNat w (((List.range w).takeWhile fun i => !b.getLsbD i).length)
  | _ => b.reverse

/-- Conditions 0 EQ, 1 NE, 2 LT, 3 LE, 4 GT, 5 GE on signed or unsigned numbers (R149). -/
def compares (cond : Nat) (signed : Bool) (a b : BitVec w) : Bool :=
  let lt (x y : BitVec w) : Bool := if signed then x.slt y else x.ult y
  match cond with
  | 0 => a == b
  | 1 => a != b
  | 2 => lt a b
  | 3 => !lt b a
  | 4 => lt b a
  | _ => !lt a b

/-! ### Results of vector instructions (R123 to R125, R188) -/

/-- Those of the source fields `fs` that name latches name ones that are valid in every lane of `m` (R124). -/
def State.latchesOk (s : State) (m : Mask) (fs : List (BitVec 12)) : Prop :=
  ∀ f ∈ fs, f.getLsbD 11 = true → ∀ l < 96, m.has l = true → (s.latch (f.toNat % 4)).valid.has l = true

/-- Where a vector result goes: register `d`, or `d` and `d + 1` where it is 64 bits wide; with write-back suppressed a
32-bit result goes into the latch alone. -/
structure Dest where
  d : Nat
  wide : Bool
  ws : Bool

def Dest.regs (x : Dest) : List Nat := if x.wide then [x.d, x.d + 1] else if x.ws then [] else [x.d]
def Dest.touch (x : Dest) : Touch := { v := x.regs, flags := true, latches := true }
/-- The destination of an element-wise instruction of type `t` (R166). -/
def destOf (t : ElemTy) (d : BitVec 11) (ws : Bool) : Dest := ⟨d.toNat, is64 t, ws⟩

/-- `t` holds what a vector result `val` of the lanes `m` leaves: the destination in those lanes, and in BL0, which is
invalid after a 64-bit result; the older latches have moved up one (R123). -/
structure WroteV (s t : State) (x : Dest) (m : Mask) (val : Nat → Word) : Prop where
  reg : x.wide = false → x.ws = false → ∀ l < 96, t.vreg x.d l = if m.has l then (val l).truncate 32 else s.vreg x.d l
  pair : x.wide = true → ∀ l < 96, t.vpair x.d l = if m.has l then val l else s.vpair x.d l
  valid : ∀ l < 96, (t.latch 0).valid.has l = (!x.wide && m.has l)
  latch : x.wide = false → ∀ l < 96, m.has l = true → Cells.get 0 (t.latch 0).val l = (val l).truncate 32
  older : ∀ k < 3, t.latch (k + 1) = s.latch k

/-- The operands of vector instruction `i` permit it: it is ready, and every latch it reads is valid in the acted lanes. -/
structure VReady (i : Instr) (m : Mask) (fs : List (BitVec 12)) (s : State) : Prop where
  ready : Ready i s
  latches : s.latchesOk m fs

/-- Vector instruction `i` completes with the values `val` of the lanes `m` and the flags `fl`: the destination, the latches
and the flag word change so, and nothing else. -/
def VDone (i : Instr) (x : Dest) (m : Mask) (s : State) (val : Nat → Word) (fl : BitVec 6) : Prop :=
  ∃ t, exec i s = .next t ∧ Done i x.touch s t ∧ WroteV s t x m val ∧ t.regs.flags = s.regs.flags ||| fl

/-! ### Elements (R165, R166) -/

/-- Element `j` of a lane value of type `t`. -/
def elemOf (t : ElemTy) (v : Word) (j : Nat) : BitVec (elemBits t) := v.extractLsb' (elemBits t * j) (elemBits t)

/-- Every element of `v` is `f` of the elements of `a` and `b`. -/
def Elems (t : ElemTy) (f : BitVec (elemBits t) → BitVec (elemBits t) → BitVec (elemBits t)) (a b v : Word) : Prop :=
  ∀ j < tyElems t, elemOf t v j = f (elemOf t a j) (elemOf t b j)

/-- The number that element `j` stands for. -/
def elemInt (t : ElemTy) (v : Word) (j : Nat) : Int :=
  if signedTy t then (elemOf t v j).toInt else (elemOf t v j).toNat

/-- The exact integer `x` as an element, wrapped, or under SAT the nearest number of the type (R190). -/
def narrow (t : ElemTy) (sat : Bool) (x : Int) : BitVec (elemBits t) :=
  let lo : Int := if signedTy t then -2 ^ (elemBits t - 1) else 0
  let hi : Int := if signedTy t then 2 ^ (elemBits t - 1) - 1 else 2 ^ elemBits t - 1
  BitVec.ofInt _ (if sat then max lo (min hi x) else x)
/-- Narrowing `x` loses its value to saturation. -/
def saturates (t : ElemTy) (sat : Bool) (x : Int) : Prop :=
  sat = true ∧ (x < (if signedTy t then -2 ^ (elemBits t - 1) else 0)
    ∨ (if signedTy t then 2 ^ (elemBits t - 1) - 1 else 2 ^ elemBits t - 1) < x)

/-- The results `val` of an exact integer operation `x` on each element of each lane of `m`, and its flags: SAT and NX
where one saturated, else none (R190). -/
def Exact (t : ElemTy) (sat : Bool) (m : Mask) (x : Nat → Nat → Int) (val : Nat → Word) (fl : BitVec 6) : Prop :=
  (∀ l < 96, m.has l = true → ∀ j < tyElems t, elemOf t (val l) j = narrow t sat (x l j))
    ∧ ((∃ l < 96, m.has l = true ∧ ∃ j < tyElems t, saturates t sat (x l j)) → fl = fSAT ||| fNX)
    ∧ ((∀ l < 96, m.has l = true → ∀ j < tyElems t, ¬saturates t sat (x l j)) → fl = 0)

/-- Bit `j` of a field of `w` bits of `a` at `pos`: beyond bit w − 1 copies of the sign, or zeros (R149, R192). -/
def fieldBit (signed : Bool) (a : BitVec w) (pos j : Nat) : Bool :=
  if pos + j < w then a.getLsbD (pos + j) else signed && a.getMsbD 0

/-- The results `val` and flags `fl` of results `pre` before their rounding step (R173 to R178): each element is its own
result finished under the mode and SAT of `mod` (under SR with a 16-bit hash), and a flag is set where one sets it. -/
def Rounded (t : ElemTy) (mod : BitVec 4) (m : Mask) (pre : Nat → Nat → Pre) (val : Nat → Word) (fl : BitVec 6) : Prop :=
  ∃ hash : Nat → Nat → Nat, (∀ l j, hash l j < 65536) ∧
    let done (l j : Nat) := (pre l j).finish (mod.toNat % 8) (mod.getLsbD 3) (hash l j)
    (∀ l < 96, m.has l = true → ∀ j < tyElems t, elemOf t (val l) j = BitVec.ofNat _ (done l j).1)
      ∧ ∀ k < 6, fl.getLsbD k = true ↔ ∃ l < 96, m.has l = true ∧ ∃ j < tyElems t, (done l j).2.getLsbD k = true

/-- The same of results that need no rounding step. -/
def Codes (t : ElemTy) (m : Mask) (res : Nat → Nat → Nat × BitVec 6) (val : Nat → Word) (fl : BitVec 6) : Prop :=
  (∀ l < 96, m.has l = true → ∀ j < tyElems t, elemOf t (val l) j = BitVec.ofNat _ (res l j).1)
    ∧ ∀ k < 6, fl.getLsbD k = true ↔ ∃ l < 96, m.has l = true ∧ ∃ j < tyElems t, (res l j).2.getLsbD k = true

/-! ### Collectives (R135, R201 to R206) -/

/-- Lanes that no split can bring to a collective (R135): at a REGANG, on a re-entry stack, ejected or exited. -/
def State.absentLanes (s : State) (c : Nat) : Mask :=
  (s.course c).atRegang ||| (s.course c).arrivedLanes ||| (s.course c).stackedLanes ||| s.ejectedLanes c ||| (s.course c).exited
/-- Split `k` of course `c` can perform a collective over the lanes `mem` at once: none of them is absent, none belongs to another
split, and no split stalls for this one (R135). -/
structure MeetsAlone (s : State) (c k : Nat) (mem : Mask) : Prop where
  present : mem &&& s.absentLanes c = 0
  own : ∀ j, j ≠ k → (s.split c j).m &&& mem = 0
  first : (s.course c).joiners k = []

/-- The tree of R186 over 2^d values from position `p`. -/
def treeOf (f : α → α → α) (v : Nat → α) : Nat → Nat → α
  | 0, p => v p
  | d + 1, p => f (treeOf f v d p) (treeOf f v d (p + 2 ^ d))
/-- The value of a block of `n` positions (R186). -/
def blockOfTree (f : α → α → α) (v : Nat → α) (n : Nat) : α :=
  if n = 96 then f (f (treeOf f v 5 0) (treeOf f v 5 32)) (treeOf f v 5 64) else treeOf f v n.log2 0
/-- The 32 bits of a mask of lanes. -/
def bitsOf (f : Nat → Bool) : Word := (List.range 32).foldl (fun v j => if f j then v ||| BitVec.twoPow 64 j else v) 0

/-- Operations 0 to 5 of VRED and VSCAN on elements of a type (R186, R205). -/
def reduceOp (t : ElemTy) (op : Nat) (a b : BitVec (elemBits t)) : BitVec (elemBits t) :=
  if t = .f32 then
    let x := FF.f32.toExt a.toNat
    let y := FF.f32.toExt b.toNat
    let pick (least : Bool) : Nat :=
      if x.isNan then (if y.isNan then 0x7FC00000 else b.toNat)
      else if y.isNan then a.toNat
      else if x.lt y then (if least then a.toNat else b.toNat)
      else if y.lt x then (if least then b.toNat else a.toNat)
      else if a.toNat.testBit 31 = least then a.toNat else b.toNat
    BitVec.ofNat _ (match op with
      | 0 => (FF.f32.round 0 false 0 (Ext.add false x y).1).1
      | 1 => pick true
      | _ => pick false)
  else
    match op with
    | 0 => a + b
    | 1 => if signedTy t then lessS a b else lessU a b
    | 2 => if signedTy t then moreS a b else moreU a b
    | 3 => a &&& b
    | 4 => a ||| b
    | _ => a ^^^ b
/-- What a lane that does not contribute stands for (R186, R205). -/
def reduceUnit (t : ElemTy) (op : Nat) : BitVec (elemBits t) :=
  match op with
  | 0 => if t = .f32 then BitVec.ofNat _ 0x80000000 else 0
  | 1 => if t = .f32 then BitVec.ofNat _ 0x7F800000
    else if signedTy t then BitVec.allOnes _ >>> 1 else BitVec.allOnes _
  | 2 => if t = .f32 then BitVec.ofNat _ 0xFF800000 else if signedTy t then BitVec.intMin _ else 0
  | 3 => BitVec.allOnes _
  | _ => 0

/-! ### Events -/

/-- An event of the device, which no word stands for. -/
def isEvent : Instr → Bool
  | .trapEntry _ | .watchdog _ | .passnChange _ _
  | .shadowLatchReplay _ | .ejectLaneStart _ | .laneRejoin _ | .ejectSoftPark _ _ | .ejectOverdue _ _
  | .courseRestore _ | .sleepExpire _ | .checkpointCopy _ _ | .pageFaultRecord _ | .pageFaultPark _
  | .tileFetchDone _ _ | .mmaStart _ | .mmaComplete _ | .mzeroComplete _ | .mcvtComplete _
  | .slewStep _ | .copyChunkDone _ _ | .copyChunkFault _ _ | .blockStart _ | .blockEnd _
  | .launchRetire _ | .faultLogRecord _ | .placementAttempt _ | .placementRetry _ | .rotationAttempt _
  | .clusterReassign _ _ | .clusterOppointReady _ | .hotSpotMigration _ _ | .energyAttribution
  | .energyCharge | .quotaPeriodBoundary _ | .packetRead _ | .launchPacket _ | .waitmarks _
  | .setmark _ | .regionInstall _ | .regionUpdate _ | .regionRemove _ | .regionRemoveComplete _
  | .leaseRequest _ | .leaseRelease _ | .nopPacket _ | .leaseGrant _ _ | .leaseRevoke _ | .leaseEnd _
  | .markReexamine _ | .waitPark _ | .queueDeadlock _ | .queueEnable _ _ | .queueDisable _ _
  | .queueKick _ _ | .queueErrorClear _ | .registerWrite _ _ | .tlbInvalidate _ | .tlbInvalidateDone
  | .contextCreate _ | .contextSuspend _ | .suspendComplete _ | .contextResume _ | .contextDestroy _
  | .contextScb _ | .contextLost _ | .pfresp _ _ | .svcdone _ _ | .poolResume | .poolDrop
  | .refugeWriteback _ _ | .refugeDiscard _ _ | .poolLinkLoss _ | .refugeMoveDone | .poolPortChange _ _
  | .bisnp _ | .poolWindowEnable _ _ | .poolWindowDisable _ _ | .hostDramAccess _ _ _
  | .channelEnable _ _ | .channelErrorClear _ | .channelKick _ _ | .channelSend _ | .channelReceive _ _
  | .channelStateMessage _ _ _ _ | .peerLinkDown _ | .linkFlitRetry _ | .linkLaneDegrade _
  | .eccCorrected _ _ | .eccUncorrectable _ _ | .dramScrub _ | .l2Scrub _ | .schedulerFailover
  | .boot _ | .clearMapOut _ _ | .requestUpdate | .passComponentTable _ | .updateComponent _ _
  | .transferComplete _ | .verifyComplete _ _ | .applyComplete _ | .activateFirmware | .getStatus
  | .cancelUpdate | .leafUpdateCluster _ | .leafDrainTimeout _ | .schedulerHandover | .coreMapOut _
  | .dramRowSpare _ _ | .channelMapOut _ | .l2SliceDegrade _ | .quarterRecalibrate _ | .getDigests
  | .getCertificate | .challenge _ | .getMeasurements | .saveAreaTailAdvance _ _ _
  | .wholeContextSwitch _ | .hostSnoop _ => true
  | _ => false

/-! ### Memory (R208, R214, R222, R233 to R246) -/

/-- The canonical form of what holds bytes: physical memory, the lines of L2, and the copies of lines, which have 128 bytes
each. -/
def State.memoryWf (s : State) : Bool :=
  Cells.wf Config.memFill s.mem && Cells.wf [] s.wb && s.wb.all (fun e => e.2.length == 128)
    && s.held.all (fun e => e.bytes.length == 128) && s.stream.all fun x => x.bytes.length == 128

/-- The canonical form of the bytes of every scratchpad (R210). -/
def State.padsWf (s : State) : Bool := s.blocks.all fun x => Cells.wf 0 x.sp

/-- The state without what an access may change: bytes of memory and scratchpads, what caches hold, timestamps and leases,
poison, the choices between racing values, and what of the issuers' accesses is in flight (R391). -/
def State.bare (s : State) : State :=
  { s with
    mem := [], wb := [], tags := [], stamps := [], held := [], stream := [], shadows := [], poison := [], linePoison := []
    fresh := 0
    blocks := s.blocks.map fun x => { x with sp := [], spPoison := [], spTime := [] }
    courses := s.courses.map fun x => { x with owed := [], sight := {}, chunkTimes := [], regs := x.regs.landed }
    lanes := s.lanes.map fun x => { x with owed := [], sight := {}, regs := x.regs.landed } }

/-- A byte of a place as the agent's own last store, or else the last store of all, left it: on a STREAM page that of the
agent's copy. -/
def State.byteAt (s : State) (x : Loc) (i : Nat) : Byte :=
  match x with
  | .phys f => if f.pol = 1 then s.streamByte (f.pa + i) else s.readByte f.pol (f.pa + i)
  | .pad b off => Cells.get 0 (s.block b).sp (off + i)
/-- Byte `i` of one place is byte `j` of another, be it through two windows of the pool (R399). -/
def State.same (s : State) (x : Loc) (i : Nat) (y : Loc) (j : Nat) : Bool :=
  match x, y with
  | .phys f, .phys g => s.memKey (f.pa + i) == s.memKey (g.pa + j)
  | .pad b off, .pad b' off' => b == b' && off + i == off' + j
  | _, _ => false
/-- No other window of the pool shows the `n` bytes of the place (R399). -/
def State.shownOnce (s : State) (x : Loc) (n : Nat) : Prop :=
  ∀ f, x = .phys f → ∀ i < n, ∀ b, s.memKey b = s.memKey (f.pa + i) → b = f.pa + i
/-- No two addresses show the same byte, as two windows of the pool may let them (R399). -/
def State.oneView (s : State) : Prop := ∀ a b, s.memKey a = s.memKey b → a = b
/-- Another party took a line back and stored to some of its bytes: nothing else of memory changed, a byte that it stored to
holds its last store, and any other one what the device had of it, in its one STREAM copy or in L2 (R394, R401). -/
structure TakenBack (s t : State) (line : Nat) (stores : List (Nat × Byte)) : Prop where
  others : ∀ pa, pa / 128 ≠ line → t.memByte pa = s.memByte pa
  stored : ∀ pa b, pa / 128 = line → (stores.reverse.find? fun e => e.1 == pa) = some (pa, b) → t.memByte pa = b
  stream : ∀ pa x, pa / 128 = line → (stores.reverse.find? fun e => e.1 == pa) = none →
    s.stream.filter (fun y => y.line == line) = [x] → x.changed.getLsbD (pa % 128) = true →
    t.memByte pa = x.bytes.getD (pa % 128) 0
  held : ∀ pa, pa / 128 = line → (stores.reverse.find? fun e => e.1 == pa) = none → (∀ y ∈ s.stream, y.line ≠ line) →
    t.memByte pa = if (s.tag line).clean then s.memByte pa else s.wbByte pa
/-- The place is no device register. -/
def Loc.plain : Loc → Prop
  | .phys f => f.pol ≠ 3
  | .pad _ _ => True
/-- The place is on an uncached page. -/
def Loc.uncached : Loc → Prop
  | .phys f => f.pol = 2
  | .pad _ _ => False

/-- From `u` to `t` only bytes changed: those of memory that `hit` names by policy and address, and those of scratchpads
that `pads` names. -/
structure OnlyBytes (u t : State) (hit : Nat → Nat → Prop) (pads : Nat → Nat → Prop) : Prop where
  bare : t.bare = u.bare
  bytes : ∀ pol pa, ¬hit pol pa → t.readByte pol pa = u.readByte pol pa
  stream : ∀ pa, ¬hit 1 pa → t.streamByte pa = u.streamByte pa
  pads : ∀ b off, ¬pads b off → Cells.get 0 (t.block b).sp off = Cells.get 0 (u.block b).sp off

/-- From `u` to `t` no byte of memory, of the executing agent's STREAM copies or of a scratchpad changed, and nothing beside
what caches hold, timestamps and accesses in flight: what a load does. -/
def OnlySeen (u t : State) : Prop := OnlyBytes u t (fun _ _ => False) fun _ _ => False

/-- A load of the executing agent may return `v` as byte `i` of a place (R285 to R287, R296): on a WB page the byte of the last
store, or that of a copy of the line in a cache of the agent; on other pages the byte itself. -/
def State.mayShow (s : State) (x : Loc) (i : Nat) (v : Byte) : Prop :=
  v = s.byteAt x i
    ∨ ∃ f, x = .phys f ∧ f.pol = 0 ∧ ∃ e ∈ s.held, e.line = (f.pa + i) / 128
        ∧ (e.cache = s.cacheOf ∨ (s.partitioned = true ∧ e.cache = dieCache (dieOf s.cacheOf)))
        ∧ v = e.bytes.getD ((f.pa + i) % 128) 0

/-- Byte `i` of a value of the bytes `bs`, extended by zeros or by the sign of the last byte. -/
def extByte (bs : List Byte) (signed : Bool) (i : Nat) : Byte :=
  if i < bs.length then bs.getD i 0 else if signed && (bs.getLastD 0).msb then 0xFF else 0

/-- A store of `n` bytes to each of the places `xs` may change these bytes, and those that another window of the pool shows in
their place (R399); a release at POOL or SYSTEM scope also writes dirty lines back, which an uncached read sees, and one
through another window (R241). -/
def State.hitBy (s : State) (xs : List Acc) (n : Acc → Nat) (flush : Bool) (pol pa : Nat) : Prop :=
  (∃ x ∈ xs, ∃ f, x.loc = .phys f ∧ ∃ i < n x, s.memKey (f.pa + i) = s.memKey pa)
    ∨ (flush = true ∧ ((pol ≠ 0 ∧ pol ≠ 1) ∨ ∃ b, b ≠ pa ∧ s.memKey b = s.memKey pa))
def padHitBy (xs : List Acc) (n : Acc → Nat) (b off : Nat) : Prop :=
  ∃ x ∈ xs, ∃ o, x.loc = .pad b o ∧ o ≤ off ∧ off < o + n x

/-- The new value of an atomic (R243). -/
def atomValue (t : ElemTy) (op : Nat) (old a b : BitVec (elemBits t)) : BitVec (elemBits t) :=
  match op with
  | 0 => old + a
  | 1 => if signedTy t then lessS old a else lessU old a
  | 2 => if signedTy t then moreS old a else moreU old a
  | 3 => old &&& a
  | 4 => old ||| a
  | 5 => old ^^^ a
  | 6 => a
  | 7 => if old = a then b else old
  | _ => BitVec.ofNat _ (FF.f32.round 0 false 0 (Ext.add false (FF.f32.toExt old.toNat) (FF.f32.toExt a.toNat)).1).1

/-- The value of `n` bytes at a place, least significant first (R14). -/
def State.valueAt (s : State) (x : Loc) (n : Nat) : Nat := leNat ((List.range n).map (s.byteAt x))

/-! ### Traps (R342 to R348) -/

/-- Course `c` takes a trap at once: it is on its core to stay, not at trap level, has a handler, and its core runs fewer
handlers than it can and owes no older trap (R345, R347). -/
structure CanTrap (s : State) (c : Nat) : Prop where
  resident : (s.course c).place = .resident
  level : (s.course c).trap.level = false
  handler : (s.launchOf c).desc.handler ≠ 0
  stays : (s.course c).leaving = none
  room : s.handlers (s.coreOf c) < Config.handlersPerCore
  first : s.trapsWait (s.coreOf c) = false

/-- A course without its trap state, registers, splits, dirty bits and latch window. -/
def Course.untrapped (x : Course) : Course := { x.rest with trap := {} }

/-- From `s` to `t` split `k` of course `c` took a trap: the trap registers say what was raised, the split stands at HANDLER,
and no register, no byte of memory and nothing of another course changed (R343 to R345). -/
structure Traps (s t : State) (c k code lane : Nat) (pc addr info : Word) (window : Bool := false)
    (batches : List Nat := []) : Prop where
  state : (t.course c).trap =
    { level := true, nested := false, cause := BitVec.ofNat 64 (code + if window then 512 else 0)
      lane := BitVec.ofNat 64 lane, pc := pc, addr := addr, info := info, opc := (s.course c).trap.opc
      ocause := (s.course c).trap.ocause, split := k, since := s.run c, parked := 0, batches := batches }
  split : t.split c k = { s.split c k with pc := (s.launchOf c).desc.handler, wait := .ready, handler := true, buf := [] }
  splits : ∀ j, j ≠ k → t.split c j = { s.split c j with handler := false }
  regs : (t.course c).regs = (s.course c).regs
  course : (t.course c).untrapped = (s.course c).untrapped
  courses : ∀ d, d ≠ c → t.courses[d]? = s.courses[d]?
  lanes : t.lanes = s.lanes
  rest : t.rest = s.rest

/-- Of the executing agent's registers nothing changed but `w`. -/
structure Keeps (w : Touch) (s t : State) : Prop where
  vregs : ∀ r, r ∉ w.v → ∀ l, l < 96 → t.vreg r l = s.vreg r l
  sregs : ∀ n, n < 61 → n ∉ w.s → t.sreg n = s.sreg n
  pregs : ∀ n, n ∉ w.p → t.preg n = s.preg n
  gregs : ∀ n, n ∉ w.g → t.greg n = s.greg n
  flags : w.flags = false → t.regs.flags = s.regs.flags
  latches : w.latches = false → t.regs.bl = s.regs.bl
  cur : t.cur = s.cur

/-- The executing split waits for `w` at its instruction `i`; nothing else changed but that its course's latch window may
have closed. -/
structure Waits (i : Instr) (w : Wait) (s t : State) : Prop where
  wait : t.wait = w
  pc : t.pc = s.pc
  next : ∀ c k, s.cur = .course c k → w ≠ .stalled → (t.split c k).next = s.nextPc i
  frame : Frame {} s t

end Sys2Proof.Machine
end

