-- ==== Sys2Proof/WellFormed.lean ====
section
/-!
DEFINITION. When an instruction is well formed: its operand fields are ones its entry allows (R71 to R83), and
an event names units that the device has.
-/

namespace Sys2Proof

/-- The word of an ill-formed instruction raises ILLEGAL_OP or ILLEGAL_PAIR. PGUARD is well formed when its word holds opcode
0xFE, a reserved opcode when its word holds one and a length that there is (R68, R88). -/
def Instr.wellFormed : Instr → Bool
  | .pair h0 h1 => Machine.legalOp (.pair h0 h1) && Machine.pairLegal h0 h1
  | .pguard w => opcOf (w.zeroExtend 128) == 0xFE
  | .reservedOpcode w =>
    let v := w.zeroExtend 128
    opcOf v != 0xFE && (lenOf v).toNat != 3 && (formatOf (opcOf v)).isNone
  | i => Machine.legalOp i

end Sys2Proof
end

