-- ==== Sys2Proof/Laws/PerInstr.lean ====
section
/-!
SUPPORT. Decoding and encoding agree, instruction by instruction.
-/

namespace Sys2Proof.Laws.RoundTrip

open Machine

set_option linter.unusedSimpArgs false

/-! ### Fields of encoded words -/

theorem bits_lo (x : BitVec v) (y : BitVec w) {s n : Nat} (h : s + n ≤ w) :
    (x ++ y).extractLsb' s n = y.extractLsb' s n := by
  apply BitVec.eq_of_getLsbD_eq
  intro i hi
  simp only [BitVec.getLsbD_extractLsb', BitVec.getLsbD_append, hi, decide_true, Bool.true_and, show s + i < w by omega, if_true]

theorem bits_hi (x : BitVec v) (y : BitVec w) {s n : Nat} (h : w ≤ s) :
    (x ++ y).extractLsb' s n = x.extractLsb' (s - w) n := by
  apply BitVec.eq_of_getLsbD_eq
  intro i hi
  simp only [BitVec.getLsbD_extractLsb', BitVec.getLsbD_append, hi, decide_true, Bool.true_and, show ¬s + i < w by omega, if_false,
    show s + i - w = s - w + i by omega]

theorem bit_lo (x : BitVec v) (y : BitVec w) {s : Nat} (h : s < w) : (x ++ y).getLsbD s = y.getLsbD s := by
  simp only [BitVec.getLsbD_append, h, if_true]

theorem bit_hi (x : BitVec v) (y : BitVec w) {s : Nat} (h : w ≤ s) : (x ++ y).getLsbD s = x.getLsbD (s - w) := by
  simp only [BitVec.getLsbD_append, show ¬s < w by omega, if_false]

theorem bits_all (x : BitVec w) : x.extractLsb' 0 w = x := by simp

theorem bits_none (n : Nat) : (0#w).extractLsb' s n = 0 := by simp

theorem tyOf_tyCode (t : ElemTy) : tyOf (tyCode t).toNat = some t := by cases t <;> rfl

theorem decS3_enc (opc : BitVec 8) (o : S3) : decS3 (encRaw (.s3 opc o)) = some o := by
  obtain ⟨d, a, b, ty, sub⟩ := o
  cases b <;> (simp (disch := omega) only [encRaw, encSHeader, encHeader, decS3, sClass, zeros, tyAt, lenIs, narrowOrWide, lenOf, bit,
    bits, bits_lo, bits_hi, bit_lo, bit_hi]; simp [bits_all, tyOf_tyCode])

theorem decBr_enc (opc : BitVec 8) (o : Br) (h : o.ej.isSome = true → o.wide = true) : decBr (encRaw (.br opc o)) = some o := by
  obtain ⟨wide, off, p, n, tok, s, u, ej⟩ := o
  cases ej with
  | none =>
    cases wide <;> (simp (disch := omega) only [encRaw, encLen, encSHeader, encHeader, decBr, sClass, zeros, lenIs, narrowOrWide, lenOf, bit,
      bits, bits_lo, bits_hi, bit_lo, bit_hi]; simp [bits_all, tyOf_tyCode])
  | some e =>
    obtain rfl : wide = true := h rfl
    (simp (disch := omega) only [encRaw, encLen, encSHeader, encHeader, decBr, sClass, zeros, lenIs, narrowOrWide, lenOf, bit,
      bits, bits_lo, bits_hi, bit_lo, bit_hi]; simp [bits_all, tyOf_tyCode])

theorem decP3_enc (opc : BitVec 8) (o : P3) : decP3 (encRaw (.p3 opc o)) = some o := by
  obtain ⟨wide, ⟨pr, ng⟩, d, a, b, sub⟩ := o
  cases wide <;> (simp (disch := omega) only [encRaw, encLen, encHeader, decP3, zeros, narrowOrWide, lenOf, guardOf, bit,
    bits, bits_lo, bits_hi, bit_lo, bit_hi]; simp [bits_all, tyOf_tyCode])

theorem decV3_enc (opc : BitVec 8) (o : V3) : decV3 (encRaw (.v3 opc o)) = some o := by
  obtain ⟨wide, ⟨pr, ng⟩, ws, d, a, b, sub, ty, mod⟩ := o
  cases wide <;> (simp (disch := omega) only [encRaw, encLen, encHeader, decV3, tyAt, narrowOrWide, lenOf, guardOf, bit,
    bits, bits_lo, bits_hi, bit_lo, bit_hi]; simp [bits_all, tyOf_tyCode])

theorem decV4_enc (opc : BitVec 8) (o : V4) : decV4 (encRaw (.v4 opc o)) = some o := by
  obtain ⟨⟨pr, ng⟩, ws, d, a, b, c, sub, ty, mod, imm⟩ := o
  simp (disch := omega) only [encRaw, encLen, encHeader, decV4, tyAt, lenIs, lenOf, guardOf, bit,
    bits, bits_lo, bits_hi, bit_lo, bit_hi]
  simp [bits_all, tyOf_tyCode]

theorem decVi_enc (opc : BitVec 8) (o : Vi) : decVi (encRaw (.vi opc o)) = some o := by
  obtain ⟨⟨pr, ng⟩, ws, d, a, sub, ty, mod, imm⟩ := o
  simp (disch := omega) only [encRaw, encLen, encHeader, decVi, zeros, tyAt, lenIs, lenOf, guardOf, bit,
    bits, bits_lo, bits_hi, bit_lo, bit_hi]
  simp [bits_all, tyOf_tyCode]

theorem decMem_enc (opc : BitVec 8) (o : Mem) : decMem (encRaw (.mem opc o)) = some o := by
  obtain ⟨⟨pr, ng⟩, d, base, idx, shift, size, ty, as, scope, hint, ord, sub, off, ixe⟩ := o
  simp (disch := omega) only [encRaw, encLen, encHeader, decMem, zeros, tyAt, lenIs, lenOf, guardOf, bit,
    bits, bits_lo, bits_hi, bit_lo, bit_hi]
  simp [bits_all, tyOf_tyCode]

theorem decCp_enc (opc : BitVec 8) (o : Cp) : decCp (encRaw (.cp opc o)) = some o := by
  obtain ⟨⟨pr, ng⟩, db, das, sb, sas, sw, ds, ss, rows, rowb, idx, sub, ty, hint, scope⟩ := o
  simp (disch := omega) only [encRaw, encLen, encHeader, decCp, zeros, tyAt, lenIs, lenOf, guardOf, bit,
    bits, bits_lo, bits_hi, bit_lo, bit_hi]
  simp [bits_all, tyOf_tyCode]

theorem decSys_enc (opc : BitVec 8) (o : Sys) : decSys (encRaw (.sys opc o)) = some o := by
  obtain ⟨wide, d, a, b, x, imm⟩ := o
  cases wide <;> (simp (disch := omega) only [encRaw, encLen, encSHeader, encHeader, decSys, sClass, zeros, narrowOrWide, lenOf, bit,
    bits, bits_lo, bits_hi, bit_lo, bit_hi]; simp [bits_all, tyOf_tyCode])

theorem decMx_enc (opc : BitVec 8) (o : Mx) : decMx (encRaw (.mx opc o)) = some o := by
  obtain ⟨⟨pr, ng⟩, d, a, ha, hb, hc, ts, shape, sub, ty, mod, s, imm⟩ := o
  simp (disch := omega) only [encRaw, encLen, encHeader, decMx, zeros, tyAt, lenIs, lenOf, guardOf, bit,
    bits, bits_lo, bits_hi, bit_lo, bit_hi]
  simp [bits_all, tyOf_tyCode]

theorem decPair_enc (h0 h1 : Half) : decHalf (encRaw (.pair h0 h1)) 16 = some h0 ∧ decHalf (encRaw (.pair h0 h1)) 72 = some h1 := by
  obtain ⟨op, ⟨pr, ng⟩, ws, d, a, b, ty, mod⟩ := h0
  obtain ⟨op', ⟨pr', ng'⟩, ws', d', a', b', ty', mod'⟩ := h1
  constructor <;> (simp (disch := omega) only [encRaw, encLen, encSHeader, encHeader, decHalf, zeros, tyAt, lenIs, lenOf, guardOf, bit,
    bits, bits_lo, bits_hi, bit_lo, bit_hi]; simp [bits_all, tyOf_tyCode])

/-- The opcode of an operand record's word. -/
def opcRaw : Raw → BitVec 8
  | .s3 c _ | .br c _ | .p3 c _ | .v3 c _ | .v4 c _ | .vi c _ | .mem c _ | .cp c _ | .sys c _ | .mx c _ => c
  | .pair _ _ => 0xF0

theorem opcOf_enc (r : Raw) : opcOf (encRaw r) = opcRaw r := by
  cases r with
  | s3 c o =>
    obtain ⟨d, a, b, ty, sub⟩ := o
    cases b <;> (simp (disch := omega) only [encRaw, opcRaw, encSHeader, encHeader, opcOf, bits, bits_lo, bits_hi]; simp [bits_all, tyOf_tyCode])
  | br c o =>
    obtain ⟨wide, off, p, n, tok, s, u, ej⟩ := o
    cases ej <;> (simp (disch := omega) only [encRaw, opcRaw, encSHeader, encHeader, opcOf, bits, bits_lo, bits_hi]; simp [bits_all, tyOf_tyCode])
  | _ => (simp (disch := omega) only [encRaw, opcRaw, encSHeader, encHeader, opcOf, bits, bits_lo, bits_hi]; simp [bits_all, tyOf_tyCode])

theorem lenOf_enc (r : Raw) : (lenOf (encRaw r)).toNat ≠ 3 := by
  cases r with
  | s3 c o =>
    obtain ⟨d, a, b, ty, sub⟩ := o
    cases b <;> (simp (disch := omega) only [encRaw, encSHeader, encHeader, lenOf, bits, bits_lo, bits_hi]; simp [bits_all, tyOf_tyCode])
  | br c o =>
    obtain ⟨wide, off, p, n, tok, s, u, ej⟩ := o
    cases ej <;> cases wide <;> (simp (disch := omega) only [encRaw, encSHeader, encHeader, encLen, lenOf, bits, bits_lo, bits_hi]; simp [bits_all, tyOf_tyCode])
  | p3 c o =>
    obtain ⟨wide, g, d, a, b, sub⟩ := o
    cases wide <;> (simp (disch := omega) only [encRaw, encSHeader, encHeader, encLen, lenOf, bits, bits_lo, bits_hi]; simp [bits_all, tyOf_tyCode])
  | v3 c o =>
    obtain ⟨wide, g, ws, d, a, b, sub, ty, mod⟩ := o
    cases wide <;> (simp (disch := omega) only [encRaw, encSHeader, encHeader, encLen, lenOf, bits, bits_lo, bits_hi]; simp [bits_all, tyOf_tyCode])
  | sys c o =>
    obtain ⟨wide, d, a, b, x, imm⟩ := o
    cases wide <;> (simp (disch := omega) only [encRaw, encSHeader, encHeader, encLen, lenOf, bits, bits_lo, bits_hi]; simp [bits_all, tyOf_tyCode])
  | _ => (simp (disch := omega) only [encRaw, encSHeader, encHeader, lenOf, bits, bits_lo, bits_hi]; simp [bits_all, tyOf_tyCode])

/-- The format that an operand record's opcode has to have. -/
def fmtRaw : Raw → Format
  | .s3 _ _ => .s3 | .br _ _ => .br | .p3 _ _ => .p3 | .v3 _ _ => .v3 | .v4 _ _ => .v4 | .vi _ _ => .vi
  | .mem _ _ => .mem | .cp _ _ => .cp | .sys _ _ => .sys | .mx _ _ => .mx | .pair _ _ => .pair

/-- HOFF stands in the extension word of the widened form only (R76). -/
def brOk : Raw → Prop
  | .br _ o => o.ej.isSome = true → o.wide = true
  | _ => True

theorem decRaw_enc (r : Raw) (hf : formatOf (opcRaw r) = some (fmtRaw r)) (hb : brOk r) : decRaw (encRaw r) = some r := by
  have ho := opcOf_enc r
  cases r with
  | pair h0 h1 =>
    obtain ⟨e0, e1⟩ := decPair_enc h0 h1
    have hl : lenIs (encRaw (.pair h0 h1)) 2 = some () := by
      simp (disch := omega) only [lenIs, lenOf, encRaw, encSHeader, encHeader, bits, bits_lo, bits_hi]
      simp
    have hz : zeros (encRaw (.pair h0 h1)) 10 6 = some () := by
      simp (disch := omega) only [zeros, encRaw, encSHeader, encHeader, bits, bits_lo, bits_hi]
      simp
    simp only [opcRaw] at ho
    simp [decRaw, ho, formatOf, e0, e1, hl, hz]
  | br c o =>
    simp only [opcRaw, fmtRaw] at ho hf
    simp [decRaw, ho, hf, opcRaw, decBr_enc c o hb]
  | _ =>
    simp only [opcRaw, fmtRaw] at ho hf
    simp [decRaw, ho, hf, opcRaw, decS3_enc, decP3_enc, decV3_enc, decV4_enc, decVi_enc, decMem_enc, decCp_enc, decSys_enc,
      decMx_enc]

theorem decode_enc {i : Instr} {r : Raw} (ho : ofRaw r = some i) (hf : formatOf (opcRaw r) = some (fmtRaw r))
    (hfe : opcRaw r ≠ 0xFE) (hb : brOk r) (hl : legalOp i = true) (hp : ∀ h0 h1, i = .pair h0 h1 → pairLegal h0 h1 = true) :
    decode (encRaw r) = .ok i := by
  simp only [decode, opcOf_enc, hfe, if_false, lenOf_enc, hf, Option.isNone_some, Bool.false_eq_true, decRaw_enc r hf hb,
    Option.bind_some, ho, hl, Bool.not_true]
  split
  · rw [hp _ _ rfl, if_pos rfl]
  · rfl

/-! ### The family -/

/-- An event has no word; a well-formed instruction has one, and it decodes to the instruction. -/
def Statement (i : Instr) : Prop :=
  if isEvent i = true then encode i = none ∧ ∀ w, decode w ≠ .ok i
  else Instr.wellFormed i = true → ∃ w, encode i = some w ∧ decode w = .ok i

theorem of_word {i : Instr} {r : Raw} (hv : isEvent i = false) (he : encode i = some (encRaw r)) (ho : ofRaw r = some i)
    (hf : formatOf (opcRaw r) = some (fmtRaw r)) (hfe : (opcRaw r != 0xFE) = true) (hb : legalOp i = true → brOk r)
    (hl : Instr.wellFormed i = true → legalOp i = true ∧ ∀ h0 h1, i = .pair h0 h1 → pairLegal h0 h1 = true) : Statement i := by
  simp only [Statement, hv, Bool.false_eq_true, if_false]
  intro hw
  obtain ⟨hlo, hp⟩ := hl hw
  exact ⟨_, he, decode_enc ho hf (by simpa using hfe) (hb hlo) hlo hp⟩

theorem ofRaw_event (r : Raw) : (ofRaw r).all (fun i => !isEvent i) = true := by
  cases r <;> simp only [ofRaw]
  all_goals first | rfl | (split <;> rfl)

theorem of_event {i : Instr} (hv : isEvent i = true) (hn : encode i = none) : Statement i := by
  simp only [Statement, hv, if_true]
  refine ⟨hn, fun w h => ?_⟩
  have none_of {r : Raw} (hr : ofRaw r = some i) : False := by
    have := ofRaw_event r
    simp [hr, hv] at this
  simp only [decode] at h
  split at h
  · cases h; cases hv
  · split at h
    · cases h
    · split at h
      · cases h; cases hv
      · split at h
        · cases h
        · rename_i j hj
          obtain ⟨r, -, hr⟩ := Option.bind_eq_some_iff.mp hj
          have : j = i := by
            split at h
            · cases h
            · split at h
              · split at h
                · exact Except.ok.inj h
                · cases h
              · exact Except.ok.inj h
          exact none_of (this ▸ hr)

theorem brLegal_ej {o : Br} {a b c d e f : Bool} (h : brLegal o a b c d e f = true) : o.ej.isSome = true → o.wide = true := by
  simp only [brLegal, Bool.and_eq_true, Option.isNone_iff_eq_none] at h
  simp [h.2]

theorem word_low (w : BitVec 64) : (0#64 ++ w : BitVec 128) = w.zeroExtend 128 := by
  apply BitVec.eq_of_toNat_eq
  rw [BitVec.toNat_append]
  have := w.isLt
  simp only [BitVec.toNat_ofNat, BitVec.truncate_eq_setWidth, BitVec.toNat_setWidth]
  simp
  omega

theorem low_word (w : BitVec 64) : bits (w.zeroExtend 128) 0 64 = w := by
  apply BitVec.eq_of_toNat_eq
  simp only [bits, BitVec.extractLsb'_toNat, BitVec.truncate_eq_setWidth, BitVec.toNat_setWidth]
  have := w.isLt
  omega

theorem brvOk (o : Br) (h : legalOp (.brv o) = true) : o.ej.isSome = true → o.wide = true := by
  have h2 : (brLegal { o with ej := none } true false true true false true && (o.ej.isNone || o.wide)) = true := h
  simp only [Bool.and_eq_true, Bool.or_eq_true] at h2
  intro e
  cases h2.2 with
  | inl x => simp_all
  | inr x => exact x

theorem sadd (o) : Statement (.sadd o) := of_word rfl rfl rfl rfl rfl (fun _ => trivial) fun h => ⟨h, fun _ _ e => nomatch e⟩
theorem ssub (o) : Statement (.ssub o) := of_word rfl rfl rfl rfl rfl (fun _ => trivial) fun h => ⟨h, fun _ _ e => nomatch e⟩
theorem smul (o) : Statement (.smul o) := of_word rfl rfl rfl rfl rfl (fun _ => trivial) fun h => ⟨h, fun _ _ e => nomatch e⟩
theorem smulh (o) : Statement (.smulh o) := of_word rfl rfl rfl rfl rfl (fun _ => trivial) fun h => ⟨h, fun _ _ e => nomatch e⟩
theorem sdiv (o) : Statement (.sdiv o) := of_word rfl rfl rfl rfl rfl (fun _ => trivial) fun h => ⟨h, fun _ _ e => nomatch e⟩
theorem srem (o) : Statement (.srem o) := of_word rfl rfl rfl rfl rfl (fun _ => trivial) fun h => ⟨h, fun _ _ e => nomatch e⟩
theorem sand (o) : Statement (.sand o) := of_word rfl rfl rfl rfl rfl (fun _ => trivial) fun h => ⟨h, fun _ _ e => nomatch e⟩
theorem sor (o) : Statement (.sor o) := of_word rfl rfl rfl rfl rfl (fun _ => trivial) fun h => ⟨h, fun _ _ e => nomatch e⟩
theorem sxor (o) : Statement (.sxor o) := of_word rfl rfl rfl rfl rfl (fun _ => trivial) fun h => ⟨h, fun _ _ e => nomatch e⟩
theorem sshl (o) : Statement (.sshl o) := of_word rfl rfl rfl rfl rfl (fun _ => trivial) fun h => ⟨h, fun _ _ e => nomatch e⟩
theorem sshr (o) : Statement (.sshr o) := of_word rfl rfl rfl rfl rfl (fun _ => trivial) fun h => ⟨h, fun _ _ e => nomatch e⟩
theorem srot (o) : Statement (.srot o) := of_word rfl rfl rfl rfl rfl (fun _ => trivial) fun h => ⟨h, fun _ _ e => nomatch e⟩
theorem smin (o) : Statement (.smin o) := of_word rfl rfl rfl rfl rfl (fun _ => trivial) fun h => ⟨h, fun _ _ e => nomatch e⟩
theorem smax (o) : Statement (.smax o) := of_word rfl rfl rfl rfl rfl (fun _ => trivial) fun h => ⟨h, fun _ _ e => nomatch e⟩
theorem sbitc (o) : Statement (.sbitc o) := of_word rfl rfl rfl rfl rfl (fun _ => trivial) fun h => ⟨h, fun _ _ e => nomatch e⟩
theorem smov (o) : Statement (.smov o) := of_word rfl rfl rfl rfl rfl (fun _ => trivial) fun h => ⟨h, fun _ _ e => nomatch e⟩
theorem smovi (o) : Statement (.smovi o) := of_word rfl rfl rfl rfl rfl (fun _ => trivial) fun h => ⟨h, fun _ _ e => nomatch e⟩
theorem sset (o) : Statement (.sset o) := of_word rfl rfl rfl rfl rfl (fun _ => trivial) fun h => ⟨h, fun _ _ e => nomatch e⟩
theorem ssel (o) : Statement (.ssel o) := of_word rfl rfl rfl rfl rfl (fun _ => trivial) fun h => ⟨h, fun _ _ e => nomatch e⟩
theorem saddr (o) : Statement (.saddr o) := of_word rfl rfl rfl rfl rfl (fun _ => trivial) fun h => ⟨h, fun _ _ e => nomatch e⟩
theorem sext (o) : Statement (.sext o) := of_word rfl rfl rfl rfl rfl (fun _ => trivial) fun h => ⟨h, fun _ _ e => nomatch e⟩
theorem sbfx (o) : Statement (.sbfx o) := of_word rfl rfl rfl rfl rfl (fun _ => trivial) fun h => ⟨h, fun _ _ e => nomatch e⟩
theorem sbfi (o) : Statement (.sbfi o) := of_word rfl rfl rfl rfl rfl (fun _ => trivial) fun h => ⟨h, fun _ _ e => nomatch e⟩
theorem sldp (o) : Statement (.sldp o) := of_word rfl rfl rfl rfl rfl (fun _ => trivial) fun h => ⟨h, fun _ _ e => nomatch e⟩
theorem jmp (o) : Statement (.jmp o) := of_word rfl rfl rfl rfl rfl (fun h => brLegal_ej h) fun h => ⟨h, fun _ _ e => nomatch e⟩
theorem jmpr (o) : Statement (.jmpr o) := of_word rfl rfl rfl rfl rfl (fun h => brLegal_ej h) fun h => ⟨h, fun _ _ e => nomatch e⟩
theorem call (o) : Statement (.call o) := of_word rfl rfl rfl rfl rfl (fun h => brLegal_ej h) fun h => ⟨h, fun _ _ e => nomatch e⟩
theorem callr (o) : Statement (.callr o) := of_word rfl rfl rfl rfl rfl (fun h => brLegal_ej h) fun h => ⟨h, fun _ _ e => nomatch e⟩
theorem ret (o) : Statement (.ret o) := of_word rfl rfl rfl rfl rfl (fun h => brLegal_ej h) fun h => ⟨h, fun _ _ e => nomatch e⟩
theorem brs (o) : Statement (.brs o) := of_word rfl rfl rfl rfl rfl (fun h => brLegal_ej (And.left (Bool.and_eq_true _ _ ▸ h))) fun h => ⟨h, fun _ _ e => nomatch e⟩
theorem brv (o) : Statement (.brv o) := of_word rfl rfl rfl rfl rfl (brvOk o) fun h => ⟨h, fun _ _ e => nomatch e⟩
theorem bru (o) : Statement (.bru o) := of_word rfl rfl rfl rfl rfl (fun h => brLegal_ej h) fun h => ⟨h, fun _ _ e => nomatch e⟩
theorem regang (o) : Statement (.regang o) := of_word rfl rfl rfl rfl rfl (fun h => brLegal_ej h) fun h => ⟨h, fun _ _ e => nomatch e⟩
theorem loopd (o) : Statement (.loopd o) := of_word rfl rfl rfl rfl rfl (fun h => brLegal_ej (And.left (Bool.and_eq_true _ _ ▸ h))) fun h => ⟨h, fun _ _ e => nomatch e⟩
theorem nop (o) : Statement (.nop o) := of_word rfl rfl rfl rfl rfl (fun h => brLegal_ej h) fun h => ⟨h, fun _ _ e => nomatch e⟩
theorem plog (o) : Statement (.plog o) := of_word rfl rfl rfl rfl rfl (fun _ => trivial) fun h => ⟨h, fun _ _ e => nomatch e⟩
theorem pmov (o) : Statement (.pmov o) := of_word rfl rfl rfl rfl rfl (fun _ => trivial) fun h => ⟨h, fun _ _ e => nomatch e⟩
theorem pcnt (o) : Statement (.pcnt o) := of_word rfl rfl rfl rfl rfl (fun _ => trivial) fun h => ⟨h, fun _ _ e => nomatch e⟩
theorem pfirst (o) : Statement (.pfirst o) := of_word rfl rfl rfl rfl rfl (fun _ => trivial) fun h => ⟨h, fun _ _ e => nomatch e⟩
theorem part (o) : Statement (.part o) := of_word rfl rfl rfl rfl rfl (fun _ => trivial) fun h => ⟨h, fun _ _ e => nomatch e⟩
theorem gset (o) : Statement (.gset o) := of_word rfl rfl rfl rfl rfl (fun _ => trivial) fun h => ⟨h, fun _ _ e => nomatch e⟩
theorem grd (o) : Statement (.grd o) := of_word rfl rfl rfl rfl rfl (fun _ => trivial) fun h => ⟨h, fun _ _ e => nomatch e⟩
theorem lexit (o) : Statement (.lexit o) := of_word rfl rfl rfl rfl rfl (fun _ => trivial) fun h => ⟨h, fun _ _ e => nomatch e⟩
theorem ejctl (o) : Statement (.ejctl o) := of_word rfl rfl rfl rfl rfl (fun _ => trivial) fun h => ⟨h, fun _ _ e => nomatch e⟩
theorem vadd (o) : Statement (.vadd o) := of_word rfl rfl rfl rfl rfl (fun _ => trivial) fun h => ⟨h, fun _ _ e => nomatch e⟩
theorem vsub (o) : Statement (.vsub o) := of_word rfl rfl rfl rfl rfl (fun _ => trivial) fun h => ⟨h, fun _ _ e => nomatch e⟩
theorem vmul (o) : Statement (.vmul o) := of_word rfl rfl rfl rfl rfl (fun _ => trivial) fun h => ⟨h, fun _ _ e => nomatch e⟩
theorem vmulh (o) : Statement (.vmulh o) := of_word rfl rfl rfl rfl rfl (fun _ => trivial) fun h => ⟨h, fun _ _ e => nomatch e⟩
theorem vmad (o) : Statement (.vmad o) := of_word rfl rfl rfl rfl rfl (fun _ => trivial) fun h => ⟨h, fun _ _ e => nomatch e⟩
theorem vdiv (o) : Statement (.vdiv o) := of_word rfl rfl rfl rfl rfl (fun _ => trivial) fun h => ⟨h, fun _ _ e => nomatch e⟩
theorem vrem (o) : Statement (.vrem o) := of_word rfl rfl rfl rfl rfl (fun _ => trivial) fun h => ⟨h, fun _ _ e => nomatch e⟩
theorem vand (o) : Statement (.vand o) := of_word rfl rfl rfl rfl rfl (fun _ => trivial) fun h => ⟨h, fun _ _ e => nomatch e⟩
theorem vor (o) : Statement (.vor o) := of_word rfl rfl rfl rfl rfl (fun _ => trivial) fun h => ⟨h, fun _ _ e => nomatch e⟩
theorem vxor (o) : Statement (.vxor o) := of_word rfl rfl rfl rfl rfl (fun _ => trivial) fun h => ⟨h, fun _ _ e => nomatch e⟩
theorem vshl (o) : Statement (.vshl o) := of_word rfl rfl rfl rfl rfl (fun _ => trivial) fun h => ⟨h, fun _ _ e => nomatch e⟩
theorem vshr (o) : Statement (.vshr o) := of_word rfl rfl rfl rfl rfl (fun _ => trivial) fun h => ⟨h, fun _ _ e => nomatch e⟩
theorem vrot (o) : Statement (.vrot o) := of_word rfl rfl rfl rfl rfl (fun _ => trivial) fun h => ⟨h, fun _ _ e => nomatch e⟩
theorem vmin (o) : Statement (.vmin o) := of_word rfl rfl rfl rfl rfl (fun _ => trivial) fun h => ⟨h, fun _ _ e => nomatch e⟩
theorem vmax (o) : Statement (.vmax o) := of_word rfl rfl rfl rfl rfl (fun _ => trivial) fun h => ⟨h, fun _ _ e => nomatch e⟩
theorem vabs (o) : Statement (.vabs o) := of_word rfl rfl rfl rfl rfl (fun _ => trivial) fun h => ⟨h, fun _ _ e => nomatch e⟩
theorem vbitc (o) : Statement (.vbitc o) := of_word rfl rfl rfl rfl rfl (fun _ => trivial) fun h => ⟨h, fun _ _ e => nomatch e⟩
theorem vbfx (o) : Statement (.vbfx o) := of_word rfl rfl rfl rfl rfl (fun _ => trivial) fun h => ⟨h, fun _ _ e => nomatch e⟩
theorem vbfi (o) : Statement (.vbfi o) := of_word rfl rfl rfl rfl rfl (fun _ => trivial) fun h => ⟨h, fun _ _ e => nomatch e⟩
theorem vaddc (o) : Statement (.vaddc o) := of_word rfl rfl rfl rfl rfl (fun _ => trivial) fun h => ⟨h, fun _ _ e => nomatch e⟩
theorem vadds (o) : Statement (.vadds o) := of_word rfl rfl rfl rfl rfl (fun _ => trivial) fun h => ⟨h, fun _ _ e => nomatch e⟩
theorem vcmp (o) : Statement (.vcmp o) := of_word rfl rfl rfl rfl rfl (fun _ => trivial) fun h => ⟨h, fun _ _ e => nomatch e⟩
theorem vsel (o) : Statement (.vsel o) := of_word rfl rfl rfl rfl rfl (fun _ => trivial) fun h => ⟨h, fun _ _ e => nomatch e⟩
theorem vmov (o) : Statement (.vmov o) := of_word rfl rfl rfl rfl rfl (fun _ => trivial) fun h => ⟨h, fun _ _ e => nomatch e⟩
theorem vmovi (o) : Statement (.vmovi o) := of_word rfl rfl rfl rfl rfl (fun _ => trivial) fun h => ⟨h, fun _ _ e => nomatch e⟩
theorem vbrd (o) : Statement (.vbrd o) := of_word rfl rfl rfl rfl rfl (fun _ => trivial) fun h => ⟨h, fun _ _ e => nomatch e⟩
theorem vext (o) : Statement (.vext o) := of_word rfl rfl rfl rfl rfl (fun _ => trivial) fun h => ⟨h, fun _ _ e => nomatch e⟩
theorem vsys (o) : Statement (.vsys o) := of_word rfl rfl rfl rfl rfl (fun _ => trivial) fun h => ⟨h, fun _ _ e => nomatch e⟩
theorem vfadd (o) : Statement (.vfadd o) := of_word rfl rfl rfl rfl rfl (fun _ => trivial) fun h => ⟨h, fun _ _ e => nomatch e⟩
theorem vfsub (o) : Statement (.vfsub o) := of_word rfl rfl rfl rfl rfl (fun _ => trivial) fun h => ⟨h, fun _ _ e => nomatch e⟩
theorem vfmul (o) : Statement (.vfmul o) := of_word rfl rfl rfl rfl rfl (fun _ => trivial) fun h => ⟨h, fun _ _ e => nomatch e⟩
theorem vfma (o) : Statement (.vfma o) := of_word rfl rfl rfl rfl rfl (fun _ => trivial) fun h => ⟨h, fun _ _ e => nomatch e⟩
theorem vfmin (o) : Statement (.vfmin o) := of_word rfl rfl rfl rfl rfl (fun _ => trivial) fun h => ⟨h, fun _ _ e => nomatch e⟩
theorem vfmax (o) : Statement (.vfmax o) := of_word rfl rfl rfl rfl rfl (fun _ => trivial) fun h => ⟨h, fun _ _ e => nomatch e⟩
theorem vfclass (o) : Statement (.vfclass o) := of_word rfl rfl rfl rfl rfl (fun _ => trivial) fun h => ⟨h, fun _ _ e => nomatch e⟩
theorem vfdiv (o) : Statement (.vfdiv o) := of_word rfl rfl rfl rfl rfl (fun _ => trivial) fun h => ⟨h, fun _ _ e => nomatch e⟩
theorem vfsqrt (o) : Statement (.vfsqrt o) := of_word rfl rfl rfl rfl rfl (fun _ => trivial) fun h => ⟨h, fun _ _ e => nomatch e⟩
theorem vfrcp (o) : Statement (.vfrcp o) := of_word rfl rfl rfl rfl rfl (fun _ => trivial) fun h => ⟨h, fun _ _ e => nomatch e⟩
theorem vfrsq (o) : Statement (.vfrsq o) := of_word rfl rfl rfl rfl rfl (fun _ => trivial) fun h => ⟨h, fun _ _ e => nomatch e⟩
theorem vfexp2 (o) : Statement (.vfexp2 o) := of_word rfl rfl rfl rfl rfl (fun _ => trivial) fun h => ⟨h, fun _ _ e => nomatch e⟩
theorem vflog2 (o) : Statement (.vflog2 o) := of_word rfl rfl rfl rfl rfl (fun _ => trivial) fun h => ⟨h, fun _ _ e => nomatch e⟩
theorem vfsin (o) : Statement (.vfsin o) := of_word rfl rfl rfl rfl rfl (fun _ => trivial) fun h => ⟨h, fun _ _ e => nomatch e⟩
theorem vfcos (o) : Statement (.vfcos o) := of_word rfl rfl rfl rfl rfl (fun _ => trivial) fun h => ⟨h, fun _ _ e => nomatch e⟩
theorem vftanh (o) : Statement (.vftanh o) := of_word rfl rfl rfl rfl rfl (fun _ => trivial) fun h => ⟨h, fun _ _ e => nomatch e⟩
theorem vfscale (o) : Statement (.vfscale o) := of_word rfl rfl rfl rfl rfl (fun _ => trivial) fun h => ⟨h, fun _ _ e => nomatch e⟩
theorem vfrnd (o) : Statement (.vfrnd o) := of_word rfl rfl rfl rfl rfl (fun _ => trivial) fun h => ⟨h, fun _ _ e => nomatch e⟩
theorem vdot2 (o) : Statement (.vdot2 o) := of_word rfl rfl rfl rfl rfl (fun _ => trivial) fun h => ⟨h, fun _ _ e => nomatch e⟩
theorem vdot4 (o) : Statement (.vdot4 o) := of_word rfl rfl rfl rfl rfl (fun _ => trivial) fun h => ⟨h, fun _ _ e => nomatch e⟩
theorem vcvt (o) : Statement (.vcvt o) := of_word rfl rfl rfl rfl rfl (fun _ => trivial) fun h => ⟨h, fun _ _ e => nomatch e⟩
theorem vpack (o) : Statement (.vpack o) := of_word rfl rfl rfl rfl rfl (fun _ => trivial) fun h => ⟨h, fun _ _ e => nomatch e⟩
theorem vunpk (o) : Statement (.vunpk o) := of_word rfl rfl rfl rfl rfl (fun _ => trivial) fun h => ⟨h, fun _ _ e => nomatch e⟩
theorem ffrd (o) : Statement (.ffrd o) := of_word rfl rfl rfl rfl rfl (fun _ => trivial) fun h => ⟨h, fun _ _ e => nomatch e⟩
theorem ffclr (o) : Statement (.ffclr o) := of_word rfl rfl rfl rfl rfl (fun _ => trivial) fun h => ⟨h, fun _ _ e => nomatch e⟩
theorem vshfl (o) : Statement (.vshfl o) := of_word rfl rfl rfl rfl rfl (fun _ => trivial) fun h => ⟨h, fun _ _ e => nomatch e⟩
theorem vshfx (o) : Statement (.vshfx o) := of_word rfl rfl rfl rfl rfl (fun _ => trivial) fun h => ⟨h, fun _ _ e => nomatch e⟩
theorem vbcast (o) : Statement (.vbcast o) := of_word rfl rfl rfl rfl rfl (fun _ => trivial) fun h => ⟨h, fun _ _ e => nomatch e⟩
theorem vvote (o) : Statement (.vvote o) := of_word rfl rfl rfl rfl rfl (fun _ => trivial) fun h => ⟨h, fun _ _ e => nomatch e⟩
theorem vmatch (o) : Statement (.vmatch o) := of_word rfl rfl rfl rfl rfl (fun _ => trivial) fun h => ⟨h, fun _ _ e => nomatch e⟩
theorem vred (o) : Statement (.vred o) := of_word rfl rfl rfl rfl rfl (fun _ => trivial) fun h => ⟨h, fun _ _ e => nomatch e⟩
theorem vscan (o) : Statement (.vscan o) := of_word rfl rfl rfl rfl rfl (fun _ => trivial) fun h => ⟨h, fun _ _ e => nomatch e⟩
theorem vcmpr (o) : Statement (.vcmpr o) := of_word rfl rfl rfl rfl rfl (fun _ => trivial) fun h => ⟨h, fun _ _ e => nomatch e⟩
theorem ld (o) : Statement (.ld o) := of_word rfl rfl rfl rfl rfl (fun _ => trivial) fun h => ⟨h, fun _ _ e => nomatch e⟩
theorem st (o) : Statement (.st o) := of_word rfl rfl rfl rfl rfl (fun _ => trivial) fun h => ⟨h, fun _ _ e => nomatch e⟩
theorem lds (o) : Statement (.lds o) := of_word rfl rfl rfl rfl rfl (fun _ => trivial) fun h => ⟨h, fun _ _ e => nomatch e⟩
theorem sts (o) : Statement (.sts o) := of_word rfl rfl rfl rfl rfl (fun _ => trivial) fun h => ⟨h, fun _ _ e => nomatch e⟩
theorem atom (o) : Statement (.atom o) := of_word rfl rfl rfl rfl rfl (fun _ => trivial) fun h => ⟨h, fun _ _ e => nomatch e⟩
theorem atoms (o) : Statement (.atoms o) := of_word rfl rfl rfl rfl rfl (fun _ => trivial) fun h => ⟨h, fun _ _ e => nomatch e⟩
theorem cpy (o) : Statement (.cpy o) := of_word rfl rfl rfl rfl rfl (fun _ => trivial) fun h => ⟨h, fun _ _ e => nomatch e⟩
theorem cpyg (o) : Statement (.cpyg o) := of_word rfl rfl rfl rfl rfl (fun _ => trivial) fun h => ⟨h, fun _ _ e => nomatch e⟩
theorem bseal (o) : Statement (.bseal o) := of_word rfl rfl rfl rfl rfl (fun _ => trivial) fun h => ⟨h, fun _ _ e => nomatch e⟩
theorem bwait (o) : Statement (.bwait o) := of_word rfl rfl rfl rfl rfl (fun _ => trivial) fun h => ⟨h, fun _ _ e => nomatch e⟩
theorem swinit (o) : Statement (.swinit o) := of_word rfl rfl rfl rfl rfl (fun _ => trivial) fun h => ⟨h, fun _ _ e => nomatch e⟩
theorem fence (o) : Statement (.fence o) := of_word rfl rfl rfl rfl rfl (fun _ => trivial) fun h => ⟨h, fun _ _ e => nomatch e⟩
theorem cpf (o) : Statement (.cpf o) := of_word rfl rfl rfl rfl rfl (fun _ => trivial) fun h => ⟨h, fun _ _ e => nomatch e⟩
theorem cwb (o) : Statement (.cwb o) := of_word rfl rfl rfl rfl rfl (fun _ => trivial) fun h => ⟨h, fun _ _ e => nomatch e⟩
theorem cinv (o) : Statement (.cinv o) := of_word rfl rfl rfl rfl rfl (fun _ => trivial) fun h => ⟨h, fun _ _ e => nomatch e⟩
theorem icinv (o) : Statement (.icinv o) := of_word rfl rfl rfl rfl rfl (fun _ => trivial) fun h => ⟨h, fun _ _ e => nomatch e⟩
theorem hset (o) : Statement (.hset o) := of_word rfl rfl rfl rfl rfl (fun _ => trivial) fun h => ⟨h, fun _ _ e => nomatch e⟩
theorem hgen (o) : Statement (.hgen o) := of_word rfl rfl rfl rfl rfl (fun _ => trivial) fun h => ⟨h, fun _ _ e => nomatch e⟩
theorem mma (o) : Statement (.mma o) := of_word rfl rfl rfl rfl rfl (fun _ => trivial) fun h => ⟨h, fun _ _ e => nomatch e⟩
theorem mmas (o) : Statement (.mmas o) := of_word rfl rfl rfl rfl rfl (fun _ => trivial) fun h => ⟨h, fun _ _ e => nomatch e⟩
theorem mzero (o) : Statement (.mzero o) := of_word rfl rfl rfl rfl rfl (fun _ => trivial) fun h => ⟨h, fun _ _ e => nomatch e⟩
theorem mcvt (o) : Statement (.mcvt o) := of_word rfl rfl rfl rfl rfl (fun _ => trivial) fun h => ⟨h, fun _ _ e => nomatch e⟩
theorem mstat (o) : Statement (.mstat o) := of_word rfl rfl rfl rfl rfl (fun _ => trivial) fun h => ⟨h, fun _ _ e => nomatch e⟩
theorem msclr (o) : Statement (.msclr o) := of_word rfl rfl rfl rfl rfl (fun _ => trivial) fun h => ⟨h, fun _ _ e => nomatch e⟩
theorem ocfence (o) : Statement (.ocfence o) := of_word rfl rfl rfl rfl rfl (fun _ => trivial) fun h => ⟨h, fun _ _ e => nomatch e⟩
theorem mkinit (o) : Statement (.mkinit o) := of_word rfl rfl rfl rfl rfl (fun _ => trivial) fun h => ⟨h, fun _ _ e => nomatch e⟩
theorem mkset (o) : Statement (.mkset o) := of_word rfl rfl rfl rfl rfl (fun _ => trivial) fun h => ⟨h, fun _ _ e => nomatch e⟩
theorem mkadd (o) : Statement (.mkadd o) := of_word rfl rfl rfl rfl rfl (fun _ => trivial) fun h => ⟨h, fun _ _ e => nomatch e⟩
theorem waitm (o) : Statement (.waitm o) := of_word rfl rfl rfl rfl rfl (fun _ => trivial) fun h => ⟨h, fun _ _ e => nomatch e⟩
theorem swait (o) : Statement (.swait o) := of_word rfl rfl rfl rfl rfl (fun _ => trivial) fun h => ⟨h, fun _ _ e => nomatch e⟩
theorem bar (o) : Statement (.bar o) := of_word rfl rfl rfl rfl rfl (fun _ => trivial) fun h => ⟨h, fun _ _ e => nomatch e⟩
theorem bara (o) : Statement (.bara o) := of_word rfl rfl rfl rfl rfl (fun _ => trivial) fun h => ⟨h, fun _ _ e => nomatch e⟩
theorem barw (o) : Statement (.barw o) := of_word rfl rfl rfl rfl rfl (fun _ => trivial) fun h => ⟨h, fun _ _ e => nomatch e⟩
theorem promote (o) : Statement (.promote o) := of_word rfl rfl rfl rfl rfl (fun _ => trivial) fun h => ⟨h, fun _ _ e => nomatch e⟩
theorem clsrd (o) : Statement (.clsrd o) := of_word rfl rfl rfl rfl rfl (fun _ => trivial) fun h => ⟨h, fun _ _ e => nomatch e⟩
theorem yield (o) : Statement (.yield o) := of_word rfl rfl rfl rfl rfl (fun _ => trivial) fun h => ⟨h, fun _ _ e => nomatch e⟩
theorem sleep (o) : Statement (.sleep o) := of_word rfl rfl rfl rfl rfl (fun _ => trivial) fun h => ⟨h, fun _ _ e => nomatch e⟩
theorem svc (o) : Statement (.svc o) := of_word rfl rfl rfl rfl rfl (fun _ => trivial) fun h => ⟨h, fun _ _ e => nomatch e⟩
theorem trap (o) : Statement (.trap o) := of_word rfl rfl rfl rfl rfl (fun _ => trivial) fun h => ⟨h, fun _ _ e => nomatch e⟩
theorem tret (o) : Statement (.tret o) := of_word rfl rfl rfl rfl rfl (fun _ => trivial) fun h => ⟨h, fun _ _ e => nomatch e⟩
theorem srd (o) : Statement (.srd o) := of_word rfl rfl rfl rfl rfl (fun _ => trivial) fun h => ⟨h, fun _ _ e => nomatch e⟩
theorem swr (o) : Statement (.swr o) := of_word rfl rfl rfl rfl rfl (fun _ => trivial) fun h => ⟨h, fun _ _ e => nomatch e⟩
theorem brk (o) : Statement (.brk o) := of_word rfl rfl rfl rfl rfl (fun _ => trivial) fun h => ⟨h, fun _ _ e => nomatch e⟩
theorem ckill (o) : Statement (.ckill o) := of_word rfl rfl rfl rfl rfl (fun _ => trivial) fun h => ⟨h, fun _ _ e => nomatch e⟩
theorem ckpt (o) : Statement (.ckpt o) := of_word rfl rfl rfl rfl rfl (fun _ => trivial) fun h => ⟨h, fun _ _ e => nomatch e⟩
theorem pair (h0 h1) : Statement (.pair h0 h1) := of_word rfl rfl rfl rfl rfl (fun _ => trivial) fun h => by
  simp only [Instr.wellFormed, Bool.and_eq_true] at h
  exact ⟨h.1, fun _ _ e => by cases e; exact h.2⟩
theorem pguard (w) : Statement (.pguard w) := by
  intro h
  have h2 : opcOf (w.zeroExtend 128) = 0xFE := by simpa [Instr.wellFormed] using h
  exact ⟨_, rfl, by rw [word_low, decode, if_pos h2, low_word]⟩
theorem reservedOpcode (w) : Statement (.reservedOpcode w) := by
  intro h
  have h2 : (opcOf (w.zeroExtend 128) != 0xFE && (lenOf (w.zeroExtend 128)).toNat != 3
    && (formatOf (opcOf (w.zeroExtend 128))).isNone) = true := h
  simp only [Bool.and_eq_true, bne_iff_ne, ne_eq] at h2
  exact ⟨_, rfl, by rw [word_low, decode, if_neg h2.1.1, if_neg h2.1.2, if_pos h2.2, low_word]⟩
theorem trapEntry (c) : Statement (.trapEntry c) := of_event rfl rfl
theorem watchdog (c) : Statement (.watchdog c) := of_event rfl rfl
theorem passnChange (cluster n) : Statement (.passnChange cluster n) := of_event rfl rfl
theorem shadowLatchReplay (u) : Statement (.shadowLatchReplay u) := of_event rfl rfl
theorem ejectLaneStart (q) : Statement (.ejectLaneStart q) := of_event rfl rfl
theorem laneRejoin (q) : Statement (.laneRejoin q) := of_event rfl rfl
theorem ejectSoftPark (c t) : Statement (.ejectSoftPark c t) := of_event rfl rfl
theorem ejectOverdue (c t) : Statement (.ejectOverdue c t) := of_event rfl rfl
theorem courseRestore (c) : Statement (.courseRestore c) := of_event rfl rfl
theorem sleepExpire (p) : Statement (.sleepExpire p) := of_event rfl rfl
theorem checkpointCopy (c reg) : Statement (.checkpointCopy c reg) := of_event rfl rfl
theorem pageFaultRecord (p) : Statement (.pageFaultRecord p) := of_event rfl rfl
theorem pageFaultPark (c) : Statement (.pageFaultPark c) := of_event rfl rfl
theorem tileFetchDone (k tile) : Statement (.tileFetchDone k tile) := of_event rfl rfl
theorem mmaStart (core) : Statement (.mmaStart core) := of_event rfl rfl
theorem mmaComplete (core) : Statement (.mmaComplete core) := of_event rfl rfl
theorem mzeroComplete (core) : Statement (.mzeroComplete core) := of_event rfl rfl
theorem mcvtComplete (core) : Statement (.mcvtComplete core) := of_event rfl rfl
theorem slewStep (die) : Statement (.slewStep die) := of_event rfl rfl
theorem copyChunkDone (k chunk) : Statement (.copyChunkDone k chunk) := of_event rfl rfl
theorem copyChunkFault (k chunk) : Statement (.copyChunkFault k chunk) := of_event rfl rfl
theorem blockStart (b) : Statement (.blockStart b) := of_event rfl rfl
theorem blockEnd (b) : Statement (.blockEnd b) := of_event rfl rfl
theorem launchRetire (l) : Statement (.launchRetire l) := of_event rfl rfl
theorem faultLogRecord (k) : Statement (.faultLogRecord k) := of_event rfl rfl
theorem placementAttempt (k) : Statement (.placementAttempt k) := of_event rfl rfl
theorem placementRetry (k) : Statement (.placementRetry k) := of_event rfl rfl
theorem rotationAttempt (cluster) : Statement (.rotationAttempt cluster) := of_event rfl rfl
theorem clusterReassign (cluster pool) : Statement (.clusterReassign cluster pool) := of_event rfl rfl
theorem clusterOppointReady (cluster) : Statement (.clusterOppointReady cluster) := of_event rfl rfl
theorem hotSpotMigration (b core) : Statement (.hotSpotMigration b core) := of_event rfl rfl
theorem energyAttribution : Statement (.energyAttribution) := of_event rfl rfl
theorem energyCharge : Statement (.energyCharge) := of_event rfl rfl
theorem quotaPeriodBoundary (ctx) : Statement (.quotaPeriodBoundary ctx) := of_event rfl rfl
theorem packetRead (q) : Statement (.packetRead q) := of_event rfl rfl
theorem launchPacket (q) : Statement (.launchPacket q) := of_event rfl rfl
theorem waitmarks (q) : Statement (.waitmarks q) := of_event rfl rfl
theorem setmark (q) : Statement (.setmark q) := of_event rfl rfl
theorem regionInstall (q) : Statement (.regionInstall q) := of_event rfl rfl
theorem regionUpdate (q) : Statement (.regionUpdate q) := of_event rfl rfl
theorem regionRemove (q) : Statement (.regionRemove q) := of_event rfl rfl
theorem regionRemoveComplete (r) : Statement (.regionRemoveComplete r) := of_event rfl rfl
theorem leaseRequest (q) : Statement (.leaseRequest q) := of_event rfl rfl
theorem leaseRelease (q) : Statement (.leaseRelease q) := of_event rfl rfl
theorem nopPacket (q) : Statement (.nopPacket q) := of_event rfl rfl
theorem leaseGrant (k grant) : Statement (.leaseGrant k grant) := of_event rfl rfl
theorem leaseRevoke (k) : Statement (.leaseRevoke k) := of_event rfl rfl
theorem leaseEnd (k) : Statement (.leaseEnd k) := of_event rfl rfl
theorem markReexamine (w) : Statement (.markReexamine w) := of_event rfl rfl
theorem waitPark (q) : Statement (.waitPark q) := of_event rfl rfl
theorem queueDeadlock (qs) : Statement (.queueDeadlock qs) := of_event rfl rfl
theorem queueEnable (q v) : Statement (.queueEnable q v) := of_event rfl rfl
theorem queueDisable (q v) : Statement (.queueDisable q v) := of_event rfl rfl
theorem queueKick (q v) : Statement (.queueKick q v) := of_event rfl rfl
theorem queueErrorClear (q) : Statement (.queueErrorClear q) := of_event rfl rfl
theorem registerWrite (off v) : Statement (.registerWrite off v) := of_event rfl rfl
theorem tlbInvalidate (v) : Statement (.tlbInvalidate v) := of_event rfl rfl
theorem tlbInvalidateDone : Statement (.tlbInvalidateDone) := of_event rfl rfl
theorem contextCreate (n) : Statement (.contextCreate n) := of_event rfl rfl
theorem contextSuspend (n) : Statement (.contextSuspend n) := of_event rfl rfl
theorem suspendComplete (n) : Statement (.suspendComplete n) := of_event rfl rfl
theorem contextResume (n) : Statement (.contextResume n) := of_event rfl rfl
theorem contextDestroy (n) : Statement (.contextDestroy n) := of_event rfl rfl
theorem contextScb (n) : Statement (.contextScb n) := of_event rfl rfl
theorem contextLost (n) : Statement (.contextLost n) := of_event rfl rfl
theorem pfresp (ctx idx) : Statement (.pfresp ctx idx) := of_event rfl rfl
theorem svcdone (ctx slot) : Statement (.svcdone ctx slot) := of_event rfl rfl
theorem schedulerFailover : Statement (.schedulerFailover) := of_event rfl rfl
theorem leafUpdateCluster (cluster) : Statement (.leafUpdateCluster cluster) := of_event rfl rfl
theorem leafDrainTimeout (cluster) : Statement (.leafDrainTimeout cluster) := of_event rfl rfl
theorem schedulerHandover : Statement (.schedulerHandover) := of_event rfl rfl
theorem coreMapOut (core) : Statement (.coreMapOut core) := of_event rfl rfl
theorem wholeContextSwitch (mode) : Statement (.wholeContextSwitch mode) := of_event rfl rfl
theorem poolResume : Statement (.poolResume) := of_event rfl rfl
theorem poolDrop : Statement (.poolDrop) := of_event rfl rfl
theorem refugeWriteback (all k) : Statement (.refugeWriteback all k) := of_event rfl rfl
theorem refugeDiscard (all k) : Statement (.refugeDiscard all k) := of_event rfl rfl
theorem poolLinkLoss (cause) : Statement (.poolLinkLoss cause) := of_event rfl rfl
theorem refugeMoveDone : Statement (.refugeMoveDone) := of_event rfl rfl
theorem poolPortChange (port up) : Statement (.poolPortChange port up) := of_event rfl rfl
theorem bisnp (o) : Statement (.bisnp o) := of_event rfl rfl
theorem poolWindowEnable (w v) : Statement (.poolWindowEnable w v) := of_event rfl rfl
theorem poolWindowDisable (w v) : Statement (.poolWindowDisable w v) := of_event rfl rfl
theorem hostDramAccess (pa n write) : Statement (.hostDramAccess pa n write) := of_event rfl rfl
theorem channelEnable (ch v) : Statement (.channelEnable ch v) := of_event rfl rfl
theorem channelErrorClear (ch) : Statement (.channelErrorClear ch) := of_event rfl rfl
theorem channelKick (ch v) : Statement (.channelKick ch v) := of_event rfl rfl
theorem channelSend (ch) : Statement (.channelSend ch) := of_event rfl rfl
theorem channelReceive (ch m) : Statement (.channelReceive ch m) := of_event rfl rfl
theorem channelStateMessage (ch enable error size) : Statement (.channelStateMessage ch enable error size) := of_event rfl rfl
theorem peerLinkDown (l) : Statement (.peerLinkDown l) := of_event rfl rfl
theorem linkFlitRetry (l) : Statement (.linkFlitRetry l) := of_event rfl rfl
theorem linkLaneDegrade (l) : Statement (.linkLaneDegrade l) := of_event rfl rfl
theorem eccCorrected (cls n) : Statement (.eccCorrected cls n) := of_event rfl rfl
theorem eccUncorrectable (cls d) : Statement (.eccUncorrectable cls d) := of_event rfl rfl
theorem dramScrub (ch) : Statement (.dramScrub ch) := of_event rfl rfl
theorem l2Scrub (slice) : Statement (.l2Scrub slice) := of_event rfl rfl
theorem boot (us) : Statement (.boot us) := of_event rfl rfl
theorem clearMapOut (step unit) : Statement (.clearMapOut step unit) := of_event rfl rfl
theorem requestUpdate : Statement (.requestUpdate) := of_event rfl rfl
theorem passComponentTable (cs) : Statement (.passComponentTable cs) := of_event rfl rfl
theorem updateComponent (comp image) : Statement (.updateComponent comp image) := of_event rfl rfl
theorem transferComplete (comp) : Statement (.transferComplete comp) := of_event rfl rfl
theorem verifyComplete (comp version) : Statement (.verifyComplete comp version) := of_event rfl rfl
theorem applyComplete (comp) : Statement (.applyComplete comp) := of_event rfl rfl
theorem activateFirmware : Statement (.activateFirmware) := of_event rfl rfl
theorem getStatus : Statement (.getStatus) := of_event rfl rfl
theorem cancelUpdate : Statement (.cancelUpdate) := of_event rfl rfl
theorem dramRowSpare (ch row) : Statement (.dramRowSpare ch row) := of_event rfl rfl
theorem channelMapOut (ch) : Statement (.channelMapOut ch) := of_event rfl rfl
theorem l2SliceDegrade (slice) : Statement (.l2SliceDegrade slice) := of_event rfl rfl
theorem quarterRecalibrate (q) : Statement (.quarterRecalibrate q) := of_event rfl rfl
theorem getDigests : Statement (.getDigests) := of_event rfl rfl
theorem getCertificate : Statement (.getCertificate) := of_event rfl rfl
theorem challenge (nonce) : Statement (.challenge nonce) := of_event rfl rfl
theorem getMeasurements : Statement (.getMeasurements) := of_event rfl rfl
theorem saveAreaTailAdvance (ctx ring v) : Statement (.saveAreaTailAdvance ctx ring v) := of_event rfl rfl
theorem hostSnoop (o) : Statement (.hostSnoop o) := of_event rfl rfl

end Sys2Proof.Laws.RoundTrip
end

