-- ==== Sys2Proof/Certificates/Slice0/Obligations.lean ====
section
/-!
DEFINITION. The statements for the provers. Each formalises rules of the spec that its docstring names; where one rests on
a choice of the model, its docstring says so and names the log entry.
-/

open Sys2Proof Sys2Proof.Machine

/-! ### Scalar instructions -/

/-- SADD, SSUB, SMUL, SMULH, SAND, SOR and SXOR (R148, R145): the result of w-bit arithmetic on the low w bits of the two
sources, widened into the destination; nothing else changes. -/
def Obligations.ScalarArithmetic : Prop :=
  ∀ (s : State) (o : S3), ScalarTy o.ty →
    let result (i : Instr) (f : BitVec 32 → BitVec 32 → BitVec 32) (g : Word → Word → Word) : Prop :=
      Ready i s → ∃ t, exec i s = .next t ∧ Done i { s := [o.d.toNat] } s t
        ∧ WroteS s t o.d.toNat (byWidth o.ty f g (s.sreg o.a.toNat) (s.ssrc o.ty o.b))
    result (.sadd o) (· + ·) (· + ·) ∧ result (.ssub o) (· - ·) (· - ·) ∧ result (.smul o) (· * ·) (· * ·)
      ∧ result (.smulh o) (bySign o.ty (mulHighS 32) (mulHighU 32)) (bySign o.ty (mulHighS 64) (mulHighU 64))
      ∧ result (.sand o) (· &&& ·) (· &&& ·) ∧ result (.sor o) (· ||| ·) (· ||| ·)
      ∧ result (.sxor o) (· ^^^ ·) (· ^^^ ·)

/-- SDIV and SREM (R148): division toward zero; a quotient by zero is all ones and a remainder by zero the dividend, with
no trap and no flag; −2^(w−1) by −1 gives −2^(w−1) and 0. -/
def Obligations.ScalarDivision : Prop :=
  ∀ (s : State) (o : S3), ScalarTy o.ty →
    let result (i : Instr) (f : BitVec 32 → BitVec 32 → BitVec 32) (g : Word → Word → Word) : Prop :=
      Ready i s → ∃ t, exec i s = .next t ∧ Done i { s := [o.d.toNat] } s t
        ∧ WroteS s t o.d.toNat (byWidth o.ty f g (s.sreg o.a.toNat) (s.ssrc o.ty o.b))
    result (.sdiv o) (bySign o.ty quotS quotU) (bySign o.ty quotS quotU)
      ∧ result (.srem o) (bySign o.ty restS restU) (bySign o.ty restS restU)

/-- SSHL, SSHR, SROT, SMIN, SMAX and SBITC (R148): shifts by a whole w-bit count, of which w or more shifts every bit out
(SSHR of a signed type leaves copies of the sign), rotation by the count mod w, the lesser and the greater source, and bit
counts of the second source. -/
def Obligations.ScalarShiftSelect : Prop :=
  ∀ (s : State) (o : S3), ScalarTy o.ty →
    let result (i : Instr) (f : BitVec 32 → BitVec 32 → BitVec 32) (g : Word → Word → Word) : Prop :=
      Ready i s → ∃ t, exec i s = .next t ∧ Done i { s := [o.d.toNat] } s t
        ∧ WroteS s t o.d.toNat (byWidth o.ty f g (s.sreg o.a.toNat) (s.ssrc o.ty o.b))
    result (.sshl o) (fun a b => a <<< b) (fun a b => a <<< b)
      ∧ result (.sshr o) (bySign o.ty (fun a b => a.sshiftRight' b) (fun a b => a >>> b))
          (bySign o.ty (fun a b => a.sshiftRight' b) (fun a b => a >>> b))
      ∧ result (.srot o) (fun a b => a.rotateLeft (b.toNat % 32)) (fun a b => a.rotateLeft (b.toNat % 64))
      ∧ result (.smin o) (bySign o.ty lessS lessU) (bySign o.ty lessS lessU)
      ∧ result (.smax o) (bySign o.ty moreS moreU) (bySign o.ty moreS moreU)
      ∧ result (.sbitc o) (fun _ b => countBits o.sub.toNat b) (fun _ b => countBits o.sub.toNat b)

/-- SMOV, SMOVI, SSET, SSEL, SADDR and SEXT (R149): the value each writes into its destination; nothing else changes. -/
def Obligations.ScalarMoves : Prop :=
  ∀ (s : State) (o : S3),
    let writes (i : Instr) (v : Word) : Prop :=
      Ready i s → ∃ t, exec i s = .next t ∧ Done i { s := [o.d.toNat] } s t ∧ WroteS s t o.d.toNat v
    let a := s.sreg o.a.toNat
    let b := s.ssrc o.ty o.b
    let d := s.sreg o.d.toNat
    let signed := o.ty = .i32 ∨ o.ty = .i64
    (∀ n, o.b = .reg n ∨ o.b = .regWide n → writes (.smov o) (s.sreg n.toNat))
      ∧ (∀ v, o.b = .imm v → o.sub = 0 → ScalarTy o.ty →
          writes (.smovi o) (if signed then v.signExtend 64 else v.zeroExtend 64))
      ∧ (∀ v, o.b = .imm v → o.sub = 1 → writes (.smovi o) (v ++ (d.truncate 32 : BitVec 32)))
      ∧ (o.sub.toNat < 6 → ScalarTy o.ty →
          writes (.sset o) (if (if o.ty = .i32 ∨ o.ty = .n32 then
              compares o.sub.toNat (decide signed) (a.truncate 32 : BitVec 32) (b.truncate 32)
            else compares o.sub.toNat (decide signed) a b) then 1 else 0))
      ∧ writes (.ssel o) (if d ≠ 0 then a else b)
      ∧ writes (.saddr o) (a + b <<< o.sub.toNat)
      ∧ (o.sub.toNat < 3 → o.ty = .i64 → writes (.sext o) ((b.truncate (8 * 2 ^ o.sub.toNat)).signExtend 64))
      ∧ (o.sub.toNat < 3 → o.ty = .n64 → writes (.sext o) ((b.truncate (8 * 2 ^ o.sub.toNat)).zeroExtend 64))

/-- SBFX and SBFI (R149), bit by bit: the field of `len` bits at `pos` is extracted, and extended, or inserted; bits above
bit 63 are those of R149. -/
def Obligations.ScalarBitFields : Prop :=
  ∀ (s : State) (o : S3),
    let writes (i : Instr) (bit : Nat → Bool) : Prop :=
      Ready i s → ∃ t v, exec i s = .next t ∧ Done i { s := [o.d.toNat] } s t ∧ WroteS s t o.d.toNat v
        ∧ ∀ j < 64, v.getLsbD j = bit j
    let a := s.sreg o.a.toNat
    let c := s.ssrc o.ty o.b
    let d := s.sreg o.d.toNat
    let pos := (c.extractLsb' 0 6).toNat
    let len := min (c.extractLsb' 8 7).toNat 64
    let field (signed : Bool) (j : Nat) : Bool := if pos + j < 64 then a.getLsbD (pos + j) else signed && a.getLsbD 63
    (o.ty = .n64 → writes (.sbfx o) fun j => decide (j < len) && field false j)
      ∧ (o.ty = .i64 → writes (.sbfx o) fun j => decide (0 < len) && field true (if j < len then j else len - 1))
      ∧ writes (.sbfi o) fun j => if pos ≤ j ∧ j < pos + len then a.getLsbD (j - pos) else d.getLsbD j

/-- FFRD, FFCLR and EJCTL (R163, R183, R200): FFRD reads the flag word, with the flags of the loads that have returned; FFCLR
clears those of its bits that the source names, or all; EJCTL lowers the course's threshold and answers the old one. FFRD and
FFCLR wait while an instruction that the agent issued before has not written its results; that the flags of a copy enter the word
when its batch is done, so that those of the open batch are not in it, is the model's reading (log 39). -/
def Obligations.FlagWord : Prop :=
  ∀ (s : State) (o : S3),
    let word := s.regs.flagsAt s.clock
    (Ready (.ffrd o) s → s.resultsPending = false → ∃ t, exec (.ffrd o) s = .next t ∧ Done (.ffrd o) { s := [o.d.toNat] } s t
        ∧ WroteS s t o.d.toNat (word.zeroExtend 64))
      ∧ (Ready (.ffclr o) s → s.resultsPending = false → ∃ t, exec (.ffclr o) s = .next t
        ∧ Done (.ffclr o) { flags := true } s t
        ∧ t.regs.flagsAt t.clock = if o.sub = 0 then word &&& ~~~(s.sreg o.a.toNat).extractLsb' 0 6 else 0)
      ∧ (∀ c k, s.cur = .course c k → Ready (.ejctl o) s →
        let old := (s.course c).ejthr
        let lowered := s.modCourse c fun x => { x with ejthr := min old (s.sreg o.a.toNat).toNat }
        ∃ t, exec (.ejctl o) s = .next t ∧ Done (.ejctl o) { s := [o.d.toNat] } lowered t
          ∧ WroteS s t o.d.toNat (BitVec.ofNat 64 old))
      ∧ (∀ i, i = .ffrd o ∨ i = .ffclr o → Ready i s → s.resultsPending = true →
        ∃ t, exec i s = .next t ∧ t.wait = .stalled ∧ t.pc = s.pc)

/-! ### Control flow -/

/-- JMP, JMPR, CALL, CALLR, RET, BRS, BRU, LOOPD and NOP (R151 to R154, R156, R158, R159): where each goes, s60 of a call
and the counter of LOOPD; nothing else changes. A target is the branch's own PC plus four times OFF, or a register whose
bits 1:0 are zero. -/
def Obligations.Branches : Prop :=
  ∀ (s : State) (o : Br),
    let target := s.pc + (o.off.signExtend 64) * 4
    let r := s.sreg o.s.toNat
    let goes (i : Instr) (pc : Word) : Prop := Ready i s → ∃ t, exec i s = .next t ∧ Goes pc {} s t
    let calls (i : Instr) (pc : Word) : Prop :=
      Ready i s → ∃ t, exec i s = .next t ∧ Goes pc { s := [60] } s t ∧ t.sreg 60 = s.nextPc i
    goes (.jmp o) target
      ∧ (r.extractLsb' 0 2 = 0 → goes (.jmpr o) r)
      ∧ calls (.call o) target
      ∧ (r.extractLsb' 0 2 = 0 → calls (.callr o) r)
      ∧ ((s.sreg 60).extractLsb' 0 2 = 0 → goes (.ret o) (s.sreg 60))
      ∧ (o.p.toNat < 6 → goes (.brs o) (if compares o.p.toNat (!o.u) r 0 != o.n then target else s.nextPc (.brs o)))
      ∧ goes (.bru o) (
          let votes := s.active &&& (if o.n then ~~~s.preg o.p.toNat else s.preg o.p.toNat)
          if s.active ≠ 0 ∧ (if o.u then votes = s.active else votes ≠ 0) then target else s.nextPc (.bru o))
      ∧ (Ready (.loopd o) s → ∃ t, exec (.loopd o) s = .next t
          ∧ Goes (if r - 1 ≠ 0 then target else s.nextPc (.loopd o)) { s := [o.s.toNat] } s t ∧ WroteS s t o.s.toNat (r - 1))
      ∧ goes (.nop o) (s.nextPc (.nop o))

/-- BRV (R129, R155) of a split whose token is not open, whose active set is not empty and whose lanes all go one way: the
token is opened with the active set, and the split goes to the target or on to the next instruction. With an empty active
set it goes on and opens no token: that clause is the model's choice (log 19). On a token that is open it raises
BARRIER_MISUSE. An ejected lane takes or passes the branch alone. -/
def Obligations.BrvUniform : Prop :=
  ∀ (s : State) (o : Br),
    let target := s.pc + (o.off.signExtend 64) * 4
    let next := s.nextPc (.brv o)
    let taken := s.active &&& (if o.n then ~~~s.preg o.p.toNat else s.preg o.p.toNat)
    Ready (.brv o) s →
      (∀ c k, s.cur = .course c k → ((s.course c).token o.tok.toNat).isOpen = false →
        (s.active = 0 → ∃ t, exec (.brv o) s = .next t ∧ Goes next {} s t)
        ∧ (s.active ≠ 0 → taken = 0 ∨ taken = s.active →
          ∃ t, exec (.brv o) s = .next t ∧ t.pc = (if taken = 0 then next else target) ∧ t.active = s.active
            ∧ (t.course c).regs = (s.course c).regs ∧ t.rest = s.rest
            ∧ (t.course c).token o.tok.toNat
                = { isOpen := true, opened := s.active, atTrap := (s.course c).trap.level }
            ∧ ∀ n, n ≠ o.tok.toNat → n < 8 → (t.course c).token n = (s.course c).token n))
      ∧ (∀ c k, s.cur = .course c k → ((s.course c).token o.tok.toNat).isOpen = true → CanTrap s c →
        ∃ t, exec (.brv o) s = .next t ∧ Traps s t c k 0x10 127 s.pc 0 0)
      ∧ (∀ q, s.cur = .lane q → ∃ t, exec (.brv o) s = .next t ∧ Goes (if taken = 0 then next else target) {} s t)

/-- BRV (R109, R129 to R131, R136, R137, R155) of a split whose lanes go both ways. Without a hand-over descriptor, or where no
ejection applies (at trap level, or the smaller set is larger than the threshold or than the free contexts): the token is opened
with the active set; every lane that does not take the branch is active in a split at the next instruction, and the BRV's split
is that one where no other stands there; every lane that takes it is active in a split at the target, stands on its slice's
re-entry stack for the target, or is deferred with it; no register and no byte of memory changes. Where ejection applies, the
smaller set is handed over, the taken lanes on a tie, each with the live-ins, scalars, predicate bits and groups that the
descriptor lists, and the larger one goes on; a malformed descriptor raises ILLEGAL_OP, a register beyond the allotment
REG_BOUNDS, and a descriptor that cannot be read its own fault. -/
def Obligations.BrvDivides : Prop :=
  ∀ (s : State) (o : Br) (c k : Nat),
    let x := s.course c
    let n := o.tok.toNat
    let target := s.pc + (o.off.signExtend 64) * 4
    let next := s.nextPc (.brv o)
    let taken := s.active &&& (if o.n then ~~~s.preg o.p.toNat else s.preg o.p.toNat)
    let passed := s.active &&& ~~~taken
    let taking := maskCount passed < maskCount taken
    let minority := if taking then passed else taken
    let ejects : Prop := x.trap.level = false ∧ maskCount minority ≤ x.ejthr ∧ maskCount minority ≤ s.quoinFree (s.coreOf c / 96)
    Ready (.brv o) s → s.cur = .course c k → (x.token n).isOpen = false → taken ≠ 0 → passed ≠ 0 →
      (o.ej = none ∨ ¬ejects → target ≠ next → s.active &&& ~~~(s.split c k).m = 0 →
        ∃ t, exec (.brv o) s = .next t
          ∧ ((∀ j, j ≠ k → (s.split c j).pc ≠ next) → t.pc = next ∧ t.active = passed)
          ∧ (t.course c).regs = x.regs ∧ t.rest = s.rest
          ∧ ((t.course c).token n).isOpen = true ∧ ((t.course c).token n).opened = s.active
          ∧ (∀ l < 96, passed.has l = true → ∃ y ∈ (t.course c).splits, y.pc = next ∧ y.a.has l = true)
          ∧ ∀ l < 96, taken.has l = true →
            (∃ y ∈ (t.course c).splits, y.pc = target ∧ y.a.has l = true)
              ∨ (∃ r ∈ (t.course c).reentry, r.pc = target ∧ r.tok = n ∧ r.lanes.has l = true)
              ∨ ((t.course c).token n).deferred = some (taken, target))
      ∧ ∀ hoff, o.ej = some hoff → ejects →
        let a := s.pc + (hoff.signExtend 64) * 4
        let low := wordLow (.brv o)
        let traps (code lane : Nat) (addr info : Word) : Prop :=
          CanTrap s c → ∃ t, exec (.brv o) s = .next t ∧ Traps s t c k code lane s.pc addr info
        (∀ code ∈ [0x01, 0x08], ∀ lane addr info, s.readPool a low 0 16 = .error (.trap code lane addr info) →
            traps code lane addr info)
          ∧ (∀ va kind wr ex lane sc, s.readPool a low 0 16 = .error (.page va kind wr ex lane sc) →
            ∃ t, exec (.brv o) s = .next t ∧ t.pc = s.pc ∧ t.wait = .page va kind wr ex lane sc none (s.run c) none ∧ Frame {} s t)
          ∧ ∀ h, s.readPool a low 0 16 = .ok h →
            let b (i : Nat) : Nat := (h.getD i 0).toNat
            let bad : Prop := 48 < b 5 ∨ 48 < b 6 ∨ b 4 ≠ 0 ∨ b 7 ≠ n
            let smask := leNat (h.drop 8)
            let scalars := (List.range 64).filter fun i => smask.testBit i
            (bad → traps 0x01 127 a low)
              ∧ ∀ l, ¬bad → s.readPool a low 16 (2 * (b 5 + b 6)) = .ok l →
                let regs := (List.range (b 5 + b 6)).map fun i => (l.getD (2 * i) 0).toNat + 256 * (l.getD (2 * i + 1) 0).toNat
                let d : HandOver := ⟨regs.take (b 5), regs.drop (b 5), smask, BitVec.ofNat 32 (leNat (h.take 4))⟩
                ((∃ r ∈ regs, x.allot ≤ r) → traps 0x05 127 a low)
                  ∧ ((∀ r ∈ regs, r < x.allot) → s.handDamaged d minority = .ok () →
                    ∃ t, exec (.brv o) s = .next t ∧ t.pc = (if taking then target else next) ∧ t.active = s.active &&& ~~~minority
                      ∧ (t.course c).regs = x.regs ∧ t.rest = s.rest
                      ∧ (t.course c).token n = { isOpen := true, opened := s.active, endPc := s.pc + (d.endOff.signExtend 64) * 4 }
                      ∧ t.lanes.length = s.lanes.length + maskCount minority ∧ (∀ q < s.lanes.length, t.lane q = s.lane q)
                      ∧ ∀ i m, (Mask.list minority)[i]? = some m →
                        let q := t.lane (s.lanes.length + i)
                        q.course = c ∧ q.lane = m ∧ q.tok = n ∧ q.pc = (if taking then next else target) ∧ q.outs = d.outs
                          ∧ q.quoin / 24 = s.coreOf c / 96
                          ∧ q.st = .starting (s.clock + 24 + (i + 1) * ((b 5 + scalars.length + 3) / 4))
                          ∧ (∀ r ∈ d.ins, Cells.get 0 q.regs.v (96 * r + m) = s.vreg r m)
                          ∧ (∀ r < 64, Cells.get 0 q.regs.s r = if r ∈ scalars then Cells.get 0 x.regs.s r else 0)
                          ∧ (∀ p < 16, Cells.get 0 q.regs.p p = Cells.get 0 x.regs.p p &&& Mask.one m)
                          ∧ q.regs.g = x.regs.g)

/-- REGANG (R131 to R133, R139, R157): without effect for a split that holds no lane of an open token. Of a split with such
lanes, in a course with another split that can run, no other token complete and none waiting for this split: where a deferred
set is left, the split takes it up at its target; where lanes are still out, its lanes are marked arrived, it waits, and the
lanes of re-entries on top of its slices become active in splits at their PCs; where the last lanes arrive, the token closes and
its lanes form one split after the REGANG. An ejected lane at its end REGANG starts its rejoin, 16 cycles and one for each four
live-outs, and one at any other REGANG passes it. -/
def Obligations.Regang : Prop :=
  ∀ (s : State) (o : Br), Ready (.regang o) s →
    (∀ c k, s.cur = .course c k →
      let x := s.course c
      let n := o.tok.toNat
      let tok := x.token n
      let m := (s.split c k).m
      let mine := m &&& tok.opened
      let quiet : Prop := x.place = .resident ∧ x.joiners k = [] ∧ (∀ j, j ≠ n → x.tokenFull j = false)
      let runs : Prop := ∃ j, j ≠ k ∧ (s.split c j).m ≠ 0 ∧ (s.split c j).wait = .ready
      let top (r : Reentry) : Prop := r.tok = n ∧ m &&& sliceMask r.slice ≠ 0
        ∧ x.reentry.find? (fun e => e.slice == r.slice) = some r
      let out := tok.opened &&& ~~~(tok.arrived ||| mine ||| x.exited ||| tok.back)
      (tok.isOpen = false ∨ mine = 0 → ∃ t, exec (.regang o) s = .next t ∧ Goes (s.nextPc (.regang o)) {} s t)
        ∧ (tok.isOpen = true → mine ≠ 0 → mine &&& x.exited = 0 → quiet →
          (∀ d target, tok.deferred = some (d, target) → (∀ r, ¬top r) → d ≠ 0 → d &&& ~~~tok.opened = 0 →
              d &&& (x.exited ||| tok.back) = 0 →
              ∃ t, exec (.regang o) s = .next t ∧ t.pc = target ∧ t.active = d ∧ t.wait = .ready
                ∧ ((t.course c).token n).deferred = none ∧ (t.course c).regs = x.regs ∧ t.rest = s.rest)
            ∧ (tok.deferred = none → runs → out ≠ 0 → (∀ r, top r → r.pc ≠ s.pc ∧ r.lanes &&& ~~~out = 0) →
              ∃ t, exec (.regang o) s = .next t ∧ t.wait = .regang n ∧ t.pc = s.pc
                ∧ ((t.course c).token n).arrived = tok.arrived ||| mine ∧ (t.course c).regs = x.regs ∧ t.rest = s.rest
                ∧ ∀ r, top r → ∀ l < 96, r.lanes.has l = true →
                    ∃ y ∈ (t.course c).splits, y.pc = r.pc ∧ y.a.has l = true ∧ (y.wait = .ready ∨ y.wait = .stalled))
            ∧ (tok.deferred = none → out = 0 → (∀ r, ¬top r) → tok.faulted = [] →
              ∃ t, exec (.regang o) s = .next t ∧ ((t.course c).token n).isOpen = false ∧ (t.course c).regs = x.regs
                ∧ t.rest = s.rest
                ∧ ((∀ j, (s.split c j).wait ≠ .regang n) → t.pc = s.nextPc (.regang o) ∧ t.active = tok.opened &&& ~~~x.exited)
                ∧ ∃ y ∈ (t.course c).splits, y.a = tok.opened &&& ~~~x.exited ∧ y.wait = .ready
                  ∧ (y.pc = s.nextPc (.regang o) ∨ ∃ z ∈ x.splits, z.wait = .regang n ∧ y.pc = z.next))))
    ∧ (∀ q, s.cur = .lane q → (s.lane q).pc ≠ (s.lane q).endPc →
        ∃ t, exec (.regang o) s = .next t ∧ Goes (s.nextPc (.regang o)) {} s t)
    ∧ (∀ q, s.cur = .lane q → (s.lane q).pc = (s.lane q).endPc →
        ∃ t, exec (.regang o) s = .next t
          ∧ (t.lane q).st = .rejoining (s.clock + 16 + ((s.lane q).outs.length + 3) / 4)
          ∧ (t.lane q).next = s.nextPc (.regang o) ∧ (t.lane q).regs = (s.lane q).regs ∧ t.courses = s.courses
          ∧ t.rest = s.rest)

/-! ### Predicates, groups and lane exit -/

/-- PLOG, PMOV, PCNT, PFIRST and GRD (R160, R161): what each writes, lane by lane, from the lanes that it acts on;
predicate bits of the other lanes stay, p0 stays all ones, and nothing else changes. -/
def Obligations.Predicates : Prop :=
  ∀ (s : State) (o : P3),
    let acts (l : Nat) : Bool := (s.acted o.g).has l
    let pa := s.preg (o.a.toNat % 16)
    let pb := s.preg (o.b.toNat % 16)
    let group := s.greg (o.a.toNat % 8)
    let lanewise (i : Instr) (m v : Nat → Bool) : Prop :=
      Ready i s → ∃ t, exec i s = .next t ∧ Done i { p := [o.d.toNat % 16] } s t
        ∧ (o.d.toNat % 16 = 0 → t.preg 0 = Mask.all)
        ∧ (o.d.toNat % 16 ≠ 0 → ∀ l < 96, (t.preg (o.d.toNat % 16)).has l
            = if m l then v l else (s.preg (o.d.toNat % 16)).has l)
    let scalar (i : Instr) (good : Word → Prop) : Prop :=
      Ready i s → ∃ t v, exec i s = .next t ∧ Done i { s := [o.d.toNat] } s t ∧ WroteS s t o.d.toNat v ∧ good v
    (o.sub = 0 → lanewise (.plog o) acts fun l => pa.has l && pb.has l)
      ∧ (o.sub = 1 → lanewise (.plog o) acts fun l => pa.has l || pb.has l)
      ∧ (o.sub = 2 → lanewise (.plog o) acts fun l => pa.has l != pb.has l)
      ∧ (o.sub = 3 → lanewise (.plog o) acts fun l => pa.has l && !pb.has l)
      ∧ (o.sub = 4 → lanewise (.plog o) acts fun l => pa.has l || !pb.has l)
      ∧ (o.sub.toNat < 3 → lanewise (.pmov o) (fun l => acts l && l / 32 == o.sub.toNat)
          fun l => (s.sreg o.a.toNat).getLsbD (l % 32))
      ∧ (4 ≤ o.sub.toNat → o.sub.toNat < 7 → scalar (.pmov o) fun v => ∀ j < 64,
          v.getLsbD j = (decide (j < 32) && acts (32 * (o.sub.toNat - 4) + j) && pa.has (32 * (o.sub.toNat - 4) + j)))
      ∧ scalar (.pcnt o) (fun v => v.toNat = (List.range 96).countP fun l => acts l && pa.has l)
      ∧ scalar (.pfirst o) (fun v =>
          ((∀ l < 96, (acts l && pa.has l) = false) ∧ v = 96)
            ∨ (v.toNat < 96 ∧ (acts v.toNat && pa.has v.toNat) = true ∧ ∀ l < v.toNat, (acts l && pa.has l) = false))
      ∧ (o.sub = 0 → lanewise (.grd o) acts fun l => group.mem.has l)
      ∧ (o.sub = 1 → scalar (.grd o) fun v => v = BitVec.ofNat 64 group.size)

/-- PART and GSET (R160, R161): the size and the members of the group that each writes, with no acted lane too; nothing else
changes. g0 is no destination (R160). -/
def Obligations.Groups : Prop :=
  ∀ (s : State) (o : P3), o.d.toNat % 8 ≠ 0 →
    let writes (i : Instr) (size : Nat) (member : Nat → Bool) : Prop :=
      Ready i s → ∃ t, exec i s = .next t ∧ Done i { g := [o.d.toNat % 8] } s t ∧ (t.greg (o.d.toNat % 8)).size = size
        ∧ ∀ l < 96, (t.greg (o.d.toNat % 8)).mem.has l = ((s.acted o.g).has l && member l)
    let pa := s.preg (o.a.toNat % 16)
    let ga := s.greg (o.a.toNat % 8)
    (o.sub = 0 → writes (.part o) 4 fun l => pa.has l) ∧ (o.sub = 1 → writes (.part o) 8 fun l => pa.has l)
      ∧ (o.sub = 2 → writes (.part o) 16 fun l => pa.has l) ∧ (o.sub = 3 → writes (.part o) 32 fun l => pa.has l)
      ∧ (o.sub = 4 → writes (.part o) 96 fun l => pa.has l) ∧ writes (.gset o) ga.size fun l => ga.mem.has l

/-- LEXIT (R161, R162): with no acted lane it does nothing where no collective waits for its split; of a split that keeps a
member, in a course with no open token and no split that waits for this one, the acted lanes leave its members and its active set and count as exited, and their
registers keep their values; the last lanes of a course end it, its block's barriers not being in use; an ejected lane is
done. -/
def Obligations.LaneExit : Prop :=
  ∀ (s : State) (o : P3), Ready (.lexit o) s →
    let m := s.acted o.g
    let next := s.nextPc (.lexit o)
    (m = 0 → (∀ c k, s.cur = .course c k → ∀ j ∈ (s.course c).joiners k, collOf j.i = none) →
        ∃ t, exec (.lexit o) s = .next t ∧ Goes next {} s t)
      ∧ (∀ c k, s.cur = .course c k → m ≠ 0 → (s.course c).joiners k = [] →
          (∀ n, ((s.course c).token n).isOpen = false) →
          ((s.split c k).m &&& ~~~m ≠ 0 → (s.course c).exited ||| m ≠ Mask.all →
            ∃ t, exec (.lexit o) s = .next t ∧ t.pc = next ∧ (t.split c k).m = (s.split c k).m &&& ~~~m
              ∧ t.active = s.active &&& ~~~m ∧ (t.course c).exited = (s.course c).exited ||| m
              ∧ (t.course c).regs = (s.course c).regs ∧ t.rest = s.rest)
          ∧ ((∀ j, j ≠ k → (s.split c j).m = 0) → (s.course c).exited ||| m = Mask.all → (s.course c).place = .resident →
            (∀ n < 16, (s.bar (s.course c).block n).expect = none) →
            ∃ t, exec (.lexit o) s = .next t ∧ (t.course c).place = .ended ∧ (t.course c).splits = []))
      ∧ (∀ q, s.cur = .lane q → m ≠ 0 → ∃ t, exec (.lexit o) s = .next t ∧ (t.lane q).st = .done)

/-! ### Vector instructions on integers -/

/-- VADD, VSUB, VMUL and VABS (R188, R190), every element of every acted lane: the exact result modulo 2^w, or under SAT the
nearest number of the type with SAT and NX set; the destination's other lanes and everything else stay. -/
def Obligations.VectorArithmetic : Prop :=
  ∀ (s : State) (o : V3),
    let m := s.acted o.g
    let a (l j : Nat) : Int := elemInt o.ty (s.csrc o.ty o.a l) j
    let b (l j : Nat) : Int := elemInt o.ty (s.csrc o.ty o.b l) j
    let exact (i : Instr) (fs : List (BitVec 12)) (f : Nat → Nat → Int) : Prop :=
      VReady i m fs s → ∃ val fl, VDone i (destOf o.ty o.d o.ws) m s val fl ∧ Exact o.ty (o.mod.getLsbD 3) m f val fl
    exact (.vadd o) [o.a, o.b] (fun l j => a l j + b l j) ∧ exact (.vsub o) [o.a, o.b] (fun l j => a l j - b l j)
      ∧ exact (.vmul o) [o.a, o.b] (fun l j => a l j * b l j) ∧ exact (.vabs o) [o.a] (fun l j => |a l j|)

/-- VMULH, VDIV, VREM, VAND, VOR, VXOR, VSHL, VSHR, VROT, VMIN, VMAX and VBITC (R188, R190, R192), every element of every
acted lane: as the scalar instructions on words of the element's width; no flag is set. -/
def Obligations.VectorBitwise : Prop :=
  ∀ (s : State) (o : V3),
    let m := s.acted o.g
    let a (l : Nat) := s.csrc o.ty o.a l
    let b (l : Nat) := s.csrc o.ty o.b l
    let signed := signedTy o.ty
    let E := BitVec (elemBits o.ty)
    let lanewise (i : Instr) (fs : List (BitVec 12)) (f : E → E → E) : Prop :=
      VReady i m fs s → ∃ val, VDone i (destOf o.ty o.d o.ws) m s val 0
        ∧ ∀ l < 96, m.has l = true → Elems o.ty f (a l) (b l) (val l)
    let two (i : Instr) (f : E → E → E) : Prop := lanewise i [o.a, o.b] f
    two (.vmulh o) (if signed then mulHighS _ else mulHighU _) ∧ two (.vdiv o) (if signed then quotS else quotU)
      ∧ two (.vrem o) (if signed then restS else restU) ∧ two (.vand o) (· &&& ·) ∧ two (.vor o) (· ||| ·)
      ∧ two (.vxor o) (· ^^^ ·) ∧ two (.vshl o) (fun x n => x <<< n)
      ∧ two (.vshr o) (fun x n => if signed then x.sshiftRight' n else x >>> n)
      ∧ two (.vrot o) (fun x n => x.rotateLeft (n.toNat % elemBits o.ty))
      ∧ two (.vmin o) (if signed then lessS else lessU) ∧ two (.vmax o) (if signed then moreS else moreU)
      ∧ lanewise (.vbitc o) [o.a] fun x _ => countBits o.sub.toNat x

/-- VMAD, VADDC and VADDS (R190, R191): A × B + C, exact and narrowed once; the sum with carry-in and its carry-out
predicate; D plus the absolute differences of the elements, modulo 2^32. Under write-back suppression no register is read
as VADDS's D, and the value it leaves in BL0 is the model's (log 16). -/
def Obligations.VectorAccumulate : Prop :=
  ∀ (s : State) (o : V4) (p : V3),
    let m := s.acted o.g
    let int (f : BitVec 12) (l j : Nat) : Int := elemInt o.ty (s.csrc o.ty f l) j
    (VReady (.vmad o) m [o.a, o.b, o.c] s → ∃ val fl, VDone (.vmad o) (destOf o.ty o.d o.ws) m s val fl
        ∧ Exact o.ty (o.mod.getLsbD 3) m (fun l j => int o.a l j * int o.b l j + int o.c l j) val fl)
      ∧ (o.ty = .n32 ∨ o.ty = .n64 → VReady (.vaddc o) m [o.a, o.b] s →
          let sum (l : Nat) : Nat := (s.csrc o.ty o.a l).toNat + (s.csrc o.ty o.b l).toNat
            + if (s.preg (o.c.toNat % 16)).has l then 1 else 0
          let x := destOf o.ty o.d o.ws
          ∃ t val carry, exec (.vaddc o) s = .next t ∧ Done (.vaddc o) { x.touch with p := [o.imm.toNat % 16] } s t
            ∧ WroteV s t x m val ∧ WroteP s t (o.imm.toNat % 16) m carry ∧ t.regs.flags = s.regs.flags
            ∧ ∀ l < 96, m.has l = true → elemOf o.ty (val l) 0 = BitVec.ofNat _ (sum l)
              ∧ carry.has l = decide (2 ^ elemBits o.ty ≤ sum l))
      ∧ (p.ty = .i16x2 ∨ p.ty = .i8x4 → VReady (.vadds p) (s.acted p.g) [p.a, p.b] s →
          ∃ val, VDone (.vadds p) (destOf p.ty p.d p.ws) (s.acted p.g) s val 0
            ∧ (p.ws = false → ∀ l < 96, (s.acted p.g).has l = true → (val l).truncate 32 = BitVec.ofNat 32
                ((s.vreg p.d.toNat l).toNat + ((List.range (tyElems p.ty)).map fun j =>
                  (elemInt p.ty (s.csrc p.ty p.a l) j - elemInt p.ty (s.csrc p.ty p.b l) j).natAbs).sum)))

/-- VBFX and VBFI (R192), bit by bit: the field of len bits at pos, taken from IMM20 or from the lane's C, is extracted and
extended, or inserted into the old D. Under write-back suppression VBFI's D is no register (log 16). -/
def Obligations.VectorBitFields : Prop :=
  ∀ (s : State) (o : V4), ScalarTy o.ty ∨ o.ty = .b32 →
    let m := s.acted o.g
    let w := elemBits o.ty
    let fs := if o.sub = 0 then [o.a] else [o.a, o.c]
    let control (l : Nat) : Nat := (s.csrc o.ty o.c l).toNat
    let pos (l : Nat) : Nat := if o.sub = 0 then (o.imm.extractLsb' 0 6).toNat else control l % 64
    let len (l : Nat) : Nat := min (if o.sub = 0 then (o.imm.extractLsb' 6 7).toNat else control l / 256 % 128) w
    let a (l : Nat) := elemOf o.ty (s.csrc o.ty o.a l) 0
    let old (l : Nat) : Word := if is64 o.ty then s.vpair o.d.toNat l else (s.vreg o.d.toNat l).zeroExtend 64
    let bits (i : Instr) (bit : Nat → Nat → Bool) : Prop :=
      VReady i m fs s → ∃ val, VDone i (destOf o.ty o.d o.ws) m s val 0
        ∧ ∀ l < 96, m.has l = true → ∀ j < w, (val l).getLsbD j = bit l j
    bits (.vbfx o) (fun l j => let k := if signedTy o.ty && decide (len l ≤ j) then len l - 1 else j
        decide (k < len l) && fieldBit (signedTy o.ty) (a l) (pos l) k)
      ∧ (o.ws = false → bits (.vbfi o) fun l j =>
          if pos l ≤ j ∧ j < pos l + len l then (a l).getLsbD (j - pos l) else (old l).getLsbD j)
      ∧ (VReady (.vbfi o) m fs s → ∃ val, VDone (.vbfi o) (destOf o.ty o.d o.ws) m s val 0)

/-- VCMP (R193): the acted lanes of the predicate take the result of the compare, p0 stays, BL0 becomes invalid and no flag
is set. A NaN makes every condition of `.f32` false but NE and UNO. -/
def Obligations.VectorCompare : Prop :=
  ∀ (s : State) (o : V3),
    let m := s.acted o.g
    let a (l : Nat) := s.csrc o.ty o.a l
    let b (l : Nat) := s.csrc o.ty o.b l
    let x (v : Word) : Ext := FF.f32.toExt v.toNat
    let float (l : Nat) : Bool :=
      let nan := (x (a l)).isNan || (x (b l)).isNan
      let lt (u v : Word) : Bool := (x u).lt (x v)
      match o.sub.toNat with
      | 0 => !nan && !lt (a l) (b l) && !lt (b l) (a l)
      | 1 => nan || lt (a l) (b l) || lt (b l) (a l)
      | 2 => lt (a l) (b l)
      | 3 => !nan && !lt (b l) (a l)
      | 4 => lt (b l) (a l)
      | 5 => !nan && !lt (a l) (b l)
      | 6 => !nan
      | _ => nan
    let sets (holds : Nat → Bool) : Prop :=
      VReady (.vcmp o) m [o.a, o.b] s → ∃ t v, exec (.vcmp o) s = .next t
        ∧ Done (.vcmp o) { p := [o.d.toNat % 16], latches := true } s t ∧ WroteP s t (o.d.toNat % 16) m v
        ∧ (∀ l < 96, m.has l = true → v.has l = holds l) ∧ (t.latch 0).valid = 0 ∧ ∀ k < 3, t.latch (k + 1) = s.latch k
    (ScalarTy o.ty → o.sub.toNat < 6 → sets fun l =>
        compares o.sub.toNat (signedTy o.ty) (elemOf o.ty (a l) 0) (elemOf o.ty (b l) 0))
      ∧ (o.ty = .f32 → o.sub.toNat < 8 → sets float)

/-- VSEL, VMOV, VMOVI, VBRD, VEXT, VPACK and VUNPK (R194, R199): the value each leaves in every acted lane; no flag is set.
Under write-back suppression VPACK's D is no register (log 16). -/
def Obligations.VectorMoves : Prop :=
  ∀ (s : State) (o : V3) (q : V4) (r : Vi),
    let lanes (g : Guard) (i : Instr) (fs : List (BitVec 12)) (x : Dest) (v : Nat → Word) : Prop :=
      VReady i (s.acted g) fs s → ∃ val, VDone i x (s.acted g) s val 0
        ∧ ∀ l < 96, (s.acted g).has l = true → if x.wide then val l = v l else (val l).truncate 32 = (v l).truncate 32
    let x := destOf o.ty o.d o.ws
    let a (l : Nat) := s.csrc o.ty o.a l
    let b (l : Nat) := s.csrc o.ty o.b l
    let half (signed : Bool) (w : Nat) (v : Word) (j : Nat) : BitVec 32 :=
      if signed then (v.extractLsb' (w * j) w).signExtend 32 else (v.extractLsb' (w * j) w).zeroExtend 32
    lanes q.g (.vsel q) [q.a, q.b] (destOf q.ty q.d q.ws) (fun l =>
        if (s.preg (q.c.toNat % 16)).has l then s.csrc q.ty q.a l else s.csrc q.ty q.b l)
      ∧ lanes o.g (.vmov o) [o.a] x a
      ∧ lanes r.g (.vmovi r) [] (destOf r.ty r.d r.ws) (fun _ => if r.ty = .i64 then r.imm.signExtend 64 else r.imm.zeroExtend 64)
      ∧ (o.ty = .b32 ∨ o.ty = .n64 → lanes o.g (.vbrd o) [] x fun _ => s.sreg (o.a.toNat % 64))
      ∧ (o.ty = .b32 → lanes o.g (.vext o) [o.a, o.b] x fun l =>
          (((b l).truncate 32 : BitVec 32) ++ ((a l).truncate 32 : BitVec 32)) >>> (8 * o.sub.toNat))
      ∧ (o.ty = .i16x2 → lanes o.g (.vpack o) [o.a, o.b] x fun l =>
          (0 : BitVec 32) ++ ((b l).truncate 16 : BitVec 16) ++ ((a l).truncate 16 : BitVec 16))
      ∧ (o.ty = .i8x4 → o.ws = false → o.sub.toNat < 2 → lanes o.g (.vpack o) [o.a, o.b] x fun l =>
          let pair := ((b l).truncate 8 : BitVec 8) ++ ((a l).truncate 8 : BitVec 8)
          let d := s.vreg o.d.toNat l
          if o.sub = 0 then (0 : BitVec 32) ++ d.extractLsb' 16 16 ++ pair else (0 : BitVec 32) ++ pair ++ d.extractLsb' 0 16)
      ∧ (o.ty = .i8x4 → VReady (.vpack o) (s.acted o.g) [o.a, o.b] s → ∃ val, VDone (.vpack o) x (s.acted o.g) s val 0)
      ∧ (o.ty = .i16x2 → o.sub.toNat < 2 → lanes o.g (.vunpk o) [o.a] ⟨o.d.toNat, true, o.ws⟩ fun l =>
          half (o.sub = 0) 16 (a l) 1 ++ half (o.sub = 0) 16 (a l) 0)
      ∧ (o.ty = .i8x4 → o.sub.toNat < 4 → lanes o.g (.vunpk o) [o.a] ⟨o.d.toNat, true, o.ws⟩ fun l =>
          half (o.sub.toNat % 2 = 0) 8 (a l) (2 * (o.sub.toNat / 2) + 1) ++ half (o.sub.toNat % 2 = 0) 8 (a l) (2 * (o.sub.toNat / 2)))

/-- VSYS (R195): the system values of a split's lanes, the block's index in the launch by log 17; an ejected lane reads the
values of its hand-over. -/
def Obligations.VectorSystemValues : Prop :=
  ∀ (s : State) (o : V3), VReady (.vsys o) (s.acted o.g) [] s →
    let m := s.acted o.g
    let leaves (v : Nat → Nat) : Prop :=
      ∃ val, VDone (.vsys o) ⟨o.d.toNat, false, o.ws⟩ m s val 0
        ∧ ∀ l < 96, m.has l = true → (val l).truncate 32 = BitVec.ofNat 32 (v l)
    (∀ c k, s.cur = .course c k →
      let x := s.course c
      let b := s.block x.block
      let d := (s.launch b.launch).desc
      (o.sub = 0 → leaves fun l => l) ∧ (o.sub = 1 → leaves fun l => l / 4) ∧ (o.sub = 2 → leaves fun _ => x.index)
        ∧ (o.sub = 3 → leaves fun _ => b.index % max 1 d.ldim.1)
        ∧ (o.sub = 4 → leaves fun _ => b.index / max 1 d.ldim.1 % max 1 d.ldim.2.1)
        ∧ (o.sub = 5 → leaves fun _ => b.index / max 1 d.ldim.1 / max 1 d.ldim.2.1)
        ∧ (o.sub = 6 → leaves fun _ => d.bdim.1) ∧ (o.sub = 7 → leaves fun _ => d.bdim.2.1)
        ∧ (o.sub = 8 → leaves fun _ => d.bdim.2.2) ∧ (o.sub = 9 → leaves fun _ => d.ldim.1)
        ∧ (o.sub = 10 → leaves fun _ => d.ldim.2.1) ∧ (o.sub = 11 → leaves fun _ => d.ldim.2.2)
        ∧ (o.sub = 12 → leaves fun l => (96 * x.index + l) % max 1 d.bdim.1)
        ∧ (o.sub = 13 → leaves fun l => (96 * x.index + l) / max 1 d.bdim.1 % max 1 d.bdim.2.1)
        ∧ (o.sub = 14 → leaves fun l => (96 * x.index + l) / max 1 d.bdim.1 / max 1 d.bdim.2.1)
        ∧ (o.sub = 15 → leaves fun _ => b.core) ∧ (o.sub = 16 → leaves fun _ => b.core / 96)
        ∧ (o.sub = 17 → leaves fun _ => if x.consumer then 1 else 0))
      ∧ (∀ q, s.cur = .lane q → leaves fun _ => ((s.lane q).vsys.getD o.sub.toNat 0).toNat)

/-! ### Vector instructions on floating-point elements -/

/-- VFADD, VFSUB, VFMUL, VFMA, VFDIV, VFSQRT, VFSCALE and VFRND (R173, R174, R196): every element of every acted lane is the
exact result rounded once, under SR with some 16-bit hash; the flags of all elements are ORed in. That VFSCALE's exponent beyond
4,096 either way counts as 4,096 is the model's choice (log 2). -/
def Obligations.VectorFloat : Prop :=
  ∀ (s : State) (o : V3) (q : V4), o.ty ∈ [ElemTy.f32, .bf16x2, .f16x2] → q.ty ∈ [ElemTy.f32, .bf16x2, .f16x2] →
    let m := s.acted o.g
    let f := fmtOf o.ty
    let a (l j : Nat) : Ext := f.toExt (elemOf o.ty (s.csrc o.ty o.a l) j).toNat
    let b (l j : Nat) : Ext := f.toExt (elemOf o.ty (s.csrc o.ty o.b l) j).toNat
    let v (x : BitVec 12) (l j : Nat) : Ext := (fmtOf q.ty).toExt (elemOf q.ty (s.csrc q.ty x l) j).toNat
    let rounds (i : Instr) (fs : List (BitVec 12)) (x : Nat → Nat → Ext × BitVec 6) : Prop :=
      VReady i m fs s → ∃ val fl, VDone i (destOf o.ty o.d o.ws) m s val fl
        ∧ Rounded o.ty o.mod m (fun l j => f.prep (x l j).2 (x l j).1) val fl
    let rd := o.mod.toNat % 8 == 2
    rounds (.vfadd o) [o.a, o.b] (fun l j => Ext.add rd (a l j) (b l j))
      ∧ rounds (.vfsub o) [o.a, o.b] (fun l j => Ext.add rd (a l j) (b l j).neg)
      ∧ rounds (.vfmul o) [o.a, o.b] (fun l j => (a l j).mul (b l j))
      ∧ rounds (.vfdiv o) [o.a, o.b] (fun l j => (a l j).div (b l j))
      ∧ rounds (.vfsqrt o) [o.a] (fun l j => (a l j).sqrt)
      ∧ rounds (.vfscale o) [o.a, o.b] (fun l j =>
          ((a l j).scale (max (-4096) (min 4096 (elemOf .i32 (s.csrc .i32 o.b l) 0).toInt)), 0))
      ∧ (VReady (.vfrnd o) m [o.a] s → ∃ val fl, VDone (.vfrnd o) (destOf o.ty o.d o.ws) m s val fl
          ∧ Rounded o.ty o.mod m (fun l j => prepRnd f (a l j)) val fl)
      ∧ (VReady (.vfma q) (s.acted q.g) [q.a, q.b, q.c] s → ∃ val fl, VDone (.vfma q) (destOf q.ty q.d q.ws) (s.acted q.g) s val fl
          ∧ Rounded q.ty q.mod (s.acted q.g) (fun l j =>
              let p := (v q.a l j).mul (v q.b l j)
              let r := Ext.add (q.mod.toNat % 8 == 2) p.1 (v q.c l j)
              (fmtOf q.ty).prep (p.2 ||| r.2) r.1) val fl)

/-- VDOT2 and VDOT4 (R197): C plus the exact products of the elements, rounded once into FP32, or wrapped or saturated as a
signed 32-bit number; a NaN operand gives the canonical NaN. That it then sets no flag, even beside an infinity times zero in
the same sum, is the model's choice (log 42). -/
def Obligations.DotProducts : Prop :=
  ∀ (s : State) (o : V4) (i : Instr), i = .vdot2 o ∨ i = .vdot4 o →
    let m := s.acted o.g
    let n := tyElems o.ty
    let int (f : BitVec 12) (l j : Nat) : Int := elemInt o.ty (s.csrc o.ty f l) j
    let float (f : BitVec 12) (l j : Nat) : Ext := (fmtOf o.ty).toExt (elemOf o.ty (s.csrc o.ty f l) j).toNat
    let c (l : Nat) : Ext := FF.f32.toExt (s.csrc .f32 o.c l).toNat
    let pre (l : Nat) : Pre :=
      if (c l).isNan || (List.range n).any (fun j => (float o.a l j).isNan || (float o.b l j).isNan) then .done 0x7FC00000 0
      else
        let sum := (List.range n).foldl (fun (e : Ext × BitVec 6) j =>
          let p := (float o.a l j).mul (float o.b l j)
          let r := Ext.add (o.mod.toNat % 8 == 2) e.1 p.1
          (r.1, e.2 ||| p.2 ||| r.2)) (c l, 0)
        FF.f32.prep sum.2 sum.1
    VReady i m [o.a, o.b, o.c] s →
      (o.ty = .i16x2 ∨ o.ty = .i8x4 → ∃ val fl, VDone i ⟨o.d.toNat, false, o.ws⟩ m s val fl
          ∧ Exact .i32 (o.mod.getLsbD 3) m (fun l _ => elemInt .i32 (s.csrc .i32 o.c l) 0
              + ((List.range n).map fun j => int o.a l j * int o.b l j).sum) val fl)
        ∧ (o.ty ∈ [ElemTy.bf16x2, .f16x2, .e4m3, .e5m2, .c8, .c6] → ∃ val fl, VDone i ⟨o.d.toNat, false, o.ws⟩ m s val fl
            ∧ Rounded .f32 o.mod m (fun l _ => pre l) val fl)

/-- VFMIN, VFMAX, VFCLASS and the approximate functions VFRCP to VFTANH (R184, R185, R196) complete wherever their operands
permit it; every element of every acted lane becomes the lesser or the greater, with −0 below +0 and a NaN giving way, the bit
of its class, or the function's value: for a special operand the one of R185, else a value inside the bound of R184 (log 10), or
the nearest one to the exact value. -/
def Obligations.VectorFloatCodes : Prop :=
  ∀ (s : State) (o : V3), o.ty ∈ [ElemTy.f32, .bf16x2, .f16x2] →
    let m := s.acted o.g
    let f := fmtOf o.ty
    let x := destOf o.ty o.d o.ws
    let sign (c : Nat) : Bool := c.testBit (f.width - 1)
    let a (l j : Nat) : Nat := (elemOf o.ty (s.csrc o.ty o.a l) j).toNat
    let b (l j : Nat) : Nat := (elemOf o.ty (s.csrc o.ty o.b l) j).toNat
    let completes (i : Instr) (fs : List (BitVec 12)) (res : Nat → Nat → Nat × BitVec 6) : Prop :=
      VReady i m fs s → ∃ t val fl, exec i s = .next t ∧ Done i x.touch s t ∧ WroteV s t x m val
        ∧ t.regs.flags = s.regs.flags ||| fl ∧ Codes o.ty m res val fl
    let pick (least : Bool) (x y : Nat) : Nat :=
      if (f.toExt x).isNan then (if (f.toExt y).isNan then f.nanCode else y)
      else if (f.toExt y).isNan then x
      else if (f.toExt x).lt (f.toExt y) then (if least then x else y)
      else if (f.toExt y).lt (f.toExt x) then (if least then y else x)
      else if sign x = least then x else y
    let cls (x : Nat) : Nat :=
      let mag := x % 2 ^ (f.width - 1)
      if (f.toExt x).isNan then 256
      else if (f.toExt x).isInf then (if sign x then 1 else 128)
      else if mag = 0 then (if sign x then 8 else 16)
      else if mag < 2 ^ f.frac then (if sign x then 4 else 32)
      else (if sign x then 2 else 64)
    let sat := o.mod.getLsbD 3
    let fun1 (i : Instr) (opc : Nat) : Prop :=
      completes i [o.a] (fun l j => special f sat opc (a l j))
        ∧ (∀ c y fl, specialOf opc (f.toExt c) = .inl (y, fl) → special f sat opc c = f.round 0 sat fl y)
        ∧ ∀ c y bound, o.ty = .f32 → specialOf opc (f.toExt c) = .inr (y, bound) →
            bound.holds y (f.toExt (special f sat opc c).1) = true ∨ (special f sat opc c).1 = (f.round 0 sat 0 y).1
              ∨ (special f sat opc c).1 = (f.round 0 false 0 y).1
    completes (.vfmin o) [o.a, o.b] (fun l j => (pick true (a l j) (b l j), 0))
      ∧ completes (.vfmax o) [o.a, o.b] (fun l j => (pick false (a l j) (b l j), 0))
      ∧ completes (.vfclass o) [o.a] (fun l j => (cls (a l j), 0))
      ∧ fun1 (.vfrcp o) 0x69 ∧ fun1 (.vfrsq o) 0x6A ∧ fun1 (.vfexp2 o) 0x6B ∧ fun1 (.vflog2 o) 0x6C ∧ fun1 (.vfsin o) 0x6D
      ∧ fun1 (.vfcos o) 0x6E ∧ fun1 (.vftanh o) 0x6F

/-- VCVT (R198): the elements that K selects are converted, each rounded once by the rule of the destination type; a narrowing
one keeps D's other elements, which are zero under write-back suppression. -/
def Obligations.Conversion : Prop :=
  ∀ (s : State) (o : V3) (src : ElemTy), tyOf o.sub.toNat = some src → legalOp (.vcvt o) = true →
    let m := s.acted o.g
    let cd := tyElems o.ty
    let cs := tyElems src
    let k := o.b.toNat
    let from' (j : Nat) : Nat := if cs ≤ cd then j % cs else k * cd + j
    let converted (j : Nat) : Bool := decide (cd ≤ cs) || decide (k * cs ≤ j ∧ j < k * cs + cs)
    let pre (l j : Nat) : Pre := convertPre o.ty (elemExt src (elemOf src (s.csrc src o.a l) (from' j)).toNat)
    VReady (.vcvt o) m [o.a] s → ∃ (val : Nat → Word) (fl : BitVec 6) (hash : Nat → Nat → Nat),
      VDone (.vcvt o) (destOf o.ty o.d o.ws) m s val fl ∧ (∀ l j, hash l j < 65536)
      ∧ (let done (l j : Nat) := (pre l j).finish (o.mod.toNat % 8) (o.mod.getLsbD 3) (hash l j)
        (∀ l < 96, m.has l = true → ∀ j < cd, elemOf o.ty (val l) j =
            if converted j then BitVec.ofNat _ (done l j).1
            else if o.ws then 0 else elemOf o.ty ((s.vreg o.d.toNat l).zeroExtend 64) j)
          ∧ ∀ n < 6, fl.getLsbD n = true ↔ ∃ l < 96, m.has l = true ∧ ∃ j < cd, converted j = true ∧ (done l j).2.getLsbD n = true)

/-- PAIR (R82 to R84): a legal pair whose latches are valid completes, as each half does alone on the state before it, and does
what both do: what either half changes is changed as that half changes it, the flags of both are ORed in, and half 0's result
stands in BL1 below half 1's in BL0. -/
def Obligations.PairHalves : Prop :=
  ∀ (s : State) (h0 h1 : Half) (i0 i1 : Instr),
    Instr.wellFormed (.pair h0 h1) = true → halfInstr h0 = some i0 → halfInstr h1 = some i1 →
    VReady i0 (s.acted h0.g) [h0.a, h0.b] s → VReady i1 (s.acted h1.g) [h1.a, h1.b] s → Ready (.pair h0 h1) s →
      let preds (h : Half) : List Nat := if h.op7 = 0x15 then [h.d.toNat % 16] else []
      ∃ t t0 t1, exec (.pair h0 h1) s = .next t ∧ exec i0 s = .next t0 ∧ exec i1 s = .next t1
        ∧ Done (.pair h0 h1) { v := halfWrites h0 ++ halfWrites h1, p := preds h0 ++ preds h1, flags := true, latches := true } s t
        ∧ (∀ r, ∀ l < 96, t.vreg r l = if t0.vreg r l ≠ s.vreg r l then t0.vreg r l else t1.vreg r l)
        ∧ (∀ n < 16, t.preg n = if t0.preg n ≠ s.preg n then t0.preg n else t1.preg n)
        ∧ t.regs.flags = t0.regs.flags ||| t1.regs.flags
        ∧ t.latch 0 = t1.latch 0 ∧ t.latch 1 = t0.latch 0 ∧ t.latch 2 = s.latch 0 ∧ t.latch 3 = s.latch 1

/-! ### Collectives -/

/-- The collectives (R186, R201 to R206) of a split that holds every lane of the group and issues the instruction for the first
time: what each contributing lane receives
from its block of n lanes; every other lane keeps its destination, no latch moves, and a flag is set by `.f32` alone. -/
def Obligations.Collectives : Prop :=
  ∀ (s : State) (o : V4) (c k : Nat), s.cur = .course c k → (∀ i ops, s.wait ≠ .join i ops) →
    let g := s.greg (o.imm.toNat % 8)
    let n := g.size
    n ∈ [4, 8, 16, 32, 96] →
    let mine (l : Nat) : Bool := (s.acted o.g).has l && g.mem.has l
    let base (l : Nat) : Nat := l / n * n
    let block (l : Nat) : List Nat := ((List.range n).map (base l + ·)).filter mine
    let A (l : Nat) : Word := s.csrc o.ty o.a l
    let C (l : Nat) : Word := s.csrc o.ty o.c l
    let delta := (o.imm.extractLsb' 3 7).toNat
    let pA (l : Nat) : Bool := (s.preg (o.a.toNat % 16)).has l
    let pC (l : Nat) : Bool := (s.preg (o.c.toNat % 16)).has l
    let completes (i : Instr) (fs : List (BitVec 12)) (w : Touch) (good : State → Prop) : Prop :=
      VReady i (s.acted o.g) fs s → MeetsAlone s c k g.mem → ∃ t, exec i s = .next t ∧ Done i { w with flags := true } s t
        ∧ (o.ty ≠ .f32 → t.regs.flags = s.regs.flags) ∧ t.regs.flags ||| s.regs.flags = t.regs.flags ∧ good t
    let vector (i : Instr) (fs : List (BitVec 12)) (wide : Bool) (gets : Nat → Bool) (val : Nat → Word) : Prop :=
      let d := o.d.toNat
      completes i fs { v := if wide then [d, d + 1] else [d] } fun t => ∀ l < 96,
        if wide then t.vpair d l = (if gets l then val l else s.vpair d l)
        else t.vreg d l = if gets l then (val l).truncate 32 else s.vreg d l
    let pred (i : Instr) (fs : List (BitVec 12)) (val : Nat → Bool) : Prop :=
      let d := o.d.toNat % 16
      completes i fs { p := [d] } fun t =>
        if d = 0 then t.preg 0 = Mask.all else ∀ l < 96, (t.preg d).has l = if mine l then val l else (s.preg d).has l
    let source (l : Nat) : Option Nat :=
      let p := l % n
      let q : Option Nat :=
        match o.sub.toNat with
        | 0 => some ((s.csrc .b32 o.b l).toNat % n)
        | 1 => if delta ≤ p then some (p - delta) else none
        | 2 => if p + delta < n then some (p + delta) else none
        | _ => if p ^^^ delta < n then some (p ^^^ delta) else none
      (q.map (base l + ·)).filter mine
    let index : List (BitVec 12) := if o.sub = 0 then [o.b] else []
    let window (l : Nat) (f : Nat → Bool) : Word :=
      bitsOf fun j => decide (32 * (l % n / 32) + j < n) && mine (base l + 32 * (l % n / 32) + j) && f (base l + 32 * (l % n / 32) + j)
    let element (l p : Nat) : BitVec (elemBits o.ty) :=
      if mine (base l + p) then elemOf o.ty (A (base l + p)) 0 else reduceUnit o.ty (o.sub.toNat % 8)
    let op := reduceOp o.ty (o.sub.toNat % 8)
    let run (l q : Nat) : BitVec (elemBits o.ty) :=
      (List.range q).foldl (fun acc p => op acc (element l p)) (reduceUnit o.ty (o.sub.toNat % 8))
    let ranked (l : Nat) : Option Nat := ((block l).filter pC)[((block l).filter (· < l)).length]?
    vector (.vshfl o) ([o.a] ++ index) (is64 o.ty) mine (fun l => match source l with | some j => A j | none => A l)
      ∧ vector (.vshfx o) ([o.a] ++ index ++ [o.c]) (is64 o.ty) mine (fun l => match source l with | some j => A j | none => C l)
      ∧ (o.sub = 0 → vector (.vbcast o) [o.a] (is64 o.ty) mine fun l =>
          if delta < n ∧ mine (base l + delta) then A (base l + delta) else A l)
      ∧ (o.sub = 1 → vector (.vbcast o) [o.a] (is64 o.ty) mine fun l => A (((block l).find? pC).getD l))
      ∧ (o.ty = .i32 → o.sub = 0 → pred (.vvote o) [] fun l => (block l).any pA)
      ∧ (o.ty = .i32 → o.sub = 1 → pred (.vvote o) [] fun l => (block l).all pA)
      ∧ (o.ty = .i32 → o.sub = 2 → vector (.vvote o) [] false mine fun l => window l pA)
      ∧ (o.ty = .i32 → o.sub = 3 → vector (.vvote o) [] false mine fun l => BitVec.ofNat 64 ((block l).filter pA).length)
      ∧ (o.sub = 0 → vector (.vmatch o) [o.a] false mine fun l => window l fun j => A j == A l)
      ∧ (o.sub = 1 → pred (.vmatch o) [o.a] fun l => (block l).all fun j => A j == A l)
      ∧ (ScalarTy o.ty ∨ o.ty = .f32 ∨ o.ty = .b32 → o.sub.toNat < 6 → vector (.vred o) [o.a] (is64 o.ty) mine fun l =>
          (blockOfTree op (element l) n).zeroExtend 64)
      ∧ (ScalarTy o.ty ∨ o.ty = .f32 ∨ o.ty = .b32 → o.sub.toNat < 6 → vector (.vscan o) [o.a] (is64 o.ty) mine fun l =>
          (run l (l % n + 1)).zeroExtend 64)
      ∧ (ScalarTy o.ty ∨ o.ty = .f32 ∨ o.ty = .b32 → 8 ≤ o.sub.toNat → o.sub.toNat < 14 →
          vector (.vscan o) [o.a] (is64 o.ty) mine fun l => (run l (l % n)).zeroExtend 64)
      ∧ vector (.vcmpr o) [o.a] (is64 o.ty) (fun l => mine l && (ranked l).isSome) (fun l => A ((ranked l).getD 0))

/-! ### Loads, stores and atomics -/

/-- LD (R219, R234, R236 to R238, R285 to R287): where the loads of the acted lanes, each checked by R235 and performed in ascending
order, all pass, it completes. Each lane's registers D upward hold the bytes that its load may return, least significant first
and extended by the type, or on a formatted page the elements decoded from them under their scale bytes; the other lanes and
everything else stay but for what caches hold. Bytes that race with a copy's chunk are R299's. -/
def Obligations.LoadVector : Prop :=
  ∀ (s u : State) (o : Mem) (xs : List Loaded), let i := Instr.ld o
    (s.entering i).loadAll o (Mask.list (s.acted o.g)) = .ok (xs, u) → Ready i s →
      let n := sizeBytes o
      let words := max 1 (n / 4)
      let code (x : Loaded) (bs : List Byte) (j : Nat) : Nat × BitVec 6 :=
        decodeElem x.acc.loc.fmt (fmtOf o.ty) ((codesOf x.acc.loc.fmt bs).getD j 0) x.acc.scale
      OnlySeen (s.entering i) u ∧ xs.map (·.acc.lane) = Mask.list (s.acted o.g)
        ∧ (∀ x ∈ xs, x.acc.addr = s.memAddr o false x.acc.lane)
        ∧ ∃ t, exec i s = .next t
          ∧ Done i { v := (List.range words).map (o.d.toNat + ·), flags := true } (if o.ord = 2 then u.acquire o.scope.toNat else u) t
          ∧ (s.memoryWf = true → s.shadows = [] → ∀ x ∈ xs, x.acc.loc.plain → ∃ bs : List Byte,
              (∀ j < bs.length, s.mayShow x.acc.loc j (bs.getD j 0))
                ∧ (x.acc.loc.fmt = 0 → bs.length = n ∧ x.flags = 0 ∧ ∀ j < 4 * words,
                    (t.vreg (o.d.toNat + j / 4) x.acc.lane).extractLsb' (8 * (j % 4)) 8 = extByte bs (o.ty == .i32) j)
                ∧ (x.acc.loc.fmt ≠ 0 → o.ty ∈ [ElemTy.f32, .bf16x2, .f16x2] →
                    bs.length = tyElems o.ty * fmtBytes x.acc.loc.fmt
                      ∧ (∀ j < tyElems o.ty, elemOf o.ty ((t.vreg o.d.toNat x.acc.lane).zeroExtend 64) j
                          = BitVec.ofNat _ (code x bs j).1)
                      ∧ ∀ k < 6, x.flags.getLsbD k = true ↔ ∃ j < tyElems o.ty, (code x bs j).2.getLsbD k = true))
          ∧ (∀ j < words, ∀ l < 96, (s.acted o.g).has l = false → t.vreg (o.d.toNat + j) l = s.vreg (o.d.toNat + j) l)
          ∧ ∀ k < 6, t.regs.landed.flags.getLsbD k = true
              ↔ s.regs.landed.flags.getLsbD k = true ∨ ∃ x ∈ xs, x.flags.getLsbD k = true

/-- LDS and SLDP (R150, R239, R285 to R287): where the access passes R235, the scalar holds the bytes that the load may return,
extended by the type; nothing else changes but for what caches hold. -/
def Obligations.LoadScalar : Prop :=
  ∀ (s : State),
    let loads (i : Instr) (sp : Space) (hint : Nat) (a : Word) (n : Nat) (signed : Bool) (d : Nat) (ends : State → State) : Prop :=
      ∀ x v bs u, (s.entering i).checkAcc sp 127 a { n := n } = .ok (x, v) → v.readLoc hint x.loc n = .ok (bs, u) → Ready i s →
        OnlySeen (s.entering i) u
          ∧ (s.memoryWf = true → s.shadows = [] → x.loc.plain → bs.length = n ∧ ∀ j < n, s.mayShow x.loc j (bs.getD j 0))
          ∧ ∃ t w, exec i s = .next t ∧ Done i { s := [d] } (ends u) t ∧ WroteS s t d w
            ∧ ∀ j < 8, w.extractLsb' (8 * j) 8 = extByte bs signed j
    (∀ o : Mem, o.size.toNat < 4 →
        loads (.lds o) (spaceOf o.as) o.hint.toNat (s.memAddr o true 0) (sizeBytes o) (signedTy o.ty) (o.d.toNat % 64)
          fun u => if o.ord = 2 then u.acquire o.scope.toNat else u)
      ∧ (∀ (o : S3) (v : BitVec 32), o.b = .imm v → o.sub.toNat < 4 →
        loads (.sldp o) .gen 0 (s.pc + v.signExtend 64) (2 ^ o.sub.toNat) (signedTy o.ty) o.d.toNat id)

/-- ST (R180, R219, R234, R236 to R238): after every acted lane's access has passed R235, each lane's bytes are stored at its address,
those of a higher lane last: register bytes, or on a formatted page the codes of the elements, each divided by its scale and
rounded once under the page's RND and SAT, the canonical NaN under scale byte 0xFF, with their flags; no other byte changes (a release at
POOL scope or above writes dirty lines back, R241), and no register. Bytes that race with a copy's chunk are R300's. -/
def Obligations.StoreVector : Prop :=
  ∀ (s v : State) (o : Mem) (xs : List Acc), let i := Instr.st o
    (s.entering i).checkAll (spaceOf o.as) (s.memAddr o false) (memNeed o true) (Mask.list (s.acted o.g)) = .ok (xs, v) →
    (∀ x ∈ xs, x.loc.plain) → Ready i s →
      let flush := o.ord == 1 && decide (4 ≤ o.scope.toNat)
      let n (x : Acc) : Nat := if x.loc.fmt = 0 then sizeBytes o else tyElems o.ty * fmtBytes x.loc.fmt
      let data := (s.storeBytesOf o xs).1
      (∀ x ∈ xs, x.addr = s.memAddr o false x.lane) ∧ xs.map (·.lane) = Mask.list (s.acted o.g) ∧ data.map (·.1) = xs
        ∧ (∀ e ∈ data, e.1.loc.fmt = 0 → e.2 = (List.range (sizeBytes o)).map fun j =>
            (s.vreg (o.d.toNat + j / 4) e.1.lane).extractLsb' (8 * (j % 4)) 8)
        ∧ (o.ty ∈ [ElemTy.f32, .bf16x2, .f16x2] → ∃ hash : Nat → Nat → Nat, (∀ l j, hash l j < 65536) ∧
            let code (x : Acc) (f : Leaf) (j : Nat) : Nat × BitVec 6 :=
              let v := (elemOf o.ty ((s.vreg o.d.toNat x.lane).zeroExtend 64) j).toNat
              let pre : Pre := if x.scale = 255 then .done (fmtFF f.fmt).nanCode 0
                else (fmtFF f.fmt).prep 0 (((fmtOf o.ty).toExt v).scale (127 - (x.scale : Int)))
              pre.finish f.rnd f.sat (hash x.lane j)
            (∀ e ∈ data, ∀ f, e.1.loc = .phys f → f.fmt ≠ 0 →
                e.2 = (List.range (tyElems o.ty)).flatMap fun j => natLe (fmtBytes f.fmt) (code e.1 f j).1)
              ∧ ∀ b < 6, (s.storeBytesOf o xs).2.getLsbD b = true ↔ ∃ x ∈ xs, ∃ f, x.loc = .phys f ∧ f.fmt ≠ 0
                  ∧ ∃ j < tyElems o.ty, (code x f j).2.getLsbD b = true)
        ∧ ∃ u t, exec i s = .next t ∧ Done i { flags := true } s u
          ∧ u.regs.flags = s.regs.flags ||| (s.storeBytesOf o xs).2 ∧ OnlyBytes u t (s.hitBy xs n flush) (padHitBy xs n)
          ∧ (s.memoryWf = true → s.shadows = [] → ∀ before e after, data = before ++ e :: after →
              (flush = true → ¬e.1.loc.uncached ∧ s.shownOnce e.1.loc (n e.1)) → ∀ j < n e.1,
              (∀ y ∈ after, ∀ k < n y.1, s.same e.1.loc j y.1.loc k = false) → t.byteAt e.1.loc j = e.2.getD j 0)

/-- STS (R239): the low bytes of the scalar are stored; no other byte changes, and no register. -/
def Obligations.StoreScalar : Prop :=
  ∀ (s v : State) (o : Mem) (x : Acc), o.size.toNat < 4 →
    (s.entering (.sts o)).checkAcc (spaceOf o.as) 127 (s.memAddr o true 0) { n := sizeBytes o, rd := false, wr := true }
      = .ok (x, v) →
    x.loc.plain → Ready (.sts o) s →
      let flush := o.ord == 1 && decide (4 ≤ o.scope.toNat)
      ∃ u t, exec (.sts o) s = .next t ∧ Done (.sts o) {} s u
        ∧ OnlyBytes u t (s.hitBy [x] (fun _ => sizeBytes o) flush) (padHitBy [x] fun _ => sizeBytes o)
        ∧ (s.memoryWf = true → s.shadows = [] → (flush = true → ¬x.loc.uncached ∧ s.shownOnce x.loc (sizeBytes o)) →
            ∀ j < sizeBytes o, t.byteAt x.loc j = (s.sreg (o.d.toNat % 64)).extractLsb' (8 * j) 8)

/-- ATOM and ATOMS (R243 to R246): the accesses are performed one after another in ascending lane number, each on the value
that the one before left; the old values are returned unless `.nr`, and the place holds the last new value. No other byte
and no other register changes. That the old value of an ATOMS of `.i32` is sign-extended into the scalar is the model's choice
(log 30). The value clauses are of accesses that all go through one policy, to places that no other window of the pool shows and
no unfinished chunk has written. -/
def Obligations.Atomics : Prop :=
  ∀ (s : State) (o : Mem) (pol : Nat), ScalarTy o.ty ∨ o.ty = .f32 → sizeBytes o = elemBits o.ty / 8 → o.sub.toNat % 16 < 9 →
    let n := sizeBytes o
    let words := n / 4
    let E := BitVec (elemBits o.ty)
    let op := atomValue o.ty (o.sub.toNat % 16)
    let flush := decide (4 ≤ o.scope.toNat)
    let settled (x : Acc) : Prop := s.memoryWf = true ∧ s.shadows = [] ∧ (flush = true → ¬x.loc.uncached)
    let one (xs : List Acc) : Prop := ∀ x ∈ xs, x.loc.plain ∧ s.shownOnce x.loc n
      ∧ (∀ f, x.loc = .phys f → f.pol = pol ∧ f.pa % n = 0) ∧ ∀ b off, x.loc = .pad b off → off % n = 0
    let after (arg : Acc → E × E) (x : Acc) (ys : List Acc) : E :=
      (ys.filter fun y => s.same y.loc 0 x.loc 0).foldl (fun v y => op v (arg y).1 (arg y).2)
        (BitVec.ofNat _ (s.valueAt x.loc n))
    (∀ v xs, (s.entering (.atom o)).checkAll (spaceOf o.as) (s.memAddr o false) (atomNeed o) (Mask.list (s.acted o.g))
          = .ok (xs, v) → one xs →
        Ready (.atom o) s →
        let reg (d l : Nat) : E := BitVec.ofNat _ (if is64 o.ty then (s.vpair d l).toNat else (s.vreg d l).toNat)
        let arg (x : Acc) : E × E := (reg o.d.toNat x.lane, reg (o.d.toNat + words) x.lane)
        let regs := if o.sub.getLsbD 4 then [] else (List.range words).map (o.d.toNat + ·)
        ∃ u t, exec (.atom o) s = .next t ∧ Done (.atom o) { v := regs, flags := true } s u
          ∧ (o.ty ≠ .f32 → u.regs.flags = s.regs.flags)
          ∧ OnlyBytes u t (s.hitBy xs (fun _ => n) flush) (padHitBy xs fun _ => n)
          ∧ (∀ before x rest, xs = before ++ x :: rest → o.sub.getLsbD 4 = false → settled x →
              (if is64 o.ty then (u.vpair o.d.toNat x.lane).toNat else (u.vreg o.d.toNat x.lane).toNat) = (after arg x before).toNat)
          ∧ (o.sub.getLsbD 4 = false → ∀ j < words, ∀ l < 96, (s.acted o.g).has l = false →
              u.vreg (o.d.toNat + j) l = s.vreg (o.d.toNat + j) l)
          ∧ ∀ x ∈ xs, settled x → t.valueAt x.loc n = (after arg x xs).toNat)
      ∧ (∀ v x, (s.entering (.atoms o)).checkAcc (spaceOf o.as) 127 (s.memAddr o true 0) (atomNeed o) = .ok (x, v) → one [x] →
        Ready (.atoms o) s →
        let d := o.d.toNat % 64
        let old : E := BitVec.ofNat _ (s.valueAt x.loc n)
        let new : E := op old (BitVec.ofNat _ (s.sreg d).toNat) (BitVec.ofNat _ (s.sreg (d + 1)).toNat)
        ∃ u t, exec (.atoms o) s = .next t ∧ Done (.atoms o) { s := if o.sub.getLsbD 4 then [] else [d], flags := true } s u
          ∧ (o.ty ≠ .f32 → u.regs.flags = s.regs.flags)
          ∧ OnlyBytes u t (s.hitBy [x] (fun _ => n) flush) (padHitBy [x] fun _ => n)
          ∧ (o.sub.getLsbD 4 = false → settled x →
              WroteS s u d (if o.ty = .i32 then (old.toNat : BitVec 32).signExtend 64 else old.toNat))
          ∧ (settled x → t.valueAt x.loc n = new.toNat))

/-- FENCE, CPF, CWB, CINV and ICINV (R92, R241, R254 to R256, R296): a FENCE at POOL scope or above writes the dirty lines of the
pooled tier back (at SYSTEM scope those of host memory too), so that memory holds what L2 held; CPF only brings lines into
caches; CWB and `cinv.wb` write back the lines that the acted lanes name, STREAM copies of every agent over what L2 holds, in
the order in which they were made (log 40), and `cinv.wb` removes them; `cinv.discard` removes a STREAM page's line from every
cache; CINV waits for pins (what `cinv.discard` removes may be dirty in L2 too, and is lost); ICINV drops the instruction-cache lines of its context within its scope and the course's fetch buffers. No other byte and
no register changes. The clauses about bytes are of those that no other window of the pool shows, where a line that L2 calls
clean equals memory. -/
def Obligations.CacheOperations : Prop :=
  ∀ (s : State), s.memoryWf = true →
    let plain (pa : Nat) : Prop := (∀ b, s.memKey b = s.memKey pa → b = pa)
      ∧ ((s.tag (pa / 128)).clean = true → s.memByte pa = s.wbByte pa)
    let merged (pa : Nat) : Byte := (s.stream.filter fun x => x.line == pa / 128).foldl
      (fun v x => if x.changed.getLsbD (pa % 128) then x.bytes.getD (pa % 128) 0 else v) (s.wbByte pa)
    (∀ o : Sys, Ready (.fence o) s → ∃ u t, exec (.fence o) s = .next t ∧ Done (.fence o) {} s u ∧ t.bare = u.bare
        ∧ ∀ pa, plain pa → t.wbByte pa = s.wbByte pa
          ∧ t.memByte pa = if (4 ≤ o.x.toNat ∧ isPool (pa / 128 * 128)) ∨ (5 ≤ o.x.toNat ∧ isHost (pa / 128 * 128)) then s.wbByte pa
              else s.memByte pa)
      ∧ (∀ o : Mem, Ready (.cpf o) s → ∃ u t, exec (.cpf o) s = .next t ∧ Done (.cpf o) {} s u ∧ OnlySeen u t)
      ∧ (∀ (o : Mem) (fs : List Leaf) (i : Instr), s.cacheLines o false (Mask.list (s.acted o.g)) = .ok fs →
        i = .cwb o ∨ (i = .cinv o ∧ o.sub ≠ 1 ∧ ∀ f ∈ fs, f.pol < 2 → s.pinned (f.pa / 128) = false) → Ready i s →
          ∃ u t, exec i s = .next t ∧ Done i {} s u ∧ t.bare = u.bare
            ∧ (∀ f ∈ fs, f.pol < 2 → ∀ pa, pa / 128 = f.pa / 128 → plain pa →
                t.wbByte pa = merged pa ∧ t.memByte pa = merged pa
                  ∧ (i = .cinv o → Cells.get [] t.wb (pa / 128) = [] ∧ ∀ x ∈ t.stream, x.line ≠ pa / 128))
            ∧ ∀ pol pa, (∀ f ∈ fs, f.pol < 2 → pa / 128 ≠ f.pa / 128) → plain pa → t.readByte pol pa = s.readByte pol pa)
      ∧ (∀ (o : Mem) (fs : List Leaf), s.cacheLines o true (Mask.list (s.acted o.g)) = .ok fs → o.sub = 1 →
        (∀ f ∈ fs, ∀ g ∈ fs, f.pol = g.pol) → (∀ f ∈ fs, f.pol < 2 → s.pinned (f.pa / 128) = false) → Ready (.cinv o) s →
          ∃ u t, exec (.cinv o) s = .next t ∧ Done (.cinv o) {} s u ∧ t.bare = u.bare
            ∧ (∀ f ∈ fs, ∀ pa, pa / 128 = f.pa / 128 → plain pa →
                (f.pol = 1 → Cells.get [] t.wb (pa / 128) = [] ∧ ∀ x ∈ t.stream, x.line ≠ pa / 128)
                ∧ (f.pol = 0 → t.memByte pa = merged pa) ∧ (f.pol = 1 ∨ 2 ≤ f.pol → t.memByte pa = s.memByte pa))
            ∧ ∀ pol pa, (∀ f ∈ fs, pa / 128 ≠ f.pa / 128) → plain pa → t.readByte pol pa = s.readByte pol pa)
      ∧ (∀ (o : Mem) (fs : List Leaf) (f : Leaf), s.cacheLines o (o.sub == 1) (Mask.list (s.acted o.g)) = .ok fs → f ∈ fs → f.pol < 2 →
          s.pinned (f.pa / 128) = true → Ready (.cinv o) s → ∃ t, exec (.cinv o) s = .next t ∧ Waits (.cinv o) .stalled s t)
      ∧ (∀ o : Sys, Ready (.icinv o) s → ∃ u t, exec (.icinv o) s = .next t ∧ Done (.icinv o) {} s.dropBufs u
        ∧ { t with icache := [] }.bare = { u with icache := [] }.bare
        ∧ (∀ pa, plain pa → t.wbByte pa = s.wbByte pa)
        ∧ ∀ e, e ∈ t.icache ↔ e ∈ s.icache ∧ ¬(e.ctx = (s.ctx (s.ctxOf s.curCourse)).num ∧ s.icinvCovers o.x.toNat e.core = true))

/-- A collective that cannot complete at once (R135, R202): over a lane that is ejected, has exited, has arrived at a REGANG or
stands on a re-entry stack it raises COLLECTIVE_SPLIT with TADDR 0 before any effect; while another split that holds a lane of
the group has not issued it, it stalls with its operands as they are now, which the wait keeps (log 29); when the last split
issues the same collective, every split goes on, and each lane has its result in its own split's destination, shown by VRED; and
where the last one issues another collective, or one whose fields differ, nothing is written and the split that issued first
raises COLLECTIVE_SPLIT with the last one's PC in TADDR. -/
def Obligations.CollectiveRendezvous : Prop :=
  ∀ (s : State) (o : V4) (c k : Nat) (i : Instr) (fs : List (BitVec 12)), s.cur = .course c k →
    (i, fs) ∈ [(.vbcast o, [o.a]), (.vmatch o, [o.a]), (.vred o, [o.a]), (.vscan o, [o.a]), (.vcmpr o, [o.a]), (.vvote o, [])] →
    VReady i (s.acted o.g) fs s →
      let mem := (s.greg (o.imm.toNat % 8)).mem
      let n := (s.greg (o.imm.toNat % 8)).size
      let absent := mem &&& s.absentLanes c
      let own := s.acted o.g &&& mem
      let bit (p l : Nat) : Word := if (s.preg (p % 16)).has l then 1 else 0
      let A (l : Nat) : Word := if i = .vvote o then bit o.a.toNat l else s.csrc o.ty o.a l
      let C (l : Nat) : Word := if (i = .vbcast o ∧ o.sub = 1) ∨ i = .vcmpr o then bit o.c.toNat l else 0
      let two (j : Nat) : Prop := j ≠ k ∧ (s.split c j).m &&& mem ≠ 0 ∧ (s.split c k).m &&& mem ≠ 0
        ∧ ∀ n, n ≠ j → n ≠ k → (s.split c n).m = 0
      let first : Prop := ∀ i ops, s.wait ≠ .join i ops
      (absent ≠ 0 → CanTrap s c → ∃ t, exec i s = .next t ∧ Traps s t c k 0x11 127 s.pc 0 0)
        ∧ (absent = 0 → first → (s.course c).joiners k = [] → (∃ j, j ≠ k ∧ (s.split c j).m &&& mem ≠ 0) →
            ∃ t, exec i s = .next t ∧ Waits i (.join i ((Mask.list own).map fun l => (l, A l, 0, C l))) s t)
        ∧ (∀ (j : Nat) (ops : List (Nat × Word × Word × Word)), absent = 0 → two j → (s.split c j).wait = .join i ops →
            ∃ t, exec i s = .next t ∧ t.pc = s.nextPc i ∧ t.wait = .ready
              ∧ (t.split c j).wait = .ready ∧ (t.split c j).pc = (s.split c j).next)
        ∧ (∀ (j : Nat) (q : V4) (held : Mask) (kept : Nat → BitVec 32), absent = 0 → two j → first → i = .vred o →
            (s.split c j).wait = .join (.vred q) ((Mask.list held).map fun l => (l, (kept l).zeroExtend 64, 0, 0)) →
            q.ty = o.ty → q.sub = o.sub → q.mod = o.mod → q.imm = o.imm → o.ty ∈ [ElemTy.i32, .n32, .f32, .b32] →
            n ∈ [4, 8, 16, 32, 96] → o.sub.toNat < 6 →
            let element (l p : Nat) : BitVec (elemBits o.ty) :=
              let m := l / n * n + p
              if held.has m then elemOf o.ty ((kept m).zeroExtend 64) 0
              else if own.has m then elemOf o.ty (A m) 0 else reduceUnit o.ty o.sub.toNat
            let result (l : Nat) : BitVec 32 := (blockOfTree (reduceOp o.ty o.sub.toNat) (element l) n).zeroExtend 32
            ∃ t, exec i s = .next t ∧ ∀ r, ∀ l < 96, t.vreg r l
              = if (r = q.d.toNat ∧ held.has l = true) ∨ (r = o.d.toNat ∧ own.has l = true) then result l else s.vreg r l)
        ∧ (∀ (j : Nat) (i' : Instr) (q : V4) (opc : BitVec 8) (ops : List (Nat × Word × Word × Word)), absent = 0 → j ≠ k →
            s.wait = .ready → (s.split c j).wait = .join i' ops → collOf i' = some (opc, q) → (s.split c j).m ≠ 0 →
            (s.greg (q.imm.toNat % 8)).mem &&& (s.split c k).m ≠ 0 → (∀ n, n ≠ j → n ≠ k → (s.split c n).m = 0) →
            (collOf i).map (fun e => (e.1, e.2.ty, e.2.sub, e.2.mod, e.2.imm)) ≠ some (opc, q.ty, q.sub, q.mod, q.imm) →
            CanTrap s c → ∃ t, exec i s = .next t ∧ Traps s t c j 0x11 127 (s.split c j).pc s.pc 0)

/-! ### Copies, batches and sync words -/

/-- CPY and CPYG (R227, R247, R250): the copy joins the open batch and the queue of its core's engine, row r from sB + r × the
source stride to sA + r × the destination stride, or rows gathered by the acted lanes in ascending order; with no acted lane
a CPYG does nothing, and a full queue stalls. -/
def Obligations.CopyIssue : Prop :=
  ∀ (s : State) (o : Cp) (sync : Option Nat),
    let c := s.curCourse
    (o.sw = 0 ∧ sync = none) ∨ (o.sw ≠ 0 ∧ ∃ off, sync = some off ∧ s.checkSync (s.sreg o.sw.toNat) = .ok off) →
    let copy (rows : List (Word × Word)) : Copy :=
      { course := c, core := s.coreOf c, batch := (s.course c).openBatch, srcSp := spaceOf o.sas, dstSp := spaceOf o.das, rowb := o.rowb.toNat
        todo := rows.flatMap fun e => splitRow e.1 e.2 (o.sub == 0) o.rowb.toNat 40 0
        sync := sync, dec := if o.sub = 0 then none else some o.ty, scope := o.scope.toNat
        hint := o.hint.toNat }
    let issues (i : Instr) (rows : List (Word × Word)) : Prop :=
      Ready i s →
        (s.copiesOn (s.coreOf c) < 64 →
          ∃ t, exec i s = .next t ∧ Done i {} { s with copies := s.copies ++ [copy rows] } t)
        ∧ (64 ≤ s.copiesOn (s.coreOf c) → ∃ t, exec i s = .next t ∧ Waits i .stalled s t)
    let row (a stride : BitVec 6) (n : Nat) : Word := s.sreg a.toNat + BitVec.ofNat 64 n * s.sreg stride.toNat
    let lanes := Mask.list (s.acted o.g)
    issues (.cpy o) ((List.range o.rows.toNat).map fun r => (row o.sb o.sstr r, row o.db o.dstr r))
      ∧ (lanes ≠ [] → issues (.cpyg o) (lanes.zipIdx.flatMap fun e => (List.range o.rows.toNat).map fun j =>
          (row o.sb o.sstr ((s.vreg o.idx.toNat e.1).toNat + j), row o.db o.dstr (e.2 * o.rows.toNat + j))))
      ∧ (lanes = [] → Ready (.cpyg o) s → ∃ t, exec (.cpyg o) s = .next t ∧ Done (.cpyg o) {} s t)

/-- The chunks of a row (R227): in order they cover its bytes once each, and no chunk crosses a 4 KiB boundary of the source,
nor of the destination of a raw copy. Rows have at most 65,535 bytes, for which 40 chunks suffice. -/
def Obligations.CopyChunks : Prop :=
  ∀ (src dst : Word) (raw : Bool) (n : Nat), n < 65536 →
    let cs := splitRow src dst raw n 40 0
    cs.flatMap (fun h => (List.range h.n).map (h.off + ·)) = List.range n
      ∧ ∀ h ∈ cs, h.src = src ∧ h.dst = dst ∧ 0 < h.n ∧ h.off + h.n ≤ n
        ∧ (src + BitVec.ofNat 64 h.off).toNat % 4096 + h.n ≤ 4096
        ∧ (raw = true → (dst + BitVec.ofNat 64 h.off).toNat % 4096 + h.n ≤ 4096)

/-- BSEAL, BWAIT, SWINIT and SWAIT, and the count of a sync word (R228 to R231, R251 to R253, R321). BSEAL seals the open batch
and answers its number, and stalls while 15 sealed batches are outstanding; BWAIT goes on once at most N are; SWINIT writes
TARGET, zeroes COUNT and clears FAULT; a BWAIT that would count a failed batch raises BATCH_FAULT with the fault's address, the
batch number and the fault's code; SWAIT answers 0 once the generation is reached and 1 at a fault; n counted bytes carry
COUNT over TARGET into the generation. -/
def Obligations.BatchesAndSyncWords : Prop :=
  ∀ (s : State) (o : Sys),
    let c := s.curCourse
    let x := s.course c
    let b := x.block
    let idle : Prop := ∀ j n, (s.split c j).wait ≠ .batch n
    let next (i : Instr) : Word := s.nextPc i
    (Ready (.bseal o) s → s.isLane = false → idle → x.oldest ≤ x.openBatch →
        (x.openBatch - x.oldest < 15 → ∃ t, exec (.bseal o) s = .next t
          ∧ Done (.bseal o) { s := [o.d.toNat], flags := true } (s.modCourse c fun y =>
              { y with openBatch := y.openBatch + 1, oldest := (t.course c).oldest, lateFlags := (t.course c).lateFlags }) t
          ∧ WroteS s t o.d.toNat (BitVec.ofNat 64 (x.openBatch % 65536))
          ∧ (∀ q, x.oldest ≤ q → q < (t.course c).oldest → s.batchBusy c q = false)
          ∧ ((t.course c).oldest = x.openBatch + 1 ∨ s.batchBusy c (t.course c).oldest = true))
        ∧ (15 ≤ x.openBatch - x.oldest → ∃ t, exec (.bseal o) s = .next t ∧ Waits (.bseal o) .stalled s t))
      ∧ (Ready (.bwait o) s → s.isLane = false → x.openBatch - x.oldest ≤ o.imm.toNat → x.failCounted o.imm.toNat = none →
          ∃ t, exec (.bwait o) s = .next t ∧ t.pc = next (.bwait o) ∧ t.wait = .ready ∧ Keeps { flags := true } s t
            ∧ t.rest = s.rest)
      ∧ (∀ k f, s.cur = .course c k → Ready (.bwait o) s → CanTrap s c → x.openBatch - x.oldest ≤ o.imm.toNat →
          x.failCounted o.imm.toNat = some f →
          let info : Word := BitVec.ofNat 64 (f.seq % 65536 + f.code * 65536)
          ∃ t, exec (.bwait o) s = .next t ∧ Traps s t c k 0x15 127 s.pc f.addr info false (x.failNamed info).toList)
      ∧ (Ready (.bwait o) s → s.isLane = false → o.imm.toNat < x.openBatch - x.oldest → s.batchBusy c x.oldest = true →
          (∀ e ∈ x.lateFlags, s.batchDone c e.1 = false) →
          ∃ t, exec (.bwait o) s = .next t ∧ Waits (.bwait o) (.batch o.imm.toNat) s t)
      ∧ (∀ off, s.checkSync (s.sreg o.a.toNat) = .ok off → b < s.blocks.length →
        let target : Nat := if o.x = 1 then o.imm.toNat else (s.sreg o.b.toNat).toNat % 2 ^ 32
        (Ready (.swinit o) s → ∃ u t, exec (.swinit o) s = .next t ∧ Done (.swinit o) {} s u
            ∧ OnlyBytes u t (fun _ _ => False) (fun b' a => b' = b ∧ off ≤ a ∧ a < off + 16 ∧ ¬(off + 8 ≤ a ∧ a < off + 12))
            ∧ t.padNat b off 4 = target ∧ t.padNat b (off + 4) 4 = 0
            ∧ ∀ n < 32, (t.padNat b (off + 12) 4).testBit n = (decide (n ≠ 1) && (s.padNat b (off + 12) 4).testBit n))
        ∧ (Ready (.swait o) s →
          let g : BitVec 32 := if o.x = 1 then o.imm.zeroExtend 32 else (s.sreg o.b.toNat).truncate 32
          let reached := (BitVec.ofNat 32 (s.padNat b (off + 8) 4) - g).toNat < 2 ^ 31
          let fault := (s.padNat b (off + 12) 4).testBit 1
          let seen := s.notBefore (s.padStamp b off 16).1
          (reached → ∃ t, exec (.swait o) s = .next t ∧ Done (.swait o) { s := [o.d.toNat] } seen t ∧ WroteS s t o.d.toNat 0)
            ∧ (¬reached → fault = true → ∃ t, exec (.swait o) s = .next t ∧ Done (.swait o) { s := [o.d.toNat] } seen t
                ∧ WroteS s t o.d.toNat 1)
            ∧ (¬reached → fault = false → ∃ t, exec (.swait o) s = .next t ∧ Waits (.swait o) (.sync off g o.d) s t)))
      ∧ (∀ off n at', b < s.blocks.length →
        let target := s.padNat b off 4
        let count := s.padNat b (off + 4) 4 + n
        let t := s.syncAdd b off n at'
        t.padNat b off 4 = target
          ∧ t.padNat b (off + 4) 4 = (if target = 0 then count % 2 ^ 32 else count % target)
          ∧ t.padNat b (off + 8) 4 = (if target = 0 then s.padNat b (off + 8) 4
              else (s.padNat b (off + 8) 4 + count / target) % 2 ^ 32))

/-! ### The matrix engine -/

/-- HSET, HGEN, MSTAT, MSCLR and OCFENCE (R260, R261, R264, R274, R278, R281), once no matrix operation of the course is
pending: HSET takes a descriptor that meets the conditions of R261 from two scalars, clears the handle with s0, and raises
FORMAT_MISMATCH with TINFO 0x406 for any other; HGEN counts the generation and drops operand-cache entries of the new
descriptor; MSTAT reads a status slot and MSCLR reads and clears it; OCFENCE drops the core's scratchpad entries. What the tile
fetches of the core have read of such a tile already makes no entry. While one is pending they stall. -/
def Obligations.MatrixHandles : Prop :=
  ∀ (s : State) (o : Mx) (q : Sys) (c k : Nat), s.cur = .course c k →
    let core := s.coreOf c
    let v : BitVec 128 := s.sreg (o.s.toNat + 1) ++ s.sreg o.s.toNat
    let f (lo len : Nat) : Nat := (v.extractLsb' lo len).toNat
    let e : Nat := if f 58 4 = 5 ∨ f 58 4 = 6 then 2 else 1
    let good : Prop := f 120 8 = 0 ∧ f 62 2 = 0 ∧ (f 58 4 = 1 ∨ (5 ≤ f 58 4 ∧ f 58 4 ≤ 10)) ∧ 1 ≤ f 64 16 ∧ 1 ≤ f 80 16
      ∧ (if f 58 4 = 1 then (f 80 16 + 7) / 8 ≤ f 96 24 else f 0 57 % e = 0 ∧ f 96 24 % e = 0 ∧ f 80 16 * e ≤ f 96 24)
      ∧ (v.getLsbD 57 = true → f 0 57 < 2 ^ 21)
    let drops (u : State) (p : BitVec 128 → Bool) : State :=
      { u with
        opcache := u.opcache.filter fun e => !(e.core == core && p e.tag.desc)
        ops := u.ops.map fun (y : MatOp) =>
          if y.core = some core then
            { y with uncached := y.uncached ++ (y.early.map (·.tile)).filter fun t => p (y.tags.getD t default).desc }
          else y }
    let setH (n : Nat) (h : BitVec 128) : State := s.modCourse c fun x => { x with h := Cells.set 0 x.h n h }
    let n := q.a.toNat % 16
    let h := Cells.get 0 (s.course c).h n
    let g : BitVec 8 := h.extractLsb' 120 8 + 1
    let h' : BitVec 128 := g ++ h.extractLsb' 0 120
    let slot := Cells.get 0 (s.course c).ts n
    (s.matrixPending = false →
      (Ready (.hset o) s → o.s = 0 → ∃ t, exec (.hset o) s = .next t ∧ Done (.hset o) {} (setH o.ha.toNat 0) t)
        ∧ (Ready (.hset o) s → o.s ≠ 0 → good → ∃ t, exec (.hset o) s = .next t
            ∧ Done (.hset o) {} (setH o.ha.toNat v) t)
        ∧ (Ready (.hset o) s → o.s ≠ 0 → ¬good → CanTrap s c → ∃ t, exec (.hset o) s = .next t
            ∧ Traps s t c k 0x09 127 s.pc 0 0x406)
        ∧ (Ready (.hgen q) s → ∃ t, exec (.hgen q) s = .next t ∧ Done (.hgen q) { s := [q.d.toNat] }
            (drops (setH n h') fun d => d == h') t
            ∧ WroteS s t q.d.toNat (g.zeroExtend 64))
        ∧ (Ready (.mstat q) s → ∃ t, exec (.mstat q) s = .next t ∧ Done (.mstat q) { s := [q.d.toNat] } s t
            ∧ WroteS s t q.d.toNat slot)
        ∧ (Ready (.msclr q) s → ∃ t, exec (.msclr q) s = .next t ∧ Done (.msclr q) { s := [q.d.toNat] }
            (s.modCourse c fun x => { x with ts := Cells.erase x.ts n }) t ∧ WroteS s t q.d.toNat slot
            ∧ Cells.get 0 (t.course c).ts n = 0))
      ∧ (Ready (.ocfence q) s → ∃ t, exec (.ocfence q) s = .next t ∧ Done (.ocfence q) {}
          (drops s fun d => d.getLsbD 57) t)
      ∧ (s.matrixPending = true → ∀ i ∈ [.hset o, .hgen q, .mstat q, .msclr q], Ready i s →
          ∃ t, exec i s = .next t ∧ Waits i .stalled s t)

/-- MMA, MMAS, MZERO and MCVT (R258, R259, R262, R265, R276 to R280): once the handles, extents and group have passed their
checks, the operation joins the engine queue of its core with its rows, tiles, open batch, scale, seed, PC and split as they are at issue;
MMA and MMAS with no acted member of the group do nothing; a full queue stalls, and so do saved operations of the course that
are not queued again yet (R268); a handle that does not fit raises FORMAT_MISMATCH: that it does so with no acted member too is
the model's choice (log 33). -/
def Obligations.MatrixIssue : Prop :=
  ∀ (s : State) (o : Mx) (c k : Nat) (sparse : Bool), s.cur = .course c k →
    let i : Instr := if sparse then .mmas o else .mma o
    let core := s.coreOf c
    let full : Prop := 16 ≤ (s.engineQueue core).length ∨ s.savedOps c ≠ []
    let op : MatOp := { kind := .mma, course := c, core := some core, o := o, issued := s.clock, pc := s.pc, split := k }
    let joins (i : Instr) (y : MatOp) : Prop :=
      Ready i s → (¬full → ∃ t, exec i s = .next t ∧ Done i {} { s with ops := s.ops ++ [y] } t)
        ∧ (full → ∃ t, exec i s = .next t ∧ Waits i .stalled s t)
    let g := s.greg (o.a.toNat % 8)
    let m := s.acted o.g &&& g.mem
    let tags := s.mmaTiles o sparse
    (∀ rows, s.mmaChecks o tags = .ok () → mmaRows o g.size m = .ok rows →
        (m ≠ 0 → joins i { op with
          kind := if sparse then .mmas else .mma, batch := some (s.course c).openBatch, rows := rows, tags := tags
          tiles := tags.map fun _ => none })
        ∧ (m = 0 → Ready i s → ∃ t, exec i s = .next t ∧ Done i {} s t))
      ∧ (∀ sub, s.mmaChecks o tags = .error (trapC 0x09 0 (BitVec.ofNat 64 (256 * sub + 6))) → Ready i s → CanTrap s c →
          ∃ t, exec i s = .next t ∧ Traps s t c k 0x09 127 s.pc 0 (BitVec.ofNat 64 (256 * sub + 6)))
      ∧ joins (.mzero o) { op with kind := .mzero, acted := s.acted o.g }
      ∧ joins (.mcvt o) { op with
          kind := .mcvt, acted := s.acted o.g, scale := if o.s = 0 then 127 else (s.sreg o.s.toNat).toNat % 256
          seed := s.regs.srseed ^^^ o.imm.extractLsb' 0 16 }

/-! ### Marks, barriers and progress -/

/-- MKINIT, MKSET and MKADD (R302, R303, R317 to R319), the mark's page granting the access: MKINIT writes VALUE 0, SETTER and
its status as one write where nothing waits, and raises BARRIER_MISUSE where something does; MKSET and MKADD answer the old
VALUE and leave the new one. No other byte and no other register changes (at POOL scope and above dirty lines are written
back). The values are of marks that no unfinished chunk has written. -/
def Obligations.Marks : Prop :=
  ∀ (s : State) (o : Sys) (f : Leaf), s.markLeaf (s.sreg o.a.toNat) true = .ok f →
    let own := s.launchOf s.curCourse
    let sound : Prop := s.memoryWf = true ∧ s.shadows = []
    let part (n pa : Nat) : Prop := ∃ j < n, s.memKey (f.pa + j) = s.memKey pa
    let inits (setter : Word) (status : Nat) : Prop :=
      ∃ u t, exec (.mkinit o) s = .next t ∧ Done (.mkinit o) {} s u
        ∧ OnlyBytes u t (fun _ pa => part 32 pa) (fun _ _ => False)
        ∧ (sound → t.markWord f 0 = 0 ∧ t.markWord f 8 = setter ∧ leNat (t.readBytes f.pol (f.pa + 16) 16) = status)
    let near := o.x.toNat % 8 < 4
    let alone (pa : Nat) : Prop := ∀ b, s.memKey b = s.memKey pa → b = pa
    let sets (i : Instr) (new : Word) : Prop :=
      ∃ t v, exec i s = .next t ∧ t.pc = s.nextPc i ∧ t.wait = .ready
        ∧ Keeps { s := [o.d.toNat], flags := o.x.getLsbD 3 && decide (4 ≤ o.x.toNat % 8) } s t
        ∧ WroteS s t o.d.toNat v
        ∧ (sound → near ∨ (f.pol ≠ 2 ∧ ∀ j < 8, alone (f.pa + j)) → v = s.markWord f 0 ∧ t.markWord f 0 = new)
        ∧ ∀ pol pa, ¬part 8 pa → near ∨ (pol < 2 ∧ alone pa) → t.readByte pol pa = s.readByte pol pa
    (Ready (.mkinit o) s → s.markWaiting f = 0 →
        (o.x = 0 → inits (BitVec.ofNat 64 own.id) (own.cls % 4))
          ∧ (∀ l, o.x = 1 → s.setterOf (s.ctxOf s.curCourse) (s.sreg o.b.toNat) = .launch l →
              inits (s.sreg o.b.toNat) ((s.launch l).cls % 4 + if (s.launch l).st = .retired then 4 else 0))
          ∧ (o.x = 2 → inits 0xFFFFFFFFFFFFFFFF 2))
      ∧ (∀ c k, s.cur = .course c k → CanTrap s c → Ready (.mkinit o) s → s.markWaiting f ≠ 0 →
          ∃ t, exec (.mkinit o) s = .next t ∧ Traps s t c k 0x10 127 s.pc 0 1)
      ∧ (Ready (.mkset o) s → sets (.mkset o) (if o.x.getLsbD 4 then o.imm.zeroExtend 64 else s.sreg o.b.toNat))
      ∧ (Ready (.mkadd o) s → sets (.mkadd o)
          (s.markWord f 0 + if o.x.getLsbD 4 then o.imm.signExtend 64 else s.sreg o.b.toNat))

/-- WAITM, PROMOTE and CLSRD (R305, R306, R310, R320, R323, R324). A WAITM whose setter is external, is not weaker than the
waiter, or has retired, reads VALUE as an acquire; where its condition holds it answers VALUE; where it does not, it waits, or
after the setter's retirement raises WEAK_WAIT; a mark that nobody sets, or that a child set which the waiter's launch holds,
raises WEAK_WAIT, as does a weaker setter under the FAULT policy. PROMOTE answers 0 where nothing is weaker, 4 and 5 for those
marks; CLSRD answers the launch's classes, or what the mark says of its setter and waiters. -/
def Obligations.MarkWaits : Prop :=
  ∀ (s : State) (o : Sys) (f : Leaf), s.markLeaf (s.sreg o.a.toNat) false = .ok f →
    let c := s.curCourse
    let l := s.launchIx c
    let x := (s.launch l).ctx
    let cls := (s.launch l).cls
    let va := s.sreg o.a.toNat
    let setter := s.markWord f 8
    let check := s.classCheck l cls setter
    let got := s.markValue f
    let value := got.1
    let read := got.2.acquire (o.x.toNat / 32 % 8)
    let signed := o.x.getLsbD 3
    let operand : Word := if o.x.getLsbD 4 then (if signed then o.imm.signExtend 64 else o.imm.zeroExtend 64) else s.sreg o.b.toNat
    let holds := compares (o.x.toNat % 8) signed value operand
    let tinfo (sub : Nat) : Word := BitVec.ofNat 64 (sub + 256 * s.setterClass x setter + 1024 * cls)
    let weak (u : State) (sub : Nat) : Prop :=
      ∀ k, s.cur = .course c k → CanTrap s c → ∃ t, exec (.waitm o) s = .next t ∧ Traps u t c k 0x0B 127 s.pc va (tinfo sub)
    let answers (i : Instr) (v : Nat) : Prop :=
      ∃ t, exec i s = .next t ∧ Done i { s := [o.d.toNat] } s t ∧ WroteS s t o.d.toNat (BitVec.ofNat 64 v)
    (s.shadows = [] → value = s.markWord f 0)
      ∧ (o.x.toNat % 8 < 6 → Ready (.waitm o) s →
        (check = .external ∨ check = .strong ∨ check = .retired → holds = true →
          ∃ t, exec (.waitm o) s = .next t ∧ Done (.waitm o) { s := [o.d.toNat] } read t ∧ WroteS s t o.d.toNat value)
        ∧ (check = .external ∨ check = .strong → holds = false →
          ∃ t, exec (.waitm o) s = .next t ∧ t.pc = s.pc ∧ Keeps {} s t
            ∧ ∃ due, t.wait = .mark va operand (o.x.toNat % 8) signed (o.x.toNat / 32 % 8) o.d due)
        ∧ (check = .retired → holds = false → weak read 6) ∧ (check = .unbound → weak s 5) ∧ (check = .childJoin → weak s 4)
        ∧ (∀ y, check = .weak y → (s.launch l).fault = true → weak s 1))
      ∧ (Ready (.promote o) s →
        (check = .external ∨ check = .strong ∨ check = .retired → answers (.promote o) 0)
          ∧ (check = .unbound → answers (.promote o) 5) ∧ (check = .childJoin → answers (.promote o) 4))
      ∧ (Ready (.clsrd o) s →
        (o.a = 0 → answers (.clsrd o) (cls + 4 * (s.launch l).admitted))
          ∧ (o.a ≠ 0 → answers (.clsrd o) (s.markWclass f * 2 ^ 48 + s.markWaiting f * 2 ^ 32 + s.setterBits x setter)))

/-- BAR, BARA and BARW (R311, R312, R322) of a split alone in its course: an arrival counts, and the first fixes EXPECT; the
phase completes when the count reaches it (0 stands for every course that has not ended), and what follows it is placed after
its arrivals (R315); BAR waits for the phase that it
arrived in, BARA does not, and BARW waits while the phase named is the current one; sD takes the phase with the number of
abandoned courses. Counts that differ, or exceed 16 from a register, raise BARRIER_MISUSE; so does, with TINFO 3, a BAR or BARW
after which no course of the block can go on, shown where its course is the only one left (R314). When a course is killed, every
phase that another course of the block waits in completes, and the results count the course as abandoned (R313). -/
def Obligations.BlockBarriers : Prop :=
  ∀ (s : State) (o : Sys) (c k : Nat), s.cur = .course c k →
    let b := (s.course c).block
    let n := o.x.toNat % 16
    let x := s.bar b n
    let v : Nat := if o.x.getLsbD 4 then (s.sreg o.b.toNat).toNat % 32 else o.imm.toNat
    let e : Nat := x.expect.getD v
    let last : Prop := (if e = 0 then (s.liveCourses b).length else e) ≤ x.count + 1
    let agrees : Prop := ¬(x.expect ≠ none ∧ e ≠ 0 ∧ v ≠ 0 ∧ e ≠ v)
    let sent := s.publish
    let time := max x.time sent.sight.time
    let arrived := sent.setBar b n { x with count := x.count + 1, expect := some e, time := time }
    let result (p : BitVec 16) : Word :=
      BitVec.ofNat 64 ((if (s.block b).abandoned = 0 then 0 else 2 ^ 31) + (s.block b).abandoned * 2 ^ 16 + p.toNat)
    let others : Prop := ∃ d ∈ (s.block b).courses, d ≠ c ∧ (s.course d).place ≠ .ended
      ∧ ∃ y ∈ (s.course d).splits, y.m ≠ 0 ∧ y.wait = .ready
    let completes (i : Instr) : Prop :=
      ∃ t, exec i s = .next t ∧ t.pc = s.nextPc i ∧ t.wait = .ready ∧ Keeps { s := [o.d.toNat] } s t
        ∧ WroteS s t o.d.toNat (result x.phase) ∧ t.bar b n = { phase := x.phase + 1, time := time }
    ((s.course c).atRegang ||| s.ejectedLanes c = 0 → (∀ j, j ≠ k → (s.split c j).m = 0 ∧ (s.split c j).wait = .ready) →
    c ∈ (s.block b).courses → (s.course c).place = .resident → (∀ i ops, s.wait ≠ .join i ops) →
      (v ≤ 16 ∨ o.x.getLsbD 4 = false → agrees →
        (Ready (.bar o) s → last → completes (.bar o))
          ∧ (Ready (.bar o) s → ¬last → others → ∃ t, exec (.bar o) s = .next t ∧ Waits (.bar o) (.bar n x.phase o.d true) arrived t)
          ∧ (Ready (.bara o) s → last → completes (.bara o))
          ∧ (Ready (.bara o) s → ¬last → ∃ t, exec (.bara o) s = .next t ∧ Done (.bara o) { s := [o.d.toNat] } arrived t
              ∧ WroteS s t o.d.toNat (result x.phase)))
        ∧ (let p : BitVec 16 := (s.sreg o.b.toNat).truncate 16
          Ready (.barw o) s →
            (x.phase ≠ p → ∃ t, exec (.barw o) s = .next t ∧ Done (.barw o) { s := [o.d.toNat] } (s.notBefore x.time) t
              ∧ WroteS s t o.d.toNat (result p))
            ∧ (x.phase = p → others → ∃ t, exec (.barw o) s = .next t ∧ Waits (.barw o) (.bar n p o.d false) s t))
        ∧ (∀ i, i = .bar o ∨ i = .bara o → Ready i s → CanTrap s c →
          (16 < v → o.x.getLsbD 4 = true → ∃ t, exec i s = .next t ∧ Traps s t c k 0x10 127 s.pc 0 4)
          ∧ (v ≤ 16 ∨ o.x.getLsbD 4 = false → ¬agrees → ∃ t, exec i s = .next t ∧ Traps s t c k 0x10 127 s.pc 0 0))
        ∧ (s.liveCourses b = [c] → CanTrap s c →
          let stood (u : State) (i : Instr) : State := u.modSplit c k fun y => { y with since := s.clock, next := s.nextPc i }
          (v ≤ 16 ∨ o.x.getLsbD 4 = false → agrees → Ready (.bar o) s → ¬last →
            let left : Bar := if x.count = 0 then { phase := x.phase, time := time } else { x with expect := some e, time := time }
            ∃ t, exec (.bar o) s = .next t ∧ Traps (stood (sent.setBar b n left) (.bar o)) t c k 0x10 127 s.pc 0 3)
          ∧ (x.phase = (s.sreg o.b.toNat).truncate 16 → Ready (.barw o) s →
            ∃ t, exec (.barw o) s = .next t ∧ Traps (stood s (.barw o)) t c k 0x10 127 s.pc 0 3)))
      ∧ (∀ (q : Sys) (d j n : Nat) (p : BitVec 16) (r : BitVec 6) (arr : Bool), Ready (.ckill q) s → (s.course c).place ≠ .ended →
          d ∈ (s.block b).courses → d ≠ c → b < s.blocks.length → n < 16 → (s.split d j).wait = .bar n p r arr →
          p = (s.bar b n).phase →
          let gone := min 255 ((s.block b).abandoned + 1)
          ∃ t, exec (.ckill q) s = .next t ∧ (t.block b).abandoned = gone
            ∧ t.bar b n = { phase := p + 1, time := (s.bar b n).time }
            ∧ (t.split d j).wait = .ready ∧ (t.split d j).pc = (s.split d j).next
            ∧ ((∀ i, i ≠ j → ∀ n p r arr, (s.split d i).wait ≠ .bar n p r arr) → 0 < r.toNat → r.toNat < 61 →
                Cells.get 0 (t.course d).regs.s r.toNat = BitVec.ofNat 64 (2 ^ 31 + gone * 2 ^ 16 + p.toNat)))

/-- SRD, SWR, YIELD, SLEEP and CKPT (R325, R326, R343, R369 to R371): what each state register reads and the ones that SWR
writes; YIELD makes the course the one that issued last, and under `.quantum` an EVENTUAL block has run its quantum; SLEEP
waits for N cycles of running time, or goes on as YIELD does at 0; CKPT.wait waits while registers are dirty. -/
def Obligations.StateRegisters : Prop :=
  ∀ (s : State) (o : Sys),
    let n := o.x.toNat
    let reads (v : Word) : Prop :=
      Ready (.srd o) s → ∃ t, exec (.srd o) s = .next t ∧ Done (.srd o) { s := [o.d.toNat] } s t ∧ WroteS s t o.d.toNat v
    let a := s.sreg o.a.toNat
    let writes (f : State → State) : Prop := Ready (.swr o) s → ∃ u, exec (.swr o) s = .next (f u) ∧ Done (.swr o) {} s u
    let own : Prop :=
      (n = 0x08 → reads s.regs.tscr0) ∧ (n = 0x09 → reads s.regs.tscr1) ∧ (n = 0x10 → reads (s.regs.srseed.zeroExtend 64))
        ∧ (n = 0x08 → writes fun u => u.modRegs fun r => { r with tscr0 := a })
        ∧ (n = 0x09 → writes fun u => u.modRegs fun r => { r with tscr1 := a })
        ∧ (n = 0x10 → writes fun u => u.modRegs fun r => { r with srseed := a.truncate 16 })
    let sleeping : Nat := if o.x = 1 then o.imm.toNat else a.toNat
    own
      ∧ (∀ c k, s.cur = .course c k →
        let x := s.course c
        let b := s.block x.block
        let l := s.launch b.launch
        let yielded (quantum : Bool) : State :=
          let u := s.modCourse c fun y => { y with last := s.tick }
          if quantum && l.cls == 1 then u.modBlock x.block fun y => { y with ranQ := true } else u
        (n = 0 → reads x.trap.cause) ∧ (n = 1 → reads x.trap.lane) ∧ (n = 2 → reads x.trap.pc) ∧ (n = 3 → reads x.trap.addr)
          ∧ (n = 4 → reads x.trap.info) ∧ (n = 5 → reads x.trap.opc) ∧ (n = 6 → reads x.trap.ocause)
          ∧ (n = 0x11 → reads (BitVec.ofNat 64 x.ejthr)) ∧ (n = 0x12 → reads (BitVec.ofNat 64 (l.cls + 4 * l.admitted)))
          ∧ (n = 0x20 → reads (BitVec.ofNat 64 l.id)) ∧ (n = 0x21 → reads (BitVec.ofNat 64 b.index))
          ∧ (n = 0x22 → reads (BitVec.ofNat 64 x.index)) ∧ (n = 0x30 → reads (BitVec.ofNat 64 (s.run c)))
          ∧ (n = 0x31 → reads (BitVec.ofNat 64 (s.cluster (b.core / 96)).passn))
          ∧ (n = 2 → x.trap.level = true → a.extractLsb' 0 2 = 0 → writes fun u =>
              u.modCourse c fun y => { y with trap := { y.trap with pc := a } })
          ∧ (n = 2 → x.trap.level = false → CanTrap s c → Ready (.swr o) s →
              ∃ t, exec (.swr o) s = .next t ∧ Traps s t c k 0x01 127 s.pc 0 (wordLow (.swr o)))
          ∧ (Ready (.yield o) s → ∃ t, exec (.yield o) s = .next t ∧ Done (.yield o) {} (yielded (o.x == 1)) t)
          ∧ (Ready (.sleep o) s → sleeping = 0 → ∃ t, exec (.sleep o) s = .next t ∧ Done (.sleep o) {} (yielded false) t)
          ∧ (Ready (.sleep o) s → sleeping ≠ 0 →
              ∃ t, exec (.sleep o) s = .next t ∧ Waits (.sleep o) (.sleep (s.run c + sleeping)) s t)
          ∧ (Ready (.ckpt o) s → o.x ≠ 1 ∨ x.dirtyRegs = [] → ∃ t, exec (.ckpt o) s = .next t ∧ Done (.ckpt o) {} s t)
          ∧ (Ready (.ckpt o) s → o.x = 1 → x.dirtyRegs ≠ [] →
              ∃ t, exec (.ckpt o) s = .next t ∧ Waits (.ckpt o) (.ckpt x.dirtyRegs) s t))
      ∧ (∀ q, s.cur = .lane q →
        (n < 7 → reads 0) ∧ (n ∈ [0x11, 0x12, 0x20, 0x21, 0x22, 0x30, 0x31] → reads (Cells.get 0 (s.lane q).sregs n))
          ∧ (Ready (.yield o) s → ∃ t, exec (.yield o) s = .next t ∧ Done (.yield o) {} s t)
          ∧ (Ready (.sleep o) s → sleeping ≠ 0 →
              ∃ t, exec (.sleep o) s = .next t ∧ Waits (.sleep o) (.sleep (s.clock + sleeping)) s t)
          ∧ (Ready (.ckpt o) s → ∃ t, exec (.ckpt o) s = .next t ∧ Done (.ckpt o) {} s t))

/-! ### Traps -/

/-- TRAP, BRK, TRET, the guard pattern and the reserved opcodes (R84, R90, R350, R369). TRAP's TPC is the next instruction, the
others' their own, and TADDR is the instruction's address; a reserved opcode raises ILLEGAL_OP with its bits 31:0. An ejected
lane stops with the code (R141). TRET with no open token and no batch to wait for resumes its split at TPC, outside trap level,
with its latches invalid, NESTED clear and the failed batches that were reported counted as done; outside trap level it is
illegal. -/
def Obligations.TrapInstructions : Prop :=
  ∀ (s : State) (o : Sys) (w : BitVec 64),
    let low : Word := (w.truncate 32).zeroExtend 64
    let stands : List (Instr × Nat × Word × Word × Word) :=
      [(.trap o, 0x17, s.nextPc (.trap o), s.pc, o.imm.zeroExtend 64), (.brk o, 0x18, s.pc, s.pc, o.imm.zeroExtend 64),
        (.pguard w, 0x04, s.pc, s.pc, 0), (.reservedOpcode w, 0x01, s.pc, 0, low)]
    (∀ i code pc addr info, (i, code, pc, addr, info) ∈ stands → Ready i s →
        (∀ c k, s.cur = .course c k → CanTrap s c → ∃ t, exec i s = .next t ∧ Traps s t c k code 127 pc addr info)
          ∧ (∀ q, s.cur = .lane q → ∃ t, exec i s = .next t ∧ (t.lane q).st = .stopped code ∧ (t.lane q).pc = s.pc
              ∧ (t.lane q).regs = (s.lane q).regs))
      ∧ (∀ c k, s.cur = .course c k → Ready (.tret o) s →
        let x := s.course c
        (x.trap.level = true → (∀ y ∈ x.tokens, y.isOpen = false) → (s.split c k).m ≠ 0 →
            (x.openBatch ≤ x.oldest ∨ s.batchBusy c x.oldest = true) → (∀ e ∈ x.lateFlags, s.batchDone c e.1 = false) →
            (∀ y ∈ x.splits, ∀ n, y.wait ≠ .batch n) →
          ∃ t, exec (.tret o) s = .next t ∧ t.pc = x.trap.pc ∧ t.wait = .ready
            ∧ (t.course c).trap =
                { x.trap with level := false, nested := false, cause := x.trap.cause &&& ~~~(0x100 : Word), batches := [] }
            ∧ (t.course c).fails = x.fails.filter (fun f => !x.trap.batches.contains f.seq)
            ∧ (t.course c).regs = { x.regs with bl := [] } ∧ (∀ j, (t.split c j).handler = false)
            ∧ (∀ j, j ≠ k → t.split c j = { s.split c j with handler := false }) ∧ t.rest = s.rest ∧ t.lanes = s.lanes
            ∧ ∀ d, d ≠ c → t.courses[d]? = s.courses[d]?)
        ∧ (CanTrap s c → ∃ t, exec (.tret o) s = .next t ∧ Traps s t c k 0x01 127 s.pc 0 (wordLow (.tret o))))

/-- SVC and CKILL (R352, R366, R367). With no active lane SVC has no effect; with room in the ring its header and one slot for
each active lane are written behind SVC_HEAD, which moves past them, the vector is raised, the request is pending, and the
split waits while its course parks; without room it stalls. CKILL ends the course with REASON 1, its operand and the copies
that lost work on record, and drops what has not started; an ejected lane is done. -/
def Obligations.ServicesAndKill : Prop :=
  ∀ (s : State) (o : Sys),
    (∀ c k, s.cur = .course c k → Ready (.svc o) s →
      let x := s.ctxOf c
      let m := s.active
      let n := maskCount m
      let head := s.saveIx x 0
      let slot (j : Nat) : Nat := s.saveBase x + 0x10000 + 64 * ((head + j) % 4096)
      (m = 0 → ∃ t, exec (.svc o) s = .next t ∧ Goes (s.nextPc (.svc o)) {} s t)
        ∧ (m ≠ 0 → s.saveIx x 1 + 4096 < head + 1 + n → ∃ t, exec (.svc o) s = .next t ∧ Waits (.svc o) .stalled s t)
        ∧ (m ≠ 0 → head + 1 + n ≤ s.saveIx x 1 + 4096 → s.memoryWf = true → x < s.ctxs.length →
            s.shadows = [] → isHost (s.saveBase x) = true → (s.course c).place = .resident → (s.course c).leaving = none →
          ∃ t, exec (.svc o) s = .next t ∧ t.wait = .svc (head % 4096) ∧ t.pc = s.pc ∧ (t.split c k).next = s.nextPc (.svc o)
            ∧ (t.course c).leaving = some .parkedSvc ∧ Keeps {} s t ∧ t.vectors = (s.ctx x).vector :: s.vectors
            ∧ (t.ctx x).svcs = (s.ctx x).svcs ++ [⟨head % 4096, c, k, m, s.pc, o.imm.toNat⟩]
            ∧ t.saveIx x 0 = (head + 1 + n) % 2 ^ 64
            ∧ t.readBytes 0 (slot 0) 64 = svcHeader (s.launchOf c).id (s.block (s.course c).block).index (s.course c).index
                o.imm.toNat m
            ∧ ∀ j l, (Mask.list m)[j]? = some l → ∀ r < 8, ∀ b < 4,
                t.readByte 0 (slot (j + 1) + 4 * r + b) = (s.vreg r l).extractLsb' (8 * b) 8))
      ∧ (∀ c k, s.cur = .course c k → Ready (.ckill o) s → (s.course c).place ≠ .ended →
        ∃ t e, exec (.ckill o) s = .next t ∧ (t.course c).place = .ended ∧ (t.course c).splits = []
          ∧ (t.course c).kill = some e ∧ e.reason = 1 ∧ e.user = s.sreg o.a.toNat ∧ e.trap.pc = s.pc
          ∧ e.copies = (s.copies.filter fun y => y.course == c && (y.page.isSome || y.todo.any fun h => !h.begun)).length
          ∧ (∀ y ∈ t.copies, y.course = c → y.page = none ∧ ∀ h ∈ y.todo, h.begun = true) ∧ ∀ y ∈ t.ops, y.course = c → y.started.isSome = true)
      ∧ (∀ q, s.cur = .lane q → Ready (.ckill o) s → ∃ t, exec (.ckill o) s = .next t ∧ (t.lane q).st = .done)

/-- Taking a trap (R125, R345, R347, R348, R352): at once where the course can; at trap level it is nested, with the first
trap's TPC and TCAUSE kept, and a third kills the course; without a handler it kills the course; while the core runs four
handlers or owes an older trap, or the course is off its core or leaves it, it waits, and so does a trap that arises while a
latch window of another split is open. -/
def Obligations.TakingTraps : Prop :=
  ∀ (s : State) (c : Nat) (e : Trap), c < s.courses.length → e.split < (s.course c).splits.length →
    let x := s.course c
    let t := s.raise c e
    let killed (reason : Nat) : Prop :=
      (t.course c).place = .ended ∧ ∃ k, (t.course c).kill = some k ∧ k.reason = reason ∧ k.trap = e
    let waits : Prop :=
      (t.course c).pending = x.pending ++ [{ e with raised := s.tick }] ∧ (t.course c).trap = x.trap
        ∧ (t.course c).regs = x.regs ∧ t.rest = s.rest
    let free : Prop := x.win = none ∨ e.window = true
    (CanTrap s c → free → Traps s t c e.split e.code e.lane e.pc e.addr e.info e.window e.batch.toList)
      ∧ (x.place ≠ .ended → free → x.trap.level = true → x.trap.nested = false →
          (t.course c).trap =
              { level := true, nested := true, cause := BitVec.ofNat 64 (e.code + 256 + if e.window then 512 else 0)
                lane := BitVec.ofNat 64 e.lane, pc := e.pc, addr := e.addr, info := e.info, opc := x.trap.pc
                ocause := x.trap.cause, split := e.split, since := x.trap.since, parked := x.trap.parked
                batches := e.batch.toList ++ x.trap.batches }
            ∧ t.split c e.split =
                { s.split c e.split with pc := (s.launchOf c).desc.handler, wait := .ready, handler := true, buf := [] }
            ∧ (t.course c).regs = x.regs ∧ t.rest = s.rest)
      ∧ (x.place ≠ .ended → free → x.trap.level = true → x.trap.nested = true → killed 3)
      ∧ (x.place ≠ .ended → free → x.trap.level = false → (s.launchOf c).desc.handler = 0 → killed 2)
      ∧ (x.place ≠ .ended → free → x.trap.level = false → (s.launchOf c).desc.handler ≠ 0 →
          x.place ≠ .resident ∨ x.leaving.isSome = true ∨ 4 ≤ s.handlers (s.coreOf c) ∨ s.trapsWait (s.coreOf c) = true → waits)
      ∧ (x.place ≠ .ended → ¬free → waits ∧ (t.course c).win = x.win)

/-- The traps that an instruction's operands alone decide (R72, R124, R127, R138, R152): a register beyond the allotment raises
REG_BOUNDS with bits 31:0 of the word; a latch that is invalid in an acted lane raises LATCH_EMPTY at the lowest such lane; in
an open latch window both are reported at the window's first instruction with the offset of this one; an instruction that an
ejected lane may not execute stops it; a register target with bit 1 or 0 set is MISALIGNED. -/
def Obligations.OperandTraps : Prop :=
  ∀ (s : State), s.hasAgent = true →
    let traps (i : Instr) (code lane : Nat) (info : Word) : Prop :=
      ∀ c k, s.cur = .course c k → CanTrap s c →
        match (if fixedLatency i then (s.course c).win else none) with
        | none => ∃ t, exec i s = .next t ∧ Traps s t c k code lane s.pc 0 info
        | some w => ∃ t, exec i s = .next t
            ∧ Traps s t c k code lane w.pc 0 (info ||| (BitVec.ofNat 64 ((s.pc - w.pc).toNat / 4 % 256) <<< 32)) true
    let inside (i : Instr) : Prop := ∀ r ∈ (usesOf i).vr ++ (usesOf i).vw, r < (s.course s.curCourse).allot
    (∀ i, ¬inside i → traps i 0x05 127 (wordLow i))
      ∧ (∀ i, ejectIllegal i = true → inside i → ∀ q, s.cur = .lane q →
          ∃ t, exec i s = .next t ∧ (t.lane q).st = .stopped 0x0D ∧ (t.lane q).pc = s.pc)
      ∧ (∀ (o : V3) (l : Nat), ∀ i ∈ [Instr.vadd o, .vsub o, .vand o, .vmin o, .vcmp o, .vfadd o, .vfmul o], Ready i s →
          let bad (j : Nat) : Prop := (s.acted o.g).has j = true
            ∧ ∃ f ∈ [o.a, o.b], f.getLsbD 11 = true ∧ (s.latch (f.toNat % 4)).valid.has j = false
          l < 96 → bad l → (∀ j < l, ¬bad j) → traps i 0x0C l 0)
      ∧ (∀ (o : Br) (i : Instr) (v : Word),
          (i, v) ∈ [(.jmpr o, s.sreg o.s.toNat), (.callr o, s.sreg o.s.toNat), (.ret o, s.sreg 60)] →
          v.extractLsb' 0 2 ≠ 0 → Ready i s → ∀ c k, s.cur = .course c k → CanTrap s c →
            ∃ t, exec i s = .next t ∧ Traps s t c k 0x06 127 s.pc v 0)

/-- The faults of one access in the order of R235 and R221, shown by LDS in generic memory: an address that its size does not
divide, one that is not canonical, a walk that ends at an invalid or a malformed entry (the split waits for the page), a page
that cannot be read, the pooled tier where the region or the link denies it, a formatted page, and poison. Each leaves every
register as it was. -/
def Obligations.AccessFaults : Prop :=
  ∀ (s : State) (o : Mem) (c k : Nat), s.cur = .course c k → o.as = 0 → o.size.toNat < 4 → Ready (.lds o) s →
    let va := s.memAddr o true 0
    let walk := s.translate (s.ctxOf c) va
    let traps (code : Nat) (info : Word) : Prop :=
      CanTrap s c → ∃ t, exec (.lds o) s = .next t ∧ Traps s t c k code 127 s.pc va info
    let pages (kind : Nat) : Prop :=
      ∃ t, exec (.lds o) s = .next t ∧ t.pc = s.pc ∧ t.wait = .page va kind false false 127 none none (s.run c) none ∧ Frame {} s t
    (va.toNat % sizeBytes o ≠ 0 → traps 0x06 0)
      ∧ (va.toNat % sizeBytes o = 0 →
        (canonical va = false → traps 0x08 3) ∧ (walk = .error .invalid → pages 1) ∧ (walk = .error .malformed → pages 2)
          ∧ (walk = .error .poison → traps 0x14 7)
          ∧ ∀ f, walk = .ok f →
            let denied := isPool f.pa && !s.effPoolEn (s.launchOf c).region
            let down := isPool f.pa && !s.poolUp
            let io := f.pol = 3 ∧ sizeBytes o ≠ 4 ∧ sizeBytes o ≠ 8
            (f.r = false → traps 0x08 4) ∧ (f.r = true → denied = true → traps 0x08 5)
              ∧ (f.r = true → denied = false → io → traps 0x08 8)
              ∧ (f.r = true → denied = false → ¬io → f.fmt ≠ 0 → traps 0x09 6)
              ∧ (f.r = true → denied = false → ¬io → f.fmt = 0 → down = true → traps 0x13 9)
              ∧ (f.r = true → denied = false → ¬io → f.fmt = 0 → down = false → s.loadPoison f.pol f.pa (sizeBytes o) = true →
                  traps 0x14 7))

/-- Device registers (R40, R54, R214), in accesses of 4 and of 8 bytes at any offset of a doorbell page: LDS answers the bytes of
the kick index at offsets 0 to 7 where DEVVIS is 1, and zeros elsewhere; STS of 8 bytes at offset 0 by an agent of the owner's
context kicks the queue or the channel, and any other store there is ignored. Of a load or store at any other device register
the spec says nothing: the step stops. -/
def Obligations.DeviceRegisters : Prop :=
  ∀ (s : State) (o : Mem) (f : Leaf) (a : Word), spaceOf o.as = .gen → f.pol = 3 → o.size = 2 ∨ o.size = 3 → a = s.memAddr o true 0 →
    let n := sizeBytes o
    let found (i : Instr) (q : Need) : Prop := (s.entering i).checkAcc .gen 127 a q = .ok (⟨127, a, .phys f, 127⟩, s.entering i)
    let load := found (.lds o) { n := n }
    let store := found (.sts o) { n := n, rd := false, wr := true }
    let num := (s.ctx (s.ctxOf s.curCourse)).num
    let at' := f.pa % 0x10000
    let bell (base : Nat) (n i : Nat) : Prop := i < n ∧ f.pa / 0x10000 = base / 0x10000 + i
    let kicks (ctl : Word) (kick : Word) (after : State → Word → State) : Prop :=
      (load → Ready (.lds o) s → ∃ t w, exec (.lds o) s = .next t
          ∧ Done (.lds o) { s := [o.d.toNat % 64] } (if o.ord = 2 then s.acquire o.scope.toNat else s) t
          ∧ WroteS s t (o.d.toNat % 64) w
          ∧ ∀ j < 8, w.extractLsb' (8 * j) 8 = extByte ((List.range n).map fun i =>
              if ctl.getLsbD 9 = true ∧ at' + i < 8 then kick.extractLsb' (8 * (at' + i)) 8 else 0) (signedTy o.ty) j)
        ∧ (store → o.ord = 0 → Ready (.sts o) s → ∃ u t, exec (.sts o) s = .next t ∧ Done (.sts o) {} s u
            ∧ t = if n = 8 ∧ at' = 0 ∧ ctl.getLsbD 9 = true ∧ ctl.toNat / 2 ^ 32 = num then after u (s.sreg (o.d.toNat % 64)) else u)
    (∀ q, bell 0x7000100000000 4096 q → kicks (s.queue q).ctl (s.queue q).kick fun u v => u.kickQueue q v)
      ∧ (∀ h, bell 0x7000200000000 192 h → kicks (s.channel h).ctl (s.channel h).kick fun u v => u.kickChannel h v)
      ∧ (s.doorbell f.pa = none →
        (load → Ready (.lds o) s → exec (.lds o) s = .fault (.deviceRegister f.pa))
          ∧ (store → Ready (.sts o) s → exec (.sts o) s = .fault (.deviceRegister f.pa)))

/-! ### Events of courses and ejected lanes -/

/-- TRAP_ENTRY, WATCHDOG, PASSN_CHANGE, SHADOW_LATCH_REPLAY, EJECT_LANE_START, LANE_REJOIN, EJECT_SOFT_PARK, EJECT_OVERDUE,
COURSE_RESTORE, SLEEP_EXPIRE, CHECKPOINT_COPY, PAGE_FAULT_RECORD and PAGE_FAULT_PARK (R116, R128, R137 to R142, R345, R349,
R354, R355, R363): what each does where it is due. The cause that a WATCHDOG record holds, and the lane of a page record of an
ejected lane, are the model's choice (log 44). -/
def Obligations.CourseEvents : Prop :=
  ∀ (s : State) (c : Nat), c < s.courses.length →
    let x := s.course c
    let running : Prop := s.ctxRuns c = true
    (∀ e rest, x.pending = e :: rest → e.split < x.splits.length → x.place = .resident → x.leaving = none → x.win = none →
        x.trap.level = false → running → (s.launchOf c).desc.handler ≠ 0 → s.handlers (s.coreOf c) < 4 →
        (∀ d, d ≠ c → s.coreOf d = s.coreOf c → (s.course d).place = .resident → (s.course d).trap.level = false →
          ∀ u ∈ (s.course d).pending, e.raised ≤ u.raised) →
        ∃ t, exec (.trapEntry c) s = .next t
          ∧ Traps (s.modCourse c fun y => { y with pending := rest.filter fun u => u.code == tSvc }) t c e.split e.code e.lane
              e.pc e.addr e.info e.window e.batch.toList)
      ∧ (∀ e rest, x.pending = e :: rest → x.place = .resident → x.leaving = none → x.win = none → x.trap.level = false → running →
          (s.launchOf c).desc.handler = 0 → ∃ t k, exec (.trapEntry c) s = .next t ∧ (t.course c).place = .ended
            ∧ (t.course c).kill = some k ∧ k.reason = 2 ∧ k.trap = e)
      ∧ (x.place ≠ .ended → x.trap.level = true → 2 ^ 24 ≤ s.trapTime c → ∃ t k, exec (.watchdog c) s = .next t
          ∧ (t.course c).place = .ended ∧ (t.course c).kill = some k ∧ k.reason = 4 ∧ k.cause = 0x19)
      ∧ (∀ j n, j < 12 → n = 1 ∨ n = 2 ∨ n = 4 → ∃ t, exec (.passnChange j n) s = .next t ∧ (t.cluster j).passn = n
          ∧ (∀ i, i ≠ j → t.cluster i = s.cluster i) ∧ { t with clusters := [] } = { s with clusters := [] })
      ∧ (∀ q, q < 4608 → ∃ t, exec (.shadowLatchReplay (.quarter q)) s = .next t
          ∧ Cells.get 0 t.replayCnt q = Cells.get 0 s.replayCnt q + 1
          ∧ { t with replayCnt := [], mgmt := { t.mgmt with replays := [], slow := [] } }
              = { s with replayCnt := [], mgmt := { s.mgmt with replays := [], slow := [] } })
      ∧ (∀ q, q < 288 → ∃ t, exec (.shadowLatchReplay (.quoin q)) s = .next t
          ∧ Cells.get 0 t.replayQn q = Cells.get 0 s.replayQn q + 1 ∧ { t with replayQn := [] } = { s with replayQn := [] })
      ∧ (∀ q at', q < s.lanes.length → (s.lane q).st = .starting at' → at' ≤ s.clock → s.ctxRuns (s.lane q).course = true →
          ∃ t, exec (.ejectLaneStart q) s = .next t ∧ t.lane q = { s.lane q with st := .running }
            ∧ ∀ j, j ≠ q → t.lane j = s.lane j)
      ∧ (∀ q, q < s.lanes.length → (s.lane q).course = c → s.rejoinDue q = true → (s.lane q).outFault = none →
          let l := (s.lane q).lane
          ∃ t, exec (.laneRejoin q) s = .next t ∧ (t.lane q).st = .done
            ∧ (t.course c).regs.flags = x.regs.flags ||| (s.lane q).regs.flags
            ∧ ∀ r ∈ (s.lane q).outs, Cells.get 0 (t.course c).regs.v (96 * r + l) = Cells.get 0 (s.lane q).regs.v (96 * r + l))
      ∧ (∀ n, n < 8 → s.softDue c n = true → ∃ t, exec (.ejectSoftPark c n) s = .next t
          ∧ (t.course c).leaving = some .parkedEject ∧ ((t.course c).token n).softDone = true ∧ (t.course c).regs = x.regs)
      ∧ (∀ n k sp, n < 8 → s.overdueDue c n = true → firstWaiting (x.waitingAt n) = some (k, sp) → CanTrap s c →
          let u := s.modToken c n fun y => { y with arrived := y.arrived &&& ~~~sp.m, hardTimer := none }
          ∃ t, exec (.ejectOverdue c n) s = .next t
            ∧ Traps u t c k 0x0E 127 sp.pc 0 (BitVec.ofNat 64 (s.outstanding c n).length))
      ∧ (∀ r n q base rest, s.restoreRoom c = some r → r.plan = (n, q, base) :: rest →
          ∃ t, exec (.courseRestore c) s = .next t ∧ (t.course c).quarter = q ∧ (t.course c).base = base
            ∧ (t.course c).regs = x.regs
            ∧ ((∀ y ∈ x.tokens, y.isOpen = false) → (∀ y ∈ x.splits, ∀ n, y.wait ≠ .regang n) → (t.course c).place = .resident))
      ∧ (∀ k til, (s.split c k).wait = .sleep til → til ≤ s.run c → x.place = .resident →
          ∃ t, exec (.sleepExpire (.course c k)) s = .next t
            ∧ t.split c k = { s.split c k with wait := .ready, pc := (s.split c k).next }
            ∧ (∀ j, j ≠ k → t.split c j = s.split c j) ∧ t.rest = s.rest)
      ∧ (∀ q til, (s.lane q).wait = .sleep til → til ≤ s.clock → ∃ t, exec (.sleepExpire (.lane q)) s = .next t
          ∧ t.lane q = { s.lane q with wait := .ready, pc := (s.lane q).next } ∧ t.courses = s.courses ∧ t.rest = s.rest)
      ∧ (∀ r, x.place = .resident → running → x.dirty ≠ [] → ∃ t, exec (.checkpointCopy c r) s = .next t
          ∧ (∀ j, Cells.get false (t.course c).dirty j = (decide (j ≠ r) && Cells.get false x.dirty j))
          ∧ (t.course c).regs = x.regs
          ∧ ∀ k rs, (s.split c k).wait = .ckpt rs → (∀ j ∈ rs, j = r ∨ j ∉ x.dirtyRegs) →
              (t.split c k).wait = .ready ∧ (t.split c k).pc = (s.split c k).next)
      ∧ (∀ (p : Party) (f : PageFault), s.pageOf p = some f → f.record = none → s.memoryWf = true → s.shadows = [] →
          let d := s.partyCourse p
          let y := s.ctxOf d
          let head := s.saveIx y 4
          y < s.ctxs.length → isHost (s.saveBase y) = true →
          ((∀ r ∈ (s.ctx y).pfs, r.unit ≠ f.va.toNat / 65536 ∨ r.kind ≠ f.kind) → head + 1 ≤ s.saveIx y 5 + 1024 →
              ∃ t, exec (.pageFaultRecord p) s = .next t ∧ t.pageOf p = some { f with record := some head }
                ∧ t.saveIx y 4 = (head + 1) % 2 ^ 64 ∧ t.vectors = (s.ctx y).vector :: s.vectors
                ∧ (t.ctx y).pfs = (s.ctx y).pfs ++ [⟨head, f.va.toNat / 65536, f.kind⟩]
                ∧ t.readBytes 0 (s.saveBase y + 0x90000 + 32 * (head % 1024)) 32
                    = pageRecord { f with lane := s.pageLane f p } (partySource p f.scale.isSome) (s.course d).index
                        (s.block (s.course d).block).index (s.launchOf d).id)
          ∧ (∀ r, (s.ctx y).pfs.find? (fun r => r.unit == f.va.toNat / 65536 && r.kind == f.kind) = some r →
              ∃ t, exec (.pageFaultRecord p) s = .next t ∧ t.pageOf p = some { f with record := some r.index }
                ∧ t.vectors = s.vectors))
      ∧ (s.pageParkDue c = true → ∃ t, exec (.pageFaultPark c) s = .next t ∧ (t.course c).leaving = some .parkedPage
          ∧ (t.course c).regs = x.regs)

/-! ### Events of the matrix engines and the copy engines -/

/-- TILE_FETCH_DONE, MMA_START, MMA_COMPLETE, MZERO_COMPLETE, MCVT_COMPLETE, SLEW_STEP, COPY_CHUNK_DONE and COPY_CHUNK_FAULT (R227,
R229, R231, R263, R264, R267 to R276, R280, R282, R283): a tile comes from memory, each line of it as an earlier or the last read
found it, or from an entry of the operand cache with its tag; the head of a queue starts with all its tiles and four quarter-arrays, and SLEWWAIT takes
the cycles it waited for them; a completion writes every row or lane and frees its place; a limiter step grants and releases
what is asked for, up to u each; a raw chunk puts the source's bytes at the destination; a fault marks batch and sync word
once no chunk of the copy is under way. That core `k` lies on die `k / 192` (log 7), that the lines of a tile may come from
different reads (log 15), where SLEWWAIT starts and ends (log 12), and that an engine reads a STREAM page as its course would
(log 40) are the model's choice. -/
def Obligations.EngineEvents : Prop :=
  ∀ (s : State),
    (∀ i n o tag core d, s.ops[i]? = some o → o.tags[n]? = some tag → o.core = some core → s.fetches i = true → o.page = none →
        o.tiles.getD n none = none → n < o.tiles.length → s.readTile o.course tag = .ok d →
        let r := match o.begun n with
          | some e => e.mix s.fresh d
          | none => d
        s.pinsFit core i n r = true →
        ∃ t y, exec (.tileFetchDone i n) s = .next t
          ∧ (y = r.tileOf (hFmt tag.desc == 1) ∨ ∃ e ∈ s.opcache, e.core = core ∧ e.tag = tag ∧ y = e.tile)
          ∧ t.ops[i]? = some { o with
              tiles := o.tiles.set n (some y), finish := s.clock, early := o.early.filter fun e => e.tile != n }
          ∧ (n ∉ o.uncached → tag.bytes ≤ 0x40000 → ∃ e ∈ t.opcache, e.core = core ∧ e.tag = tag ∧ e.tile = y)
          ∧ (n ∈ o.uncached → t.opcache = s.opcache) ∧ t.courses = s.courses)
      ∧ (∀ core i o, s.engineHead core = some (i, o) → o.isMma = true → o.started = none → o.ready.isSome = true →
          (∀ y ∈ o.tiles, y.isSome = true) → 4 ≤ (s.coreSt core).arrays → o.issued + 4 ≤ s.clock → s.opStays o = true →
          s.startMeets o = none →
          ∃ t, exec (.mmaStart core) s = .next t
            ∧ t.ops[i]? = some { o with started := some s.clock, finish := s.clock + o.time } ∧ t.courses = s.courses
            ∧ Cells.get 0 t.slewWait (core / 192) = Cells.get 0 s.slewWait (core / 192)
                + BitVec.ofNat 64 ((s.coreSt core).fullAt - max (o.issued + 4) (max (o.ready.getD 0) o.finish)))
      ∧ (∀ core i o, s.engineHead core = some (i, o) → o.started.isSome = true → o.finish ≤ s.clock →
          let c := o.course
          let d := o.o.d.toNat
          c < s.courses.length → (s.course c).place ≠ .ended →
          (o.isMma = true → (o.rows.map (·.2)).Nodup → (∀ e ∈ o.rows, e.2 < 96) →
            ∃ t, exec (.mmaComplete core) s = .next t ∧ t.ops.length < s.ops.length
              ∧ (∀ e ∈ o.rows, ∀ n < 64, t.courseReg c (d + n) e.2
                  = (o.output o.views (s.courseReg c (d + n) e.2) e.1 n).1 % 2 ^ 32)
              ∧ (∀ l < 96, l ∉ o.rows.map (·.2) → ∀ r, t.courseReg c r l = s.courseReg c r l)
              ∧ ∀ r, (∀ n < 64, r ≠ d + n) → ∀ l < 96, t.courseReg c r l = s.courseReg c r l)
          ∧ (o.kind = .mzero → ∃ t, exec (.mzeroComplete core) s = .next t ∧ t.ops.length < s.ops.length
              ∧ ∀ r, ∀ l < 96, t.courseReg c r l
                  = if o.acted.has l = true ∧ d ≤ r ∧ r < d + 64 then 0 else s.courseReg c r l)
          ∧ (o.kind = .mcvt → ∀ f, formatOfTy o.o.ty = some f →
              let q := tyElems o.o.ty
              let w := 32 / q
              ∃ (t : State) (hash : Nat → Nat → Nat), exec (.mcvtComplete core) s = .next t ∧ t.ops.length < s.ops.length ∧ (∀ l j, hash l j < 65536)
                ∧ (∀ l < 96, o.acted.has l = true → ∀ j < 64,
                    let pre : Pre := if o.scale = 255 then .done f.nanCode 0
                      else f.prep 0 ((FF.f32.toExt (s.courseReg c (o.o.a.toNat + j) l)).scale (127 - (o.scale : Int)))
                    t.courseReg c (d + j / q) l / 2 ^ (w * (j % q)) % 2 ^ w
                      = (pre.finish (o.o.mod.toNat % 8) (o.o.mod.getLsbD 3) (hash l j)).1 % 2 ^ w)
                ∧ ∀ r, ∀ l < 96, o.acted.has l = false ∨ r < d ∨ d + 64 / q ≤ r → t.courseReg c r l = s.courseReg c r l))
      ∧ (∀ die, s.slewDue die = true →
          let u := fld (Cells.get slewDefault s.slewTab die) (8 * min (s.activeArrays die / 96) 7) 8
          ∃ t, exec (.slewStep die) s = .next t ∧ Cells.get 0 t.slewDone die = s.clock / 4
            ∧ ((s.dieCores die).map fun k => (t.coreSt k).arrays - (s.coreSt k).arrays).sum
                = min u (((s.dieCores die).filter s.wantsArrays).map fun k => 4 - (s.coreSt k).arrays).sum
            ∧ ((s.dieCores die).map fun k => (s.coreSt k).arrays - (t.coreSt k).arrays).sum
                = min u (((s.dieCores die).filter s.idleArrays).map fun k => (s.coreSt k).arrays).sum
            ∧ ∀ k, k ∉ s.dieCores die → t.coreSt k = s.coreSt k)
      ∧ (∀ i k y h f g, s.copies[i]? = some y → y.todo[k]? = some h → s.mayStart y = true → y.dec = none → y.srcSp = .gen →
          y.dstSp = .gen → y.scope < 4 → y.todo.eraseIdx k ≠ [] → 0 < h.n → h.mark = none → h.early = [] →
          let a := h.src + BitVec.ofNat 64 h.off
          let b := h.dst + BitVec.ofNat 64 h.off
          let own (u : State) : State := { u with cur := Agent.course y.course 0 }
          a.toNat % 4096 + h.n ≤ 4096 → b.toNat % 4096 + h.n ≤ 4096 → s.copyLoc y.course .gen a h.n false = .ok (.phys f) →
          s.reach y.course false a { n := h.n, raw := true } (.phys f) = .ok () → s.copyLoc y.course .gen b h.n true = .ok (.phys g) →
          s.reach y.course false b { n := h.n, rd := false, wr := true, raw := true } (.phys g) = .ok () → s.memoryWf = true → s.shadows = [] →
          s.shownOnce (.phys g) h.n →
          ∃ t, exec (.copyChunkDone i k) s = .next t
            ∧ (∀ j < h.n, (own t).byteAt (.phys g) j = (own s).byteAt (.phys f) j)
            ∧ (t.copies[i]?).map (·.todo) = some (y.todo.eraseIdx k)
            ∧ (∀ pol pa, (pa < g.pa ∨ g.pa + h.n ≤ pa) → t.readByte pol pa = s.readByte pol pa)
            ∧ ∀ off, y.sync = some off → (s.course y.course).block < s.blocks.length →
              let bl := (s.course y.course).block
              let target := s.padNat bl off 4
              let count := s.padNat bl (off + 4) 4 + h.n
              t.padNat bl (off + 4) 4 = if target = 0 then count % 2 ^ 32 else count % target)
      ∧ (∀ i k y h va kind wr ex l sc, s.chunkOutcome i k = some (y, h, .error (.page va kind wr ex l sc)) → y.ended = none →
          y.page = none →
          ∃ t, exec (.copyChunkFault i k) s = .next t ∧ t.copies[i]? = some { y with page := some (va, kind, wr, sc, none) }
            ∧ { t with copies := [] } = { s with copies := [] })
      ∧ (∀ i k y h code l a info, s.chunkOutcome i k = some (y, h, .error (.trap code l a info)) → y.ended = none → code ≠ 0 →
          y.course < s.courses.length →
          let left := (y.todo.eraseIdx k).filter Chunk.begun
          (left = [] → ∃ t, exec (.copyChunkFault i k) s = .next t ∧ (⟨y.batch, a, code⟩ : BatchFail) ∈ (t.course y.course).fails
              ∧ ∀ off, y.sync = some off → (s.course y.course).block < s.blocks.length →
                (t.padNat (s.course y.course).block (off + 12) 4).testBit 1 = true)
          ∧ (left ≠ [] → ∃ t, exec (.copyChunkFault i k) s = .next t
              ∧ t.copies[i]? = some { y with todo := left, page := none, ended := some (code, a) } ∧ t.courses = s.courses))

/-! ### Events of blocks, launches, regions and energy -/

/-- BLOCK_START, BLOCK_END, LAUNCH_RETIRE, FAULT_LOG_RECORD, PLACEMENT_ATTEMPT, PLACEMENT_RETRY, ROTATION_ATTEMPT,
CLUSTER_REASSIGN, CLUSTER_OPPOINT_READY, HOT_SPOT_MIGRATION, ENERGY_ATTRIBUTION, ENERGY_CHARGE and QUOTA_PERIOD_BOUNDARY (R20,
R21, R49, R60, R61, R63, R67, R353, R365, R377 to R382): what each does where it is due. What a meter reads is a free value (log
9). That a message to the scheduler core holds the block that ended (log 51), what a fault record's fields hold where R353 is
silent (log 44), and which attempt waits at which core (log 37) are the model's choice. -/
def Obligations.BlockEvents : Prop :=
  ∀ (s : State),
    (∀ b, s.startDue b = true → (∀ c ∈ (s.block b).courses, (s.course c).block = b) →
        ∃ t, exec (.blockStart b) s = .next t ∧ (t.block b).st = .resident ∧ (t.block b).moving = false
          ∧ ∀ d, d ≠ b → t.block d = s.block d)
      ∧ (∀ b, s.endDue b = true → ∃ t, exec (.blockEnd b) s = .next t ∧ (t.block b).st = .ended ∧ (t.block b).sp = []
          ∧ (t.block b).spSize = 0 ∧ (t.block b).bars = [] ∧ (t.cluster ((s.block b).core / 96)).up.holds b = true
          ∧ ∀ d, d ≠ b → t.block d = s.block d)
      ∧ (∀ l, s.retireDue l = true → ∃ t, exec (.launchRetire l) s = .next t ∧ (t.launch l).st = .retired
          ∧ (t.launch l).cls = (s.launch l).admitted ∧ (t.launch l).owned = false
          ∧ ∀ pa, (s.launch l).donePa = some pa → pa % 32 = 0 → isPool pa = false → s.heldBy l = [] → s.anyPoison pa 32 = false → s.memoryWf = true →
              s.shadows = [] → 1 ≤ leNat (t.readBytes 0 pa 8) ∧ (t.readByte 0 (pa + 16)).getLsbD 2 = true)
      ∧ (∀ c e, c < s.courses.length → s.killDue c = some e → s.memoryWf = true → s.shadows = [] →
          let x := s.ctxOf c
          let head := s.saveIx x 2
          isHost (s.saveBase x) = true →
          ∃ t, exec (.faultLogRecord c) s = .next t ∧ (t.course c).logged = true ∧ t.saveIx x 2 = (head + 1) % 2 ^ 64
            ∧ t.vectors = (s.ctx x).vector :: s.vectors
            ∧ t.readBytes 0 (s.saveBase x + 0x50000 + 64 * (head % 4096)) 64
                = faultRecord e (s.launchOf c).id (s.block (s.course c).block).index (s.course c).index)
      ∧ (∀ i a (ev : Instr), (s.attemptDue i = some a ∧ ev = .placementAttempt i) ∨ (s.retryDue i = some a ∧ ev = .placementRetry i) →
          let l := s.attemptLaunch a.launch
          let held := if l.cls = 2 then s.heldBack l.ctx else []
          let u := s.modLaunch a.launch fun _ => { l with st := if l.st == .placing then .running else l.st }
          l.cls = 2 ∨ (l.cls = 0 ∧ l.st ≠ .placing) →
          (∀ core, u.gang (l.cls == 2) held a.blocks = .error core → ∃ t b wait, exec ev s = .next t
              ∧ t.attempts[i]? = some b ∧ b.n = a.n + 1 ∧ b.blocks = a.blocks ∧ b.due = s.clock + wait
              ∧ min (256 * 2 ^ a.n) 65536 ≤ wait ∧ wait < min (256 * 2 ^ a.n) 65536 + 256
              ∧ (∀ k, core = some k → wait = min (256 * 2 ^ a.n) 65536 + k.1 * 167 % 256 ∧ b.watched = [k.1 / 96])
              ∧ t.blocks = s.blocks ∧ t.launches = s.launches)
          ∧ ∀ v, u.gang (l.cls == 2) held a.blocks = .ok v → ∃ t, exec ev s = .next t
              ∧ t.blocks = v.blocks ∧ t.courses = v.courses ∧ t.attempts = v.attempts.eraseIdx i)
      ∧ (∀ k b, s.rotationDue k = some b →
          let s1 := s.modCluster k fun x => { x with tried := s.clock, retry := false }
          (s1.placeHead b k = none → exec (.rotationAttempt k) s = .next s1)
            ∧ ∀ u, s1.placeHead b k = some u → ∃ t, exec (.rotationAttempt k) s = .next t ∧ b ∉ (t.cluster k).rotation
                ∧ t.blocks = u.blocks ∧ t.courses = u.courses)
      ∧ (∀ k pool, s.mayReassign k pool = true → ∃ t, exec (.clusterReassign k pool) s = .next t ∧ (t.cluster k).pool = pool
          ∧ (t.cluster k).readyAt = s.clock + 35000 ∧ ∀ j, j ≠ k → t.cluster j = s.cluster j)
      ∧ (∀ k, (s.cluster k).readyAt ≠ 0 → (s.cluster k).readyAt ≤ s.clock → ∃ t, exec (.clusterOppointReady k) s = .next t
          ∧ (t.cluster k).readyAt = 0 ∧ (t.cluster k).pool = (s.cluster k).pool)
      ∧ (∀ b core r, s.mayMigrate b core = true → State.roomOn s s b core false = some r → ∃ t, exec (.hotSpotMigration b core) s = .next t
          ∧ (t.block b).core = core ∧ (t.block b).spBase = r.spBase ∧ (t.block b).sp = (s.block b).sp
          ∧ (t.block b).bars = (s.block b).bars
          ∧ ∀ c, (t.course c).regs.v = (s.course c).regs.v ∧ (t.course c).splits = (s.course c).splits)
      ∧ (s.energyAt < s.clock / 1024 → ∃ t, exec .energyAttribution s = .next t ∧ t.energyAt = s.clock / 1024
          ∧ t.served = []
          ∧ (∀ l < s.launches.length, (t.launch l).uj = (s.launch l).uj + (Meter.all.map (s.meterShare l)).sum)
          ∧ (∀ l m, (∀ e ∈ s.amounts m, e.1 ≠ l) → s.meterShare l m = 0)
          ∧ ∀ m, ((List.range s.launches.length).map fun l => s.meterShare l m).sum ≤ Config.meter m.num s.tick)
      ∧ (s.chargeAt < s.clock / 65536 →
          let charged (r : Nat) : Nat := ((List.range s.launches.length).map fun l =>
            (s.chain 8 (s.launch l).region).count r * ((s.launch l).uj / 1000)).sum
          ∃ t, exec .energyCharge s = .next t ∧ t.chargeAt = s.clock / 65536
            ∧ (∀ l, (t.launch l).uj = (s.launch l).uj % 1000)
            ∧ ∀ r < s.regions.length, (t.region r).used = (s.region r).used + charged r
                ∧ (t.region r).total = (s.region r).total + charged r)
      ∧ (∀ x root, s.rootOf x = some root → (s.region root).boundary ≤ s.clock →
          ∃ t, exec (.quotaPeriodBoundary x) s = .next t
            ∧ (t.region root).boundary = (s.region root).boundary + (s.region root).periodMs * 1750000
            ∧ ∀ r < s.regions.length, (s.region r).ctx = x → (s.region r).state ≠ 0 →
              let excess := if s.effQuota r = 0xFFFFFFFF then 0 else (s.region r).used - s.effQuota r
              (t.region r).used = excess ∧ (t.region r).overdraft = excess)

/-! ### Events of queues, regions and leases -/

/-- The events of queues, packets, regions and leases (R15 to R24, R37 to R53, R302 to R304): PACKET_READ, NOP_PACKET, SETMARK,
WAITMARKS, LAUNCH_PACKET, REGION_INSTALL, REGION_UPDATE, REGION_REMOVE, REGION_REMOVE_COMPLETE, LEASE_REQUEST, LEASE_RELEASE,
LEASE_GRANT, LEASE_REVOKE, LEASE_END, MARK_REEXAMINE, WAIT_PARK, QUEUE_DEADLOCK, QUEUE_ENABLE, QUEUE_DISABLE, QUEUE_KICK and
QUEUE_ERROR_CLEAR: what each does where it is due and its packet is well formed. Where the rules are silent on queues, regions
and leases the model's choice is stated (log 32): the first quota period of a root runs from its installation, a PARENT that
names no launch holds nothing, and any page that can be read, and written for a D field or a mark, serves. -/
def Obligations.QueueEvents : Prop :=
  ∀ (s : State), s.memoryWf = true →
    let heads (q type : Nat) (p : Packet) (x : Nat) : Prop :=
      s.head q type = some p ∧ p.zero [(10, 22)] = true ∧ s.queueCtx q = some x
    let passed (q : Nat) (p : Packet) (t : State) : Prop :=
      (t.queue q).read = (s.queue q).read + 1 ∧ (t.queue q).pkt = none ∧ p.index ∉ (t.queue q).open' ∧ t.turn = q
    let va (p : Packet) : Word := BitVec.ofNat 64 (p.fld 64 64)
    (∀ q c bs, s.packetDue q = true → (s.queue q).pkt = none → s.queueCtx q = some c →
        s.schedRead c ((s.queue q).base + BitVec.ofNat 64 (64 * ((s.queue q).read.toNat % 2 ^ fld (s.queue q).ctl 0 5))) 64 = some bs →
        ∃ t, exec (.packetRead q) s = .next t
          ∧ (t.queue q).pkt = some { index := (s.queue q).read.toNat, bytes := bs, since := s.clock }
          ∧ (t.queue q).read = (s.queue q).read)
      ∧ (∀ q p x, heads q 15 p x → p.zero [(64, 448)] = true → ∃ t, exec (.nopPacket q) s = .next t ∧ passed q p t)
      ∧ (∀ q p, s.head q 15 = some p → p.zero [(10, 22)] = false → ∃ t, exec (.nopPacket q) s = .next t
          ∧ (t.queue q).stat = 0x0201 ∧ (t.queue q).read = (s.queue q).read)
      ∧ (∀ q p x f, heads q 3 p x → p.zero [(194, 318)] = true → p.fld 192 2 ≤ 1 → (va p).toNat % 32 = 0 →
          s.schedMark x (va p) true = some f → s.oneView → ∃ t, exec (.setmark q) s = .next t ∧ passed q p t
            ∧ (s.shadows = [] → t.markWord f 0 = if p.fld 192 2 = 0 then BitVec.ofNat 64 (p.fld 128 64)
                else s.markWord f 0 + BitVec.ofNat 64 (p.fld 128 64)))
      ∧ (∀ q p x, heads q 2 p x → p.zero [(79, 49)] = true → p.fld 64 4 ≤ 5 → p.fld 68 4 ≤ 5 → p.fld 72 4 ≤ 5 → p.fld 77 2 ≠ 0 →
          p.fld 128 5 = 0 → p.fld 256 5 = 0 → p.fld 384 5 = 0 →
          (s.waitHolds x p = some true → ∃ t, exec (.waitmarks q) s = .next t ∧ passed q p t ∧ (t.queue q).hold = none)
          ∧ (s.waitHolds x p = some false → s.slotted.length < 512 → ∃ t, exec (.waitmarks q) s = .next t
              ∧ (t.queue q).hold = some { p with since := s.clock, due := s.runOf x + 65536 } ∧ p.index ∈ (t.queue q).open'))
      ∧ (∀ q p x bs r, heads q 1 p x → (s.ctx x).st = .running → p.zero [(129, 63), (320, 192)] = true → (va p).toNat % 64 = 0 →
          s.schedRead256 x (va p) = some bs →
          let d := descOf (leNat bs)
          let l := s.launchFrom q x p d r
          d.doneMark = 0 → d.region = 0 → s.rootOf x = some r → (s.region r).state = 1 →
          descLegal (leNat bs) d (Config.scratchBytes (s.ctx x).split) = true → (l.cls = 2 → s.couldReside x l = true) →
          ∃ t, exec (.launchPacket q) s = .next t ∧ t.launches.length = s.launches.length + 1
            ∧ (t.ctx x).nextLaunch = (s.ctx x).nextLaunch + 1
            ∧ (let y := t.launch s.launches.length
              let held := s.parentHolds x (p.fld 192 64)
              y.id = (s.ctx x).nextLaunch ∧ y.ctx = x ∧ y.region = r ∧ y.admitted = d.cls.getD (s.effClass r) ∧ y.cls = y.admitted
                ∧ (held = true ∨ d.blockCount ≠ 0 → p.index ∈ (t.queue q).open')
                ∧ (held = true → y.st = .held ∧ t.blocks = s.blocks)
                ∧ (held = false → d.blockCount ≠ 0 → t.blocks.length = s.blocks.length + d.blockCount)
                ∧ (held = false → d.blockCount = 0 → y.st = .retired ∧ p.index ∉ (t.queue q).open')))
      ∧ (∀ q p x pa w, heads q 4 p x → p.zero [(130, 382)] = true → (va p).toNat % 256 = 0 → s.readRcb x (va p) = some (pa, w) →
          let new := rcbFields x (va p) pa w
          let up : Word := BitVec.ofNat 64 (w % 2 ^ 64)
          (p.fld 128 2 = 0 → s.regionAt x (va p) = none → w / 2 ^ 456 % 256 = 0 → up = 0 → rcbLegal w new true = true →
            s.rootOf x = none → ∃ t, exec (.regionInstall q) s = .next t ∧ passed q p t
              ∧ t.regions = s.regions ++ [{ new with state := 1, depth := 1, boundary := s.clock + new.periodMs * 1750000 }]
              ∧ (isPool pa = false → s.shadows = [] → t.readBytes 0 (pa + 32) 26 = natLe 24 0 ++ [1, 1]))
          ∧ (∀ u, p.fld 128 2 = 0 → s.regionAt x (va p) = none → w / 2 ^ 456 % 256 = 0 → up ≠ 0 → rcbLegal w new false = true →
            s.activeAt x up = some u → (s.region u).depth + 1 ≤ 8 → ∃ t, exec (.regionInstall q) s = .next t ∧ passed q p t
              ∧ t.regions = s.regions ++ [{ new with state := 1, depth := (s.region u).depth + 1, parent := some u }])
          ∧ (∀ r, p.fld 128 2 = 1 → s.activeAt x (va p) = some r → (s.region r).parent = none → up = 0 → rcbLegal w new true = true →
            ∃ t, exec (.regionUpdate q) s = .next t ∧ passed q p t ∧ t.region r = (s.region r).updated new none)
          ∧ (∀ r u, p.fld 128 2 = 1 → s.activeAt x (va p) = some r → (s.region r).parent ≠ none → up ≠ 0 →
            rcbLegal w new false = true → s.activeAt x up = some u → r ∉ s.chain 8 u →
            (s.region u).depth + 1 + s.heightBelow r ≤ 8 → ∃ t, exec (.regionUpdate q) s = .next t ∧ passed q p t
              ∧ { t.region r with depth := 0 } = { (s.region r).updated new (some u) with depth := 0 }))
      ∧ (∀ q p x r, heads q 4 p x → p.zero [(130, 382)] = true → (va p).toNat % 256 = 0 → p.fld 128 2 = 2 →
          s.activeAt x (va p) = some r → ∃ t, exec (.regionRemove q) s = .next t
            ∧ (t.region r).state = 2 ∧ (t.region r).remover = some q
            ∧ (t.queue q).hold = some { p with since := s.clock } ∧ p.index ∈ (t.queue q).open')
      ∧ (∀ r, s.removeDue r = true → ∃ t, exec (.regionRemoveComplete r) s = .next t ∧ (t.region r).state = 0
          ∧ ∀ q p, (s.region r).remover = some q → (s.queue q).hold = some p →
              (t.queue q).hold = none ∧ p.index ∉ (t.queue q).open')
      ∧ (∀ q p x f, heads q 5 p x → p.fld 192 2 = 0 → p.zero [(160, 32), (194, 318)] = true → (va p).toNat % 32 = 0 →
          1 ≤ p.fld 128 32 → p.fld 128 32 ≤ 50000 → s.schedMark x (va p) true = some f → s.oneView →
          ((s.leases.any fun l => l.ctx == x && l.open') = false → ∃ t, exec (.leaseRequest q) s = .next t ∧ passed q p t
              ∧ t.leases = s.leases ++ [{ ctx := x, mark := f.pa, durUs := p.fld 128 32, st := .pending, asked := s.clock }])
          ∧ ((s.leases.any fun l => l.ctx == x && l.open') = true → ∃ t, exec (.leaseRequest q) s = .next t ∧ passed q p t
              ∧ t.leases = s.leases ∧ (s.shadows = [] → t.read64 f.pa = 4)))
      ∧ (∀ q p x, heads q 5 p x → p.fld 192 2 = 1 → p.zero [(160, 32), (194, 318)] = true → ∃ t, exec (.leaseRelease q) s = .next t
          ∧ passed q p t ∧ ∀ i, (s.leases.findIdx? fun l => l.ctx == x && l.open') = some i →
            (t.leases[i]?).map (·.st) = some .ended)
      ∧ (∀ i l, s.leases[i]? = some l → s.oneView → s.shadows = [] →
          (l.st = .pending → ∃ t, exec (.leaseGrant i true) s = .next t ∧ t.read64 l.mark = 1
            ∧ t.leases[i]? = some { l with
              st := .live, granted := s.clock, endAt := s.clock + l.durUs * 1750
              clusters := (List.range 12).filter fun k => (s.cluster k).pool == 2 })
          ∧ (l.st = .pending → ∃ t, exec (.leaseGrant i false) s = .next t ∧ t.read64 l.mark = 4
            ∧ t.leases[i]? = some { l with st := .ended })
          ∧ (l.st = .live → s.clock + 175000 ≤ l.endAt → (∀ y ∈ s.leases, y.st = .live → y.granted ≤ l.granted) → ∃ t, exec (.leaseRevoke i) s = .next t
            ∧ t.read64 l.mark = 2 ∧ t.leases[i]? = some { l with st := .ending (s.clock + 175000) })
          ∧ (s.leaseEndDue i = true → ∃ t, exec (.leaseEnd i) s = .next t ∧ t.read64 l.mark = 3
            ∧ t.leases[i]? = some { l with st := .ended }))
      ∧ (∀ c k a v cond sgn sc d due f, (s.split c k).wait = .mark a v cond sgn sc d due → s.reexamineDue (.course c k) = true →
          ({ s with cur := .course c k } : State).markLeaf a false = .ok f → s.shadows = [] →
          ∃ t, exec (.markReexamine (.course c k)) s = .next t
            ∧ (markHolds cond sgn (s.markWord f 0) v = true → (t.split c k).wait = .ready ∧ (t.split c k).pc = (s.split c k).next
              ∧ (0 < d.toNat → d.toNat < 61 → ({ t with cur := .course c k } : State).sreg d.toNat = s.markWord f 0))
            ∧ (markHolds cond sgn (s.markWord f 0) v = false → (t.split c k).pc = (s.split c k).pc
              ∧ (t.split c k).wait = .mark a v cond sgn sc d (s.run c + 65536)))
      ∧ (∀ q p x, s.queueWait q = some p → s.queueCtx q = some x → p.due ≤ s.runOf x →
          (s.waitHolds x p = some true → ∃ t, exec (.markReexamine (.queue q)) s = .next t ∧ (t.queue q).hold = none
              ∧ p.index ∉ (t.queue q).open')
          ∧ (s.waitHolds x p = some false → ∃ t, exec (.markReexamine (.queue q)) s = .next t
              ∧ (t.queue q).hold = some { p with due := s.runOf x + 65536 }))
      ∧ (∀ q p x, s.queueWait q = some p → s.queueCtx q = some x → p.parked = false → p.since + 65536 ≤ s.clock →
          ∃ t, exec (.waitPark q) s = .next t ∧ (t.queue q).hold = some { p with parked := true }
            ∧ (t.queue q).stat.getLsbD 1 = true)
      ∧ (∀ qs, s.waitCycle qs = true → ∃ t, exec (.queueDeadlock qs) s = .next t
          ∧ ∀ q ∈ qs, ∀ p, s.queueWait q = some p →
            (t.queue q).stat = 0x0801 ∧ (t.queue q).hold = none ∧ (t.queue q).read = BitVec.ofNat 64 p.index)
      ∧ (∀ q v, q < 4096 →
          let n := fld v 0 5
          let x := s.queue q
          (x.enabled = false → 4 ≤ n → n ≤ 20 → x.base.toNat % (64 * 2 ^ n) = 0 → ∃ t, exec (.queueEnable q v) s = .next t
              ∧ (t.queue q).enabled = true ∧ (t.queue q).kick = 0 ∧ (t.queue q).read = 0 ∧ (t.queue q).stat = 0
              ∧ (t.queue q).base = x.base)
          ∧ (∃ t, exec (.queueDisable q v) s = .next t ∧ (t.queue q).enabled = false ∧ (t.queue q).hold = none
              ∧ (t.queue q).pkt = none ∧ ∀ l, (t.launch l).queue = q → (t.launch l).owned = false)
          ∧ (v.toNat ≤ x.kick.toNat → ∃ t, exec (.queueKick q v) s = .next t ∧ t.queue q = x)
          ∧ (x.kick.toNat < v.toNat → v.toNat ≤ x.read.toNat + 2 ^ fld x.ctl 0 5 → ∃ t, exec (.queueKick q v) s = .next t
              ∧ t.queue q = { x with kick := v })
          ∧ (x.kick.toNat < v.toNat → x.read.toNat + 2 ^ fld x.ctl 0 5 < v.toNat → ∃ t, exec (.queueKick q v) s = .next t
              ∧ (t.queue q).kick = x.kick ∧ (t.queue q).inError = true ∧ (t.queue q).stat.extractLsb' 8 8 = 7)
          ∧ (x.inError = true → x.read.toNat ≤ x.repair.toNat → x.repair.toNat ≤ x.kick.toNat →
              ∃ t, exec (.queueErrorClear q) s = .next t ∧ (t.queue q).inError = false ∧ (t.queue q).read = x.repair)
          ∧ (x.inError = true → x.repair.toNat < x.read.toNat ∨ x.kick.toNat < x.repair.toNat →
              ∃ t, exec (.queueErrorClear q) s = .next t ∧ (t.queue q).stat = 0x0901 ||| (x.stat &&& 2)
                ∧ (t.queue q).read = x.read))

/-! ### Events of the host port -/

/-- REGISTER_WRITE, TLB_INVALIDATE with the removal that it starts, TLB_INVALIDATE_DONE, CONTEXT_CREATE, CONTEXT_SUSPEND,
SUSPEND_COMPLETE, CONTEXT_RESUME,
CONTEXT_DESTROY, CONTEXT_SCB, CONTEXT_LOST, PFRESP, SVCDONE, SAVE_AREA_TAIL_ADVANCE, WHOLE_CONTEXT_SWITCH and HOST_SNOOP (R5,
R37, R59, R220, R225, R354, R358 to R364, R367, R395, R399, R403): what each does where it is permitted. That the held entries of
the translation caches are what a removal takes away (log 14), that all six indices of a new context are 0 (log 47), that PFRESP
names its record by the index modulo 1,024 (log 44), and that a RESUME stays under way, with BUSY, until room is found (log 45) are
the model's choice. -/
def Obligations.HostEvents : Prop :=
  ∀ (s : State), s.memoryWf = true →
    (∀ v q, q < 4096 → ∃ t u, exec (.registerWrite (64 * q) v) s = .next t ∧ exec (.registerWrite (64 * q + 0x28) v) s = .next u
        ∧ t.queue q = { s.queue q with base := v } ∧ u.queue q = { s.queue q with repair := v })
      ∧ (∀ v, exec (.registerWrite 0x40000 v) s = .next { s with tlbVa := v }
          ∧ exec (.registerWrite 0x60000 v) s = .next { s with ctxAddr := v })
      ∧ (∀ v w, w < 64 → (Cells.get {} s.windows w).enabled = false → ∃ t, exec (.registerWrite (0x90000 + 32 * w) v) s = .next t
          ∧ Cells.get {} t.windows w = { Cells.get {} s.windows w with base := v &&& 0xFFFFFC0000000 })
      ∧ (∀ v h, h < 192 → (s.channel h).enabled = false → ∃ t, exec (.registerWrite (0xB0000 + 64 * h + 8) v) s = .next t
          ∧ t.channel h = { s.channel h with send := v })
      ∧ (∀ v, v.getLsbD 0 = true → s.tlbCtl.getLsbD 1 = true → ∃ t, exec (.tlbInvalidate v) s = .next t
          ∧ t.tlbCtl.getLsbD 1 = false
          ∧ t.tlbJob = some (.remove (fld v 32 32) (v.getLsbD 2) (s.tlbVa.toNat % 2 ^ 57 / 2 ^ 16 * 2 ^ 16))
          ∧ { t with tlbCtl := 0, tlbJob := none } = { s with tlbCtl := 0, tlbJob := none })
      ∧ (∀ ctx all va, s.tlbJob = some (.remove ctx all va) → ∃ t, perform s .tlbRemove = .next t
          ∧ t.walks.Sublist s.walks ∧ (∀ w ∈ s.walks, w ∈ t.walks ↔ ¬((s.ctx w.ctx).num = ctx ∧ (all = true ∨ w.page = va / 2 ^ w.sh)))
          ∧ { t with walks := [], tlbJob := none } = { s with walks := [], tlbJob := none })
      ∧ (∀ time marks, s.tlbJob = some (.settle time marks) →
          let waits : Prop := s.clock < time ∨ (∃ m ∈ marks, (∃ y ∈ s.copies, ∃ h ∈ y.todo, h.mark = some m)
            ∨ ∃ o ∈ s.ops, ∃ r ∈ o.early, r.mark = m)
          (waits → exec .tlbInvalidateDone s = .next s)
            ∧ (¬waits → ∃ t, exec .tlbInvalidateDone s = .next t ∧ t.tlbCtl.getLsbD 1 = true
              ∧ { t with tlbCtl := 0, tlbJob := none } = { s with tlbCtl := 0, tlbJob := none }))
      ∧ (∀ n, s.ctxBusy = false → s.ctxPlace n = none → ∀ w, s.readCrec = some w → crecMalformed w = false →
          rangesOk (crecCtx n w).ranges = true → ∃ t, exec (.contextCreate n) s = .next t ∧ t.ctxs = s.ctxs ++ [crecCtx n w]
            ∧ t.ctxStat = ctxStatus n false 0 ∧ (s.shadows = [] → ∀ i < 6, t.saveIx s.ctxs.length i = 0))
      ∧ (∀ n x, s.ctxPlace n = some x →
          (s.ctxBusy = false → ∃ t, exec (.contextCreate n) s = .next t ∧ t.ctxs = s.ctxs ∧ t.ctxStat = ctxStatus n false 2)
          ∧ (s.ctxBusy = false → (s.ctx x).st = .running → ∃ t, exec (.contextSuspend n) s = .next t ∧ (t.ctx x).st = .suspending
              ∧ t.ctxBusy = true ∧ ∀ c < s.courses.length, s.ctxOf c = x → (s.course c).place = .resident →
                  (s.course c).leaving = none → (t.course c).leaving = some .suspended)
          ∧ (s.suspendDue x = true → ∃ t, exec (.suspendComplete n) s = .next t ∧ (t.ctx x).st = .suspended
              ∧ ∀ b < s.blocks.length, (s.blockLaunch b).ctx = x → (s.block b).st.placed = true → (t.block b).st = .suspended)
          ∧ (s.suspendDue x = true → ∃ t, exec (.suspendComplete n) s = .next t
              ∧ ∀ o ∈ t.ops, s.ctxOf o.course = x → o.course < s.courses.length → o.started = none → o.core = none)
          ∧ (s.ctxBusy = false → (s.ctx x).st = .suspended → ∃ t, exec (.contextResume n) s = .next t
              ∧ (t.ctx x).st = .resuming ∧ t.ctxBusy = true)
          ∧ (∀ u, (s.ctx x).st = .resuming → s.resumeDue x = some u → ∃ t, exec (.contextResume n) s = .next t
              ∧ t.blocks = u.blocks ∧ t.courses = u.courses
              ∧ t.ctxs = u.ctxs.modify x fun c => { c with st := .running, bySched := false })
          ∧ (s.ctxBusy = false → s.hasWork x = false → ∃ t, exec (.contextDestroy n) s = .next t ∧ (t.ctx x).st = .destroyed
              ∧ ∀ r, (s.region r).ctx = x → (t.region r).state = 0)
          ∧ (∀ w, s.ctxBusy = false → (s.ctx x).st ≠ .lost → s.hasWork x = false → s.readCrec = some w →
              ∃ t, exec (.contextScb n) s = .next t ∧ (t.ctx x).scb = crecScb w)
          ∧ (s.lostDue x = true → ∃ t, exec (.contextLost n) s = .next t ∧ (t.ctx x).st = .lost
              ∧ t.vectors = (s.ctx x).vector :: s.vectors ∧ t.ctxStat = ctxStatus (s.ctx x).num false 4
              ∧ ∀ l < s.launches.length, (s.launch l).ctx = x → (s.launch l).unretired = true → (t.launch l).st = .lost)
          ∧ (∀ i r, (s.ctx x).pfs.find? (fun r => r.index % 1024 == i % 1024) = some r →
              s.readByte 0 (s.saveBase x + 0x90000 + 32 * (r.index % 1024) + 9) = 1 → ∃ t, exec (.pfresp n i) s = .next t
                ∧ r ∉ (t.ctx x).pfs ∧ ∀ c k va kind wr ex l sc since win, s.ctxOf c = x →
                  (s.split c k).wait = .page va kind wr ex l sc (some r.index) since win →
                  (t.split c k).wait = .ready ∧ (t.split c k).pc = (s.split c k).pc)
          ∧ (∀ r, (s.ctx x).svcs.find? (fun y => y.slot == r.slot) = some r → (s.course r.course).place ≠ .ended →
              (s.split r.course r.split).wait = .svc r.slot →
              let slot (j : Nat) : Nat := s.saveBase x + 0x10000 + 64 * ((r.slot + j) % 4096)
              s.readByte 0 (slot 0 + 28) = 1 → ∃ t, exec (.svcdone n r.slot) s = .next t
                ∧ (t.split r.course r.split).wait = .ready ∧ (t.split r.course r.split).pc = (s.split r.course r.split).next
                ∧ ∀ j l, (Mask.list r.lanes)[j]? = some l →
                  Cells.get 0 (t.course r.course).regs.v l = BitVec.ofNat 32 (leNat (s.readBytes 0 (slot (1 + j) + 32) 4))
                  ∧ Cells.get 0 (t.course r.course).regs.v (96 + l) = BitVec.ofNat 32 (leNat (s.readBytes 0 (slot (1 + j) + 36) 4)))
          ∧ (∀ ring v, ring < 3 → isHost (s.saveBase x) = true → s.shadows = [] →
              ∃ t, exec (.saveAreaTailAdvance n ring v) s = .next t ∧ t.saveIx x (2 * ring + 1) = v.toNat))
      ∧ (∀ mode, mode ≤ 1 → decide (mode = 1) ≠ s.partitioned →
          ((∀ x < s.ctxs.length, (s.ctx x).partitioned ≠ decide (mode = 1) →
              (s.ctx x).st ≠ .running ∧ (s.ctx x).st ≠ .suspending ∧ (s.ctx x).st ≠ .resuming) →
            ∃ t, exec (.wholeContextSwitch mode) s = .next t ∧ t.partitioned = decide (mode = 1) ∧ t.wb = [] ∧ t.stream = []
              ∧ t.held = [])
          ∧ (∀ x < s.ctxs.length, (s.ctx x).partitioned ≠ decide (mode = 1) → (s.ctx x).st = .running →
            ∃ t, exec (.wholeContextSwitch mode) s = .next t ∧ (t.ctx x).st = .suspending ∧ t.partitioned = s.partitioned))
      ∧ (∀ line stores, isHost (128 * line) = true → s.shadows = [] → ∃ t, exec (.hostSnoop ⟨line, stores⟩) s = .next t ∧ TakenBack s t line stores)

/-! ### Events of the pool, of peers and of errors -/

/-- The events of the pool link, its refuge and windows, of host accesses, of transfer channels, peer links and errors (R215,
R384 to R393, R397 to R407): what each does where it is permitted. DRAM_SCRUB, L2_SCRUB and LINK_FLIT_RETRY change nothing that
software sees. That POOL_DROP acts whatever LINK is, that the fabric's report has two directions, that HOST_DRAM_ACCESS serves host
memory too and that a channel's ENABLE clears kick, read and ERROR (log 48), when a load is in flight (log 18), and that the hours
of R416 are those of the device's clock (log 49) are the model's choice. -/
def Obligations.PoolEvents : Prop :=
  ∀ (s : State), s.memoryWf = true →
    let lost (cause : Nat) (t : State) : Prop :=
      t.poolUp = false ∧ t.poolCause = cause ∧ (∀ e ∈ t.wb, isPool (128 * e.1) = false)
        ∧ (∀ e ∈ t.held, isPool (128 * e.line) = false) ∧ (∀ e ∈ t.stream, isPool (128 * e.line) = false)
        ∧ (∀ e ∈ t.icache, isPool e.pa = false)
        ∧ (∀ c n a due atomic, Cells.get .clean (s.course c).regs.vst n = .coming a due atomic → s.clock < due →
            Cells.get .clean (t.course c).regs.vst n = .lost a atomic)
        ∧ (s.shadows = [] → (∀ x ∈ s.stream, isPool (128 * x.line) = false) → (∀ ln, isPool (128 * ln) = true → (s.tag ln).due ≤ s.clock) →
            let dirty := s.wb.filter fun e => isPool (128 * e.1) && !(s.tag e.1).clean
            (s.poolUp = true → t.poolRecords = dirty.length)
              ∧ ∀ i e, dirty[i]? = some e → isDram (refugeAt i + 143) = true →
                t.readBytes 0 (refugeAt i) 144 = s.refugeRecord e.1 e.2)
    let count (t : State) (k : Nat) : Nat × Nat := (fld (Cells.get 0 t.errCnt k) 0 32, fld (Cells.get 0 t.errCnt k) 32 32)
    (s.poolLink = true → s.poolMoving = false → s.poolPending = false → exec .poolResume s = .next { s with poolUp := true })
      ∧ (∃ t, exec .poolDrop s = .next t ∧ lost 3 t)
      ∧ (s.poolLink = true → ∃ t u, exec (.poolLinkLoss 1) s = .next t ∧ exec (.poolLinkLoss 2) s = .next u ∧ lost 1 t ∧ lost 2 u
          ∧ t.portA = false ∧ t.portB = false ∧ u.poolReach = false)
      ∧ (s.poolMoving = true → exec .refugeMoveDone s = .next { s with poolMoving := false })
      ∧ (∀ port up, s.mgmt.step < 7 → exec (.poolPortChange port up) s = .next s)
      ∧ (7 ≤ s.mgmt.step →
          (∀ up, up = true ∨ s.portB = true ∨ s.poolReach = false → exec (.poolPortChange 0 up) s = .next { s with portA := up })
          ∧ (∀ up, up = true ∨ s.portA = true ∨ s.poolReach = false → exec (.poolPortChange 1 up) s = .next { s with portB := up })
          ∧ (∀ up, up = true ∨ (s.portA = false ∧ s.portB = false) → exec (.poolPortChange 2 up) s = .next { s with poolReach := up })
          ∧ (s.poolReach = true → s.portA = true → s.portB = false →
              ∃ t, exec (.poolPortChange 0 false) s = .next t ∧ lost 1 t ∧ t.poolLink = false)
          ∧ (s.poolReach = true → s.portA = false → s.portB = true →
              ∃ t, exec (.poolPortChange 1 false) s = .next t ∧ lost 1 t ∧ t.poolLink = false)
          ∧ (s.poolLink = true → ∃ t, exec (.poolPortChange 2 false) s = .next t ∧ lost 2 t ∧ t.poolLink = false))
      ∧ (∀ i, i < s.poolRecords → s.refugeValid i = true → s.poolLink = true → s.oneView → s.shadows = [] →
          let pa := leNat (s.readBytes 0 (refugeAt i + 8) 8)
          isPool pa = true → isDram (refugeAt i) = true → ∃ t, exec (.refugeWriteback false i) s = .next t ∧ t.refugeValid i = false
            ∧ ∀ j < 128, t.memByte (pa + j) = s.readByte 0 (refugeAt i + 16 + j))
      ∧ (∀ i, s.oneView → s.shadows = [] → ∃ t, exec (.refugeDiscard true i) s = .next t ∧ ∀ k < s.poolRecords, t.refugeValid k = false)
      ∧ (∀ line stores, isPool (128 * line) = true → s.poolLink = true → s.oneView → s.shadows = [] → ∃ t, exec (.bisnp ⟨line, stores⟩) s = .next t
          ∧ TakenBack s t line stores ∧ t.birsps = line :: s.birsps
          ∧ ∀ c, ∀ w ∈ (t.course c).owed, w.pa / 128 = line → w.lost = true ∨ w.atomic = true)
      ∧ (∀ w v, w < 64 → (Cells.get {} s.windows w).enabled = false → ∃ t, exec (.poolWindowEnable w v) s = .next t
          ∧ (Cells.get {} t.windows w).enabled = s.windowValid w v
          ∧ (Cells.get {} t.windows w).base = (Cells.get {} s.windows w).base)
      ∧ (∀ w v, w < 64 → (∀ x, s.ctxPlace (fld (Cells.get {} s.windows w).ctl 32 32) = some x → s.hasWork x = false) →
          ∃ t, exec (.poolWindowDisable w v) s = .next t ∧ (Cells.get {} t.windows w).enabled = false)
      ∧ (∀ pa n, 0 < n → (isDram pa = true ∧ isDram (pa + n - 1) = true) ∨ (isHost pa = true ∧ isHost (pa + n - 1) = true) →
          exec (.hostDramAccess pa n none) s
            = .next { s with hostReads := (pa, if s.anyPoison pa n then none else some (s.readBytes 0 pa n)) :: s.hostReads })
      ∧ (∀ pa bs, bs ≠ [] → isDram pa = true → isDram (pa + bs.length - 1) = true →
          (s.mgmt.channelsOut = [] → (∀ i < bs.length, inRefuge (pa + i) = false) → s.shadows = [] →
            ∃ t, exec (.hostDramAccess pa bs.length (some bs)) s = .next t ∧ ∀ i < bs.length, t.readByte 0 (pa + i) = bs.getD i 0)
          ∧ ((∀ i < bs.length, inRefuge (pa + i) = true) → exec (.hostDramAccess pa bs.length (some bs)) s = .next s))
      ∧ (∀ pa bs, bs ≠ [] → isHost pa = true → isHost (pa + bs.length - 1) = true → s.shadows = [] →
          ∃ t, exec (.hostDramAccess pa bs.length (some bs)) s = .next t ∧ ∀ i < bs.length, t.memByte (pa + i) = bs.getD i 0)
      ∧ (∀ h v, h < 192 →
          let x := s.channel h
          (x.enabled = false → v.getLsbD 8 = true → 4 ≤ fld v 0 5 → fld v 0 5 ≤ 16 → x.send.toNat % (64 * 2 ^ fld v 0 5) = 0 →
            ∃ t, exec (.channelEnable h v) s = .next t ∧ (t.channel h).enabled = true ∧ (t.channel h).kick = 0
              ∧ (t.channel h).read = 0 ∧ (t.channel h).inError = false)
          ∧ (x.inError = true → ∃ t, exec (.channelErrorClear h) s = .next t ∧ (t.channel h).inError = false)
          ∧ (x.kick.toNat < v.toNat → v.toNat ≤ x.read.toNat + 2 ^ fld x.ctl 0 5 → ∃ t, exec (.channelKick h v) s = .next t
              ∧ t.channel h = { x with kick := v })
          ∧ (x.kick.toNat < v.toNat → x.read.toNat + 2 ^ fld x.ctl 0 5 < v.toNat → ∃ t, exec (.channelKick h v) s = .next t
              ∧ (t.channel h).inError = true ∧ (t.channel h).kick = x.kick))
      ∧ (∀ h c bs data, s.sendDue h = true → s.channelCtx h = some c →
          let u := s.performAt 5
          let x := s.channel h
          u.schedRead c x.descVa 64 = some bs →
          let w := leNat bs
          let len := w / 2 ^ 128 % 2 ^ 32
          let off := w / 2 ^ 64 % 2 ^ 64
          w / 2 ^ 200 = 0 → w / 2 ^ 160 % 2 ^ 32 = 0 → 0 < len → len ≤ 16777216 → off + len ≤ x.pSize.toNat →
          u.readSpan c (pagePieces (BitVec.ofNat 64 w) 4098 len) = some data → ∃ t, exec (.channelSend h) s = .next t
            ∧ t.peerOut = .bytes h off data :: s.peerOut ∧ (t.channel h).sending = true)
      ∧ (∀ h m c, (s.channel h).enabled = true → (s.channel h).inError = false → (s.linkOf h).up = true → s.channelCtx h = some c →
          let put := s.writeSpan c (pagePieces ((s.channel h).recv + BitVec.ofNat 64 m.off) 4098 m.bytes.length) m.bytes
          put.2 = true →
          (m.last = true → (put.1.bumpMark c (s.channel h).rmark).2 = true → ∃ t, exec (.channelReceive h (some m)) s = .next t
            ∧ t.peerOut = .done h :: s.peerOut ∧ (t.channel h).arriving = false)
          ∧ (m.last = false → ∃ t, exec (.channelReceive h (some m)) s = .next t ∧ t.peerOut = s.peerOut
            ∧ (t.channel h).arriving = true))
      ∧ (∀ h, (s.channel h).sending = true → ∃ t, exec (.channelReceive h none) s = .next t ∧ (t.channel h).sending = false
          ∧ (t.channel h).read = (s.channel h).read + 1)
      ∧ (∀ h en er size, (s.channel h).sending = false → er = false ∨ (s.channel h).pError = true →
          ∃ t, exec (.channelStateMessage h en er size) s = .next t
            ∧ t.channel h = { s.channel h with pEnable := en, pError := er, pSize := size })
      ∧ (∀ l, l < 12 → ∃ t, exec (.peerLinkDown l) s = .next t ∧ (Cells.get {} t.links l).up = false
          ∧ ∀ h, h / 16 = l → (t.channel h).inError = true)
      ∧ (∀ l, exec (.linkFlitRetry l) s = .next s)
      ∧ (∀ l, l < 12 → (Cells.get {} s.links l).up = true → ∃ t, exec (.linkLaneDegrade l) s = .next t
          ∧ Cells.get {} t.links l = { up := true, lanes := 4 })
      ∧ (∀ k unit n, k < 7 → ∃ t, exec (.eccCorrected k ⟨unit, n⟩) s = .next t
          ∧ count t k = (min 0xFFFFFFFF ((count s k).1 + n), (count s k).2)
          ∧ { t with errCnt := [], mgmt := s.mgmt } = { s with errCnt := [] }
          ∧ (unit < 1152 →
              let hour := s.clock / 6300000000000
              let more (m : Cells (Nat × Nat)) : Nat × Nat :=
                (hour, (if (Cells.get (0, 0) m unit).1 = hour then (Cells.get (0, 0) m unit).2 else 0) + n)
              (k = 4 → Cells.get (0, 0) t.mgmt.chanErrs unit = more s.mgmt.chanErrs
                  ∧ (10000 < (more s.mgmt.chanErrs).2 → unit ∈ t.mgmt.hot))
                ∧ (k = 0 ∨ k = 2 ∨ k = 5 → Cells.get (0, 0) t.mgmt.coreErrs unit = more s.mgmt.coreErrs
                  ∧ (1000 < (more s.mgmt.coreErrs).2 → unit ∈ t.mgmt.sick))))
      ∧ (∀ k g, k < 7 → ∃ t, exec (.eccUncorrectable k (.memory g)) s = .next t ∧ t.memPoison (64 * g) = true
          ∧ (s.inL2 (g / 2) = false → t.poisoned (64 * g) = true)
          ∧ count t k = ((count s k).1, min 0xFFFFFFFF ((count s k).2 + 1)))
      ∧ (∀ k n, k < 7 → ∃ t, exec (.eccUncorrectable k (.parity n)) s = .next t
          ∧ count t k = (min 0xFFFFFFFF ((count s k).1 + 1), (count s k).2)
          ∧ t.opcache = s.opcache.filter (·.core != n) ∧ t.icache = s.icache.filter (·.core != n) ∧ t.mem = s.mem)
      ∧ (∀ k cache g, (∃ e ∈ s.held, e.cache = cache ∧ e.line = g / 2) → ∃ t, exec (.eccUncorrectable k (.l1 cache g)) s = .next t
          ∧ t.wb = s.wb ∧ ∀ e, e ∈ t.held ↔ e ∈ s.held ∧ ¬(e.cache = cache ∧ e.line = g / 2))
      ∧ (∀ k c r w, c < s.courses.length → ∃ t, exec (.eccUncorrectable k (.vreg c r w)) s = .next t
          ∧ Cells.get .clean (t.course c).regs.vst (3 * r + w) = .poison)
      ∧ (∀ k q r, q < s.lanes.length → ∃ t, exec (.eccUncorrectable k (.laneScalar q r)) s = .next t
          ∧ Cells.get .clean (t.lane q).regs.sst r = .poison)
      ∧ (∀ k g, Cells.get [] s.wb (g / 2) ≠ [] →
          ((s.tag (g / 2)).clean = false → ∃ t, exec (.eccUncorrectable k (.cached g)) s = .next t ∧ t.poisoned (64 * g) = true)
          ∧ ((s.tag (g / 2)).clean = true → (∀ x ∈ s.stream, x.line ≠ g / 2) →
            ∃ t, exec (.eccUncorrectable k (.cached g)) s = .next t ∧ Cells.get [] t.wb (g / 2) = []))
      ∧ (∀ n, exec (.dramScrub n) s = .next s ∧ exec (.l2Scrub n) s = .next s)

/-! ### Events of the management controller -/

/-- The events of boot, firmware update, hand-over, mapping out, recalibration and attestation (R49, R408 to R418): what each does
where the controller takes it, and what a boot does with each unit in order. Signatures, certificates, digests and causes
are free values (log 11). What a boot keeps, that a roll starts with cluster 0, when the controller restarts, that a drain of a core
ends after 2^36 cycles, and how long a recalibration takes are the model's choice (log 49). -/
def Obligations.ManagementEvents : Prop :=
  ∀ (s : State),
    let m := s.mgmt
    let answers (t : State) (command : Nat) (ok : Bool) : Prop := t.mctp = .pldm command ok :: s.mctp
    let replies (i : Instr) (x : Mctp) : Prop := exec i s = .next { s with mctp := x :: s.mctp }
    (∀ us, ∃ t, exec (.boot us) s = .next t ∧ t.mgmt.boot = m.boot + 1 ∧ t.mem = s.mem ∧ t.courses = [] ∧ t.wb = []
        ∧ (t.mgmt.running = true → t.mctp = t.bootReport :: s.mctp)
        ∧ (t.mgmt.stopped = true → t.mctp = .journalOnly t.mgmt.journal :: s.mctp)
        ∧ (t.mgmt.running = false → t.mgmt.stopped = false → t.mctp = s.mctp))
      ∧ (m.running = true → ∀ us, s.bootUnits us = s)
      ∧ (∀ (u : BootUnit) us, m.running = false →
          let count := if m.step = 3 ∨ m.step = 4 then 1152 else if m.step = 5 then 144 else if m.step = 8 ∨ m.step = 10 then 12 else 1
          let next := if m.step = 0 then (1, 0) else if m.unit + 1 < count then (m.step, m.unit + 1) else (m.step + 1, 0)
          (next ≠ (u.step, u.unit) → s.bootUnits (u :: us) = s)
          ∧ (next = (u.step, u.unit) →
              let t := s.bootUnits (u :: us)
              (m.wayOf u.step u.unit = none → t.mgmt.stopped = true ∧ t.mgmt.journal = m.journal)
              ∧ ∀ way, m.wayOf u.step u.unit = some way →
                let bank := if way = 1 then m.bankB else m.bankA
                let sound := (List.range 4).all fun c => Config.verifies (Cells.get {} bank c).image
                let r0 : Trial := if way = 0 then u.std else u.alt
                let r : Trial := if way = 2 then .pass else if u.step = 1 ∧ r0 = .pass ∧ sound = false then .fail else r0
                let noted (n : Mgmt) : Prop := n.journal.head? = some
                  { boot := m.boot, step := BitVec.ofNat 16 u.step, unit := BitVec.ofNat 32 u.unit, way := BitVec.ofNat 8 way
                    result := match r with | .pass => 0 | .fail => 1 | .cut => 2
                    detail := if r = .fail then Config.bootCause u.step u.unit m.boot.toNat else 0 }
                (r ≠ .pass → noted t.mgmt ∧ t.mgmt.running = false ∧ t.mgmt.step = m.step ∧ t.mgmt.unit = m.unit)
                ∧ (r = .pass →
                    let v := s.bootUnits [u]
                    t = v.bootUnits us ∧ noted v.mgmt ∧ v.mgmt.step = u.step ∧ v.mgmt.unit = u.unit
                      ∧ (v.mgmt.running = true ↔ u.step = 10 ∧ u.unit = 11)
                      ∧ (u.step = 3 → (way = 1 → u.unit ∈ v.mgmt.channelsOut)
                          ∧ ((3, u.unit) ∈ m.cleared → u.unit ∉ v.mgmt.channelsOut))
                      ∧ (u.step = 4 → (way = 1 → u.unit ∈ v.mgmt.coresOut) ∧ ((4, u.unit) ∈ m.cleared → u.unit ∉ v.mgmt.coresOut))
                      ∧ (u.step = 7 → way ≠ 2 → v.poolLink = true)
                      ∧ (u.step = 10 → (v.cluster u.unit).leaf = Cells.get {} m.runs 1
                          ∧ (v.cluster u.unit).microcode = Cells.get {} m.runs 3))
                ∧ (u.step = 1 → way ≠ 2 → r0 = .pass → ∀ c, Cells.get {} (s.bootUnits [u]).mgmt.runs c
                    = if sound = false then Cells.get {} m.runs c
                      else if c = 0 ∧ m.controller.isSome = true then m.controller.getD {} else Cells.get {} bank c)))
      ∧ (∀ step unit, step = 3 ∨ step = 4 → ∃ t, exec (.clearMapOut step unit) s = .next t ∧ (step, unit) ∈ t.mgmt.cleared)
      ∧ (∀ v, m.controller = some v → ∃ t, perform s .restart = .next t ∧ t.mgmt.controller = none
          ∧ Cells.get {} t.mgmt.runs 0 = v ∧ t.courses = s.courses)
      ∧ (m.stopped = true → replies .getStatus (.journalOnly m.journal) ∧ replies .getMeasurements (.journalOnly m.journal))
      ∧ (m.takeover = true → exec .schedulerFailover s = .next (s.modMgmt fun y => { y with spare := !m.spare, takeover := false }))
      ∧ (m.takeover = false → exec .schedulerFailover s = .next s)
      ∧ (m.stopped = false →
          (m.updating = false → ∃ t, exec .requestUpdate s = .next t ∧ t.mgmt.updating = true ∧ t.mgmt.staged = [] ∧ answers t 1 true)
          ∧ (m.updating = true → ∃ t, exec .requestUpdate s = .next t ∧ t.mgmt = m ∧ answers t 1 false)
          ∧ (∀ cs, m.updating = true → ∃ t, exec (.passComponentTable cs) s = .next t ∧ t.mgmt.table = cs.filter (· < 4)
              ∧ answers t 2 true)
          ∧ (∀ comp image, m.updating = true → comp ∈ m.table → ∃ t, exec (.updateComponent comp image) s = .next t
              ∧ t.mgmt.image comp = some { comp := comp, image := image } ∧ answers t 3 true)
          ∧ (∀ comp x, m.image comp = some x →
              let inactive (t : State) : Firmware :=
                Cells.get {} (if m.fromB = true ∨ comp ∈ m.activeB then t.mgmt.bankA else t.mgmt.bankB) comp
              (∃ t, exec (.transferComplete comp) s = .next t ∧ t.mgmt.image comp = some { x with transferred := true }
                ∧ inactive t = { image := x.image } ∧ answers t 4 true)
              ∧ (∀ version,
                let ok := x.transferred && Config.verifies x.image && decide (m.fuse ≤ version)
                ∃ t, exec (.verifyComplete comp version) s = .next t ∧ answers t 5 ok ∧ t.mgmt.runs = m.runs
                  ∧ (t.mgmt.image comp = if ok = true then some { x with version := some version } else none)
                  ∧ (x.transferred = true → inactive t = if ok = true then ⟨x.image, version⟩ else {}))
              ∧ (x.version.isSome = true → ∃ t, exec (.applyComplete comp) s = .next t
                  ∧ t.mgmt.image comp = some { x with applied := true } ∧ answers t 6 true))
          ∧ (m.updating = true → (m.staged.any (·.applied)) = true → ∃ t, exec .activateFirmware s = .next t ∧ answers t 7 true
              ∧ t.mgmt.updating = false ∧ t.mgmt.staged = [] ∧ t.mgmt.runs = m.runs ∧ m.fuse ≤ t.mgmt.fuse
              ∧ (∀ c v, c < 4 → m.ready c = some v → v.version ≤ t.mgmt.fuse)
              ∧ (t.mgmt.fuse = m.fuse ∨ ∃ c < 4, (m.ready c).map (·.version) = some t.mgmt.fuse)
              ∧ (∀ v, m.ready 0 = some v → t.mgmt.controller = some v) ∧ (∀ v, m.ready 2 = some v → t.mgmt.scheduler = some v)
              ∧ (∀ v, m.ready 1 = some v → t.mgmt.leaf.map (fun e => (e.1, e.2.1)) = some (0, some v))
              ∧ (∀ v, m.ready 3 = some v → t.mgmt.leaf.map (fun e => (e.1, e.2.2)) = some (0, some v))
              ∧ (m.fromB = false → ∀ c < 4, c ∈ t.mgmt.activeB ↔ ((m.ready c).isSome = true ↔ c ∉ m.activeB)))
          ∧ replies .getStatus (.status (m.updating || m.leaf.isSome || m.scheduler.isSome || m.controller.isSome) m.left)
          ∧ (m.updating = true → ∃ t, exec .cancelUpdate s = .next t ∧ t.mgmt.updating = false ∧ t.mgmt.staged = [] ∧ answers t 8 true)
          ∧ replies .getDigests (.digests Config.digests)
          ∧ replies .getCertificate (.certificate Config.identity (Config.signature Config.identity))
          ∧ (∀ n, replies (.challenge n) (.challenge n (Config.signature [n])))
          ∧ replies .getMeasurements (.measurements s.measured (Config.signature s.measured)))
      ∧ (∀ k leafs micro, m.leaf = some (k, leafs, micro) →
          ((s.cluster k).drain = none → ∃ t, exec (.leafUpdateCluster k) s = .next t ∧ (t.cluster k).drain = some s.clock)
          ∧ ((s.cluster k).drain ≠ none → s.clusterEmpty k = true → ∃ t, exec (.leafUpdateCluster k) s = .next t
              ∧ (t.cluster k).drain = none ∧ (t.cluster k).leaf = leafs.getD (s.cluster k).leaf
              ∧ (t.cluster k).microcode = micro.getD (s.cluster k).microcode)
          ∧ (∀ since, (s.cluster k).drain = some since → since + 2 ^ 36 ≤ s.clock → ∃ t, exec (.leafDrainTimeout k) s = .next t
              ∧ (t.cluster k).drain = none ∧ (t.cluster k).leaf = (s.cluster k).leaf ∧ k ∈ t.mgmt.left))
      ∧ (∀ v, m.scheduler = some v → m.failed = 0 → ∃ t, exec .schedulerHandover s = .next t ∧ t.mgmt.spare = !m.spare
          ∧ t.mgmt.scheduler = none ∧ Cells.get {} t.mgmt.runs 2 = v)
      ∧ (m.failed ≠ 0 → exec .schedulerHandover s = .next s)
      ∧ (∀ core, core ∉ m.coresOut →
          let since := Cells.get none m.draining core
          (core ∉ m.sick → since = none → exec (.coreMapOut core) s = .next s)
          ∧ (core ∈ m.sick ∨ since ≠ none →
            (s.coreEmpty core = true → ∃ t, exec (.coreMapOut core) s = .next t ∧ core ∈ t.mgmt.coresOut
              ∧ Cells.get none t.mgmt.draining core = none)
            ∧ (s.coreEmpty core = false → since = none → ∃ t, exec (.coreMapOut core) s = .next t
              ∧ Cells.get none t.mgmt.draining core = some s.clock ∧ t.mgmt.coresOut = m.coresOut)
            ∧ (∀ c, s.coreEmpty core = false → since = some c → s.clock < c + 2 ^ 36 → exec (.coreMapOut core) s = .next s)
            ∧ (∀ c, s.coreEmpty core = false → since = some c → c + 2 ^ 36 ≤ s.clock → ∃ t, exec (.coreMapOut core) s = .next t
              ∧ Cells.get none t.mgmt.draining core = none ∧ core ∉ t.mgmt.sick ∧ t.mgmt.coresOut = m.coresOut)))
      ∧ (∀ ch row, (ch ∉ m.hot → exec (.dramRowSpare ch row) s = .next s)
          ∧ (ch ∈ m.hot → ∃ t, exec (.dramRowSpare ch row) s = .next t ∧ (ch, row) ∈ t.mgmt.rows ∧ ch ∉ t.mgmt.hot)
          ∧ (ch < 1152 → ∃ t, exec (.channelMapOut ch) s = .next t ∧ ch ∈ t.mgmt.channelsOut))
      ∧ (∀ n, n < 144 → n ∉ m.slices →
          (s.containing n = true → ∃ t, exec (.l2SliceDegrade n) s = .next t ∧ t.mgmt.slices = m.slices ∧ n ∈ t.mgmt.failing
            ∧ t.wb = s.wb)
          ∧ (s.containing n = false → s.memoryWf = true → s.oneView → ∃ t, exec (.l2SliceDegrade n) s = .next t
            ∧ n ∈ t.mgmt.slices ∧ (∀ e ∈ t.wb, s.slice e.1 = n → s.pinned e.1 = true)
            ∧ ∀ pa, s.slice (pa / 128) = n → (s.tag (pa / 128)).clean = false → (∀ x ∈ s.stream, x.line ≠ pa / 128) →
                t.memByte pa = s.wbByte pa))
      ∧ (∀ q, (q ∉ m.slow → exec (.quarterRecalibrate q) s = .next s)
          ∧ (q ∈ m.slow → ∃ t, exec (.quarterRecalibrate q) s = .next t ∧ s.clock ≤ Cells.get 0 t.mgmt.recal q
            ∧ Cells.get 0 t.mgmt.recal q ≤ s.clock + 10000 ∧ q ∉ t.mgmt.slow ∧ t.courses = s.courses))

/-! ### Fetch, decoding and the step -/

/-- Where an agent executes and owes no trap, a step executes the instruction that the bytes at its PC decode to: those of the
line in its fetch buffer, else of the line in its instruction cache, else of the line that its executable page holds, which
then is in both (R68, R69, R91). Around it the meters count, the fetch buffer is emptied where the instruction branched, and
the clock advances by one cycle (R21, R91, log 12). Bytes that decode to nothing raise ILLEGAL_OP or ILLEGAL_PAIR with their
low 32 bits as TINFO, and an instruction that crosses its line raises FETCH_STRADDLE (R69, R90). A fetch at any offset of a pool
line raises EXEC_POOL (R86). A line of an IO page or one without X, and a line of the pooled tier whose region has POOL_EN 0, raise
PROTECTION; one that the region allows while the link is down raises POOL_LINK_LOST with TINFO 9, and a poisoned one POISON; a
page that is not mapped or malformed is a page fault of kind 1 or 2 (R221, R387, R390). -/
def Obligations.StepRunsDecoded : Prop :=
  ∀ (s : State), s.cur ≠ .none →
    let u := s.beginIssue
    let counts (t : State) : State := s.account (.issue s.cur) t
    (∀ i t, notIssued s.wait t.wait = false →
        { (counts (s.afterIssue i t)).setBuf [] with served := [] } = { t.setBuf [] with served := [] })
      ∧ (u.dueTrap = none →
        let x := u.ctxOf u.curCourse
        let va := u.pc.toNat / 32 * 32
        let around (o : Host.Outcome State Fault Refusal) := afterNext (State.tickOver s.clock s.tick) (afterNext counts o)
        let cached (e : ILine) : Bool := e.core == u.cacheOf && e.ctx == (u.ctx x).num && e.va == va
        let runs (bytes : List Byte) (v : State) : Prop :=
          let first := bytesWord (bytes.take 16)
          let o := u.pc.toNat % 32
          let w := bytesWord ((bytes.drop o).take 16)
          let crosses : Prop := 32 < o + lenBytes (lenOf w)
          (opcOf first = 0xFE ∧ lenOf first = 0 → step s = around (u.settleExn s.pc 0 (trapC tExecPool u.pc 0)))
          ∧ (¬(opcOf first = 0xFE ∧ lenOf first = 0) →
            (∀ i, decode w = .ok i → opcOf w = 0xFE ∨ ¬crosses → step s = around (afterNext (s.afterIssue i) (exec i v)))
            ∧ (opcOf w ≠ 0xFE → (lenOf w).toNat ≠ 3 → crosses →
                step s = around (u.settleExn s.pc 0 (trapC tStraddle 0 (low32 w))))
            ∧ ∀ r, decode w = .error r → ¬crosses →
                step s = around (u.settleExn s.pc 0 (trapC (if r = .illegalPair then tIllegalPair else tIllegalOp) 0 (low32 w))))
        (∀ e, u.buf.find? (fun e => e.va == va) = some e → runs e.bytes (u.setBuf (e :: u.buf.filter fun f => f.va == va + 32)))
          ∧ (∀ e, u.buf.find? (fun e => e.va == va) = none → u.icache.find? cached = some e →
              runs e.bytes (u.setBuf [⟨e.va, e.pa, e.bytes⟩]))
          ∧ (u.buf.find? (fun e => e.va == va) = none → u.icache.find? cached = none →
              let page := u.translate x (BitVec.ofNat 64 va)
              let fails (e : Exn) : Prop := step s = around (u.settleExn s.pc 0 e)
              (page = .error .nonCanonical → fails (trapC tProtection u.pc 0))
              ∧ (page = .error .invalid → fails (.page u.pc 1 false true 127 none))
              ∧ (page = .error .malformed → fails (.page u.pc 2 false true 127 none))
              ∧ ∀ leaf, page = .ok leaf →
                let enabled := u.effPoolEn (u.launchOf u.curCourse).region
                (leaf.x = false ∨ leaf.pol = 3 → fails (trapC tProtection u.pc 0))
                ∧ (isPool leaf.pa = true → enabled = false → fails (trapC tProtection u.pc 0))
                ∧ (leaf.x = true → leaf.pol ≠ 3 → (isPool leaf.pa = true → enabled = true) →
                  (isPool leaf.pa = true → u.poolUp = false → fails (trapC tPoolLost u.pc 9))
                  ∧ ((isPool leaf.pa = true → u.poolUp = true) →
                    (u.anyPoison leaf.pa 32 = true → fails (trapC tPoison u.pc 0))
                    ∧ (u.anyPoison leaf.pa 32 = false →
                      let bytes := u.readBytes 0 leaf.pa 32
                      runs bytes ({ u with icache := ⟨u.cacheOf, (u.ctx x).num, va, leaf.pa, bytes⟩ :: u.icache }.setBuf
                        [⟨va, leaf.pa, bytes⟩]))))))

/-- Words written out from the strips of R70 to R82, and two of the spec's worked encodings, decode to their instructions; a
word with LEN = 0b11 and one with a nonzero reserved field decode to none (R68, R71). -/
def Obligations.DecodeWords : Prop :=
  -- sadd.n64 s3, s1, s2: bits 63:43 zero, TY 3 at 42:39, SUB 0, B 2 at 33:28, A 1 at 27:22, D 3 at 21:16, OPC 0x01, LEN 0
  decode (0#64 ++ (0#21 ++ 3#4 ++ 0#5 ++ 2#6 ++ 1#6 ++ 3#6 ++ 0#6 ++ 0x01#8 ++ 0#2 : BitVec 64))
      = .ok (.sadd ⟨3, 1, .reg 2, .n64, 0⟩)
    -- smovi.i64 s5, 0x12345678: SI, with bit 63 set and IMM32 in bits 95:64
    ∧ decode (0#32 ++ (0x12345678#32 ++ (1#1 ++ 0#20 ++ 2#4 ++ 0#5 ++ 0#6 ++ 0#6 ++ 5#6 ++ 0#6 ++ 0x11#8 ++ 1#2 : BitVec 64) : BitVec 96))
      = .ok (.smovi ⟨5, 0, .imm 0x12345678, .i64, 0⟩)
    -- vcmp.lt.i32 p3, v2, v3
    ∧ decode 0x0010018010030154 = .ok (.vcmp ⟨false, ⟨0, false⟩, false, 3, 2, 3, 2, .i32, 0⟩)
    -- vfma.f32 v8, v2, v3, v4
    ∧ decode 0x4040001801008018D = .ok (.vfma ⟨⟨0, false⟩, false, 8, 2, 3, 4, 0, .f32, 0, 0⟩)
    -- yield: SYS, opcode 0xDA
    ∧ decode (0#64 ++ (0#2 ++ 0#16 ++ 0#12 ++ 0#6 ++ 0#6 ++ 0#6 ++ 0#6 ++ 0xDA#8 ++ 0#2 : BitVec 64)) = .ok (.yield ⟨false, 0, 0, 0, 0, 0⟩)
    ∧ decode 0x3 = .error .lenReserved
    -- the first word with bit 62 set
    ∧ decode (0#64 ++ (0#1 ++ 1#1 ++ 0#19 ++ 3#4 ++ 0#5 ++ 2#6 ++ 1#6 ++ 3#6 ++ 0#6 ++ 0x01#8 ++ 0#2 : BitVec 64)) = .error .illegalOp

/-- Decoding and encoding agree (R68 to R89). The word of every well-formed instruction decodes to it with every operand; an
event has no word. And a word that decodes is, in the bytes of its instruction, the encoding of what it decodes to: no bit of
it is dropped (of PGUARD and a reserved opcode the first 64 bits are kept). -/
def Obligations.RoundTrip : Prop :=
  (∀ i : Instr, Laws.RoundTrip.Statement i)
    ∧ ∀ (w : BitVec 128) (i : Instr), decode w = .ok i →
        let len := if i = .pguard (bits w 0 64) ∨ i = .reservedOpcode (bits w 0 64) then 8 else lenBytes (lenOf w)
        ∃ v, encode i = some v ∧ ∀ k < 128, v.getLsbD k = (decide (k < 8 * len) && w.getLsbD k)

/-- Every step keeps what holds bytes in its canonical form: memory, the lines of L2, copies under a lease, STREAM copies and
every scratchpad (R208, R210, R214, R222). That there is one form is the model's choice (log 1). -/
def Obligations.MemoryInvariant : Prop :=
  ∀ (s t : State), s.memoryWf = true → s.padsWf = true → step s = .next t → t.memoryWf = true ∧ t.padsWf = true

/-- What reset leaves: every register of the host port at the reset value of its table (R37, R38, R220, R283, R360, R389, R393,
R399, R403), POOLSTAT.UP 0 until the first accepted RESUME, and memory in its canonical form. That every byte of memory reads as one
fill byte is the model's choice (log 1), and so is that nothing is resident (log 7). -/
def Obligations.ResetState : Prop :=
  let s := State.reset
  (∀ q, let x := s.queue q
      x.base = 0 ∧ x.ctl = 0 ∧ x.kick = 0 ∧ x.read = 0 ∧ x.stat = 0 ∧ x.repair = 0)
    ∧ s.tlbVa = 0 ∧ fld s.tlbCtl 32 32 = 0 ∧ s.tlbCtl.getLsbD 2 = false ∧ s.tlbCtl.getLsbD 1 = true ∧ s.tlbCtl.getLsbD 0 = false
    ∧ s.ctxAddr = 0 ∧ s.ctxCmd = 0 ∧ s.ctxStat = 0
    ∧ (∀ d, Cells.get slewDefault s.slewTab d = 0x0404040404040404 ∧ Cells.get 0 s.slewWait d = 0)
    ∧ (∀ k, Cells.get 0 s.replayCnt k = 0 ∧ Cells.get 0 s.replayQn k = 0 ∧ Cells.get 0 s.errCnt k = 0)
    ∧ s.poolStat = 0 ∧ s.poolUp = false
    ∧ (∀ w, let x := Cells.get {} s.windows w
        x.base = 0 ∧ x.size = 0 ∧ x.fab = 0 ∧ x.ctl = 0)
    ∧ (∀ h, let x := s.channel h
        x.ctl = 0 ∧ x.send = 0 ∧ x.smark = 0 ∧ x.recv = 0 ∧ x.rsize = 0 ∧ x.rmark = 0 ∧ x.kick = 0 ∧ x.read = 0)
    ∧ s.ctxs = [] ∧ s.launches = [] ∧ s.blocks = [] ∧ s.courses = [] ∧ s.lanes = []
    ∧ s.memoryWf = true ∧ s.padsWf = true ∧ ∀ pol pa, s.readByte pol pa = Config.memFill
end

