-- ==== Sys2Proof/Laws/Cells.lean ====
section
/-!
SUPPORT. Laws of sparse maps: what a key reads as after a write, and that every operation keeps the canonical form.
-/

namespace Sys2Proof.Machine

/-! ### Reading after a write -/

theorem Cells.get_erase (d : α) (m : Cells α) (i j : Nat) :
    Cells.get d (Cells.erase m i) j = if j = i then d else Cells.get d m j := by
  induction m with
  | nil => simp [Cells.erase, Cells.get]
  | cons e m ih =>
    obtain ⟨a, v⟩ := e
    simp only [Cells.erase, List.filter_cons] at ih ⊢
    by_cases h : a = i
    · subst h
      simp only [bne_self_eq_false, Bool.false_eq_true, if_false, ih, Cells.get]
      by_cases h2 : j = a
      · simp only [h2, if_true]
      · simp only [h2, if_false, if_neg (Ne.symm h2)]
    · simp only [bne_iff_ne, ne_eq, h, not_false_eq_true, if_true, Cells.get, ih]
      by_cases h2 : a = j
      · simp only [h2, if_true, if_neg (h2 ▸ h)]
      · simp only [h2, if_false]

theorem Cells.get_insert (d : α) (m : Cells α) (i j : Nat) (v : α) :
    Cells.get d (Cells.insert m i v) j = if j = i then v else Cells.get d m j := by
  induction m with
  | nil =>
    by_cases h : j = i
    · simp only [Cells.insert, Cells.get, h, if_true]
    · simp only [Cells.insert, Cells.get, h, if_false, if_neg (Ne.symm h)]
  | cons e m ih =>
    obtain ⟨a, u⟩ := e
    simp only [Cells.insert]
    by_cases h : a < i
    · simp only [h, if_true, Cells.get, ih]
      by_cases h2 : a = j
      · simp only [h2, if_true, if_neg (show ¬j = i by omega)]
      · simp only [h2, if_false]
    · simp only [h, if_false, Cells.get]
      by_cases h2 : j = i
      · simp only [h2, if_true]
      · simp only [h2, if_false, if_neg (Ne.symm h2)]

/-- What key `j` reads as after a write of key `i`. -/
theorem Cells.get_set [DecidableEq α] (d : α) (m : Cells α) (i j : Nat) (v : α) :
    Cells.get d (Cells.set d m i v) j = if j = i then v else Cells.get d m j := by
  simp only [Cells.set]
  by_cases h : v = d
  · simp only [h, if_true, Cells.get_erase]
  · simp only [h, if_false, Cells.get_insert, Cells.get_erase]
    by_cases h2 : j = i <;> simp only [h2, if_true, if_false]

@[simp] theorem Cells.get_set_self [DecidableEq α] (d : α) (m : Cells α) (i : Nat) (v : α) :
    Cells.get d (Cells.set d m i v) i = v := by rw [Cells.get_set, if_pos rfl]

theorem Cells.get_set_other [DecidableEq α] (d : α) (m : Cells α) {i j : Nat} (h : j ≠ i) (v : α) :
    Cells.get d (Cells.set d m i v) j = Cells.get d m j := by rw [Cells.get_set, if_neg h]

theorem Cells.get_update [DecidableEq α] (d : α) (m : Cells α) (i j : Nat) (f : α → α) :
    Cells.get d (Cells.update d m i f) j = if j = i then f (Cells.get d m i) else Cells.get d m j := Cells.get_set d m i j _

/-- What key `j` reads as after writes of several keys, the last of which counts. -/
theorem Cells.get_foldl_set [DecidableEq α] (d : α) (l : List β) (m : Cells α) (key : β → Nat) (val : β → α) (j : Nat)
    (h : ∀ e ∈ l, key e ≠ j) : Cells.get d (l.foldl (fun m e => Cells.set d m (key e) (val e)) m) j = Cells.get d m j := by
  induction l generalizing m with
  | nil => rfl
  | cons e l ih =>
    rw [List.foldl_cons, ih _ fun x hx => h x (List.mem_cons_of_mem _ hx),
      Cells.get_set_other d m (Ne.symm (h e (List.mem_cons_self ..)))]

/-! ### The canonical form -/

theorem Cells.wfFrom_mono [DecidableEq α] (d : α) {k k' : Nat} {m : Cells α} (h : k' ≤ k) (w : Cells.wfFrom d k m = true) :
    Cells.wfFrom d k' m = true := by
  cases m with
  | nil => rfl
  | cons e m =>
    simp only [Cells.wfFrom, Bool.and_eq_true, decide_eq_true_eq] at w ⊢
    exact ⟨⟨by omega, w.1.2⟩, w.2⟩

theorem Cells.get_below [DecidableEq α] (d : α) {k : Nat} {m : Cells α} (w : Cells.wfFrom d k m = true) {i : Nat} (h : i < k) :
    Cells.get d m i = d := by
  induction m generalizing k with
  | nil => rfl
  | cons e m ih =>
    simp only [Cells.wfFrom, Bool.and_eq_true, decide_eq_true_eq] at w
    simp only [Cells.get]
    rw [if_neg (by omega), ih w.2 (by omega)]

theorem Cells.wfFrom_filter [DecidableEq α] (d : α) (p : Nat × α → Bool) {k : Nat} {m : Cells α} (w : Cells.wfFrom d k m = true) :
    Cells.wfFrom d k (m.filter p) = true := by
  induction m generalizing k with
  | nil => rfl
  | cons e m ih =>
    simp only [Cells.wfFrom, Bool.and_eq_true, decide_eq_true_eq] at w
    simp only [List.filter]
    split
    · simp only [Cells.wfFrom, Bool.and_eq_true, decide_eq_true_eq]
      exact ⟨w.1, ih w.2⟩
    · exact Cells.wfFrom_mono d (by omega) (ih w.2)

theorem Cells.wfFrom_insert [DecidableEq α] (d : α) {k : Nat} {m : Cells α} (w : Cells.wfFrom d k m = true) {i : Nat} (hk : k ≤ i)
    {v : α} (hv : v ≠ d) (hi : ∀ e ∈ m, e.1 ≠ i) : Cells.wfFrom d k (Cells.insert m i v) = true := by
  induction m generalizing k with
  | nil => simp [Cells.insert, Cells.wfFrom, hk, hv]
  | cons e m ih =>
    obtain ⟨j, u⟩ := e
    have hj : j ≠ i := hi _ (List.mem_cons_self ..)
    simp only [Cells.wfFrom, Bool.and_eq_true, decide_eq_true_eq] at w
    simp only [Cells.insert]
    split
    · simp only [Cells.wfFrom, Bool.and_eq_true, decide_eq_true_eq]
      exact ⟨w.1, ih w.2 (by omega) fun x hx => hi x (List.mem_cons_of_mem _ hx)⟩
    · simp only [Cells.wfFrom, Bool.and_eq_true, decide_eq_true_eq]
      exact ⟨⟨hk, hv⟩, ⟨by omega, w.1.2⟩, w.2⟩

theorem Cells.wf_filter [DecidableEq α] (d : α) (p : Nat × α → Bool) {m : Cells α} (w : Cells.wf d m = true) :
    Cells.wf d (m.filter p) = true := Cells.wfFrom_filter d p w

theorem Cells.wf_erase [DecidableEq α] (d : α) {m : Cells α} (w : Cells.wf d m = true) (i : Nat) :
    Cells.wf d (Cells.erase m i) = true := Cells.wfFrom_filter d _ w

theorem Cells.wf_set [DecidableEq α] (d : α) {m : Cells α} (w : Cells.wf d m = true) (i : Nat) (v : α) :
    Cells.wf d (Cells.set d m i v) = true := by
  simp only [Cells.set]
  split
  · exact Cells.wf_erase d w i
  · exact Cells.wfFrom_insert d (Cells.wf_erase d w i) (Nat.zero_le i) ‹_› fun e he => by
      simp only [Cells.erase, List.mem_filter, bne_iff_ne] at he
      exact he.2

theorem Cells.wf_update [DecidableEq α] (d : α) {m : Cells α} (w : Cells.wf d m = true) (i : Nat) (f : α → α) :
    Cells.wf d (Cells.update d m i f) = true := Cells.wf_set d w i _

/-- A map that every one of several changes keeps in its form. -/
theorem foldl_keeps {P : α → Prop} (f : α → β → α) (l : List β) (h : ∀ a b, P a → P (f a b)) (a : α) (ha : P a) :
    P (l.foldl f a) := by
  induction l generalizing a with
  | nil => exact ha
  | cons b l ih => exact ih _ (h a b ha)

/-- A map reads its default at every key where nothing is listed, so the empty one does everywhere. -/
@[simp] theorem Cells.get_nil (d : α) (i : Nat) : Cells.get d ([] : Cells α) i = d := rfl

/-- Two maps in canonical form that read alike are equal. -/
theorem Cells.ext_of_wf [DecidableEq α] (d : α) {k : Nat} {m n : Cells α} (wm : Cells.wfFrom d k m = true)
    (wn : Cells.wfFrom d k n = true) (h : ∀ i, Cells.get d m i = Cells.get d n i) : m = n := by
  induction m generalizing k n with
  | nil =>
    cases n with
    | nil => rfl
    | cons e n =>
      simp only [Cells.wfFrom, Bool.and_eq_true, decide_eq_true_eq] at wn
      have := h e.1
      simp only [Cells.get, if_true] at this
      exact absurd this.symm wn.1.2
  | cons e m ih =>
    obtain ⟨j, v⟩ := e
    simp only [Cells.wfFrom, Bool.and_eq_true, decide_eq_true_eq] at wm
    cases n with
    | nil =>
      have := h j
      simp only [Cells.get, if_true] at this
      exact absurd this wm.1.2
    | cons f n =>
      obtain ⟨i, u⟩ := f
      simp only [Cells.wfFrom, Bool.and_eq_true, decide_eq_true_eq] at wn
      have hj := h j
      have hi := h i
      simp only [Cells.get, if_true] at hj hi
      have hij : j = i := by
        rcases Nat.lt_trichotomy j i with c | c | c
        · rw [if_neg (by omega), Cells.get_below d wn.2 (by omega)] at hj
          exact absurd hj wm.1.2
        · exact c
        · rw [if_neg (by omega), Cells.get_below d wm.2 (by omega)] at hi
          exact absurd hi.symm wn.1.2
      subst hij
      simp only [if_true] at hj
      subst hj
      congr 1
      refine ih wm.2 wn.2 fun x => ?_
      have hx := h x
      simp only [Cells.get] at hx
      by_cases c : j = x
      · subst c
        rw [Cells.get_below d wm.2 (by omega), Cells.get_below d wn.2 (by omega)]
      · simpa only [c, if_false] using hx

end Sys2Proof.Machine
end

