-- ==== Sys2Proof/Laws/State.lean ====
section
/-!
SUPPORT. Laws of the state: what the updates of the executing agent leave of each field, so that no proof unfolds a
record update.
-/

namespace Sys2Proof.Machine

/-! ### Items in lists -/

@[simp] theorem State.modCourse_cur (s : State) (c f) : (s.modCourse c f).cur = s.cur := rfl
@[simp] theorem State.modCourse_lanes (s : State) (c f) : (s.modCourse c f).lanes = s.lanes := rfl
@[simp] theorem State.modCourse_rest (s : State) (c f) : (s.modCourse c f).rest = s.rest := rfl
@[simp] theorem State.modCourse_lane (s : State) (c f q) : (s.modCourse c f).lane q = s.lane q := rfl
@[simp] theorem State.modCourse_readByte (s : State) (c f pol pa) : (s.modCourse c f).readByte pol pa = s.readByte pol pa := rfl
@[simp] theorem State.modLane_cur (s : State) (q f) : (s.modLane q f).cur = s.cur := rfl
@[simp] theorem State.modLane_courses (s : State) (q f) : (s.modLane q f).courses = s.courses := rfl
@[simp] theorem State.modLane_rest (s : State) (q f) : (s.modLane q f).rest = s.rest := rfl
@[simp] theorem State.modLane_course (s : State) (q f c) : (s.modLane q f).course c = s.course c := rfl
@[simp] theorem State.modLane_split (s : State) (q f c k) : (s.modLane q f).split c k = s.split c k := rfl
@[simp] theorem State.modLane_readByte (s : State) (q f pol pa) : (s.modLane q f).readByte pol pa = s.readByte pol pa := rfl

theorem getD_modify (l : List α) (i j : Nat) (f : α → α) (d : α) (h : j = i → i < l.length) :
    (l.modify i f).getD j d = if j = i then f (l.getD i d) else l.getD j d := by
  simp only [List.getD_eq_getElem?_getD, List.getElem?_modify]
  by_cases e : j = i
  · subst e
    simp [h rfl]
  · simp [e, Ne.symm e]

/-- A change of an item that is not there changes nothing. -/
theorem modify_absent (l : List α) (i : Nat) (f : α → α) (h : l.length ≤ i) : l.modify i f = l := by
  apply List.ext_getElem?
  intro j
  simp only [List.getElem?_modify]
  by_cases e : i = j
  · subst e
    simp [List.getElem?_eq_none h]
  · simp [e]

theorem State.modCourse_absent (s : State) {c : Nat} (f : Course → Course) (h : ¬c < s.courses.length) : s.modCourse c f = s := by
  simp only [State.modCourse, modify_absent _ _ _ (Nat.le_of_not_lt h)]

theorem State.modLane_absent (s : State) {q : Nat} (f : Lane → Lane) (h : ¬q < s.lanes.length) : s.modLane q f = s := by
  simp only [State.modLane, modify_absent _ _ _ (Nat.le_of_not_lt h)]

theorem State.modCourse_course (s : State) (c d : Nat) (f : Course → Course) (h : c < s.courses.length) :
    (s.modCourse c f).course d = if d = c then f (s.course c) else s.course d :=
  getD_modify s.courses c d f default fun _ => h

theorem State.modCourse_other (s : State) {c d : Nat} (f : Course → Course) (h : d ≠ c) :
    (s.modCourse c f).course d = s.course d := by
  simp [State.course, State.modCourse, Ne.symm h]

theorem State.modLane_lane (s : State) (q r : Nat) (f : Lane → Lane) (h : q < s.lanes.length) :
    (s.modLane q f).lane r = if r = q then f (s.lane q) else s.lane r :=
  getD_modify s.lanes q r f default fun _ => h

theorem State.modCourse_hasAgent (s : State) (c : Nat) (f : Course → Course)
    (h : (f (s.course c)).splits.length = (s.course c).splits.length) : (s.modCourse c f).hasAgent = s.hasAgent := by
  by_cases hl : c < s.courses.length
  · have e : (s.modCourse c f).courses.length = s.courses.length := by simp [State.modCourse]
    cases hc : s.cur with
    | none => simp [State.hasAgent, hc]
    | course d k =>
      simp only [State.hasAgent, State.modCourse_cur, hc, e, State.modCourse_course _ _ _ _ hl]
      split
      · rename_i hd
        rw [h, hd]
      · rfl
    | lane q =>
      have hc' : (s.modCourse c f).cur = .lane q := hc
      unfold State.hasAgent
      rw [hc', hc]
      rfl
  · rw [State.modCourse_absent s f hl]

theorem State.modLane_hasAgent (s : State) (q : Nat) (f : Lane → Lane) : (s.modLane q f).hasAgent = s.hasAgent := by
  cases hc : s.cur <;> simp [State.hasAgent, hc, State.modLane, State.course]

@[simp] theorem State.modCourse_getElem? (s : State) (c : Nat) (f : Course → Course) (d : Nat) :
    (s.modCourse c f).courses[d]? = if c = d then (s.courses[d]?).map f else s.courses[d]? := by
  simp only [State.modCourse, List.getElem?_modify]
  by_cases e : c = d <;> simp [e]

@[simp] theorem State.modLane_getElem? (s : State) (q : Nat) (f : Lane → Lane) (r : Nat) :
    (s.modLane q f).lanes[r]? = if q = r then (s.lanes[r]?).map f else s.lanes[r]? := by
  simp only [State.modLane, List.getElem?_modify]
  by_cases e : q = r <;> simp [e]

end Sys2Proof.Machine
end

