-- ==== Sys2Proof/Laws/Frame.lean ====
section
/-!
SUPPORT. Laws of frames: what each operation on the executing agent may change, and that frames compose.
-/

namespace Sys2Proof.Machine

/-! ### Frames of a register file -/

/-- From `r` to `r'` nothing changed but the registers `w`; code words aside. -/
structure RegsFrame (w : Touch) (r r' : Regs) : Prop where
  v : ∀ n, n ∉ w.v → ∀ l, l < 96 → Cells.get 0 r'.v (96 * n + l) = Cells.get 0 r.v (96 * n + l)
  s : ∀ n, n ∉ w.s → Cells.get 0 r'.s n = Cells.get 0 r.s n
  p : ∀ n, n ∉ w.p → Cells.get 0 r'.p n = Cells.get 0 r.p n
  g : ∀ n, n ∉ w.g → Cells.get Group.empty r'.g n = Cells.get Group.empty r.g n
  flags : w.flags = false → r'.flags = r.flags
  latches : w.latches = false → r'.bl = r.bl
  special : r'.tscr0 = r.tscr0 ∧ r'.tscr1 = r.tscr1 ∧ r'.srseed = r.srseed

theorem RegsFrame.refl (w : Touch) (r : Regs) : RegsFrame w r r :=
  ⟨fun _ _ _ _ => rfl, fun _ _ => rfl, fun _ _ => rfl, fun _ _ => rfl, fun _ => rfl, fun _ => rfl, rfl, rfl, rfl⟩

/-! ### Frames of the state -/

theorem Frame.refl (w : Touch) (s : State) : Frame w s s where
  rest := rfl
  mem _ _ := rfl
  courses _ _ := rfl
  lanes _ _ := rfl
  course _ := rfl
  lane _ := rfl
  splits _ _ _ _ _ := rfl
  members _ _ := rfl
  active _ := rfl
  vregs _ _ _ _ := rfl
  sregs _ _ _ := rfl
  pregs _ _ := rfl
  gregs _ _ := rfl
  flags _ := rfl
  latches _ := rfl
  special := ⟨rfl, rfl, rfl⟩

theorem Frame.cur {w : Touch} {s t : State} (h : Frame w s t) : t.cur = s.cur := by
  show t.rest.cur = s.rest.cur
  rw [h.rest]

theorem Frame.isLane {w : Touch} {s t : State} (h : Frame w s t) : t.isLane = s.isLane := by simp only [State.isLane, h.cur]

theorem Frame.trans {a b : Touch} {s t u : State} (h : Frame a s t) (k : Frame b t u) : Frame (a.join b) s u where
  rest := k.rest.trans h.rest
  mem pol pa := (k.mem pol pa).trans (h.mem pol pa)
  courses c hc := (k.courses c fun j => h.cur ▸ hc j).trans (h.courses c hc)
  lanes q hq := (k.lanes q (h.cur ▸ hq)).trans (h.lanes q hq)
  course c := (k.course c).trans (h.course c)
  lane q := (k.lane q).trans (h.lane q)
  splits c j i e n := (k.splits c j i (h.cur.trans e) n).trans (h.splits c j i e n)
  members c j := (k.members c j).trans (h.members c j)
  active hn := (k.active fun n m => hn n (by simp [Touch.join, m])).trans (h.active fun n m => hn n (by simp [Touch.join, m]))
  vregs r hr l hl := by
    simp only [Touch.join, List.mem_append, not_or] at hr
    exact (k.vregs r hr.2 l hl).trans (h.vregs r hr.1 l hl)
  sregs n hn hk := by
    simp only [Touch.join, List.mem_append, not_or] at hn hk
    refine (k.sregs n hn.2 ?_).trans (h.sregs n hn.1 ?_)
    · rcases hk with hk | hk
      · exact .inl hk
      · exact .inr fun m hm => hk m (.inr hm)
    · rcases hk with hk | hk
      · exact .inl hk
      · exact .inr fun m hm => hk m (.inl hm)
  pregs n hn := by
    simp only [Touch.join, List.mem_append, not_or] at hn
    exact (k.pregs n hn.2).trans (h.pregs n hn.1)
  gregs n hn := by
    simp only [Touch.join, List.mem_append, not_or] at hn
    exact (k.gregs n hn.2).trans (h.gregs n hn.1)
  flags hf := by
    simp only [Touch.join, Bool.or_eq_false_iff] at hf
    exact (k.flags hf.2).trans (h.flags hf.1)
  latches hf := by
    simp only [Touch.join, Bool.or_eq_false_iff] at hf
    exact (k.latches hf.2).trans (h.latches hf.1)
  special := ⟨k.special.1.trans h.special.1, k.special.2.1.trans h.special.2.1, k.special.2.2.trans h.special.2.2⟩

/-- A frame that allows more. -/
theorem Frame.mono {a b : Touch} {s t : State} (h : Frame a s t) (v : ∀ x ∈ a.v, x ∈ b.v) (s' : ∀ x ∈ a.s, x ∈ b.s)
    (p : ∀ x ∈ a.p, x ∈ b.p) (g : ∀ x ∈ a.g, x ∈ b.g) (f : a.flags = true → b.flags = true)
    (l : a.latches = true → b.latches = true) : Frame b s t where
  rest := h.rest
  mem := h.mem
  courses := h.courses
  lanes := h.lanes
  course := h.course
  lane := h.lane
  splits := h.splits
  members := h.members
  active hn := h.active fun n m => hn n (s' n m)
  vregs r hr := h.vregs r fun x => hr (v r x)
  sregs n hn hk := h.sregs n (fun x => hn (s' n x)) (hk.imp id fun k m hm => k m (s' m hm))
  pregs n hn := h.pregs n fun x => hn (p n x)
  gregs n hn := h.gregs n fun x => hn (g n x)
  flags hf := h.flags (by cases e : a.flags <;> simp_all)
  latches hf := h.latches (by cases e : a.latches <;> simp_all)
  special := h.special

/-- A change of the executing split's course. -/
theorem Frame.of_modCourse {w : Touch} {s : State} {c k : Nat} (hc : s.cur = .course c k) (f : Course → Course)
    (rest : (f (s.course c)).rest = (s.course c).rest)
    (splits : ∀ j, j ≠ k → (f (s.course c)).splits.getD j default = (s.course c).splits.getD j default)
    (members : ((f (s.course c)).splits.getD k default).m = ((s.course c).splits.getD k default).m)
    (active : (∀ n ∈ w.s, n < 61) → ((f (s.course c)).splits.getD k default).a = ((s.course c).splits.getD k default).a)
    (regs : RegsFrame w (s.course c).regs (f (s.course c)).regs) : Frame w s (s.modCourse c f) := by
  by_cases hl : c < s.courses.length
  swap
  · have : s.modCourse c f = s := by simp only [State.modCourse, modify_absent _ _ _ (Nat.le_of_not_lt hl)]
    rw [this]
    exact Frame.refl w s
  have hx : ∀ d, (s.modCourse c f).course d = if d = c then f (s.course c) else s.course d := fun d =>
    State.modCourse_course s c d f hl
  have hr : (s.modCourse c f).regs = (f (s.course c)).regs := by simp [State.regs, hc, hx]
  have hr' : s.regs = (s.course c).regs := by simp [State.regs, hc]
  have ha : (∀ n ∈ w.s, n < 61) → (s.modCourse c f).active = s.active := fun hw => by
    simpa [State.active, State.split, hc, hx] using active hw
  exact
  { rest := rfl
    mem := fun _ _ => rfl
    courses := fun d hd => by
      have : c ≠ d := fun e => hd k (e ▸ hc)
      simp [this]
    lanes := fun _ _ => rfl
    course := fun d => by
      rw [hx]
      split
      · rename_i e; rw [rest, e]
      · rfl
    lane := fun _ => rfl
    splits := fun d i j e n => by
      rw [hc] at e
      cases e
      simpa [State.split, hx] using splits j n
    members := fun d j => by
      simp only [State.split, hx]
      split
      · rename_i e
        subst e
        by_cases hj : j = k
        · rw [hj]; exact members
        · rw [splits j hj]
      · rfl
    active := ha
    vregs := fun r hr1 l hl1 => by simpa [State.vreg, hr, hr'] using regs.v r hr1 l hl1
    sregs := fun n hn hk => by
      simp only [State.sreg, hr, hr']
      split
      · rfl
      · split
        · exact regs.s n hn
        · rw [ha (hk.resolve_left (by omega))]
    pregs := fun n hn => by
      simp only [State.preg, hr, hr']
      split
      · rfl
      · exact regs.p n hn
    gregs := fun n hn => by
      simp only [State.greg, hr, hr']
      split
      · rfl
      · exact regs.g n hn
    flags := fun hf => by rw [hr, hr']; exact regs.flags hf
    latches := fun hf => by rw [hr, hr']; exact regs.latches hf
    special := by rw [hr, hr']; exact regs.special }

/-- A change of the executing ejected lane. -/
theorem Frame.of_modLane {w : Touch} {s : State} {q : Nat} (hc : s.cur = .lane q) (f : Lane → Lane)
    (rest : (f (s.lane q)).rest = (s.lane q).rest)
    (regs : RegsFrame w (s.lane q).regs (f (s.lane q)).regs) : Frame w s (s.modLane q f) := by
  by_cases hl : q < s.lanes.length
  swap
  · have : s.modLane q f = s := by simp only [State.modLane, modify_absent _ _ _ (Nat.le_of_not_lt hl)]
    rw [this]
    exact Frame.refl w s
  have hx : ∀ d, (s.modLane q f).lane d = if d = q then f (s.lane q) else s.lane d := fun d =>
    State.modLane_lane s q d f hl
  have hr : (s.modLane q f).regs = (f (s.lane q)).regs := by simp [State.regs, hc, hx]
  have hr' : s.regs = (s.lane q).regs := by simp [State.regs, hc]
  have ha : (s.modLane q f).active = s.active := by
    have := congrArg Lane.lane rest
    simp only [Lane.rest] at this
    simp [State.active, hc, hx, this]
  exact
  { rest := rfl
    mem := fun _ _ => rfl
    courses := fun _ _ => rfl
    lanes := fun d hd => by
      have : q ≠ d := fun e => hd (e ▸ hc)
      simp [this]
    course := fun _ => rfl
    lane := fun d => by
      rw [hx]
      split
      · rename_i e; rw [rest, e]
      · rfl
    splits := fun _ _ _ _ _ => rfl
    members := fun _ _ => rfl
    active := fun _ => ha
    vregs := fun r hr1 l hl1 => by simpa [State.vreg, hr, hr'] using regs.v r hr1 l hl1
    sregs := fun n hn hk => by
      simp only [State.sreg, hr, hr', ha]
      split
      · rfl
      · split
        · exact regs.s n hn
        · rfl
    pregs := fun n hn => by
      simp only [State.preg, hr, hr']
      split
      · rfl
      · exact regs.p n hn
    gregs := fun n hn => by
      simp only [State.greg, hr, hr']
      split
      · rfl
      · exact regs.g n hn
    flags := fun hf => by rw [hr, hr']; exact regs.flags hf
    latches := fun hf => by rw [hr, hr']; exact regs.latches hf
    special := by rw [hr, hr']; exact regs.special }

end Sys2Proof.Machine
end

