-- ==== Sys2Proof/Laws/Agent.lean ====
section
/-!
SUPPORT. Laws of the operations on the executing agent: the frame of each, and what the register it writes holds.
-/

namespace Sys2Proof.Machine

/-! ### Frames -/

theorem State.modRegs_frame (s : State) {w : Touch} (f : Regs → Regs) (h : RegsFrame w s.regs (f s.regs)) :
    Frame w s (s.modRegs f) := by
  cases hc : s.cur with
  | none => simpa [State.modRegs, hc] using Frame.refl w s
  | course c k =>
    have e : s.regs = (s.course c).regs := by simp [State.regs, hc]
    rw [e] at h
    simp only [State.modRegs, hc]
    exact Frame.of_modCourse hc _ rfl (fun _ _ => rfl) rfl (fun _ => rfl) h
  | lane q =>
    have e : s.regs = (s.lane q).regs := by simp [State.regs, hc]
    rw [e] at h
    simp only [State.modRegs, hc]
    exact Frame.of_modLane hc _ rfl h

theorem modify_getD_other (l : List α) {i j : Nat} (f : α → α) (d : α) (h : j ≠ i) : (l.modify i f).getD j d = l.getD j d := by
  simp [List.getD_eq_getElem?_getD, Ne.symm h]

/-- What `f` does to item `i`, which need not be there when `f` leaves the default alone under `g`. -/
theorem modify_getD_map (l : List α) (i : Nat) (f : α → α) (d : α) (g : α → β) (h : ∀ x, g (f x) = g x) :
    g ((l.modify i f).getD i d) = g (l.getD i d) := by
  by_cases hi : i < l.length
  · simp [List.getD_eq_getElem?_getD, hi, h]
  · simp [List.getD_eq_getElem?_getD, List.getElem?_eq_none (Nat.le_of_not_lt hi)]

/-- A change of the executing split that keeps its members and its active set. -/
theorem State.modSplit_frame (s : State) (w : Touch) {c k : Nat} (hc : s.cur = .course c k) (f : Split → Split)
    (hm : ∀ x, (f x).m = x.m) (ha : ∀ x, (f x).a = x.a) : Frame w s (s.modSplit c k f) :=
  Frame.of_modCourse hc _ rfl (fun _ hj => modify_getD_other _ f _ hj) (modify_getD_map _ k f _ Split.m hm)
    (fun _ => modify_getD_map _ k f _ Split.a ha) (RegsFrame.refl _ _)

theorem State.setPc_frame (s : State) (w : Touch) (v : Word) : Frame w s (s.setPc v) := by
  cases hc : s.cur with
  | none => simpa [State.setPc, hc] using Frame.refl w s
  | course c k =>
    simp only [State.setPc, hc]
    exact s.modSplit_frame w hc _ (fun _ => rfl) fun _ => rfl
  | lane q =>
    simp only [State.setPc, hc]
    exact Frame.of_modLane hc _ rfl (RegsFrame.refl w _)

theorem State.clearWait_frame (s : State) (w : Touch) : Frame w s s.clearWait := by
  cases hc : s.cur with
  | none => simpa [State.clearWait, hc] using Frame.refl w s
  | course c k =>
    simp only [State.clearWait, hc]
    exact s.modSplit_frame w hc _ (fun _ => rfl) fun _ => rfl
  | lane q =>
    simp only [State.clearWait, hc]
    exact Frame.of_modLane hc _ rfl (RegsFrame.refl w _)

theorem State.closeWindow_frame (s : State) (w : Touch) (i : Instr) : Frame w s (s.closeWindow i) := by
  cases hc : s.cur with
  | none => simpa [State.closeWindow, hc] using Frame.refl w s
  | course c k =>
    simp only [State.closeWindow, hc]
    split
    · exact Frame.refl w s
    · exact Frame.of_modCourse hc _ rfl (fun _ _ => rfl) rfl (fun _ => rfl) (RegsFrame.refl w _)
  | lane q => simpa [State.closeWindow, hc] using Frame.refl w s

theorem State.windowStep_frame (s : State) (w : Touch) (pc reads wss) : Frame w s (s.windowStep pc reads wss) := by
  cases hc : s.cur with
  | none => simpa [State.windowStep, hc] using Frame.refl w s
  | course c k =>
    simp only [State.windowStep, hc]
    exact Frame.of_modCourse hc _ rfl (fun _ _ => rfl) rfl (fun _ => rfl) (RegsFrame.refl w _)
  | lane q => simpa [State.windowStep, hc] using Frame.refl w s

/-- Where the work of an instruction begins, every register, every byte of memory and every other agent is as before. -/
theorem State.entering_frame (s : State) (i : Instr) (w : Touch := {}) : Frame w s (s.entering i) := by
  have := (s.closeWindow_frame {} i).trans ((s.closeWindow i).clearWait_frame {})
  exact this.mono (by simp [Touch.join]) (by simp [Touch.join]) (by simp [Touch.join]) (by simp [Touch.join])
    (by simp [Touch.join]) (by simp [Touch.join])

theorem State.setS_frame (s : State) (n : Nat) (v : Word) : Frame { s := [n] } s (s.setS n v) := by
  simp only [State.setS]
  split
  · exact Frame.refl _ s
  · split
    · exact s.modRegs_frame _ ⟨fun _ _ _ _ => rfl, fun m hm => Cells.get_set_other 0 _ (by simpa using hm) v, fun _ _ => rfl,
        fun _ _ => rfl, fun _ => rfl, fun _ => rfl, rfl, rfl, rfl⟩
    · rename_i h0 h61
      split
      · rename_i c k hc
        refine Frame.of_modCourse hc _ rfl (fun _ hj => modify_getD_other _ _ _ hj)
          (modify_getD_map _ k _ _ Split.m fun _ => rfl) (fun hw => absurd (hw n (by simp)) h61) (RegsFrame.refl _ _)
      · exact Frame.refl _ s

theorem State.setP_frame (s : State) (n : Nat) (m v : Mask) : Frame { p := [n] } s (s.setP n m v) := by
  simp only [State.setP]
  split
  · exact Frame.refl _ s
  · exact s.modRegs_frame _ ⟨fun _ _ _ _ => rfl, fun _ _ => rfl, fun m hm => Cells.get_set_other 0 _ (by simpa using hm) _,
      fun _ _ => rfl, fun _ => rfl, fun _ => rfl, rfl, rfl, rfl⟩

theorem State.setG_frame (s : State) (n : Nat) (x : Group) : Frame { g := [n] } s (s.setG n x) :=
  s.modRegs_frame _ ⟨fun _ _ _ _ => rfl, fun _ _ => rfl, fun _ _ => rfl,
    fun m hm => Cells.get_set_other _ _ (by simpa using hm) _, fun _ => rfl, fun _ => rfl, rfl, rfl, rfl⟩

theorem State.orFlags_frame (s : State) (f : BitVec 6) : Frame { flags := true } s (s.orFlags f) :=
  s.modRegs_frame (w := { flags := true }) _ ⟨fun _ _ _ _ => rfl, fun _ _ => rfl, fun _ _ => rfl,
    fun _ _ => rfl, fun h => absurd h (by decide), fun _ => rfl, rfl, rfl, rfl⟩

theorem State.pushLatch_frame (s : State) (vals : List (Nat × Lane32)) : Frame { latches := true } s (s.pushLatch vals) := by
  unfold State.pushLatch
  exact s.modRegs_frame (w := { latches := true }) _ ⟨fun _ _ _ _ => rfl, fun _ _ => rfl, fun _ _ => rfl,
    fun _ _ => rfl, fun _ => rfl, fun h => absurd h (by decide), rfl, rfl, rfl⟩

theorem State.setV_frame (s : State) (r : Nat) (vals : List (Nat × Lane32)) (h : ∀ e ∈ vals, e.1 < 96) :
    Frame { v := [r] } s (s.setV r vals) := by
  have f (g : Cells WordSt) : RegsFrame { v := [r] } s.regs
      { s.regs with v := vals.foldl (fun c x => Cells.set 0 c (96 * r + x.1) x.2) s.regs.v, vst := g } :=
    ⟨fun n hn l hl => Cells.get_foldl_set 0 vals _ (fun x => 96 * r + x.1) (·.2) _ fun e he => by
        have := h e he
        simp only [List.mem_singleton] at hn
        show 96 * r + e.1 ≠ 96 * n + l
        omega,
      fun _ _ => rfl, fun _ _ => rfl, fun _ _ => rfl, fun _ => rfl, fun _ => rfl, rfl, rfl, rfl⟩
  cases hc : s.cur with
  | none =>
    simp only [State.setV, hc]
    exact s.modRegs_frame _ (f _)
  | lane q =>
    simp only [State.setV, hc]
    exact s.modRegs_frame _ (f _)
  | course c k =>
    simp only [State.setV, hc]
    split
    · exact s.modRegs_frame _ (f _)
    · have h1 := s.modRegs_frame (fun g => { g with v := vals.foldl (fun c x => Cells.set 0 c (96 * r + x.1) x.2) g.v, vst := writeWords s.isLane r (vals.foldl (fun m x => m ||| Mask.one x.1) 0) g.vst }) (f _)
      have h2 := Frame.of_modCourse (w := { v := [r] }) (h1.cur.trans hc)
        (fun x => { x with dirty := Cells.set false x.dirty r true }) rfl (fun _ _ => rfl) rfl (fun _ => rfl) (RegsFrame.refl _ _)
      exact (h1.trans h2).mono (by simp [Touch.join]) (by simp [Touch.join]) (by simp [Touch.join]) (by simp [Touch.join])
        (by simp [Touch.join]) (by simp [Touch.join])

theorem State.setV64_frame (s : State) (r : Nat) (vals : List (Nat × Word)) (h : ∀ e ∈ vals, e.1 < 96) :
    Frame { v := [r, r + 1] } s (s.setV64 r vals) := by
  have h' : ∀ g : Word → Lane32, ∀ e ∈ vals.map fun x => (x.1, g x.2), e.1 < 96 := fun g e he => by
    simp only [List.mem_map] at he
    obtain ⟨x, hx, rfl⟩ := he
    exact h x hx
  exact (s.setV_frame r _ (h' fun v => v.extractLsb' 0 32)).trans (State.setV_frame _ (r + 1) _ (h' fun v => v.extractLsb' 32 32))

/-! ### The registers after a write -/

/-- The agent's items stand in the lists of the state. -/
theorem State.hasAgent_course {s : State} {c k : Nat} (h : s.hasAgent = true) (hc : s.cur = .course c k) :
    c < s.courses.length ∧ k < (s.course c).splits.length := by
  simpa [State.hasAgent, hc] using h

theorem State.hasAgent_lane {s : State} {q : Nat} (h : s.hasAgent = true) (hc : s.cur = .lane q) : q < s.lanes.length := by
  simpa [State.hasAgent, hc] using h

theorem State.modRegs_regs {s : State} (h : s.hasAgent = true) (f : Regs → Regs) : (s.modRegs f).regs = f s.regs := by
  cases hc : s.cur with
  | none => simp [State.hasAgent, hc] at h
  | course c k => simp [State.modRegs, State.regs, hc, State.modCourse_course _ _ _ _ (State.hasAgent_course h hc).1]
  | lane q => simp [State.modRegs, State.regs, hc, State.modLane_lane _ _ _ _ (State.hasAgent_lane h hc)]

@[simp] theorem State.modRegs_hasAgent (s : State) (f : Regs → Regs) : (s.modRegs f).hasAgent = s.hasAgent := by
  simp only [State.modRegs]
  split
  · rfl
  · exact s.modCourse_hasAgent _ _ rfl
  · exact s.modLane_hasAgent _ _

@[simp] theorem State.modSplit_hasAgent (s : State) (c k f) : (s.modSplit c k f).hasAgent = s.hasAgent :=
  s.modCourse_hasAgent _ _ (by simp)

@[simp] theorem State.setPc_hasAgent (s : State) (v : Word) : (s.setPc v).hasAgent = s.hasAgent := by
  simp only [State.setPc]
  split
  · rfl
  · exact s.modSplit_hasAgent _ _ _
  · exact s.modLane_hasAgent _ _

@[simp] theorem State.entering_hasAgent (s : State) (i : Instr) : (s.entering i).hasAgent = s.hasAgent := by
  have h : ∀ t : State, t.clearWait.hasAgent = t.hasAgent := fun t => by
    simp only [State.clearWait]
    split
    · rfl
    · exact t.modSplit_hasAgent _ _ _
    · exact t.modLane_hasAgent _ _
  rw [State.entering, h, State.closeWindow]
  split
  · split
    · rfl
    · exact s.modCourse_hasAgent _ _ rfl
  · rfl

@[simp] theorem State.setS_hasAgent (s : State) (n v) : (s.setS n v).hasAgent = s.hasAgent := by
  simp only [State.setS]
  split
  · rfl
  · split
    · exact s.modRegs_hasAgent _
    · split
      · exact s.modSplit_hasAgent _ _ _
      · rfl

@[simp] theorem State.setP_hasAgent (s : State) (n m v) : (s.setP n m v).hasAgent = s.hasAgent := by
  simp only [State.setP]
  split
  · rfl
  · exact s.modRegs_hasAgent _

@[simp] theorem State.setG_hasAgent (s : State) (n x) : (s.setG n x).hasAgent = s.hasAgent := s.modRegs_hasAgent _
@[simp] theorem State.orFlags_hasAgent (s : State) (f) : (s.orFlags f).hasAgent = s.hasAgent := s.modRegs_hasAgent _
@[simp] theorem State.pushLatch_hasAgent (s : State) (l) : (s.pushLatch l).hasAgent = s.hasAgent := s.modRegs_hasAgent _

@[simp] theorem State.setV_hasAgent (s : State) (r l) : (s.setV r l).hasAgent = s.hasAgent := by
  simp only [State.setV]
  split
  · split
    · exact s.modRegs_hasAgent _
    · rw [State.modCourse_hasAgent _ _ _ (by rfl)]
      exact s.modRegs_hasAgent _
  · exact s.modRegs_hasAgent _

@[simp] theorem State.setV64_hasAgent (s : State) (r l) : (s.setV64 r l).hasAgent = s.hasAgent := by
  simp [State.setV64]

@[simp] theorem State.windowStep_hasAgent (s : State) (pc reads wss) : (s.windowStep pc reads wss).hasAgent = s.hasAgent := by
  simp only [State.windowStep]
  split
  · exact s.modCourse_hasAgent _ _ rfl
  · rfl

/-- A change of the executing split alone. -/
theorem State.modSplit_split {s : State} {c k : Nat} (h : s.hasAgent = true) (hc : s.cur = .course c k) (f : Split → Split) :
    (s.modSplit c k f).split c k = f (s.split c k) := by
  obtain ⟨h1, h2⟩ := State.hasAgent_course h hc
  simp [State.modSplit, State.split, State.modCourse_course _ _ _ _ h1, List.getD_eq_getElem?_getD, h2]

theorem State.setPc_pc {s : State} (h : s.hasAgent = true) (v : Word) : (s.setPc v).pc = v := by
  cases hc : s.cur with
  | none => simp [State.hasAgent, hc] at h
  | course c k =>
    have e : (s.setPc v).cur = .course c k := ((s.setPc_frame {} v).cur).trans hc
    simp only [State.pc, e]
    simp only [State.setPc, hc, State.modSplit_split h hc]
  | lane q => simp [State.setPc, State.pc, hc, State.modLane_lane _ _ _ _ (State.hasAgent_lane h hc)]

theorem State.setS_wrote {s : State} (h : s.hasAgent = true) (d : Nat) (v : Word) : WroteS s (s.setS d v) d v where
  zero _ := rfl
  plain h0 h61 := by
    have h0' : d ≠ 0 := by omega
    simp [State.setS, State.sreg, h0', h61, State.modRegs_regs h]
  split c k hc h61 := by
    have h0' : d ≠ 0 := by omega
    have e : (s.setS d v).cur = .course c k := ((s.setS_frame d v).cur).trans hc
    simp only [State.active, e]
    simp only [State.setS, h0', if_false, if_neg (Nat.not_lt.mpr h61), hc, State.modSplit_split h hc]
  ejected q hc h61 := by
    have h0' : d ≠ 0 := by omega
    simp [State.setS, h0', Nat.not_lt.mpr h61, hc]

theorem State.setP_wrote {s : State} (h : s.hasAgent = true) (n : Nat) (m v : Mask) : WroteP s (s.setP n m v) n m v := by
  by_cases hn : n = 0
  · simp [WroteP, State.preg, hn]
  · simp [WroteP, State.setP, State.preg, hn, State.modRegs_regs h, Cells.update]

theorem State.setG_greg {s : State} (h : s.hasAgent = true) {n : Nat} (hn : n ≠ 0) (x : Group) : (s.setG n x).greg n = x := by
  simp [State.setG, State.greg, hn, State.modRegs_regs h]

/-! ### What the agent waits for -/

theorem State.modCourse_wait (s : State) (c : Nat) (f : Course → Course) (h : ∀ x, (f x).splits = x.splits) :
    (s.modCourse c f).wait = s.wait := by
  by_cases hl : c < s.courses.length
  · have hx : ∀ d k, (s.modCourse c f).split d k = s.split d k := fun d k => by
      simp only [State.split, State.modCourse_course s c d f hl]
      split
      · rename_i e; rw [h, e]
      · rfl
    simp only [State.wait, hx, State.modCourse_cur, State.modCourse_lane]
  · rw [State.modCourse_absent s f hl]

theorem State.modLane_wait (s : State) (q : Nat) (f : Lane → Lane) (h : ∀ x, (f x).wait = x.wait) :
    (s.modLane q f).wait = s.wait := by
  by_cases hl : q < s.lanes.length
  · have hx : ∀ r, ((s.modLane q f).lane r).wait = (s.lane r).wait := fun r => by
      rw [State.modLane_lane s q r f hl]
      split
      · rename_i e; rw [h, e]
      · rfl
    simp only [State.wait, hx, State.modLane_cur, State.modLane_split]
  · rw [State.modLane_absent s f hl]

theorem State.modSplit_wait (s : State) (c k : Nat) (f : Split → Split) (h : ∀ x, (f x).wait = x.wait) :
    (s.modSplit c k f).wait = s.wait := by
  have hx : ∀ d j, ((s.modSplit c k f).split d j).wait = (s.split d j).wait := fun d j => by
    by_cases hl : c < s.courses.length
    · simp only [State.split, State.modSplit, State.modCourse_course s c d _ hl]
      split
      · rename_i e
        subst e
        by_cases hj : j = k
        · subst hj
          exact modify_getD_map _ j f _ Split.wait h
        · rw [modify_getD_other _ _ _ hj]
      · rfl
    · rw [State.modSplit, State.modCourse_absent s _ hl]
  have hc : (s.modSplit c k f).cur = s.cur := rfl
  have hq : ∀ q, (s.modSplit c k f).lane q = s.lane q := fun _ => rfl
  simp only [State.wait, hx, hc, hq]

@[simp] theorem State.modRegs_wait (s : State) (f : Regs → Regs) : (s.modRegs f).wait = s.wait := by
  simp only [State.modRegs]
  split
  · rfl
  · exact s.modCourse_wait _ _ fun _ => rfl
  · exact s.modLane_wait _ _ fun _ => rfl

@[simp] theorem State.setPc_wait (s : State) (v : Word) : (s.setPc v).wait = s.wait := by
  simp only [State.setPc]
  split
  · rfl
  · exact s.modSplit_wait _ _ _ fun _ => rfl
  · exact s.modLane_wait _ _ fun _ => rfl

@[simp] theorem State.setS_wait (s : State) (n v) : (s.setS n v).wait = s.wait := by
  simp only [State.setS]
  split
  · rfl
  · split
    · exact s.modRegs_wait _
    · split
      · exact s.modSplit_wait _ _ _ fun _ => rfl
      · rfl

@[simp] theorem State.setP_wait (s : State) (n m v) : (s.setP n m v).wait = s.wait := by
  simp only [State.setP]
  split
  · rfl
  · exact s.modRegs_wait _

@[simp] theorem State.setG_wait (s : State) (n x) : (s.setG n x).wait = s.wait := s.modRegs_wait _
@[simp] theorem State.orFlags_wait (s : State) (f) : (s.orFlags f).wait = s.wait := s.modRegs_wait _
@[simp] theorem State.pushLatch_wait (s : State) (l) : (s.pushLatch l).wait = s.wait := s.modRegs_wait _

@[simp] theorem State.setV_wait (s : State) (r l) : (s.setV r l).wait = s.wait := by
  simp only [State.setV]
  split
  · split
    · exact s.modRegs_wait _
    · refine (State.modCourse_wait _ _ _ ?_).trans (s.modRegs_wait _)
      exact fun _ => rfl
  · exact s.modRegs_wait _

@[simp] theorem State.setV64_wait (s : State) (r l) : (s.setV64 r l).wait = s.wait := by simp [State.setV64]

@[simp] theorem State.windowStep_wait (s : State) (pc reads wss) : (s.windowStep pc reads wss).wait = s.wait := by
  simp only [State.windowStep]
  split
  · exact s.modCourse_wait _ _ fun _ => rfl
  · rfl

/-- An agent that begins an instruction waits for nothing. -/
theorem State.entering_wait {s : State} (h : s.hasAgent = true) (i : Instr) : (s.entering i).wait = .ready := by
  have hw : ∀ t : State, t.hasAgent = true → t.clearWait.wait = .ready := fun t ht => by
    cases hc : t.cur with
    | none => simp [State.hasAgent, hc] at ht
    | course c k =>
      have e : t.clearWait.cur = .course c k := ((t.clearWait_frame {}).cur).trans hc
      simp only [State.wait, e]
      simp only [State.clearWait, hc, State.modSplit_split ht hc]
    | lane q => simp [State.clearWait, State.wait, hc, State.modLane_lane _ _ _ _ (State.hasAgent_lane ht hc)]
  refine hw _ ?_
  rw [State.closeWindow]
  split
  · split
    · exact h
    · rw [s.modCourse_hasAgent _ _ (by rfl)]
      exact h
  · exact h

/-! ### Where an instruction begins -/

/-- What neither closing a latch window nor ending a wait changes. -/
theorem State.entering_same (s : State) (i : Instr) :
    (s.entering i).regs = s.regs ∧ (s.entering i).curCourse = s.curCourse
      ∧ ∀ c, ((s.entering i).course c).allot = (s.course c).allot := by
  have h := s.entering_frame i
  have hc : (s.entering i).curCourse = s.curCourse := by
    simp only [State.curCourse, h.cur]
    split
    · rfl
    · rfl
    · exact congrArg (fun x => x.course) (h.lane _)
  refine ⟨?_, hc, fun c => congrArg (fun x => x.allot) (h.course c)⟩
  have cw : ∀ t : State, t.clearWait.regs = t.regs := fun t => by
    cases hc : t.cur with
    | none => simp [State.clearWait, hc]
    | course c k =>
      by_cases hl : c < t.courses.length
      · simp [State.clearWait, State.regs, hc, State.modSplit, State.modCourse_course _ _ _ _ hl]
      · simp only [State.clearWait, hc, State.modSplit, State.modCourse_absent t _ hl]
    | lane q =>
      by_cases hl : q < t.lanes.length
      · simp [State.clearWait, State.regs, hc, State.modLane_lane _ _ _ _ hl]
      · simp only [State.clearWait, hc, State.modLane_absent t _ hl]
  rw [State.entering, cw]
  cases hc : s.cur with
  | none => simp [State.closeWindow, hc]
  | course c k =>
    simp only [State.closeWindow, hc]
    split
    · rfl
    · by_cases hl : c < s.courses.length
      · simp [State.regs, hc, State.modCourse_course _ _ _ _ hl]
      · rw [State.modCourse_absent s _ hl]
  | lane q => simp [State.closeWindow, hc]

theorem State.entering_rest (s : State) (i : Instr) : (s.entering i).rest = s.rest := (s.entering_frame i).rest
theorem State.entering_cur (s : State) (i : Instr) : (s.entering i).cur = s.cur := (s.entering_frame i).cur
theorem State.entering_active (s : State) (i : Instr) : (s.entering i).active = s.active :=
  (s.entering_frame i).active (by simp)
theorem State.entering_sreg (s : State) (i : Instr) (n : Nat) : (s.entering i).sreg n = s.sreg n :=
  (s.entering_frame i).sregs n (by simp) (.inr (by simp))
theorem State.entering_preg (s : State) (i : Instr) (n : Nat) : (s.entering i).preg n = s.preg n :=
  (s.entering_frame i).pregs n (by simp)
theorem State.entering_greg (s : State) (i : Instr) (n : Nat) : (s.entering i).greg n = s.greg n :=
  (s.entering_frame i).gregs n (by simp)
theorem State.entering_vreg (s : State) (i : Instr) (r l : Nat) : (s.entering i).vreg r l = s.vreg r l := by
  simp only [State.vreg, (s.entering_same i).1]
theorem State.entering_acted (s : State) (i : Instr) (g : Guard) : (s.entering i).acted g = s.acted g := by
  simp only [State.acted, s.entering_active, s.entering_preg]

/-- An instruction that is ready passes every check that its operand fields decide (R72, R90, R138, R266, R386, R391). -/
theorem Ready.prologue {i : Instr} {s : State} (h : Ready i s) : (s.entering i).prologue i = .ok () := by
  obtain ⟨e1, e2, e3⟩ := s.entering_same i
  have er := s.entering_rest i
  have ec : (s.entering i).clock = s.clock := by have := congrArg State.clock er; exact this
  have eo : (s.entering i).ops = s.ops := by have := congrArg State.ops er; exact this
  have el : (s.entering i).isLane = s.isLane := (s.entering_frame i).isLane
  have ea := s.entering_active i
  have eh : (s.entering i).rowsHeld i (usesOf i) = s.rowsHeld i (usesOf i) := by
    have er : (s.entering i).rowBusy s.curCourse = s.rowBusy s.curCourse := by funext r; simp only [State.rowBusy, eo]
    simp only [State.rowsHeld, el, er, e2]
  have em : ∀ u, (s.entering i).usesMask u = s.usesMask u := fun u => by
    simp only [State.usesMask, s.entering_acted, ea]
  have ed : ∀ u m, (s.entering i).damaged u m = s.damaged u m := fun u m => by simp only [State.damaged, e1, ec, ea]
  have hb : ((usesOf i).vr ++ (usesOf i).vw).any (fun r => decide (((s.entering i).course (s.entering i).curCourse).allot ≤ r))
      = false := by
    rw [List.any_eq_false]
    intro r hr
    have := h.bounds r hr
    rw [e3, e2]
    simpa using this
  have hs : (usesParts i).findSome? (fun w =>
      (s.entering i).damaged (if Instr.isEngine i then { w with vr := [] } else w) ((s.entering i).usesMask w)) = none := by
    rw [List.findSome?_eq_none_iff]
    intro w hw
    rw [em, ed]
    exact h.sound w hw
  have hj : (s.isLane && ejectIllegal i) = false := by
    cases hx : s.isLane
    · rfl
    · simp [h.ejectable hx]
  simp only [State.prologue, hb, el, hj, eh, h.free, hs, Bool.false_eq_true, if_false]

/-- An instruction that is ready and whose work is done answers the state that its work leaves. -/
theorem instr_next {i : Instr} {s u : State} {body : State → Except Exn State} (h : Ready i s)
    (hb : body (s.entering i) = .ok u) : instr i body s = .next u := by
  have hp := h.prologue
  simp only [State.entering] at hp hb
  simp only [instr, h.agent, Bool.not_true, Bool.false_eq_true, if_false, hp]
  simp only [Except.bind, hb]

/-- The same of an instruction after which the next one in sequence follows. -/
theorem seqInstr_next {i : Instr} {s u : State} {body : State → Except Exn State} (h : Ready i s)
    (hb : body (s.entering i) = .ok u) : seqInstr i body s = .next (u.setPc (s.nextPc i)) :=
  instr_next h (by rw [hb]; rfl)

/-- Work that changes the registers `w` alone, and a move of the PC. -/
theorem goes_of_work {i : Instr} {s u : State} {w : Touch} (h : s.hasAgent = true) (hf : Frame w (s.entering i) u)
    (ha : u.hasAgent = (s.entering i).hasAgent) (hw : u.wait = (s.entering i).wait) (pc : Word) : Goes pc w s (u.setPc pc) := by
  have hu : u.hasAgent = true := by rw [ha, s.entering_hasAgent, h]
  refine ⟨State.setPc_pc hu _, ?_, ?_⟩
  · rw [State.setPc_wait, hw, State.entering_wait h]
  · have f := ((s.entering_frame i).trans hf).trans (u.setPc_frame {} pc)
    exact f.mono (by simp [Touch.join]) (by simp [Touch.join]) (by simp [Touch.join]) (by simp [Touch.join])
      (by simp [Touch.join]) (by simp [Touch.join])

/-- An instruction that is ready, whose work changes the registers `w` alone, is done. -/
theorem seqInstr_done {i : Instr} {s u : State} {w : Touch} {body : State → Except Exn State} (h : Ready i s)
    (hb : body (s.entering i) = .ok u) (hf : Frame w (s.entering i) u) (ha : u.hasAgent = (s.entering i).hasAgent)
    (hw : u.wait = (s.entering i).wait) :
    seqInstr i body s = .next (u.setPc (s.nextPc i)) ∧ Done i w s (u.setPc (s.nextPc i)) :=
  ⟨seqInstr_next h hb, goes_of_work h.agent hf ha hw _⟩

/-- What a write of a scalar leaves is seen from before the instruction and after its PC moved. -/
theorem WroteS.around {i : Instr} {s u : State} {d : Nat} {v : Word} (h : WroteS (s.entering i) u d v) (p : Word) :
    WroteS s (u.setPc p) d v := by
  have f := u.setPc_frame {} p
  have e := s.entering_frame i
  have hs : ∀ n, (u.setPc p).sreg n = u.sreg n := fun n => f.sregs n (by simp) (.inr (by simp))
  have ha : (u.setPc p).active = u.active := f.active (by simp)
  refine ⟨fun h0 => by rw [hs]; exact h.zero h0, fun h0 h1 => by rw [hs]; exact h.plain h0 h1, ?_, ?_⟩
  · intro c k hc h61
    rw [ha, h.split c k (by rw [s.entering_cur]; exact hc) h61, s.entering_active, e.members]
  · intro q hc h61
    rw [ha, h.ejected q (by rw [s.entering_cur]; exact hc) h61, s.entering_active]

/-- What a write of a predicate leaves, likewise. -/
theorem WroteP.around {i : Instr} {s u : State} {n : Nat} {m v : Mask} (h : WroteP (s.entering i) u n m v) (p : Word) :
    WroteP s (u.setPc p) n m v := by
  have hp : (u.setPc p).preg n = u.preg n := (u.setPc_frame {} p).pregs n (by simp)
  rw [WroteP, hp, h, s.entering_preg]

/-- An instruction whose work is one write of a scalar. -/
theorem seqInstr_setS {i : Instr} {s : State} {body : State → Except Exn State} {d : Nat} {v : Word} (h : Ready i s)
    (hb : body (s.entering i) = .ok ((s.entering i).setS d v)) :
    ∃ t, seqInstr i body s = .next t ∧ Done i { s := [d] } s t ∧ WroteS s t d v := by
  have hd := seqInstr_done h hb (State.setS_frame _ d v) (State.setS_hasAgent _ d v) (State.setS_wait _ d v)
  exact ⟨_, hd.1, hd.2, (State.setS_wrote (by rw [s.entering_hasAgent, h.agent]) d v).around _⟩

/-- An instruction whose work is one write of a predicate. -/
theorem seqInstr_setP {i : Instr} {s : State} {body : State → Except Exn State} {n : Nat} {m v : Mask} (h : Ready i s)
    (hb : body (s.entering i) = .ok ((s.entering i).setP n m v)) :
    ∃ t, seqInstr i body s = .next t ∧ Done i { p := [n] } s t ∧ WroteP s t n m v := by
  have hd := seqInstr_done h hb (State.setP_frame _ n m v) (State.setP_hasAgent _ n m v) (State.setP_wait _ n m v)
  exact ⟨_, hd.1, hd.2, (State.setP_wrote (by rw [s.entering_hasAgent, h.agent]) n m v).around _⟩

/-- An instruction whose work is one write of a group other than g0. -/
theorem seqInstr_setG {i : Instr} {s : State} {body : State → Except Exn State} {n : Nat} {x : Group} (h : Ready i s)
    (hb : body (s.entering i) = .ok ((s.entering i).setG n x)) (hn : n ≠ 0) :
    ∃ t, seqInstr i body s = .next t ∧ Done i { g := [n] } s t ∧ t.greg n = x := by
  have hd := seqInstr_done h hb (State.setG_frame _ n x) (State.setG_hasAgent _ n x) (State.setG_wait _ n x)
  refine ⟨_, hd.1, hd.2, ?_⟩
  rw [(State.setPc_frame _ {} _).gregs n (by simp), State.setG_greg (by rw [s.entering_hasAgent, h.agent]) hn]

/-- The sources of a scalar instruction, from before it. -/
theorem State.entering_ssrc (s : State) (i : Instr) (t : ElemTy) (b : SSrc) : (s.entering i).ssrc t b = s.ssrc t b := by
  cases b <;> simp only [State.ssrc, s.entering_sreg]

end Sys2Proof.Machine
end

