-- ==== Sys2Proof/Laws/Scalar.lean ====
section
/-!
SUPPORT. Laws of the scalar instructions: what each shared shape does, and that operations on numbers are operations on
words.
-/

namespace Sys2Proof.Machine

/-- A scalar arithmetic instruction writes one register. -/
theorem scalarOp_done {i : Instr} {s : State} {o : S3} (h : Ready i s) (f : Nat → Bool → Nat → Nat → Nat) :
    ∃ t, scalarOp i o f s = .next t ∧ Done i { s := [o.d.toNat] } s t
      ∧ WroteS s t o.d.toNat (widen o.ty (f (scalarWidth o.ty) (signedTy o.ty) (lowBitsOf o.ty (s.sreg o.a.toNat))
          (lowBitsOf o.ty (s.ssrc o.ty o.b)))) :=
  seqInstr_setS h (by simp only [s.entering_sreg, s.entering_ssrc])

/-- A scalar instruction on whole registers writes one register. -/
theorem scalarMove_done {i : Instr} {s : State} {o : S3} (h : Ready i s) (f : Word → Word → Word → Word) :
    ∃ t, scalarMove i o f s = .next t ∧ Done i { s := [o.d.toNat] } s t
      ∧ WroteS s t o.d.toNat (f (s.sreg o.a.toNat) (s.ssrc o.ty o.b) (s.sreg o.d.toNat)) :=
  seqInstr_setS h (by simp only [s.entering_sreg, s.entering_ssrc])

/-- The integer that the low bits of a word stand for. -/
theorem intOf_toNat_true {w : Nat} (hw : 0 < w) (x : BitVec w) : intOf true w x.toNat = x.toInt := by
  have h := x.isLt
  have hp : 2 ^ w = 2 * 2 ^ (w - 1) := by
    obtain ⟨k, rfl⟩ := Nat.exists_eq_add_of_lt hw
    simp only [Nat.zero_add, Nat.add_sub_cancel, Nat.pow_succ]
    omega
  have ht : x.toNat.testBit (w - 1) = decide (2 ^ (w - 1) ≤ x.toNat) := by
    rw [Nat.testBit_eq_decide_div_mod_eq]
    by_cases c : 2 ^ (w - 1) ≤ x.toNat
    · have : x.toNat / 2 ^ (w - 1) = 1 := by
        rw [Nat.div_eq_iff (Nat.two_pow_pos _)]
        omega
      simp [this, c]
    · rw [Nat.div_eq_of_lt (by omega)]
      simp [c]
  simp only [intOf, Bool.true_and, ht, decide_eq_true_eq, BitVec.toInt_eq_toNat_cond]
  by_cases c : 2 ^ (w - 1) ≤ x.toNat
  · rw [if_pos c, if_neg (by omega)]
  · rw [if_neg c, if_pos (by omega)]

theorem intOf_false (w v : Nat) : intOf false w v = v := by simp [intOf]

theorem wrapInt_eq (w : Nat) (x : Int) : wrapInt w x = (BitVec.ofInt w x).toNat := by
  simp [wrapInt, BitVec.toNat_ofInt]

/-- A scalar operation of a type is an operation on words of its width (R145). -/
theorem widen_eq_byWidth {t : ElemTy} (ht : ScalarTy t) {op : Nat → Bool → Nat → Nat → Nat} {f : BitVec 32 → BitVec 32 → BitVec 32}
    {g : Word → Word → Word} (h32 : ∀ x y : BitVec 32, BitVec.ofNat 32 (op 32 (signedTy t) x.toNat y.toNat) = f x y)
    (h64 : ∀ x y : Word, BitVec.ofNat 64 (op 64 (signedTy t) x.toNat y.toNat) = g x y) (a b : Word) :
    widen t (op (scalarWidth t) (signedTy t) (lowBitsOf t a) (lowBitsOf t b)) = byWidth t f g a b := by
  have e32 : ∀ x : Word, x.toNat % 2 ^ 32 = (x.truncate 32 : BitVec 32).toNat := fun x => by
    simp only [BitVec.truncate_eq_setWidth, BitVec.toNat_setWidth]
  have e64 : ∀ x : Word, x.toNat % 2 ^ 64 = x.toNat := fun x => Nat.mod_eq_of_lt x.isLt
  rcases ht with rfl | rfl | rfl | rfl
  · show (BitVec.ofNat 32 (op 32 _ (a.toNat % 2 ^ 32) (b.toNat % 2 ^ 32))).signExtend 64 = _
    rw [e32, e32, h32]
    rfl
  · show (BitVec.ofNat 32 (op 32 _ (a.toNat % 2 ^ 32) (b.toNat % 2 ^ 32))).zeroExtend 64 = _
    rw [e32, e32, h32]
    rfl
  · show BitVec.ofNat 64 (op 64 _ (a.toNat % 2 ^ 64) (b.toNat % 2 ^ 64)) = _
    rw [e64, e64, h64]
    rfl
  · show BitVec.ofNat 64 (op 64 _ (a.toNat % 2 ^ 64) (b.toNat % 2 ^ 64)) = _
    rw [e64, e64, h64]
    rfl

end Sys2Proof.Machine
end

