-- ==== Sys2Proof/Laws/Flow.lean ====
section
/-!
SUPPORT. Laws of branches: where an instruction that moves the PC itself goes.
-/

namespace Sys2Proof.Machine

/-- A branch that writes no register. -/
theorem branch_goes {i : Instr} {s : State} {f : State → Word → Except Exn (Word × State)} {pc : Word} (h : Ready i s)
    (hf : f (s.entering i) (s.nextPc i) = .ok (pc, s.entering i)) : ∃ t, branch i f s = .next t ∧ Goes pc {} s t := by
  refine ⟨_, instr_next h (u := (s.entering i).setPc pc) ?_, goes_of_work h.agent (Frame.refl {} _) rfl rfl pc⟩
  show (f (s.entering i) (s.nextPc i)).map _ = _
  rw [hf]
  rfl

/-- A branch that writes one scalar. -/
theorem branch_writes {i : Instr} {s : State} {f : State → Word → Except Exn (Word × State)} {pc v : Word} {d : Nat}
    (h : Ready i s) (hf : f (s.entering i) (s.nextPc i) = .ok (pc, (s.entering i).setS d v)) :
    ∃ t, branch i f s = .next t ∧ Goes pc { s := [d] } s t ∧ WroteS s t d v := by
  refine ⟨_, instr_next h (u := ((s.entering i).setS d v).setPc pc) ?_,
    goes_of_work h.agent (State.setS_frame _ d v) (State.setS_hasAgent _ d v) (State.setS_wait _ d v) pc,
    (State.setS_wrote (by rw [s.entering_hasAgent, h.agent]) d v).around _⟩
  show (f (s.entering i) (s.nextPc i)).map _ = _
  rw [hf]
  rfl

/-- A branch target is four times OFF from the branch (R151). -/
theorem brTarget_eq (o : Br) (pc : Word) : brTarget o pc = pc + o.off.signExtend 64 * 4 := by
  have : ∀ x : Word, x <<< 2 = x * 4 := fun x => by
    apply BitVec.eq_of_toNat_eq
    simp [BitVec.toNat_shiftLeft, BitVec.toNat_mul, Nat.shiftLeft_eq]
  rw [brTarget, this]

/-- A register target whose bits 1:0 are zero (R152). -/
theorem regTarget_ok {v : Word} (h : v.extractLsb' 0 2 = 0) : regTarget v = .ok v := by
  have h4 : v.toNat % 4 = 0 := by
    have := congrArg BitVec.toNat h
    simpa [BitVec.extractLsb'_toNat] using this
  rw [regTarget, if_pos h4]

end Sys2Proof.Machine
end

