-- ==== Sys2Proof/Laws/Memory.lean ====
section
/-!
SUPPORT. Laws of memory: every operation keeps its canonical form, and what a byte reads as after a store.
-/

namespace Sys2Proof.Machine

/-! ### The canonical form -/

/-- The form part by part. -/
structure Bytes (s : State) : Prop where
  mem : Cells.wf Config.memFill s.mem = true
  wb : Cells.wf [] s.wb = true
  lines : ∀ e ∈ s.wb, e.2.length = 128
  held : ∀ e ∈ s.held, e.bytes.length = 128
  stream : ∀ x ∈ s.stream, x.bytes.length = 128

theorem memoryWf_iff (s : State) : s.memoryWf = true ↔ Bytes s := by
  simp only [State.memoryWf, Bool.and_eq_true, List.all_eq_true, beq_iff_eq]
  exact ⟨fun h => ⟨h.1.1.1.1, h.1.1.1.2, h.1.1.2, h.1.2, h.2⟩, fun h => ⟨⟨⟨⟨h.mem, h.wb⟩, h.lines⟩, h.held⟩, h.stream⟩⟩

theorem reset_memoryWf : State.reset.memoryWf = true := rfl
theorem reset_padsWf : State.reset.padsWf = true := rfl

/-- Memory depends on four fields of the state; of the copies, fewer keep the form too. -/
theorem Bytes.of_sub {s t : State} (h : Bytes s) (hm : t.mem = s.mem) (hw : t.wb = s.wb) (hh : ∀ e ∈ t.held, e ∈ s.held)
    (hs : ∀ x ∈ t.stream, ∃ y ∈ s.stream, x.bytes = y.bytes) : Bytes t :=
  ⟨hm ▸ h.mem, hw ▸ h.wb, hw ▸ h.lines, fun e he => h.held e (hh e he), fun x hx => by
    obtain ⟨y, hy, e⟩ := hs x hx
    exact e ▸ h.stream y hy⟩

theorem Bytes.of_eq {s t : State} (h : Bytes s) (hm : t.mem = s.mem) (hw : t.wb = s.wb) (hh : t.held = s.held)
    (hs : t.stream = s.stream) : Bytes t := h.of_sub hm hw (hh ▸ fun _ he => he) (hs ▸ fun x hx => ⟨x, hx, rfl⟩)

theorem mem_insert {m : Cells α} {k : Nat} {v : α} {e : Nat × α} (h : e ∈ Cells.insert m k v) : e = (k, v) ∨ e ∈ m := by
  induction m with
  | nil => simpa [Cells.insert] using h
  | cons a m ih =>
    obtain ⟨j, u⟩ := a
    simp only [Cells.insert] at h
    split at h
    · rcases List.mem_cons.mp h with h | h
      · exact .inr (h ▸ List.mem_cons_self ..)
      · exact (ih h).imp id (List.mem_cons_of_mem _)
    · exact List.mem_cons.mp h

theorem mem_set [DecidableEq α] {d : α} {m : Cells α} {k : Nat} {v : α} {e : Nat × α} (h : e ∈ Cells.set d m k v) :
    e = (k, v) ∨ e ∈ m := by
  simp only [Cells.set] at h
  split at h
  · exact .inr (List.mem_of_mem_filter h)
  · exact (mem_insert h).imp id List.mem_of_mem_filter

theorem get_mem {d : α} {m : Cells α} {k : Nat} {v : α} (h : Cells.get d m k = v) (hv : v ≠ d) : (k, v) ∈ m := by
  induction m with
  | nil => exact absurd h.symm hv
  | cons a m ih =>
    obtain ⟨j, u⟩ := a
    simp only [Cells.get] at h
    split at h
    · subst h
      rename_i hj
      exact hj ▸ List.mem_cons_self ..
    · exact List.mem_cons_of_mem _ (ih h)

theorem Bytes.setMemByte {s : State} (h : Bytes s) (pa : Nat) (b : Byte) : Bytes (s.setMemByte pa b) :=
  ⟨Cells.wf_set _ h.mem _ _, h.wb, h.lines, h.held, h.stream⟩

/-- A line of L2 has 128 bytes or is not there. -/
theorem Bytes.line {s : State} (h : Bytes s) (ln : Nat) : Cells.get [] s.wb ln = [] ∨ (Cells.get [] s.wb ln).length = 128 := by
  by_cases e : Cells.get [] s.wb ln = []
  · exact .inl e
  · exact .inr (h.lines _ (get_mem rfl e))

@[simp] theorem Bytes.length_lineBytes {s : State} (h : Bytes s) (ln : Nat) : (s.lineBytes ln).length = 128 := by
  unfold State.lineBytes
  split
  · simp
  · exact (h.line ln).resolve_left ‹_›

/-- A line of 128 bytes comes into L2 or takes the place of the one there. -/
theorem Bytes.setLine {s t : State} (h : Bytes s) (ln : Nat) {l : List Byte} (hl : l.length = 128) (hm : t.mem = s.mem)
    (hw : t.wb = Cells.set [] s.wb ln l) (hh : t.held = s.held) (hs : t.stream = s.stream) : Bytes t := by
  refine ⟨hm ▸ h.mem, hw ▸ Cells.wf_set _ h.wb _ _, fun e he => ?_, hh ▸ h.held, hs ▸ h.stream⟩
  rcases mem_set (hw ▸ he) with rfl | he
  · exact hl
  · exact h.lines e he

theorem Bytes.setWbByte {s : State} (h : Bytes s) (pa : Nat) (b : Byte) : Bytes (s.setWbByte pa b) :=
  h.setLine (pa / 128) (by rw [List.length_set, h.length_lineBytes]) rfl rfl rfl rfl

theorem Bytes.storeByte {s : State} (h : Bytes s) (pol pa : Nat) (b : Byte) : Bytes (s.storeByte pol pa b) := by
  simp only [State.storeByte]
  split
  · exact h.setMemByte pa b
  · exact h.setWbByte pa b

theorem Bytes.storeBytes {s : State} (h : Bytes s) (pol pa : Nat) (bs : List Byte) : Bytes (s.storeBytes pol pa bs) := by
  induction bs generalizing s pa with
  | nil => exact h
  | cons b bs ih => exact ih (h.storeByte pol pa b) (pa + 1)

theorem Bytes.write64 {s : State} (h : Bytes s) (pa : Nat) (v : Word) : Bytes (s.write64 pa v) := h.storeBytes 0 pa _

theorem Bytes.coverPoison {s : State} (h : Bytes s) (pol pa n : Nat) : Bytes (s.coverPoison pol pa n) := h.of_eq rfl rfl rfl rfl
theorem Bytes.poisonDown {s : State} (h : Bytes s) (ln : Nat) : Bytes (s.poisonDown ln) := h.of_eq rfl rfl rfl rfl

theorem Bytes.cleanLine {s : State} (h : Bytes s) (ln : Nat) : Bytes (s.cleanLine ln) := by
  simp only [State.cleanLine]
  split
  · exact h
  · split
    · exact h
    · exact ((h.storeBytes 2 _ _).poisonDown ln).of_eq rfl rfl rfl rfl

theorem Bytes.foldl {s : State} (f : State → β → State) (hf : ∀ s b, Bytes s → Bytes (f s b)) (h : Bytes s) (l : List β) :
    Bytes (l.foldl f s) := foldl_keeps f l hf s h

theorem Bytes.cleanWhere {s : State} (h : Bytes s) (p : Nat → Bool) : Bytes (s.cleanWhere p) :=
  h.foldl _ (fun _ e hs => hs.cleanLine e.1) _

/-- Changes of the STREAM copies that keep their bytes. -/
theorem Bytes.mapStream {s : State} (h : Bytes s) (f : StreamLine → StreamLine) (hf : ∀ x, (f x).bytes = x.bytes) :
    Bytes { s with stream := s.stream.map f } :=
  h.of_sub rfl rfl (fun _ he => he) fun x hx => by
    obtain ⟨y, hy, rfl⟩ := List.mem_map.mp hx
    exact ⟨y, hy, hf y⟩

theorem Bytes.writeStream {s : State} (h : Bytes s) (x : StreamLine) : Bytes (s.writeStream x) := by
  have k := h.mapStream (fun y => if y == x then { y with changed := 0 } else y) fun y => by split <;> rfl
  simp only [State.writeStream]
  split
  · exact k
  · split
    · exact (k.foldl _ (fun _ _ hs => hs.setWbByte _ _) _).of_eq rfl rfl rfl rfl
    · refine Bytes.foldl _ (fun _ _ hs => hs.setMemByte _ _) ?_ _
      exact k.of_eq rfl rfl rfl rfl

theorem Bytes.flushStream {s : State} (h : Bytes s) (ln : Nat) : Bytes (s.flushStream ln) :=
  h.foldl _ (fun _ x hs => hs.writeStream x) _
theorem Bytes.writeBackLine {s : State} (h : Bytes s) (ln : Nat) : Bytes (s.writeBackLine ln) := (h.flushStream ln).cleanLine ln

theorem Bytes.forgetLine {s : State} (h : Bytes s) (ln : Nat) : Bytes (s.forgetLine ln) :=
  ⟨h.mem, Cells.wf_erase _ h.wb _, fun e he => h.lines e (List.mem_of_mem_filter he), fun e he => h.held e (List.mem_of_mem_filter he),
    fun x hx => h.stream x (List.mem_of_mem_filter hx)⟩
theorem Bytes.flushLine {s : State} (h : Bytes s) (ln : Nat) : Bytes (s.flushLine ln) := (h.writeBackLine ln).forgetLine ln
theorem Bytes.flushWhere {s : State} (h : Bytes s) (p : Nat → Bool) : Bytes (s.flushWhere p) :=
  h.foldl _ (fun _ e hs => hs.flushLine e.1) _

theorem Bytes.performAt {s : State} (h : Bytes s) (scope : Nat) : Bytes (s.performAt scope) := by
  simp only [State.performAt]
  split
  · exact h
  · exact h.cleanWhere _

/-! ### The copies that agents read -/

theorem Bytes.modSight {s : State} (h : Bytes s) (f : Sight → Sight) : Bytes (s.modSight f) := by
  unfold State.modSight
  split <;> exact h.of_eq rfl rfl rfl rfl

theorem Bytes.noteSeen {s : State} (h : Bytes s) (ln : Nat) : Bytes (s.noteSeen ln) := h.mapStream _ fun y => by split <;> rfl

theorem Bytes.fillAt {s : State} (h : Bytes s) (die hint ln due : Nat) : Bytes (s.fillAt die hint ln due) := by
  unfold State.fillAt
  split
  · exact h
  · exact h.setLine ln (h.length_lineBytes ln) rfl rfl rfl rfl
theorem Bytes.fillL2 {s : State} (h : Bytes s) (hint ln : Nat) : Bytes (s.fillL2 hint ln) := h.fillAt _ _ _ _

theorem Bytes.hold {s : State} (h : Bytes s) {e : Held} (he : e.bytes.length = 128) : Bytes (s.hold e) := by
  refine ⟨h.mem, h.wb, h.lines, fun x hx => ?_, h.stream⟩
  rcases List.mem_append.mp hx with hx | hx
  · exact h.held x (List.mem_of_mem_filter hx)
  · exact List.mem_singleton.mp hx ▸ he

theorem Bytes.fetchAnew {s : State} (h : Bytes s) (hint ln : Nat) : Bytes (s.fetchAnew hint ln) := by
  have k := h.fillL2 hint ln
  unfold State.fetchAnew
  refine Bytes.modSight ?_ _
  have k1 : ∀ g n, Bytes { s.fillL2 hint ln with stamps := g, fresh := n } := fun _ _ => k.of_eq rfl rfl rfl rfl
  have len := h.length_lineBytes ln
  dsimp only
  split
  · refine Bytes.hold ?_ len
    split
    · exact (k1 _ _).hold len
    · exact k1 _ _
  · split
    · exact (k1 _ _).hold len
    · exact k1 _ _

theorem copyFor_mem {s : State} {ln : Nat} {e : Held} (h : s.copyFor ln = some e) : e ∈ s.held := by
  unfold State.copyFor at h
  dsimp only at h
  split at h
  · rename_i he
    cases h
    exact List.mem_of_find?_eq_some he
  · split at h
    · exact List.mem_of_find?_eq_some h
    · cases h

theorem Bytes.loadWb {s : State} (h : Bytes s) (hint pa n : Nat) : Bytes (s.loadWb hint pa n).2 := by
  unfold State.loadWb
  dsimp only
  split
  · rename_i e he
    dsimp only
    refine Bytes.modSight (Bytes.noteSeen (h.hold ?_) _) _
    exact h.held e (copyFor_mem he)
  · exact Bytes.noteSeen (h.fetchAnew hint _) _

theorem Bytes.ownDrop {s : State} (h : Bytes s) (ln : Nat) : Bytes (s.ownDrop ln) :=
  h.of_sub rfl rfl (fun _ he => List.mem_of_mem_filter he) fun x hx => ⟨x, hx, rfl⟩

theorem Bytes.storeWb {s : State} (h : Bytes s) (hint pa : Nat) (bs : List Byte) : Bytes (s.storeWb hint pa bs) := by
  unfold State.storeWb
  refine ((Bytes.noteSeen ?_ _).modSight _)
  have k : ∀ g, Bytes { s.ownDrop (pa / 128) with stamps := g } := fun _ => (h.ownDrop _).of_eq rfl rfl rfl rfl
  dsimp only
  split
  · exact ((k _).storeBytes 2 pa bs).of_eq rfl rfl rfl rfl
  · exact ((k _).storeBytes 0 pa bs).of_eq rfl rfl rfl rfl

theorem Bytes.setStream {s : State} (h : Bytes s) {x : StreamLine} (hx : x.bytes.length = 128) : Bytes (s.setStream x) := by
  refine ⟨h.mem, h.wb, h.lines, h.held, fun y hy => ?_⟩
  rcases List.mem_append.mp hy with hy | hy
  · exact h.stream y (List.mem_of_mem_filter hy)
  · exact List.mem_singleton.mp hy ▸ hx

/-- A STREAM copy of the state has 128 bytes, and so has a new one. -/
theorem Bytes.streamCopy {s : State} (h : Bytes s) {ln : Nat} {x : StreamLine} (e : s.streamCopy ln = some x) : x.bytes.length = 128 :=
  h.stream x (List.mem_of_find?_eq_some e)
@[simp] theorem intoL1_bytes (x : StreamLine) (l1 : Bool) (hint : Nat) : (x.intoL1 l1 hint).bytes = x.bytes := by
  unfold StreamLine.intoL1
  split <;> rfl

theorem Bytes.loadStream {s : State} (h : Bytes s) (hint pa n : Nat) : Bytes (s.loadStream hint pa n).2 := by
  unfold State.loadStream
  dsimp only
  split
  · rename_i x e
    dsimp only
    split
    · exact h.setStream (by rw [intoL1_bytes]; exact h.streamCopy e)
    · exact h
  · dsimp only
    split
    · exact h
    · exact (h.fillL2 _ _).setStream (h.length_lineBytes _)

theorem Bytes.putStream {s : State} (h : Bytes s) (l1 : Bool) (hint pa : Nat) (bs : List Byte) : Bytes (s.putStream l1 hint pa bs) := by
  have old : ∀ y : StreamLine, (y = match s.streamCopy (pa / 128) with
      | some x => x.intoL1 l1 hint
      | none => s.newStream l1 hint (pa / 128)) → y.bytes.length = 128 := by
    rintro y rfl
    split
    · rename_i x e
      rw [intoL1_bytes]
      exact h.streamCopy e
    · exact h.length_lineBytes _
  have len := foldl_keeps (P := fun m : List Byte => m.length = 128) (fun m (e : Byte × Nat) => m.set e.2 e.1) (bs.zipIdx (pa % 128))
    (fun _ _ k => by rw [List.length_set, k]) _ (old _ rfl)
  unfold State.putStream
  dsimp only
  split
  · refine Bytes.mk ?_ ?_ ?_ ?_ h.stream
    · exact ((h.setStream len).writeStream _).mem
    · exact ((h.setStream len).writeStream _).wb
    · exact ((h.setStream len).writeStream _).lines
    · exact ((h.setStream len).writeStream _).held
  · exact (h.fillL2 _ _).setStream len
theorem Bytes.storeStream {s : State} (h : Bytes s) (hint pa : Nat) (bs : List Byte) : Bytes (s.storeStream hint pa bs) :=
  h.putStream _ _ _ _

/-- A change of one block that keeps the form of its scratchpad. -/
theorem padsWf_modBlock {s : State} (h : s.padsWf = true) (b : Nat) (f : Block → Block)
    (hf : ∀ x, Cells.wf 0 x.sp = true → Cells.wf 0 (f x).sp = true) : (s.modBlock b f).padsWf = true := by
  simp only [State.padsWf, List.all_eq_true] at h ⊢
  intro x hx
  obtain ⟨i, hi, rfl⟩ := List.getElem_of_mem hx
  simp only [State.modBlock, List.getElem_modify]
  have := h _ (List.getElem_mem (by simpa [State.modBlock] using hi : i < s.blocks.length))
  split
  · exact hf _ this
  · exact this

theorem padsWf_storePadAt {s : State} (h : s.padsWf = true) (b off : Nat) (bs : List Byte) (t : Nat) :
    (s.storePadAt b off bs t).padsWf = true :=
  padsWf_modBlock h b _ fun x hx => foldl_keeps (P := fun m => Cells.wf (0 : Byte) m = true) (fun m e => Cells.set 0 m e.2 e.1)
    (bs.zipIdx off) (fun _ e k => Cells.wf_set (0 : Byte) k e.2 e.1) x.sp hx

theorem padsWf_storePad {s : State} (h : s.padsWf = true) (b off : Nat) (bs : List Byte) : (s.storePad b off bs).padsWf = true :=
  padsWf_storePadAt h b off bs 0

/-! ### Reading after a store -/

@[simp] theorem memKey_setMemByte (s : State) (pa i : Nat) (b : Byte) : (s.setMemByte pa b).memKey i = s.memKey i := rfl
@[simp] theorem memKey_setWbByte (s : State) (pa i : Nat) (b : Byte) : (s.setWbByte pa b).memKey i = s.memKey i := rfl

/-- Every address that names the same byte of memory (R399) reads what was written. -/
@[simp] theorem memByte_setMemByte (s : State) (pa i : Nat) (b : Byte) :
    (s.setMemByte pa b).memByte i = if s.memKey i = s.memKey pa then b else s.memByte i := Cells.get_set ..

@[simp] theorem memByte_setWbByte (s : State) (pa i : Nat) (b : Byte) : (s.setWbByte pa b).memByte i = s.memByte i := rfl

theorem wbByte_line {s : State} {pa : Nat} (h : Cells.get [] s.wb (pa / 128) ≠ []) :
    s.wbByte pa = (Cells.get [] s.wb (pa / 128)).getD (pa % 128) 0 := by
  unfold State.wbByte
  split
  · exact absurd ‹_› h
  · rfl

theorem wbByte_none {s : State} {pa : Nat} (h : Cells.get [] s.wb (pa / 128) = []) : s.wbByte pa = s.memByte pa := by
  unfold State.wbByte
  rw [h]

/-- The bytes of a line are those that its addresses read as. -/
theorem lineBytes_getD (s : State) (pa : Nat) : (s.lineBytes (pa / 128)).getD (pa % 128) 0 = s.wbByte pa := by
  unfold State.lineBytes State.wbByte
  split
  · have hlt : pa % 128 < 128 := Nat.mod_lt _ (by decide)
    simp only [List.getD_eq_getElem?_getD, List.getElem?_map, List.getElem?_range hlt, Option.map_some, Option.getD_some]
    congr 1
    omega
  · rfl

/-- The line that a store under WB leaves. -/
theorem get_setWbByte (s : State) (pa ln : Nat) (b : Byte) :
    Cells.get [] (s.setWbByte pa b).wb ln
      = if ln = pa / 128 then (s.lineBytes (pa / 128)).set (pa % 128) b else Cells.get [] s.wb ln := Cells.get_set ..

/-- A store under WB replaces its byte, and every other byte reads as before. -/
theorem Bytes.wbByte_setWbByte {s : State} (h : Bytes s) (pa i : Nat) (b : Byte) :
    (s.setWbByte pa b).wbByte i = if i = pa then b else s.wbByte i := by
  have len := h.length_lineBytes (pa / 128)
  by_cases hl : i / 128 = pa / 128
  · have e : Cells.get [] (s.setWbByte pa b).wb (i / 128) = (s.lineBytes (pa / 128)).set (pa % 128) b := by rw [get_setWbByte, if_pos hl]
    have hne : Cells.get [] (s.setWbByte pa b).wb (i / 128) ≠ [] := fun h0 => by
      rw [e, List.set_eq_nil_iff] at h0
      rw [h0] at len
      cases len
    rw [wbByte_line hne, e, List.getD_eq_getElem?_getD, List.getElem?_set, len]
    by_cases hi : i = pa
    · subst hi
      simp [Nat.mod_lt]
    · rw [if_neg (by omega), if_neg hi, ← lineBytes_getD, hl, List.getD_eq_getElem?_getD]
  · have hi : i ≠ pa := fun e => hl (e ▸ rfl)
    have e : Cells.get [] (s.setWbByte pa b).wb (i / 128) = Cells.get [] s.wb (i / 128) := by rw [get_setWbByte, if_neg hl]
    simp only [State.wbByte, e, if_neg hi, memByte_setWbByte]

/-- After a store, its byte reads as stored under the same policy, and every other byte of that policy reads as before,
where no two addresses name one byte of memory. -/
theorem Bytes.readByte_storeByte {s : State} (h : Bytes s) {pol pa i : Nat} (b : Byte)
    (one : pol = 2 → s.memKey i = s.memKey pa → i = pa) :
    (s.storeByte pol pa b).readByte pol i = if i = pa then b else s.readByte pol i := by
  simp only [State.readByte, State.storeByte]
  by_cases h2 : pol = 2
  · subst h2
    simp only [if_true, memByte_setMemByte]
    by_cases hi : i = pa
    · simp [hi]
    · rw [if_neg fun k => hi (one rfl k), if_neg hi]
  · simp only [h2, if_false, h.wbByte_setWbByte]

@[simp] theorem memKey_storeByte (s : State) (pol pa i : Nat) (b : Byte) : (s.storeByte pol pa b).memKey i = s.memKey i := by
  unfold State.storeByte
  split <;> rfl

/-- The bytes of a store read back under its policy, and every other byte reads as before. -/
theorem Bytes.readByte_storeBytes {s : State} (h : Bytes s) (pol pa i : Nat) (bs : List Byte)
    (one : pol = 2 → ∀ k, k < bs.length → s.memKey i = s.memKey (pa + k) → i = pa + k) :
    (s.storeBytes pol pa bs).readByte pol i
      = if pa ≤ i ∧ i < pa + bs.length then bs.getD (i - pa) 0 else s.readByte pol i := by
  induction bs generalizing s pa with
  | nil => simp [State.storeBytes, show ¬(pa ≤ i ∧ i < pa) by omega]
  | cons b bs ih =>
    have one' : pol = 2 → ∀ k, k < bs.length → (s.storeByte pol pa b).memKey i = (s.storeByte pol pa b).memKey (pa + 1 + k) →
        i = pa + 1 + k := fun hp k hk e => by
      rw [memKey_storeByte, memKey_storeByte, Nat.add_assoc, Nat.add_comm 1] at e
      rw [one hp (k + 1) (by simpa using hk) e]
      omega
    rw [State.storeBytes, ih (h.storeByte pol pa b) _ one', h.readByte_storeByte (pa := pa) b fun hp e => one hp 0 (by simp) e]
    simp only [List.length_cons]
    by_cases hi : i = pa
    · subst hi
      simp
    · by_cases hr : pa + 1 ≤ i ∧ i < pa + 1 + bs.length
      · rw [if_pos hr, if_pos (by omega), show i - pa = i - (pa + 1) + 1 by omega, List.getD_cons_succ]
      · rw [if_neg hr, if_neg hi, if_neg (by omega)]

/-- Under WB, no condition is needed. -/
theorem Bytes.wbByte_storeBytes {s : State} (h : Bytes s) (pa i : Nat) (bs : List Byte) :
    (s.storeBytes 0 pa bs).wbByte i = if pa ≤ i ∧ i < pa + bs.length then bs.getD (i - pa) 0 else s.wbByte i :=
  h.readByte_storeBytes 0 pa i bs fun h0 => absurd h0 (by decide)

/-- Stores of a block's scratchpad leave every other byte of it. -/
theorem storePadAt_other (s : State) (b off i : Nat) (bs : List Byte) (t : Nat) (h : i < off ∨ off + bs.length ≤ i) :
    Cells.get 0 ((s.storePadAt b off bs t).block b).sp i = Cells.get 0 (s.block b).sp i := by
  by_cases hb : b < s.blocks.length
  · simp only [State.block, State.storePadAt, State.modBlock, List.getD_eq_getElem?_getD, List.getElem?_modify, if_true,
      List.getElem?_eq_getElem hb, Option.getD_some]
    refine Cells.get_foldl_set 0 _ _ _ _ _ fun e he => ?_
    have := List.le_snd_of_mem_zipIdx he
    have := List.snd_lt_add_of_mem_zipIdx he
    omega
  · simp only [State.block, State.storePadAt, State.modBlock, List.getD_eq_getElem?_getD, List.getElem?_modify,
      List.getElem?_eq_none (Nat.le_of_not_lt hb)]
    simp

end Sys2Proof.Machine
end

