-- ==== Sys2Proof/Laws/Updates.lean ====
section
/-!
SUPPORT. What each update of the state leaves of each other field: one equation a field, true by unfolding the update.
-/

namespace Sys2Proof.Machine

/-! ### modCourse -/

@[simp] theorem State.modCourse_mem (s : State) (c f) : (s.modCourse c f).mem = s.mem := rfl
@[simp] theorem State.modCourse_wb (s : State) (c f) : (s.modCourse c f).wb = s.wb := rfl
@[simp] theorem State.modCourse_walks (s : State) (c f) : (s.modCourse c f).walks = s.walks := rfl
@[simp] theorem State.modCourse_tags (s : State) (c f) : (s.modCourse c f).tags = s.tags := rfl
@[simp] theorem State.modCourse_stamps (s : State) (c f) : (s.modCourse c f).stamps = s.stamps := rfl
@[simp] theorem State.modCourse_held (s : State) (c f) : (s.modCourse c f).held = s.held := rfl
@[simp] theorem State.modCourse_stream (s : State) (c f) : (s.modCourse c f).stream = s.stream := rfl
@[simp] theorem State.modCourse_shadows (s : State) (c f) : (s.modCourse c f).shadows = s.shadows := rfl
@[simp] theorem State.modCourse_poison (s : State) (c f) : (s.modCourse c f).poison = s.poison := rfl
@[simp] theorem State.modCourse_linePoison (s : State) (c f) : (s.modCourse c f).linePoison = s.linePoison := rfl
@[simp] theorem State.modCourse_ctxs (s : State) (c f) : (s.modCourse c f).ctxs = s.ctxs := rfl
@[simp] theorem State.modCourse_regions (s : State) (c f) : (s.modCourse c f).regions = s.regions := rfl
@[simp] theorem State.modCourse_launches (s : State) (c f) : (s.modCourse c f).launches = s.launches := rfl
@[simp] theorem State.modCourse_blocks (s : State) (c f) : (s.modCourse c f).blocks = s.blocks := rfl
@[simp] theorem State.modCourse_copies (s : State) (c f) : (s.modCourse c f).copies = s.copies := rfl
@[simp] theorem State.modCourse_ops (s : State) (c f) : (s.modCourse c f).ops = s.ops := rfl
@[simp] theorem State.modCourse_opcache (s : State) (c f) : (s.modCourse c f).opcache = s.opcache := rfl
@[simp] theorem State.modCourse_icache (s : State) (c f) : (s.modCourse c f).icache = s.icache := rfl
@[simp] theorem State.modCourse_cores (s : State) (c f) : (s.modCourse c f).cores = s.cores := rfl
@[simp] theorem State.modCourse_quarters (s : State) (c f) : (s.modCourse c f).quarters = s.quarters := rfl
@[simp] theorem State.modCourse_clusters (s : State) (c f) : (s.modCourse c f).clusters = s.clusters := rfl
@[simp] theorem State.modCourse_attempts (s : State) (c f) : (s.modCourse c f).attempts = s.attempts := rfl
@[simp] theorem State.modCourse_queues (s : State) (c f) : (s.modCourse c f).queues = s.queues := rfl
@[simp] theorem State.modCourse_leases (s : State) (c f) : (s.modCourse c f).leases = s.leases := rfl
@[simp] theorem State.modCourse_channels (s : State) (c f) : (s.modCourse c f).channels = s.channels := rfl
@[simp] theorem State.modCourse_windows (s : State) (c f) : (s.modCourse c f).windows = s.windows := rfl
@[simp] theorem State.modCourse_mgmt (s : State) (c f) : (s.modCourse c f).mgmt = s.mgmt := rfl
@[simp] theorem State.modCourse_clock (s : State) (c f) : (s.modCourse c f).clock = s.clock := rfl
@[simp] theorem State.modCourse_tick (s : State) (c f) : (s.modCourse c f).tick = s.tick := rfl
@[simp] theorem State.modCourse_inputs (s : State) (c f) : (s.modCourse c f).inputs = s.inputs := rfl
@[simp] theorem State.modCourse_fresh (s : State) (c f) : (s.modCourse c f).fresh = s.fresh := rfl

/-! ### modLane -/

@[simp] theorem State.modLane_mem (s : State) (q f) : (s.modLane q f).mem = s.mem := rfl
@[simp] theorem State.modLane_wb (s : State) (q f) : (s.modLane q f).wb = s.wb := rfl
@[simp] theorem State.modLane_walks (s : State) (q f) : (s.modLane q f).walks = s.walks := rfl
@[simp] theorem State.modLane_tags (s : State) (q f) : (s.modLane q f).tags = s.tags := rfl
@[simp] theorem State.modLane_stamps (s : State) (q f) : (s.modLane q f).stamps = s.stamps := rfl
@[simp] theorem State.modLane_held (s : State) (q f) : (s.modLane q f).held = s.held := rfl
@[simp] theorem State.modLane_stream (s : State) (q f) : (s.modLane q f).stream = s.stream := rfl
@[simp] theorem State.modLane_shadows (s : State) (q f) : (s.modLane q f).shadows = s.shadows := rfl
@[simp] theorem State.modLane_poison (s : State) (q f) : (s.modLane q f).poison = s.poison := rfl
@[simp] theorem State.modLane_linePoison (s : State) (q f) : (s.modLane q f).linePoison = s.linePoison := rfl
@[simp] theorem State.modLane_ctxs (s : State) (q f) : (s.modLane q f).ctxs = s.ctxs := rfl
@[simp] theorem State.modLane_regions (s : State) (q f) : (s.modLane q f).regions = s.regions := rfl
@[simp] theorem State.modLane_launches (s : State) (q f) : (s.modLane q f).launches = s.launches := rfl
@[simp] theorem State.modLane_blocks (s : State) (q f) : (s.modLane q f).blocks = s.blocks := rfl
@[simp] theorem State.modLane_copies (s : State) (q f) : (s.modLane q f).copies = s.copies := rfl
@[simp] theorem State.modLane_ops (s : State) (q f) : (s.modLane q f).ops = s.ops := rfl
@[simp] theorem State.modLane_opcache (s : State) (q f) : (s.modLane q f).opcache = s.opcache := rfl
@[simp] theorem State.modLane_icache (s : State) (q f) : (s.modLane q f).icache = s.icache := rfl
@[simp] theorem State.modLane_cores (s : State) (q f) : (s.modLane q f).cores = s.cores := rfl
@[simp] theorem State.modLane_quarters (s : State) (q f) : (s.modLane q f).quarters = s.quarters := rfl
@[simp] theorem State.modLane_clusters (s : State) (q f) : (s.modLane q f).clusters = s.clusters := rfl
@[simp] theorem State.modLane_attempts (s : State) (q f) : (s.modLane q f).attempts = s.attempts := rfl
@[simp] theorem State.modLane_queues (s : State) (q f) : (s.modLane q f).queues = s.queues := rfl
@[simp] theorem State.modLane_leases (s : State) (q f) : (s.modLane q f).leases = s.leases := rfl
@[simp] theorem State.modLane_channels (s : State) (q f) : (s.modLane q f).channels = s.channels := rfl
@[simp] theorem State.modLane_windows (s : State) (q f) : (s.modLane q f).windows = s.windows := rfl
@[simp] theorem State.modLane_mgmt (s : State) (q f) : (s.modLane q f).mgmt = s.mgmt := rfl
@[simp] theorem State.modLane_clock (s : State) (q f) : (s.modLane q f).clock = s.clock := rfl
@[simp] theorem State.modLane_tick (s : State) (q f) : (s.modLane q f).tick = s.tick := rfl
@[simp] theorem State.modLane_inputs (s : State) (q f) : (s.modLane q f).inputs = s.inputs := rfl
@[simp] theorem State.modLane_fresh (s : State) (q f) : (s.modLane q f).fresh = s.fresh := rfl

/-! ### modBlock -/

@[simp] theorem State.modBlock_mem (s : State) (b f) : (s.modBlock b f).mem = s.mem := rfl
@[simp] theorem State.modBlock_wb (s : State) (b f) : (s.modBlock b f).wb = s.wb := rfl
@[simp] theorem State.modBlock_walks (s : State) (b f) : (s.modBlock b f).walks = s.walks := rfl
@[simp] theorem State.modBlock_tags (s : State) (b f) : (s.modBlock b f).tags = s.tags := rfl
@[simp] theorem State.modBlock_stamps (s : State) (b f) : (s.modBlock b f).stamps = s.stamps := rfl
@[simp] theorem State.modBlock_held (s : State) (b f) : (s.modBlock b f).held = s.held := rfl
@[simp] theorem State.modBlock_stream (s : State) (b f) : (s.modBlock b f).stream = s.stream := rfl
@[simp] theorem State.modBlock_shadows (s : State) (b f) : (s.modBlock b f).shadows = s.shadows := rfl
@[simp] theorem State.modBlock_poison (s : State) (b f) : (s.modBlock b f).poison = s.poison := rfl
@[simp] theorem State.modBlock_linePoison (s : State) (b f) : (s.modBlock b f).linePoison = s.linePoison := rfl
@[simp] theorem State.modBlock_ctxs (s : State) (b f) : (s.modBlock b f).ctxs = s.ctxs := rfl
@[simp] theorem State.modBlock_regions (s : State) (b f) : (s.modBlock b f).regions = s.regions := rfl
@[simp] theorem State.modBlock_launches (s : State) (b f) : (s.modBlock b f).launches = s.launches := rfl
@[simp] theorem State.modBlock_courses (s : State) (b f) : (s.modBlock b f).courses = s.courses := rfl
@[simp] theorem State.modBlock_lanes (s : State) (b f) : (s.modBlock b f).lanes = s.lanes := rfl
@[simp] theorem State.modBlock_copies (s : State) (b f) : (s.modBlock b f).copies = s.copies := rfl
@[simp] theorem State.modBlock_ops (s : State) (b f) : (s.modBlock b f).ops = s.ops := rfl
@[simp] theorem State.modBlock_opcache (s : State) (b f) : (s.modBlock b f).opcache = s.opcache := rfl
@[simp] theorem State.modBlock_icache (s : State) (b f) : (s.modBlock b f).icache = s.icache := rfl
@[simp] theorem State.modBlock_cores (s : State) (b f) : (s.modBlock b f).cores = s.cores := rfl
@[simp] theorem State.modBlock_quarters (s : State) (b f) : (s.modBlock b f).quarters = s.quarters := rfl
@[simp] theorem State.modBlock_clusters (s : State) (b f) : (s.modBlock b f).clusters = s.clusters := rfl
@[simp] theorem State.modBlock_attempts (s : State) (b f) : (s.modBlock b f).attempts = s.attempts := rfl
@[simp] theorem State.modBlock_queues (s : State) (b f) : (s.modBlock b f).queues = s.queues := rfl
@[simp] theorem State.modBlock_leases (s : State) (b f) : (s.modBlock b f).leases = s.leases := rfl
@[simp] theorem State.modBlock_channels (s : State) (b f) : (s.modBlock b f).channels = s.channels := rfl
@[simp] theorem State.modBlock_windows (s : State) (b f) : (s.modBlock b f).windows = s.windows := rfl
@[simp] theorem State.modBlock_mgmt (s : State) (b f) : (s.modBlock b f).mgmt = s.mgmt := rfl
@[simp] theorem State.modBlock_clock (s : State) (b f) : (s.modBlock b f).clock = s.clock := rfl
@[simp] theorem State.modBlock_tick (s : State) (b f) : (s.modBlock b f).tick = s.tick := rfl
@[simp] theorem State.modBlock_cur (s : State) (b f) : (s.modBlock b f).cur = s.cur := rfl
@[simp] theorem State.modBlock_inputs (s : State) (b f) : (s.modBlock b f).inputs = s.inputs := rfl
@[simp] theorem State.modBlock_fresh (s : State) (b f) : (s.modBlock b f).fresh = s.fresh := rfl

/-! ### modLaunch -/

@[simp] theorem State.modLaunch_mem (s : State) (l f) : (s.modLaunch l f).mem = s.mem := rfl
@[simp] theorem State.modLaunch_wb (s : State) (l f) : (s.modLaunch l f).wb = s.wb := rfl
@[simp] theorem State.modLaunch_walks (s : State) (l f) : (s.modLaunch l f).walks = s.walks := rfl
@[simp] theorem State.modLaunch_tags (s : State) (l f) : (s.modLaunch l f).tags = s.tags := rfl
@[simp] theorem State.modLaunch_stamps (s : State) (l f) : (s.modLaunch l f).stamps = s.stamps := rfl
@[simp] theorem State.modLaunch_held (s : State) (l f) : (s.modLaunch l f).held = s.held := rfl
@[simp] theorem State.modLaunch_stream (s : State) (l f) : (s.modLaunch l f).stream = s.stream := rfl
@[simp] theorem State.modLaunch_shadows (s : State) (l f) : (s.modLaunch l f).shadows = s.shadows := rfl
@[simp] theorem State.modLaunch_poison (s : State) (l f) : (s.modLaunch l f).poison = s.poison := rfl
@[simp] theorem State.modLaunch_linePoison (s : State) (l f) : (s.modLaunch l f).linePoison = s.linePoison := rfl
@[simp] theorem State.modLaunch_ctxs (s : State) (l f) : (s.modLaunch l f).ctxs = s.ctxs := rfl
@[simp] theorem State.modLaunch_regions (s : State) (l f) : (s.modLaunch l f).regions = s.regions := rfl
@[simp] theorem State.modLaunch_blocks (s : State) (l f) : (s.modLaunch l f).blocks = s.blocks := rfl
@[simp] theorem State.modLaunch_courses (s : State) (l f) : (s.modLaunch l f).courses = s.courses := rfl
@[simp] theorem State.modLaunch_lanes (s : State) (l f) : (s.modLaunch l f).lanes = s.lanes := rfl
@[simp] theorem State.modLaunch_copies (s : State) (l f) : (s.modLaunch l f).copies = s.copies := rfl
@[simp] theorem State.modLaunch_ops (s : State) (l f) : (s.modLaunch l f).ops = s.ops := rfl
@[simp] theorem State.modLaunch_opcache (s : State) (l f) : (s.modLaunch l f).opcache = s.opcache := rfl
@[simp] theorem State.modLaunch_icache (s : State) (l f) : (s.modLaunch l f).icache = s.icache := rfl
@[simp] theorem State.modLaunch_cores (s : State) (l f) : (s.modLaunch l f).cores = s.cores := rfl
@[simp] theorem State.modLaunch_quarters (s : State) (l f) : (s.modLaunch l f).quarters = s.quarters := rfl
@[simp] theorem State.modLaunch_clusters (s : State) (l f) : (s.modLaunch l f).clusters = s.clusters := rfl
@[simp] theorem State.modLaunch_attempts (s : State) (l f) : (s.modLaunch l f).attempts = s.attempts := rfl
@[simp] theorem State.modLaunch_queues (s : State) (l f) : (s.modLaunch l f).queues = s.queues := rfl
@[simp] theorem State.modLaunch_leases (s : State) (l f) : (s.modLaunch l f).leases = s.leases := rfl
@[simp] theorem State.modLaunch_channels (s : State) (l f) : (s.modLaunch l f).channels = s.channels := rfl
@[simp] theorem State.modLaunch_windows (s : State) (l f) : (s.modLaunch l f).windows = s.windows := rfl
@[simp] theorem State.modLaunch_mgmt (s : State) (l f) : (s.modLaunch l f).mgmt = s.mgmt := rfl
@[simp] theorem State.modLaunch_clock (s : State) (l f) : (s.modLaunch l f).clock = s.clock := rfl
@[simp] theorem State.modLaunch_tick (s : State) (l f) : (s.modLaunch l f).tick = s.tick := rfl
@[simp] theorem State.modLaunch_cur (s : State) (l f) : (s.modLaunch l f).cur = s.cur := rfl
@[simp] theorem State.modLaunch_inputs (s : State) (l f) : (s.modLaunch l f).inputs = s.inputs := rfl
@[simp] theorem State.modLaunch_fresh (s : State) (l f) : (s.modLaunch l f).fresh = s.fresh := rfl

/-! ### modRegion -/

@[simp] theorem State.modRegion_mem (s : State) (r f) : (s.modRegion r f).mem = s.mem := rfl
@[simp] theorem State.modRegion_wb (s : State) (r f) : (s.modRegion r f).wb = s.wb := rfl
@[simp] theorem State.modRegion_walks (s : State) (r f) : (s.modRegion r f).walks = s.walks := rfl
@[simp] theorem State.modRegion_tags (s : State) (r f) : (s.modRegion r f).tags = s.tags := rfl
@[simp] theorem State.modRegion_stamps (s : State) (r f) : (s.modRegion r f).stamps = s.stamps := rfl
@[simp] theorem State.modRegion_held (s : State) (r f) : (s.modRegion r f).held = s.held := rfl
@[simp] theorem State.modRegion_stream (s : State) (r f) : (s.modRegion r f).stream = s.stream := rfl
@[simp] theorem State.modRegion_shadows (s : State) (r f) : (s.modRegion r f).shadows = s.shadows := rfl
@[simp] theorem State.modRegion_poison (s : State) (r f) : (s.modRegion r f).poison = s.poison := rfl
@[simp] theorem State.modRegion_linePoison (s : State) (r f) : (s.modRegion r f).linePoison = s.linePoison := rfl
@[simp] theorem State.modRegion_ctxs (s : State) (r f) : (s.modRegion r f).ctxs = s.ctxs := rfl
@[simp] theorem State.modRegion_launches (s : State) (r f) : (s.modRegion r f).launches = s.launches := rfl
@[simp] theorem State.modRegion_blocks (s : State) (r f) : (s.modRegion r f).blocks = s.blocks := rfl
@[simp] theorem State.modRegion_courses (s : State) (r f) : (s.modRegion r f).courses = s.courses := rfl
@[simp] theorem State.modRegion_lanes (s : State) (r f) : (s.modRegion r f).lanes = s.lanes := rfl
@[simp] theorem State.modRegion_copies (s : State) (r f) : (s.modRegion r f).copies = s.copies := rfl
@[simp] theorem State.modRegion_ops (s : State) (r f) : (s.modRegion r f).ops = s.ops := rfl
@[simp] theorem State.modRegion_opcache (s : State) (r f) : (s.modRegion r f).opcache = s.opcache := rfl
@[simp] theorem State.modRegion_icache (s : State) (r f) : (s.modRegion r f).icache = s.icache := rfl
@[simp] theorem State.modRegion_cores (s : State) (r f) : (s.modRegion r f).cores = s.cores := rfl
@[simp] theorem State.modRegion_quarters (s : State) (r f) : (s.modRegion r f).quarters = s.quarters := rfl
@[simp] theorem State.modRegion_clusters (s : State) (r f) : (s.modRegion r f).clusters = s.clusters := rfl
@[simp] theorem State.modRegion_attempts (s : State) (r f) : (s.modRegion r f).attempts = s.attempts := rfl
@[simp] theorem State.modRegion_queues (s : State) (r f) : (s.modRegion r f).queues = s.queues := rfl
@[simp] theorem State.modRegion_leases (s : State) (r f) : (s.modRegion r f).leases = s.leases := rfl
@[simp] theorem State.modRegion_channels (s : State) (r f) : (s.modRegion r f).channels = s.channels := rfl
@[simp] theorem State.modRegion_windows (s : State) (r f) : (s.modRegion r f).windows = s.windows := rfl
@[simp] theorem State.modRegion_mgmt (s : State) (r f) : (s.modRegion r f).mgmt = s.mgmt := rfl
@[simp] theorem State.modRegion_clock (s : State) (r f) : (s.modRegion r f).clock = s.clock := rfl
@[simp] theorem State.modRegion_tick (s : State) (r f) : (s.modRegion r f).tick = s.tick := rfl
@[simp] theorem State.modRegion_cur (s : State) (r f) : (s.modRegion r f).cur = s.cur := rfl
@[simp] theorem State.modRegion_inputs (s : State) (r f) : (s.modRegion r f).inputs = s.inputs := rfl
@[simp] theorem State.modRegion_fresh (s : State) (r f) : (s.modRegion r f).fresh = s.fresh := rfl

/-! ### modCtx -/

@[simp] theorem State.modCtx_mem (s : State) (x f) : (s.modCtx x f).mem = s.mem := rfl
@[simp] theorem State.modCtx_wb (s : State) (x f) : (s.modCtx x f).wb = s.wb := rfl
@[simp] theorem State.modCtx_walks (s : State) (x f) : (s.modCtx x f).walks = s.walks := rfl
@[simp] theorem State.modCtx_tags (s : State) (x f) : (s.modCtx x f).tags = s.tags := rfl
@[simp] theorem State.modCtx_stamps (s : State) (x f) : (s.modCtx x f).stamps = s.stamps := rfl
@[simp] theorem State.modCtx_held (s : State) (x f) : (s.modCtx x f).held = s.held := rfl
@[simp] theorem State.modCtx_stream (s : State) (x f) : (s.modCtx x f).stream = s.stream := rfl
@[simp] theorem State.modCtx_shadows (s : State) (x f) : (s.modCtx x f).shadows = s.shadows := rfl
@[simp] theorem State.modCtx_poison (s : State) (x f) : (s.modCtx x f).poison = s.poison := rfl
@[simp] theorem State.modCtx_linePoison (s : State) (x f) : (s.modCtx x f).linePoison = s.linePoison := rfl
@[simp] theorem State.modCtx_regions (s : State) (x f) : (s.modCtx x f).regions = s.regions := rfl
@[simp] theorem State.modCtx_launches (s : State) (x f) : (s.modCtx x f).launches = s.launches := rfl
@[simp] theorem State.modCtx_blocks (s : State) (x f) : (s.modCtx x f).blocks = s.blocks := rfl
@[simp] theorem State.modCtx_courses (s : State) (x f) : (s.modCtx x f).courses = s.courses := rfl
@[simp] theorem State.modCtx_lanes (s : State) (x f) : (s.modCtx x f).lanes = s.lanes := rfl
@[simp] theorem State.modCtx_copies (s : State) (x f) : (s.modCtx x f).copies = s.copies := rfl
@[simp] theorem State.modCtx_ops (s : State) (x f) : (s.modCtx x f).ops = s.ops := rfl
@[simp] theorem State.modCtx_opcache (s : State) (x f) : (s.modCtx x f).opcache = s.opcache := rfl
@[simp] theorem State.modCtx_icache (s : State) (x f) : (s.modCtx x f).icache = s.icache := rfl
@[simp] theorem State.modCtx_cores (s : State) (x f) : (s.modCtx x f).cores = s.cores := rfl
@[simp] theorem State.modCtx_quarters (s : State) (x f) : (s.modCtx x f).quarters = s.quarters := rfl
@[simp] theorem State.modCtx_clusters (s : State) (x f) : (s.modCtx x f).clusters = s.clusters := rfl
@[simp] theorem State.modCtx_attempts (s : State) (x f) : (s.modCtx x f).attempts = s.attempts := rfl
@[simp] theorem State.modCtx_queues (s : State) (x f) : (s.modCtx x f).queues = s.queues := rfl
@[simp] theorem State.modCtx_leases (s : State) (x f) : (s.modCtx x f).leases = s.leases := rfl
@[simp] theorem State.modCtx_channels (s : State) (x f) : (s.modCtx x f).channels = s.channels := rfl
@[simp] theorem State.modCtx_windows (s : State) (x f) : (s.modCtx x f).windows = s.windows := rfl
@[simp] theorem State.modCtx_mgmt (s : State) (x f) : (s.modCtx x f).mgmt = s.mgmt := rfl
@[simp] theorem State.modCtx_clock (s : State) (x f) : (s.modCtx x f).clock = s.clock := rfl
@[simp] theorem State.modCtx_tick (s : State) (x f) : (s.modCtx x f).tick = s.tick := rfl
@[simp] theorem State.modCtx_cur (s : State) (x f) : (s.modCtx x f).cur = s.cur := rfl
@[simp] theorem State.modCtx_inputs (s : State) (x f) : (s.modCtx x f).inputs = s.inputs := rfl
@[simp] theorem State.modCtx_fresh (s : State) (x f) : (s.modCtx x f).fresh = s.fresh := rfl

/-! ### modCluster -/

@[simp] theorem State.modCluster_mem (s : State) (k f) : (s.modCluster k f).mem = s.mem := rfl
@[simp] theorem State.modCluster_wb (s : State) (k f) : (s.modCluster k f).wb = s.wb := rfl
@[simp] theorem State.modCluster_walks (s : State) (k f) : (s.modCluster k f).walks = s.walks := rfl
@[simp] theorem State.modCluster_tags (s : State) (k f) : (s.modCluster k f).tags = s.tags := rfl
@[simp] theorem State.modCluster_stamps (s : State) (k f) : (s.modCluster k f).stamps = s.stamps := rfl
@[simp] theorem State.modCluster_held (s : State) (k f) : (s.modCluster k f).held = s.held := rfl
@[simp] theorem State.modCluster_stream (s : State) (k f) : (s.modCluster k f).stream = s.stream := rfl
@[simp] theorem State.modCluster_shadows (s : State) (k f) : (s.modCluster k f).shadows = s.shadows := rfl
@[simp] theorem State.modCluster_poison (s : State) (k f) : (s.modCluster k f).poison = s.poison := rfl
@[simp] theorem State.modCluster_linePoison (s : State) (k f) : (s.modCluster k f).linePoison = s.linePoison := rfl
@[simp] theorem State.modCluster_ctxs (s : State) (k f) : (s.modCluster k f).ctxs = s.ctxs := rfl
@[simp] theorem State.modCluster_regions (s : State) (k f) : (s.modCluster k f).regions = s.regions := rfl
@[simp] theorem State.modCluster_launches (s : State) (k f) : (s.modCluster k f).launches = s.launches := rfl
@[simp] theorem State.modCluster_blocks (s : State) (k f) : (s.modCluster k f).blocks = s.blocks := rfl
@[simp] theorem State.modCluster_courses (s : State) (k f) : (s.modCluster k f).courses = s.courses := rfl
@[simp] theorem State.modCluster_lanes (s : State) (k f) : (s.modCluster k f).lanes = s.lanes := rfl
@[simp] theorem State.modCluster_copies (s : State) (k f) : (s.modCluster k f).copies = s.copies := rfl
@[simp] theorem State.modCluster_ops (s : State) (k f) : (s.modCluster k f).ops = s.ops := rfl
@[simp] theorem State.modCluster_opcache (s : State) (k f) : (s.modCluster k f).opcache = s.opcache := rfl
@[simp] theorem State.modCluster_icache (s : State) (k f) : (s.modCluster k f).icache = s.icache := rfl
@[simp] theorem State.modCluster_cores (s : State) (k f) : (s.modCluster k f).cores = s.cores := rfl
@[simp] theorem State.modCluster_quarters (s : State) (k f) : (s.modCluster k f).quarters = s.quarters := rfl
@[simp] theorem State.modCluster_attempts (s : State) (k f) : (s.modCluster k f).attempts = s.attempts := rfl
@[simp] theorem State.modCluster_queues (s : State) (k f) : (s.modCluster k f).queues = s.queues := rfl
@[simp] theorem State.modCluster_leases (s : State) (k f) : (s.modCluster k f).leases = s.leases := rfl
@[simp] theorem State.modCluster_channels (s : State) (k f) : (s.modCluster k f).channels = s.channels := rfl
@[simp] theorem State.modCluster_windows (s : State) (k f) : (s.modCluster k f).windows = s.windows := rfl
@[simp] theorem State.modCluster_mgmt (s : State) (k f) : (s.modCluster k f).mgmt = s.mgmt := rfl
@[simp] theorem State.modCluster_clock (s : State) (k f) : (s.modCluster k f).clock = s.clock := rfl
@[simp] theorem State.modCluster_tick (s : State) (k f) : (s.modCluster k f).tick = s.tick := rfl
@[simp] theorem State.modCluster_cur (s : State) (k f) : (s.modCluster k f).cur = s.cur := rfl
@[simp] theorem State.modCluster_inputs (s : State) (k f) : (s.modCluster k f).inputs = s.inputs := rfl
@[simp] theorem State.modCluster_fresh (s : State) (k f) : (s.modCluster k f).fresh = s.fresh := rfl

/-! ### modCore -/

@[simp] theorem State.modCore_mem (s : State) (k f) : (s.modCore k f).mem = s.mem := rfl
@[simp] theorem State.modCore_wb (s : State) (k f) : (s.modCore k f).wb = s.wb := rfl
@[simp] theorem State.modCore_walks (s : State) (k f) : (s.modCore k f).walks = s.walks := rfl
@[simp] theorem State.modCore_tags (s : State) (k f) : (s.modCore k f).tags = s.tags := rfl
@[simp] theorem State.modCore_stamps (s : State) (k f) : (s.modCore k f).stamps = s.stamps := rfl
@[simp] theorem State.modCore_held (s : State) (k f) : (s.modCore k f).held = s.held := rfl
@[simp] theorem State.modCore_stream (s : State) (k f) : (s.modCore k f).stream = s.stream := rfl
@[simp] theorem State.modCore_shadows (s : State) (k f) : (s.modCore k f).shadows = s.shadows := rfl
@[simp] theorem State.modCore_poison (s : State) (k f) : (s.modCore k f).poison = s.poison := rfl
@[simp] theorem State.modCore_linePoison (s : State) (k f) : (s.modCore k f).linePoison = s.linePoison := rfl
@[simp] theorem State.modCore_ctxs (s : State) (k f) : (s.modCore k f).ctxs = s.ctxs := rfl
@[simp] theorem State.modCore_regions (s : State) (k f) : (s.modCore k f).regions = s.regions := rfl
@[simp] theorem State.modCore_launches (s : State) (k f) : (s.modCore k f).launches = s.launches := rfl
@[simp] theorem State.modCore_blocks (s : State) (k f) : (s.modCore k f).blocks = s.blocks := rfl
@[simp] theorem State.modCore_courses (s : State) (k f) : (s.modCore k f).courses = s.courses := rfl
@[simp] theorem State.modCore_lanes (s : State) (k f) : (s.modCore k f).lanes = s.lanes := rfl
@[simp] theorem State.modCore_copies (s : State) (k f) : (s.modCore k f).copies = s.copies := rfl
@[simp] theorem State.modCore_ops (s : State) (k f) : (s.modCore k f).ops = s.ops := rfl
@[simp] theorem State.modCore_opcache (s : State) (k f) : (s.modCore k f).opcache = s.opcache := rfl
@[simp] theorem State.modCore_icache (s : State) (k f) : (s.modCore k f).icache = s.icache := rfl
@[simp] theorem State.modCore_quarters (s : State) (k f) : (s.modCore k f).quarters = s.quarters := rfl
@[simp] theorem State.modCore_clusters (s : State) (k f) : (s.modCore k f).clusters = s.clusters := rfl
@[simp] theorem State.modCore_attempts (s : State) (k f) : (s.modCore k f).attempts = s.attempts := rfl
@[simp] theorem State.modCore_queues (s : State) (k f) : (s.modCore k f).queues = s.queues := rfl
@[simp] theorem State.modCore_leases (s : State) (k f) : (s.modCore k f).leases = s.leases := rfl
@[simp] theorem State.modCore_channels (s : State) (k f) : (s.modCore k f).channels = s.channels := rfl
@[simp] theorem State.modCore_windows (s : State) (k f) : (s.modCore k f).windows = s.windows := rfl
@[simp] theorem State.modCore_mgmt (s : State) (k f) : (s.modCore k f).mgmt = s.mgmt := rfl
@[simp] theorem State.modCore_clock (s : State) (k f) : (s.modCore k f).clock = s.clock := rfl
@[simp] theorem State.modCore_tick (s : State) (k f) : (s.modCore k f).tick = s.tick := rfl
@[simp] theorem State.modCore_cur (s : State) (k f) : (s.modCore k f).cur = s.cur := rfl
@[simp] theorem State.modCore_inputs (s : State) (k f) : (s.modCore k f).inputs = s.inputs := rfl
@[simp] theorem State.modCore_fresh (s : State) (k f) : (s.modCore k f).fresh = s.fresh := rfl

/-! ### modQueue -/

@[simp] theorem State.modQueue_mem (s : State) (q f) : (s.modQueue q f).mem = s.mem := rfl
@[simp] theorem State.modQueue_wb (s : State) (q f) : (s.modQueue q f).wb = s.wb := rfl
@[simp] theorem State.modQueue_walks (s : State) (q f) : (s.modQueue q f).walks = s.walks := rfl
@[simp] theorem State.modQueue_tags (s : State) (q f) : (s.modQueue q f).tags = s.tags := rfl
@[simp] theorem State.modQueue_stamps (s : State) (q f) : (s.modQueue q f).stamps = s.stamps := rfl
@[simp] theorem State.modQueue_held (s : State) (q f) : (s.modQueue q f).held = s.held := rfl
@[simp] theorem State.modQueue_stream (s : State) (q f) : (s.modQueue q f).stream = s.stream := rfl
@[simp] theorem State.modQueue_shadows (s : State) (q f) : (s.modQueue q f).shadows = s.shadows := rfl
@[simp] theorem State.modQueue_poison (s : State) (q f) : (s.modQueue q f).poison = s.poison := rfl
@[simp] theorem State.modQueue_linePoison (s : State) (q f) : (s.modQueue q f).linePoison = s.linePoison := rfl
@[simp] theorem State.modQueue_ctxs (s : State) (q f) : (s.modQueue q f).ctxs = s.ctxs := rfl
@[simp] theorem State.modQueue_regions (s : State) (q f) : (s.modQueue q f).regions = s.regions := rfl
@[simp] theorem State.modQueue_launches (s : State) (q f) : (s.modQueue q f).launches = s.launches := rfl
@[simp] theorem State.modQueue_blocks (s : State) (q f) : (s.modQueue q f).blocks = s.blocks := rfl
@[simp] theorem State.modQueue_courses (s : State) (q f) : (s.modQueue q f).courses = s.courses := rfl
@[simp] theorem State.modQueue_lanes (s : State) (q f) : (s.modQueue q f).lanes = s.lanes := rfl
@[simp] theorem State.modQueue_copies (s : State) (q f) : (s.modQueue q f).copies = s.copies := rfl
@[simp] theorem State.modQueue_ops (s : State) (q f) : (s.modQueue q f).ops = s.ops := rfl
@[simp] theorem State.modQueue_opcache (s : State) (q f) : (s.modQueue q f).opcache = s.opcache := rfl
@[simp] theorem State.modQueue_icache (s : State) (q f) : (s.modQueue q f).icache = s.icache := rfl
@[simp] theorem State.modQueue_cores (s : State) (q f) : (s.modQueue q f).cores = s.cores := rfl
@[simp] theorem State.modQueue_quarters (s : State) (q f) : (s.modQueue q f).quarters = s.quarters := rfl
@[simp] theorem State.modQueue_clusters (s : State) (q f) : (s.modQueue q f).clusters = s.clusters := rfl
@[simp] theorem State.modQueue_attempts (s : State) (q f) : (s.modQueue q f).attempts = s.attempts := rfl
@[simp] theorem State.modQueue_leases (s : State) (q f) : (s.modQueue q f).leases = s.leases := rfl
@[simp] theorem State.modQueue_channels (s : State) (q f) : (s.modQueue q f).channels = s.channels := rfl
@[simp] theorem State.modQueue_windows (s : State) (q f) : (s.modQueue q f).windows = s.windows := rfl
@[simp] theorem State.modQueue_mgmt (s : State) (q f) : (s.modQueue q f).mgmt = s.mgmt := rfl
@[simp] theorem State.modQueue_clock (s : State) (q f) : (s.modQueue q f).clock = s.clock := rfl
@[simp] theorem State.modQueue_tick (s : State) (q f) : (s.modQueue q f).tick = s.tick := rfl
@[simp] theorem State.modQueue_cur (s : State) (q f) : (s.modQueue q f).cur = s.cur := rfl
@[simp] theorem State.modQueue_inputs (s : State) (q f) : (s.modQueue q f).inputs = s.inputs := rfl
@[simp] theorem State.modQueue_fresh (s : State) (q f) : (s.modQueue q f).fresh = s.fresh := rfl

/-! ### modChannel -/

@[simp] theorem State.modChannel_mem (s : State) (h f) : (s.modChannel h f).mem = s.mem := rfl
@[simp] theorem State.modChannel_wb (s : State) (h f) : (s.modChannel h f).wb = s.wb := rfl
@[simp] theorem State.modChannel_walks (s : State) (h f) : (s.modChannel h f).walks = s.walks := rfl
@[simp] theorem State.modChannel_tags (s : State) (h f) : (s.modChannel h f).tags = s.tags := rfl
@[simp] theorem State.modChannel_stamps (s : State) (h f) : (s.modChannel h f).stamps = s.stamps := rfl
@[simp] theorem State.modChannel_held (s : State) (h f) : (s.modChannel h f).held = s.held := rfl
@[simp] theorem State.modChannel_stream (s : State) (h f) : (s.modChannel h f).stream = s.stream := rfl
@[simp] theorem State.modChannel_shadows (s : State) (h f) : (s.modChannel h f).shadows = s.shadows := rfl
@[simp] theorem State.modChannel_poison (s : State) (h f) : (s.modChannel h f).poison = s.poison := rfl
@[simp] theorem State.modChannel_linePoison (s : State) (h f) : (s.modChannel h f).linePoison = s.linePoison := rfl
@[simp] theorem State.modChannel_ctxs (s : State) (h f) : (s.modChannel h f).ctxs = s.ctxs := rfl
@[simp] theorem State.modChannel_regions (s : State) (h f) : (s.modChannel h f).regions = s.regions := rfl
@[simp] theorem State.modChannel_launches (s : State) (h f) : (s.modChannel h f).launches = s.launches := rfl
@[simp] theorem State.modChannel_blocks (s : State) (h f) : (s.modChannel h f).blocks = s.blocks := rfl
@[simp] theorem State.modChannel_courses (s : State) (h f) : (s.modChannel h f).courses = s.courses := rfl
@[simp] theorem State.modChannel_lanes (s : State) (h f) : (s.modChannel h f).lanes = s.lanes := rfl
@[simp] theorem State.modChannel_copies (s : State) (h f) : (s.modChannel h f).copies = s.copies := rfl
@[simp] theorem State.modChannel_ops (s : State) (h f) : (s.modChannel h f).ops = s.ops := rfl
@[simp] theorem State.modChannel_opcache (s : State) (h f) : (s.modChannel h f).opcache = s.opcache := rfl
@[simp] theorem State.modChannel_icache (s : State) (h f) : (s.modChannel h f).icache = s.icache := rfl
@[simp] theorem State.modChannel_cores (s : State) (h f) : (s.modChannel h f).cores = s.cores := rfl
@[simp] theorem State.modChannel_quarters (s : State) (h f) : (s.modChannel h f).quarters = s.quarters := rfl
@[simp] theorem State.modChannel_clusters (s : State) (h f) : (s.modChannel h f).clusters = s.clusters := rfl
@[simp] theorem State.modChannel_attempts (s : State) (h f) : (s.modChannel h f).attempts = s.attempts := rfl
@[simp] theorem State.modChannel_queues (s : State) (h f) : (s.modChannel h f).queues = s.queues := rfl
@[simp] theorem State.modChannel_leases (s : State) (h f) : (s.modChannel h f).leases = s.leases := rfl
@[simp] theorem State.modChannel_windows (s : State) (h f) : (s.modChannel h f).windows = s.windows := rfl
@[simp] theorem State.modChannel_mgmt (s : State) (h f) : (s.modChannel h f).mgmt = s.mgmt := rfl
@[simp] theorem State.modChannel_clock (s : State) (h f) : (s.modChannel h f).clock = s.clock := rfl
@[simp] theorem State.modChannel_tick (s : State) (h f) : (s.modChannel h f).tick = s.tick := rfl
@[simp] theorem State.modChannel_cur (s : State) (h f) : (s.modChannel h f).cur = s.cur := rfl
@[simp] theorem State.modChannel_inputs (s : State) (h f) : (s.modChannel h f).inputs = s.inputs := rfl
@[simp] theorem State.modChannel_fresh (s : State) (h f) : (s.modChannel h f).fresh = s.fresh := rfl

/-! ### setMemByte -/

@[simp] theorem State.setMemByte_wb (s : State) (pa b) : (s.setMemByte pa b).wb = s.wb := rfl
@[simp] theorem State.setMemByte_walks (s : State) (pa b) : (s.setMemByte pa b).walks = s.walks := rfl
@[simp] theorem State.setMemByte_tags (s : State) (pa b) : (s.setMemByte pa b).tags = s.tags := rfl
@[simp] theorem State.setMemByte_stamps (s : State) (pa b) : (s.setMemByte pa b).stamps = s.stamps := rfl
@[simp] theorem State.setMemByte_held (s : State) (pa b) : (s.setMemByte pa b).held = s.held := rfl
@[simp] theorem State.setMemByte_stream (s : State) (pa b) : (s.setMemByte pa b).stream = s.stream := rfl
@[simp] theorem State.setMemByte_shadows (s : State) (pa b) : (s.setMemByte pa b).shadows = s.shadows := rfl
@[simp] theorem State.setMemByte_poison (s : State) (pa b) : (s.setMemByte pa b).poison = s.poison := rfl
@[simp] theorem State.setMemByte_linePoison (s : State) (pa b) : (s.setMemByte pa b).linePoison = s.linePoison := rfl
@[simp] theorem State.setMemByte_ctxs (s : State) (pa b) : (s.setMemByte pa b).ctxs = s.ctxs := rfl
@[simp] theorem State.setMemByte_regions (s : State) (pa b) : (s.setMemByte pa b).regions = s.regions := rfl
@[simp] theorem State.setMemByte_launches (s : State) (pa b) : (s.setMemByte pa b).launches = s.launches := rfl
@[simp] theorem State.setMemByte_blocks (s : State) (pa b) : (s.setMemByte pa b).blocks = s.blocks := rfl
@[simp] theorem State.setMemByte_courses (s : State) (pa b) : (s.setMemByte pa b).courses = s.courses := rfl
@[simp] theorem State.setMemByte_lanes (s : State) (pa b) : (s.setMemByte pa b).lanes = s.lanes := rfl
@[simp] theorem State.setMemByte_copies (s : State) (pa b) : (s.setMemByte pa b).copies = s.copies := rfl
@[simp] theorem State.setMemByte_ops (s : State) (pa b) : (s.setMemByte pa b).ops = s.ops := rfl
@[simp] theorem State.setMemByte_opcache (s : State) (pa b) : (s.setMemByte pa b).opcache = s.opcache := rfl
@[simp] theorem State.setMemByte_icache (s : State) (pa b) : (s.setMemByte pa b).icache = s.icache := rfl
@[simp] theorem State.setMemByte_cores (s : State) (pa b) : (s.setMemByte pa b).cores = s.cores := rfl
@[simp] theorem State.setMemByte_quarters (s : State) (pa b) : (s.setMemByte pa b).quarters = s.quarters := rfl
@[simp] theorem State.setMemByte_clusters (s : State) (pa b) : (s.setMemByte pa b).clusters = s.clusters := rfl
@[simp] theorem State.setMemByte_attempts (s : State) (pa b) : (s.setMemByte pa b).attempts = s.attempts := rfl
@[simp] theorem State.setMemByte_queues (s : State) (pa b) : (s.setMemByte pa b).queues = s.queues := rfl
@[simp] theorem State.setMemByte_leases (s : State) (pa b) : (s.setMemByte pa b).leases = s.leases := rfl
@[simp] theorem State.setMemByte_channels (s : State) (pa b) : (s.setMemByte pa b).channels = s.channels := rfl
@[simp] theorem State.setMemByte_windows (s : State) (pa b) : (s.setMemByte pa b).windows = s.windows := rfl
@[simp] theorem State.setMemByte_mgmt (s : State) (pa b) : (s.setMemByte pa b).mgmt = s.mgmt := rfl
@[simp] theorem State.setMemByte_clock (s : State) (pa b) : (s.setMemByte pa b).clock = s.clock := rfl
@[simp] theorem State.setMemByte_tick (s : State) (pa b) : (s.setMemByte pa b).tick = s.tick := rfl
@[simp] theorem State.setMemByte_cur (s : State) (pa b) : (s.setMemByte pa b).cur = s.cur := rfl
@[simp] theorem State.setMemByte_inputs (s : State) (pa b) : (s.setMemByte pa b).inputs = s.inputs := rfl
@[simp] theorem State.setMemByte_fresh (s : State) (pa b) : (s.setMemByte pa b).fresh = s.fresh := rfl

/-! ### setWbByte -/

@[simp] theorem State.setWbByte_mem (s : State) (pa b) : (s.setWbByte pa b).mem = s.mem := rfl
@[simp] theorem State.setWbByte_walks (s : State) (pa b) : (s.setWbByte pa b).walks = s.walks := rfl
@[simp] theorem State.setWbByte_held (s : State) (pa b) : (s.setWbByte pa b).held = s.held := rfl
@[simp] theorem State.setWbByte_stream (s : State) (pa b) : (s.setWbByte pa b).stream = s.stream := rfl
@[simp] theorem State.setWbByte_shadows (s : State) (pa b) : (s.setWbByte pa b).shadows = s.shadows := rfl
@[simp] theorem State.setWbByte_poison (s : State) (pa b) : (s.setWbByte pa b).poison = s.poison := rfl
@[simp] theorem State.setWbByte_ctxs (s : State) (pa b) : (s.setWbByte pa b).ctxs = s.ctxs := rfl
@[simp] theorem State.setWbByte_regions (s : State) (pa b) : (s.setWbByte pa b).regions = s.regions := rfl
@[simp] theorem State.setWbByte_launches (s : State) (pa b) : (s.setWbByte pa b).launches = s.launches := rfl
@[simp] theorem State.setWbByte_blocks (s : State) (pa b) : (s.setWbByte pa b).blocks = s.blocks := rfl
@[simp] theorem State.setWbByte_courses (s : State) (pa b) : (s.setWbByte pa b).courses = s.courses := rfl
@[simp] theorem State.setWbByte_lanes (s : State) (pa b) : (s.setWbByte pa b).lanes = s.lanes := rfl
@[simp] theorem State.setWbByte_copies (s : State) (pa b) : (s.setWbByte pa b).copies = s.copies := rfl
@[simp] theorem State.setWbByte_ops (s : State) (pa b) : (s.setWbByte pa b).ops = s.ops := rfl
@[simp] theorem State.setWbByte_opcache (s : State) (pa b) : (s.setWbByte pa b).opcache = s.opcache := rfl
@[simp] theorem State.setWbByte_icache (s : State) (pa b) : (s.setWbByte pa b).icache = s.icache := rfl
@[simp] theorem State.setWbByte_cores (s : State) (pa b) : (s.setWbByte pa b).cores = s.cores := rfl
@[simp] theorem State.setWbByte_quarters (s : State) (pa b) : (s.setWbByte pa b).quarters = s.quarters := rfl
@[simp] theorem State.setWbByte_clusters (s : State) (pa b) : (s.setWbByte pa b).clusters = s.clusters := rfl
@[simp] theorem State.setWbByte_attempts (s : State) (pa b) : (s.setWbByte pa b).attempts = s.attempts := rfl
@[simp] theorem State.setWbByte_queues (s : State) (pa b) : (s.setWbByte pa b).queues = s.queues := rfl
@[simp] theorem State.setWbByte_leases (s : State) (pa b) : (s.setWbByte pa b).leases = s.leases := rfl
@[simp] theorem State.setWbByte_channels (s : State) (pa b) : (s.setWbByte pa b).channels = s.channels := rfl
@[simp] theorem State.setWbByte_windows (s : State) (pa b) : (s.setWbByte pa b).windows = s.windows := rfl
@[simp] theorem State.setWbByte_mgmt (s : State) (pa b) : (s.setWbByte pa b).mgmt = s.mgmt := rfl
@[simp] theorem State.setWbByte_clock (s : State) (pa b) : (s.setWbByte pa b).clock = s.clock := rfl
@[simp] theorem State.setWbByte_tick (s : State) (pa b) : (s.setWbByte pa b).tick = s.tick := rfl
@[simp] theorem State.setWbByte_cur (s : State) (pa b) : (s.setWbByte pa b).cur = s.cur := rfl
@[simp] theorem State.setWbByte_inputs (s : State) (pa b) : (s.setWbByte pa b).inputs = s.inputs := rfl
@[simp] theorem State.setWbByte_fresh (s : State) (pa b) : (s.setWbByte pa b).fresh = s.fresh := rfl

/-! ### setStream -/

@[simp] theorem State.setStream_mem (s : State) (x) : (s.setStream x).mem = s.mem := rfl
@[simp] theorem State.setStream_wb (s : State) (x) : (s.setStream x).wb = s.wb := rfl
@[simp] theorem State.setStream_walks (s : State) (x) : (s.setStream x).walks = s.walks := rfl
@[simp] theorem State.setStream_tags (s : State) (x) : (s.setStream x).tags = s.tags := rfl
@[simp] theorem State.setStream_stamps (s : State) (x) : (s.setStream x).stamps = s.stamps := rfl
@[simp] theorem State.setStream_held (s : State) (x) : (s.setStream x).held = s.held := rfl
@[simp] theorem State.setStream_shadows (s : State) (x) : (s.setStream x).shadows = s.shadows := rfl
@[simp] theorem State.setStream_poison (s : State) (x) : (s.setStream x).poison = s.poison := rfl
@[simp] theorem State.setStream_linePoison (s : State) (x) : (s.setStream x).linePoison = s.linePoison := rfl
@[simp] theorem State.setStream_ctxs (s : State) (x) : (s.setStream x).ctxs = s.ctxs := rfl
@[simp] theorem State.setStream_regions (s : State) (x) : (s.setStream x).regions = s.regions := rfl
@[simp] theorem State.setStream_launches (s : State) (x) : (s.setStream x).launches = s.launches := rfl
@[simp] theorem State.setStream_blocks (s : State) (x) : (s.setStream x).blocks = s.blocks := rfl
@[simp] theorem State.setStream_courses (s : State) (x) : (s.setStream x).courses = s.courses := rfl
@[simp] theorem State.setStream_lanes (s : State) (x) : (s.setStream x).lanes = s.lanes := rfl
@[simp] theorem State.setStream_copies (s : State) (x) : (s.setStream x).copies = s.copies := rfl
@[simp] theorem State.setStream_ops (s : State) (x) : (s.setStream x).ops = s.ops := rfl
@[simp] theorem State.setStream_opcache (s : State) (x) : (s.setStream x).opcache = s.opcache := rfl
@[simp] theorem State.setStream_icache (s : State) (x) : (s.setStream x).icache = s.icache := rfl
@[simp] theorem State.setStream_cores (s : State) (x) : (s.setStream x).cores = s.cores := rfl
@[simp] theorem State.setStream_quarters (s : State) (x) : (s.setStream x).quarters = s.quarters := rfl
@[simp] theorem State.setStream_clusters (s : State) (x) : (s.setStream x).clusters = s.clusters := rfl
@[simp] theorem State.setStream_attempts (s : State) (x) : (s.setStream x).attempts = s.attempts := rfl
@[simp] theorem State.setStream_queues (s : State) (x) : (s.setStream x).queues = s.queues := rfl
@[simp] theorem State.setStream_leases (s : State) (x) : (s.setStream x).leases = s.leases := rfl
@[simp] theorem State.setStream_channels (s : State) (x) : (s.setStream x).channels = s.channels := rfl
@[simp] theorem State.setStream_windows (s : State) (x) : (s.setStream x).windows = s.windows := rfl
@[simp] theorem State.setStream_mgmt (s : State) (x) : (s.setStream x).mgmt = s.mgmt := rfl
@[simp] theorem State.setStream_clock (s : State) (x) : (s.setStream x).clock = s.clock := rfl
@[simp] theorem State.setStream_tick (s : State) (x) : (s.setStream x).tick = s.tick := rfl
@[simp] theorem State.setStream_cur (s : State) (x) : (s.setStream x).cur = s.cur := rfl
@[simp] theorem State.setStream_inputs (s : State) (x) : (s.setStream x).inputs = s.inputs := rfl
@[simp] theorem State.setStream_fresh (s : State) (x) : (s.setStream x).fresh = s.fresh := rfl

/-! ### hold -/

@[simp] theorem State.hold_mem (s : State) (e) : (s.hold e).mem = s.mem := rfl
@[simp] theorem State.hold_wb (s : State) (e) : (s.hold e).wb = s.wb := rfl
@[simp] theorem State.hold_walks (s : State) (e) : (s.hold e).walks = s.walks := rfl
@[simp] theorem State.hold_tags (s : State) (e) : (s.hold e).tags = s.tags := rfl
@[simp] theorem State.hold_stamps (s : State) (e) : (s.hold e).stamps = s.stamps := rfl
@[simp] theorem State.hold_stream (s : State) (e) : (s.hold e).stream = s.stream := rfl
@[simp] theorem State.hold_shadows (s : State) (e) : (s.hold e).shadows = s.shadows := rfl
@[simp] theorem State.hold_poison (s : State) (e) : (s.hold e).poison = s.poison := rfl
@[simp] theorem State.hold_linePoison (s : State) (e) : (s.hold e).linePoison = s.linePoison := rfl
@[simp] theorem State.hold_ctxs (s : State) (e) : (s.hold e).ctxs = s.ctxs := rfl
@[simp] theorem State.hold_regions (s : State) (e) : (s.hold e).regions = s.regions := rfl
@[simp] theorem State.hold_launches (s : State) (e) : (s.hold e).launches = s.launches := rfl
@[simp] theorem State.hold_blocks (s : State) (e) : (s.hold e).blocks = s.blocks := rfl
@[simp] theorem State.hold_courses (s : State) (e) : (s.hold e).courses = s.courses := rfl
@[simp] theorem State.hold_lanes (s : State) (e) : (s.hold e).lanes = s.lanes := rfl
@[simp] theorem State.hold_copies (s : State) (e) : (s.hold e).copies = s.copies := rfl
@[simp] theorem State.hold_ops (s : State) (e) : (s.hold e).ops = s.ops := rfl
@[simp] theorem State.hold_opcache (s : State) (e) : (s.hold e).opcache = s.opcache := rfl
@[simp] theorem State.hold_icache (s : State) (e) : (s.hold e).icache = s.icache := rfl
@[simp] theorem State.hold_cores (s : State) (e) : (s.hold e).cores = s.cores := rfl
@[simp] theorem State.hold_quarters (s : State) (e) : (s.hold e).quarters = s.quarters := rfl
@[simp] theorem State.hold_clusters (s : State) (e) : (s.hold e).clusters = s.clusters := rfl
@[simp] theorem State.hold_attempts (s : State) (e) : (s.hold e).attempts = s.attempts := rfl
@[simp] theorem State.hold_queues (s : State) (e) : (s.hold e).queues = s.queues := rfl
@[simp] theorem State.hold_leases (s : State) (e) : (s.hold e).leases = s.leases := rfl
@[simp] theorem State.hold_channels (s : State) (e) : (s.hold e).channels = s.channels := rfl
@[simp] theorem State.hold_windows (s : State) (e) : (s.hold e).windows = s.windows := rfl
@[simp] theorem State.hold_mgmt (s : State) (e) : (s.hold e).mgmt = s.mgmt := rfl
@[simp] theorem State.hold_clock (s : State) (e) : (s.hold e).clock = s.clock := rfl
@[simp] theorem State.hold_tick (s : State) (e) : (s.hold e).tick = s.tick := rfl
@[simp] theorem State.hold_cur (s : State) (e) : (s.hold e).cur = s.cur := rfl
@[simp] theorem State.hold_inputs (s : State) (e) : (s.hold e).inputs = s.inputs := rfl
@[simp] theorem State.hold_fresh (s : State) (e) : (s.hold e).fresh = s.fresh := rfl

/-! ### poisonDown -/

@[simp] theorem State.poisonDown_mem (s : State) (ln) : (s.poisonDown ln).mem = s.mem := rfl
@[simp] theorem State.poisonDown_wb (s : State) (ln) : (s.poisonDown ln).wb = s.wb := rfl
@[simp] theorem State.poisonDown_walks (s : State) (ln) : (s.poisonDown ln).walks = s.walks := rfl
@[simp] theorem State.poisonDown_tags (s : State) (ln) : (s.poisonDown ln).tags = s.tags := rfl
@[simp] theorem State.poisonDown_stamps (s : State) (ln) : (s.poisonDown ln).stamps = s.stamps := rfl
@[simp] theorem State.poisonDown_held (s : State) (ln) : (s.poisonDown ln).held = s.held := rfl
@[simp] theorem State.poisonDown_stream (s : State) (ln) : (s.poisonDown ln).stream = s.stream := rfl
@[simp] theorem State.poisonDown_shadows (s : State) (ln) : (s.poisonDown ln).shadows = s.shadows := rfl
@[simp] theorem State.poisonDown_linePoison (s : State) (ln) : (s.poisonDown ln).linePoison = s.linePoison := rfl
@[simp] theorem State.poisonDown_ctxs (s : State) (ln) : (s.poisonDown ln).ctxs = s.ctxs := rfl
@[simp] theorem State.poisonDown_regions (s : State) (ln) : (s.poisonDown ln).regions = s.regions := rfl
@[simp] theorem State.poisonDown_launches (s : State) (ln) : (s.poisonDown ln).launches = s.launches := rfl
@[simp] theorem State.poisonDown_blocks (s : State) (ln) : (s.poisonDown ln).blocks = s.blocks := rfl
@[simp] theorem State.poisonDown_courses (s : State) (ln) : (s.poisonDown ln).courses = s.courses := rfl
@[simp] theorem State.poisonDown_lanes (s : State) (ln) : (s.poisonDown ln).lanes = s.lanes := rfl
@[simp] theorem State.poisonDown_copies (s : State) (ln) : (s.poisonDown ln).copies = s.copies := rfl
@[simp] theorem State.poisonDown_ops (s : State) (ln) : (s.poisonDown ln).ops = s.ops := rfl
@[simp] theorem State.poisonDown_opcache (s : State) (ln) : (s.poisonDown ln).opcache = s.opcache := rfl
@[simp] theorem State.poisonDown_icache (s : State) (ln) : (s.poisonDown ln).icache = s.icache := rfl
@[simp] theorem State.poisonDown_cores (s : State) (ln) : (s.poisonDown ln).cores = s.cores := rfl
@[simp] theorem State.poisonDown_quarters (s : State) (ln) : (s.poisonDown ln).quarters = s.quarters := rfl
@[simp] theorem State.poisonDown_clusters (s : State) (ln) : (s.poisonDown ln).clusters = s.clusters := rfl
@[simp] theorem State.poisonDown_attempts (s : State) (ln) : (s.poisonDown ln).attempts = s.attempts := rfl
@[simp] theorem State.poisonDown_queues (s : State) (ln) : (s.poisonDown ln).queues = s.queues := rfl
@[simp] theorem State.poisonDown_leases (s : State) (ln) : (s.poisonDown ln).leases = s.leases := rfl
@[simp] theorem State.poisonDown_channels (s : State) (ln) : (s.poisonDown ln).channels = s.channels := rfl
@[simp] theorem State.poisonDown_windows (s : State) (ln) : (s.poisonDown ln).windows = s.windows := rfl
@[simp] theorem State.poisonDown_mgmt (s : State) (ln) : (s.poisonDown ln).mgmt = s.mgmt := rfl
@[simp] theorem State.poisonDown_clock (s : State) (ln) : (s.poisonDown ln).clock = s.clock := rfl
@[simp] theorem State.poisonDown_tick (s : State) (ln) : (s.poisonDown ln).tick = s.tick := rfl
@[simp] theorem State.poisonDown_cur (s : State) (ln) : (s.poisonDown ln).cur = s.cur := rfl
@[simp] theorem State.poisonDown_inputs (s : State) (ln) : (s.poisonDown ln).inputs = s.inputs := rfl
@[simp] theorem State.poisonDown_fresh (s : State) (ln) : (s.poisonDown ln).fresh = s.fresh := rfl

/-! ### forgetLine -/

@[simp] theorem State.forgetLine_mem (s : State) (ln) : (s.forgetLine ln).mem = s.mem := rfl
@[simp] theorem State.forgetLine_walks (s : State) (ln) : (s.forgetLine ln).walks = s.walks := rfl
@[simp] theorem State.forgetLine_stamps (s : State) (ln) : (s.forgetLine ln).stamps = s.stamps := rfl
@[simp] theorem State.forgetLine_shadows (s : State) (ln) : (s.forgetLine ln).shadows = s.shadows := rfl
@[simp] theorem State.forgetLine_poison (s : State) (ln) : (s.forgetLine ln).poison = s.poison := rfl
@[simp] theorem State.forgetLine_ctxs (s : State) (ln) : (s.forgetLine ln).ctxs = s.ctxs := rfl
@[simp] theorem State.forgetLine_regions (s : State) (ln) : (s.forgetLine ln).regions = s.regions := rfl
@[simp] theorem State.forgetLine_launches (s : State) (ln) : (s.forgetLine ln).launches = s.launches := rfl
@[simp] theorem State.forgetLine_blocks (s : State) (ln) : (s.forgetLine ln).blocks = s.blocks := rfl
@[simp] theorem State.forgetLine_courses (s : State) (ln) : (s.forgetLine ln).courses = s.courses := rfl
@[simp] theorem State.forgetLine_lanes (s : State) (ln) : (s.forgetLine ln).lanes = s.lanes := rfl
@[simp] theorem State.forgetLine_copies (s : State) (ln) : (s.forgetLine ln).copies = s.copies := rfl
@[simp] theorem State.forgetLine_ops (s : State) (ln) : (s.forgetLine ln).ops = s.ops := rfl
@[simp] theorem State.forgetLine_opcache (s : State) (ln) : (s.forgetLine ln).opcache = s.opcache := rfl
@[simp] theorem State.forgetLine_icache (s : State) (ln) : (s.forgetLine ln).icache = s.icache := rfl
@[simp] theorem State.forgetLine_cores (s : State) (ln) : (s.forgetLine ln).cores = s.cores := rfl
@[simp] theorem State.forgetLine_quarters (s : State) (ln) : (s.forgetLine ln).quarters = s.quarters := rfl
@[simp] theorem State.forgetLine_clusters (s : State) (ln) : (s.forgetLine ln).clusters = s.clusters := rfl
@[simp] theorem State.forgetLine_attempts (s : State) (ln) : (s.forgetLine ln).attempts = s.attempts := rfl
@[simp] theorem State.forgetLine_queues (s : State) (ln) : (s.forgetLine ln).queues = s.queues := rfl
@[simp] theorem State.forgetLine_leases (s : State) (ln) : (s.forgetLine ln).leases = s.leases := rfl
@[simp] theorem State.forgetLine_channels (s : State) (ln) : (s.forgetLine ln).channels = s.channels := rfl
@[simp] theorem State.forgetLine_windows (s : State) (ln) : (s.forgetLine ln).windows = s.windows := rfl
@[simp] theorem State.forgetLine_mgmt (s : State) (ln) : (s.forgetLine ln).mgmt = s.mgmt := rfl
@[simp] theorem State.forgetLine_clock (s : State) (ln) : (s.forgetLine ln).clock = s.clock := rfl
@[simp] theorem State.forgetLine_tick (s : State) (ln) : (s.forgetLine ln).tick = s.tick := rfl
@[simp] theorem State.forgetLine_cur (s : State) (ln) : (s.forgetLine ln).cur = s.cur := rfl
@[simp] theorem State.forgetLine_inputs (s : State) (ln) : (s.forgetLine ln).inputs = s.inputs := rfl
@[simp] theorem State.forgetLine_fresh (s : State) (ln) : (s.forgetLine ln).fresh = s.fresh := rfl

/-! ### Items of other collections -/

@[simp] theorem State.modCourse_block (s : State) (c f) (n) : (s.modCourse c f).block n = s.block n := rfl
@[simp] theorem State.modCourse_launch (s : State) (c f) (n) : (s.modCourse c f).launch n = s.launch n := rfl
@[simp] theorem State.modCourse_region (s : State) (c f) (n) : (s.modCourse c f).region n = s.region n := rfl
@[simp] theorem State.modCourse_ctx (s : State) (c f) (n) : (s.modCourse c f).ctx n = s.ctx n := rfl
@[simp] theorem State.modLane_block (s : State) (q f) (n) : (s.modLane q f).block n = s.block n := rfl
@[simp] theorem State.modLane_launch (s : State) (q f) (n) : (s.modLane q f).launch n = s.launch n := rfl
@[simp] theorem State.modLane_region (s : State) (q f) (n) : (s.modLane q f).region n = s.region n := rfl
@[simp] theorem State.modLane_ctx (s : State) (q f) (n) : (s.modLane q f).ctx n = s.ctx n := rfl
@[simp] theorem State.modBlock_course (s : State) (b f) (n) : (s.modBlock b f).course n = s.course n := rfl
@[simp] theorem State.modBlock_lane (s : State) (b f) (n) : (s.modBlock b f).lane n = s.lane n := rfl
@[simp] theorem State.modBlock_launch (s : State) (b f) (n) : (s.modBlock b f).launch n = s.launch n := rfl
@[simp] theorem State.modBlock_region (s : State) (b f) (n) : (s.modBlock b f).region n = s.region n := rfl
@[simp] theorem State.modBlock_ctx (s : State) (b f) (n) : (s.modBlock b f).ctx n = s.ctx n := rfl
@[simp] theorem State.modLaunch_course (s : State) (l f) (n) : (s.modLaunch l f).course n = s.course n := rfl
@[simp] theorem State.modLaunch_lane (s : State) (l f) (n) : (s.modLaunch l f).lane n = s.lane n := rfl
@[simp] theorem State.modLaunch_block (s : State) (l f) (n) : (s.modLaunch l f).block n = s.block n := rfl
@[simp] theorem State.modLaunch_region (s : State) (l f) (n) : (s.modLaunch l f).region n = s.region n := rfl
@[simp] theorem State.modLaunch_ctx (s : State) (l f) (n) : (s.modLaunch l f).ctx n = s.ctx n := rfl
@[simp] theorem State.modRegion_course (s : State) (r f) (n) : (s.modRegion r f).course n = s.course n := rfl
@[simp] theorem State.modRegion_lane (s : State) (r f) (n) : (s.modRegion r f).lane n = s.lane n := rfl
@[simp] theorem State.modRegion_block (s : State) (r f) (n) : (s.modRegion r f).block n = s.block n := rfl
@[simp] theorem State.modRegion_launch (s : State) (r f) (n) : (s.modRegion r f).launch n = s.launch n := rfl
@[simp] theorem State.modRegion_ctx (s : State) (r f) (n) : (s.modRegion r f).ctx n = s.ctx n := rfl
@[simp] theorem State.modCtx_course (s : State) (x f) (n) : (s.modCtx x f).course n = s.course n := rfl
@[simp] theorem State.modCtx_lane (s : State) (x f) (n) : (s.modCtx x f).lane n = s.lane n := rfl
@[simp] theorem State.modCtx_block (s : State) (x f) (n) : (s.modCtx x f).block n = s.block n := rfl
@[simp] theorem State.modCtx_launch (s : State) (x f) (n) : (s.modCtx x f).launch n = s.launch n := rfl
@[simp] theorem State.modCtx_region (s : State) (x f) (n) : (s.modCtx x f).region n = s.region n := rfl
@[simp] theorem State.modCluster_course (s : State) (k f) (n) : (s.modCluster k f).course n = s.course n := rfl
@[simp] theorem State.modCluster_lane (s : State) (k f) (n) : (s.modCluster k f).lane n = s.lane n := rfl
@[simp] theorem State.modCluster_block (s : State) (k f) (n) : (s.modCluster k f).block n = s.block n := rfl
@[simp] theorem State.modCluster_launch (s : State) (k f) (n) : (s.modCluster k f).launch n = s.launch n := rfl
@[simp] theorem State.modCluster_region (s : State) (k f) (n) : (s.modCluster k f).region n = s.region n := rfl
@[simp] theorem State.modCluster_ctx (s : State) (k f) (n) : (s.modCluster k f).ctx n = s.ctx n := rfl
@[simp] theorem State.modCore_course (s : State) (k f) (n) : (s.modCore k f).course n = s.course n := rfl
@[simp] theorem State.modCore_lane (s : State) (k f) (n) : (s.modCore k f).lane n = s.lane n := rfl
@[simp] theorem State.modCore_block (s : State) (k f) (n) : (s.modCore k f).block n = s.block n := rfl
@[simp] theorem State.modCore_launch (s : State) (k f) (n) : (s.modCore k f).launch n = s.launch n := rfl
@[simp] theorem State.modCore_region (s : State) (k f) (n) : (s.modCore k f).region n = s.region n := rfl
@[simp] theorem State.modCore_ctx (s : State) (k f) (n) : (s.modCore k f).ctx n = s.ctx n := rfl
@[simp] theorem State.modQueue_course (s : State) (q f) (n) : (s.modQueue q f).course n = s.course n := rfl
@[simp] theorem State.modQueue_lane (s : State) (q f) (n) : (s.modQueue q f).lane n = s.lane n := rfl
@[simp] theorem State.modQueue_block (s : State) (q f) (n) : (s.modQueue q f).block n = s.block n := rfl
@[simp] theorem State.modQueue_launch (s : State) (q f) (n) : (s.modQueue q f).launch n = s.launch n := rfl
@[simp] theorem State.modQueue_region (s : State) (q f) (n) : (s.modQueue q f).region n = s.region n := rfl
@[simp] theorem State.modQueue_ctx (s : State) (q f) (n) : (s.modQueue q f).ctx n = s.ctx n := rfl
@[simp] theorem State.modChannel_course (s : State) (h f) (n) : (s.modChannel h f).course n = s.course n := rfl
@[simp] theorem State.modChannel_lane (s : State) (h f) (n) : (s.modChannel h f).lane n = s.lane n := rfl
@[simp] theorem State.modChannel_block (s : State) (h f) (n) : (s.modChannel h f).block n = s.block n := rfl
@[simp] theorem State.modChannel_launch (s : State) (h f) (n) : (s.modChannel h f).launch n = s.launch n := rfl
@[simp] theorem State.modChannel_region (s : State) (h f) (n) : (s.modChannel h f).region n = s.region n := rfl
@[simp] theorem State.modChannel_ctx (s : State) (h f) (n) : (s.modChannel h f).ctx n = s.ctx n := rfl
@[simp] theorem State.setMemByte_course (s : State) (pa b) (n) : (s.setMemByte pa b).course n = s.course n := rfl
@[simp] theorem State.setMemByte_lane (s : State) (pa b) (n) : (s.setMemByte pa b).lane n = s.lane n := rfl
@[simp] theorem State.setMemByte_block (s : State) (pa b) (n) : (s.setMemByte pa b).block n = s.block n := rfl
@[simp] theorem State.setMemByte_launch (s : State) (pa b) (n) : (s.setMemByte pa b).launch n = s.launch n := rfl
@[simp] theorem State.setMemByte_region (s : State) (pa b) (n) : (s.setMemByte pa b).region n = s.region n := rfl
@[simp] theorem State.setMemByte_ctx (s : State) (pa b) (n) : (s.setMemByte pa b).ctx n = s.ctx n := rfl
@[simp] theorem State.setWbByte_course (s : State) (pa b) (n) : (s.setWbByte pa b).course n = s.course n := rfl
@[simp] theorem State.setWbByte_lane (s : State) (pa b) (n) : (s.setWbByte pa b).lane n = s.lane n := rfl
@[simp] theorem State.setWbByte_block (s : State) (pa b) (n) : (s.setWbByte pa b).block n = s.block n := rfl
@[simp] theorem State.setWbByte_launch (s : State) (pa b) (n) : (s.setWbByte pa b).launch n = s.launch n := rfl
@[simp] theorem State.setWbByte_region (s : State) (pa b) (n) : (s.setWbByte pa b).region n = s.region n := rfl
@[simp] theorem State.setWbByte_ctx (s : State) (pa b) (n) : (s.setWbByte pa b).ctx n = s.ctx n := rfl
@[simp] theorem State.setStream_course (s : State) (x) (n) : (s.setStream x).course n = s.course n := rfl
@[simp] theorem State.setStream_lane (s : State) (x) (n) : (s.setStream x).lane n = s.lane n := rfl
@[simp] theorem State.setStream_block (s : State) (x) (n) : (s.setStream x).block n = s.block n := rfl
@[simp] theorem State.setStream_launch (s : State) (x) (n) : (s.setStream x).launch n = s.launch n := rfl
@[simp] theorem State.setStream_region (s : State) (x) (n) : (s.setStream x).region n = s.region n := rfl
@[simp] theorem State.setStream_ctx (s : State) (x) (n) : (s.setStream x).ctx n = s.ctx n := rfl
@[simp] theorem State.hold_course (s : State) (e) (n) : (s.hold e).course n = s.course n := rfl
@[simp] theorem State.hold_lane (s : State) (e) (n) : (s.hold e).lane n = s.lane n := rfl
@[simp] theorem State.hold_block (s : State) (e) (n) : (s.hold e).block n = s.block n := rfl
@[simp] theorem State.hold_launch (s : State) (e) (n) : (s.hold e).launch n = s.launch n := rfl
@[simp] theorem State.hold_region (s : State) (e) (n) : (s.hold e).region n = s.region n := rfl
@[simp] theorem State.hold_ctx (s : State) (e) (n) : (s.hold e).ctx n = s.ctx n := rfl
@[simp] theorem State.poisonDown_course (s : State) (ln) (n) : (s.poisonDown ln).course n = s.course n := rfl
@[simp] theorem State.poisonDown_lane (s : State) (ln) (n) : (s.poisonDown ln).lane n = s.lane n := rfl
@[simp] theorem State.poisonDown_block (s : State) (ln) (n) : (s.poisonDown ln).block n = s.block n := rfl
@[simp] theorem State.poisonDown_launch (s : State) (ln) (n) : (s.poisonDown ln).launch n = s.launch n := rfl
@[simp] theorem State.poisonDown_region (s : State) (ln) (n) : (s.poisonDown ln).region n = s.region n := rfl
@[simp] theorem State.poisonDown_ctx (s : State) (ln) (n) : (s.poisonDown ln).ctx n = s.ctx n := rfl
@[simp] theorem State.forgetLine_course (s : State) (ln) (n) : (s.forgetLine ln).course n = s.course n := rfl
@[simp] theorem State.forgetLine_lane (s : State) (ln) (n) : (s.forgetLine ln).lane n = s.lane n := rfl
@[simp] theorem State.forgetLine_block (s : State) (ln) (n) : (s.forgetLine ln).block n = s.block n := rfl
@[simp] theorem State.forgetLine_launch (s : State) (ln) (n) : (s.forgetLine ln).launch n = s.launch n := rfl
@[simp] theorem State.forgetLine_region (s : State) (ln) (n) : (s.forgetLine ln).region n = s.region n := rfl
@[simp] theorem State.forgetLine_ctx (s : State) (ln) (n) : (s.forgetLine ln).ctx n = s.ctx n := rfl

end Sys2Proof.Machine
end

