-- ==== Sys2Proof/Laws/Step.lean ====
section
/-!
SUPPORT. Laws of the step: what it can do, said once, and what the cycle around it leaves.
-/

namespace Sys2Proof.Machine

/-- A next state is the cycle after the next state of what was performed. -/
theorem afterNext_next {f : State → State} {o : Host.Outcome State Fault Refusal} {t : State} (h : afterNext f o = .next t) :
    ∃ u, o = .next u ∧ t = f u := by
  cases o with
  | next u => exact ⟨u, rfl, (Host.Outcome.next.inj h).symm⟩
  | fault r => cases h
  | refused r => cases h

theorem step_next {s t : State} (h : step s = .next t) : ∃ u, act s = .next u ∧ t = State.tickOver s.clock s.tick u := afterNext_next h

theorem step_of_act {s u : State} (h : act s = .next u) : step s = .next (State.tickOver s.clock s.tick u) := by
  simp only [step, h, afterNext]

/-- Everything that one cycle can perform: the agent that the state names issues, the outside event that comes first is taken
where no answer is due, one of the actions that may come is, or nothing is. -/
theorem act_cases (s : State) :
    (s.cur ≠ .none ∧ act s = perform s (.issue s.cur))
      ∨ (∃ i rest, s.cur = .none ∧ s.inputs = i :: rest ∧ s.urgent = [] ∧ act s = exec i { s with inputs := rest })
      ∨ (∃ a ∈ s.enabled, s.cur = .none ∧ (s.inputs = [] ∨ s.urgent ≠ []) ∧ act s = perform s a)
      ∨ (s.cur = .none ∧ s.enabled = [] ∧ act s = .next s) := by
  unfold act
  split
  · exact .inl ⟨‹_›, rfl⟩
  · have hc : s.cur = .none := Classical.not_not.mp ‹_›
    split
    · exact .inr (.inl ⟨_, _, hc, ‹_›, ‹_›, rfl⟩)
    · rename_i hi
      split
      · exact .inr (.inr (.inr ⟨hc, ‹_›, rfl⟩))
      · rename_i a as he
        refine .inr (.inr (.inl ⟨_, ?_, hc, ?_, rfl⟩))
        · have hk : Config.order s.tick % (as.length + 1) < (a :: as).length := Nat.mod_lt _ (Nat.succ_pos _)
          rw [he, List.getD_eq_getElem _ _ hk]
          exact List.getElem_mem hk
        · cases h : s.inputs with
          | nil => exact .inl rfl
          | cons i rest => exact .inr fun hu => hi i rest h hu

/-- Everything that an issue can do: take a trap that is due, take the fault of its fetch, or execute what was fetched, with
its accounts. -/
theorem issueStep_cases (s : State) :
    (∃ e u, s.beginIssue.dueTrap = some (e, u) ∧ issueStep s = u.settleExn s.pc 0 e)
      ∨ (∃ e, s.beginIssue.dueTrap = none ∧ s.beginIssue.fetch = .error e ∧ issueStep s = s.beginIssue.settleExn s.pc 0 e)
      ∨ (∃ i u, s.beginIssue.dueTrap = none ∧ s.beginIssue.fetch = .ok (i, u)
          ∧ issueStep s = afterNext (s.afterIssue i) (exec i u)) := by
  simp only [issueStep]
  split
  · exact .inl ⟨_, _, ‹_›, rfl⟩
  · split
    · exact .inr (.inl ⟨_, ‹_›, ‹_›, rfl⟩)
    · exact .inr (.inr ⟨_, _, ‹_›, ‹_›, rfl⟩)

/-- What the meters count of an action changes nothing else. -/
theorem account_served (s : State) (a : Action) (t : State) : ∃ l, s.account a t = { t with served := l } := by
  unfold State.account
  split
  · exact ⟨t.served, rfl⟩
  · exact ⟨_, rfl⟩

theorem Bytes.account {s t : State} (h : Bytes t) (a : Action) : Bytes (s.account a t) := by
  obtain ⟨l, e⟩ := account_served s a t
  exact e ▸ h.of_eq rfl rfl rfl rfl

/-! ### The cycle around a step -/

@[simp] theorem tickOver_clock (c k : Nat) (s : State) : (State.tickOver c k s).clock = c + 1 := rfl
@[simp] theorem tickOver_tick (c k : Nat) (s : State) : (State.tickOver c k s).tick = k + 1 := rfl
@[simp] theorem tickOver_cur (c k : Nat) (s : State) : (State.tickOver c k s).cur = .none := rfl

/-- The clock advances by one cycle at every step. -/
theorem step_clock {s t : State} (h : step s = .next t) : t.clock = s.clock + 1 ∧ t.tick = s.tick + 1 ∧ t.cur = .none := by
  obtain ⟨u, -, rfl⟩ := step_next h
  exact ⟨rfl, rfl, rfl⟩

/-- The accounts of an issue leave memory. -/
theorem Bytes.beginIssue {s : State} (h : Bytes s) : Bytes s.beginIssue := by
  unfold State.beginIssue
  split
  · dsimp only
    split <;> exact h.of_eq rfl rfl rfl rfl
  · exact h.of_eq rfl rfl rfl rfl
  · exact h

end Sys2Proof.Machine
end

