-- ==== Sys2Proof/Laws/Vector.lean ====
section
/-!
SUPPORT. Laws of vector instructions: what the write of a result leaves in registers and latches.
-/

namespace Sys2Proof.Machine

/-! ### Sets of lanes -/

theorem mem_maskList {m : Mask} {l : Nat} : l ∈ Mask.list m ↔ l < 96 ∧ m.has l = true := by
  simp [Mask.list]

theorem maskList_lt {m : Mask} {l : Nat} (h : l ∈ Mask.list m) : l < 96 := (mem_maskList.mp h).1

theorem maskOne_has (k l : Nat) (h : l < 96) : (Mask.one k).has l = decide (l = k) := by
  simp only [Mask.one, Mask.has, BitVec.getLsbD_ofNat, Nat.one_shiftLeft, Nat.testBit_two_pow]
  by_cases e : l = k
  · simp [e, e ▸ h]
  · simp [e, h, Ne.symm e]

/-- The lanes of several values. -/
theorem foldl_one_has (vals : List (Nat × β)) (m : Mask) {l : Nat} (h : l < 96) :
    (vals.foldl (fun m x => m ||| Mask.one x.1) m).has l = (m.has l || vals.any fun x => x.1 == l) := by
  induction vals generalizing m with
  | nil => simp
  | cons e vals ih =>
    rw [List.foldl_cons, ih]
    have : (m ||| Mask.one e.1).has l = (m.has l || (e.1 == l)) := by
      show (m ||| Mask.one e.1).getLsbD l = _
      rw [BitVec.getLsbD_or]
      have := maskOne_has e.1 l h
      simp only [Mask.has] at this ⊢
      rw [this]
      by_cases c : l = e.1
      · simp [c]
      · simp [c, Ne.symm c]
    rw [this, List.any_cons, Bool.or_assoc]

/-- What a key reads as after one write for each lane of a set. -/
theorem get_foldl_lanes [DecidableEq α] (d : α) (ls : List Nat) (c : Cells α) (base : Nat) (f : Nat → α) (l : Nat) :
    Cells.get d ((ls.map fun x => (x, f x)).foldl (fun c x => Cells.set d c (base + x.1) x.2) c) (base + l)
      = if l ∈ ls then f l else Cells.get d c (base + l) := by
  induction ls generalizing c with
  | nil => simp
  | cons a ls ih =>
    rw [List.map_cons, List.foldl_cons, ih]
    by_cases h : l ∈ ls
    · simp [h]
    · simp only [h, if_false, Cells.get_set, Nat.add_left_cancel_iff, List.mem_cons, or_false]
      by_cases e : l = a
      · simp [e]
      · simp [e]

/-! ### Registers -/

theorem State.orFlags_regs {s : State} (h : s.hasAgent = true) (f : BitVec 6) :
    (s.orFlags f).regs = { s.regs with flags := s.regs.flags ||| f } := State.modRegs_regs h _

theorem State.modCourse_regs (s : State) (c : Nat) (f : Course → Course) (h : ∀ x, (f x).regs = x.regs) :
    (s.modCourse c f).regs = s.regs := by
  by_cases hl : c < s.courses.length
  · simp only [State.regs, State.modCourse_cur, State.modCourse_lane, State.modCourse_course s c _ f hl]
    split
    · rfl
    · split
      · rename_i e
        rw [h, e]
      · rfl
    · rfl
  · rw [State.modCourse_absent s f hl]

/-- The vector registers of the agent after a write, code words aside. -/
theorem State.setV_regs {s : State} (h : s.hasAgent = true) (r : Nat) (vals : List (Nat × Lane32)) :
    ∃ vst, (s.setV r vals).regs
      = { s.regs with v := vals.foldl (fun c x => Cells.set 0 c (96 * r + x.1) x.2) s.regs.v, vst := vst } := by
  simp only [State.setV]
  split
  · split
    · exact ⟨_, State.modRegs_regs h _⟩
    · exact ⟨_, (State.modCourse_regs _ _ (fun x => { x with dirty := Cells.set false x.dirty r true }) fun _ => rfl).trans
        (State.modRegs_regs h _)⟩
  · exact ⟨_, State.modRegs_regs h _⟩

/-- What a lane reads as after a write of a register in the lanes of a list. -/
theorem State.setV_vreg {s : State} (h : s.hasAgent = true) (r : Nat) (ls : List Nat) (f : Nat → Lane32) (l : Nat) :
    (s.setV r (ls.map fun x => (x, f x))).vreg r l = if l ∈ ls then f l else s.vreg r l := by
  obtain ⟨_, e⟩ := State.setV_regs h r (ls.map fun x => (x, f x))
  simp only [State.vreg, e, get_foldl_lanes]

theorem State.setV64_vpair {s : State} (h : s.hasAgent = true) (r : Nat) (ls : List Nat) (hl : ∀ l ∈ ls, l < 96)
    (f : Nat → Word) {l : Nat} (h96 : l < 96) :
    (s.setV64 r (ls.map fun x => (x, f x))).vpair r l = if l ∈ ls then f l else s.vpair r l := by
  have hm : ∀ g : Word → Lane32, ((ls.map fun x => (x, f x)).map fun x => (x.1, g x.2)) = ls.map fun x => (x, g (f x)) := by
    intro g; simp
  have h1 : (s.setV r (ls.map fun x => (x, (f x).extractLsb' 0 32))).hasAgent = true := by simp [h]
  have lo : (s.setV64 r (ls.map fun x => (x, f x))).vreg r l = if l ∈ ls then (f l).extractLsb' 0 32 else s.vreg r l := by
    simp only [State.setV64, hm]
    have hf := State.setV_frame (s.setV r (ls.map fun x => (x, (f x).extractLsb' 0 32))) (r + 1)
      (ls.map fun x => (x, (f x).extractLsb' 32 32)) (by simpa using hl)
    rw [hf.vregs r (by simp) l h96, State.setV_vreg h]
  have hi : (s.setV64 r (ls.map fun x => (x, f x))).vreg (r + 1) l
      = if l ∈ ls then (f l).extractLsb' 32 32 else s.vreg (r + 1) l := by
    simp only [State.setV64, hm]
    rw [State.setV_vreg h1]
    have hf := State.setV_frame s r (ls.map fun x => (x, (f x).extractLsb' 0 32)) (by simpa using hl)
    rw [hf.vregs (r + 1) (by simp) l h96]
  simp only [State.vpair, lo, hi]
  split
  · have : ∀ x : Word, x.extractLsb' 32 32 ++ x.extractLsb' 0 32 = x := fun x => by
      apply BitVec.eq_of_getLsbD_eq
      intro i hi
      simp only [BitVec.getLsbD_append, BitVec.getLsbD_extractLsb']
      by_cases c : i < 32
      · simp [c]
      · have : i - 32 < 32 := by omega
        simp [c, this, show 32 + (i - 32) = i by omega]
    exact this _
  · rfl

/-! ### Latches -/

theorem State.pushLatch_regs {s : State} (h : s.hasAgent = true) (vals : List (Nat × Lane32)) :
    (s.pushLatch vals).regs = { s.regs with bl := (⟨vals.foldl (fun m x => m ||| Mask.one x.1) 0,
      vals.foldl (fun c x => Cells.set 0 c x.1 x.2) []⟩ :: s.regs.bl).take 4 } := State.modRegs_regs h _

theorem State.pushLatch_older {s : State} (h : s.hasAgent = true) (vals : List (Nat × Lane32)) {k : Nat} (hk : k < 3) :
    (s.pushLatch vals).latch (k + 1) = s.latch k := by
  simp only [State.latch, State.pushLatch_regs h, List.getD_eq_getElem?_getD, List.getElem?_take,
    List.getElem?_cons_succ, if_pos (show k + 1 < 4 by omega)]

theorem State.pushLatch_valid {s : State} (h : s.hasAgent = true) (vals : List (Nat × Lane32)) {l : Nat} (hl : l < 96) :
    ((s.pushLatch vals).latch 0).valid.has l = vals.any fun x => x.1 == l := by
  simp only [State.latch, State.pushLatch_regs h, List.getD_eq_getElem?_getD, List.take_succ_cons, List.getElem?_cons_zero,
    Option.getD_some]
  rw [foldl_one_has _ _ hl]
  simp [Mask.has]

theorem State.pushLatch_val {s : State} (h : s.hasAgent = true) (ls : List Nat) (f : Nat → Lane32) {l : Nat} (hl : l ∈ ls) :
    Cells.get 0 ((s.pushLatch (ls.map fun x => (x, f x))).latch 0).val l = f l := by
  simp only [State.latch, State.pushLatch_regs h, List.getD_eq_getElem?_getD, List.take_succ_cons, List.getElem?_cons_zero,
    Option.getD_some]
  have := get_foldl_lanes (0 : Lane32) ls [] 0 f l
  simpa [hl] using this

/-! ### Whole instructions -/

theorem regs_latch {s t : State} (h : t.regs.bl = s.regs.bl) (k : Nat) : t.latch k = s.latch k := by
  simp only [State.latch, h]

theorem windowStep_regs (s : State) (pc reads wss) : (s.windowStep pc reads wss).regs = s.regs := by
  simp only [State.windowStep]
  split
  · exact State.modCourse_regs _ _ _ fun _ => rfl
  · rfl

theorem State.setPc_regs (s : State) (v : Word) : (s.setPc v).regs = s.regs := by
  simp only [State.setPc]
  split
  · rfl
  · exact State.modCourse_regs _ _ _ fun _ => rfl
  · rename_i q hc
    by_cases hl : q < s.lanes.length
    · simp [State.regs, hc, State.modLane_lane _ _ _ _ hl]
    · rw [State.modLane_absent _ _ hl]

/-- An instruction that is ready enters its work with every register as it was. -/
theorem entering_regs (s : State) (i : Instr) : (s.entering i).regs = s.regs := (s.entering_same i).1

/-- What the write of a vector result leaves. -/
theorem State.commit_wrote {s : State} (h : s.hasAgent = true) {r : VRes} {x : Dest} {m : Mask} {f : Nat → Nat}
    (hc : r.carry = none) (hv : r.vals = (Mask.list m).map fun l => (l, f l)) (hw : r.ws = x.ws)
    (hd : (x.wide = false ∧ r.dst = .reg x.d) ∨ (x.wide = true ∧ (r.dst = .pair x.d ∨ r.dst = .two x.d))) :
    Frame x.touch s (s.commit r) ∧ (s.commit r).hasAgent = true ∧ (s.commit r).wait = s.wait
      ∧ WroteV s (s.commit r) x m (fun l => BitVec.ofNat 64 (f l))
      ∧ (s.commit r).regs.flags = s.regs.flags ||| r.fl := by
  have h32 : (r.vals.map fun e => (e.1, BitVec.ofNat 32 e.2)) = (Mask.list m).map fun l => (l, BitVec.ofNat 32 (f l)) := by
    rw [hv]; simp
  have h64 : (r.vals.map fun e => (e.1, BitVec.ofNat 64 e.2)) = (Mask.list m).map fun l => (l, BitVec.ofNat 64 (f l)) := by
    rw [hv]; simp
  have lt : ∀ l ∈ Mask.list m, l < 96 := fun l hl => maskList_lt hl
  have ltm : ∀ {β : Type} (g : Nat → β), ∀ e ∈ (Mask.list m).map (fun l => (l, g l)), e.1 < 96 := by
    intro β g e he
    simp only [List.mem_map] at he
    obtain ⟨a, ha, rfl⟩ := he
    exact lt a ha
  have any_eq : ∀ {β : Type} (g : Nat → β) (l : Nat), l < 96 →
      ((Mask.list m).map (fun l => (l, g l))).any (fun x => x.1 == l) = m.has l := by
    intro β g l hl
    rw [Bool.eq_iff_iff]
    simp only [List.any_eq_true, List.mem_map]
    constructor
    · rintro ⟨y, ⟨a, ha, rfl⟩, e⟩
      have : a = l := by simpa using e
      exact this ▸ (mem_maskList.mp ha).2
    · intro e
      exact ⟨_, ⟨l, mem_maskList.mpr ⟨hl, e⟩, rfl⟩, by simp⟩
  -- a register's value and its push, in general
  have key : ∀ (u : State) (vals : List (Nat × Lane32)), u.hasAgent = true → Frame { v := x.regs } s u → u.wait = s.wait →
      u.regs.bl = s.regs.bl → u.regs.flags = s.regs.flags →
      Frame x.touch s ((u.pushLatch vals).orFlags r.fl) ∧ ((u.pushLatch vals).orFlags r.fl).hasAgent = true
        ∧ ((u.pushLatch vals).orFlags r.fl).wait = s.wait
        ∧ ((u.pushLatch vals).orFlags r.fl).regs.flags = s.regs.flags ||| r.fl
        ∧ (∀ k, ((u.pushLatch vals).orFlags r.fl).latch k = (u.pushLatch vals).latch k)
        ∧ (∀ k < 3, (u.pushLatch vals).latch (k + 1) = s.latch k)
        ∧ (∀ n l, ((u.pushLatch vals).orFlags r.fl).vreg n l = u.vreg n l) := by
    intro u vals hu hf hwt hb hfl
    have hp : (u.pushLatch vals).hasAgent = true := by simp [hu]
    have he := State.orFlags_regs hp r.fl
    refine ⟨((hf.trans (u.pushLatch_frame vals)).trans (State.orFlags_frame _ r.fl)).mono (by simp [Touch.join, Dest.touch])
      (by simp [Touch.join, Dest.touch]) (by simp [Touch.join, Dest.touch]) (by simp [Touch.join, Dest.touch])
      (by simp [Touch.join, Dest.touch]) (by simp [Touch.join, Dest.touch]), by simp [hu], by simp [hwt], ?_, ?_, ?_, ?_⟩
    · rw [he, State.pushLatch_regs hu]
      simp [hfl]
    · intro k
      simp only [State.latch, he]
    · intro k hk
      rw [State.pushLatch_older hu _ hk]
      exact regs_latch hb k
    · intro n l
      simp only [State.vreg, he, State.pushLatch_regs hu]
  rcases hd with ⟨hx, hd⟩ | ⟨hx, hd⟩
  · -- one register, or none
    simp only [State.commit, hc, hd, hw, h32]
    by_cases hws : x.ws = true
    · simp only [hws, if_true]
      obtain ⟨a, b, c, d, e, o, v⟩ := key s ((Mask.list m).map fun l => (l, BitVec.ofNat 32 (f l))) h
        (Frame.refl _ s) rfl rfl rfl
      refine ⟨a, b, c, ⟨by simp [hws], by simp [hx], ?_, ?_, fun k hk => by rw [e, o k hk]⟩, d⟩
      · intro l hl
        rw [e, State.pushLatch_valid h _ hl, any_eq _ l hl, hx]
        simp
      · intro _ l hl hm
        rw [e, State.pushLatch_val h _ _ (mem_maskList.mpr ⟨hl, hm⟩)]
        simp
    · simp only [hws, Bool.false_eq_true, if_false]
      have hu : (s.setV x.d ((Mask.list m).map fun l => (l, BitVec.ofNat 32 (f l)))).hasAgent = true := by simp [h]
      obtain ⟨_, er⟩ := State.setV_regs h x.d ((Mask.list m).map fun l => (l, BitVec.ofNat 32 (f l)))
      have hf := State.setV_frame s x.d ((Mask.list m).map fun l => (l, BitVec.ofNat 32 (f l))) (ltm _)
      obtain ⟨a, b, c, d, e, o, v⟩ := key _ ((Mask.list m).map fun l => (l, BitVec.ofNat 32 (f l))) hu
        (by simpa [Dest.regs, hx, hws] using hf) (by simp) (by rw [er]) (by rw [er])
      refine ⟨a, b, c, ⟨?_, by simp [hx], ?_, ?_, fun k hk => by rw [e, o k hk]⟩, d⟩
      · intro _ _ l hl
        rw [v, State.setV_vreg h]
        by_cases hm : m.has l = true
        · simp [mem_maskList, hm, hl]
        · simp [mem_maskList, hm]
      · intro l hl
        rw [e, State.pushLatch_valid hu _ hl, any_eq _ l hl, hx]
        simp
      · intro _ l hl hm
        rw [e, State.pushLatch_val hu _ _ (mem_maskList.mpr ⟨hl, hm⟩)]
        simp
  · -- a pair
    have hu : (s.setV64 x.d ((Mask.list m).map fun l => (l, BitVec.ofNat 64 (f l)))).hasAgent = true := by simp [h]
    have hf := State.setV64_frame s x.d ((Mask.list m).map fun l => (l, BitVec.ofNat 64 (f l))) (ltm _)
    have goal : s.commit r = ((s.setV64 x.d ((Mask.list m).map fun l => (l, BitVec.ofNat 64 (f l)))).pushLatch []).orFlags r.fl := by
      rcases hd with hd | hd <;> simp only [State.commit, hc, hd, h64]
    rw [goal]
    obtain ⟨a, b, c, d, e, o, v⟩ := key _ [] hu (by simpa [Dest.regs, hx] using hf) (by simp) (hf.latches rfl) (hf.flags rfl)
    refine ⟨a, b, c, ⟨by simp [hx], ?_, ?_, by simp [hx], fun k hk => by rw [e, o k hk]⟩, d⟩
    · intro _ l hl
      have : (((s.setV64 x.d ((Mask.list m).map fun l => (l, BitVec.ofNat 64 (f l)))).pushLatch []).orFlags r.fl).vpair x.d l
          = (s.setV64 x.d ((Mask.list m).map fun l => (l, BitVec.ofNat 64 (f l)))).vpair x.d l := by
        simp only [State.vpair, v]
      rw [this, State.setV64_vpair h x.d _ lt _ hl]
      by_cases hm : m.has l = true
      · simp [mem_maskList, hm, hl]
      · simp [mem_maskList, hm]
    · intro l hl
      rw [e, State.pushLatch_valid hu _ hl, hx]
      simp

/-- A vector instruction whose effect is a result of the acted lanes. -/
theorem vecInstr_done {i : Instr} {eff : State → Except Exn VRes} {s : State} {r : VRes} {x : Dest} {m : Mask} {f : Nat → Nat}
    (h : Ready i s) (he : eff (s.entering i) = .ok r) (hc : r.carry = none)
    (hv : r.vals = (Mask.list m).map fun l => (l, f l)) (hw : r.ws = x.ws)
    (hd : (x.wide = false ∧ r.dst = .reg x.d) ∨ (x.wide = true ∧ (r.dst = .pair x.d ∨ r.dst = .two x.d))) :
    ∃ t, vecInstr i eff s = .next t ∧ Done i x.touch s t ∧ WroteV s t x m (fun l => BitVec.ofNat 64 (f l))
      ∧ t.regs.flags = s.regs.flags ||| r.fl := by
  have ha : (s.entering i).hasAgent = true := by rw [s.entering_hasAgent, h.agent]
  obtain ⟨hf, hg, hwt, wv, fl⟩ := State.commit_wrote ha hc hv hw hd
  have hbody : (eff (s.entering i)).map (fun r => ((s.entering i).commit r).windowStep s.pc r.reads [r.ws])
      = .ok (((s.entering i).commit r).windowStep s.pc r.reads [r.ws]) := by rw [he]; rfl
  have hfw := (hf.trans (((s.entering i).commit r).windowStep_frame {} s.pc r.reads [r.ws])).mono (b := x.touch)
    (by simp [Touch.join]) (by simp [Touch.join]) (by simp [Touch.join]) (by simp [Touch.join])
    (by simp [Touch.join]) (by simp [Touch.join])
  obtain ⟨hn, hdn⟩ := seqInstr_done h (body := fun t => (eff t).map fun r => (t.commit r).windowStep s.pc r.reads [r.ws]) hbody
    hfw (by simp [hg, ha]) (by simp [hwt])
  refine ⟨_, hn, hdn, ?_, ?_⟩
  · have hr : ∀ u : State, ((u.windowStep s.pc r.reads [r.ws]).setPc (s.nextPc i)).regs = u.regs := fun u => by
      rw [State.setPc_regs, windowStep_regs]
    have hv' : ∀ (u : State) n l, ((u.windowStep s.pc r.reads [r.ws]).setPc (s.nextPc i)).vreg n l = u.vreg n l := fun u n l => by
      simp only [State.vreg, hr]
    have hl' : ∀ (u : State) k, ((u.windowStep s.pc r.reads [r.ws]).setPc (s.nextPc i)).latch k = u.latch k := fun u k => by
      simp only [State.latch, hr]
    have hes : ∀ n l, (s.entering i).vreg n l = s.vreg n l := s.entering_vreg i
    refine ⟨?_, ?_, ?_, ?_, ?_⟩
    · intro a b l hl
      rw [hv', wv.reg a b l hl, hes]
    · intro a l hl
      have := wv.pair a l hl
      simp only [State.vpair, hv', hes] at this ⊢
      exact this
    · intro l hl
      rw [hl', wv.valid l hl]
    · intro a l hl hm
      rw [hl', wv.latch a l hl hm]
    · intro k hk
      rw [hl', wv.older k hk]
      exact regs_latch (by rw [entering_regs]) k
  · rw [State.setPc_regs, windowStep_regs, fl, entering_regs]

/-- Latches valid in every acted lane raise nothing (R124). -/
theorem State.latchesOk.check {s : State} {m : Mask} {fs : List (BitVec 12)} (h : s.latchesOk m fs) : s.latchCheck m fs = .ok () := by
  have hz : (latchReads fs).foldl (fun b i => b ||| (m &&& ~~~(s.latch i).valid)) (0 : Mask) = 0 := by
    have hz : ∀ i ∈ latchReads fs, m &&& ~~~(s.latch i).valid = 0 := by
      intro i hi
      simp only [latchReads, List.mem_filterMap] at hi
      obtain ⟨f, hf, e⟩ := hi
      split at e
      · rename_i hb
        injection e with e
        subst e
        apply BitVec.eq_of_getLsbD_eq
        intro l hl
        have := h f hf hb l hl
        simp only [Mask.has] at this
        by_cases c : m.getLsbD l = true
        · simp [this c]
        · simp [c]
      · cases e
    generalize latchReads fs = is at hz
    induction is with
    | nil => rfl
    | cons a is ih =>
      rw [List.foldl_cons, hz a (List.mem_cons_self ..)]
      have : (0 : Mask) ||| 0 = 0 := by decide
      rw [this]
      exact ih fun i hi => hz i (List.mem_cons_of_mem _ hi)
  simp only [State.latchCheck, hz]
  rfl

/-- Latches are as they were where the work of an instruction begins. -/
theorem State.latchesOk.entering {s : State} {m : Mask} {fs : List (BitVec 12)} (h : s.latchesOk m fs) (i : Instr) :
    (s.entering i).latchesOk m fs := by
  intro f hf hb l hl hm
  have : (s.entering i).latch (f.toNat % 4) = s.latch (f.toNat % 4) := regs_latch (by rw [entering_regs]) _
  rw [this]
  exact h f hf hb l hl hm

theorem State.entering_vsrc (s : State) (i : Instr) (t : ElemTy) (f : BitVec 12) (l : Nat) :
    (s.entering i).vsrc t f l = s.vsrc t f l := by
  simp only [State.vsrc, State.latch, State.vpair, State.vreg, entering_regs]

/-- An element-wise V3 instruction. -/
theorem v3_done {i : Instr} {s : State} {o : V3} {eff : State → Except Exn VRes} (ta tb : ElemTy) (unary : Bool)
    (f : Nat → Nat → Nat → Nat → Nat × BitVec 6) (he : eff = v3Effect o ta tb unary f) (h : Ready i s)
    (hl : s.latchesOk (s.acted o.g) (if unary then [o.a] else [o.a, o.b])) :
    let res (l : Nat) := f l (s.vsrc ta o.a l) (if unary then 0 else s.vsrc tb o.b l) (s.vreg o.d.toNat l).toNat
    ∃ t, vecInstr i eff s = .next t ∧ Done i (destOf o.ty o.d o.ws).touch s t
      ∧ WroteV s t (destOf o.ty o.d o.ws) (s.acted o.g) (fun l => BitVec.ofNat 64 (res l).1)
      ∧ t.regs.flags = s.regs.flags ||| ((Mask.list (s.acted o.g)).map fun l => (l, res l)).foldl (fun a e => a ||| e.2.2) 0 := by
  intro res
  have hck := (hl.entering i).check
  refine vecInstr_done (r := ⟨s.acted o.g, o.ws, vdst o.ty o.d, ((Mask.list (s.acted o.g)).map fun l => (l, res l)).map fun e => (e.1, e.2.1),
    ((Mask.list (s.acted o.g)).map fun l => (l, res l)).foldl (fun a e => a ||| e.2.2) 0,
    latchReads (if unary then [o.a] else [o.a, o.b]), none⟩) h ?_ rfl (m := s.acted o.g) (x := destOf o.ty o.d o.ws)
    (f := fun l => (res l).1) (by simp) rfl ?_
  · rw [he]
    simp only [v3Effect, s.entering_acted, hck, State.entering_vsrc, State.entering_vreg]
    rfl
  · simp only [destOf, vdst]
    by_cases c : is64 o.ty = true <;> simp [c]

end Sys2Proof.Machine
end

