-- ==== Sys2Proof/Tests/Slice0.lean ====
section
/-!
SUPPORT. Tests: ill-formed terms that the checks refuse, words written out from the spec's encodings, single steps on small
states, and for every statement a state and operands that meet its hypotheses.
-/

namespace Sys2Proof.Tests

open Machine

set_option Elab.async false

/-! ### Decoding -/

/-- Every word of the list decodes to the instruction beside it, which is well formed. -/
def reads (l : List (BitVec 128 × Instr)) : Bool :=
  l.all fun e => (match decode e.1 with | .ok i => i == e.2 | .error _ => false) && Instr.wellFormed e.2

/-- The spec's own encoding examples (R82 to R86, after R150 and R159, R193, R196, R198, R205, R368). -/
theorem test_decode_examples : reads [
    (0x0000018010040100, .vadd ⟨false, ⟨0, false⟩, false, 4, 2, 3, 0, .i32, 0⟩),
    (0x0000018010044D00, .vadd ⟨false, ⟨3, true⟩, false, 4, 2, 3, 0, .i32, 0⟩),
    (0x040004C000008188, .vfmul ⟨false, ⟨0, false⟩, true, 0, 0x800, 9, 0, .f32, 0⟩),
    (0x00120000_1404A200_0000C008_020003C2, .pair ⟨0, ⟨0, false⟩, false, 4, 2, 3, .i32, 0⟩ ⟨0x22, ⟨0, false⟩, false, 9, 5, 0x800, .f32, 0⟩),
    (0x00000000_000003F8, .pguard 0x3F8),
    (0x0000010061440004, .sadd ⟨4, 5, .reg 6, .i64, 0⟩),
    (0xFFFFFFF8_8000010001440005, .sadd ⟨4, 5, .imm 0xFFFFFFF8, .i64, 0⟩),
    (0x0000010861470048, .sset ⟨7, 5, .reg 6, .i64, 2⟩)] = true := by decide +kernel

theorem test_decode_examples2 : reads [
    (0x0000001A_00E1000000080099, .brv ⟨true, 8, 1, false, 3, 0, false, some 26⟩),
    (0x00C00000000000A0, .regang ⟨false, 0, 0, false, 3, 0, false, none⟩),
    (0x0E00FFFFFFFC00A4, .loopd ⟨false, 0xFFFFFFFC, 0, false, 0, 7, false, none⟩),
    (0x00000000000000A8, .nop ⟨false, 0, 0, false, 0, 0, false, none⟩),
    (0x0010018010030154, .vcmp ⟨false, ⟨0, false⟩, false, 3, 2, 3, 2, .i32, 0⟩),
    (0x4_040001801008018D, .vfma ⟨⟨0, false⟩, false, 8, 2, 3, 4, 0, .f32, 0, 0⟩),
    (0x87200100100801E0, .vcvt ⟨false, ⟨0, false⟩, false, 8, 2, 2, 4, .e4m3, 8⟩),
    (0x1000_04000000300A0215, .vred ⟨⟨0, false⟩, false, 10, 6, 0, 0, 0, .f32, 0, 1⟩)] = true := by decide +kernel

theorem test_decode_examples3 : reads [
    (0x0003000000000380, .svc ⟨false, 0, 0, 0, 0, 12⟩), (0x0001400000000384, .trap ⟨false, 0, 0, 0, 0, 5⟩),
    (0x0000000000000388, .tret ⟨false, 0, 0, 0, 0, 0⟩), (0x000000080004038C, .srd ⟨false, 4, 0, 0, 2, 0⟩),
    (0x0000004001400390, .swr ⟨false, 0, 5, 0, 0x10, 0⟩), (0x0000C00000000394, .brk ⟨false, 0, 0, 0, 0, 3⟩),
    (0x0000000001000398, .ckill ⟨false, 0, 4, 0, 0, 0⟩), (0x000000040000039C, .ckpt ⟨false, 0, 0, 0, 1, 0⟩)] = true := by
  decide +kernel

/-- Words of S3 and SI (R75): OPC 9:2, D 21:16, A 27:22, B 33:28, SUB 38:34, TY 42:39; bit 63 with IMM32 at 95:64. -/
theorem test_decode_scalar1 : reads [
    (0x20430004, .sadd ⟨3, 1, .reg 2, .i32, 0⟩),
    (0x20430008, .ssub ⟨3, 1, .reg 2, .i32, 0⟩),
    (0x2043000C, .smul ⟨3, 1, .reg 2, .i32, 0⟩),
    (0x20430010, .smulh ⟨3, 1, .reg 2, .i32, 0⟩),
    (0x20430014, .sdiv ⟨3, 1, .reg 2, .i32, 0⟩),
    (0x20430018, .srem ⟨3, 1, .reg 2, .i32, 0⟩),
    (0x2043001C, .sand ⟨3, 1, .reg 2, .i32, 0⟩),
    (0x20430020, .sor ⟨3, 1, .reg 2, .i32, 0⟩),
    (0x20430024, .sxor ⟨3, 1, .reg 2, .i32, 0⟩),
    (0x20430028, .sshl ⟨3, 1, .reg 2, .i32, 0⟩),
    (0x2043002C, .sshr ⟨3, 1, .reg 2, .i32, 0⟩),
    (0x20430030, .srot ⟨3, 1, .reg 2, .i32, 0⟩),
    (0x20430034, .smin ⟨3, 1, .reg 2, .i32, 0⟩),
    (0x20430038, .smax ⟨3, 1, .reg 2, .i32, 0⟩),
    (0x2003003C, .sbitc ⟨3, 0, .reg 2, .i32, 0⟩),
    (0x20030040, .smov ⟨3, 0, .reg 2, .i32, 0⟩)] = true := by decide +kernel

theorem test_decode_scalar2 : reads [
    (0x58000000000030045, .smovi ⟨3, 0, .imm 5, .i32, 0⟩),
    (0x20430048, .sset ⟨3, 1, .reg 2, .i32, 0⟩),
    (0x2043004C, .ssel ⟨3, 1, .reg 2, .i32, 0⟩),
    (0x20430050, .saddr ⟨3, 1, .reg 2, .i32, 0⟩),
    (0x10020030054, .sext ⟨3, 0, .reg 2, .i64, 0⟩),
    (0x10020430058, .sbfx ⟨3, 1, .reg 2, .i64, 0⟩),
    (0x2043005C, .sbfi ⟨3, 1, .reg 2, .i32, 0⟩),
    (0x58000010000030061, .sldp ⟨3, 0, .imm 5, .i64, 0⟩),
    (0x4300E0, .ejctl ⟨3, 1, .reg 0, .i32, 0⟩),
    (0x301EC, .ffrd ⟨3, 0, .reg 0, .i32, 0⟩),
    (0x4001F0, .ffclr ⟨0, 1, .reg 0, .i32, 0⟩)] = true := by decide +kernel

/-- Words of BR (R76): OFF 47:16, P 51:48, N 52, TOK 56:54, S 62:57, U 63. -/
theorem test_decode_flow : reads [
    (0x400080, .jmp ⟨false, 64, 0, false, 0, 0, false, none⟩),
    (0xA00000000000084, .jmpr ⟨false, 0, 0, false, 0, 5, false, none⟩),
    (0x400088, .call ⟨false, 64, 0, false, 0, 0, false, none⟩),
    (0xA0000000000008C, .callr ⟨false, 0, 0, false, 0, 5, false, none⟩),
    (0x90, .ret ⟨false, 0, 0, false, 0, 0, false, none⟩),
    (0xA03000000400094, .brs ⟨false, 64, 3, false, 0, 5, false, none⟩),
    (0x83000000400098, .brv ⟨false, 64, 3, false, 2, 0, false, none⟩),
    (0x300000040009C, .bru ⟨false, 64, 3, false, 0, 0, false, none⟩),
    (0x800000000000A0, .regang ⟨false, 0, 0, false, 2, 0, false, none⟩),
    (0xA000000004000A4, .loopd ⟨false, 64, 0, false, 0, 5, false, none⟩),
    (0xA8, .nop ⟨false, 0, 0, false, 0, 0, false, none⟩)] = true := by decide +kernel

/-- Words of S3 in the G class (R161): PRED 13:10, PN 14, D 21:16, A 27:22, B 33:28. -/
theorem test_decode_predicate : reads [
    (0x408344C0, .plog ⟨false, ⟨1, true⟩, 3, 2, 4, 0⟩),
    (0x8344C4, .pmov ⟨false, ⟨1, true⟩, 3, 2, 0, 0⟩),
    (0x8344C8, .pcnt ⟨false, ⟨1, true⟩, 3, 2, 0, 0⟩),
    (0x8344CC, .pfirst ⟨false, ⟨1, true⟩, 3, 2, 0, 0⟩),
    (0x8344D0, .part ⟨false, ⟨1, true⟩, 3, 2, 0, 0⟩),
    (0x8344D4, .gset ⟨false, ⟨1, true⟩, 3, 2, 0, 0⟩),
    (0x8344D8, .grd ⟨false, ⟨1, true⟩, 3, 2, 0, 0⟩),
    (0x44DC, .lexit ⟨false, ⟨1, true⟩, 0, 0, 0, 0⟩)] = true := by decide +kernel

/-- Words of V3 (R74): D 26:16, A 38:27, B 50:39, SUB 55:51, TY 59:56, MOD 63:60. -/
theorem test_decode_vector31 : reads [
    (0x20010080500, .vadd ⟨false, ⟨1, false⟩, false, 8, 2, 4, 0, .i32, 0⟩),
    (0x20010080504, .vsub ⟨false, ⟨1, false⟩, false, 8, 2, 4, 0, .i32, 0⟩),
    (0x20010080508, .vmul ⟨false, ⟨1, false⟩, false, 8, 2, 4, 0, .i32, 0⟩),
    (0x2001008050C, .vmulh ⟨false, ⟨1, false⟩, false, 8, 2, 4, 0, .i32, 0⟩),
    (0x20010080514, .vdiv ⟨false, ⟨1, false⟩, false, 8, 2, 4, 0, .i32, 0⟩),
    (0x20010080518, .vrem ⟨false, ⟨1, false⟩, false, 8, 2, 4, 0, .i32, 0⟩),
    (0x30002001008051C, .vand ⟨false, ⟨1, false⟩, false, 8, 2, 4, 0, .n64, 0⟩),
    (0x300020010080520, .vor ⟨false, ⟨1, false⟩, false, 8, 2, 4, 0, .n64, 0⟩),
    (0x300020010080524, .vxor ⟨false, ⟨1, false⟩, false, 8, 2, 4, 0, .n64, 0⟩),
    (0x20010080528, .vshl ⟨false, ⟨1, false⟩, false, 8, 2, 4, 0, .i32, 0⟩),
    (0x2001008052C, .vshr ⟨false, ⟨1, false⟩, false, 8, 2, 4, 0, .i32, 0⟩),
    (0x20010080530, .vrot ⟨false, ⟨1, false⟩, false, 8, 2, 4, 0, .i32, 0⟩),
    (0x20010080534, .vmin ⟨false, ⟨1, false⟩, false, 8, 2, 4, 0, .i32, 0⟩),
    (0x20010080538, .vmax ⟨false, ⟨1, false⟩, false, 8, 2, 4, 0, .i32, 0⟩),
    (0x1008053C, .vabs ⟨false, ⟨1, false⟩, false, 8, 2, 0, 0, .i32, 0⟩),
    (0x10080540, .vbitc ⟨false, ⟨1, false⟩, false, 8, 2, 0, 0, .i32, 0⟩)] = true := by decide +kernel

theorem test_decode_vector32 : reads [
    (0xC00020010080550, .vadds ⟨false, ⟨1, false⟩, false, 8, 2, 4, 0, .i16x2, 0⟩),
    (0x20010080554, .vcmp ⟨false, ⟨1, false⟩, false, 8, 2, 4, 0, .i32, 0⟩),
    (0x30000001008055C, .vmov ⟨false, ⟨1, false⟩, false, 8, 2, 0, 0, .n64, 0⟩),
    (0x300000010080564, .vbrd ⟨false, ⟨1, false⟩, false, 8, 2, 0, 0, .n64, 0⟩),
    (0xE00020010080568, .vext ⟨false, ⟨1, false⟩, false, 8, 2, 4, 0, .b32, 0⟩),
    (0x8056C, .vsys ⟨false, ⟨1, false⟩, false, 8, 0, 0, 0, .i32, 0⟩),
    (0x400020010080580, .vfadd ⟨false, ⟨1, false⟩, false, 8, 2, 4, 0, .f32, 0⟩),
    (0x400020010080584, .vfsub ⟨false, ⟨1, false⟩, false, 8, 2, 4, 0, .f32, 0⟩),
    (0x400020010080588, .vfmul ⟨false, ⟨1, false⟩, false, 8, 2, 4, 0, .f32, 0⟩),
    (0x400020010080590, .vfmin ⟨false, ⟨1, false⟩, false, 8, 2, 4, 0, .f32, 0⟩),
    (0x400020010080594, .vfmax ⟨false, ⟨1, false⟩, false, 8, 2, 4, 0, .f32, 0⟩),
    (0x400000010080598, .vfclass ⟨false, ⟨1, false⟩, false, 8, 2, 0, 0, .f32, 0⟩),
    (0x40002001008059C, .vfdiv ⟨false, ⟨1, false⟩, false, 8, 2, 4, 0, .f32, 0⟩),
    (0x4000000100805A0, .vfsqrt ⟨false, ⟨1, false⟩, false, 8, 2, 0, 0, .f32, 0⟩),
    (0x4000000100805A4, .vfrcp ⟨false, ⟨1, false⟩, false, 8, 2, 0, 0, .f32, 0⟩),
    (0x4000000100805A8, .vfrsq ⟨false, ⟨1, false⟩, false, 8, 2, 0, 0, .f32, 0⟩)] = true := by decide +kernel

theorem test_decode_vector33 : reads [
    (0x4000000100805AC, .vfexp2 ⟨false, ⟨1, false⟩, false, 8, 2, 0, 0, .f32, 0⟩),
    (0x4000000100805B0, .vflog2 ⟨false, ⟨1, false⟩, false, 8, 2, 0, 0, .f32, 0⟩),
    (0x4000000100805B4, .vfsin ⟨false, ⟨1, false⟩, false, 8, 2, 0, 0, .f32, 0⟩),
    (0x4000000100805B8, .vfcos ⟨false, ⟨1, false⟩, false, 8, 2, 0, 0, .f32, 0⟩),
    (0x4000000100805BC, .vftanh ⟨false, ⟨1, false⟩, false, 8, 2, 0, 0, .f32, 0⟩),
    (0x4000200100805C0, .vfscale ⟨false, ⟨1, false⟩, false, 8, 2, 4, 0, .f32, 0⟩),
    (0x4000000100805C4, .vfrnd ⟨false, ⟨1, false⟩, false, 8, 2, 0, 0, .f32, 0⟩),
    (0x100805E0, .vcvt ⟨false, ⟨1, false⟩, false, 8, 2, 0, 0, .i32, 0⟩),
    (0xC000200100805E4, .vpack ⟨false, ⟨1, false⟩, false, 8, 2, 4, 0, .i16x2, 0⟩),
    (0xC000000100805E8, .vunpk ⟨false, ⟨1, false⟩, false, 8, 2, 0, 0, .i16x2, 0⟩)] = true := by decide +kernel

/-- Words of V4 (R74): V3 with C 75:64 and IMM20 95:76. -/
theorem test_decode_vector4 : reads [
    (0x60000020010080511, .vmad ⟨⟨1, false⟩, false, 8, 2, 4, 6, 0, .i32, 0, 0⟩),
    (0x60008000010080545, .vbfx ⟨⟨1, false⟩, false, 8, 2, 0, 6, 1, .i32, 0, 0⟩),
    (0x60308000010080549, .vbfi ⟨⟨1, false⟩, false, 8, 2, 0, 6, 1, .n64, 0, 0⟩),
    (0x1006010002001008054D, .vaddc ⟨⟨1, false⟩, false, 8, 2, 4, 6, 0, .n32, 0, 1⟩),
    (0x60300020010080559, .vsel ⟨⟨1, false⟩, false, 8, 2, 4, 6, 0, .n64, 0, 0⟩),
    (0x1006040002001008058D, .vfma ⟨⟨1, false⟩, false, 8, 2, 4, 6, 0, .f32, 0, 1⟩),
    (0x100605000200100805C9, .vdot2 ⟨⟨1, false⟩, false, 8, 2, 4, 6, 0, .bf16x2, 0, 1⟩),
    (0x100607000200100805CD, .vdot4 ⟨⟨1, false⟩, false, 8, 2, 4, 6, 0, .e4m3, 0, 1⟩),
    (0x10000300020010080601, .vshfl ⟨⟨1, false⟩, false, 8, 2, 4, 0, 0, .n64, 0, 1⟩),
    (0x10060300020010080605, .vshfx ⟨⟨1, false⟩, false, 8, 2, 4, 6, 0, .n64, 0, 1⟩),
    (0x10060308000010080609, .vbcast ⟨⟨1, false⟩, false, 8, 2, 0, 6, 1, .n64, 0, 1⟩),
    (0x1000000000001008060D, .vvote ⟨⟨1, false⟩, false, 8, 2, 0, 0, 0, .i32, 0, 1⟩),
    (0x10000300000010080611, .vmatch ⟨⟨1, false⟩, false, 8, 2, 0, 0, 0, .n64, 0, 1⟩),
    (0x10000000000010080615, .vred ⟨⟨1, false⟩, false, 8, 2, 0, 0, 0, .i32, 0, 1⟩),
    (0x10000000000010080619, .vscan ⟨⟨1, false⟩, false, 8, 2, 0, 0, 0, .i32, 0, 1⟩),
    (0x1006030000001008061D, .vcmpr ⟨⟨1, false⟩, false, 8, 2, 0, 6, 0, .n64, 0, 1⟩)] = true := by decide +kernel

/-- Words of VI (R74): IMM32 95:64. -/
theorem test_decode_vectorImm : reads [
    (0x123456780200000000080561, .vmovi ⟨⟨1, false⟩, false, 8, 0, 0, .i64, 0, 305419896⟩)] = true := by decide +kernel

/-- Words of MEM (R77): D 26:16, BASE 32:27, SIZE 48:46, TY 52:49, SCOPE 57:55, OFF 86:67. -/
theorem test_decode_memory : reads [
    (0x800008800008080681, .ld ⟨⟨1, false⟩, 8, 1, 0, 0, 2, .f32, 0, 0, 0, 0, 0, 16, false⟩),
    (0x800008800008080685, .st ⟨⟨1, false⟩, 8, 1, 0, 0, 2, .f32, 0, 0, 0, 0, 0, 16, false⟩),
    (0x800004800008080289, .lds ⟨⟨0, false⟩, 8, 1, 0, 0, 2, .i64, 0, 0, 0, 0, 0, 16, false⟩),
    (0x80000480000808028D, .sts ⟨⟨0, false⟩, 8, 1, 0, 0, 2, .i64, 0, 0, 0, 0, 0, 16, false⟩),
    (0x800000800008080691, .atom ⟨⟨1, false⟩, 8, 1, 0, 0, 2, .i32, 0, 0, 0, 0, 0, 16, false⟩),
    (0x800000800008080295, .atoms ⟨⟨0, false⟩, 8, 1, 0, 0, 2, .i32, 0, 0, 0, 0, 0, 16, false⟩),
    (0x8000000000080006B1, .cpf ⟨⟨1, false⟩, 0, 1, 0, 0, 0, .i32, 0, 0, 0, 0, 0, 16, false⟩),
    (0x8000000000080006B5, .cwb ⟨⟨1, false⟩, 0, 1, 0, 0, 0, .i32, 0, 0, 0, 0, 0, 16, false⟩),
    (0x8000000000080006B9, .cinv ⟨⟨1, false⟩, 0, 1, 0, 0, 0, .i32, 0, 0, 0, 0, 0, 16, false⟩)] = true := by decide +kernel

/-- Words of CP (R79): DB 21:16, DAS 23:22, SB 29:24, SW 37:32, DSTR 43:38, SSTR 49:44, ROWS 61:50, ROWB 77:62, IDX 88:78, SUB 93:89, SCOPE 102:100. -/
theorem test_decode_copy : reads [
    (0x1000000008004091C60543029A, .cpy ⟨⟨0, false⟩, 3, 1, 5, 0, 6, 7, 9, 16, 32, 0, 0, .i32, 0, 1⟩),
    (0x1000010008004091C60543069E, .cpyg ⟨⟨1, false⟩, 3, 1, 5, 0, 6, 7, 9, 16, 32, 4, 0, .i32, 0, 1⟩)] = true := by decide +kernel

/-- Words of SYS (R80): D 21:16, A 27:22, B 33:28, X 45:34, IMM16 61:46. -/
theorem test_decode_system1 : reads [
    (0x302A0, .bseal ⟨false, 3, 0, 0, 0, 0⟩),
    (0x1C000000002A4, .bwait ⟨false, 0, 0, 0, 0, 7⟩),
    (0x204002A8, .swinit ⟨false, 0, 1, 2, 0, 0⟩),
    (0x2AC, .fence ⟨false, 0, 0, 0, 0, 0⟩),
    (0x2BC, .icinv ⟨false, 0, 0, 0, 0, 0⟩),
    (0x430304, .hgen ⟨false, 3, 1, 0, 0, 0⟩),
    (0x430318, .mstat ⟨false, 3, 1, 0, 0, 0⟩),
    (0x43031C, .msclr ⟨false, 3, 1, 0, 0, 0⟩),
    (0x320, .ocfence ⟨false, 0, 0, 0, 0, 0⟩),
    (0x420400340, .mkinit ⟨false, 0, 1, 2, 1, 0⟩),
    (0x20430344, .mkset ⟨false, 3, 1, 2, 0, 0⟩),
    (0x20430348, .mkadd ⟨false, 3, 1, 2, 0, 0⟩),
    (0x2043034C, .waitm ⟨false, 3, 1, 2, 0, 0⟩),
    (0x20430350, .swait ⟨false, 3, 1, 2, 0, 0⟩),
    (0x1C00000030354, .bar ⟨false, 3, 0, 0, 0, 7⟩),
    (0x1C00000030358, .bara ⟨false, 3, 0, 0, 0, 7⟩)] = true := by decide +kernel

theorem test_decode_system2 : reads [
    (0x2003035C, .barw ⟨false, 3, 0, 2, 0, 0⟩),
    (0x430360, .promote ⟨false, 3, 1, 0, 0, 0⟩),
    (0x430364, .clsrd ⟨false, 3, 1, 0, 0, 0⟩),
    (0x368, .yield ⟨false, 0, 0, 0, 0, 0⟩),
    (0x40036C, .sleep ⟨false, 0, 1, 0, 0, 0⟩),
    (0x1C00000000380, .svc ⟨false, 0, 0, 0, 0, 7⟩),
    (0x1C00000000384, .trap ⟨false, 0, 0, 0, 0, 7⟩),
    (0x388, .tret ⟨false, 0, 0, 0, 0, 0⟩),
    (0x3038C, .srd ⟨false, 3, 0, 0, 0, 0⟩),
    (0x800400390, .swr ⟨false, 0, 1, 0, 2, 0⟩),
    (0x1C00000000394, .brk ⟨false, 0, 0, 0, 0, 7⟩),
    (0x400398, .ckill ⟨false, 0, 1, 0, 0, 0⟩),
    (0x39C, .ckpt ⟨false, 0, 0, 0, 0, 0⟩)] = true := by decide +kernel

/-- Words of MX (R78): D 26:16, A 37:27, HA 41:38, HB 45:42, HC 49:46, TS 53:50, SUB 60:56, TY 64:61, S 74:69. -/
theorem test_decode_matrix : reads [
    (0x400000004000000302, .hset ⟨⟨0, false⟩, 0, 0, 1, 0, 0, 0, 0, 0, .i32, 0, 2, 0⟩),
    (0x40A01000401840070A, .mma ⟨⟨1, false⟩, 64, 3, 1, 0, 0, 4, 0, 0, .bf16x2, 0, 2, 0⟩),
    (0x40A010C8401840070E, .mmas ⟨⟨1, false⟩, 64, 3, 1, 2, 3, 4, 0, 0, .bf16x2, 0, 2, 0⟩),
    (0x400712, .mzero ⟨⟨1, false⟩, 64, 0, 0, 0, 0, 0, 0, 0, .i32, 0, 0, 0⟩),
    (0x40A010000018400716, .mcvt ⟨⟨1, false⟩, 64, 3, 0, 0, 0, 4, 0, 0, .bf16x2, 0, 2, 0⟩)] = true := by decide +kernel

/-- Reserved opcodes are read as such (R88); LEN = 0b11 is none (R68), nor is a nonzero reserved field (R81), a guard in an S
class instruction (R71), a TY that is reserved (R165), or an extension word that is not zero (R73). -/
theorem test_decode_refuses :
    reads [(0x0, .reservedOpcode 0), (0x3FC, .reservedOpcode 0x3FC)] = true
      ∧ decode 0x7 = .error .lenReserved ∧ decode (0x20430004 + 2 ^ 62) = .error .illegalOp
      ∧ decode (0x20430004 + 2 ^ 10) = .error .illegalOp ∧ decode (0x20430004 + 15 * 2 ^ 39) = .error .illegalOp
      ∧ decode (0x20430005 + 2 ^ 64) = .error .illegalOp
      ∧ decode 0x00120000_14042200_0000C008_020003C2 = .error .illegalPair := by decide +kernel

/-- The table's numbering of bits: a 64-bit row, and one with its operand word left out. -/
theorem test_tableWord : decodeTableWord 64 0x0000010061440004 = some (.sadd ⟨4, 5, .reg 6, .i64, 0⟩)
    ∧ decodeTableWord 96 0xFFFFFFF8_8000010001440005 = some (.sadd ⟨4, 5, .imm 0xFFFFFFF8, .i64, 0⟩) := by decide +kernel

/-! ### Ill-formed instructions -/

/-- Every term of the list is refused. -/
def refuses (l : List Instr) : Bool := l.all fun i => !Instr.wellFormed i

/-- Scalar and flow: a type, a SUB, a field that the entry has not, an immediate form, SMOVI with a register, SBITC with A, EJ
without its extension word, a loop counter that is s0 (R144, R151, R158). -/
theorem test_illFormed_scalar : refuses [
    .sadd ⟨3, 1, .reg 2, .f32, 0⟩, .sadd ⟨3, 1, .reg 2, .i32, 1⟩, .sbitc ⟨3, 1, .reg 2, .i32, 0⟩, .smovi ⟨3, 0, .reg 2, .i32, 0⟩,
    .sset ⟨3, 1, .reg 2, .i32, 6⟩, .ffrd ⟨3, 1, .reg 0, .i32, 0⟩, .jmp ⟨false, 4, 1, false, 0, 0, false, none⟩,
    .brs ⟨false, 4, 6, false, 0, 1, false, none⟩, .brv ⟨false, 4, 1, false, 0, 0, false, some 4⟩,
    .loopd ⟨false, 4, 0, false, 0, 0, false, none⟩, .nop ⟨false, 1, 0, false, 0, 0, false, none⟩] = true := by decide +kernel

/-- Predicates and vectors: a predicate beyond p15, a group destination g0, a type, a MOD, a latch with a 64-bit type, an odd
pair, a D under write-back suppression, a PAIR with one bank, and a reserved half (R72, R83, R160, R161, R166, R190). -/
theorem test_illFormed_vector :
    let g : Guard := ⟨0, false⟩
    refuses [
      .plog ⟨false, g, 16, 1, 2, 0⟩, .part ⟨false, g, 0, 1, 0, 0⟩, .lexit ⟨false, g, 1, 0, 0, 0⟩, .vadd ⟨false, g, false, 4, 2, 3, 0, .f32, 0⟩,
      .vand ⟨false, g, false, 4, 2, 3, 0, .n64, 8⟩, .vadd ⟨false, g, false, 4, 0x800, 2, 0, .i64, 0⟩, .vadd ⟨false, g, false, 3, 2, 4, 0, .i64, 0⟩,
      .vadd ⟨false, g, true, 4, 2, 3, 0, .i32, 0⟩, .vfadd ⟨false, g, false, 4, 2, 3, 0, .i32, 0⟩, .vmovi ⟨g, false, 4, 1, 0, .i32, 0, 5⟩,
      .vred ⟨g, false, 4, 2, 0, 0, 6, .i32, 0, 1⟩, .vcvt ⟨false, g, false, 4, 2, 4, 4, .e4m3, 0⟩,
      .pair ⟨0, g, false, 4, 2, 3, .i32, 0⟩ ⟨0x22, g, false, 8, 5, 6, .f32, 0⟩, .pair ⟨0x1C, g, false, 4, 2, 3, .i32, 0⟩ ⟨0x22, g, false, 9, 5, 6, .f32, 0⟩]
      = true := by decide +kernel

/-- Memory, system and matrix: a size, an order, a guarded LDS, a state register that there is not, one that is read only, a
barrier count above 16, an operand in an instruction that has none, a D in HSET (R77 to R80, R234, R260, R312). -/
theorem test_illFormed_system :
    let g : Guard := ⟨0, false⟩
    refuses [
      .ld ⟨g, 8, 1, 0, 0, 7, .i32, 0, 0, 0, 0, 0, 0, false⟩, .ld ⟨g, 8, 1, 0, 0, 2, .i32, 3, 0, 0, 0, 0, 0, false⟩,
      .lds ⟨⟨1, false⟩, 8, 1, 0, 0, 2, .i64, 0, 0, 0, 0, 0, 0, false⟩, .cpy ⟨⟨1, false⟩, 3, 1, 5, 0, 6, 7, 9, 16, 32, 0, 0, .i32, 0, 1⟩,
      .srd ⟨false, 3, 0, 0, 0x33, 0⟩, .swr ⟨false, 0, 1, 0, 0, 0⟩, .bar ⟨false, 3, 0, 0, 0, 17⟩, .tret ⟨false, 1, 0, 0, 0, 0⟩,
      .yield ⟨false, 0, 0, 0, 2, 0⟩, .waitm ⟨false, 3, 1, 2, 7, 0⟩, .hset ⟨g, 1, 0, 1, 0, 0, 0, 0, 0, .i32, 0, 2, 0⟩,
      .mma ⟨g, 64, 3, 1, 2, 0, 4, 0, 0, .i32, 0, 2, 0⟩] = true := by decide +kernel

/-- Events of units that the device has not, PGUARD without its opcode, and a reserved opcode that is none. -/
theorem test_illFormed_other : refuses [
    .passnChange 12 1, .passnChange 0 3, .shadowLatchReplay (.quarter 4608), .shadowLatchReplay (.quoin 288), .slewStep 6,
    .mmaStart 1152, .queueKick 4096 0, .poolPortChange 3 true, .poolWindowEnable 64 0, .channelKick 192 0, .peerLinkDown 12,
    .eccCorrected 7 ⟨0, 1⟩, .l2Scrub 144, .clearMapOut 5 0, .saveAreaTailAdvance 0 3 0, .wholeContextSwitch 2, .clusterReassign 0 3,
    .checkpointCopy 0 2048, .ejectOverdue 0 8, .tileFetchDone 0 4, .hostDramAccess 0 65 none,
    .pguard 0, .reservedOpcode 4, .reservedOpcode 3] = true := by decide +kernel

/-! ### Single steps -/

/-- A split that stands at 0x1000, alone on core 0; it may execute. -/
def demo : State := State.reset.withFetchWord 64 0
/-- The next state of an instruction, or the state itself where there is none. -/
def next (i : Instr) (s : State) : State := match exec i s with | .next t => t | _ => s
/-- Words put into memory itself. -/
def poke (s : State) (l : List (Nat × Word)) : State := l.foldl (fun s e => s.storeBytes 2 e.1 (natLe 8 e.2.toNat)) s
/-- `demo` with a page table at 0x10000: pages of 1 GiB at virtual addresses 0 (all accesses, to itself), 1 GiB (the doorbell
pages), 2 GiB (UC), 3 GiB (STREAM), 5 GiB (malformed), 6 GiB (no load), 7 GiB (formatted); none at 4 GiB. -/
def paged : State := poke (demo.modCtx 0 fun x => { x with ptbase := 0x10000 })
  [(0x10000, 0x11001), (0x11000, 0x12001), (0x12000, 0x1F), (0x12008, 0x7000100000077), (0x12010, 0x57), (0x12018, 0x37),
    (0x12028, 0x1000000000000017), (0x12030, 0x15), (0x12038, 0x97 + 0x300)]
def sreg (s : State) (l : List (Nat × Word)) : State := l.foldl (fun s e => s.setS e.1 e.2) s
def vreg (s : State) (r : Nat) (l : List (Nat × Lane32)) : State := s.setV r l
def g0 : Guard := ⟨0, false⟩

/-- R145: an `.i32` result is sign-extended; R118: s0 discards a write. -/
theorem test_sadd : (next (.sadd ⟨4, 5, .imm 1, .i32, 0⟩) (sreg demo [(5, 0x7FFFFFFF)])).sreg 4 = 0xFFFFFFFF80000000
    ∧ (next (.sadd ⟨0, 5, .imm 1, .i32, 0⟩) (sreg demo [(5, 7)])).sreg 0 = 0 := by decide +kernel

/-- R148: division by zero, and of the least number by −1. -/
theorem test_sdiv : (next (.sdiv ⟨4, 5, .imm 0, .i64, 0⟩) (sreg demo [(5, 7)])).sreg 4 = 0xFFFFFFFFFFFFFFFF
    ∧ (next (.srem ⟨4, 5, .imm 0, .i64, 0⟩) (sreg demo [(5, 7)])).sreg 4 = 7
    ∧ (next (.sdiv ⟨4, 5, .imm 0xFFFFFFFF, .i32, 0⟩) (sreg demo [(5, 0x80000000)])).sreg 4 = 0xFFFFFFFF80000000 := by
  decide +kernel

/-- The values of R198's table. -/
theorem test_vcvt :
    let cvt (v : Lane32) (k : BitVec 12) (mod : BitVec 4) : State :=
      next (.vcvt ⟨false, g0, false, 8, 2, k, 4, .e4m3, mod⟩) (vreg (vreg demo 2 [(0, v)]) 8 [(0, 0x11223344)])
    (cvt 0x43FA0000 2 0).vreg 8 0 = 0x117F3344 ∧ (cvt 0x43FA0000 2 8).vreg 8 0 = 0x117E3344
      ∧ (cvt 0x3E99999A 0 0).vreg 8 0 = 0x1122332A ∧ (cvt 0xBA800000 1 0).vreg 8 0 = 0x11228044 := by decide +kernel

/-- A guarded lane alone is written (R71), and its sum wraps or saturates with SAT and NX (R190). -/
theorem test_vadd :
    let s := (vreg (vreg demo 2 [(0, 0x7FFFFFFF), (1, 5)]) 3 [(0, 1), (1, 6)]).setP 1 Mask.all 1
    let add (mod : BitVec 4) : State := next (.vadd ⟨false, ⟨1, false⟩, false, 4, 2, 3, 0, .i32, mod⟩) s
    (add 0).vreg 4 0 = 0x80000000 ∧ (add 0).vreg 4 1 = 0 ∧ (add 8).vreg 4 0 = 0x7FFFFFFF ∧ (add 8).regs.flags = fSAT ||| fNX := by
  decide +kernel

/-- TRAP takes its trap with the next instruction's address (R342, R369). -/
theorem test_trap :
    let t := (next (.trap ⟨false, 0, 0, 0, 0, 5⟩) demo).course 0
    t.trap.level = true ∧ t.trap.cause = 0x17 ∧ t.trap.lane = 127 ∧ t.trap.pc = 0x1008 ∧ t.trap.addr = 0x1000 ∧ t.trap.info = 5
      ∧ (t.splits.map (·.pc)) = [0x2000] := by decide +kernel

/-- Bytes are little-endian (R14), and a load of 4 bytes of an `.i32` type is sign-extended (R239); an address that its size does
not divide is MISALIGNED (R235). -/
theorem test_memory :
    let s := sreg paged [(1, 0x20000), (2, 0x1122334485667788)]
    let st : State := next (.sts ⟨g0, 2, 1, 0, 0, 3, .i64, 0, 0, 0, 0, 0, 0, false⟩) s
    let ld (off : BitVec 20) : State := next (.lds ⟨g0, 3, 1, 0, 0, 2, .i32, 0, 0, 0, 0, 0, off, false⟩) st
    st.readByte 0 0x20000 = 0x88 ∧ st.readByte 0 0x20007 = 0x11 ∧ (ld 0).sreg 3 = 0xFFFFFFFF85667788 ∧ (ld 4).sreg 3 = 0x11223344
      ∧ ((ld 2).course 0).trap.cause = 0x06 := by decide +kernel

/-- The worked example of R225: `.f32` from an E4M3 page under a scale byte, and the store back. -/
theorem test_formatted :
    let s := poke (demo.modCtx 0 fun x => { x with ptbase := 0x10000, scb := List.replicate 2 (0, 0) ++ [(0x4000000000, 0x4800000000)] })
      [(0x10000, 0x11001), (0x11000, 0x12001), (0x12800, 0x13001), (0x13000, 0x14001),
        (0x14010, 0x20017 + 7 * 2 ^ 7 + 2 ^ 11 + 2 * 2 ^ 52), (0x12900, 0x17), (0x20120, 0x3C000000), (0x1008, 0x8100)]
    let s := sreg s [(1, 0x4000020000)]
    let one := s.setP 1 Mask.all 1
    let ld : State := next (.ld ⟨⟨1, false⟩, 4, 1, 0, 0, 2, .f32, 0, 0, 0, 0, 0, 0x123, false⟩) one
    let st : State := next (.st ⟨⟨1, false⟩, 5, 1, 0, 0, 2, .f32, 0, 0, 0, 0, 0, 0x123, false⟩) (vreg one 5 [(0, 0x40E00000)])
    ld.vreg 4 0 = 0x40C00000 ∧ st.readByte 0 0x20123 = 0x3E := by decide +kernel

/-- The first step after reset with a word placed runs it (R68): `sadd.i64 s4, s5, s6`. -/
theorem test_step : (match step (State.reset.withFetchWord 64 0x0000010061440004) with
    | .next t => (t.course 0).splits.map (·.pc) == [0x1008] && t.clock == 1
    | _ => false) = true := by decide +kernel

/-! ### Hypotheses that something meets -/

def readyB (i : Instr) (s : State) : Bool :=
  s.hasAgent && ((usesOf i).vr ++ (usesOf i).vw).all (fun r => decide (r < (s.course s.curCourse).allot))
    && (!s.isLane || !ejectIllegal i) && !s.rowsHeld i (usesOf i)
    && (usesParts i).all fun w => (s.damaged (if Instr.isEngine i then { w with vr := [] } else w) (s.usesMask w)).isNone

theorem ready_of {i : Instr} {s : State} (h : readyB i s = true) : Ready i s := by
  simp only [readyB, Bool.and_eq_true, List.all_eq_true, decide_eq_true_eq, Bool.or_eq_true, Bool.not_eq_true',
    Option.isNone_iff_eq_none] at h
  obtain ⟨⟨⟨⟨a, b⟩, c⟩, d⟩, e⟩ := h
  exact ⟨a, b, fun hl => c.resolve_left (by simp [hl]), d, e⟩

/-- Every instruction of the list is ready. -/
theorem ready_all {is : List Instr} {s : State} (h : (is.all fun i => readyB i s) = true) : ∀ i ∈ is, Ready i s :=
  fun i hi => ready_of (List.all_eq_true.mp h i hi)

def latchB (m : Mask) (fs : List (BitVec 12)) (s : State) : Bool :=
  fs.all fun f => !f.getLsbD 11 || (List.range 96).all fun l => !m.has l || (s.latch (f.toNat % 4)).valid.has l

theorem vready_of {i : Instr} {m : Mask} {fs : List (BitVec 12)} {s : State} (h : (readyB i s && latchB m fs s) = true) :
    VReady i m fs s := by
  simp only [Bool.and_eq_true] at h
  refine ⟨ready_of h.1, fun f hf h11 l hl hm => ?_⟩
  have := List.all_eq_true.mp h.2 f hf
  simp only [h11, Bool.not_true, Bool.false_or, List.all_eq_true, List.mem_range] at this
  simpa [hm] using this l hl

theorem vready_all {is : List Instr} {m : Mask} {fs : List (BitVec 12)} {s : State}
    (h : (is.all fun i => readyB i s && latchB m fs s) = true) : ∀ i ∈ is, VReady i m fs s :=
  fun i hi => vready_of (List.all_eq_true.mp h i hi)

def completes (i : Instr) (s : State) : Bool := match exec i s with | .next _ => true | _ => false

theorem next_of {i : Instr} {s : State} (h : completes i s = true) : exec i s = .next (next i s) := by
  unfold completes at h
  unfold next
  split at h
  · rename_i e; rw [e]
  · cases h

def okAnd (e : Except Exn α) (p : α → Bool) : Bool := match e with | .ok x => p x | .error _ => false

theorem ok_of {e : Except Exn α} {p : α → Bool} (h : okAnd e p = true) : ∃ x, e = .ok x ∧ p x = true := by
  unfold okAnd at h
  split at h
  · exact ⟨_, rfl, h⟩
  · cases h

def plainB : Loc → Bool
  | .phys f => f.pol != 3
  | .pad _ _ => true

/-- The checks or loads pass, and what they give is so. -/
def passes (e : Except Exn α) (p : α → Bool) : Prop := ∃ x, e = .ok x ∧ p x = true
theorem passes_of {e : Except Exn α} {p : α → Bool} (h : okAnd e p = true) : passes e p := ok_of h

def canTrapB (s : State) (c : Nat) : Bool :=
  (s.course c).place == .resident && !(s.course c).trap.level && (s.launchOf c).desc.handler != 0
    && (s.course c).leaving.isNone && decide (s.handlers (s.coreOf c) < Config.handlersPerCore) && !s.trapsWait (s.coreOf c)

theorem canTrap_of {s : State} {c : Nat} (h : canTrapB s c = true) : CanTrap s c := by
  simp only [canTrapB, Bool.and_eq_true, beq_iff_eq, Bool.not_eq_true', bne_iff_ne, ne_eq, decide_eq_true_eq,
    Option.isNone_iff_eq_none] at h
  exact ⟨h.1.1.1.1.1, h.1.1.1.1.2, h.1.1.1.2, h.1.1.2, h.1.2, h.2⟩

/-- In every state of the list the instruction is ready and its trap is taken at once. -/
theorem able_all {i : Instr} {ss : List State} {c : Nat} (h : (ss.all fun s => readyB i s && canTrapB s c) = true) :
    ∀ s ∈ ss, Ready i s ∧ CanTrap s c := fun s hs =>
  have := List.all_eq_true.mp h s hs
  ⟨ready_of (Bool.and_eq_true_iff.mp this).1, canTrap_of (Bool.and_eq_true_iff.mp this).2⟩

/-- A split that is not in the list is empty and waits for nothing. -/
theorem split_beyond {s : State} {c j : Nat} (h : (s.course c).splits.length ≤ j) :
    (s.split c j).m = 0 ∧ (s.split c j).wait = .ready := by
  have e : s.split c j = default := by
    simp only [State.split, List.getD_eq_getElem?_getD, List.getElem?_eq_none h, Option.getD_none]
  rw [e]
  exact ⟨rfl, rfl⟩

/-- What holds of every split of a course and of an empty one holds of all. -/
theorem splits_of {s : State} {c : Nat} {P : Nat → Prop} (n : Nat) (hn : (s.course c).splits.length = n) (h : ∀ j < n, P j)
    (hd : ∀ j, (s.split c j).m = 0 → (s.split c j).wait = .ready → P j) : ∀ j, P j := fun j =>
  if hj : j < n then h j hj else hd j (split_beyond (by omega)).1 (split_beyond (by omega)).2

/-- `demo` with an ejected lane that executes. -/
def ejected : State :=
  { demo with
    lanes := [{ course := 0, lane := 5, quoin := 0, regs := {}, vsys := [], pc := 0x1000, tok := 0, endPc := 0x1000, outs := [3]
                st := .running }]
    cur := .lane 0 }

def o3 (ty : ElemTy) (sub : BitVec 5 := 0) : S3 := ⟨4, 5, .reg 6, ty, sub⟩
def ob : Br := ⟨false, 4, 1, false, 2, 5, false, none⟩
def op3 (sub : BitVec 5 := 0) : P3 := ⟨false, ⟨1, false⟩, 3, 2, 4, sub⟩
def ov (ty : ElemTy) (sub : BitVec 5 := 0) (mod : BitVec 4 := 0) : V3 := ⟨false, g0, false, 8, 2, 0x800, sub, ty, mod⟩
def oq (ty : ElemTy) (sub : BitVec 5 := 0) (imm : BitVec 20 := 1) : V4 := ⟨g0, false, 8, 2, 4, 6, sub, ty, 0, imm⟩
/-- `demo` with valid latches. -/
def latched : State := (demo.pushLatch ((List.range 96).map fun l => (l, 1))).pushLatch ((List.range 96).map fun l => (l, 2))
theorem witness_ScalarArithmetic : ScalarTy .i32 ∧ ScalarTy .n64 ∧
    ∀ i ∈ [Instr.sadd (o3 .i32), .ssub (o3 .n64), .smul (o3 .i32), .smulh (o3 .n64), .sand (o3 .i32), .sor (o3 .i32), .sxor (o3 .i32)],
      Ready i demo := ⟨.inl rfl, by simp [ScalarTy], ready_all (by decide +kernel)⟩
theorem witness_ScalarDivision : ScalarTy .i64 ∧ ∀ i ∈ [Instr.sdiv (o3 .i64), .srem (o3 .i64)], Ready i demo :=
  ⟨by simp [ScalarTy], ready_all (by decide +kernel)⟩
theorem witness_ScalarShiftSelect : ScalarTy .i32 ∧ ∀ i ∈ [Instr.sshl (o3 .i32), .sshr (o3 .i32), .srot (o3 .i32), .smin (o3 .i32),
    .smax (o3 .i32), .sbitc (o3 .i32)], Ready i ejected := ⟨.inl rfl, ready_all (by decide +kernel)⟩
theorem witness_ScalarMoves : ScalarTy .i64 ∧ (5 : BitVec 5).toNat < 6 ∧ (2 : BitVec 5).toNat < 3 ∧
    ∀ i ∈ [Instr.smov (o3 .i64), .smovi ⟨4, 0, .imm 5, .i64, 0⟩, .smovi ⟨4, 0, .imm 5, .i64, 1⟩, .sset (o3 .i64 5), .ssel (o3 .i64),
      .saddr (o3 .i64 3), .sext (o3 .i64 2), .sext (o3 .n64 0)], Ready i demo :=
  ⟨by simp [ScalarTy], by decide, by decide, ready_all (by decide +kernel)⟩
theorem witness_ScalarBitFields : ∀ i ∈ [Instr.sbfx (o3 .n64), .sbfx (o3 .i64), .sbfi (o3 .i64)], Ready i demo :=
  ready_all (by decide +kernel)
/-- Nothing is pending; a pool load is on its way into v0. -/
theorem witness_FlagWord :
    let flying := demo.modRegs fun r => { r with vst := [(0, .coming 0 9 false)] }
    (demo.cur = .course 0 0 ∧ demo.resultsPending = false ∧ flying.resultsPending = true)
      ∧ (∀ i ∈ [Instr.ffrd (o3 .i32), .ffclr (o3 .i32), .ejctl (o3 .i32)], Ready i demo)
      ∧ ∀ i ∈ [Instr.ffrd (o3 .i32), .ffclr (o3 .i32)], Ready i flying :=
  ⟨by decide +kernel, ready_all (by decide +kernel), ready_all (by decide +kernel)⟩
theorem witness_Branches : ((demo.sreg 5).extractLsb' 0 2 = 0 ∧ (demo.sreg 60).extractLsb' 0 2 = 0 ∧ ob.p.toNat < 6 ∧ demo.active ≠ 0) ∧
    ∀ i ∈ [Instr.jmp ob, .jmpr ob, .call ob, .callr ob, .ret ob, .brs ob, .bru ob, .loopd ob, .nop ob], Ready i demo :=
  ⟨by decide +kernel, ready_all (by decide +kernel)⟩
/-- An empty active set, no lane that takes the branch, and all that do; an open token; an ejected lane. -/
theorem witness_BrvUniform :
    let twice := demo.modCourse 0 fun x => { x with tokens := [{}, {}, { isOpen := true, opened := Mask.all }] }
    (Ready (.brv ob) demo ∧ Ready (.brv ob) ejected ∧ Ready (.brv ob) twice ∧ CanTrap twice 0) ∧ ((twice.course 0).token 2).isOpen = true ∧
    demo.cur = .course 0 0 ∧ ((demo.course 0).token 2).isOpen = false
    ∧ (demo.setS 61 0).active ≠ 0 ∧ (demo.active &&& demo.preg 1 = 0) ∧ (demo.active &&& (demo.setP 1 Mask.all Mask.all).preg 1 = demo.active)
    ∧ (sreg demo [(61, 0), (62, 0), (63, 0)]).active = 0 ∧ ejected.cur = .lane 0 :=
  ⟨⟨ready_of (by decide +kernel), ready_of (by decide +kernel), ready_of (by decide +kernel), canTrap_of (by decide +kernel)⟩,
    by decide +kernel⟩
def trapsWith (e : Except Exn α) (code : Nat) : Bool := match e with | .error (.trap c ..) => c == code | _ => false
/-- A BRV with its hand-over descriptor at an offset, and a course with a threshold of 8 and that descriptor at 0x1068. -/
def oe (off : BitVec 32) : Br := ⟨true, 4, 1, false, 2, 0, false, some off⟩
def giving (head : Word) : State :=
  ((poke paged [(0x1068, head), (0x1070, 0x20), (0x1078, 0x40003)]).setP 1 Mask.all 7).modCourse 0 fun x => { x with ejthr := 8 }
/-- The smaller set of a hand-over: descriptors that can and cannot be read, a malformed one, and registers within and beyond the
allotment. -/
theorem witness_BrvEjects :
    let good : Word := 0x0201010000000000 + 10
    let s := giving good
    let small := s.modCourse 0 fun x => { x with allot := 4 }
    let bad := giving (0x0301010000000000 + 10)
    let worn : State := { s with poison := [(0x1040 / 64, true)] }
    let low := wordLow (.brv (oe 26))
    let reads (s : State) (tok : Nat) : Bool := okAnd (s.readPool 0x1068 low 0 16) fun h =>
      (h.map (·.toNat)).drop 4 == [0, 1, 1, tok, 0x20, 0, 0, 0, 0, 0, 0, 0]
    ((∀ u ∈ [s, small, bad, worn], Ready (.brv (oe 26)) u ∧ CanTrap u 0) ∧ Ready (.brv (oe 0x5FFFFC00)) s)
      ∧ (∀ u ∈ [s, small, bad, worn], u.cur = .course 0 0 ∧ ((u.course 0).token 2).isOpen = false ∧ (u.course 0).trap.level = false
        ∧ maskCount 7 ≤ (u.course 0).ejthr ∧ maskCount 7 ≤ u.quoinFree (u.coreOf 0 / 96) ∧ u.active &&& u.preg 1 = 7
        ∧ maskCount 7 ≤ maskCount (u.active &&& ~~~7))
      ∧ (s.pc + ((26 : BitVec 32).signExtend 64) * 4 = 0x1068 ∧ s.pc + ((0x5FFFFC00 : BitVec 32).signExtend 64) * 4 = 0x180000000)
      ∧ (reads s 2 = true ∧ reads small 2 = true ∧ reads bad 3 = true
        ∧ okAnd (s.readPool 0x1068 low 16 4) (fun l => l.map (·.toNat) == [3, 0, 4, 0]) = true ∧ (small.course 0).allot = 4
        ∧ s.handDamaged ⟨[3], [4], 32, 10⟩ 7 = .ok ())
      ∧ trapsWith (worn.readPool 0x1068 low 0 16) 0x01 = true ∧ trapsWith (s.readPool 0x180000000 low 0 16) 0x08 = true
      ∧ (match demo.readPool 0x1068 low 0 16 with | .error (.page ..) => true | _ => false) = true := by
  exact ⟨⟨able_all (by decide +kernel), ready_of (by decide +kernel)⟩, by decide +kernel⟩
theorem witness_BrvDivides :
    let s := demo.setP 1 Mask.all 7
    let taken := s.active &&& s.preg 1
    Ready (.brv ob) s ∧ s.cur = .course 0 0 ∧ ((s.course 0).token 2).isOpen = false ∧ ob.ej = none ∧ taken ≠ 0
      ∧ s.active &&& ~~~taken ≠ 0 ∧ s.pc + (ob.off.signExtend 64) * 4 ≠ s.nextPc (.brv ob)
      ∧ s.active &&& ~~~(s.split 0 0).m = 0 ∧ ∀ j < 9, j ≠ 0 → (s.split 0 j).pc ≠ s.nextPc (.brv ob) :=
  ⟨ready_of (by decide +kernel), by decide +kernel⟩

def low : Mask := BitVec.ofNat 96 (2 ^ 48 - 1)
/-- `demo` with splits and a token 2. -/
def tokened (ys : List Split) (k : Token) : State :=
  demo.modCourse 0 fun x => { x with splits := ys, tokens := [{}, {}, k] }
def lowSplit : Split := { pc := 0x1000, m := low, a := low }
def highSplit (w : Wait) : Split := { pc := 0x1100, m := ~~~low, a := ~~~low, wait := w, next := 0x1108 }
def opened (k : Token) : Token := { k with isOpen := true, opened := Mask.all }
/-- The split has lanes of an open token, and nothing else of the course is due. -/
def atMerge (s : State) : Prop :=
  let x := s.course 0
  let mine := (s.split 0 0).m &&& (x.token 2).opened
  Ready (.regang ob) s ∧ (x.token 2).isOpen = true ∧ mine ≠ 0 ∧ mine &&& x.exited = 0 ∧ x.place = .resident ∧ x.joiners 0 = []
    ∧ ∀ j, j ≠ 2 → x.tokenFull j = false
theorem atMerge_of {s : State} (r : readyB (.regang ob) s = true)
    (h : ((s.course 0).token 2).isOpen = true ∧ (s.split 0 0).m &&& ((s.course 0).token 2).opened ≠ 0
      ∧ (s.split 0 0).m &&& ((s.course 0).token 2).opened &&& (s.course 0).exited = 0 ∧ (s.course 0).place = .resident
      ∧ (s.course 0).joiners 0 = [] ∧ (s.course 0).tokens.length = 3 ∧ ∀ j < 3, j ≠ 2 → (s.course 0).tokenFull j = false) :
    atMerge s := by
  obtain ⟨a, b, c, d, e, f, g⟩ := h
  refine ⟨ready_of r, a, b, c, d, e, fun j hj => ?_⟩
  by_cases hl : j < 3
  · exact g j hl hj
  · simp only [Course.tokenFull, Course.token, List.getD_eq_getElem?_getD, List.getElem?_eq_none (by omega : (s.course 0).tokens.length ≤ j)]
    rfl
/-- What holds of every re-entry holds of the one on top of a slice. -/
theorem of_top {x : Course} {P : Reentry → Prop} (h : ∀ r ∈ x.reentry, P r) (r : Reentry)
    (ht : x.reentry.find? (fun e => e.slice == r.slice) = some r) : P r := h r (List.mem_of_find?_eq_some ht)
/-- No open token; a deferred set; lanes still out, of a split and on a re-entry stack; the last lanes, with a split that waits
and with none; an ejected lane at its end REGANG and at another. -/
theorem witness_Regang :
    let away := { ejected with lanes := ejected.lanes.map fun (x : Lane) => { x with endPc := 0x2000 } }
    let left := tokened [lowSplit] (opened { deferred := some (~~~low, 0x2000) })
    let lacking := tokened [lowSplit, highSplit .ready] (opened {})
    let stacked := lacking.modCourse 0 fun x => { x with splits := [lowSplit, { highSplit .ready with m := 1 <<< 95, a := 1 <<< 95 }], reentry := [⟨0, 0x1200, 1 <<< 90, 2⟩] }
    let last := tokened [lowSplit, highSplit (.regang 2)] (opened { arrived := ~~~low })
    let only := tokened [{ lowSplit with m := Mask.all, a := Mask.all }] (opened {})
    let out (s : State) := ((s.course 0).token 2).opened &&& ~~~(((s.course 0).token 2).arrived
      ||| ((s.split 0 0).m &&& ((s.course 0).token 2).opened) ||| (s.course 0).exited ||| ((s.course 0).token 2).back)
    (Ready (.regang ob) demo ∧ ((demo.course 0).token 2).isOpen = false)
      ∧ (atMerge left ∧ ((left.course 0).token 2).deferred = some (~~~low, 0x2000) ∧ (left.course 0).reentry = [] ∧ ~~~low ≠ 0
        ∧ ~~~low &&& ((left.course 0).exited ||| ((left.course 0).token 2).back) = 0)
      ∧ ((∀ s ∈ [lacking, stacked], ((s.course 0).token 2).deferred = none ∧ (s.split 0 1).m ≠ 0 ∧ (s.split 0 1).wait = .ready ∧ out s ≠ 0
          ∧ ∀ r ∈ (s.course 0).reentry, r.pc ≠ s.pc ∧ r.lanes &&& ~~~out s = 0) ∧ atMerge lacking ∧ atMerge stacked)
      ∧ ((∀ s ∈ [last, only], ((s.course 0).token 2).deferred = none ∧ out s = 0 ∧ (s.course 0).reentry = []
          ∧ ((s.course 0).token 2).faulted = []) ∧ atMerge last ∧ atMerge only)
      ∧ (Ready (.regang ob) ejected ∧ (ejected.lane 0).pc = (ejected.lane 0).endPc)
      ∧ Ready (.regang ob) away ∧ (away.lane 0).pc ≠ (away.lane 0).endPc := by
  refine ⟨⟨ready_of (by decide +kernel), by decide +kernel⟩, ⟨atMerge_of (by decide +kernel) (by decide +kernel), by decide +kernel⟩,
    ⟨?_, atMerge_of (by decide +kernel) (by decide +kernel), atMerge_of (by decide +kernel) (by decide +kernel)⟩,
    ⟨?_, atMerge_of (by decide +kernel) (by decide +kernel), atMerge_of (by decide +kernel) (by decide +kernel)⟩,
    ⟨ready_of (by decide +kernel), by decide +kernel⟩, ready_of (by decide +kernel), by decide +kernel⟩
  all_goals intro s hs; simp only [List.mem_cons, List.not_mem_nil, or_false] at hs; rcases hs with rfl | rfl <;> decide +kernel
theorem witness_Predicates : ∀ i ∈ [Instr.plog (op3 0), .plog (op3 4), .pmov (op3 2), .pmov (op3 4), .pmov (op3 6), .pcnt (op3 0),
    .pfirst (op3 0), .grd (op3 0), .grd (op3 1)], Ready i demo := ready_all (by decide +kernel)
theorem witness_Groups : (op3 0).d.toNat % 8 ≠ 0 ∧ ∀ i ∈ [Instr.part (op3 0), .part (op3 4), .gset (op3 0)], Ready i demo :=
  ⟨by decide, ready_all (by decide +kernel)⟩
/-- No acted lane; some; the last ones; an ejected lane. -/
theorem witness_LaneExit :
    let some := demo.setP 1 Mask.all 7
    let every := demo.setP 1 Mask.all Mask.all
    let out := ejected.setP 1 Mask.all Mask.all
    (Ready (.lexit (op3 0)) demo ∧ demo.acted ⟨1, false⟩ = 0 ∧ (demo.course 0).joiners 0 = [])
      ∧ (Ready (.lexit (op3 0)) some ∧ some.acted ⟨1, false⟩ ≠ 0 ∧ (some.course 0).joiners 0 = []
        ∧ ((∀ n < 8, ((some.course 0).token n).isOpen = false) ∧ (some.course 0).tokens = [])
        ∧ (some.split 0 0).m &&& ~~~some.acted ⟨1, false⟩ ≠ 0 ∧ (some.course 0).exited ||| some.acted ⟨1, false⟩ ≠ Mask.all)
      ∧ (Ready (.lexit (op3 0)) every ∧ (every.course 0).exited ||| every.acted ⟨1, false⟩ = Mask.all
        ∧ (every.course 0).place = .resident ∧ (every.course 0).splits.length = 1 ∧ ∀ n < 16, (every.bar 0 n).expect = none)
      ∧ Ready (.lexit (op3 0)) out ∧ out.acted ⟨1, false⟩ ≠ 0 :=
  ⟨⟨ready_of (by decide +kernel), by decide +kernel⟩, ⟨ready_of (by decide +kernel), by decide +kernel⟩,
    ⟨ready_of (by decide +kernel), by decide +kernel⟩, ready_of (by decide +kernel), by decide +kernel⟩


/-! Vector instructions: two registers, or a register and a latch that is valid in every acted lane. -/

theorem witness_VectorArithmetic : (∀ i ∈ [Instr.vadd (ov .i16x2 0 8), .vsub (ov .i32), .vmul (ov .i8x4)],
    VReady i (latched.acted g0) [2, 0x800] latched) ∧ VReady (.vabs (ov .i32)) (latched.acted g0) [2] latched :=
  ⟨vready_all (by decide +kernel), vready_of (by decide +kernel)⟩
theorem witness_VectorBitwise : (∀ i ∈ [Instr.vmulh (ov .i32), .vdiv (ov .n32), .vrem (ov .i32), .vand (ov .b32), .vor (ov .b32),
      .vxor (ov .b32), .vshl (ov .i32), .vshr (ov .i16x2), .vrot (ov .n32), .vmin (ov .i8x4), .vmax (ov .n32)],
    VReady i (latched.acted g0) [2, 0x800] latched) ∧ VReady (.vbitc (ov .i32 3)) (latched.acted g0) [2] latched :=
  ⟨vready_all (by decide +kernel), vready_of (by decide +kernel)⟩
theorem witness_VectorAccumulate : VReady (.vmad (oq .i32)) (demo.acted g0) [2, 4, 6] demo
    ∧ VReady (.vaddc (oq .n32)) (demo.acted g0) [2, 4] demo ∧ VReady (.vadds (ov .i16x2)) (latched.acted g0) [2, 0x800] latched
    ∧ (ov .i16x2).ws = false :=
  ⟨vready_of (by decide +kernel), vready_of (by decide +kernel), vready_of (by decide +kernel), rfl⟩
theorem witness_VectorBitFields : (ScalarTy .n64 ∨ ElemTy.n64 = .b32) ∧ (oq .n64 1).ws = false
    ∧ (∀ i ∈ [Instr.vbfx (oq .n64 1), .vbfi (oq .n64 1)], VReady i (demo.acted g0) [2, 6] demo)
    ∧ ∀ i ∈ [Instr.vbfx (oq .i32 0), .vbfi (oq .b32 0)], VReady i (demo.acted g0) [2] demo :=
  ⟨.inl (by simp [ScalarTy]), rfl, vready_all (by decide +kernel), vready_all (by decide +kernel)⟩
theorem witness_VectorCompare : ScalarTy .i32 ∧ (5 : BitVec 5).toNat < 6 ∧ (7 : BitVec 5).toNat < 8
    ∧ ∀ i ∈ [Instr.vcmp (ov .i32 5), .vcmp (ov .f32 7)], VReady i (latched.acted g0) [2, 0x800] latched :=
  ⟨.inl rfl, by decide, by decide, vready_all (by decide +kernel)⟩
theorem witness_VectorMoves : VReady (.vsel (oq .n64)) (demo.acted g0) [2, 4] demo
    ∧ (∀ i ∈ [Instr.vmov (ov .b32), .vunpk (ov .i16x2 1), .vunpk (ov .i8x4 3)], VReady i (demo.acted g0) [2] demo)
    ∧ (∀ i ∈ [Instr.vmovi ⟨g0, false, 8, 0, 0, .i64, 0, 5⟩, .vbrd (ov .b32), .vbrd (ov .n64)], VReady i (demo.acted g0) [] demo)
    ∧ ∀ i ∈ [Instr.vext (ov .b32 3), .vpack (ov .i16x2), .vpack (ov .i8x4 1)], VReady i (latched.acted g0) [2, 0x800] latched :=
  ⟨vready_of (by decide +kernel), vready_all (by decide +kernel), vready_all (by decide +kernel), vready_all (by decide +kernel)⟩
theorem witness_VectorSystemValues : (∀ i ∈ [Instr.vsys (ov .b32 0), .vsys (ov .b32 17)], VReady i (demo.acted g0) [] demo)
    ∧ VReady (.vsys (ov .b32 5)) (ejected.acted g0) [] ejected ∧ ejected.cur = .lane 0 :=
  ⟨vready_all (by decide +kernel), vready_of (by decide +kernel), rfl⟩
theorem witness_VectorFloat : ElemTy.f32 ∈ [ElemTy.f32, .bf16x2, .f16x2]
    ∧ (∀ i ∈ [Instr.vfadd (ov .f32), .vfsub (ov .bf16x2), .vfmul (ov .f16x2), .vfdiv (ov .f32), .vfscale (ov .f32)],
      VReady i (latched.acted g0) [2, 0x800] latched)
    ∧ (∀ i ∈ [Instr.vfsqrt (ov .f32), .vfrnd (ov .f32)], VReady i (latched.acted g0) [2] latched)
    ∧ VReady (.vfma (oq .f32)) (demo.acted g0) [2, 4, 6] demo :=
  ⟨by decide, vready_all (by decide +kernel), vready_all (by decide +kernel), vready_of (by decide +kernel)⟩
theorem witness_DotProducts : ∀ i ∈ [Instr.vdot2 (oq .i16x2), .vdot4 (oq .i8x4), .vdot2 (oq .bf16x2), .vdot4 (oq .c6)],
    VReady i (demo.acted g0) [2, 4, 6] demo := vready_all (by decide +kernel)
theorem witness_VectorFloatCodes : (∀ i ∈ [Instr.vfmin (ov .f32), .vfmax (ov .bf16x2)], VReady i (latched.acted g0) [2, 0x800] latched)
    ∧ ∀ i ∈ [Instr.vfclass (ov .f16x2), .vfrcp (ov .f32), .vfrsq (ov .f32), .vfexp2 (ov .f32), .vflog2 (ov .f32), .vfsin (ov .f32),
      .vfcos (ov .f32), .vftanh (ov .f32)], VReady i (latched.acted g0) [2] latched :=
  ⟨vready_all (by decide +kernel), vready_all (by decide +kernel)⟩
theorem witness_Conversion :
    let o : V3 := ⟨false, g0, false, 8, 2, 2, 4, .e4m3, 8⟩
    tyOf o.sub.toNat = some .f32 ∧ legalOp (.vcvt o) = true ∧ VReady (.vcvt o) (demo.acted g0) [2] demo :=
  ⟨rfl, by decide +kernel, vready_of (by decide +kernel)⟩
/-- The legal pair of R84's example. -/
theorem witness_PairHalves :
    let h0 : Half := ⟨0, g0, false, 4, 2, 3, .i32, 0⟩
    let h1 : Half := ⟨0x22, g0, false, 9, 5, 0x800, .f32, 0⟩
    ∃ i0 i1 t0 t1, Instr.wellFormed (.pair h0 h1) = true ∧ halfInstr h0 = some i0 ∧ halfInstr h1 = some i1
      ∧ VReady i0 (latched.acted g0) [2, 3] latched ∧ VReady i1 (latched.acted g0) [5, 0x800] latched
      ∧ Ready (.pair h0 h1) latched ∧ exec i0 latched = .next t0 ∧ exec i1 latched = .next t1 :=
  ⟨.vadd ⟨false, g0, false, 4, 2, 3, 0, .i32, 0⟩, .vfmul ⟨false, g0, false, 9, 5, 0x800, 0, .f32, 0⟩,
    next (.vadd ⟨false, g0, false, 4, 2, 3, 0, .i32, 0⟩) latched, next (.vfmul ⟨false, g0, false, 9, 5, 0x800, 0, .f32, 0⟩) latched,
    by decide +kernel, by decide +kernel, by decide +kernel, vready_of (by decide +kernel), vready_of (by decide +kernel),
    ready_of (by decide +kernel), next_of (by decide +kernel), next_of (by decide +kernel)⟩

/-! Collectives over g1, of every lane. -/

def grouped (n : Nat) : State := demo.setG 1 { size := n, mem := Mask.all }
/-- A second split of the course holds the upper 48 lanes. -/
def divided (w : Wait) : State := (grouped 96).modCourse 0 fun x => { x with splits := [lowSplit, { highSplit w with next := 0 }] }

theorem meets_grouped (n : Nat) (h : ((grouped n).course 0).splits.length = 1)
    (p : Mask.all &&& (grouped n).absentLanes 0 = 0)
    (f : ((grouped n).course 0).joiners 0 = []) : MeetsAlone (grouped n) 0 0 Mask.all :=
  ⟨p, splits_of 1 h (fun j hj h0 => absurd (by omega) h0) (fun _ hm _ _ => by simp [hm]), f⟩
theorem not_join {s : State} (h : s.wait = .ready) : ∀ i ops, s.wait ≠ .join i ops := fun _ _ e => by rw [h] at e; cases e

theorem witness_Collectives : ((grouped 32).cur = .course 0 0 ∧ (grouped 32).greg 1 = { size := 32, mem := Mask.all }
      ∧ (32 ∈ [4, 8, 16, 32, 96]) ∧ (∀ i ops, (grouped 32).wait ≠ .join i ops) ∧ MeetsAlone (grouped 32) 0 0 Mask.all ∧ ScalarTy .i32)
    ∧ (∀ i ∈ [Instr.vshfl (oq .n64), .vshfl (oq .b32)], VReady i ((grouped 32).acted g0) [2, 4] (grouped 32))
    ∧ VReady (.vshfx (oq .b32)) ((grouped 32).acted g0) [2, 4, 6] (grouped 32)
    ∧ (∀ i ∈ [Instr.vbcast (oq .b32 0), .vbcast (oq .b32 1), .vmatch (oq .b32 0), .vmatch (oq .b32 1), .vred (oq .f32 2), .vred (oq .b32 5),
        .vscan (oq .i32 0), .vscan (oq .n64 10), .vcmpr (oq .b32 0)], VReady i ((grouped 32).acted g0) [2] (grouped 32))
    ∧ ∀ i ∈ [Instr.vvote (oq .i32 0), .vvote (oq .i32 1), .vvote (oq .i32 2), .vvote (oq .i32 3)],
        VReady i ((grouped 32).acted g0) [] (grouped 32) :=
  ⟨⟨rfl, by decide +kernel, by decide, not_join (by decide +kernel),
      meets_grouped 32 (by decide +kernel) (by decide +kernel) (by decide +kernel), .inl rfl⟩,
    vready_all (by decide +kernel), vready_of (by decide +kernel), vready_all (by decide +kernel), vready_all (by decide +kernel)⟩

/-- A lane that has exited, and one on a re-entry stack; a split that has not issued it; one that stalls for it; one that stalls for
another operation. -/
theorem witness_CollectiveRendezvous :
    let i : Instr := .vred (oq .i32)
    let gone := (grouped 96).modCourse 0 fun x => { x with exited := 1 }
    let stacked := (grouped 96).modCourse 0 fun x => { x with reentry := [⟨0, 0x1200, 1, 2⟩] }
    let held := (Mask.list (~~~low)).map fun l => (l, (0 : BitVec 32).zeroExtend 64, (0 : Word), (0 : Word))
    let other := divided (.join (.vred (oq .i32 1)) [])
    let what (i : Instr) := (collOf i).map fun e => (e.1, e.2.ty, e.2.sub, e.2.mod, e.2.imm)
    (∀ s ∈ [gone, stacked], VReady i (s.acted g0) [2] s ∧ CanTrap s 0 ∧ s.cur = .course 0 0 ∧ (s.greg 1).mem &&& s.absentLanes 0 ≠ 0)
      ∧ (let s := divided .ready
        VReady i (s.acted g0) [2] s ∧ (∀ i ops, s.wait ≠ .join i ops) ∧ (s.greg 1).mem &&& s.absentLanes 0 = 0
          ∧ (s.course 0).joiners 0 = [] ∧ (s.split 0 1).m &&& (s.greg 1).mem ≠ 0)
      ∧ (let s := divided (.join i held)
        VReady i (s.acted g0) [2] s ∧ (∀ i ops, s.wait ≠ .join i ops) ∧ (∀ n, n ≠ 1 → n ≠ 0 → (s.split 0 n).m = 0)
          ∧ (s.greg 1).mem &&& s.absentLanes 0 = 0 ∧ (s.split 0 1).wait = .join i held ∧ (s.split 0 1).m &&& (s.greg 1).mem ≠ 0
          ∧ (s.split 0 0).m &&& (s.greg 1).mem ≠ 0 ∧ (s.greg 1).size = 96)
      ∧ VReady i (other.acted g0) [2] other ∧ CanTrap other 0 ∧ (∀ n, n ≠ 1 → n ≠ 0 → (other.split 0 n).m = 0)
      ∧ other.wait = .ready ∧ (other.split 0 1).wait = .join (.vred (oq .i32 1)) [] ∧ (other.split 0 1).m ≠ 0
      ∧ (other.greg 1).mem &&& other.absentLanes 0 = 0 ∧ (other.greg 1).mem &&& (other.split 0 0).m ≠ 0
      ∧ what i ≠ what (.vred (oq .i32 1)) ∧ (what (.vred (oq .i32 1))).isSome = true := by
  have two (w : Wait) (h : ((divided w).course 0).splits.length = 2) : ∀ n, n ≠ 1 → n ≠ 0 → ((divided w).split 0 n).m = 0 :=
    fun n h1 h0 => splits_of (P := fun n => n ≠ 1 → n ≠ 0 → ((divided w).split 0 n).m = 0) 2 h
      (fun j hj a b => absurd hj (by omega)) (fun _ hm _ _ _ => hm) n h1 h0
  refine ⟨?_, ⟨vready_of (by decide +kernel), not_join (by decide +kernel), by decide +kernel⟩,
    ⟨vready_of (by decide +kernel), not_join (by decide +kernel), two _ (by decide +kernel), by decide +kernel⟩,
    vready_of (by decide +kernel), canTrap_of (by decide +kernel), two _ (by decide +kernel), by decide +kernel⟩
  intro s hs
  fin_cases hs <;> exact ⟨vready_of (by decide +kernel), canTrap_of (by decide +kernel), by decide +kernel⟩


/-! Memory instructions at address 0x20000 and in the scratchpad. -/

def om (ty : ElemTy) (size : BitVec 3) (as : BitVec 2 := 0) (g : Guard := g0) (sub : BitVec 5 := 0) : Mem :=
  ⟨g, 8, 1, 0, 0, size, ty, as, 0, 0, 0, sub, 0, false⟩
def addressed (v : Word) : State := (sreg paged [(1, v)]).setP 1 Mask.all 1
def one : Guard := ⟨1, false⟩
/-- Without a window of the pool no two addresses show the same byte. -/
theorem oneView_of {s : State} (h : s.windows = []) : s.oneView := fun a b e => by
  have k (x : Nat) : s.memKey x = x := by simp [State.memKey, h]
  rw [k, k] at e
  exact e
theorem shown_of {s : State} (h : s.windows = []) (x : Loc) (n : Nat) : s.shownOnce x n :=
  fun _ _ _ _ _ e => oneView_of h _ _ e
/-- Bytes are in their canonical form, no chunk is under way, and nothing is shown twice. -/
def sound (s : State) : Prop := s.memoryWf = true ∧ s.shadows = [] ∧ s.oneView
theorem sound_of {s : State} (h : s.memoryWf = true ∧ s.shadows = [] ∧ s.windows = []) : sound s :=
  ⟨h.1, h.2.1, oneView_of h.2.2⟩
/-- A raw page, a formatted one, and the scratchpad. -/
def places : List (Mem × Word × Nat) := [(om .i32 2 0 one, 0x20000, 0), (om .f32 2 0 one, 0x1C0000000, 7), (om .i32 2 1 one, 0x20, 0)]

theorem witness_LoadVector : ∀ e ∈ places,
    let s := addressed e.2.1
    passes ((s.entering (.ld e.1)).loadAll e.1 (Mask.list (s.acted e.1.g)))
        (fun r => !r.1.isEmpty && r.1.all fun x => plainB x.acc.loc && x.acc.loc.fmt == e.2.2) ∧ Ready (.ld e.1) s ∧ sound s := by
  intro e he
  fin_cases he <;> exact ⟨passes_of (by decide +kernel), ready_of (by decide +kernel), sound_of (by decide +kernel)⟩
theorem witness_StoreVector : ∀ e ∈ places,
    let s := addressed e.2.1
    passes ((s.entering (.st e.1)).checkAll (spaceOf e.1.as) (s.memAddr e.1 false) (memNeed e.1 true) (Mask.list (s.acted e.1.g)))
        (fun r => !r.1.isEmpty && r.1.all fun x => plainB x.loc && x.loc.fmt == e.2.2) ∧ Ready (.st e.1) s ∧ sound s := by
  intro e he
  fin_cases he <;> exact ⟨passes_of (by decide +kernel), ready_of (by decide +kernel), sound_of (by decide +kernel)⟩
theorem witness_LoadScalar :
    let s := addressed 0x20000
    let o := om .i64 3
    let l : S3 := ⟨3, 0, .imm 8, .i32, 2⟩
    let at' (i : Instr) (a : Word) (n : Nat) : Prop :=
      passes ((s.entering i).checkAcc .gen 127 a { n := n }) fun r => plainB r.1.loc && okAnd (r.2.readLoc 0 r.1.loc n) fun _ => true
    (at' (.lds o) (s.memAddr o true 0) 8 ∧ Ready (.lds o) s ∧ at' (.sldp l) (s.pc + (8 : BitVec 32).signExtend 64) 4 ∧ Ready (.sldp l) s)
      ∧ sound s ∧ o.size.toNat < 4 ∧ l.sub.toNat < 4 :=
  ⟨⟨passes_of (by decide +kernel), ready_of (by decide +kernel), passes_of (by decide +kernel), ready_of (by decide +kernel)⟩,
    sound_of (by decide +kernel), by decide, by decide⟩
theorem witness_StoreScalar :
    let s := addressed 0x20000
    let o := om .i64 3
    passes ((s.entering (.sts o)).checkAcc .gen 127 (s.memAddr o true 0) { n := 8, rd := false, wr := true }) (fun r => plainB r.1.loc)
      ∧ Ready (.sts o) s ∧ sound s :=
  ⟨passes_of (by decide +kernel), ready_of (by decide +kernel), sound_of (by decide +kernel)⟩
theorem witness_Atomics :
    let s := addressed 0x20000
    let o := om .n64 3 0 one
    let q := om .i32 2 1 g0 16
    let u := addressed 0x20
    (passes ((s.entering (.atom o)).checkAll .gen (s.memAddr o false) (atomNeed o) (Mask.list (s.acted o.g)))
        (fun r => !r.1.isEmpty && r.1.all fun x => match x.loc with | .phys f => f.pol == 0 && f.pa % 8 == 0 | .pad _ _ => false)
      ∧ Ready (.atom o) s ∧ sound s)
    ∧ (passes ((u.entering (.atoms q)).checkAcc .spl 127 (u.memAddr q true 0) (atomNeed q))
        (fun r => match r.1.loc with | .phys _ => false | .pad _ o => o % 4 == 0) ∧ Ready (.atoms q) u ∧ sound u)
    ∧ (ScalarTy .n64 ∨ ElemTy.n64 = .f32) ∧ sizeBytes o = elemBits .n64 / 8 ∧ o.sub.toNat % 16 < 9
      ∧ sizeBytes q = elemBits .i32 / 8 ∧ q.sub.toNat % 16 < 9 :=
  ⟨⟨passes_of (by decide +kernel), ready_of (by decide +kernel), sound_of (by decide +kernel)⟩,
    ⟨passes_of (by decide +kernel), ready_of (by decide +kernel), sound_of (by decide +kernel)⟩,
    .inl (by simp [ScalarTy]), by decide⟩
/-- WB and STREAM lines, of which a tile's fetch holds none or holds one; `cinv.discard` names lines of one policy. -/
theorem witness_CacheOperations : ∀ v ∈ [(0x20000 : Word), 0xC0000000],
    let s := addressed v
    let o := om .i32 0 0 one
    let d := om .i32 0 0 one 1
    let held : State := { s with ops := [{
      kind := .mma, course := 0, core := some 0, o := ⟨g0, 64, 1, 1, 2, 0, 4, 0, 0, .bf16x2, 0, 0, 0⟩
      early := [{ tile := 0, elems := [], lines := [v.toNat % 0x40000000 / 128] }] }] }
    sound s ∧ (∀ i ∈ [Instr.fence ⟨false, 0, 0, 0, 5, 0⟩, .cpf o, .cwb o, .cinv o, .cinv d, .icinv ⟨false, 0, 0, 0, 1, 0⟩], Ready i s)
      ∧ passes (s.cacheLines o false (Mask.list (s.acted one))) (fun fs => !fs.isEmpty && fs.all fun f => f.pol < 2 && !s.pinned (f.pa / 128))
      ∧ passes (s.cacheLines d true (Mask.list (s.acted one)))
        (fun fs => !fs.isEmpty && fs.all fun f => !s.pinned (f.pa / 128) && fs.all fun g => f.pol == g.pol)
      ∧ passes (held.cacheLines o false (Mask.list (held.acted one))) (fun fs => fs.any fun f => f.pol < 2 && held.pinned (f.pa / 128))
      ∧ Ready (.cinv o) held := by
  intro v hv
  fin_cases hv <;> exact ⟨sound_of (by decide +kernel), ready_all (by decide +kernel), passes_of (by decide +kernel),
    passes_of (by decide +kernel), passes_of (by decide +kernel), ready_of (by decide +kernel)⟩

/-! Copies, batches and sync words. -/

def oc (sw : BitVec 6) : Cp := ⟨one, 3, 1, 5, 0, sw, 7, 9, 2, 32, 4, 0, .i32, 0, 1⟩
/-- 64 copies wait on the core. -/
def crowded : State :=
  { addressed 0 with copies := List.replicate 64 { course := 0, core := 0, batch := 0, srcSp := .gen, dstSp := .spl, rowb := 32, todo := [], sync := none, dec := none, scope := 1 } }
theorem witness_CopyIssue :
    let s := addressed 0
    (Ready (.cpy (oc 0)) s ∧ Ready (.cpy (oc 10)) s ∧ Ready (.cpyg (oc 0)) s ∧ Ready (.cpyg (oc 0)) demo
        ∧ Ready (.cpy (oc 0)) crowded ∧ Ready (.cpyg (oc 0)) crowded)
      ∧ passes (s.checkSync (s.sreg 10)) (fun _ => true) ∧ s.copiesOn (s.coreOf 0) < 64 ∧ Mask.list (s.acted one) ≠ []
      ∧ Mask.list (demo.acted one) = [] ∧ 64 ≤ crowded.copiesOn (crowded.coreOf 0) :=
  ⟨⟨ready_of (by decide +kernel), ready_of (by decide +kernel), ready_of (by decide +kernel), ready_of (by decide +kernel),
      ready_of (by decide +kernel), ready_of (by decide +kernel)⟩, passes_of (by decide +kernel), by decide +kernel⟩
theorem witness_CopyChunks : (0 : Nat) < 65536 ∧ 65535 < 65536 ∧ (splitRow 0xFFF 0 true 4097 40 0).length = 3 := by decide +kernel

def os (x : BitVec 12) (imm : BitVec 16) : Sys := ⟨false, 3, 1, 2, x, imm⟩
/-- Batches `a` to `b − 1` of the course are sealed and outstanding, and a copy of the oldest is under way. -/
def sealed (a b : Nat) : State :=
  { addressed 0 with copies := [{ course := 0, core := 0, batch := a, srcSp := .gen, dstSp := .spl, rowb := 32, todo := [], sync := none, dec := none, scope := 1 }] }.modCourse 0
    fun x => { x with oldest := a, openBatch := b }
theorem idle_of {s : State} (h : (s.course 0).splits.length = 1) (w : (s.split 0 0).wait = .ready) :
    ∀ j n, (s.split 0 j).wait ≠ .batch n :=
  splits_of 1 h (fun j hj n e => by obtain rfl : j = 0 := by omega
                                    rw [w] at e; cases e) fun _ _ e n h => by rw [e] at h; cases h
/-- Room for a batch and none; a BWAIT that is met, one that counts a failed batch, and one that is not met; SWAIT reached, at a fault, and waiting. -/
theorem witness_BatchesAndSyncWords :
    let o := os 0 0
    (Ready (.bseal o) demo ∧ (∀ j n, (demo.split 0 j).wait ≠ .batch n) ∧ demo.isLane = false
        ∧ (demo.course 0).oldest ≤ (demo.course 0).openBatch)
      ∧ (let s := sealed 0 15
        Ready (.bseal o) s ∧ (∀ j n, (s.split 0 j).wait ≠ .batch n) ∧ 15 ≤ (s.course 0).openBatch - (s.course 0).oldest)
      ∧ (Ready (.bwait o) demo ∧ (demo.course 0).openBatch - (demo.course 0).oldest ≤ 0 ∧ (demo.course 0).failCounted 0 = none)
      ∧ (let s := demo.modCourse 0 fun x => { x with oldest := 1, openBatch := 1, fails := [⟨0, 0x20000, 6⟩] }
        Ready (.bwait o) s ∧ CanTrap s 0 ∧ s.cur = .course 0 0 ∧ (s.course 0).failCounted 0 = some ⟨0, 0x20000, 6⟩)
      ∧ (let s := sealed 0 1
        Ready (.bwait o) s ∧ 0 < (s.course 0).openBatch - (s.course 0).oldest ∧ s.batchBusy 0 0 = true
          ∧ ∀ e ∈ (s.course 0).lateFlags, s.batchDone 0 e.1 = false)
      ∧ (∀ i ∈ [Instr.swinit o, .swait o], Ready i demo) ∧ demo.checkSync 0 = .ok 0 ∧ (0 < demo.blocks.length)
      ∧ (BitVec.ofNat 32 (demo.padNat 0 8 4) - 0).toNat < 2 ^ 31 ∧ ¬(BitVec.ofNat 32 (demo.padNat 0 8 4) - 1).toNat < 2 ^ 31
      ∧ (demo.padNat 0 12 4).testBit 1 = false ∧ ((demo.storePad 0 12 [2]).padNat 0 12 4).testBit 1 = true :=
  ⟨⟨ready_of (by decide +kernel), idle_of (by decide +kernel) (by decide +kernel), by decide +kernel⟩,
    ⟨ready_of (by decide +kernel), idle_of (by decide +kernel) (by decide +kernel), by decide +kernel⟩,
    ⟨ready_of (by decide +kernel), by decide +kernel⟩, ⟨ready_of (by decide +kernel), canTrap_of (by decide +kernel), by decide +kernel⟩,
    ⟨ready_of (by decide +kernel), by decide +kernel⟩, ready_all (by decide +kernel), by decide +kernel⟩

/-! The matrix engine: handle 1 and 2 hold 64 × 64 elements of BF16 at 0x20000. -/

def tile : BitVec 128 := (64 + 64 * 2 ^ 16 + 128 * 2 ^ 32 : BitVec 64) ++ (5 * 2 ^ 58 + 0x20000 : BitVec 64)
def ox (s : BitVec 6) (ha hb : BitVec 4) : Mx := ⟨g0, 64, 1, ha, hb, 0, 4, 0, 0, .bf16x2, 0, s, 0⟩
def handled (h : BitVec 128) : State :=
  ((sreg paged [(2, tile.extractLsb' 0 64), (3, tile.extractLsb' 64 64), (10, 1)]).setG 1 { size := 32, mem := 0xFFFFFFFF }).modCourse 0
    fun x => { x with h := [(1, h), (2, h)] }
def queued (n : Nat) : State :=
  { handled tile with ops := List.replicate n { kind := .mzero, course := 0, core := some 0, o := ox 0 0 0, issued := 0 } }
/-- The conditions of R261. -/
def lawful (v : BitVec 128) : Bool :=
  let f (lo len : Nat) : Nat := (v.extractLsb' lo len).toNat
  let e : Nat := if f 58 4 = 5 ∨ f 58 4 = 6 then 2 else 1
  decide (f 120 8 = 0 ∧ f 62 2 = 0 ∧ (f 58 4 = 1 ∨ (5 ≤ f 58 4 ∧ f 58 4 ≤ 10)) ∧ 1 ≤ f 64 16 ∧ 1 ≤ f 80 16
    ∧ (if f 58 4 = 1 then (f 80 16 + 7) / 8 ≤ f 96 24 else f 0 57 % e = 0 ∧ f 96 24 % e = 0 ∧ f 80 16 * e ≤ f 96 24)
    ∧ (v.getLsbD 57 = true → f 0 57 < 2 ^ 21))
theorem witness_MatrixHandles :
    let s := handled tile
    let hset (n : BitVec 6) : Mx := ⟨g0, 0, 0, 1, 0, 0, 0, 0, 0, .i32, 0, n, 0⟩
    ((∀ i ∈ [Instr.hset (hset 0), .hset (hset 2), .hset (hset 10), .hgen (os 0 0), .mstat (os 0 0), .msclr (os 0 0), .ocfence (os 0 0)],
          Ready i s) ∧ CanTrap s 0
        ∧ ∀ i ∈ [Instr.hset (hset 2), .hgen (os 0 0), .mstat (os 0 0), .msclr (os 0 0)], Ready i (queued 1))
      ∧ s.cur = .course 0 0 ∧ s.matrixPending = false ∧ lawful (s.sreg 3 ++ s.sreg 2) = true ∧ lawful (s.sreg 11 ++ s.sreg 10) = false
      ∧ (queued 1).matrixPending = true :=
  ⟨⟨ready_all (by decide +kernel), canTrap_of (by decide +kernel), ready_all (by decide +kernel)⟩, by decide +kernel⟩
/-- Handles that fit, with and without acted members; handles that do not; a full queue, and saved operations. -/
theorem witness_MatrixIssue :
    let s := handled tile
    let o := ox 0 1 2
    let none : Mx := { o with g := one }
    let saved : State := { s with ops := [{ kind := .mzero, course := 0, core := .none, o := ox 0 0 0, issued := 0 }] }
    ((∀ i ∈ [Instr.mma o, .mmas o, .mzero o, .mcvt o, .mma none], Ready i s) ∧ (∀ i ∈ [Instr.mma o, .mzero o, .mcvt o], Ready i (queued 16))
        ∧ Ready (.mma o) (handled 0) ∧ CanTrap (handled 0) 0 ∧ (∀ i ∈ [Instr.mma o, .mzero o, .mcvt o], Ready i saved))
      ∧ passes (mmaRows o 32 (s.acted g0 &&& 0xFFFFFFFF)) (fun _ => true)
      ∧ s.mmaChecks o (s.mmaTiles o false) = .ok () ∧ (s.acted g0 &&& (s.greg 1).mem ≠ 0) ∧ (s.acted one &&& (s.greg 1).mem = 0)
      ∧ (s.engineQueue 0).length < 16 ∧ s.savedOps 0 = [] ∧ 16 ≤ ((queued 16).engineQueue 0).length
      ∧ saved.savedOps 0 ≠ []
      ∧ (handled 0).mmaChecks o ((handled 0).mmaTiles o false) = .error (trapC 0x09 0 (BitVec.ofNat 64 (256 * 1 + 6))) :=
  ⟨⟨ready_all (by decide +kernel), ready_all (by decide +kernel), ready_of (by decide +kernel), canTrap_of (by decide +kernel),
      ready_all (by decide +kernel)⟩, passes_of (by decide +kernel), by decide +kernel⟩

/-! Marks at 0x20000. -/

/-- The mark's SETTER and status word, with launches beside the course's own: 2 retired, 3 weaker, 4 held by its parent. -/
def marked (setter status : Word) : State :=
  let s := poke (addressed 0x20000) [(0x20008, setter), (0x20010, status)]
  { s with launches := s.launches.map (fun (x : Launch) => { x with fault := true }) ++ [
      { id := 2, ctx := 0, desc := {}, admitted := 1, cls := 1, st := .retired },
      { id := 3, ctx := 0, desc := {}, admitted := 0, cls := 0, st := .running },
      { id := 4, ctx := 0, desc := {}, admitted := 1, cls := 1, st := .held, parent := 1 }] }
/-- Each way to name the setter, near and at SYSTEM scope; a mark on which something waits. -/
theorem witness_Marks :
    let s := marked 0 0
    let t := s.setS 2 1
    let u := marked 0 0x10000
    ((∀ i ∈ [Instr.mkinit (os 0 0), .mkinit (os 2 0), .mkset (os 0 0), .mkset (os 16 5), .mkset (os 5 0), .mkadd (os 0 0), .mkadd (os 16 5)],
          Ready i s) ∧ Ready (.mkinit (os 1 0)) t ∧ Ready (.mkinit (os 0 0)) u ∧ CanTrap u 0)
      ∧ passes (s.markLeaf (s.sreg 1) true) (fun f => s.markWaiting f == 0 && f.pol == 0)
      ∧ passes (u.markLeaf (u.sreg 1) true) (fun f => u.markWaiting f != 0) ∧ sound s
      ∧ t.setterOf (t.ctxOf t.curCourse) (t.sreg 2) = .launch 0 ∧ u.cur = .course 0 0 :=
  ⟨⟨ready_all (by decide +kernel), ready_of (by decide +kernel), ready_of (by decide +kernel), canTrap_of (by decide +kernel)⟩,
    passes_of (by decide +kernel), passes_of (by decide +kernel), sound_of (by decide +kernel), by decide +kernel⟩
/-- Each setter that there can be, and a condition that holds and one that does not. -/
theorem witness_MarkWaits : ∀ e ∈ [(0xFFFFFFFFFFFFFFFF, Check.external), (1, .strong), (2, .retired), (0, .unbound), (4, .childJoin), (3, .weak 2)],
    let s := marked e.1 0
    passes (s.markLeaf (s.sreg 1) false) (fun f => s.classCheck (s.launchIx 0) (s.launch 0).cls (s.markWord f 8) == e.2
        && compares 0 false (s.markValue f).1 (s.sreg 2) && !compares 1 false (s.markValue f).1 (s.sreg 2))
      ∧ ((s.launch 0).fault = true ∧ s.shadows = []) ∧ CanTrap s 0
      ∧ (∀ i ∈ [Instr.waitm (os 0 0), .waitm (os 1 0), .promote (os 0 0), .clsrd (os 0 0), .clsrd ⟨false, 3, 0, 0, 0, 0⟩], Ready i s) := by
  intro e he
  fin_cases he <;> exact ⟨passes_of (by decide +kernel), by decide +kernel, canTrap_of (by decide +kernel), ready_all (by decide +kernel)⟩

/-! Barriers of a block of two courses. -/

def pair : State :=
  { demo with
    courses := demo.courses ++ [{ block := 0, index := 1, allot := 2048, quarter := 1, splits := [{ pc := 0x1000, m := Mask.all, a := Mask.all }] }]
    blocks := demo.blocks.map fun (x : Block) => { x with courses := [0, 1] } }
theorem alone_of {s : State} (h : (s.course 0).splits.length = 1) : ∀ j, j ≠ 0 → (s.split 0 j).m = 0 ∧ (s.split 0 j).wait = .ready :=
  splits_of 1 h (fun j hj h0 => absurd hj (by omega)) fun _ hm hw _ => ⟨hm, hw⟩
/-- The last arrival and one before it; a phase that is over and the current one; a count that differs, and one above 16; the only course that is left; a course that is
killed while the other waits. -/
theorem witness_BlockBarriers :
    let o (x : BitVec 12) (n : BitVec 16) : Sys := ⟨false, 3, 0, 2, x, n⟩
    let e : State := pair.setBar 0 0 { count := 1, expect := some 2 }
    let s := pair.setS 2 17
    let stays := e.modSplit 1 0 fun x => { x with wait := .bar 0 0 5 true }
    (pair.cur = .course 0 0 ∧ (∀ j, j ≠ 0 → (pair.split 0 j).m = 0 ∧ (pair.split 0 j).wait = .ready) ∧ (∀ i ops, pair.wait ≠ .join i ops)
        ∧ ((pair.course 0).atRegang ||| pair.ejectedLanes 0) = 0 ∧ 0 ∈ (pair.block 0).courses ∧ (pair.course 0).place = .resident
        ∧ (pair.bar 0 0).expect = none ∧ (pair.bar 0 0).count + 1 = 1 ∧ (pair.bar 0 0).phase = 0
        ∧ ∃ d ∈ (pair.block 0).courses, d ≠ 0 ∧ (pair.course d).place ≠ .ended ∧ ∃ y ∈ (pair.course d).splits, y.m ≠ 0 ∧ y.wait = .ready)
      ∧ (∀ i ∈ [Instr.bar (o 0 1), .bar (o 0 2), .bara (o 0 1), .bara (o 0 0), .barw (o 0 0)], Ready i pair)
      ∧ (Ready (.barw (o 0 0)) (pair.setS 2 1) ∧ (((pair.setS 2 1).sreg 2).truncate 16 : BitVec 16) ≠ 0)
      ∧ ((∀ i ∈ [Instr.bar (o 0 3), .bara (o 0 3)], Ready i e) ∧ CanTrap e 0 ∧ (e.bar 0 0).expect = some 2)
      ∧ ((∀ i ∈ [Instr.bar (o 16 0), .bara (o 16 0)], Ready i s) ∧ CanTrap s 0 ∧ 16 < (s.sreg 2).toNat % 32)
      ∧ ((∀ i ∈ [Instr.bar (o 0 2), .barw (o 0 0)], Ready i demo) ∧ CanTrap demo 0 ∧ demo.cur = .course 0 0 ∧ demo.liveCourses 0 = [0]
        ∧ ((demo.course 0).atRegang ||| demo.ejectedLanes 0) = 0 ∧ (∀ j, j ≠ 0 → (demo.split 0 j).m = 0 ∧ (demo.split 0 j).wait = .ready)
        ∧ (∀ i ops, demo.wait ≠ .join i ops) ∧ 0 ∈ (demo.block 0).courses ∧ (demo.course 0).place = .resident
        ∧ (demo.bar 0 0).expect = none ∧ (demo.bar 0 0).count = 0 ∧ (demo.bar 0 0).phase = 0)
      ∧ Ready (.ckill (o 0 0)) stays ∧ (stays.course 0).place ≠ .ended ∧ 1 ∈ (stays.block 0).courses ∧ 0 < stays.blocks.length
      ∧ (stays.split 1 0).wait = .bar 0 0 5 true ∧ (stays.bar 0 0).phase = 0 ∧ (stays.course 1).splits.length = 1 :=
  ⟨⟨rfl, alone_of (by decide +kernel), not_join (by decide +kernel), by decide +kernel, by decide +kernel, by decide +kernel,
      by decide +kernel, by decide +kernel, by decide +kernel, 1, by decide +kernel⟩,
    ready_all (by decide +kernel), ⟨ready_of (by decide +kernel), by decide +kernel⟩,
    ⟨ready_all (by decide +kernel), canTrap_of (by decide +kernel), by decide +kernel⟩,
    ⟨ready_all (by decide +kernel), canTrap_of (by decide +kernel), by decide +kernel⟩,
    ⟨ready_all (by decide +kernel), canTrap_of (by decide +kernel), by decide +kernel, by decide +kernel, by decide +kernel,
      alone_of (by decide +kernel), not_join (by decide +kernel), by decide +kernel⟩,
    ready_of (by decide +kernel), by decide +kernel⟩
/-- Every register of R343; TPC at trap level and outside it; sleeping for no time and for some; CKPT.wait with and without a
dirty register; an ejected lane. -/
theorem witness_StateRegisters :
    let o (x : BitVec 12) : Sys := ⟨false, 3, 1, 0, x, 0⟩
    let z (x : BitVec 12) (n : BitVec 16) : Sys := ⟨false, 0, 0, 0, x, n⟩
    let at' := demo.modCourse 0 fun x => { x with trap := { level := true } }
    let soiled := demo.modCourse 0 fun x => { x with dirty := [(3, true)] }
    (∀ n ∈ [0, 1, 2, 3, 4, 5, 6, 8, 9, 0x10, 0x11, 0x12, 0x20, 0x21, 0x22, 0x30, 0x31], Ready (.srd (o n)) demo ∧ Ready (.srd (o n)) ejected)
      ∧ ((∀ i ∈ [Instr.swr (o 2), .swr (o 8), .swr (o 9), .swr (o 0x10), .yield (z 0 0), .yield (z 1 0), .sleep (z 1 0), .sleep (z 1 9),
          .sleep (o 0), .ckpt (z 0 0), .ckpt (z 1 0)], Ready i demo) ∧ CanTrap demo 0 ∧ Ready (.swr (o 2)) at' ∧ Ready (.ckpt (z 1 0)) soiled
        ∧ ∀ i ∈ [Instr.yield (z 0 0), .sleep (z 1 9), .ckpt (z 1 0)], Ready i ejected)
      ∧ (demo.course 0).trap.level = false ∧ (at'.course 0).trap.level = true ∧ (at'.sreg 1).extractLsb' 0 2 = 0
      ∧ (demo.course 0).dirtyRegs = [] ∧ (soiled.course 0).dirtyRegs ≠ [] := by
  refine ⟨?_, ⟨ready_all (by decide +kernel), canTrap_of (by decide +kernel), ready_of (by decide +kernel), ready_of (by decide +kernel),
    ready_all (by decide +kernel)⟩, by decide +kernel⟩
  intro n hn
  fin_cases hn <;> exact ⟨ready_of (by decide +kernel), ready_of (by decide +kernel)⟩


/-! Traps. -/

theorem witness_TrapInstructions :
    let o : Sys := ⟨false, 0, 0, 0, 0, 5⟩
    let at' := demo.modCourse 0 fun x => { x with trap := { level := true, pc := 0x1008 } }
    (∀ i ∈ [Instr.trap o, .brk o, .pguard 0x3F8, .reservedOpcode 0], Ready i demo ∧ Ready i ejected)
      ∧ (CanTrap demo 0 ∧ Ready (.tret (os 0 0)) demo ∧ Ready (.tret (os 0 0)) at') ∧ demo.cur = .course 0 0 ∧ ejected.cur = .lane 0
      ∧ (at'.course 0).trap.level = true ∧ (∀ y ∈ (at'.course 0).tokens, y.isOpen = false) ∧ (at'.split 0 0).m ≠ 0
      ∧ (at'.course 0).openBatch ≤ (at'.course 0).oldest ∧ (∀ e ∈ (at'.course 0).lateFlags, at'.batchDone 0 e.1 = false)
      ∧ ((at'.course 0).splits.map (·.wait)) = [.ready] :=
  ⟨by intro i hi; fin_cases hi <;> exact ⟨ready_of (by decide +kernel), ready_of (by decide +kernel)⟩,
    ⟨canTrap_of (by decide +kernel), ready_of (by decide +kernel), ready_of (by decide +kernel)⟩, by decide +kernel⟩
/-- The first save-area range of the context stands at the start of host memory. -/
def hosted (s : State) : State := s.modCtx 0 fun x => { x with ranges := [0xC00000003FFFF] }
/-- No active lane; a ring with room and one without; CKILL of a course that runs and of an ejected lane. -/
theorem witness_ServicesAndKill :
    let i : Instr := .svc ⟨false, 0, 0, 0, 0, 12⟩
    let s := hosted demo
    let off := sreg s [(61, 0), (62, 0), (63, 0)]
    let full := poke s [(0xC000000000000, 4096)]
    let k : Instr := .ckill ⟨false, 0, 1, 0, 0, 0⟩
    (Ready i off ∧ Ready i s ∧ Ready i full ∧ Ready k demo ∧ Ready k ejected) ∧ off.active = 0 ∧ s.active ≠ 0
      ∧ s.saveIx 0 0 + 1 + 96 ≤ s.saveIx 0 1 + 4096 ∧ s.memoryWf = true ∧ s.shadows = [] ∧ 0 < s.ctxs.length ∧ isHost (s.saveBase 0) = true
      ∧ (s.course 0).place = .resident ∧ (s.course 0).leaving = none ∧ s.ctxOf 0 = 0 ∧ full.active ≠ 0
      ∧ full.saveIx 0 1 + 4096 < full.saveIx 0 0 + 1 + 96 ∧ (demo.course 0).place ≠ .ended :=
  ⟨⟨ready_of (by decide +kernel), ready_of (by decide +kernel), ready_of (by decide +kernel), ready_of (by decide +kernel),
    ready_of (by decide +kernel)⟩, by decide +kernel⟩
/-- At once; nested; a third; without a handler; with four handlers on the core, off the core and about to leave it; with an
older trap that waits; with a window of another split open. -/
theorem witness_TakingTraps :
    let e : Trap := { code := 0x17, pc := 0x1008 }
    let at' (nested : Bool) := demo.modCourse 0 fun x => { x with trap := { level := true, nested := nested } }
    let none := demo.modLaunch 0 fun x => { x with desc := { x.desc with handler := 0 } }
    let more (n : Nat) (f : Course) : State := { demo with courses := demo.courses ++ List.replicate n f }
    let busy := more 4 { block := 0, index := 1, allot := 32, trap := { level := true } }
    let owes := more 1 { block := 0, index := 1, allot := 32, pending := [e] }
    let away := demo.modCourse 0 fun x => { x with place := .parkedQuota }
    let going := demo.modCourse 0 fun x => { x with leaving := some .evicted }
    let held := demo.modCourse 0 fun x => { x with win := some ⟨0x1000, 0, 1, 1⟩ }
    CanTrap demo 0 ∧ 0 < demo.courses.length ∧ e.split < (demo.course 0).splits.length ∧ (demo.course 0).win = .none
      ∧ (∀ n ∈ [false, true], ((at' n).course 0).trap.level = true ∧ ((at' n).course 0).trap.nested = n ∧ ((at' n).course 0).place ≠ .ended
        ∧ ((at' n).course 0).win = .none)
      ∧ (none.course 0).trap.level = false ∧ (none.launchOf 0).desc.handler = 0 ∧ (none.course 0).win = .none
      ∧ (∀ s ∈ [busy, owes, away, going], (s.course 0).place ≠ .ended ∧ (s.course 0).win = .none ∧ (s.course 0).trap.level = false
        ∧ (s.launchOf 0).desc.handler ≠ 0)
      ∧ 4 ≤ busy.handlers (busy.coreOf 0) ∧ owes.trapsWait (owes.coreOf 0) = true ∧ (away.course 0).place ≠ .resident
      ∧ (going.course 0).leaving.isSome = true ∧ (held.course 0).win ≠ .none ∧ e.window = false ∧ (held.course 0).place ≠ .ended :=
  ⟨canTrap_of (by decide +kernel), by decide +kernel⟩

/-- A register beyond the allotment, outside a latch window and in one; a latch that is invalid in lane 0; a lane that may not
execute; a target that is no multiple of 4. -/
theorem witness_OperandTraps :
    let small := demo.modCourse 0 fun x => { x with allot := 32 }
    let w : Window := { pc := 0x0FF8, split := 0, count := 1, pend := 0 }
    let windowed := small.modCourse 0 fun x => { x with win := some w }
    let i : Instr := .vadd ⟨false, g0, false, 32, 2, 3, 0, .i32, 0⟩
    let odd := demo.setS 5 2
    (∀ s ∈ [small, windowed, odd, demo], CanTrap s 0) ∧ (Ready (.vadd (ov .i32)) demo ∧ Ready (.jmpr ob) odd)
      ∧ small.hasAgent = true ∧ 32 ∈ (usesOf i).vr ++ (usesOf i).vw ∧ (small.course 0).allot = 32 ∧ fixedLatency i = true
      ∧ (windowed.course 0).win = some w ∧ (demo.acted g0).has 0 = true ∧ (ov .i32).b.getLsbD 11 = true
      ∧ (demo.latch 0).valid.has 0 = false ∧ ejectIllegal (.bar (os 0 0)) = true ∧ ejected.hasAgent = true
      ∧ (usesOf (.bar (os 0 0))).vr ++ (usesOf (.bar (os 0 0))).vw = [] ∧ (odd.sreg 5).extractLsb' 0 2 ≠ 0 :=
  ⟨by intro s hs; fin_cases hs <;> exact canTrap_of (by decide +kernel), ⟨ready_of (by decide +kernel), ready_of (by decide +kernel)⟩,
    by decide +kernel⟩

/-- `paged` with the pooled tier at 8 GiB and the doorbell pages of channels and the host port at 9 and 10 GiB. -/
def wide (v : Word) : State :=
  let s := poke (addressed v) [(0x12040, 0x800000000001F), (0x12048, 0x7000200000077), (0x12050, 0x7000000000077)]
  { s with windows := [(0, { base := 0x8000000000000, size := 1, ctl := 0x100000001 })] }
def walkIs (s : State) (v : Word) (p : Leaf → Bool) : Bool := match s.translate 0 v with | .ok f => p f | .error _ => false
/-- One access for each fault of R235. -/
theorem witness_AccessFaults :
    let o := om .i64 3
    let b := om .i64 0
    let closed := (wide 0x200000000).modRegion 0 fun x => { x with poolEn := false }
    let bad : State := { wide 0x20000 with poison := [(0x11000 / 64, true)] }
    let worn : State := { wide 0x20000 with poison := [(0x20000 / 64, true)] }
    (∀ v ∈ [(0x20001 : Word), 0x1000000000000000, 0x100000000, 0x140000000, 0x180000000, 0x200000000, 0x40000000, 0x1C0000000],
        Ready (.lds o) (wide v) ∧ CanTrap (wide v) 0)
      ∧ (Ready (.lds o) bad ∧ Ready (.lds o) closed ∧ Ready (.lds o) worn ∧ Ready (.lds b) (wide 0x40000000))
      ∧ 0x20001 % sizeBytes o ≠ 0 ∧ sizeBytes b = 1 ∧ canonical 0x1000000000000000 = false ∧ (wide 0).translate 0 0x100000000 = .error .invalid
      ∧ (wide 0).translate 0 0x140000000 = .error .malformed ∧ bad.translate 0 0x20000 = .error .poison
      ∧ walkIs (wide 0) 0x180000000 (fun f => !f.r) = true
      ∧ walkIs closed 0x200000000 (fun f => f.r && isPool f.pa && !closed.effPoolEn 0) = true
      ∧ walkIs (wide 0) 0x40000000 (fun f => f.r && f.pol == 3) = true ∧ walkIs (wide 0) 0x1C0000000 (fun f => f.r && f.fmt != 0) = true
      ∧ walkIs (wide 0) 0x200000000 (fun f => f.r && isPool f.pa && (wide 0).effPoolEn 0 && !(wide 0).poolUp) = true
      ∧ walkIs worn 0x20000 (fun f => f.r && worn.loadPoison f.pol f.pa 8) = true :=
  ⟨by intro v hv; fin_cases hv <;> exact ⟨ready_of (by decide +kernel), canTrap_of (by decide +kernel)⟩,
    ⟨ready_of (by decide +kernel), ready_of (by decide +kernel), ready_of (by decide +kernel), ready_of (by decide +kernel)⟩,
    by decide +kernel⟩
/-- A queue's page at three offsets, the last of its kind's, a channel's, and a device register that is no doorbell. -/
def deviceStores : List (Mem × Word × Nat) :=
  [(om .n64 3, 0x40000000, 0x7000100000000), (om .n64 3, 0x40000008, 0x7000100000008), (om .i32 2, 0x40000004, 0x7000100000004),
    (om .n64 3, 0x40000000 + 0xFFF0000, 0x700010FFF0000), (om .i32 2, 0x240000000, 0x7000200000000), (om .n64 3, 0x280000000, 0x7000000000000)]
theorem witness_DeviceRegisters :
    let found (s : State) (v : Word) (q : Need) (f : Leaf) : Bool := okAnd (s.checkAcc .gen 127 v q) fun r => r.1 == ⟨127, v, .phys f, 127⟩ && r.2 == s
    (∀ e ∈ deviceStores, Ready (.lds e.1) (wide e.2.1)) ∧ (∀ e ∈ deviceStores, Ready (.sts e.1) (wide e.2.1))
      ∧ (∀ e ∈ deviceStores, spaceOf e.1.as = .gen ∧ (e.1.size = 2 ∨ e.1.size = 3) ∧ e.1.ord = 0)
      ∧ (∀ e ∈ deviceStores, walkIs (wide e.2.1) e.2.1 (fun f => f.pa == e.2.2 && f.pol == 3
          && found ((wide e.2.1).entering (.lds e.1)) e.2.1 { n := sizeBytes e.1 } f
          && found ((wide e.2.1).entering (.sts e.1)) e.2.1 { n := sizeBytes e.1, rd := false, wr := true } f) = true)
      ∧ ∀ e ∈ deviceStores, ((wide e.2.1).doorbell e.2.2).isNone = (e.2.2 == 0x7000000000000) ∧ (wide e.2.1).memAddr e.1 true 0 = e.2.1 :=
  have all {f : Mem → Instr} (h : (deviceStores.all fun e => readyB (f e.1) (wide e.2.1)) = true) (e) (he : e ∈ deviceStores) :
    Ready (f e.1) (wide e.2.1) := ready_of (List.all_eq_true.mp h e he)
  ⟨all (by decide +kernel), all (by decide +kernel), by decide +kernel, by decide +kernel, by decide +kernel⟩

/-! Events of courses. -/

def ran (n : Nat) (s : State) : State := { s with clock := n, ctxs := s.ctxs.map fun (x : Ctx) => { x with run := n } }
/-- A split that waits at REGANG 1 for an ejected lane, since time 0, at 2^26. -/
def overdue : State :=
  ran (2 ^ 26) { ejected.modCourse 0 (fun x => { x with
      splits := x.splits.map fun (y : Split) => { y with wait := .regang 1 }
      tokens := [{}, { isOpen := true, opened := Mask.all, timer := some 0, hardTimer := some 0 }] }) with
    lanes := ejected.lanes.map fun (x : Lane) => { x with tok := 1 } }
/-- A split that waits for a page fault at 0x20000. -/
def faulted : State :=
  hosted ((demo.modSplit 0 0 fun x => { x with wait := .page 0x20000 0 false false 127 none none 0 none }).modCtx 0 fun x =>
    { x with vector := 5 })
theorem witness_CourseEvents :
    let e : Trap := { code := 0x17, pc := 0x1008 }
    let trapped := demo.modCourse 0 fun x => { x with pending := [e] }
    let unhandled := trapped.modLaunch 0 fun x => { x with desc := { x.desc with handler := 0 } }
    let long := ran (2 ^ 24) (demo.modCourse 0 fun x => { x with trap := { level := true } })
    let lane (st : LaneSt) (w : Wait) : State :=
      { ejected with lanes := ejected.lanes.map fun (x : Lane) => { x with st := st, wait := w, outs := [4] } }
    let away := demo.modCourse 0 fun x => { x with place := .parkedQuota }
    let asleep := demo.modSplit 0 0 fun x => { x with wait := .sleep 0 }
    let soiled := (demo.modSplit 0 0 fun x => { x with wait := .ckpt [3] }).modCourse 0 fun x => { x with dirty := [(3, true)] }
    let joined := faulted.modCtx 0 fun x => { x with pfs := [⟨0, 2, 0⟩] }
    CanTrap overdue 0 ∧ (0 < demo.courses.length)
      ∧ ((trapped.course 0).pending = [e] ∧ e.split < (trapped.course 0).splits.length ∧ (trapped.course 0).place = .resident
        ∧ (trapped.course 0).leaving = none ∧ (trapped.course 0).win = none ∧ (trapped.course 0).trap.level = false
        ∧ trapped.ctxRuns 0 = true ∧ trapped.handlers (trapped.coreOf 0) < 4 ∧ trapped.courses.length = 1
        ∧ (trapped.launchOf 0).desc.handler ≠ 0)
      ∧ ((unhandled.course 0).pending = [e] ∧ (unhandled.course 0).place = .resident ∧ (unhandled.course 0).win = none
        ∧ unhandled.ctxRuns 0 = true ∧ (unhandled.launchOf 0).desc.handler = 0)
      ∧ ((long.course 0).trap.level = true ∧ 2 ^ 24 ≤ long.trapTime 0 ∧ (long.course 0).place ≠ .ended)
      ∧ (0 < ejected.lanes.length ∧ ((lane (.starting 0) .ready).lane 0).st = .starting 0 ∧ (lane (.starting 0) .ready).ctxRuns 0 = true)
      ∧ ((lane (.rejoining 0) .ready).rejoinDue 0 = true ∧ ((lane (.rejoining 0) .ready).lane 0).outFault = none
        ∧ ((lane (.rejoining 0) .ready).lane 0).course = 0)
      ∧ (overdue.softDue 0 1 = true ∧ overdue.overdueDue 0 1 = true ∧ (firstWaiting ((overdue.course 0).waitingAt 1)).isSome = true)
      ∧ (((away.restoreRoom 0).map fun r => r.plan.length) = some 1 ∧ (∀ y ∈ (away.course 0).tokens, y.isOpen = false)
        ∧ ((away.course 0).splits.map (·.wait)) = [.ready])
      ∧ ((asleep.split 0 0).wait = .sleep 0 ∧ 0 ≤ asleep.run 0 ∧ (asleep.course 0).place = .resident)
      ∧ ((lane .running (.sleep 0)).lane 0).wait = .sleep 0
      ∧ ((soiled.course 0).dirty ≠ [] ∧ (soiled.split 0 0).wait = .ckpt [3] ∧ soiled.ctxRuns 0 = true ∧ (soiled.course 0).place = .resident)
      ∧ ((faulted.pageOf (.course 0 0)).map (·.record) = some none ∧ (faulted.ctx 0).pfs = [] ∧ isHost (faulted.saveBase 0) = true
        ∧ faulted.saveIx 0 4 + 1 ≤ faulted.saveIx 0 5 + 1024 ∧ faulted.memoryWf = true ∧ faulted.shadows = [] ∧ faulted.ctxOf 0 = 0 ∧ 0 < faulted.ctxs.length)
      ∧ ((joined.ctx 0).pfs.find? fun r => r.unit == 2 && r.kind == 0) = some ⟨0, 2, 0⟩
      ∧ (ran 4096 faulted).pageParkDue 0 = true :=
  ⟨canTrap_of (by decide +kernel), by decide +kernel⟩

/-! Events of engines. -/

def withOp (s : State) (o : MatOp) : State := { s with ops := [o], clock := 64, cores := [(0, { arrays := 4 })] }
def theOp (k : OpKind) : MatOp := { kind := k, course := 0, core := some 0, o := ox 0 1 2, issued := 0 }
def begun (k : OpKind) : State :=
  withOp (handled tile) { theOp k with rows := [(0, 3), (1, 4)], acted := 0xFF, ready := some 0, started := some 0, finish := 64 }
def copying (src : Word) (mark : Option Nat) : State :=
  { addressed 0 with copies := [{ course := 0, core := 0, batch := 0, srcSp := .gen, dstSp := .gen, rowb := 64, sync := some 0x40, dec := none, scope := 1
                                  todo := [⟨src, 0x30000, 0, 32, [], 0, none, ([], [])⟩, ⟨src, 0x30000, 32, 32, [], 0, mark, ([], [])⟩] }] }
def outcome (s : State) (p : Exn → Bool) : Bool :=
  match s.chunkOutcome 0 0 with | some (_, _, .error e) => p e | _ => false
/-- A tile read at once and one of which a line was read before; a whole tile; each completion; a limiter step; a raw chunk, the
page fault of one, and its trap with and without another chunk under way. -/
theorem witness_EngineEvents :
    let tag : TileTag := ⟨0, 1, tile, 0, 0, 4, 64, false⟩
    let want (e : List TileRead) : State := withOp (handled tile) { theOp .mma with tags := [tag], tiles := [none], early := e }
    let go : MatOp := { theOp .mma with tiles := [some ⟨[], []⟩], ready := some 0 }
    let whole := withOp (handled tile) go
    let copy := copying 0x20000 none
    let f : Leaf := match copy.translate 0 0x20000 with | .ok f => f | .error _ => default
    let g : Leaf := match copy.translate 0 0x30000 with | .ok f => f | .error _ => default
    let gone (e : Option Nat) : State := copying 0x1000000000000000 e
    sound copy ∧
    (∀ e ∈ [[], [⟨0, [], [], 0⟩]], (want e).fetches 0 = true ∧ tag.bytes ≤ 0x40000 ∧ okAnd ((want e).readTile 0 tag) (fun d =>
          (want e).pinsFit 0 0 0 (match (((want e).ops.getD 0 default).begun 0) with | some e' => e'.mix (want e).fresh d | none => d)) = true)
      ∧ (whole.engineHead 0 = some (0, go) ∧ 4 ≤ (whole.coreSt 0).arrays ∧ whole.clock = 64 ∧ whole.opStays go = true
        ∧ whole.startMeets go = none)
      ∧ (∀ k ∈ [OpKind.mma, .mzero, .mcvt], ((begun k).engineHead 0).map (fun e => (e.2.kind, e.2.started, e.2.finish)) = some (k, some 0, 64)
        ∧ ((begun k).course 0).place ≠ .ended ∧ (begun k).clock = 64 ∧ 0 < (begun k).courses.length)
      ∧ (formatOfTy (theOp .mcvt).o.ty).isSome = true ∧ ({ want [] with cores := [] } : State).slewDue 0 = true
      ∧ (copy.mayStart (copy.copies.getD 0 default) = true ∧ f.pa = 0x20000 ∧ g.pa = 0x30000
        ∧ copy.copyLoc 0 .gen 0x20000 32 false = .ok (.phys f) ∧ copy.copyLoc 0 .gen 0x30000 32 true = .ok (.phys g)
        ∧ copy.reach 0 false 0x20000 { n := 32, raw := true } (.phys f) = .ok ()
        ∧ copy.reach 0 false 0x30000 { n := 32, rd := false, wr := true, raw := true } (.phys g) = .ok () ∧ (copy.course 0).block < copy.blocks.length)
      ∧ outcome (copying 0x100000000 none) (fun e => match e with | .page .. => true | _ => false) = true
      ∧ (∀ e ∈ [none, some 0], outcome (gone e) (fun e => match e with | .trap code .. => code != 0 | _ => false) = true
        ∧ (((gone e).copies.getD 0 default).todo.eraseIdx 0 |>.filter Chunk.begun).isEmpty = e.isNone) := by
  refine ⟨sound_of (by decide +kernel), by decide +kernel, by decide +kernel, ?_, by decide +kernel, by decide +kernel, by decide +kernel,
    by decide +kernel, ?_⟩
  · intro k hk
    fin_cases hk <;> decide +kernel
  · intro e he
    fin_cases he <;> decide +kernel

/-! Events of blocks and launches. -/

def roomy : State := hosted demo
/-- A launch of one block that waits for room, of a class and operating class, and an attempt to place it. -/
def waiting (cls op n : Nat) (st : LaunchSt) : State :=
  { ran 65536 roomy with
    launches := demo.launches ++ [{ id := 2, ctx := 0, admitted := cls, cls := cls, opclass := op, st := st
                                    desc := { coursesP := 1, regsP := 64, bdim := (96, 1, 1), ldim := (1, 1, 1), scratch := 256
                                              cls := some cls, opclass := some op } }]
    blocks := demo.blocks ++ [{ launch := 1, index := 0 }]
    attempts := [{ launch := 1, blocks := [1], n := n }]
    clusters := [(0, { rotation := [1], retry := true })] }
/-- What an attempt for the waiting launch comes to. -/
def ganged (s : State) (cls : Nat) : Except (Option (Nat × List Nat)) State :=
  let l := s.attemptLaunch 1
  State.gang (s.modLaunch 1 fun _ => { l with st := if l.st == .placing then .running else l.st }) (cls == 2)
    (if l.cls = 2 then s.heldBack l.ctx else []) [1]
def isOk : Except ε α → Bool | .ok _ => true | .error _ => false
/-- Each event where it is due; attempts that find room and that find none, and a rotation queue's head likewise. -/
theorem witness_BlockEvents :
    let blk (st : BlockSt) := demo.modBlock 0 fun x => { x with st := st }
    let over' := demo.modCourse 0 fun x => { x with place := .ended }
    let retired := (blk .ended).modLaunch 0 fun x => { x with donePa := some 0x20000, owned := true }
    let killed := hosted (over'.modCourse 0 fun x => { x with kill := some { reason := 4, trap := { code := 0x19, pc := 0 } } })
    let slow : State := { demo with clusters := [(0, { readyAt := 1 })], clock := 1 }
    let moved (s : State) := s.modCluster 0 fun x => { x with tried := s.clock, retry := false }
    ((blk (.starting 0)).startDue 0 = true ∧ (((blk (.starting 0)).block 0).courses.map fun c => ((blk (.starting 0)).course c).block) = [0]
        ∧ over'.endDue 0 = true)
      ∧ (retired.retireDue 0 = true ∧ 0x20000 % 32 = 0 ∧ isPool 0x20000 = false ∧ retired.heldBy 0 = [] ∧ retired.anyPoison 0x20000 32 = false
        ∧ retired.memoryWf = true ∧ retired.shadows = [])
      ∧ ((killed.killDue 0).isSome = true ∧ killed.memoryWf = true ∧ killed.shadows = [] ∧ isHost (killed.saveBase (killed.ctxOf 0)) = true)
      ∧ (∀ op ∈ [1, 2], ∀ e ∈ [(2, LaunchSt.placing), (0, .running)], ((waiting e.1 op 0 e.2).attemptDue 0).isSome = true
        ∧ ((waiting e.1 op 1 e.2).retryDue 0).isSome = true ∧ isOk (ganged (waiting e.1 op 0 e.2) e.1) = (op == 1))
      ∧ (∀ op ∈ [1, 2], (waiting 1 op 0 .running).rotationDue 0 = some 1
        ∧ ((moved (waiting 1 op 0 .running)).placeHead 1 0).isSome = (op == 1))
      ∧ (waiting 1 2 0 .running).mayReassign 1 2 = true ∧ ((slow.cluster 0).readyAt ≠ 0 ∧ (slow.cluster 0).readyAt ≤ slow.clock)
      ∧ (roomy.mayMigrate 0 1 = true ∧ (State.roomOn roomy roomy 0 1 false).isSome = true)
      ∧ (demo.energyAt < (ran 65536 demo).clock / 1024 ∧ demo.chargeAt < (ran 65536 demo).clock / 65536)
      ∧ demo.rootOf 0 = some 0 ∧ (demo.region 0).boundary ≤ (ran 1750000000 demo).clock ∧ 0 < demo.regions.length
      ∧ (demo.region 0).ctx = 0 ∧ (demo.region 0).state ≠ 0 := by
  refine ⟨by decide +kernel, by decide +kernel, by decide +kernel, ?_, ?_, by decide +kernel, by decide +kernel⟩
  · intro op hop e he
    fin_cases hop <;> fin_cases he <;> decide +kernel
  · intro op hop
    fin_cases hop <;> decide +kernel

/-! Queues. -/

def packet (w : Nat) : Packet := { index := 0, bytes := natLe 64 w }
/-- Queue 0 of the context, enabled with 16 slots at 0x20000, a mark at 0x20800 and control blocks from 0x21000. -/
def queue (q : Queue) : State :=
  { (paged.storeBytes 2 0x20000 (natLe 64 15)).storeBytes 2 0x20800 (natLe 8 7) with
    queues := [(0, { q with base := 0x20000, ctl := 0x100000104, kick := 1 })] }
def headed (w : Nat) : State := queue { pkt := some (packet w) }
def waits (w : Nat) (parked : Bool) : State := queue { hold := some { packet w with parked := parked }, read := 1 }
def headsB (s : State) (type : Nat) : Bool :=
  match s.head 0 type with | some p => p.zero [(10, 22)] && s.queueCtx 0 == some 0 | none => false
def lbls (s : State) (op : Nat) (p : Packet → Bool) : Bool := match s.head 0 op with | some x => p x | none => false
def markAt : Nat := 0x20800 * 2 ^ 64
/-- A launch descriptor of `n` blocks of one course, and a root's control block. -/
def blocksOf (n : Nat) : Nat :=
  0x1000 + 256 * 2 ^ 384 + n * 2 ^ 448 + 2 ^ 480 + 2 ^ 512 + (96 + 2 ^ 8 + 2 ^ 16) * 2 ^ 544 + 2 ^ 576 + 64 * 2 ^ 592 + 5 * 2 ^ 624 + 2 ^ 680
def rootBlock : Nat := 20 * 2 ^ 120 + 1000 * 2 ^ 224
def rcb (op up : Nat) (regions : List Region) : State :=
  { (headed (4 + 0x21000 * 2 ^ 64 + op * 2 ^ 128)).storeBytes 2 0x21000 (natLe 256 (up + (if up = 0 then rootBlock else 20 * 2 ^ 120))) with
    regions := regions }
def root (at' : Word) : Region := { ctx := 0, rcb := at', state := 1, depth := 1 }
def child : List Region := [root 0x21100, { root 0x21000 with parent := some 0, depth := 2 }]
/-- The control block of a REGION packet is `w`, and lawful. -/
def block (s : State) (w : Nat) (top : Bool) : Bool :=
  s.readRcb 0 0x21000 == some (0x21000, w) && w / 2 ^ 456 % 256 == 0 && rcbLegal w (rcbFields 0 0x21000 0x21000 w) top
def leased (st : LeaseSt) : State :=
  { headed 5 with leases := [{ ctx := 0, mark := 0x20800, durUs := 100, st := st, asked := 0, endAt := 175000 }] }
def waitFor (v : Nat) : Nat := 2 + 2 ^ 77 + 0x20800 * 2 ^ 128 + v * 2 ^ 192

theorem witness_QueuePackets :
    let due := queue {}
    (due.packetDue 0 = true ∧ due.queueCtx 0 = some 0 ∧ (due.queue 0).pkt = none ∧ (due.schedRead 0 0x20000 64).isSome = true
        ∧ due.memoryWf = true)
      ∧ (headsB (headed 15) 15 = true ∧ lbls (headed 15) 15 (fun p => p.zero [(64, 448)]) = true
        ∧ lbls (headed (15 + 2 ^ 10)) 15 (fun p => !p.zero [(10, 22)]) = true)
      ∧ (∀ op ∈ [0, 1], let s := headed (3 + markAt + op * 2 ^ 192)
        headsB s 3 = true ∧ lbls s 3 (fun p => p.zero [(194, 318)] && p.fld 192 2 == op) = true ∧ (s.schedMark 0 0x20800 true).isSome = true
          ∧ s.windows = [])
      ∧ (∀ e ∈ [(7, true), (8, false)], let s := headed (waitFor e.1)
        headsB s 2 = true ∧ lbls s 2 (fun p => p.zero [(79, 49)] && p.fld 77 2 == 1 && s.waitHolds 0 p == some e.2) = true
          ∧ s.slotted.length < 512)
      ∧ (∀ e ∈ [(0, 1), (1, 1), (0, 0)],
        let s := (headed (1 + 0x21000 * 2 ^ 64 + e.1 * 2 ^ 192)).storeBytes 2 0x21000 (natLe 256 (blocksOf e.2))
        let l := s.launchFrom 0 0 (packet (1 + 0x21000 * 2 ^ 64 + e.1 * 2 ^ 192)) (descOf (blocksOf e.2)) 0
        headsB s 1 = true ∧ lbls s 1 (fun p => p == packet (1 + 0x21000 * 2 ^ 64 + e.1 * 2 ^ 192) && p.zero [(129, 63), (320, 192)]) = true
          ∧ s.schedRead256 0 0x21000 = some (natLe 256 (blocksOf e.2)) ∧ s.parentHolds 0 e.1 = (e.1 == 1) ∧ s.rootOf 0 = some 0
          ∧ (s.region 0).state = 1 ∧ (descOf (blocksOf e.2)).blockCount = e.2 ∧ (descOf (blocksOf e.2)).doneMark = 0
          ∧ descLegal (blocksOf e.2) (descOf (blocksOf e.2)) (Config.scratchBytes 0) = true ∧ s.couldReside 0 { l with cls := 2 } = true) := by
  refine ⟨by decide +kernel, by decide +kernel, ?_, ?_, ?_⟩
  all_goals intro e he; fin_cases he <;> decide +kernel
theorem witness_QueueRegions :
    (let s := rcb 0 0 [];
      headsB s 4 = true ∧ block s rootBlock true = true ∧ s.regionAt 0 0x21000 = none ∧ s.rootOf 0 = none
        ∧ isPool 0x21000 = false ∧ lbls s 4 (fun p => p.zero [(130, 382)] && p.fld 128 2 == 0) = true)
      ∧ (let s := rcb 0 0x21100 [root 0x21100];
        headsB s 4 = true ∧ block s (0x21100 + 20 * 2 ^ 120) false = true ∧ s.regionAt 0 0x21000 = none
          ∧ s.activeAt 0 0x21100 = some 0 ∧ (s.region 0).depth + 1 ≤ 8)
      ∧ (let s := rcb 1 0 [root 0x21000];
        headsB s 4 = true ∧ block s rootBlock true = true ∧ s.activeAt 0 0x21000 = some 0 ∧ (s.region 0).parent = none)
      ∧ (let s := rcb 1 0x21100 child;
        headsB s 4 = true ∧ block s (0x21100 + 20 * 2 ^ 120) false = true ∧ s.activeAt 0 0x21000 = some 1 ∧ (s.region 1).parent ≠ none
          ∧ s.activeAt 0 0x21100 = some 0 ∧ 1 ∉ s.chain 8 0 ∧ (s.region 0).depth + 1 + s.heightBelow 1 ≤ 8)
      ∧ (let s := rcb 2 0 [root 0x21000];
        headsB s 4 = true ∧ s.activeAt 0 0x21000 = some 0 ∧ lbls s 4 (fun p => p.fld 128 2 == 2) = true)
      ∧ ({ waits 4 false with regions := [{ root 0x21000 with state := 2, remover := some 0 }], launches := [] } : State).removeDue 0 = true := by
  decide +kernel
theorem witness_QueueLeases :
    let lease (op : Nat) (ls : List Lease) : State := { headed (5 + markAt + 2 ^ 128 + op * 2 ^ 192) with leases := ls }
    let live := leased .live
    (∀ ls ∈ [[], (leased .pending).leases], headsB (lease 0 ls) 5 = true ∧ headsB (lease 1 ls) 5 = true
        ∧ lbls (lease 0 ls) 5 (fun p => p.zero [(160, 32), (194, 318)] && p.fld 128 32 == 1 && p.fld 192 2 == 0) = true
        ∧ lbls (lease 1 ls) 5 (fun p => p.fld 192 2 == 1) = true ∧ ((lease 0 ls).schedMark 0 0x20800 true).isSome = true
        ∧ ((lease 0 ls).leases.any fun l => l.ctx == 0 && l.open') = !ls.isEmpty ∧ (lease 0 ls).windows = [])
      ∧ (live.leases.map fun y => (y.st, y.granted)) = [(.live, 0)] ∧ (live.leases.map fun y => decide (live.clock + 175000 ≤ y.endAt)) = [true]
      ∧ live.windows = [] ∧ live.shadows = [] ∧ (leased (.ending 0)).leaseEndDue 0 = true := by
  decide +kernel
/-- A wait on queue 0 whose mark only a packet behind it would change. -/
def stuck : State :=
  let s := (waits (waitFor 8) true).storeBytes 2 0x20040 (natLe 64 (3 + markAt + 8 * 2 ^ 128))
  s.modQueue 0 fun x => { x with kick := 2 }
theorem witness_QueueEvents :
    let marked (v : Nat) : State := (queue {}).modSplit 0 0 fun x => { x with wait := .mark 0x20800 (BitVec.ofNat 64 v) 0 false 2 5 0 }
    let q (s : State) (v : Nat) : Bool := decide ((s.queue 0).kick.toNat < v) && decide (v ≤ (s.queue 0).read.toNat + 16)
    let bad (n : Nat) : State := (queue {}).modQueue 0 fun x => { x with stat := 0x0701, repair := BitVec.ofNat 64 n }
    (∀ v ∈ [7, 8], (marked v).reexamineDue (.course 0 0) = true ∧ (marked v).shadows = []
        ∧ okAnd (({ marked v with cur := .course 0 0 } : State).markLeaf 0x20800 false) (fun f =>
          markHolds 0 false ((marked v).markWord f 0) (BitVec.ofNat 64 v) == (v == 7)) = true)
      ∧ (∀ e ∈ [(7, true), (8, false)], let s := waits (waitFor e.1) false
        (((s.queueWait 0).map fun p => (p.due, s.waitHolds 0 p)) = some (0, some e.2)) ∧ s.queueCtx 0 = some 0
          ∧ ({ s with clock := 65536 } : State).parkDue 0 = true)
      ∧ stuck.waitCycle [0] = true
      ∧ (∀ n ∈ [0, 2], ((bad n).queue 0).inError = true ∧ decide (((bad n).queue 0).repair.toNat ≤ ((bad n).queue 0).kick.toNat) = (n == 0))
      ∧ (q (queue {}) 2 = true ∧ q (queue {}) 17 = false ∧ ((queue {}).queue 1).enabled = false) := by
  decide +kernel

/-! The host port, the pool, peers and errors. -/

def withCtx (f : Ctx → Ctx) : State := demo.modCtx 0 f
/-- A context record at the start of host memory: no context has number 2. -/
def crec : Nat := 2 ^ 512 * (0xC000000200000 + 1)
def recorded : State := { demo.storeBytes 2 0xC000000000000 (natLe 256 crec) with ctxAddr := 0xC000000000000 }
theorem witness_ContextEvents :
    let done : State := { recorded with launches := [] }
    let leaving := (withCtx fun x => { x with st := .suspending }).modCourse 0 fun x => { x with place := .suspended }
    let asleep := (withCtx fun x => { x with st := .suspended }).modBlock 0 fun x => { x with st := .suspended }
    let back := { (roomy.modCtx 0 fun x => { x with st := .resuming }).modBlock 0 fun x => { x with st := .suspended } with
      courses := demo.courses.map fun (x : Course) => { x with place := .suspended } }
    let lost : State := { roomy.modCourse 0 fun x => { x with leaving := some .suspended } with poison := [(0xC000000100000 / 64, true)] }
    (recorded.memoryWf = true ∧ recorded.ctxBusy = false ∧ recorded.ctxPlace 2 = none ∧ recorded.readCrec = some crec ∧ crecMalformed crec = false
        ∧ rangesOk (crecCtx 2 crec).ranges = true)
      ∧ (demo.ctxPlace 1 = some 0 ∧ demo.ctxBusy = false ∧ (demo.ctx 0).st = .running ∧ 0 < demo.courses.length ∧ demo.ctxOf 0 = 0
        ∧ (demo.course 0).place = .resident ∧ (demo.course 0).leaving = none)
      ∧ (leaving.suspendDue 0 = true ∧ 0 < leaving.blocks.length ∧ (leaving.block 0).st.placed = true)
      ∧ (asleep.ctx 0).st = .suspended ∧ ((back.ctx 0).st = .resuming ∧ (back.resumeDue 0).isSome = true)
      ∧ (done.ctxBusy = false ∧ done.hasWork 0 = false ∧ (done.ctx 0).st ≠ .lost ∧ done.readCrec = some crec)
      ∧ (lost.lostDue 0 = true ∧ 0 < lost.launches.length ∧ (lost.launch 0).unretired = true) := by
  decide +kernel
theorem witness_HostEvents :
    let answered : State := (faulted.modCtx 0 fun x => { x with pfs := [⟨0, 2, 0⟩] }).storeBytes 2 (0xC000000000000 + 0x90000 + 9) [1]
    let asked : State := answered.modSplit 0 0 fun x => { x with wait := .page 0x20000 0 false false 127 none (some 0) 0 none }
    let served : State := ((hosted demo).modCtx 0 fun x => { x with svcs := [⟨0, 0, 0, 1, 0x1000, 12⟩] }).modSplit 0 0 fun x =>
      { x with wait := .svc 0 }
    let served := served.storeBytes 2 (0xC000000000000 + 0x10000 + 28) [1]
    let mixed := withCtx fun x => { x with partitioned := true }
    demo.memoryWf = true ∧ demo.tlbCtl.getLsbD 1 = true
      ∧ (let u : State := { demo with tlbCtl := 0, tlbJob := some (.remove 1 false 0x20000) }
        u.memoryWf = true ∧ u.tlbRemove.memoryWf = true ∧ u.tlbRemove.tlbJob = some (.settle 0 []))
      ∧ (let u : State := { copying 0x20000 (some 9) with tlbCtl := 0, tlbJob := some (.settle 0 [9]) }
        u.memoryWf = true ∧ ∃ y ∈ u.copies, ∃ h ∈ y.todo, h.mark = some 9)
      ∧ (demo.shadows = [] ∧ served.shadows = [])
      ∧ ((Cells.get {} demo.windows 0).enabled = false ∧ (demo.channel 0).enabled = false ∧ asked.memoryWf = true ∧ served.memoryWf = true)
      ∧ (((asked.ctx 0).pfs.find? fun r => r.index % 1024 == 0) = some ⟨0, 2, 0⟩
        ∧ asked.readByte 0 (asked.saveBase 0 + 0x90000 + 9) = 1 ∧ asked.ctxOf 0 = 0
        ∧ (asked.split 0 0).wait = .page 0x20000 0 false false 127 none (some 0) 0 none)
      ∧ (((served.ctx 0).svcs.find? fun y => y.slot == 0) = some ⟨0, 0, 0, 1, 0x1000, 12⟩ ∧ (served.split 0 0).wait = .svc 0
        ∧ (served.course 0).place ≠ .ended ∧ served.readByte 0 (served.saveBase 0 + 0x10000 + 28) = 1)
      ∧ isHost (served.saveBase 0) = true
      ∧ (mixed.partitioned = false ∧ (mixed.ctxs.map fun x => (x.partitioned, x.st)) = [(true, .running)]
        ∧ (demo.ctx 0).partitioned = false ∧ (demo.ctx 0).st = .running)
      ∧ isHost (128 * 0x180000000000) = true := by
  decide +kernel

/-- A record of the refuge that is valid, of the pool's first line. -/
def refuge : List Byte := natLe 8 1 ++ natLe 8 0x8000000000000
def shelter (bs : List Byte) : State :=
  { State.reset.storeBytes 0 (refugeAt 0) bs with portA := true, poolReach := true, poolRecords := 1 }
theorem shelter_reads (bs : List Byte) (i : Nat) (h : i < bs.length) : (shelter bs).readByte 0 (refugeAt 0 + i) = bs.getD i 0 := by
  have := Bytes.wbByte_storeBytes ((memoryWf_iff State.reset).mp rfl) (refugeAt 0) (refugeAt 0 + i) bs
  rw [if_pos ⟨by omega, by omega⟩, Nat.add_sub_cancel_left] at this
  exact this
theorem shelter_shadows (bs : List Byte) : (shelter bs).shadows = [] := by
  have e (l : List Byte) (s : State) (pa : Nat) : (s.storeBytes 0 pa l).shadows = s.shadows := by
    induction l generalizing s pa with
    | nil => rfl
    | cons b l ih => rw [State.storeBytes, ih]; rfl
  exact e bs _ _
theorem refuge_length : refuge.length = 16 := by decide +kernel
theorem refuge_valid : (shelter refuge).refugeValid 0 = true := by
  rw [State.refugeValid, ← Nat.add_zero (refugeAt 0), shelter_reads refuge 0 (by rw [refuge_length]; decide)]
  decide +kernel
theorem refuge_line : leNat ((shelter refuge).readBytes 0 (refugeAt 0 + 8) 8) = 0x8000000000000 := by
  have e : (shelter refuge).readBytes 0 (refugeAt 0 + 8) 8 = (List.range 8).map fun i => refuge.getD (8 + i) 0 :=
    List.map_congr_left fun i hi => by
      rw [Nat.add_assoc, shelter_reads refuge (8 + i) (by have := List.mem_range.mp hi; rw [refuge_length]; omega)]
  rw [e]
  decide +kernel
theorem refuge_at (i : Nat) : refugeAt i = Config.refugeBase + 144 * i := rfl
theorem base_at : Config.refugeBase = Config.refugeGiB.val * 0x40000000 := rfl
theorem base_lt : Config.refugeBase ≤ 431 * 0x40000000 := by
  rw [base_at]
  exact Nat.mul_le_mul_right _ (Nat.le_of_lt_succ Config.refugeGiB.isLt)
theorem dram_of {pa n k : Nat} (h : pa = n + k) (hk : k < 0x40000000) (hb : n ≤ 431 * 0x40000000) : isDram pa = true :=
  decide_eq_true (by omega)
/-- The refuge's first record lies in bonded DRAM; there is a byte in the refuge and one outside it. -/
theorem refuge_dram : (isDram (refugeAt 0) = true ∧ isDram (refugeAt 0 + 143) = true)
    ∧ (isDram Config.refugeBase = true ∧ inRefuge Config.refugeBase = true) ∧ ∃ pa, isDram pa = true ∧ inRefuge pa = false := by
  refine ⟨⟨dram_of (refuge_at 0) (by decide) base_lt, dram_of (k := 143) (by have := refuge_at 0; omega) (by decide) base_lt⟩,
    ⟨dram_of (Nat.add_zero _).symm (by decide) base_lt, ?_⟩, ?_⟩
  · simp only [inRefuge, Bool.and_eq_true, decide_eq_true_eq]
    omega
  · have e := base_at
    by_cases h : Config.refugeGiB.val = 0
    · refine ⟨0x40000000, by decide, ?_⟩
      simp only [inRefuge, Bool.and_eq_false_iff, decide_eq_false_iff_not]
      omega
    · refine ⟨0, by decide, ?_⟩
      simp only [inRefuge, Bool.and_eq_false_iff, decide_eq_false_iff_not]
      omega
/-- The pool link trained and memory of the context in it; a channel whose partner is enabled. -/
def linked (x : Channel) : State :=
  { paged.storeBytes 2 0x20000 (natLe 24 (0x20100 + 64 * 2 ^ 128)) with
    links := [(0, { up := true, lanes := 8 })], portA := true, portB := true, poolReach := true
    channels := [(0, { x with ctl := x.ctl ||| 0x100000004, send := 0x20000, recv := 0x20200, rmark := 0x20800, rsize := 4096 })] }
def onChannel : Channel := { ctl := 0x100, kick := 1, pEnable := true, pSize := 4096 }
/-- A pool line that is dirty, and a register whose load from the pool is in flight. -/
def pooled : State :=
  { (linked {}).modCourse 0 fun x => { x with regs := { x.regs with vst := [(0, .coming 0x8000000000000 9 false)] } } with
    poolUp := true, wb := [(0x8000000000000 / 128, List.replicate 128 1)] }
theorem witness_PoolEvents :
    ((shelter refuge).refugeValid 0 = true ∧ (shelter refuge).poolLink = true
        ∧ isPool (leNat ((shelter refuge).readBytes 0 (refugeAt 0 + 8) 8)) = true ∧ (shelter refuge).oneView
        ∧ (shelter refuge).shadows = []) ∧
    let s := linked onChannel
    (s.memoryWf = true ∧ s.poolLink = true ∧ s.poolMoving = false ∧ s.poolRecords = 0 ∧ s.portA = true ∧ s.portB = true
        ∧ s.shadows = [] ∧ s.windows = [] ∧ s.mgmt.step < 7)
      ∧ (let u (a b r : Bool) : State := { s with mgmt := { s.mgmt with step := 10 }, portA := a, portB := b, poolReach := r }
        ∀ a ∈ [true, false], 7 ≤ (u a (!a) true).mgmt.step ∧ (u a (!a) true).poolLink = true ∧ (u a (!a) true).memoryWf = true
          ∧ (u a a false).poolLink = false)
      ∧ (pooled.memoryWf = true ∧ pooled.poolUp = true ∧ pooled.stream = [] ∧ pooled.tags = [] ∧ isPool (128 * (0x8000000000000 / 128)) = true
        ∧ Cells.get .clean (pooled.course 0).regs.vst 0 = .coming 0x8000000000000 9 false ∧ pooled.clock < 9 ∧ pooled.windows = [] ∧ pooled.shadows = []
        ∧ ((pooled.wb.filter fun e => isPool (128 * e.1) && !(pooled.tag e.1).clean).length = 1))
      ∧ ({ s with poolMoving := true } : State).poolMoving = true
      ∧ ((Cells.get ({} : PoolWin) s.windows 0).enabled = false ∧ ({ s with launches := [] } : State).hasWork 0 = false)
      ∧ (isDram 0x20000 = true ∧ isHost 0xC000000000000 = true ∧ s.mgmt.channelsOut = []) := by
  refine ⟨⟨refuge_valid, by rw [State.poolLink]; rfl, by rw [refuge_line]; decide, oneView_of rfl, ?_⟩, ?_⟩
  · exact (shelter_shadows refuge)
  decide +kernel
theorem witness_ChannelEvents :
    let s := linked onChannel
    let out := linked {}
    let pieces := pagePieces 0x20100 4098 64
    let into := pagePieces 0x20200 4098 4
    ((s.channel 0).enabled = true ∧ (s.channel 0).inError = false ∧ (s.linkOf 0).up = true)
      ∧ ((out.channel 0).enabled = false ∧ ((linked { ctl := 0x400 }).channel 0).inError = true ∧ (out.channel 0).send.toNat % 1024 = 0)
      ∧ ((s.channel 0).kick.toNat < 2 ∧ 2 ≤ (s.channel 0).read.toNat + 2 ^ fld (s.channel 0).ctl 0 5
        ∧ (s.channel 0).read.toNat + 2 ^ fld (s.channel 0).ctl 0 5 < 17)
      ∧ (s.sendDue 0 = true ∧ s.channelCtx 0 = some 0
        ∧ (s.performAt 5).schedRead 0 (s.channel 0).descVa 64 = some (natLe 64 (0x20100 + 64 * 2 ^ 128))
        ∧ ((s.performAt 5).readSpan 0 pieces).isSome = true)
      ∧ ((s.writeSpan 0 into [1, 2, 3, 4]).2 = true ∧ ((s.writeSpan 0 into [1, 2, 3, 4]).1.bumpMark 0 0x20800).2 = true)
      ∧ (((linked { onChannel with sending := true }).channel 0).sending = true ∧ (s.channel 0).sending = false)
      ∧ (Cells.get ({} : Link) s.links 0).up = true := by
  decide +kernel
theorem witness_Errors :
    let copied : State := { demo with held := [{ cache := 3, line := 0x400, bytes := List.replicate 128 0, wts := 0, lease := 0, born := 0 }] }
    let held (clean : Bool) : State := { demo with wb := [(0x400, List.replicate 128 0)], tags := [(0x400, { clean := clean })] }
    (0 < demo.courses.length ∧ 0 < ejected.lanes.length ∧ demo.inL2 0x400 = false ∧ copied.memoryWf = true
        ∧ ∃ e ∈ copied.held, e.cache = 3 ∧ e.line = 0x800 / 2)
      ∧ ∀ b ∈ [true, false], (held b).memoryWf = true ∧ Cells.get [] (held b).wb (0x800 / 2) ≠ [] ∧ ((held b).tag (0x800 / 2)).clean = b
        ∧ (held b).stream = [] := by
  decide +kernel

/-! Management. -/

def managed (f : Mgmt → Mgmt) : State := { demo with mgmt := f demo.mgmt }
def staged (version : Option Nat) : Mgmt → Mgmt := fun m =>
  { m with updating := true, table := [0], staged := [{ comp := 0, image := 7, transferred := true, version := version, applied := version.isSome }] }
/-- Each unit that a boot may come to: in order, the last of a step, the last of all, one mapped out, one that is tried again, one
with no way left, and one out of order. -/
theorem witness_Boot :
    let at' (step unit : Nat) (f : Mgmt → Mgmt) : State := managed fun m => f { m with step := step, unit := unit }
    let failed (step : Nat) : Mgmt → Mgmt := fun m =>
      { m with journal := [⟨1, 4, BitVec.ofNat 16 step, 0, 1, 0⟩, ⟨1, 4, BitVec.ofNat 16 step, 1, 1, 0⟩, ⟨1, 0, BitVec.ofNat 16 step, 0, 1, 0⟩, ⟨1, 0, BitVec.ofNat 16 step, 1, 1, 0⟩] }
    (demo.mgmt.running = false ∧ demo.mgmt.nextUnit = (1, 0) ∧ demo.mgmt.wayOf 1 0 = some 0)
      ∧ ((at' 2 0 id).mgmt.nextUnit = (3, 0) ∧ (at' 3 0 id).mgmt.nextUnit = (3, 1) ∧ (at' 3 1151 id).mgmt.nextUnit = (4, 0)
        ∧ (at' 5 143 id).mgmt.nextUnit = (6, 0) ∧ (at' 6 0 id).mgmt.nextUnit = (7, 0) ∧ (at' 7 0 id).mgmt.nextUnit = (8, 0)
        ∧ (at' 9 0 id).mgmt.nextUnit = (10, 0) ∧ (at' 10 10 id).mgmt.nextUnit = (10, 11))
      ∧ ((at' 2 0 fun m => { m with channelsOut := [0] }).mgmt.wayOf 3 0 = some 1
        ∧ (at' 3 1151 fun m => { m with coresOut := [0], cleared := [(4, 0)] }).mgmt.wayOf 4 0 = some 0
        ∧ (at' 2 0 fun m => { m with cleared := [(3, 0)] }).mgmt.wayOf 3 0 = some 0
        ∧ (at' 3 1151 fun m => { m with coresOut := [0] }).mgmt.wayOf 4 0 = some 1
        ∧ (at' 6 0 id).mgmt.wayOf 7 0 = some 0 ∧ (at' 10 10 id).mgmt.wayOf 10 11 = some 0)
      ∧ ((at' 1 0 (failed 2)).mgmt.nextUnit = (2, 0) ∧ (at' 1 0 (failed 2)).mgmt.wayOf 2 0 = none)
      ∧ demo.mgmt.nextUnit ≠ (4, 0) := by
  decide +kernel
/-- Each state of an update, of the rolling update's next cluster, of the scheduler cores, of a core that is drained, and of units
whose counters call for an action. -/
theorem witness_ManagementEvents :
    let rolling (drain : Option Nat) : State := { managed (fun m => { m with leaf := some (1, some ⟨2, 2⟩, none) }) with
      clusters := [(1, { drain := drain })], clock := 2 ^ 36 }
    let draining (core : Nat) (at' : Option Nat) : State :=
      { managed (fun m => { m with sick := [core], draining := [(core, at')] }) with clock := 2 ^ 36 }
    let hurt : State := managed fun m => { m with contained := [(5, [0])] }
    (demo.mgmt.stopped = false ∧ (managed fun m => { m with stopped := true }).mgmt.stopped = true)
      ∧ ((managed fun m => { m with running := true }).mgmt.running = true)
      ∧ (demo.mgmt.updating = false ∧ (managed (staged none)).mgmt.updating = true ∧ 0 ∈ (managed (staged none)).mgmt.table)
      ∧ ((managed (staged none)).mgmt.image 0 = some { comp := 0, image := 7, transferred := true }
        ∧ (managed (staged (some 3))).mgmt.image 0 = some { comp := 0, image := 7, transferred := true, version := some 3, applied := true })
      ∧ (((managed (staged (some 3))).mgmt.staged.any (·.applied)) = true ∧ (managed (staged (some 3))).mgmt.ready 0 = some ⟨7, 3⟩
        ∧ (managed (staged (some 3))).mgmt.updating = true ∧ (managed (staged (some 3))).mgmt.fromB = false)
      ∧ (managed fun m => { m with controller := some ⟨3, 3⟩ }).mgmt.controller = some ⟨3, 3⟩
      ∧ ((managed fun m => { m with takeover := true }).mgmt.takeover = true ∧ demo.mgmt.takeover = false)
      ∧ (((rolling none).cluster 1).drain = none ∧ ((rolling (some 0)).cluster 1).drain = some 0 ∧ (rolling (some 0)).clusterEmpty 1 = true
        ∧ (rolling (some 0)).mgmt.leaf = some (1, some ⟨2, 2⟩, none) ∧ 0 + 2 ^ 36 ≤ (rolling (some 0)).clock)
      ∧ ((managed fun m => { m with scheduler := some ⟨9, 9⟩ }).mgmt.scheduler = some ⟨9, 9⟩ ∧ demo.mgmt.failed = 0
        ∧ (managed fun m => { m with failed := 1 }).mgmt.failed ≠ 0)
      ∧ (demo.coreEmpty 1 = true ∧ demo.coreEmpty 0 = false ∧ demo.mgmt.coresOut = [] ∧ demo.mgmt.sick = [] ∧ demo.mgmt.draining = []
        ∧ (∀ k ∈ [0, 1], (draining k (some 0)).coreEmpty k = (k == 1) ∧ k ∈ (draining k none).mgmt.sick)
        ∧ Cells.get none (draining 0 (some 0)).mgmt.draining 0 = some 0 ∧ 0 + 2 ^ 36 ≤ (draining 0 (some 0)).clock
        ∧ (draining 0 (some 1)).clock < 1 + 2 ^ 36)
      ∧ ((managed fun m => { m with hot := [4], slow := [9] }).mgmt.hot = [4] ∧ demo.mgmt.hot = [] ∧ demo.mgmt.slow = [])
      ∧ (demo.mgmt.slices = [] ∧ demo.containing 5 = false ∧ hurt.containing 5 = true ∧ demo.memoryWf = true ∧ demo.windows = []) := by
  decide +kernel

/-! The step, decoding and reset. -/

/-- The line that a step finds at 0x1000: in its fetch buffer, in the instruction cache, or in memory. -/
def bufferB (s : State) : Bool := (s.beginIssue.buf.find? fun e => e.va == 0x1000).isSome
def cacheB (s : State) : Bool :=
  s.beginIssue.icache.any fun e => e.core == s.beginIssue.cacheOf && e.ctx == 1 && e.va == 0x1000
/-- A line in each of the three, with a word that decodes, one that does not, one that crosses its line, and PGUARD; pages that cannot be walked, one without X, the
pooled tier allowed and denied, and a poisoned line. -/
theorem witness_StepRunsDecoded :
    let s (w : Nat) : State := State.reset.withFetchWord 64 w
    let near (w : Nat) : State := (s w).setBuf [⟨0x1000, 0x1000, wordBytes (BitVec.ofNat 128 w) 16 ++ List.replicate 16 0⟩]
    let odd := (s 0x0000010061440004).modSplit 0 0 fun x => { x with pc := 0x101C }
    let cold : State := { paged with icache := [] }
    let away (v : Word) : State := { (wide 0).modSplit 0 0 (fun x => { x with pc := v }) with icache := [] }
    let closed := (away 0x200000000).modRegion 0 fun x => { x with poolEn := false }
    let worn : State := { cold with poison := [(0x1000 / 64, true)] }
    (∀ w ∈ [0x0000010061440004, 0xFFFFFFFFFFFFFFFC, 0x3F8], (∀ u ∈ [s w, near w], u.cur ≠ .none ∧ u.beginIssue.dueTrap = none
          ∧ u.beginIssue.pc = 0x1000) ∧ bufferB (near w) = true ∧ bufferB (s w) = false ∧ cacheB (s w) = true)
      ∧ (odd.beginIssue.pc.toNat % 32 = 28 ∧ odd.beginIssue.dueTrap = none ∧ notIssued odd.wait odd.wait = false)
      ∧ (bufferB cold = false ∧ cacheB cold = false ∧ cold.beginIssue.dueTrap = none ∧ cold.cur ≠ .none)
      ∧ okAnd (cold.beginIssue.translate 0 0x1000 |>.mapError fun _ => Exn.stall) (fun f => f.x && f.pol != 3 && !isPool f.pa
        && !cold.beginIssue.anyPoison f.pa 32) = true
      ∧ (∀ e ∈ [((0x1000000000000000 : Word), WalkErr.nonCanonical), (0x100000000, .invalid), (0x140000000, .malformed)],
        (away e.1).beginIssue.pc = e.1 ∧ (away e.1).beginIssue.dueTrap = none ∧ (away e.1).beginIssue.translate 0 e.1 = .error e.2)
      ∧ (walkIs (away 0xC0000000).beginIssue 0xC0000000 (fun f => !f.x) = true
        ∧ walkIs (away 0x200000000).beginIssue 0x200000000 (fun f => f.x && f.pol != 3 && isPool f.pa) = true
        ∧ (away 0x200000000).beginIssue.poolUp = false ∧ (away 0x200000000).beginIssue.effPoolEn 0 = true
        ∧ (closed.beginIssue.effPoolEn 0 = false ∧ closed.beginIssue.dueTrap = none)
        ∧ worn.beginIssue.anyPoison 0x1000 32 = true ∧ worn.beginIssue.dueTrap = none) := by
  refine ⟨?_, by decide +kernel⟩
  intro w hw
  fin_cases hw <;> decide +kernel
theorem witness_RoundTrip : Instr.wellFormed (.sadd ⟨4, 5, .reg 6, .i64, 0⟩) = true
    ∧ decode 0x0000010061440004 = .ok (.sadd ⟨4, 5, .reg 6, .i64, 0⟩) := by decide +kernel
theorem witness_MemoryInvariant :
    let s := State.reset.withFetchWord 64 0x0000010061440004
    s.memoryWf = true ∧ s.padsWf = true ∧ (match step s with | .next t => t.memoryWf && t.padsWf | _ => false) = true := by decide +kernel

end Sys2Proof.Tests
end

section
/-!
SUPPORT. Laws of folds of state changes.
-/

namespace Sys2Proof.Machine

/-! ### Many changes, one after another -/

/-- What no change of several touches is as before them. -/
theorem foldl_same (g : α → γ) (f : α → β → α) (l : List β) (h : ∀ a b, g (f a b) = g a) (a : α) : g (l.foldl f a) = g a :=
  foldl_keeps (P := fun x => g x = g a) f l (fun x b hx => (h x b).trans hx) a rfl

/-- What one change of several brings about stands after them all, where the changes before it keep what it needs and those after
it keep what it brought. -/
theorem foldl_reaches {Q P : α → Prop} (f : α → β → α) {l : List β} {b : β} (hb : b ∈ l) (hQ : ∀ a x, Q a → Q (f a x))
    (hP : ∀ a x, P a → P (f a x)) (hf : ∀ a, Q a → P (f a b)) {a : α} (ha : Q a) : P (l.foldl f a) := by
  induction l generalizing a with
  | nil => cases hb
  | cons x l ih =>
    rcases List.mem_cons.mp hb with rfl | hb
    · exact foldl_keeps f l hP _ (hf a ha)
    · exact ih hb (hQ a x ha)

/-! ### Little-endian numbers -/

@[simp] theorem length_natLe (n v : Nat) : (natLe n v).length = n := by
  induction n generalizing v with
  | zero => rfl
  | succ n ih => simp [natLe, ih]

theorem leNat_natLe (n v : Nat) : leNat (natLe n v) = v % 256 ^ n := by
  induction n generalizing v with
  | zero => simp [natLe, leNat, Nat.mod_one]
  | succ n ih => rw [natLe, leNat, ih, BitVec.toNat_ofNat, show 256 ^ (n + 1) = 256 * 256 ^ n from Nat.pow_succ', Nat.mod_mul]

theorem natLe_zero (n : Nat) : natLe n 0 = List.replicate n 0 := by
  induction n with
  | zero => rfl
  | succ n ih => simpa [natLe, List.replicate_succ] using ih

/-- Bytes that read one by one as a list says read as that list. -/
theorem State.readBytes_eq {s : State} {pol pa n : Nat} {bs : List Byte} (hn : bs.length = n)
    (h : ∀ i < n, s.readByte pol (pa + i) = bs.getD i 0) : s.readBytes pol pa n = bs := by
  subst hn
  apply List.ext_getElem
  · simp [State.readBytes]
  · intro i h1 h2
    simp [State.readBytes, h i h2, List.getElem?_eq_getElem h2]

/-- A number of 64 bits that is stored in 8 bytes reads back. -/
theorem State.read64_eq {s : State} {pa : Nat} {v : Nat} (h : s.readBytes 0 pa 8 = natLe 8 v) : s.read64 pa = BitVec.ofNat 64 v := by
  apply BitVec.eq_of_toNat_eq
  simp [State.read64, h, leNat_natLe]

end Sys2Proof.Machine
end

section
/-!
SUPPORT. Laws of stores by the device itself and by the host: what a line that is written back or taken back leaves in memory, and
that nothing else of the state changes.
-/

namespace Sys2Proof.Machine

/-! ### What lies beside memory -/

/-- The state without memory, what caches hold of it, timestamps and poison. -/
def State.aside (s : State) : State :=
  { s with mem := [], wb := [], tags := [], stamps := [], held := [], stream := [], poison := [], linePoison := [] }

@[simp] theorem State.setMemByte_aside (s : State) (pa b) : (s.setMemByte pa b).aside = s.aside := rfl
@[simp] theorem State.setWbByte_aside (s : State) (pa b) : (s.setWbByte pa b).aside = s.aside := rfl
@[simp] theorem State.forgetLine_aside (s : State) (ln) : (s.forgetLine ln).aside = s.aside := rfl
@[simp] theorem State.poisonDown_aside (s : State) (ln) : (s.poisonDown ln).aside = s.aside := rfl

@[simp] theorem State.storeByte_aside (s : State) (pol pa b) : (s.storeByte pol pa b).aside = s.aside := by
  unfold State.storeByte
  split <;> rfl

@[simp] theorem State.storeBytes_aside (s : State) (pol pa bs) : (s.storeBytes pol pa bs).aside = s.aside := by
  induction bs generalizing s pa with
  | nil => rfl
  | cons b bs ih => rw [State.storeBytes, ih, State.storeByte_aside]

@[simp] theorem State.cleanLine_aside (s : State) (ln) : (s.cleanLine ln).aside = s.aside := by
  unfold State.cleanLine
  split
  · rfl
  · split
    · rfl
    · exact s.storeBytes_aside 2 (128 * ln) _

@[simp] theorem State.writeStream_aside (s : State) (x) : (s.writeStream x).aside = s.aside := by
  unfold State.writeStream
  dsimp only
  split
  · rfl
  · split
    · exact foldl_same State.aside (fun (t : State) i => t.setWbByte (128 * x.line + i) (x.bytes.getD i 0)) _ (fun _ _ => rfl) _
    · exact foldl_same State.aside (fun (t : State) i => t.setMemByte (128 * x.line + i) (x.bytes.getD i 0)) _ (fun _ _ => rfl) _

@[simp] theorem State.flushStream_aside (s : State) (ln) : (s.flushStream ln).aside = s.aside :=
  foldl_same State.aside _ _ (fun t x => t.writeStream_aside x) s

@[simp] theorem State.flushLine_aside (s : State) (ln) : (s.flushLine ln).aside = s.aside := by
  simp [State.flushLine, State.writeBackLine]

/-- A race with chunks under way changes nothing but those chunks' bytes. -/
theorem State.raceShadows_state (s : State) (who pol mine p bs) :
    ∃ sh n, (s.raceShadows who pol mine p bs).2 = { s with shadows := sh, fresh := n } := by
  unfold State.raceShadows
  dsimp only
  split
  · exact ⟨s.shadows, s.fresh, rfl⟩
  · exact ⟨_, _, rfl⟩

/-- Where no chunk is under way, there is no race. -/
theorem State.raceShadows_none {s : State} (h : s.shadows = []) (who pol mine p bs) : s.raceShadows who pol mine p bs = (bs, s) := by
  simp [State.raceShadows, h]

theorem State.storeRaced_none {s : State} (h : s.shadows = []) (pol pa bs) : s.storeRaced pol pa bs = s.storeBytes pol pa bs := by
  simp only [State.storeRaced, State.raceShadows_none h]

/-- A store of the device's own that is written back changes memory and caches alone, and the bytes of chunks under way. -/
theorem State.hostStore_aside (s : State) (pa bs) :
    ∃ sh n, (s.hostStore pa bs).aside = { s with shadows := sh, fresh := n }.aside := by
  obtain ⟨sh, n, e⟩ := s.raceShadows_state .none 0 none (.phys pa) bs
  refine ⟨sh, n, (foldl_same State.aside _ _ ?_ _).trans ?_⟩
  · intro t ln
    dsimp only
    split
    · exact t.cleanLine_aside ln
    · exact t.cleanLine_aside ln
  · rw [State.storeRaced, State.storeBytes_aside, e]

/-! ### Bytes that one address alone names -/

/-- No other address names a byte of the line, as another window of the pool may (R399). -/
def State.soleLine (s : State) (ln : Nat) : Prop := ∀ a b, b / 128 = ln → s.memKey a = s.memKey b → a = b

theorem memKey_congr {s t : State} (h : t.windows = s.windows) (pa : Nat) : t.memKey pa = s.memKey pa := by
  simp only [State.memKey, h]

theorem State.soleLine.congr {s t : State} {ln : Nat} (h : s.soleLine ln) (e : t.windows = s.windows) : t.soleLine ln :=
  fun a b hb k => h a b hb (by rwa [memKey_congr e, memKey_congr e] at k)

theorem State.soleLine.aside {s t : State} {ln : Nat} (h : s.soleLine ln) (e : t.aside = s.aside) : t.soleLine ln :=
  h.congr (show t.aside.windows = s.aside.windows by rw [e])

theorem isHost_line {ln b : Nat} (h : isHost (128 * ln) = true) (hb : b / 128 = ln) : isHost b = true := by
  simp only [isHost, decide_eq_true_eq] at h ⊢
  omega

/-- Memory keeps a byte of host memory under its own address. -/
theorem memKey_host (s : State) {b : Nat} (h : isHost b = true) : s.memKey b = b := by
  have : isPool b = false := by
    simp only [isHost, isPool, decide_eq_true_eq, decide_eq_false_iff_not] at h ⊢
    omega
  simp [State.memKey, this]

theorem memKey_host_inj {s : State} {a b : Nat} (h : isHost b = true) (e : s.memKey a = s.memKey b) : a = b := by
  rw [memKey_host s h] at e
  simp only [isHost, decide_eq_true_eq] at h
  unfold State.memKey at e
  split at e
  · split at e
    · omega
    · exact e
  · exact e

/-- No window shows host memory. -/
theorem soleLine_host (s : State) {ln : Nat} (h : isHost (128 * ln) = true) : s.soleLine ln :=
  fun _ _ hb e => memKey_host_inj (isHost_line h hb) e

/-! ### A line is written back to memory -/

@[simp] theorem State.storeBytes_uc_wb (s : State) (pa bs) : (s.storeBytes 2 pa bs).wb = s.wb := by
  induction bs generalizing s pa with
  | nil => rfl
  | cons b bs ih => rw [State.storeBytes, ih]; rfl

@[simp] theorem State.cleanLine_wb (s : State) (ln) : (s.cleanLine ln).wb = s.wb := by
  unfold State.cleanLine
  split
  · rfl
  · split
    · rfl
    · exact s.storeBytes_uc_wb _ _

theorem State.cleanLine_of_clean {s : State} {ln : Nat} (h : (s.tag ln).clean = true) : s.cleanLine ln = s := by
  unfold State.cleanLine
  split
  · rfl
  · rw [if_pos h]

theorem State.inL2_iff (s : State) (ln : Nat) : s.inL2 ln = true ↔ Cells.get [] s.wb ln ≠ [] := by
  simp [State.inL2]

theorem State.inL2_eq_false {s : State} {ln : Nat} : s.inL2 ln = false ↔ Cells.get [] s.wb ln = [] := by
  simp [State.inL2]

theorem State.cleanLine_of_absent {s : State} {ln : Nat} (h : s.inL2 ln = false) : s.cleanLine ln = s := by
  simp [State.cleanLine, State.inL2_eq_false.mp h]

/-- The bytes that memory holds after a dirty line was written back: the line's in the line, and elsewhere as before. -/
theorem Bytes.memByte_cleanLine_dirty {s : State} (h : Bytes s) {ln : Nat} (hs : s.soleLine ln) (hl : s.inL2 ln = true)
    (hd : (s.tag ln).clean = false) (pa : Nat) :
    (s.cleanLine ln).memByte pa = if pa / 128 = ln then s.wbByte pa else s.memByte pa := by
  have hne := (s.inL2_iff ln).mp hl
  have len := (h.line ln).resolve_left hne
  have e : (s.cleanLine ln).memByte pa = (s.storeBytes 2 (128 * ln) (Cells.get [] s.wb ln)).readByte 2 pa := by
    unfold State.cleanLine
    split
    · exact absurd ‹_› hne
    · rw [hd, if_neg Bool.false_ne_true]
      rfl
  rw [e, h.readByte_storeBytes 2 _ _ _ fun _ k hk => hs pa _ (by omega), len]
  by_cases c : pa / 128 = ln
  · subst c
    rw [if_pos (by omega), if_pos rfl, wbByte_line hne]
    congr 1
    omega
  · rw [if_neg (by omega), if_neg c]
    rfl

/-- Of other lines memory keeps what it had. -/
theorem Bytes.memByte_cleanLine_other {s : State} (h : Bytes s) {ln : Nat} (hs : s.soleLine ln) {pa : Nat} (hp : pa / 128 ≠ ln) :
    (s.cleanLine ln).memByte pa = s.memByte pa := by
  cases hl : s.inL2 ln with
  | false => rw [State.cleanLine_of_absent hl]
  | true =>
    cases hd : (s.tag ln).clean with
    | true => rw [State.cleanLine_of_clean hd]
    | false => rw [h.memByte_cleanLine_dirty hs hl hd, if_neg hp]

/-- A line that is dirty, or not in L2, is in memory as it read before. -/
theorem Bytes.memByte_cleanLine_line {s : State} (h : Bytes s) {ln : Nat} (hs : s.soleLine ln)
    (hd : s.inL2 ln = true → (s.tag ln).clean = false) {pa : Nat} (hp : pa / 128 = ln) :
    (s.cleanLine ln).memByte pa = s.wbByte pa := by
  cases hl : s.inL2 ln with
  | false => rw [State.cleanLine_of_absent hl, wbByte_none (by rw [hp]; exact State.inL2_eq_false.mp hl)]
  | true => rw [h.memByte_cleanLine_dirty hs hl (hd hl), if_pos hp]

/-- What a byte reads as does not change with a write-back. -/
theorem Bytes.wbByte_cleanLine {s : State} (h : Bytes s) {ln : Nat} (hs : s.soleLine ln) (i : Nat) :
    (s.cleanLine ln).wbByte i = s.wbByte i := by
  by_cases hi : Cells.get [] s.wb (i / 128) = []
  · rw [wbByte_none (by rwa [State.cleanLine_wb]), wbByte_none hi]
    by_cases hl : i / 128 = ln
    · rw [State.cleanLine_of_absent (State.inL2_eq_false.mpr (hl ▸ hi))]
    · exact h.memByte_cleanLine_other hs hl
  · rw [wbByte_line (by rwa [State.cleanLine_wb]), wbByte_line hi, State.cleanLine_wb]

/-! ### Stores under WB -/

theorem State.setWbByte_tag (s : State) (pa b ln) :
    (s.setWbByte pa b).tag ln = if ln = pa / 128 then { s.tag ln with clean := false } else s.tag ln := by
  simp only [State.tag, State.setWbByte, Cells.get_update]
  split
  · rename_i e
    rw [e]
  · rfl

/-- A line that was stored to is dirty. -/
theorem State.storeBytes_dirty (s : State) {pa ln : Nat} {bs : List Byte} (hb : bs ≠ []) (hp : pa / 128 = ln) :
    ((s.storeBytes 0 pa bs).tag ln).clean = false := by
  have keeps : ∀ (l : List Byte) (t : State) (a : Nat), (t.tag ln).clean = false → ((t.storeBytes 0 a l).tag ln).clean = false := by
    intro l
    induction l with
    | nil => exact fun _ _ h => h
    | cons b l ih =>
      intro t a ht
      refine ih (t.setWbByte a b) (a + 1) ?_
      rw [State.setWbByte_tag]
      split
      · rfl
      · exact ht
  cases bs with
  | nil => exact absurd rfl hb
  | cons b bs =>
    refine keeps bs (s.setWbByte pa b) (pa + 1) ?_
    rw [State.setWbByte_tag, if_pos hp.symm]

/-- A store of the device's own within one line of memory that one address names: its bytes read as stored, all others as before. -/
theorem Bytes.wbByte_hostStore {s : State} (h : Bytes s) (hs : s.shadows = []) {pa : Nat} {bs : List Byte} (hb : bs ≠ [])
    (hl : pa % 128 + bs.length ≤ 128) (sole : s.soleLine (pa / 128)) (i : Nat) :
    (s.hostStore pa bs).wbByte i = if pa ≤ i ∧ i < pa + bs.length then bs.getD (i - pa) 0 else s.wbByte i := by
  have hpos := List.length_pos_iff.mpr hb
  have one : (pa % 128 + bs.length + 127) / 128 = 1 := by omega
  have ht := h.storeBytes 0 pa bs
  have sole' := sole.aside (s.storeBytes_aside 0 pa bs)
  rw [← h.wbByte_storeBytes]
  simp only [State.hostStore, one, State.storeRaced_none hs, List.range_one, List.map_cons, List.map_nil, List.foldl_cons,
    List.foldl_nil, Nat.add_zero]
  split
  · exact ht.wbByte_cleanLine sole' i
  · have erased : ∀ (u : State) (w : Cells (List Byte)) g p, w = Cells.erase u.wb (pa / 128) →
        { u with wb := w, tags := g, linePoison := p }.wbByte i = if i / 128 = pa / 128 then u.memByte i else u.wbByte i := by
      rintro u w g p rfl
      simp only [State.wbByte, Cells.get_erase]
      by_cases e : i / 128 = pa / 128
      · simp only [if_pos e]
        rfl
      · simp only [if_neg e]
        rfl
    rw [erased _ _ _ _ rfl, ht.wbByte_cleanLine sole' i]
    split
    · exact ht.memByte_cleanLine_line sole' (fun _ => s.storeBytes_dirty hb rfl) ‹_›
    · rfl

end Sys2Proof.Machine
end

section
/-!
SUPPORT. Laws of lines that leave the device's caches: what is then in memory.
-/

namespace Sys2Proof.Machine

/-! ### A STREAM copy is written back -/

/-- Bytes of one line that are stored one by one read as stored, the others as before. -/
theorem Bytes.readByte_storeEach {s : State} (h : Bytes s) {ln : Nat} (hs : s.soleLine ln) (pol : Nat) (f : Nat → Byte) {is : List Nat}
    (hi : ∀ i ∈ is, i < 128) (pa : Nat) :
    (is.foldl (fun s i => s.storeByte pol (128 * ln + i) (f i)) s).readByte pol pa
      = if pa / 128 = ln ∧ pa % 128 ∈ is then f (pa % 128) else s.readByte pol pa := by
  induction is generalizing s with
  | nil => simp
  | cons i is ih =>
    have h128 := hi i (List.mem_cons_self ..)
    rw [List.foldl_cons, ih (h.storeByte ..) (hs.aside (State.storeByte_aside ..)) fun j hj => hi j (List.mem_cons_of_mem _ hj),
      h.readByte_storeByte (f i) fun _ e => hs pa _ (by omega) e]
    by_cases c : pa / 128 = ln ∧ pa % 128 ∈ is
    · rw [if_pos c, if_pos ⟨c.1, List.mem_cons_of_mem _ c.2⟩]
    · rw [if_neg c]
      by_cases e : pa = 128 * ln + i
      · subst e
        rw [if_pos rfl, if_pos ⟨by omega, by simp [Nat.mod_eq_of_lt h128]⟩, Nat.mul_add_mod,
          Nat.mod_eq_of_lt h128]
      · rw [if_neg e, if_neg]
        rintro ⟨hl, hm⟩
        rcases List.mem_cons.mp hm with hm | hm
        · omega
        · exact c ⟨hl, hm⟩

/-- The bytes of a STREAM copy that stores changed. -/
def StreamLine.changes (x : StreamLine) : List Nat := (List.range 128).filter fun i => x.changed.getLsbD i

theorem StreamLine.mem_changes {x : StreamLine} {i : Nat} : i ∈ x.changes ↔ i < 128 ∧ x.changed.getLsbD i = true := by
  simp [StreamLine.changes]

/-- Two states hold the same bytes in memory and in L2, and have the same lines dirty. -/
structure SameLines (s t : State) : Prop where
  mem : t.mem = s.mem
  wb : t.wb = s.wb
  windows : t.windows = s.windows
  clean : ∀ ln, (t.tag ln).clean = (s.tag ln).clean

namespace SameLines

variable {s t : State} (h : SameLines s t)
include h

theorem memKey (pa : Nat) : t.memKey pa = s.memKey pa := memKey_congr h.windows pa
theorem memByte (pa : Nat) : t.memByte pa = s.memByte pa := by simp only [State.memByte, h.mem, h.memKey]
theorem wbByte (pa : Nat) : t.wbByte pa = s.wbByte pa := by simp only [State.wbByte, h.wb, h.memByte]
theorem lineBytes (ln : Nat) : t.lineBytes ln = s.lineBytes ln := by simp only [State.lineBytes, h.wb, h.memByte]
theorem inL2 (ln : Nat) : t.inL2 ln = s.inL2 ln := by simp only [State.inL2, h.wb]

theorem storeByte (pol pa : Nat) (b : Byte) : SameLines (s.storeByte pol pa b) (t.storeByte pol pa b) := by
  unfold State.storeByte
  split
  · exact ⟨by simp only [State.setMemByte, h.mem, h.memKey], h.wb, h.windows, h.clean⟩
  · refine ⟨h.mem, by simp only [State.setWbByte, h.wb, h.lineBytes], h.windows, fun ln => ?_⟩
    rw [State.setWbByte_tag, State.setWbByte_tag]
    split
    · rfl
    · exact h.clean ln

theorem storeEach (pol : Nat) (a : Nat → Nat) (f : Nat → Byte) (is : List Nat) :
    SameLines (is.foldl (fun s i => s.storeByte pol (a i) (f i)) s) (is.foldl (fun s i => s.storeByte pol (a i) (f i)) t) := by
  induction is generalizing s t with
  | nil => exact h
  | cons i is ih => exact ih (h.storeByte pol (a i) (f i))

end SameLines

/-- The state after the changed bytes of a STREAM copy were stored to its line under a policy. -/
def State.storeChanges (s : State) (pol : Nat) (x : StreamLine) : State :=
  x.changes.foldl (fun s i => s.storeByte pol (128 * x.line + i) (x.bytes.getD i 0)) s

/-- A STREAM copy is written back into its line, where L2 holds it, and else into memory. -/
theorem State.writeStream_lines (s : State) (x : StreamLine) :
    SameLines (s.storeChanges (if s.inL2 x.line then 0 else 2) x) (s.writeStream x) := by
  have each : ∀ (pol : Nat) (t : State), SameLines s t →
      SameLines (s.storeChanges pol x) (x.changes.foldl (fun s i => s.storeByte pol (128 * x.line + i) (x.bytes.getD i 0)) t) :=
    fun pol t h => h.storeEach pol (128 * x.line + ·) (x.bytes.getD · 0) x.changes
  have hx : ((List.range 128).filter fun i => x.changed.getLsbD i) = x.changes := rfl
  simp only [State.writeStream, hx]
  by_cases hc : x.changes = []
  · simp only [State.storeChanges, hc]
    exact ⟨rfl, rfl, rfl, fun _ => rfl⟩
  · simp only [if_neg (show ¬x.changes.isEmpty = true by simpa using hc)]
    cases hl : s.inL2 x.line with
    | true =>
      obtain ⟨hm, hw, hn, hc⟩ := each 0 { s with stream := s.stream.map fun y => if y == x then { y with changed := 0 } else y }
        ⟨rfl, rfl, rfl, fun _ => rfl⟩
      refine ⟨hm, hw, hn, fun ln => Eq.trans ?_ (hc ln)⟩
      simp only [State.tag, if_true, Cells.get_update]
      split
      · rename_i e
        rw [e]
        rfl
      · rfl
    | false => exact each 2 _ ⟨rfl, rfl, rfl, fun _ => rfl⟩

/-- Changes that are stored to memory leave L2, and changes that are stored to L2 leave memory. -/
theorem State.storeChanges_uc_wb (s : State) (x : StreamLine) : (s.storeChanges 2 x).wb = s.wb :=
  foldl_same State.wb (fun (t : State) i => t.storeByte 2 (128 * x.line + i) (x.bytes.getD i 0)) _ (fun _ _ => rfl) s

theorem State.storeChanges_wb_memByte (s : State) (x : StreamLine) (pa : Nat) : (s.storeChanges 0 x).memByte pa = s.memByte pa :=
  foldl_same (State.memByte · pa) (fun (t : State) i => t.storeByte 0 (128 * x.line + i) (x.bytes.getD i 0)) _ (fun _ _ => rfl) s

/-- What the bytes of a line read as after a STREAM copy of it was written back. -/
theorem Bytes.wbByte_writeStream {s : State} (h : Bytes s) {x : StreamLine} (hs : s.soleLine x.line) (pa : Nat) :
    (s.writeStream x).wbByte pa
      = if pa / 128 = x.line ∧ x.changed.getLsbD (pa % 128) = true then x.bytes.getD (pa % 128) 0 else s.wbByte pa := by
  have hm : pa % 128 ∈ x.changes ↔ x.changed.getLsbD (pa % 128) = true := by
    simp [StreamLine.mem_changes, Nat.mod_lt]
  have hr := fun pol => h.readByte_storeEach hs pol (x.bytes.getD · 0) (is := x.changes) (fun i hi => (StreamLine.mem_changes.mp hi).1) pa
  simp only [hm] at hr
  rw [(s.writeStream_lines x).wbByte]
  cases hl : s.inL2 x.line with
  | true => exact hr 0
  | false =>
    have hw := s.storeChanges_uc_wb x
    have hr2 : (s.storeChanges 2 x).memByte pa = _ := hr 2
    rw [if_neg Bool.false_ne_true]
    simp only [State.wbByte, hw, hr2]
    by_cases c : pa / 128 = x.line
    · simp only [c, State.inL2_eq_false.mp hl]
      rfl
    · simp only [c, false_and, if_false]
      rfl

/-- Lines of which no byte was changed, and other lines, stay in memory as they were. -/
theorem Bytes.memByte_writeStream_other {s : State} (h : Bytes s) {x : StreamLine} (hs : s.soleLine x.line) {pa : Nat}
    (hp : pa / 128 ≠ x.line) : (s.writeStream x).memByte pa = s.memByte pa := by
  rw [(s.writeStream_lines x).memByte]
  split
  · exact s.storeChanges_wb_memByte x pa
  · refine (h.readByte_storeEach hs 2 (x.bytes.getD · 0) (fun i hi => (StreamLine.mem_changes.mp hi).1) pa).trans ?_
    rw [if_neg fun c => hp c.1]
    rfl

/-- A line of which stores changed bytes is dirty once they were stored to it. -/
theorem State.storeChanges_dirty (s : State) {x : StreamLine} (h : x.changes ≠ []) : ((s.storeChanges 0 x).tag x.line).clean = false := by
  have lt : ∀ i ∈ x.changes, (128 * x.line + i) / 128 = x.line := fun i hi => by
    have := (StreamLine.mem_changes.mp hi).1
    omega
  have sets : ∀ (t : State) i, i ∈ x.changes →
      ((t.storeByte 0 (128 * x.line + i) (x.bytes.getD i 0)).tag x.line).clean = false := fun t i hi => by
    show ((t.setWbByte _ _).tag x.line).clean = false
    rw [State.setWbByte_tag, if_pos (lt i hi).symm]
  obtain ⟨is, i, e⟩ := List.eq_nil_or_concat x.changes |>.resolve_left h
  rw [State.storeChanges, e, List.concat_eq_append, List.foldl_append]
  exact sets _ i (by simp [e])

/-- A STREAM copy that is written back brings no line into L2. -/
theorem State.writeStream_keys {s : State} {x : StreamLine} {e : Nat × List Byte} (h : e ∈ (s.writeStream x).wb) :
    e.1 ∈ s.wb.map (·.1) := by
  rw [(s.writeStream_lines x).wb] at h
  cases hl : s.inL2 x.line with
  | false =>
    rw [hl, if_neg Bool.false_ne_true, State.storeChanges_uc_wb] at h
    exact List.mem_map_of_mem h
  | true =>
    rw [hl, if_pos rfl] at h
    have line : x.line ∈ s.wb.map (·.1) := List.mem_map_of_mem (get_mem rfl ((s.inL2_iff _).mp hl))
    refine List.foldlRecOn x.changes _ (motive := fun t : State => ∀ e ∈ t.wb, e.1 ∈ s.wb.map (·.1))
      (fun _ he => List.mem_map_of_mem he) (fun t ht i hi e he => ?_) e h
    have lt := (StreamLine.mem_changes.mp hi).1
    rcases mem_set (m := t.wb) he with rfl | he
    · rwa [show (128 * x.line + i) / 128 = x.line by omega]
    · exact ht e he

/-! ### A line leaves the caches -/

/-- Memory, outside a line that leaves the caches. -/
theorem Bytes.memByte_flushStream_other {s : State} (h : Bytes s) {ln : Nat} (hs : s.soleLine ln) {pa : Nat} (hp : pa / 128 ≠ ln) :
    (s.flushStream ln).memByte pa = s.memByte pa := by
  refine (List.foldlRecOn (motive := fun t : State => Bytes t ∧ t.aside = s.aside ∧ t.memByte pa = s.memByte pa) _ _ ⟨h, rfl, rfl⟩ ?_).2.2
  rintro t ⟨ht, ha, hm⟩ x hx
  have e : x.line = ln := by simpa using (List.mem_filter.mp hx).2
  exact ⟨ht.writeStream x, (t.writeStream_aside x).trans ha,
    (ht.memByte_writeStream_other (e ▸ hs.aside ha) (e ▸ hp)).trans hm⟩

theorem Bytes.memByte_flushLine_other {s : State} (h : Bytes s) {ln : Nat} (hs : s.soleLine ln) {pa : Nat} (hp : pa / 128 ≠ ln) :
    (s.flushLine ln).memByte pa = s.memByte pa :=
  ((h.flushStream ln).memByte_cleanLine_other (hs.aside (s.flushStream_aside ln)) hp).trans (h.memByte_flushStream_other hs hp)

/-- Memory, in a line that had one STREAM copy, where that copy changed it. -/
theorem Bytes.memByte_flushLine_stream {s : State} (h : Bytes s) {x : StreamLine} (hs : s.soleLine x.line)
    (one : s.stream.filter (fun y => y.line == x.line) = [x]) {pa : Nat} (hp : pa / 128 = x.line)
    (hc : x.changed.getLsbD (pa % 128) = true) : (s.flushLine x.line).memByte pa = x.bytes.getD (pa % 128) 0 := by
  have hne : x.changes ≠ [] := List.ne_nil_of_mem (StreamLine.mem_changes.mpr ⟨Nat.mod_lt pa (by decide), hc⟩)
  have hf : s.flushStream x.line = s.writeStream x := by simp only [State.flushStream, one, List.foldl_cons, List.foldl_nil]
  have dirty : (s.writeStream x).inL2 x.line = true → ((s.writeStream x).tag x.line).clean = false := fun hin => by
    rw [(s.writeStream_lines x).clean]
    cases hl : s.inL2 x.line with
    | true => exact s.storeChanges_dirty hne
    | false =>
      rw [(s.writeStream_lines x).inL2, hl, if_neg Bool.false_ne_true, State.inL2, State.storeChanges_uc_wb] at hin
      exact absurd hin (by simpa [State.inL2] using hl)
  show ((s.flushStream x.line).cleanLine x.line).memByte pa = _
  rw [hf, (h.writeStream x).memByte_cleanLine_line (hs.aside (s.writeStream_aside x)) dirty hp, h.wbByte_writeStream hs, if_pos ⟨hp, hc⟩]

/-- Memory, in a line of which there was no STREAM copy. -/
theorem Bytes.memByte_flushLine_held {s : State} (h : Bytes s) {ln : Nat} (hs : s.soleLine ln) (hno : ∀ y ∈ s.stream, y.line ≠ ln)
    {pa : Nat} (hp : pa / 128 = ln) :
    (s.flushLine ln).memByte pa = if (s.tag ln).clean then s.memByte pa else s.wbByte pa := by
  have hf : s.flushStream ln = s := by
    have : (s.stream.filter fun y => y.line == ln) = [] := List.filter_eq_nil_iff.mpr fun y hy => by simpa using hno y hy
    simp only [State.flushStream, this, List.foldl_nil]
  show ((s.flushStream ln).cleanLine ln).memByte pa = _
  rw [hf]
  cases hc : (s.tag ln).clean with
  | true => rw [State.cleanLine_of_clean hc, if_pos rfl]
  | false => rw [h.memByte_cleanLine_line hs (fun _ => hc) hp, if_neg Bool.false_ne_true]

/-- A line that leaves is not in L2 any more, and no other comes in. -/
theorem State.flushLine_keys {s : State} {ln : Nat} {e : Nat × List Byte} (h : e ∈ (s.flushLine ln).wb) :
    e.1 ∈ s.wb.map (·.1) ∧ e.1 ≠ ln := by
  obtain ⟨hm, hn⟩ := List.mem_filter.mp (show e ∈ Cells.erase ((s.flushStream ln).cleanLine ln).wb ln from h)
  rw [State.cleanLine_wb] at hm
  refine ⟨?_, by simpa using hn⟩
  refine foldl_keeps (P := fun t : State => ∀ e ∈ t.wb, e.1 ∈ s.wb.map (·.1)) (fun (t : State) x => t.writeStream x) _ ?_ s
    (fun _ he => List.mem_map_of_mem he) e hm
  intro t x ht e he
  obtain ⟨e', he', heq⟩ := List.mem_map.mp (State.writeStream_keys he)
  exact heq ▸ ht e' he'

/-- Once every line has left, L2 is empty. -/
theorem State.flushWhere_all_wb (s : State) : (s.flushWhere fun _ => true).wb = [] := by
  have gone : ∀ (l : List (Nat × List Byte)) (t : State), ∀ e ∈ (l.foldl (fun t x => t.flushLine x.1) t).wb,
      e.1 ∈ t.wb.map (·.1) ∧ e.1 ∉ l.map (·.1) := by
    intro l
    induction l with
    | nil => exact fun t e he => ⟨List.mem_map_of_mem he, by simp⟩
    | cons x l ih =>
      intro t e he
      obtain ⟨hm, hn⟩ := ih (t.flushLine x.1) e he
      obtain ⟨e', he', heq⟩ := List.mem_map.mp hm
      obtain ⟨hk, hx⟩ := State.flushLine_keys he'
      rw [heq] at hk hx
      exact ⟨hk, by simp [hx, hn]⟩
  refine List.eq_nil_iff_forall_not_mem.mpr fun e he => ?_
  obtain ⟨hm, hn⟩ := gone _ s e he
  simp only [List.filter_true] at hn
  exact hn hm

theorem State.fullFlush_wb (s : State) : s.fullFlush.wb = [] := State.flushWhere_all_wb _

/-! ### The host takes a line back -/

/-- The device gives a line up; nothing else of memory changes with it. -/
theorem State.yieldLine_memByte (s : State) (ln pa : Nat) : (s.yieldLine ln).memByte pa = (s.flushLine ln).memByte pa := rfl
theorem State.yieldLine_windows (s : State) (ln : Nat) : (s.yieldLine ln).windows = s.windows :=
  (congrArg State.windows (s.flushLine_aside ln) :)
theorem State.yieldLine_shadows (s : State) (ln : Nat) : (s.yieldLine ln).shadows = s.shadows :=
  (congrArg State.shadows (s.flushLine_aside ln) :)

theorem State.foreignStore_of_no_shadows {s : State} (h : s.shadows = []) (e : Nat × Byte) : s.foreignStore e = s.setMemByte e.1 e.2 := by
  simp only [State.foreignStore, State.raceShadows_none h, List.headD_cons]

/-- What another party stores to a line of memory that one address names stands there, the last store of a byte counting. -/
theorem State.memByte_foreignStores {s : State} (h : s.shadows = []) {ln : Nat} (hs : s.soleLine ln) (es : List (Nat × Byte)) (pa : Nat) :
    (s.foreignStores ln es).memByte pa
      = if pa / 128 = ln then ((es.reverse.find? fun e => e.1 == pa).map (·.2)).getD (s.memByte pa) else s.memByte pa := by
  induction es generalizing s with
  | nil => simp [State.foreignStores]
  | cons e es ih =>
    by_cases he : e.1 / 128 = ln
    · have step : s.foreignStores ln (e :: es) = (s.setMemByte e.1 e.2).foreignStores ln es := by
        simp [State.foreignStores, he, State.foreignStore_of_no_shadows h]
      rw [step, ih (s := s.setMemByte e.1 e.2) h hs, memByte_setMemByte]
      by_cases hp : pa / 128 = ln
      · have key : s.memKey pa = s.memKey e.1 ↔ e.1 = pa := ⟨fun k => (hs pa e.1 he k).symm, fun k => k ▸ rfl⟩
        rw [if_pos hp, if_pos hp, List.reverse_cons, List.find?_append, List.find?_singleton]
        cases (es.reverse.find? fun e => e.1 == pa) with
        | some v => rfl
        | none => by_cases c : e.1 = pa <;> simp [key, c]
      · have key : s.memKey pa ≠ s.memKey e.1 := fun k => hp (hs pa e.1 he k ▸ he)
        rw [if_neg hp, if_neg hp, if_neg key]
    · have step : s.foreignStores ln (e :: es) = s.foreignStores ln es := by
        simp [State.foreignStores, he]
      rw [step, ih h hs]
      split
      · rename_i hp
        have : (e.1 == pa) = false := by
          rw [beq_eq_false_iff_ne]
          rintro rfl
          exact he hp
        rw [List.reverse_cons, List.find?_append, List.find?_singleton, this]
        simp
      · rfl

/-- A line of host memory that the host takes back. -/
theorem takenBack_host {s : State} (h : Bytes s) (hs : s.shadows = []) {line : Nat} (hl : isHost (128 * line) = true)
    (stores : List (Nat × Byte)) : TakenBack s ((s.yieldLine line).foreignStores line stores) line stores := by
  have sole := soleLine_host s hl
  have mem := State.memByte_foreignStores (s := s.yieldLine line) ((s.yieldLine_shadows line).trans hs)
    (sole.congr (s.yieldLine_windows line)) stores
  simp only [State.yieldLine_memByte] at mem
  refine ⟨fun pa hp => ?_, fun pa b hp hf => ?_, fun pa x hp hf one hc => ?_, fun pa hp hf no => ?_⟩
  · rw [mem, if_neg hp, h.memByte_flushLine_other sole hp]
  · rw [mem, if_pos hp, hf]
    rfl
  · have hx : x ∈ s.stream.filter fun y => y.line == line := one ▸ List.mem_singleton_self x
    have e : x.line = line := by simpa using (List.mem_filter.mp hx).2
    subst e
    rw [mem, if_pos hp, hf]
    exact h.memByte_flushLine_stream sole one hp hc
  · rw [mem, if_pos hp, hf]
    exact h.memByte_flushLine_held sole no hp

end Sys2Proof.Machine
end

section
/-!
The host's registers, translation caches and contexts (R37, R220, R358 to R360, R399, R403).
-/

namespace Sys2Proof.Machine

/-! ### Items that a change names -/

theorem State.modCtx_ctx_self (s : State) {x : Nat} (h : x < s.ctxs.length) (f : Ctx → Ctx) : (s.modCtx x f).ctx x = f (s.ctx x) :=
  (getD_modify s.ctxs x x f default fun _ => h).trans (if_pos rfl)

theorem State.modCtx_ctx_other (s : State) {x y : Nat} (h : y ≠ x) (f : Ctx → Ctx) : (s.modCtx x f).ctx y = s.ctx y :=
  modify_getD_other s.ctxs f default h

theorem State.modBlock_block_self (s : State) {b : Nat} (h : b < s.blocks.length) (f : Block → Block) :
    (s.modBlock b f).block b = f (s.block b) := (getD_modify s.blocks b b f default fun _ => h).trans (if_pos rfl)

theorem State.modBlock_block_other (s : State) {b c : Nat} (h : c ≠ b) (f : Block → Block) : (s.modBlock b f).block c = s.block c :=
  modify_getD_other s.blocks f default h

@[simp] theorem State.modBlock_length (s : State) (b f) : (s.modBlock b f).blocks.length = s.blocks.length := by
  simp [State.modBlock]

@[simp] theorem State.modCourse_length (s : State) (c f) : (s.modCourse c f).courses.length = s.courses.length := by
  simp [State.modCourse]

@[simp] theorem State.modCtx_length (s : State) (x f) : (s.modCtx x f).ctxs.length = s.ctxs.length := by
  simp [State.modCtx]

/-- An item after every item was changed alike, where the change leaves the default alone. -/
theorem getD_map (l : List α) (f : α → α) (d : α) (i : Nat) (hd : f d = d) : (l.map f).getD i d = f (l.getD i d) := by
  simp only [List.getD_eq_getElem?_getD, List.getElem?_map]
  cases l[i]? with
  | none => exact hd.symm
  | some v => rfl

theorem State.ctxPlace_lt {s : State} {n x : Nat} (h : s.ctxPlace n = some x) : x < s.ctxs.length := by
  have := List.mem_of_find?_eq_some h
  simpa using this

/-! ### Registers that store what is written (R37, R220, R360, R399, R403) -/

@[simp] theorem State.modQueue_queue (s : State) (q f) : (s.modQueue q f).queue q = f (s.queue q) := Cells.get_set_self ..
@[simp] theorem State.modChannel_channel (s : State) (h f) : (s.modChannel h f).channel h = f (s.channel h) := Cells.get_set_self ..

theorem execRegisterWrite_queue (s : State) {q off : Nat} (v : Word) (hq : q < 4096) (ho : off < 64) :
    execRegisterWrite (64 * q + off) v s = .next (s.writeQueueReg q off v) := by
  unfold execRegisterWrite
  rw [if_pos (by omega), show (64 * q + off) / 64 = q by omega, show (64 * q + off) % 64 = off by omega]

theorem execRegisterWrite_window (s : State) {w : Nat} (v : Word) (hw : w < 64) :
    execRegisterWrite (0x90000 + 32 * w) v s = .next (s.writeWindowReg w 0 v) := by
  unfold execRegisterWrite
  rw [if_neg (by omega), if_neg (by omega), if_neg (by omega), if_pos (by omega),
    show (0x90000 + 32 * w - 0x90000) / 32 = w by omega, show (0x90000 + 32 * w) % 32 = 0 by omega]

theorem execRegisterWrite_channel (s : State) {h : Nat} (v : Word) (hh : h < 192) :
    execRegisterWrite (0xB0000 + 64 * h + 8) v s = .next (s.writeChannelReg h 8 v) := by
  unfold execRegisterWrite
  rw [if_neg (by omega), if_neg (by omega), if_neg (by omega), if_neg (by omega), if_pos (by omega),
    show (0xB0000 + 64 * h + 8 - 0xB0000) / 64 = h by omega, show (0xB0000 + 64 * h + 8) % 64 = 8 by omega]

theorem writeQueueReg_base (s : State) (q : Nat) (v : Word) : (s.writeQueueReg q 0 v).queue q = { s.queue q with base := v } :=
  s.modQueue_queue q _
theorem writeQueueReg_repair (s : State) (q : Nat) (v : Word) : (s.writeQueueReg q 0x28 v).queue q = { s.queue q with repair := v } :=
  s.modQueue_queue q _

theorem writeWindowReg_base {s : State} {w : Nat} (v : Word) (h : (Cells.get {} s.windows w).enabled = false) :
    Cells.get {} (s.writeWindowReg w 0 v).windows w = { Cells.get {} s.windows w with base := v &&& 0xFFFFFC0000000 } := by
  simp only [State.writeWindowReg, if_true, h, Bool.false_eq_true, if_false]
  exact Cells.get_set_self ..

theorem writeChannelReg_send {s : State} {h : Nat} (v : Word) (hd : (s.channel h).enabled = false) :
    (s.writeChannelReg h 8 v).channel h = { s.channel h with send := v } := by
  simp only [State.writeChannelReg, if_true, hd, Bool.false_eq_true, if_false]
  exact s.modChannel_channel h _

/-! ### Translation-cache invalidation (R220) -/

/-- A write of TLBINV_CTL that starts an invalidation. -/
theorem execTlbInvalidate_start {s : State} {v : Word} (hv : v.getLsbD 0 = true) (hd : s.tlbCtl.getLsbD 1 = true) :
    execTlbInvalidate v s = .next { s with
      tlbCtl := v &&& 0xFFFFFFFF00000004
      tlbJob := some (.remove (fld v 32 32) (v.getLsbD 2) (s.tlbVa.toNat % 2 ^ 57 / 2 ^ 16 * 2 ^ 16)) } := by
  simp only [execTlbInvalidate, hv, hd, Bool.not_true, Bool.false_eq_true, if_false, if_true]

theorem Walked.maps_iff (w : Walked) (va : Nat) : w.maps va = true ↔ w.page = va / 2 ^ w.sh := by simp [Walked.maps]

/-- A held entry stays unless it is of the context and the removal takes all of it, or the page that the entry maps. -/
theorem mem_filter_unmapped {s : State} {ctx : Nat} {all : Bool} {va : Nat} {w : Walked} (hw : w ∈ s.walks) :
    (w ∈ s.walks.filter fun w => !((s.ctx w.ctx).num == ctx && (all || w.maps va)))
      ↔ ¬((s.ctx w.ctx).num = ctx ∧ (all = true ∨ w.page = va / 2 ^ w.sh)) := by
  rw [List.mem_filter, and_iff_right hw, Bool.not_eq_true', ← Bool.not_eq_true]
  simp only [Bool.and_eq_true, beq_iff_eq, Bool.or_eq_true, Walked.maps_iff]

/-- The removal changes what is held and the invalidation's own state. -/
theorem tlbRemove_eq {s : State} {ctx : Nat} {all : Bool} {va : Nat} (h : s.tlbJob = some (.remove ctx all va)) :
    ∃ job, s.tlbRemove = { s with
      walks := s.walks.filter fun w => !((s.ctx w.ctx).num == ctx && (all || w.maps va)), tlbJob := job } := by
  simp only [State.tlbRemove, h]
  exact ⟨_, rfl⟩

/-- The removal is an action of the device for which nobody pays. -/
theorem perform_tlbRemove (s : State) : perform s .tlbRemove = .next s.tlbRemove := rfl

/-- An invalidation is settled where no access that it waits for is under way. -/
theorem tlbSettled_iff {s : State} {time : Nat} {marks : List Nat} (h : s.tlbJob = some (.settle time marks)) :
    s.tlbSettled = true ↔ ¬(s.clock < time ∨ ∃ m ∈ marks, (∃ y ∈ s.copies, ∃ h ∈ y.todo, h.mark = some m)
      ∨ ∃ o ∈ s.ops, ∃ r ∈ o.early, r.mark = m) := by
  simp only [State.tlbSettled, h, Bool.and_eq_true, decide_eq_true_eq, Bool.not_eq_true', List.any_eq_false, List.any_eq_true,
    Bool.or_eq_true, beq_iff_eq, not_or, not_exists, not_and, Nat.not_lt]

theorem execTlbInvalidateDone_eq (s : State) : execTlbInvalidateDone s
    = .next (if s.tlbSettled then { s with tlbCtl := s.tlbCtl ||| 2, tlbJob := none } else s) := by
  unfold execTlbInvalidateDone
  split <;> rfl

/-! ### Commands on contexts (R360) -/

theorem ctxStatus_busy (n : Nat) (b : Bool) (e : Nat) : (ctxStatus n b e).getLsbD 0 = b := by
  simp only [ctxStatus, BitVec.getLsbD_ofNat, Nat.testBit_zero]
  cases b <;> simp <;> omega

/-- The state in which a command works: CTXCMD holds what was written. -/
def State.withCmd (s : State) (w : Word) : State := { s with ctxCmd := w }
/-- The state after a command, with what CTXSTAT shows of it. -/
def State.withStat (s : State) (w : Word) : State := { s with ctxStat := w }

section
variable (s : State) (w : Word)

@[simp] theorem State.withCmd_ctx (x) : (s.withCmd w).ctx x = s.ctx x := rfl
@[simp] theorem State.withCmd_ctxPlace (k) : (s.withCmd w).ctxPlace k = s.ctxPlace k := rfl
@[simp] theorem State.withCmd_readCrec : (s.withCmd w).readCrec = s.readCrec := rfl
@[simp] theorem State.withCmd_hasWork (x) : (s.withCmd w).hasWork x = s.hasWork x := rfl
@[simp] theorem State.withStat_ctxs : (s.withStat w).ctxs = s.ctxs := rfl
@[simp] theorem State.withStat_ctx (x) : (s.withStat w).ctx x = s.ctx x := rfl
@[simp] theorem State.withStat_region (r) : (s.withStat w).region r = s.region r := rfl
@[simp] theorem State.withStat_course (c) : (s.withStat w).course c = s.course c := rfl
@[simp] theorem State.withStat_block (b) : (s.withStat w).block b = s.block b := rfl
@[simp] theorem State.withStat_ops : (s.withStat w).ops = s.ops := rfl
@[simp] theorem State.withStat_ctxStat : (s.withStat w).ctxStat = w := rfl
@[simp] theorem State.withStat_saveIx (x i) : (s.withStat w).saveIx x i = s.saveIx x i := rfl

end

/-- A command that is taken does its work and shows its BUSY and ERR. -/
theorem State.command_next {s : State} (h : s.ctxBusy = false) {n op : Nat} {f : State → State × Bool × Nat} {P : State → Prop}
    (u : Word → State) (b : Bool) (e : Nat) (hf : ∀ w, f (s.withCmd w) = (u w, b, e))
    (hP : ∀ w v, v = ctxStatus n b e → P ((u w).withStat v)) :
    ∃ t, (Host.Outcome.next (s.command n op f) : Host.Outcome State Fault Refusal) = .next t ∧ P t := by
  generalize hw : BitVec.ofNat 64 (n * 2 ^ 32 + op) = w
  have hf : f { s with ctxCmd := w } = (u w, b, e) := hf w
  refine ⟨_, ?_, hP w _ rfl⟩
  simp only [State.command, h, hw, hf, Bool.false_eq_true, if_false]
  rfl

/-! ### The save area of a context (R359, R374) -/

/-- Bytes within one line of host memory that the device stored read back. -/
theorem Bytes.readBytes_hostStore {s : State} (h : Bytes s) (hs : s.shadows = []) {pa : Nat} {bs : List Byte}
    (hl : pa % 128 + bs.length ≤ 128) (host : isHost (128 * (pa / 128)) = true) {k n : Nat} (hn : 0 < n) (hk : k + n ≤ bs.length) :
    (s.hostStore pa bs).readBytes 0 (pa + k) n = (bs.drop k).take n := by
  refine State.readBytes_eq (by simp; omega) fun i hi => ?_
  have hb : bs ≠ [] := List.length_pos_iff.mp (by omega)
  show (s.hostStore pa bs).wbByte (pa + k + i) = _
  rw [h.wbByte_hostStore hs hb hl (soleLine_host s host), if_pos (by omega), show pa + k + i - pa = k + i by omega]
  simp [List.getD_eq_getElem?_getD, hi, show k + i < bs.length by omega]

/-- A save area begins at a multiple of 2 MiB. -/
theorem saveBase_aligned (s : State) (x : Nat) : ∃ k, s.saveBase x = k * 0x200000 := ⟨_, rfl⟩

theorem saveBase_line {s : State} {x k : Nat} (h : isHost (s.saveBase x) = true) (hk : k < 0x100000) :
    isHost (128 * ((s.saveBase x + k) / 128)) = true := by
  obtain ⟨j, e⟩ := saveBase_aligned s x
  simp only [isHost, decide_eq_true_eq, e] at h ⊢
  omega

@[simp] theorem State.hostStore_ctxs (s : State) (pa bs) : (s.hostStore pa bs).ctxs = s.ctxs := by
  obtain ⟨sh, n, e⟩ := s.hostStore_aside pa bs
  exact (congrArg State.ctxs e :)

@[simp] theorem State.hostStore_saveBase (s : State) (pa bs x) : (s.hostStore pa bs).saveBase x = s.saveBase x := by
  simp only [State.saveBase, State.ctx, State.hostStore_ctxs]

/-- An index of the save area reads as it was written. -/
theorem Bytes.saveIx_setSaveIx {s : State} (h : Bytes s) (hs : s.shadows = []) {x i : Nat} (hi : i < 16)
    (host : isHost (s.saveBase x) = true) (n : Nat) : (s.setSaveIx x i n).saveIx x i = n % 2 ^ 64 := by
  obtain ⟨j, hmod⟩ := saveBase_aligned s x
  have hr := h.readBytes_hostStore hs (pa := s.saveBase x + 8 * i) (bs := natLe 8 n) (by simp; omega)
    (saveBase_line host (by omega)) (k := 0) (n := 8) (by decide) (by simp)
  rw [State.setSaveIx, State.saveIx, State.hostStore_saveBase, State.read64_eq (v := n) (by simpa [List.take_of_length_le] using hr)]
  simp

/-- The range of a context record where its save area begins is host memory. -/
theorem rangesOk_first {rs : List Word} (h : rangesOk rs = true) : isHost (rangeSpan (rs.headD 0)).1 = true := by
  simp only [rangesOk, Bool.and_eq_true] at h
  obtain ⟨⟨⟨⟨-, hf⟩, -⟩, -⟩, -⟩ := h
  exact hf

/-! ### Contexts come and go (R358 to R360) -/

/-- The six indices read 0 once the device stored zeros where a save area begins. -/
theorem Bytes.saveIx_zeroed {s : State} (h : Bytes s) (hs : s.shadows = []) {x i : Nat} (host : isHost (s.saveBase x) = true) (hi : i < 6) :
    (s.hostStore (s.saveBase x) (natLe 48 0)).saveIx x i = 0 := by
  obtain ⟨j, hmod⟩ := saveBase_aligned s x
  have line : isHost (128 * (s.saveBase x / 128)) = true := by
    rw [hmod] at host ⊢
    rwa [show 128 * (j * 0x200000 / 128) = j * 0x200000 by omega]
  have hread := h.readBytes_hostStore hs (bs := natLe 48 0) (by simp; omega) line (k := 8 * i) (n := 8) (by omega) (by simp; omega)
  rw [natLe_zero, List.drop_replicate, List.take_replicate, show min 8 (48 - 8 * i) = 8 by omega, ← natLe_zero, ← natLe_zero] at hread
  rw [State.saveIx, State.hostStore_saveBase, State.read64_eq hread, BitVec.toNat_ofNat, Nat.zero_mod]

/-- CONTEXT_CREATE with a good record: the context is there, and its six indices are 0. -/
theorem execContextCreate_new {s : State} (h : Bytes s) {n w : Nat} (hb : s.ctxBusy = false) (hp : s.ctxPlace n = none)
    (hc : s.readCrec = some w) (hm : crecMalformed w = false) (hr : rangesOk (crecCtx n w).ranges = true) :
    ∃ t, execContextCreate n s = .next t ∧ t.ctxs = s.ctxs ++ [crecCtx n w] ∧ t.ctxStat = ctxStatus n false 0
      ∧ (s.shadows = [] → ∀ i < 6, t.saveIx s.ctxs.length i = 0) := by
  unfold execContextCreate
  refine State.command_next hb (fun v => { s with ctxCmd := v, ctxs := s.ctxs ++ [crecCtx n w] }.hostStore
    (rangeSpan ((crecCtx n w).ranges.headD 0)).1 (natLe 48 0)) false 0 (fun v => ?_) fun v y hy =>
      ⟨by rw [State.withStat_ctxs, State.hostStore_ctxs], hy, fun hs i hi => ?_⟩
  · simp only [State.withCmd_ctxPlace, hp, State.withCmd_readCrec, hc, hm, hr]
    rfl
  · generalize crecCtx n w = c at *
    generalize hu : ({ s with ctxCmd := v, ctxs := s.ctxs ++ [c] } : State) = u
    have hB : Bytes u := hu ▸ h.of_eq rfl rfl rfl rfl
    have hctx : u.ctx s.ctxs.length = c := by
      subst hu
      simp [State.ctx]
    have base : u.saveBase s.ctxs.length = (rangeSpan (c.ranges.headD 0)).1 := by
      simp only [State.saveBase, hctx, rangeSpan]
    rw [State.withStat_saveIx, ← base]
    exact hB.saveIx_zeroed (hu ▸ hs) (base ▸ rangesOk_first hr) hi

/-- CONTEXT_CREATE under a number that is taken. -/
theorem execContextCreate_taken {s : State} {n x : Nat} (hb : s.ctxBusy = false) (hp : s.ctxPlace n = some x) :
    ∃ t, execContextCreate n s = .next t ∧ t.ctxs = s.ctxs ∧ t.ctxStat = ctxStatus n false 2 := by
  unfold execContextCreate
  refine State.command_next hb s.withCmd false 2 (fun v => ?_) fun v y hy => ⟨rfl, hy⟩
  simp only [State.withCmd_ctxPlace, hp, Option.isSome_some, if_true]

/-- CONTEXT_DESTROY of a context without work ends the context and its regions. -/
theorem execContextDestroy_idle {s : State} {n x : Nat} (hp : s.ctxPlace n = some x) (hb : s.ctxBusy = false) (hw : s.hasWork x = false) :
    ∃ t, execContextDestroy n s = .next t ∧ (t.ctx x).st = .destroyed ∧ ∀ r, (s.region r).ctx = x → (t.region r).state = 0 := by
  unfold execContextDestroy
  refine State.command_next hb (fun v =>
    { s with ctxCmd := v, regions := s.regions.map fun (r : Region) => if r.ctx == x then { r with state := 0 } else r }.modCtx x
      fun c => { c with st := .destroyed }) false 0 (fun v => ?_) fun v y hy => ⟨?_, fun r hr => ?_⟩
  · simp only [State.withCmd_ctxPlace, hp, State.withCmd_hasWork, hw]
    rfl
  · rw [State.withStat_ctx, State.modCtx_ctx_self _ (by exact State.ctxPlace_lt hp)]
  · rw [State.withStat_region, State.modCtx_region]
    show ((s.regions.map fun (r : Region) => if r.ctx == x then { r with state := 0 } else r).getD r default).state = 0
    rw [getD_map _ _ _ _ (by split <;> rfl), show s.regions.getD r default = s.region r from rfl]
    simp only [hr, beq_self_eq_true, if_true]

/-- CONTEXT_SCB of a context without work takes SCB from the record. -/
theorem execContextScb_idle {s : State} {n x w : Nat} (hp : s.ctxPlace n = some x) (hb : s.ctxBusy = false) (hl : (s.ctx x).st ≠ .lost)
    (hw : s.hasWork x = false) (hc : s.readCrec = some w) :
    ∃ t, execContextScb n s = .next t ∧ (t.ctx x).scb = crecScb w := by
  unfold execContextScb
  refine State.command_next hb (fun v => (s.withCmd v).modCtx x fun c => { c with scb := crecScb w }) false 0 (fun v => ?_) fun v y hy => ?_
  · simp only [State.withCmd_ctxPlace, hp, State.withCmd_ctx, hl, State.withCmd_hasWork, hw, State.withCmd_readCrec, hc]
    rfl
  · rw [State.withStat_ctx, State.modCtx_ctx_self _ (by exact State.ctxPlace_lt hp)]

/-- SAVE_AREA_TAIL_ADVANCE writes the tail of its ring. -/
theorem execSaveAreaTailAdvance_tail {s : State} (h : Bytes s) (hs : s.shadows = []) {n x ring : Nat} (hp : s.ctxPlace n = some x)
    (hr : ring < 3) (host : isHost (s.saveBase x) = true) (v : Word) :
    ∃ t, execSaveAreaTailAdvance n ring v s = .next t ∧ t.saveIx x (2 * ring + 1) = v.toNat := by
  refine ⟨s.setSaveIx x (2 * ring + 1) v.toNat, by simp only [execSaveAreaTailAdvance, hp, if_pos hr], ?_⟩
  rw [h.saveIx_setSaveIx hs (by omega) host, Nat.mod_eq_of_lt v.isLt]

end Sys2Proof.Machine
end

section
/-!
Contexts are suspended, resumed and lost (R59, R361, R362, R364), and the L2 mode changes (R5).
-/

namespace Sys2Proof.Machine

/-! ### Courses of a context leave their cores -/

theorem mem_ctxCourses {s : State} {x c : Nat} : c ∈ s.ctxCourses x ↔ c < s.courses.length ∧ s.ctxOf c = x := by
  simp [State.ctxCourses]

theorem mem_ctxBlocks {s : State} {x b : Nat} : b ∈ s.ctxBlocks x ↔ b < s.blocks.length ∧ (s.blockLaunch b).ctx = x := by
  simp [State.ctxBlocks]

theorem State.leave_same (s : State) (c : Nat) (r : Residence) :
    (s.leave c r).ctxs = s.ctxs ∧ (s.leave c r).courses.length = s.courses.length ∧ (s.leave c r).partitioned = s.partitioned :=
  ⟨rfl, s.modCourse_length .., rfl⟩

theorem State.leave_self {s : State} {c : Nat} (hc : c < s.courses.length) (r : Residence) (hp : (s.course c).place = .resident)
    (hl : (s.course c).leaving = none) : ((s.leave c r).course c).leaving = some r := by
  rw [State.leave, State.modCourse_course s c c _ hc, if_pos rfl, hp, hl]
  rfl

theorem State.leave_other (s : State) {c d : Nat} (h : d ≠ c) (r : Residence) : (s.leave c r).course d = s.course d :=
  s.modCourse_other _ h

/-- Each course that still runs is told to leave. -/
def State.suspendStep (s : State) (c : Nat) : State := if (s.course c).leaving.isNone then s.leave c .suspended else s

theorem State.suspendStep_same (s : State) (c : Nat) :
    (s.suspendStep c).ctxs = s.ctxs ∧ (s.suspendStep c).courses.length = s.courses.length ∧ (s.suspendStep c).partitioned = s.partitioned := by
  unfold State.suspendStep
  split
  · exact s.leave_same ..
  · exact ⟨rfl, rfl, rfl⟩

theorem State.suspendCtx_eq (s : State) (x : Nat) (b : Bool) :
    s.suspendCtx x b = (s.ctxCourses x).foldl State.suspendStep (s.modCtx x fun c => { c with st := .suspending, bySched := b }) := rfl

theorem State.suspendCtx_ctxs (s : State) (x : Nat) (b : Bool) :
    (s.suspendCtx x b).ctxs = (s.modCtx x fun c => { c with st := .suspending, bySched := b }).ctxs :=
  foldl_same State.ctxs State.suspendStep _ (fun t c => (t.suspendStep_same c).1) _

theorem State.suspendCtx_partitioned (s : State) (x : Nat) (b : Bool) : (s.suspendCtx x b).partitioned = s.partitioned :=
  foldl_same State.partitioned State.suspendStep _ (fun t c => (t.suspendStep_same c).2.2) _

theorem State.suspendCtx_st {s : State} {x : Nat} (h : x < s.ctxs.length) (b : Bool) : ((s.suspendCtx x b).ctx x).st = .suspending := by
  have := congrArg (fun l : List Ctx => (l.getD x default).st) (s.suspendCtx_ctxs x b)
  exact this.trans (congrArg Ctx.st (s.modCtx_ctx_self h _))

theorem State.suspendCtx_other (s : State) {x y : Nat} (h : y ≠ x) (b : Bool) : (s.suspendCtx x b).ctx y = s.ctx y := by
  have := congrArg (fun l : List Ctx => l.getD y default) (s.suspendCtx_ctxs x b)
  exact this.trans (s.modCtx_ctx_other h _)

theorem State.suspendCtx_length (s : State) (x : Nat) (b : Bool) : (s.suspendCtx x b).ctxs.length = s.ctxs.length := by
  rw [State.suspendCtx_ctxs, State.modCtx_length]

theorem State.suspendStep_other (s : State) {c d : Nat} (h : c ≠ d) : (s.suspendStep d).course c = s.course c := by
  unfold State.suspendStep
  split
  · exact s.leave_other h _
  · rfl

/-- A course that was told to leave stays told. -/
theorem State.suspendStep_told {s : State} {c : Nat} (d : Nat) (h : (s.course c).leaving = some .suspended) :
    ((s.suspendStep d).course c).leaving = some .suspended := by
  by_cases e : c = d
  · subst e
    simp only [State.suspendStep, h, Option.isNone_some, Bool.false_eq_true, if_false]
  · rwa [s.suspendStep_other e]

/-- A resident course of the context stops at its next instruction boundary. -/
theorem State.suspendCtx_leaving {s : State} {x c : Nat} (b : Bool) (hc : c < s.courses.length) (hx : s.ctxOf c = x)
    (hp : (s.course c).place = .resident) (hl : (s.course c).leaving = none) :
    ((s.suspendCtx x b).course c).leaving = some .suspended := by
  rw [State.suspendCtx_eq]
  refine foldl_reaches
    (Q := fun t : State => c < t.courses.length ∧ ((t.course c).leaving = some .suspended ∨ t.course c = s.course c))
    (P := fun t : State => (t.course c).leaving = some .suspended) State.suspendStep (mem_ctxCourses.mpr ⟨hc, hx⟩)
    (fun t d ht => ⟨by rw [(t.suspendStep_same d).2.1]; exact ht.1, ?_⟩) (fun t d ht => State.suspendStep_told d ht)
    (fun t ht => ?_) ⟨hc, .inr rfl⟩
  · obtain ⟨hlen, told | same⟩ := ht
    · exact .inl (State.suspendStep_told d told)
    · by_cases e : c = d
      · subst e
        refine .inl ?_
        rw [State.suspendStep, same, hl]
        exact State.leave_self hlen _ (same ▸ hp) (same ▸ hl)
      · exact .inr ((t.suspendStep_other e).trans same)
  · obtain ⟨hlen, told | same⟩ := ht
    · exact State.suspendStep_told c told
    · rw [State.suspendStep, same, hl]
      exact State.leave_self hlen _ (same ▸ hp) (same ▸ hl)

/-- CONTEXT_SUSPEND of a context that runs. -/
theorem execContextSuspend_running {s : State} {n x : Nat} (hp : s.ctxPlace n = some x) (hb : s.ctxBusy = false)
    (hr : (s.ctx x).st = .running) : ∃ t, execContextSuspend n s = .next t ∧ (t.ctx x).st = .suspending ∧ t.ctxBusy = true
      ∧ ∀ c < s.courses.length, s.ctxOf c = x → (s.course c).place = .resident → (s.course c).leaving = none →
        (t.course c).leaving = some .suspended := by
  unfold execContextSuspend
  refine State.command_next hb (fun v => (s.withCmd v).suspendCtx x false) true 0 (fun v => ?_) fun v y hy => ⟨?_, ?_, ?_⟩
  · simp only [State.withCmd_ctxPlace, hp, State.withCmd_ctx, hr]
  · rw [State.withStat_ctx]
    exact State.suspendCtx_st (s := s.withCmd v) (State.ctxPlace_lt hp) false
  · rw [State.ctxBusy, State.withStat_ctxStat, hy, ctxStatus_busy]
  · intro c hc hx hp hl
    rw [State.withStat_course]
    exact State.suspendCtx_leaving (s := s.withCmd v) false hc hx hp hl

/-! ### A context is off its cores -/

/-- The command's BUSY ends, if it was this context's command; nothing else changes. -/
theorem State.endCommand_eq (s : State) (n : Nat) : ∃ w, s.endCommand n = s.withStat w := by
  unfold State.endCommand
  split
  · exact ⟨_, rfl⟩
  · exact ⟨s.ctxStat, rfl⟩

/-- What a release in several clusters does not change. -/
theorem noteReleases_same (s : State) (ks : List Nat) (g : State → α) (h : ∀ t k, g (State.noteRelease t k) = g t) :
    g (ks.foldl (fun s k => s.noteRelease k) s) = g s := foldl_same g (fun s k => State.noteRelease s k) ks h s

/-- A block that has room gives it up. -/
def Block.suspend (y : Block) : Block := if y.st.placed then { y with st := .suspended } else y

theorem Block.suspend_st (y : Block) (h : y.st.placed = true ∨ y.st = .suspended) : y.suspend.st = .suspended := by
  unfold Block.suspend
  split
  · rfl
  · exact h.resolve_left ‹_›

theorem suspendBlocks_st {s : State} {bs : List Nat} {b : Nat} (hm : b ∈ bs) (hb : b < s.blocks.length)
    (hp : (s.block b).st.placed = true) : ((bs.foldl (fun s b => s.modBlock b Block.suspend) s).block b).st = .suspended := by
  have step : ∀ (t : State) d, b < t.blocks.length → ((t.block b).st.placed = true ∨ (t.block b).st = .suspended) →
      ((t.modBlock d Block.suspend).block b).st.placed = true ∨ ((t.modBlock d Block.suspend).block b).st = .suspended := by
    intro t d hl h
    by_cases e : b = d
    · subst e
      rw [t.modBlock_block_self hl]
      exact .inr (Block.suspend_st _ h)
    · rwa [t.modBlock_block_other e]
  refine (foldl_reaches
    (Q := fun t : State => b < t.blocks.length ∧ ((t.block b).st.placed = true ∨ (t.block b).st = .suspended))
    (P := fun t : State => b < t.blocks.length ∧ (t.block b).st = .suspended) (fun (s : State) b => s.modBlock b Block.suspend) hm
    (fun t d ht => ⟨by rw [State.modBlock_length]; exact ht.1, step t d ht.1 ht.2⟩) (fun t d ht => ?_)
    (fun t ht => ⟨by rw [State.modBlock_length]; exact ht.1, ?_⟩) ⟨hb, .inl hp⟩).2
  · refine ⟨by rw [State.modBlock_length]; exact ht.1, ?_⟩
    by_cases e : b = d
    · subst e
      rw [t.modBlock_block_self ht.1]
      exact Block.suspend_st _ (.inr ht.2)
    · rw [t.modBlock_block_other e]
      exact ht.2
  · rw [t.modBlock_block_self ht.1]
    exact Block.suspend_st _ ht.2

/-- Operations of a course that have not started stand in no engine's queue once they are saved (R268). -/
theorem saveOps_core {s : State} {cs : List Nat} {c : Nat} (hm : c ∈ cs) :
    ∀ o ∈ (cs.foldl (fun s c => s.saveOps c) s).ops, o.course = c → o.started = none → o.core = none := by
  have saved : ∀ (t : State) d, ∀ o ∈ (t.saveOps d).ops, (o.course = d ∧ o.started = none ∧ o.core = none) ∨
      (o ∈ t.ops ∧ (o.course = d → o.started ≠ none)) := by
    intro t d o ho
    obtain ⟨o', ho', rfl⟩ := List.mem_map.mp ho
    split
    · rename_i h
      simp only [Bool.and_eq_true, beq_iff_eq, Option.isNone_iff_eq_none] at h
      exact .inl ⟨h.1, h.2, rfl⟩
    · rename_i h
      simp only [Bool.and_eq_true, beq_iff_eq, Option.isNone_iff_eq_none, not_and] at h
      exact .inr ⟨ho', h⟩
  refine foldl_reaches (Q := fun _ => True)
    (P := fun t : State => ∀ o ∈ t.ops, o.course = c → o.started = none → o.core = none) (fun (s : State) c => s.saveOps c) hm
    (fun _ _ _ => trivial) (fun t d ht o ho hc hs => ?_) (fun t _ o ho hc hs => ?_) trivial
  · rcases saved t d o ho with h | h
    · exact h.2.2
    · exact ht o h.1 hc hs
  · rcases saved t c o ho with h | h
    · exact h.2.2
    · exact absurd hs (h.2 hc)

/-- The context's operations are saved, and its blocks give up their room. -/
def State.putAway (s : State) (x : Nat) : State :=
  (s.ctxBlocks x).foldl (fun s b => s.modBlock b Block.suspend) ((s.ctxCourses x).foldl (fun s c => s.saveOps c) s)

theorem State.putAway_ctxs (s : State) (x : Nat) : (s.putAway x).ctxs = s.ctxs :=
  (foldl_same State.ctxs (fun (s : State) b => s.modBlock b Block.suspend) _ (fun _ _ => rfl) _).trans
    (foldl_same State.ctxs (fun (s : State) c => s.saveOps c) _ (fun _ _ => rfl) s)

theorem State.putAway_ops (s : State) (x : Nat) : (s.putAway x).ops = ((s.ctxCourses x).foldl (fun s c => s.saveOps c) s).ops :=
  foldl_same State.ops (fun (s : State) b => s.modBlock b Block.suspend) _ (fun _ _ => rfl) _

theorem State.putAway_block {s : State} {x b : Nat} (hb : b < s.blocks.length) (hx : (s.blockLaunch b).ctx = x)
    (hp : (s.block b).st.placed = true) : ((s.putAway x).block b).st = .suspended := by
  have same : ((s.ctxCourses x).foldl (fun s c => s.saveOps c) s).blocks = s.blocks :=
    foldl_same State.blocks (fun (s : State) c => s.saveOps c) _ (fun _ _ => rfl) s
  exact suspendBlocks_st (mem_ctxBlocks.mpr ⟨hb, hx⟩) (by rwa [same]) (by rw [State.block, same]; exact hp)

/-- SUSPEND_COMPLETE where it is due. -/
theorem execSuspendComplete_due {s : State} {n x : Nat} (hp : s.ctxPlace n = some x) (hd : s.suspendDue x = true) :
    ∃ t, execSuspendComplete n s = .next t ∧ (t.ctx x).st = .suspended
      ∧ (∀ b < s.blocks.length, (s.blockLaunch b).ctx = x → (s.block b).st.placed = true → (t.block b).st = .suspended)
      ∧ ∀ o ∈ t.ops, s.ctxOf o.course = x → o.course < s.courses.length → o.started = none → o.core = none := by
  have e : execSuspendComplete n s = .next (((s.placedClusters x).foldl (fun s k => s.noteRelease k)
      ((s.putAway x).modCtx x fun c => { c with st := .suspended })).endCommand n) := by
    simp only [execSuspendComplete, hp, hd, Bool.not_true, Bool.false_eq_true, if_false]
    rfl
  obtain ⟨w, hw⟩ := State.endCommand_eq ((s.placedClusters x).foldl (fun s k => s.noteRelease k)
    ((s.putAway x).modCtx x fun c => { c with st := .suspended })) n
  refine ⟨_, e.trans (congrArg _ hw), ?_, fun b hb hx hpl => ?_, fun o ho hx hc hs => ?_⟩
  · rw [State.withStat_ctx, noteReleases_same _ _ (fun t : State => t.ctx x) fun _ _ => rfl, State.modCtx_ctx_self]
    rw [State.putAway_ctxs]
    exact State.ctxPlace_lt hp
  · rw [State.withStat_block, noteReleases_same _ _ (fun t : State => t.block b) fun _ _ => rfl, State.modCtx_block]
    exact State.putAway_block hb hx hpl
  · rw [State.withStat_ops, noteReleases_same _ _ State.ops fun _ _ => rfl, State.modCtx_ops, State.putAway_ops] at ho
    exact saveOps_core (mem_ctxCourses.mpr ⟨hc, hx⟩) o ho rfl hs

/-! ### A context comes back (R361) -/

/-- CONTEXT_RESUME of a suspended context. -/
theorem execContextResume_suspended {s : State} {n x : Nat} (hp : s.ctxPlace n = some x) (hb : s.ctxBusy = false)
    (hr : (s.ctx x).st = .suspended) : ∃ t, execContextResume n s = .next t ∧ (t.ctx x).st = .resuming ∧ t.ctxBusy = true := by
  have e : execContextResume n s = .next (s.command n 3 fun s => (s.modCtx x fun c => { c with st := .resuming }, true, 0)) := by
    simp only [execContextResume, hp, hr]
  rw [e]
  refine State.command_next hb (fun v => (s.withCmd v).modCtx x fun c => { c with st := .resuming }) true 0 (fun v => rfl)
    fun v y hy => ⟨?_, ?_⟩
  · rw [State.withStat_ctx, State.modCtx_ctx_self _ (by exact State.ctxPlace_lt hp)]
  · rw [State.ctxBusy, State.withStat_ctxStat, hy, ctxStatus_busy]

/-- A context that is being resumed runs once its blocks have found room. -/
theorem execContextResume_room {s u : State} {n x : Nat} (hp : s.ctxPlace n = some x) (hr : (s.ctx x).st = .resuming)
    (hd : s.resumeDue x = some u) : ∃ t, execContextResume n s = .next t ∧ t.blocks = u.blocks ∧ t.courses = u.courses
      ∧ t.ctxs = u.ctxs.modify x fun c => { c with st := .running, bySched := false } := by
  have e : execContextResume n s = .next ((u.modCtx x fun c => { c with st := .running, bySched := false }).endCommand n) := by
    simp only [execContextResume, hp, hr, hd]
  obtain ⟨w, hw⟩ := (u.modCtx x fun c => { c with st := .running, bySched := false }).endCommand_eq n
  exact ⟨_, e.trans (congrArg _ hw), rfl, rfl, rfl⟩

/-! ### A context is lost (R364) -/

/-- What the loss of a context makes of a launch. -/
def Launch.lose (x : Nat) (l : Launch) : Launch := if l.ctx == x && l.unretired then { l with st := .lost, owned := false } else l

/-- Whatever else the loss of a context settles: its state, its vector, CTXSTAT and its launches. -/
theorem State.loseContext_shows (s : State) (x : Nat) : ∃ u : State,
    u.ctxs = s.ctxs ∧ u.vectors = s.vectors ∧ u.launches = s.launches.map (Launch.lose x) ∧ u.ctxStat = ctxStatus (s.ctx x).num false 4
      ∧ s.loseContext x = ((s.placedClusters x).foldl (fun s k => s.noteRelease k) (u.modCtx x fun c => { c with st := .lost })).raiseVector x := by
  unfold State.loseContext
  generalize ctxStatus (s.ctx x).num false 4 = v
  have blocks := fun {β : Type} (g : State → β) (h : ∀ t b f, g (State.modBlock t b f) = g t) (hd : g (s.dropWaiting (s.ctxBlocks x)) = g s) =>
    (foldl_same g (fun (s : State) b => s.modBlock b fun y => { y with st := .ended, spSize := 0 }) (s.ctxBlocks x)
      (fun t b => h t b _) (s.dropWaiting (s.ctxBlocks x))).trans hd
  refine ⟨_, ?_, ?_, ?_, ?_, rfl⟩
  · refine (foldl_same State.ctxs _ _ ?_ _).trans (blocks State.ctxs (fun _ _ _ => rfl) rfl)
    exact fun _ _ => rfl
  · refine (foldl_same State.vectors _ _ ?_ _).trans (blocks State.vectors (fun _ _ _ => rfl) rfl)
    exact fun _ _ => rfl
  · refine (foldl_same State.launches _ _ ?_ _).trans
      (congrArg (List.map (Launch.lose x)) (blocks State.launches (fun _ _ _ => rfl) rfl))
    exact fun _ _ => rfl
  · refine (foldl_same State.ctxStat _ _ ?_ _).trans rfl
    exact fun _ _ => rfl

/-- CONTEXT_LOST where a save or restore may meet poison. -/
theorem execContextLost_due {s : State} {n x : Nat} (hp : s.ctxPlace n = some x) (hd : s.lostDue x = true) :
    ∃ t, execContextLost n s = .next t ∧ (t.ctx x).st = .lost ∧ t.vectors = (s.ctx x).vector :: s.vectors
      ∧ t.ctxStat = ctxStatus (s.ctx x).num false 4
      ∧ ∀ l < s.launches.length, (s.launch l).ctx = x → (s.launch l).unretired = true → (t.launch l).st = .lost := by
  have e : execContextLost n s = .next (s.loseContext x) := by simp only [execContextLost, hp, hd, if_true]
  obtain ⟨u, hctxs, hvectors, hlaunches, hstat, hu⟩ := s.loseContext_shows x
  generalize hk : s.placedClusters x = ks at hu
  have hctx : (u.modCtx x fun c => { c with st := .lost }).ctx x = { s.ctx x with st := .lost } := by
    rw [State.modCtx_ctx_self _ (by rw [hctxs]; exact State.ctxPlace_lt hp), State.ctx, hctxs]
    rfl
  generalize hv : u.modCtx x (fun c => { c with st := .lost }) = v at hu hctx
  have same := fun {β : Type} (g : State → β) => noteReleases_same v ks g
  refine ⟨_, e.trans (congrArg _ hu), ?_, ?_, ?_, fun l hl hx hr => ?_⟩
  · show ((ks.foldl (fun s k => s.noteRelease k) v).ctx x).st = .lost
    rw [same (fun t : State => t.ctx x) fun _ _ => rfl, hctx]
  · show ((ks.foldl (fun s k => s.noteRelease k) v).ctx x).vector :: (ks.foldl (fun s k => s.noteRelease k) v).vectors = _
    rw [same (fun t : State => t.ctx x) fun _ _ => rfl, same State.vectors fun _ _ => rfl, hctx, ← hv, ← hvectors]
    rfl
  · show (ks.foldl (fun s k => s.noteRelease k) v).ctxStat = _
    rw [same State.ctxStat fun _ _ => rfl, ← hv, ← hstat]
    rfl
  · show ((ks.foldl (fun s k => s.noteRelease k) v).launch l).st = .lost
    rw [same (fun t : State => t.launch l) fun _ _ => rfl, ← hv, State.modCtx_launch, State.launch, hlaunches,
      List.getD_eq_getElem?_getD, List.getElem?_map, List.getElem?_eq_getElem hl]
    have hg : s.launches[l] = s.launch l := by simp [State.launch, hl]
    simp only [hg, Option.map_some, Option.getD_some, Launch.lose, hx, hr, beq_self_eq_true, Bool.and_true, if_true]

/-! ### The L2 mode changes (R5, R59) -/

theorem fullFlush_emptied (s : State) : s.fullFlush.wb = [] ∧ s.fullFlush.stream = [] ∧ s.fullFlush.held = [] :=
  ⟨s.fullFlush_wb, rfl, rfl⟩

/-- Contexts of the mode that ends. -/
def State.otherMode (s : State) (target : Bool) : List Nat := (List.range s.ctxs.length).filter fun x => (s.ctx x).partitioned != target

theorem mem_otherMode {s : State} {target : Bool} {x : Nat} :
    x ∈ s.otherMode target ↔ x < s.ctxs.length ∧ (s.ctx x).partitioned ≠ target := by simp [State.otherMode]

/-- WHOLE_CONTEXT_SWITCH once no context of the other mode runs or is on its way. -/
theorem execWholeContextSwitch_flushes {s : State} {mode : Nat} (hm : mode ≤ 1) (ht : decide (mode = 1) ≠ s.partitioned)
    (hq : ∀ x < s.ctxs.length, (s.ctx x).partitioned ≠ decide (mode = 1) →
      (s.ctx x).st ≠ .running ∧ (s.ctx x).st ≠ .suspending ∧ (s.ctx x).st ≠ .resuming) :
    ∃ t, execWholeContextSwitch mode s = .next t ∧ t.partitioned = decide (mode = 1) ∧ t.wb = [] ∧ t.stream = [] ∧ t.held = [] := by
  have he : (mode == 1) = decide (mode = 1) := rfl
  have quiet : ∀ x ∈ s.otherMode (mode == 1), (s.ctx x).st ≠ .running ∧ (s.ctx x).st ≠ .suspending ∧ (s.ctx x).st ≠ .resuming :=
    fun x hx => hq x (mem_otherMode.mp hx).1 (mem_otherMode.mp hx).2
  have none_runs : (s.otherMode (mode == 1)).filter (fun x => (s.ctx x).st == .running) = [] :=
    List.filter_eq_nil_iff.mpr fun x hx => by simpa using (quiet x hx).1
  have none_moves : (s.otherMode (mode == 1)).any (fun x => (s.ctx x).st == .suspending || (s.ctx x).st == .resuming) = false :=
    List.any_eq_false.mpr fun x hx => by simpa using (quiet x hx).2
  unfold State.otherMode at none_runs none_moves
  obtain ⟨hwb, hstream, hheld⟩ := fullFlush_emptied s
  unfold execWholeContextSwitch
  dsimp only
  rw [if_neg (by rintro (h | h); exacts [absurd h (by omega), ht h]), none_runs, none_moves]
  exact ⟨_, rfl, rfl, hwb, hstream, hheld⟩

/-- WHOLE_CONTEXT_SWITCH pre-empts the contexts of the other mode first. -/
theorem execWholeContextSwitch_suspends {s : State} {mode : Nat} (hm : mode ≤ 1) (ht : decide (mode = 1) ≠ s.partitioned) {x : Nat}
    (hx : x < s.ctxs.length) (hp : (s.ctx x).partitioned ≠ decide (mode = 1)) (hr : (s.ctx x).st = .running) :
    ∃ t, execWholeContextSwitch mode s = .next t ∧ (t.ctx x).st = .suspending ∧ t.partitioned = s.partitioned := by
  have hl : x ∈ (s.otherMode (mode == 1)).filter fun x => (s.ctx x).st == .running :=
    List.mem_filter.mpr ⟨mem_otherMode.mpr ⟨hx, hp⟩, by simp [hr]⟩
  unfold State.otherMode at hl
  unfold execWholeContextSwitch
  dsimp only
  rw [if_neg (by rintro (h | h); exacts [absurd h (by omega), ht h]),
    if_pos (by simpa using List.ne_nil_of_mem hl)]
  refine ⟨_, rfl, ?_, foldl_same State.partitioned (fun (s : State) x => s.suspendCtx x true) _ (fun t x => t.suspendCtx_partitioned x true) s⟩
  refine (foldl_reaches (Q := fun t : State => x < t.ctxs.length) (P := fun t : State => x < t.ctxs.length ∧ (t.ctx x).st = .suspending)
    (fun (s : State) x => s.suspendCtx x true) hl (fun t y h => by rwa [t.suspendCtx_length]) (fun t y h => ?_)
    (fun t h => ⟨by rwa [t.suspendCtx_length], State.suspendCtx_st h true⟩) hx).2
  refine ⟨by rw [t.suspendCtx_length]; exact h.1, ?_⟩
  by_cases e : x = y
  · exact e ▸ State.suspendCtx_st (e ▸ h.1) true
  · rw [t.suspendCtx_other e]
    exact h.2

end Sys2Proof.Machine
end

section
/-!
The host answers page faults and service requests (R354, R367).
-/

namespace Sys2Proof.Machine

/-! ### Splits that a change names -/

/-- A change of one split leaves any split alone, or is its change. -/
theorem State.modSplit_split_cases (s : State) (c j : Nat) (f : Split → Split) (d k : Nat) :
    (s.modSplit c j f).split d k = s.split d k ∨ (d = c ∧ k = j ∧ (s.modSplit c j f).split d k = f (s.split d k)) := by
  by_cases hl : c < s.courses.length
  · by_cases hd : d = c
    · subst hd
      have hx : (s.modSplit d j f).split d k = ((s.course d).splits.modify j f).getD k default := by
        simp only [State.split, State.modSplit, State.modCourse_course s d d _ hl, if_true]
      rw [hx]
      by_cases hk : k = j
      · subst hk
        by_cases hi : k < (s.course d).splits.length
        · exact .inr ⟨rfl, rfl, (getD_modify _ k k f default fun _ => hi).trans (if_pos rfl)⟩
        · exact .inl (by rw [modify_absent _ _ _ (Nat.le_of_not_lt hi)]; rfl)
      · exact .inl (modify_getD_other _ f default hk)
    · exact .inl (by simp only [State.split, State.modSplit, State.modCourse_other s _ hd])
  · exact .inl (by rw [State.modSplit, State.modCourse_absent s _ hl])

theorem State.modSplit_split_other (s : State) {c d : Nat} (h : d ≠ c) (j : Nat) (f : Split → Split) (k : Nat) :
    (s.modSplit c j f).split d k = s.split d k :=
  (s.modSplit_split_cases c j f d k).resolve_right fun e => h e.1

/-- The split is there. -/
def State.hasSplit (s : State) (c k : Nat) : Prop := c < s.courses.length ∧ k < (s.course c).splits.length

theorem State.modSplit_split_self {s : State} {c k : Nat} (h : s.hasSplit c k) (f : Split → Split) :
    (s.modSplit c k f).split c k = f (s.split c k) := by
  simp only [State.split, State.modSplit, State.modCourse_course s c c _ h.1, if_true]
  exact (getD_modify _ k k f default fun _ => h.2).trans (if_pos rfl)

theorem State.modSplit_hasSplit {s : State} {c k : Nat} (h : s.hasSplit c k) (d j : Nat) (f : Split → Split) :
    (s.modSplit d j f).hasSplit c k := by
  refine ⟨by rw [State.modSplit, State.modCourse_length]; exact h.1, ?_⟩
  by_cases e : c = d
  · subst e
    rw [State.modSplit, State.modCourse_course s c c _ h.1, if_pos rfl]
    simpa using h.2
  · rw [State.modSplit, State.modCourse_other s _ e]
    exact h.2

/-- A split that waits for something is there. -/
theorem State.hasSplit_of_wait {s : State} {c k : Nat} (h : (s.split c k).wait ≠ .ready) : s.hasSplit c k := by
  refine ⟨?_, ?_⟩
  · by_contra hc
    refine h ?_
    simp only [State.split, State.course, List.getD_eq_getElem?_getD, List.getElem?_eq_none (Nat.le_of_not_lt hc)]
    rfl
  · by_contra hk
    refine h ?_
    simp only [State.split, List.getD_eq_getElem?_getD, List.getElem?_eq_none (Nat.le_of_not_lt hk)]
    rfl

/-! ### The answer to a page fault (R354) -/

/-- The record of a page fault that is waited for. -/
def Wait.faultRecord : Wait → Option Nat
  | .page _ _ _ _ _ _ record _ _ => record
  | _ => none

/-- A split whose fault is in record `r` walks again. -/
def State.retry (c r : Nat) (s : State) (e : Split × Nat) : State :=
  if e.1.wait.faultRecord = some r then s.modSplit c e.2 fun y => { y with wait := .ready } else s

theorem answerCourse_ok (s : State) (c r : Nat) :
    s.answerCourse c r false = (s.course c).splits.zipIdx.foldl (State.retry c r) s := by
  unfold State.answerCourse State.forSplits
  congr 1
  funext t e
  dsimp only
  unfold State.retry
  cases e.1.wait with
  | page va kind wr ex lane scale record since win =>
    cases record with
    | none => rfl
    | some i => by_cases h : i = r <;> simp [Wait.faultRecord, h]
  | _ => rfl

theorem State.retry_other (c r : Nat) (s : State) (e : Split × Nat) {d : Nat} (h : d ≠ c) (k : Nat) :
    (State.retry c r s e).split d k = s.split d k := by
  unfold State.retry
  split
  · exact s.modSplit_split_other h _ _ _
  · rfl

theorem State.retry_cases (c r : Nat) (s : State) (e : Split × Nat) (d k : Nat) :
    (State.retry c r s e).split d k = s.split d k ∨ (State.retry c r s e).split d k = { s.split d k with wait := .ready } := by
  unfold State.retry
  split
  · exact (s.modSplit_split_cases c e.2 (fun y => { y with wait := .ready }) d k).imp_right fun h => h.2.2
  · exact .inl rfl

theorem State.retry_hasSplit {c r : Nat} {s : State} (e : Split × Nat) {d k : Nat} (h : s.hasSplit d k) :
    (State.retry c r s e).hasSplit d k := by
  unfold State.retry
  split
  · exact State.modSplit_hasSplit h ..
  · exact h

/-- The split goes on from where it stood. -/
def State.goesOn (s : State) (c k : Nat) (pc : Word) : Prop := (s.split c k).wait = .ready ∧ (s.split c k).pc = pc

theorem State.retry_goesOn {c r : Nat} {s : State} (e : Split × Nat) {d k : Nat} {pc : Word} (h : s.goesOn d k pc) :
    (State.retry c r s e).goesOn d k pc := by
  unfold State.goesOn
  rcases s.retry_cases c r e d k with q | q <;> rw [q]
  · exact h
  · exact ⟨rfl, h.2⟩

/-- The answer to a course leaves the splits of others. -/
theorem answerCourse_other (s : State) (c r : Nat) {d : Nat} (h : d ≠ c) (k : Nat) :
    (s.answerCourse c r false).split d k = s.split d k := by
  rw [answerCourse_ok]
  refine foldl_same (fun t : State => t.split d k) _ _ ?_ s
  exact fun t e => t.retry_other c r e h k

theorem answerCourse_goesOn {s : State} (c r : Nat) {d k : Nat} {pc : Word} (h : s.goesOn d k pc) :
    (s.answerCourse c r false).goesOn d k pc := by
  rw [answerCourse_ok]
  exact foldl_keeps (P := fun t : State => t.goesOn d k pc) _ _ (fun t e ht => State.retry_goesOn e ht) s h

/-- A split of the course that waits for the record goes on. -/
theorem answerCourse_ends {s : State} {c r k : Nat} (h : (s.split c k).wait.faultRecord = some r) :
    (s.answerCourse c r false).goesOn c k (s.split c k).pc := by
  have there : s.hasSplit c k := State.hasSplit_of_wait fun e => by rw [e] at h; cases h
  have hm : (s.split c k, k) ∈ (s.course c).splits.zipIdx := by
    rw [List.mk_mem_zipIdx_iff_getElem?, List.getElem?_eq_getElem there.2]
    simp [State.split, there.2]
  rw [answerCourse_ok]
  refine foldl_reaches (Q := fun t : State => t.hasSplit c k ∧ (t.split c k).pc = (s.split c k).pc)
    (P := fun t : State => t.goesOn c k (s.split c k).pc) (State.retry c r) hm (fun t e ht => ⟨State.retry_hasSplit e ht.1, ?_⟩)
    (fun t e ht => State.retry_goesOn e ht) (fun t ht => ?_) ⟨there, rfl⟩
  · rcases t.retry_cases c r e c k with q | q <;> rw [q] <;> exact ht.2
  · unfold State.goesOn
    rw [State.retry, if_pos h, State.modSplit_split_self ht.1]
    exact ⟨rfl, ht.2⟩

theorem answerCourse_ctxs (s : State) (c r : Nat) : (s.answerCourse c r false).ctxs = s.ctxs := by
  rw [answerCourse_ok]
  refine foldl_same State.ctxs _ _ ?_ s
  intro t e
  unfold State.retry
  split <;> rfl

/-- Ejected lanes that take a good answer change nothing of courses and contexts. -/
theorem answerLanes_same (s : State) (x r : Nat) :
    (s.answerLanes x r false).courses = s.courses ∧ (s.answerLanes x r false).ctxs = s.ctxs := by
  have h : ∀ {β : Type} (g : State → β), (∀ t q f, g (State.modLane t q f) = g t) → g (s.answerLanes x r false) = g s := by
    intro β g hg
    refine foldl_same g _ _ ?_ s
    intro t q
    dsimp only
    split
    · simp only [Bool.false_eq_true, if_false]
      split
      · rfl
      · exact hg ..
    · rfl
  exact ⟨h State.courses fun _ _ _ => rfl, h State.ctxs fun _ _ _ => rfl⟩

/-- Nor do copies and engine operations. -/
theorem answerUnits_same (s : State) (x r fuel : Nat) :
    (s.answerUnits x r false fuel).courses = s.courses ∧ (s.answerUnits x r false fuel).ctxs = s.ctxs := by
  induction fuel generalizing s with
  | zero => exact ⟨rfl, rfl⟩
  | succ fuel ih =>
    unfold State.answerUnits
    split
    · exact ih _
    · exact ih _
    · exact ⟨rfl, rfl⟩

/-- PFRESP with STATUS 1: the record is no longer pending, and what waited for it walks again. -/
theorem execPfresp_ok {s : State} {n x i : Nat} {r : PfRec} (hp : s.ctxPlace n = some x)
    (hf : (s.ctx x).pfs.find? (fun r => r.index % 1024 == i % 1024) = some r) (hb : s.readByte 0 (s.pfSlot x r.index + 9) = 1) :
    ∃ t, execPfresp n i s = .next t ∧ r ∉ (t.ctx x).pfs ∧ ∀ c k, s.ctxOf c = x →
      (s.split c k).wait.faultRecord = some r.index → t.goesOn c k (s.split c k).pc := by
  generalize hs1 : s.modCtx x (fun y => { y with pfs := y.pfs.filter (· != r) }) = s1
  have hctx : r ∉ (s1.ctx x).pfs := by
    rw [← hs1, State.modCtx_ctx_self s (State.ctxPlace_lt hp)]
    simp
  generalize hcs : (List.range s.courses.length).filter (fun c => s.ctxOf c == x) = cs
  have e : execPfresp n i s = .next (((cs.foldl (fun s c => s.answerCourse c r.index false) s1).answerLanes x r.index false).answerUnits
      x r.index false (s.copies.length + s.ops.length)) := by
    have h1 : (1 : Byte).toNat = 1 := rfl
    simp only [execPfresp, hp, hf, hb, h1, ← hs1, ← hcs]
    rfl
  obtain ⟨uc, ux⟩ := answerUnits_same ((cs.foldl (fun s c => s.answerCourse c r.index false) s1).answerLanes x r.index false)
    x r.index (s.copies.length + s.ops.length)
  obtain ⟨lc, lx⟩ := answerLanes_same (cs.foldl (fun s c => s.answerCourse c r.index false) s1) x r.index
  have cx := foldl_same State.ctxs (fun (s : State) c => s.answerCourse c r.index false) cs (fun t c => answerCourse_ctxs t c _) s1
  refine ⟨_, e, ?_, fun c k hx hw => ?_⟩
  · rw [State.ctx, ux, lx, cx]
    exact hctx
  · have hm : c ∈ cs := by
      have := (State.hasSplit_of_wait (s := s) (c := c) (k := k) fun e => by rw [e] at hw; cases hw).1
      simp [← hcs, this, hx]
    have go : (cs.foldl (fun s c => s.answerCourse c r.index false) s1).goesOn c k (s.split c k).pc := by
      refine foldl_reaches
        (Q := fun t : State => t.split c k = s.split c k ∨ t.goesOn c k (s.split c k).pc)
        (P := fun t : State => t.goesOn c k (s.split c k).pc) (fun (s : State) c => s.answerCourse c r.index false) hm
        (fun t d ht => ?_) (fun t d ht => answerCourse_goesOn d _ ht) (fun t ht => ?_) (.inl (hs1 ▸ rfl))
      · rcases ht with same | go
        · by_cases hd : c = d
          · subst hd
            exact .inr (same ▸ answerCourse_ends (same ▸ hw))
          · exact .inl ((answerCourse_other t d _ hd k).trans same)
        · exact .inr (answerCourse_goesOn d _ go)
      · rcases ht with same | go
        · exact same ▸ answerCourse_ends (same ▸ hw)
        · exact answerCourse_goesOn c _ go
    simpa only [State.goesOn, State.split, State.course, uc, lc] using go

/-! ### A service request is done (R367) -/

/-- What a key reads as after writes of several keys, each once. -/
theorem get_foldl_mem [DecidableEq α] (d : α) (base : Nat) {l : List (Nat × α)} (h : (l.map (·.1)).Nodup) {k : Nat} {v : α}
    (hm : (k, v) ∈ l) (c : Cells α) : Cells.get d (l.foldl (fun c x => Cells.set d c (base + x.1) x.2) c) (base + k) = v := by
  induction l generalizing c with
  | nil => cases hm
  | cons e l ih =>
    rw [List.map_cons, List.nodup_cons] at h
    rcases List.mem_cons.mp hm with rfl | hm
    · rw [List.foldl_cons, Cells.get_foldl_set d l _ (fun x => base + x.1) (·.2) _ fun x hx => ?_, Cells.get_set_self]
      intro he
      exact h.1 (List.mem_map.mpr ⟨x, hx, by omega⟩)
    · exact ih h.2 hm _

theorem maskList_nodup (m : Mask) : (Mask.list m).Nodup := List.nodup_range.filter _

theorem State.modCourse_split (s : State) (c : Nat) (f : Course → Course) (h : ∀ y, (f y).splits = y.splits) (d k : Nat) :
    (s.modCourse c f).split d k = s.split d k := by
  by_cases hl : c < s.courses.length
  · simp only [State.split, State.modCourse_course s c d f hl]
    split
    · rename_i e
      rw [h, e]
    · rfl
  · rw [State.modCourse_absent s f hl]

@[simp] theorem State.modRegs_split (s : State) (f : Regs → Regs) (c k : Nat) : (s.modRegs f).split c k = s.split c k := by
  unfold State.modRegs
  split
  · rfl
  · refine s.modCourse_split _ _ ?_ c k
    exact fun _ => rfl
  · rfl

@[simp] theorem State.setV_split (s : State) (r : Nat) (vals : List (Nat × Lane32)) (c k : Nat) : (s.setV r vals).split c k = s.split c k := by
  simp only [State.setV]
  split
  · split
    · exact s.modRegs_split _ c k
    · refine (State.modCourse_split _ _ _ ?_ c k).trans (s.modRegs_split _ c k)
      exact fun _ => rfl
  · exact s.modRegs_split _ c k

@[simp] theorem State.setV_cur (s : State) (r : Nat) (vals : List (Nat × Lane32)) : (s.setV r vals).cur = s.cur := by
  have h : ∀ f, (s.modRegs f).cur = s.cur := fun f => by
    unfold State.modRegs
    split <;> rfl
  simp only [State.setV]
  split
  · split
    · exact h _
    · exact h _
  · exact h _

/-- v0 and v1 of several lanes take values, each lane once: what they hold then. -/
theorem State.setV_two {s : State} (h : s.hasAgent = true) {as bs : List (Nat × Lane32)} (ha : (as.map (·.1)).Nodup)
    (hb : (bs.map (·.1)).Nodup) {l : Nat} (hl : l < 96) {a b : Lane32} (ma : (l, a) ∈ as) (mb : (l, b) ∈ bs) :
    Cells.get 0 ((s.setV 0 as).setV 1 bs).regs.v l = a ∧ Cells.get 0 ((s.setV 0 as).setV 1 bs).regs.v (96 + l) = b := by
  obtain ⟨_, e0⟩ := State.setV_regs h 0 as
  obtain ⟨_, e1⟩ := State.setV_regs (s := s.setV 0 as) (by rw [State.setV_hasAgent, h]) 1 bs
  rw [e1, e0]
  refine ⟨?_, get_foldl_mem 0 (96 * 1) hb mb _⟩
  refine (Cells.get_foldl_set 0 bs _ (fun x => 96 * 1 + x.1) (·.2) l fun e _ => by omega).trans ?_
  have := get_foldl_mem 0 (96 * 0) ha ma s.regs.v
  rwa [Nat.mul_zero, Nat.zero_add] at this

/-- The results of a request: for each of its lanes, in order, what its slot holds. -/
theorem mem_svcResults {s : State} {x : Nat} {r : SvcReq} {j l : Nat} (h : (Mask.list r.lanes)[j]? = some l) :
    (l, (BitVec.ofNat 32 (leNat (s.readBytes 0 (s.svcSlot x (r.slot + 1 + j) + 32) 4)) : Lane32),
      (BitVec.ofNat 32 (leNat (s.readBytes 0 (s.svcSlot x (r.slot + 1 + j) + 36) 4)) : Lane32)) ∈ s.svcResults x r :=
  List.mem_map.mpr ⟨(l, j), List.mk_mem_zipIdx_iff_getElem?.mpr h, rfl⟩

theorem svcResults_lanes (s : State) (x : Nat) (r : SvcReq) : (s.svcResults x r).map (·.1) = Mask.list r.lanes := by
  simp only [State.svcResults, List.map_map]
  exact List.zipIdx_map_fst ..

/-- A request that is done writes its results, and its split goes on after the SVC. -/
theorem finishSvc_done {s : State} {x : Nat} {r : SvcReq} (hp : (s.course r.course).place ≠ .ended)
    (hw : (s.split r.course r.split).wait = .svc r.slot) :
    ((s.finishSvc x r true).split r.course r.split).wait = .ready
      ∧ ((s.finishSvc x r true).split r.course r.split).pc = (s.split r.course r.split).next
      ∧ ∀ l a b, (l, a, b) ∈ s.svcResults x r → Cells.get 0 ((s.finishSvc x r true).course r.course).regs.v l = a
        ∧ Cells.get 0 ((s.finishSvc x r true).course r.course).regs.v (96 + l) = b := by
  have there : s.hasSplit r.course r.split := State.hasSplit_of_wait fun e => by rw [e] at hw; cases hw
  generalize hvs : s.svcResults x r = vs
  have nodup : ∀ {β : Type} (f : Lane32 × Lane32 → β), ((vs.map fun e => (e.1, f e.2)).map (·.1)).Nodup := fun f => by
    rw [List.map_map, ← hvs]
    exact (svcResults_lanes s x r).symm ▸ maskList_nodup r.lanes
  have lanes : ∀ e ∈ vs, e.1 < 96 := fun e he =>
    maskList_lt (svcResults_lanes s x r ▸ hvs ▸ List.mem_map_of_mem he)
  generalize hw1 : ((({ s with cur := .course r.course r.split } : State).setV 0 (vs.map fun e => (e.1, e.2.1))).setV 1
    (vs.map fun e => (e.1, e.2.2))) = w
  have eq : s.finishSvc x r true = State.modSplit { w with cur := s.cur } r.course r.split fun y => { y with wait := .ready, pc := y.next } := by
    simp only [State.finishSvc, hp, hw, beq_self_eq_true, Bool.not_true, if_true, hvs]
    rw [← hw1]
    rfl
  have agent : ({ s with cur := .course r.course r.split } : State).hasAgent = true := by
    simp only [State.hasAgent, Bool.and_eq_true, decide_eq_true_eq]
    exact there
  have wcur : w.cur = .course r.course r.split := by rw [← hw1]; simp
  have wsplit : w.split r.course r.split = s.split r.course r.split := by rw [← hw1]; simp; rfl
  have wthere : State.hasSplit { w with cur := s.cur } r.course r.split :=
    State.hasAgent_course (s := w) (by rw [← hw1]; simpa using agent) wcur
  have wregs : w.regs = (w.course r.course).regs := by simp only [State.regs, wcur]
  rw [eq, State.modSplit_split_self wthere]
  refine ⟨rfl, congrArg Split.next wsplit, fun l a b hm => ?_⟩
  have hregs : ((State.modSplit { w with cur := s.cur } r.course r.split fun y => { y with wait := .ready, pc := y.next }).course
      r.course).regs = w.regs := by
    rw [State.modSplit, State.modCourse_course _ _ _ _ wthere.1, if_pos rfl, wregs]
    rfl
  rw [hregs, ← hw1]
  exact State.setV_two agent (nodup Prod.fst) (nodup Prod.snd) (lanes _ hm) (List.mem_map.mpr ⟨_, hm, rfl⟩) (List.mem_map.mpr ⟨_, hm, rfl⟩)

theorem State.modCtx_saveBase (s : State) (x : Nat) (f : Ctx → Ctx) (h : ∀ c, (f c).ranges = c.ranges) (y : Nat) :
    (s.modCtx x f).saveBase y = s.saveBase y := by
  have : ((s.modCtx x f).ctx y).ranges = (s.ctx y).ranges := by
    by_cases e : y = x
    · exact e ▸ modify_getD_map s.ctxs x f default Ctx.ranges h
    · rw [s.modCtx_ctx_other e]
  simp only [State.saveBase, this]

/-- SVCDONE with STATUS 1: the results of every lane, in order, and the split goes on. -/
theorem execSvcdone_done {s : State} {n x : Nat} {r : SvcReq} (hp : s.ctxPlace n = some x)
    (hf : (s.ctx x).svcs.find? (fun y => y.slot == r.slot) = some r) (hc : (s.course r.course).place ≠ .ended)
    (hw : (s.split r.course r.split).wait = .svc r.slot) (hb : s.readByte 0 (s.svcSlot x r.slot + 28) = 1) :
    ∃ t, execSvcdone n r.slot s = .next t ∧ (t.split r.course r.split).wait = .ready
      ∧ (t.split r.course r.split).pc = (s.split r.course r.split).next
      ∧ ∀ j l, (Mask.list r.lanes)[j]? = some l →
        Cells.get 0 (t.course r.course).regs.v l = BitVec.ofNat 32 (leNat (s.readBytes 0 (s.svcSlot x (r.slot + 1 + j) + 32) 4))
        ∧ Cells.get 0 (t.course r.course).regs.v (96 + l) = BitVec.ofNat 32 (leNat (s.readBytes 0 (s.svcSlot x (r.slot + 1 + j) + 36) 4)) := by
  generalize hu : s.modCtx x (fun y => { y with svcs := y.svcs.filter (· != r) }) = u
  have e : execSvcdone n r.slot s = .next (u.finishSvc x r true) := by
    have h1 : (1 : Byte).toNat = 1 := rfl
    simp only [execSvcdone, hp, hf, hb, h1, ← hu]
    rfl
  have slots : ∀ m, u.svcSlot x m = s.svcSlot x m := fun m => by
    rw [State.svcSlot, State.svcSlot, ← hu, State.modCtx_saveBase s x _ (by exact fun _ => rfl)]
  have reads : ∀ pa k, u.readBytes 0 pa k = s.readBytes 0 pa k := fun pa k => by rw [← hu]; rfl
  obtain ⟨hwait, hpc, hregs⟩ := finishSvc_done (s := u) (x := x) (r := r) (by rw [← hu]; exact hc) (by rw [← hu]; exact hw)
  refine ⟨_, e, hwait, by rw [hpc, ← hu]; rfl, fun j l hj => ?_⟩
  have := hregs l _ _ (mem_svcResults hj)
  rwa [slots, reads, reads] at this

end Sys2Proof.Machine
end

section
/-!
The statement of the host port's events, from what each of them does.
-/

namespace Sys2Proof.Machine

/-- Settles O53: each event's clause from the lemma about its function; the lines that caches give up (HOST_SNOOP,
WHOLE_CONTEXT_SWITCH) and what the device stores into a save area are in memory by the laws of written-back lines. -/
theorem hostEvents : Obligations.HostEvents := by
  unfold Obligations.HostEvents
  intro s hwf
  have h := (memoryWf_iff s).mp hwf
  refine ⟨fun v q hq => ⟨_, _, execRegisterWrite_queue s (off := 0) v hq (by decide), execRegisterWrite_queue s v hq (by decide),
      writeQueueReg_base s q v, writeQueueReg_repair s q v⟩,
    fun v => ⟨rfl, rfl⟩, fun v w hw he => ⟨_, execRegisterWrite_window s v hw, writeWindowReg_base v he⟩,
    fun v k hk he => ⟨_, execRegisterWrite_channel s v hk, writeChannelReg_send v he⟩,
    fun v hv hd => ?tlbInvalidate, fun ctx all va hj => ?tlbRemove, fun time marks hj => ?tlbDone,
    fun n hb hp w hc hm hr => execContextCreate_new h hb hp hc hm hr, fun n x hp => ?contexts,
    fun mode hm ht => ⟨fun hq => execWholeContextSwitch_flushes hm ht hq,
      fun x hx hx' hr => execWholeContextSwitch_suspends hm ht hx hx' hr⟩,
    fun line stores hl hs => ⟨_, if_pos hl, takenBack_host h hs hl stores⟩⟩
  case tlbInvalidate =>
    refine ⟨_, execTlbInvalidate_start hv hd, ?_, rfl, rfl⟩
    simp
  case tlbRemove =>
    obtain ⟨job, e⟩ := tlbRemove_eq hj
    refine ⟨_, (perform_tlbRemove s).trans (congrArg _ e), List.filter_sublist, fun w hw => mem_filter_unmapped hw, rfl⟩
  case tlbDone =>
    have iff := tlbSettled_iff hj
    refine ⟨fun hwait => ?_, fun hwait => ⟨{ s with tlbCtl := s.tlbCtl ||| 2, tlbJob := none }, ?_, by simp, rfl⟩⟩
    · exact (execTlbInvalidateDone_eq s).trans (congrArg _ (if_neg fun k => iff.mp k hwait))
    · exact (execTlbInvalidateDone_eq s).trans (congrArg _ (if_pos (iff.mpr hwait)))
  case contexts =>
    refine ⟨fun hb => execContextCreate_taken hb hp, fun hb hr => execContextSuspend_running hp hb hr, fun hd => ?_, fun hd => ?_,
      fun hb hr => execContextResume_suspended hp hb hr, fun u hr hd => execContextResume_room hp hr hd,
      fun hb hw => execContextDestroy_idle hp hb hw, fun w hb hl hw hc => execContextScb_idle hp hb hl hw hc,
      fun hd => execContextLost_due hp hd, fun i r hf hb => ?_, fun r hf hc hw => ?_,
      fun ring v hr host hs => execSaveAreaTailAdvance_tail h hs hp hr host v⟩
    · obtain ⟨t, e, hst, hblocks, -⟩ := execSuspendComplete_due hp hd
      exact ⟨t, e, hst, hblocks⟩
    · obtain ⟨t, e, -, -, hops⟩ := execSuspendComplete_due hp hd
      exact ⟨t, e, hops⟩
    · obtain ⟨t, e, hgone, hgo⟩ := execPfresp_ok hp hf hb
      exact ⟨t, e, hgone, fun c k va kind wr ex l sc since win hx hw => hgo c k hx (by rw [hw]; rfl)⟩
    · intro slot hb
      obtain ⟨t, e, hwait, hpc, hregs⟩ := execSvcdone_done hp hf hc hw hb
      refine ⟨t, e, hwait, hpc, fun j l hj => ?_⟩
      have := hregs j l hj
      rwa [Nat.add_assoc r.slot 1 j] at this

end Sys2Proof.Machine
end

section
/-!
SUPPORT. Laws of the numbers that bytes make, and of their extension into a word.
-/

namespace Sys2Proof.Machine

/-- Bit `i` of the number that bytes make is bit `i % 8` of byte `i / 8`. -/
theorem leNat_testBit (bs : List Byte) (i : Nat) : (leNat bs).testBit i = (bs.getD (i / 8) 0).getLsbD (i % 8) := by
  induction bs generalizing i with
  | nil => simp [leNat]
  | cons b bs ih =>
    rw [leNat, Nat.add_comm, show 256 * leNat bs = 2 ^ 8 * leNat bs from rfl, Nat.testBit_two_pow_mul_add _ b.isLt]
    by_cases h : i < 8
    · rw [if_pos h, Nat.div_eq_of_lt h, Nat.mod_eq_of_lt h]
      rfl
    · rw [if_neg h, ih, show i / 8 = (i - 8) / 8 + 1 by omega, List.getD_cons_succ, show i % 8 = (i - 8) % 8 by omega]

theorem leNat_lt (bs : List Byte) : leNat bs < 2 ^ (8 * bs.length) := by
  induction bs with
  | nil => simp [leNat]
  | cons b bs ih =>
    have hb := b.isLt
    rw [leNat, List.length_cons, show 8 * (bs.length + 1) = 8 + 8 * bs.length by omega, Nat.pow_add]
    omega

/-- A number of 64 bits that is stored in 8 bytes is the number that they make. -/
theorem ofNat_leNat_natLe (v : Word) : BitVec.ofNat 64 (leNat (natLe 8 v.toNat)) = v := by
  rw [leNat_natLe, Nat.mod_eq_of_lt (show v.toNat < 256 ^ 8 from v.isLt), BitVec.ofNat_toNat, BitVec.setWidth_eq]

/-- What a scalar load makes of the bytes that it reads (R150, R239). -/
def extended (t : ElemTy) (bs : List Byte) : Word :=
  BitVec.ofNat 64 (if signedTy t then wrapInt 64 (intOf true (8 * bs.length) (leNat bs)) else leNat bs)

/-- A signed load extends the number by its sign. -/
theorem extended_signed {t : ElemTy} (ht : signedTy t = true) {bs : List Byte} (hb : bs ≠ []) :
    extended t bs = (BitVec.ofNat (8 * bs.length) (leNat bs)).signExtend 64 := by
  have hpos := List.length_pos_iff.mpr hb
  have e := intOf_toNat_true (by omega) (BitVec.ofNat (8 * bs.length) (leNat bs))
  rw [BitVec.toNat_ofNat, Nat.mod_eq_of_lt (leNat_lt bs)] at e
  rw [extended, if_pos ht, e, wrapInt_eq, BitVec.ofNat_toNat, BitVec.setWidth_eq]
  rfl

/-- The bytes of a loaded word: those that were read, and beyond them copies of the sign, or zeros. -/
theorem extended_byte (t : ElemTy) {bs : List Byte} (hb : bs ≠ []) {j : Nat} (hj : j < 8) :
    (extended t bs).extractLsb' (8 * j) 8 = extByte bs (signedTy t) j := by
  have hpos := List.length_pos_iff.mpr hb
  apply BitVec.eq_of_getLsbD_eq
  intro i hi
  have hbit : bs.getD ((8 * j + i) / 8) 0 = bs.getD j 0 := by rw [show (8 * j + i) / 8 = j by omega]
  have hmod : (8 * j + i) % 8 = i := by omega
  have h64 : 8 * j + i < 64 := by omega
  simp only [BitVec.getLsbD_extractLsb', hi, decide_true, Bool.true_and, extByte]
  cases ht : signedTy t with
  | false =>
    simp only [extended, ht, Bool.false_eq_true, if_false, BitVec.getLsbD_ofNat, h64, decide_true, Bool.true_and, leNat_testBit, hbit, hmod,
      Bool.false_and]
    split
    · rfl
    · rw [List.getD_eq_default _ _ (by omega)]
  | true =>
    rw [extended_signed ht hb, BitVec.getLsbD_signExtend]
    simp only [h64, decide_true, Bool.true_and, BitVec.getLsbD_ofNat, leNat_testBit, hbit, hmod]
    by_cases h : j < bs.length
    · rw [if_pos (by omega), if_pos h]
      simp [show 8 * j + i < 8 * bs.length by omega]
    · rw [if_neg (by omega), if_neg h]
      have hl : bs.getLastD 0 = bs.getD (bs.length - 1) 0 := by
        rw [List.getLastD_eq_getLast?, List.getLast?_eq_getElem?, List.getD_eq_getElem?_getD]
      have hm : (BitVec.ofNat (8 * bs.length) (leNat bs)).msb = (bs.getLastD 0).msb := by
        rw [hl, BitVec.msb_eq_getLsbD_last, BitVec.msb_eq_getLsbD_last, BitVec.getLsbD_ofNat, leNat_testBit,
          show (8 * bs.length - 1) / 8 = bs.length - 1 by omega, show (8 * bs.length - 1) % 8 = 7 by omega]
        simp [show 8 * bs.length - 1 < 8 * bs.length by omega]
      rw [hm]
      cases (bs.getLastD 0).msb
      · simp
      · simp only [if_true]
        interval_cases i <;> rfl

end Sys2Proof.Machine
end

section
/-!
SUPPORT. Laws of an agent's view of time: what an acquire leaves.
-/

namespace Sys2Proof.Machine

section
variable (s : State) (f : Sight → Sight)

@[simp] theorem State.modSight_cur : (s.modSight f).cur = s.cur := by unfold State.modSight; split <;> rfl
@[simp] theorem State.modSight_rest : (s.modSight f).rest = s.rest := by unfold State.modSight; split <;> rfl
@[simp] theorem State.modSight_readByte (pol pa) : (s.modSight f).readByte pol pa = s.readByte pol pa := by
  unfold State.modSight; split <;> rfl
@[simp] theorem State.modSight_hasAgent : (s.modSight f).hasAgent = s.hasAgent := by
  unfold State.modSight
  split
  · rfl
  · exact s.modCourse_hasAgent _ _ rfl
  · exact s.modLane_hasAgent _ _

@[simp] theorem State.modSight_split (c k) : (s.modSight f).split c k = s.split c k := by
  unfold State.modSight
  split
  · rfl
  · refine s.modCourse_split _ _ ?_ c k
    exact fun _ => rfl
  · rfl

/-- Of an ejected lane only what it has seen changes. -/
theorem State.modSight_lane_eq (q : Nat) : ∃ v, (s.modSight f).lane q = { s.lane q with sight := v } := by
  unfold State.modSight
  split
  · exact ⟨_, rfl⟩
  · exact ⟨_, rfl⟩
  · rename_i r hc
    by_cases hr : r < s.lanes.length
    · rw [State.modLane_lane s r q _ hr]
      split
      · rename_i e
        exact ⟨_, by rw [e]⟩
      · exact ⟨_, rfl⟩
    · rw [State.modLane_absent s _ hr]
      exact ⟨_, rfl⟩

@[simp] theorem State.modSight_regs : (s.modSight f).regs = s.regs := by
  cases hc : s.cur with
  | none => simp [State.modSight, hc]
  | course c k =>
    simp only [State.modSight, hc]
    exact s.modCourse_regs _ _ fun _ => rfl
  | lane q =>
    obtain ⟨v, e⟩ := s.modSight_lane_eq f q
    simp only [State.regs, State.modSight_cur, hc, e]

@[simp] theorem State.modSight_active : (s.modSight f).active = s.active := by
  cases hc : s.cur with
  | none => simp [State.active, hc]
  | course c k => simp only [State.active, State.modSight_cur, hc, State.modSight_split]
  | lane q =>
    obtain ⟨v, e⟩ := s.modSight_lane_eq f q
    simp only [State.active, State.modSight_cur, hc, e]

@[simp] theorem State.modSight_wait : (s.modSight f).wait = s.wait := by
  cases hc : s.cur with
  | none => simp [State.wait, hc]
  | course c k => simp only [State.wait, State.modSight_cur, hc, State.modSight_split]
  | lane q =>
    obtain ⟨v, e⟩ := s.modSight_lane_eq f q
    simp only [State.wait, State.modSight_cur, hc, e]

@[simp] theorem State.modSight_pc : (s.modSight f).pc = s.pc := by
  cases hc : s.cur with
  | none => simp [State.pc, hc]
  | course c k => simp only [State.pc, State.modSight_cur, hc, State.modSight_split]
  | lane q =>
    obtain ⟨v, e⟩ := s.modSight_lane_eq f q
    simp only [State.pc, State.modSight_cur, hc, e]

@[simp] theorem State.modSight_sreg (n) : (s.modSight f).sreg n = s.sreg n := by simp [State.sreg]

end

/-- The same change of what the agent has seen, before and after. -/
theorem Frame.modSight {w : Touch} {s t : State} (h : Frame w s t) (hs : s.hasAgent = true) (ht : t.hasAgent = true)
    (f : Sight → Sight) : Frame w (s.modSight f) (t.modSight f) where
  rest := by simpa using h.rest
  mem pol pa := by simpa using h.mem pol pa
  courses c hc := by
    rw [State.modSight_cur] at hc
    have e := h.courses c hc
    cases hx : s.cur with
    | none => simpa [State.modSight, h.cur, hx] using e
    | course d k =>
      have : d ≠ c := fun ed => hc k (ed ▸ hx)
      simpa [State.modSight, h.cur, hx, this] using e
    | lane q => simpa [State.modSight, h.cur, hx] using e
  lanes q hq := by
    rw [State.modSight_cur] at hq
    have e := h.lanes q hq
    cases hx : s.cur with
    | none => simpa [State.modSight, h.cur, hx] using e
    | course d k => simpa [State.modSight, h.cur, hx] using e
    | lane r =>
      have : r ≠ q := fun er => hq (er ▸ hx)
      simpa [State.modSight, h.cur, hx, this] using e
  course d := by
    cases hx : s.cur with
    | none => simpa [State.modSight, h.cur, hx] using h.course d
    | course c k =>
      have e := h.course d
      have hc : t.cur = .course c k := h.cur.trans hx
      simp only [State.modSight, hc, hx, State.modCourse_course _ _ _ _ (State.hasAgent_course hs hx).1,
        State.modCourse_course _ _ _ _ (State.hasAgent_course ht hc).1]
      split
      · rename_i ed
        subst ed
        have es : (t.course d).sight = (s.course d).sight := (congrArg Course.sight e :)
        simpa [Course.rest, es] using e
      · exact e
    | lane q => simpa [State.modSight, h.cur, hx] using h.course d
  lane r := by
    cases hx : s.cur with
    | none => simpa [State.modSight, h.cur, hx] using h.lane r
    | course c k => simpa [State.modSight, h.cur, hx] using h.lane r
    | lane q =>
      have e := h.lane r
      have hc : t.cur = .lane q := h.cur.trans hx
      simp only [State.modSight, hc, hx, State.modLane_lane _ _ _ _ (State.hasAgent_lane hs hx),
        State.modLane_lane _ _ _ _ (State.hasAgent_lane ht hc)]
      split
      · rename_i er
        subst er
        have es : (t.lane r).sight = (s.lane r).sight := (congrArg Lane.sight e :)
        simpa [Lane.rest, es] using e
      · exact e
  splits c k j hc hj := by simpa using h.splits c k j (by simpa using hc) hj
  members c k := by simpa using h.members c k
  active hn := by simpa using h.active hn
  vregs r hr l hl := by simpa [State.vreg] using h.vregs r hr l hl
  sregs n hn hk := by simpa using h.sregs n hn hk
  pregs n hn := by simpa [State.preg] using h.pregs n hn
  gregs n hn := by simpa [State.greg] using h.gregs n hn
  flags hf := by simpa using h.flags hf
  latches hf := by simpa using h.latches hf
  special := by simpa using h.special

@[simp] theorem State.acquire_pc (s : State) (scope) : (s.acquire scope).pc = s.pc := s.modSight_pc _
@[simp] theorem State.acquire_wait (s : State) (scope) : (s.acquire scope).wait = s.wait := s.modSight_wait _
@[simp] theorem State.acquire_active (s : State) (scope) : (s.acquire scope).active = s.active := s.modSight_active _
@[simp] theorem State.acquire_sreg (s : State) (scope n) : (s.acquire scope).sreg n = s.sreg n := s.modSight_sreg _ n
@[simp] theorem State.acquire_hasAgent (s : State) (scope) : (s.acquire scope).hasAgent = s.hasAgent := s.modSight_hasAgent _

/-- The same acquire, before and after. -/
theorem Frame.acquire {w : Touch} {s t : State} (h : Frame w s t) (hs : s.hasAgent = true) (ht : t.hasAgent = true) (scope : Nat) :
    Frame w (s.acquire scope) (t.acquire scope) := by
  have e : t.tick = s.tick := (congrArg State.tick h.rest :)
  simp only [State.acquire, e]
  exact h.modSight hs ht _

/-- What a write of a scalar leaves is there after an acquire. -/
theorem WroteS.acquire {s u : State} {d : Nat} {v : Word} (h : WroteS s u d v) (scope : Nat) : WroteS s (u.acquire scope) d v := by
  obtain ⟨zero, plain, split, ejected⟩ := h
  exact ⟨by simpa using zero, by simpa using plain, by simpa using split, by simpa using ejected⟩

/-- Work that changes the registers `w` alone, an acquire, and a move of the PC. -/
theorem goes_of_acquire {i : Instr} {s u : State} {w : Touch} (h : s.hasAgent = true) (hf : Frame w (s.entering i) u)
    (ha : u.hasAgent = (s.entering i).hasAgent) (hw : u.wait = (s.entering i).wait) (scope : Nat) (pc : Word) :
    Goes pc w (s.acquire scope) ((u.acquire scope).setPc pc) := by
  have hu : u.hasAgent = true := by rw [ha, s.entering_hasAgent, h]
  refine ⟨State.setPc_pc (by simpa using hu) _, ?_, ?_⟩
  · rw [State.setPc_wait, State.acquire_wait, hw, State.entering_wait h]
  · have f := (((s.entering_frame i).trans hf).acquire h hu scope).trans ((u.acquire scope).setPc_frame {} pc)
    exact f.mono (by simp [Touch.join]) (by simp [Touch.join]) (by simp [Touch.join]) (by simp [Touch.join])
      (by simp [Touch.join]) (by simp [Touch.join])

end Sys2Proof.Machine
end

section
/-!
SUPPORT. Laws of device registers: which doorbell page an address lies in, and what a load or a store of one does (R40, R54).
-/

namespace Sys2Proof.Machine

/-! ### Doorbell pages -/

theorem State.doorbell_queue (s : State) {pa q : Nat} (hq : q < 4096) (h : pa / 0x10000 = 0x7000100000000 / 0x10000 + q) :
    s.doorbell pa = some (true, q, (s.queue q).ctl, (s.queue q).kick) := by
  simp only [State.doorbell]
  rw [if_pos (by omega), show pa / 0x10000 - 0x700010000 = q by omega]

theorem State.doorbell_channel (s : State) {pa h : Nat} (hh : h < 192) (hp : pa / 0x10000 = 0x7000200000000 / 0x10000 + h) :
    s.doorbell pa = some (false, h, (s.channel h).ctl, (s.channel h).kick) := by
  simp only [State.doorbell]
  rw [if_neg (by omega), if_pos (by omega), show pa / 0x10000 - 0x700020000 = h by omega]

/-- No doorbell page lies in the pooled tier (R214). -/
theorem not_isPool_of_doorbell {s : State} {pa : Nat} {b : Bool × Nat × Word × Word} (h : s.doorbell pa = some b) :
    isPool pa = false := by
  simp only [isPool, decide_eq_false_iff_not]
  intro hp
  simp only [State.doorbell] at h
  rw [if_neg (by omega), if_neg (by omega)] at h
  cases h

/-- Whether an address lies in a doorbell page, no state decides. -/
theorem State.doorbell_none {s t : State} {pa : Nat} (h : s.doorbell pa = none) : t.doorbell pa = none := by
  simp only [State.doorbell] at h ⊢
  split at h
  · cases h
  · split at h
    · cases h
    · rw [if_neg ‹_›, if_neg ‹_›]

/-- The bytes that a load finds at a doorbell page (R54). -/
def bellBytes (ctl kick : Word) (at' n : Nat) : List Byte :=
  (List.range n).map fun i => if ctl.getLsbD 9 = true ∧ at' + i < 8 then kick.extractLsb' (8 * (at' + i)) 8 else 0

@[simp] theorem length_bellBytes (ctl kick at' n) : (bellBytes ctl kick at' n).length = n := by simp [bellBytes]

/-- Byte `i` of a number that is laid out in bytes. -/
theorem natLe_getD (n : Nat) (v : Word) {i : Nat} (h : i < n) : (natLe n v.toNat).getD i 0 = v.extractLsb' (8 * i) 8 := by
  have bytes : ∀ (n v i : Nat), i < n → (natLe n v).getD i 0 = BitVec.ofNat 8 (v >>> (8 * i)) := by
    intro n
    induction n with
    | zero => exact fun _ _ h => absurd h (Nat.not_lt_zero _)
    | succ n ih =>
      intro v i hi
      cases i with
      | zero => rfl
      | succ i =>
        rw [natLe, List.getD_cons_succ, ih _ _ (by omega), show 8 * (i + 1) = 8 + 8 * i by omega, Nat.shiftRight_add,
          Nat.shiftRight_eq_div_pow v 8]
  rw [bytes n v.toNat i h]
  rfl

theorem State.ioRead_bell {s : State} {pa : Nat} {isQ : Bool} {k : Nat} {ctl kick : Word} (h : s.doorbell pa = some (isQ, k, ctl, kick))
    (n : Nat) : s.ioRead pa n = .ok (bellBytes ctl kick (pa % 0x10000) n) := by
  simp only [State.ioRead, h, bellBytes]
  congr 1
  refine List.map_congr_left fun i _ => ?_
  simp only [Bool.and_eq_true, decide_eq_true_eq]
  split
  · exact natLe_getD 8 kick (And.right ‹_›)
  · rfl

/-- The owner's store at the start of a doorbell page kicks the queue or the channel (R40, R407). -/
def State.kickBell (s : State) (isQ : Bool) (k : Nat) (v : Word) : State := if isQ then s.kickQueue k v else s.kickChannel k v

theorem State.ioWrite_bell {s : State} {pa : Nat} {isQ : Bool} {k : Nat} {ctl kick : Word} (h : s.doorbell pa = some (isQ, k, ctl, kick))
    {num : Nat} (bs : List Byte) :
    s.ioWrite num pa bs = .ok (if bs.length = 8 ∧ pa % 0x10000 = 0 ∧ ctl.getLsbD 9 = true ∧ ctl.toNat / 2 ^ 32 = num
      then s.kickBell isQ k (BitVec.ofNat 64 (leNat bs)) else s) := by
  have hf : fld ctl 32 32 = ctl.toNat / 2 ^ 32 := by
    have := ctl.isLt
    exact Nat.mod_eq_of_lt (by omega)
  simp only [State.ioWrite, h, hf, Bool.and_eq_true, beq_iff_eq, and_assoc, State.kickBell]
  split
  · rfl
  · rfl

/-! ### A kick leaves the agents alone -/

/-- The state with other courses and lanes. -/
def State.withAgents (s : State) (cs : List Course) (ls : List Lane) : State := { s with courses := cs, lanes := ls }

/-- From `s` to `t` no course and no lane changed, nor which of them executes. -/
structure SameAgents (s t : State) : Prop where
  cur : t.cur = s.cur
  courses : t.courses = s.courses
  lanes : t.lanes = s.lanes

/-- A move of the PC changes the agents alone, and changes the same agents alike. -/
theorem State.setPc_withAgents (s : State) (p : Word) : ∃ cs ls, ∀ t, SameAgents s t → t.setPc p = t.withAgents cs ls := by
  cases hc : s.cur with
  | none =>
    refine ⟨s.courses, s.lanes, ?_⟩
    rintro t ⟨h1, h2, h3⟩
    simp only [State.setPc, h1.trans hc, ← h2, ← h3]
    rfl
  | course c k =>
    refine ⟨(s.setPc p).courses, s.lanes, ?_⟩
    rintro t ⟨h1, h2, h3⟩
    simp only [State.setPc, hc, h1.trans hc, State.withAgents, State.modSplit, State.modCourse, ← h2, ← h3]
  | lane q =>
    refine ⟨s.courses, (s.setPc p).lanes, ?_⟩
    rintro t ⟨h1, h2, h3⟩
    simp only [State.setPc, hc, h1.trans hc, State.withAgents, State.modLane, ← h2, ← h3]

theorem State.tellState_withAgents (s : State) (h : Nat) (cs ls) : (s.withAgents cs ls).tellState h = (s.tellState h).withAgents cs ls := by
  simp only [State.tellState]
  rw [apply_ite (fun t : State => t.withAgents cs ls)]
  rfl

theorem State.channelFail_withAgents (s : State) (h : Nat) (cs ls) :
    (s.withAgents cs ls).channelFail h = (s.channelFail h).withAgents cs ls := by
  simp only [State.channelFail]
  rw [apply_ite (fun t : State => t.withAgents cs ls), ← State.tellState_withAgents]
  rfl

/-- A kick does the same whatever the agents are, and leaves them as they are. -/
theorem State.kickBell_withAgents (s : State) (isQ : Bool) (k : Nat) (v : Word) (cs ls) :
    (s.withAgents cs ls).kickBell isQ k v = (s.kickBell isQ k v).withAgents cs ls := by
  cases isQ with
  | true => rfl
  | false =>
    simp only [State.kickBell, Bool.false_eq_true, if_false, State.kickChannel]
    rw [apply_ite (fun t : State => t.withAgents cs ls), apply_ite (fun t : State => t.withAgents cs ls),
      ← State.channelFail_withAgents]
    rfl

theorem State.channelFail_cur (s : State) (h : Nat) : (s.channelFail h).cur = s.cur := by
  unfold State.channelFail
  split
  · rfl
  · unfold State.tellState
    dsimp only
    split <;> rfl

theorem State.kickBell_sameAgents (s : State) (isQ : Bool) (k : Nat) (v : Word) : SameAgents s (s.kickBell isQ k v) := by
  have same := s.kickBell_withAgents isQ k v s.courses s.lanes
  refine ⟨?_, (congrArg State.courses same :), (congrArg State.lanes same :)⟩
  cases isQ with
  | true => rfl
  | false =>
    simp only [State.kickBell, Bool.false_eq_true, if_false, State.kickChannel]
    split
    · rfl
    · split
      · exact s.channelFail_cur k
      · rfl

/-- The PC moves alike before and after a kick. -/
theorem State.kickBell_setPc (s : State) (isQ : Bool) (k : Nat) (v p : Word) :
    (s.kickBell isQ k v).setPc p = (s.setPc p).kickBell isQ k v := by
  obtain ⟨cs, ls, e⟩ := s.setPc_withAgents p
  rw [e s ⟨rfl, rfl, rfl⟩, e _ (s.kickBell_sameAgents isQ k v), State.kickBell_withAgents]

/-! ### Loads and stores of device registers -/

/-- A scalar load of a doorbell page writes what the page answers, and nothing is in flight. -/
theorem scalarLoad_bell {s : State} {a : Word} {f : Leaf} {n : Nat} (hf : f.pol = 3)
    (found : s.checkAcc .gen 127 a { n := n } = .ok (⟨127, a, .phys f, 127⟩, s)) {isQ : Bool} {k : Nat} {ctl kick : Word}
    (bell : s.doorbell f.pa = some (isQ, k, ctl, kick)) (hint : Nat) (t : ElemTy) (d : Nat) :
    s.scalarLoad .gen hint a n t d = .ok (s.setS d (extended t (bellBytes ctl kick (f.pa % 0x10000) n))) := by
  have stays : s.inFlight (.phys f) = false := by simp [State.inFlight, not_isPool_of_doorbell bell]
  have reads : s.readLoc hint (.phys f) n = .ok (bellBytes ctl kick (f.pa % 0x10000) n, s) := by
    simp only [State.readLoc, hf, if_true, State.ioRead_bell bell]
    rfl
  simp only [State.scalarLoad, found, bind, Except.bind, reads, stays, Bool.false_eq_true, if_false, extended, length_bellBytes]

/-- A scalar load of another device register stops. -/
theorem scalarLoad_stop {s : State} {a : Word} {f : Leaf} {n : Nat} (hf : f.pol = 3)
    (found : s.checkAcc .gen 127 a { n := n } = .ok (⟨127, a, .phys f, 127⟩, s)) (none : s.doorbell f.pa = none) (hint : Nat)
    (t : ElemTy) (d : Nat) : s.scalarLoad .gen hint a n t d = .error (.stop (.deviceRegister f.pa)) := by
  simp only [State.scalarLoad, found, bind, Except.bind, State.readLoc, hf, if_true, State.ioRead, none]
  rfl

/-- A store at a doorbell page: a device register owes nothing to the pool. -/
theorem storeAll_bell {s : State} {x : Acc} {f : Leaf} (hx : x.loc = .phys f) (hf : f.pol = 3) {isQ : Bool} {k : Nat} {ctl kick : Word}
    (bell : s.doorbell f.pa = some (isQ, k, ctl, kick)) (hint : Nat) (bs : List Byte) :
    s.storeAll hint [(x, bs)] = .ok (if bs.length = 8 ∧ f.pa % 0x10000 = 0 ∧ ctl.getLsbD 9 = true
        ∧ ctl.toNat / 2 ^ 32 = (s.ctx (s.ctxOf s.curCourse)).num
      then s.kickBell isQ k (BitVec.ofNat 64 (leNat bs)) else s) := by
  have lands : ∀ t : State, t.storeFlies (.phys f) = false := fun t => by simp [State.storeFlies, hf]
  simp only [State.storeAll, hx, State.writeLoc, hf, if_true, State.ioWrite_bell bell, bind, Except.bind, lands,
    Bool.false_eq_true, if_false]

/-- A store at another device register stops. -/
theorem storeAll_stop {s : State} {x : Acc} {f : Leaf} (hx : x.loc = .phys f) (hf : f.pol = 3) (none : s.doorbell f.pa = none)
    (hint : Nat) (bs : List Byte) : s.storeAll hint [(x, bs)] = .error (.stop (.deviceRegister f.pa)) := by
  simp only [State.storeAll, hx, State.writeLoc, hf, if_true, State.ioWrite, none, bind, Except.bind]

theorem State.settleExn_stop (s : State) (pc len : Word) (r : Fault) : s.settleExn pc len (.stop r) = .fault r := by
  unfold State.settleExn
  cases s.cur <;> rfl

/-- An instruction whose work stops at a fault of the model stops the step. -/
theorem seqInstr_stop {i : Instr} {s : State} {body : State → Except Exn State} {r : Fault} (h : Ready i s)
    (hb : body (s.entering i) = .error (.stop r)) : seqInstr i body s = .fault r := by
  have hp := h.prologue
  simp only [State.entering] at hp hb
  simp only [seqInstr, instr, h.agent, Bool.not_true, Bool.false_eq_true, if_false, hp, Except.bind, hb, Except.map, State.settleExn_stop]

/-! ### From before the instruction -/

theorem State.entering_memAddr (s : State) (i : Instr) (o : Mem) (scalar : Bool) (l : Nat) :
    (s.entering i).memAddr o scalar l = s.memAddr o scalar l := by
  simp only [State.memAddr, s.entering_sreg, s.entering_vreg]

theorem State.entering_ctxNum (s : State) (i : Instr) :
    ((s.entering i).ctx ((s.entering i).ctxOf (s.entering i).curCourse)).num = (s.ctx (s.ctxOf s.curCourse)).num := by
  have hr := s.entering_rest i
  have hb : ∀ c, ((s.entering i).course c).block = (s.course c).block := fun c =>
    (congrArg Course.block ((s.entering_frame i).course c) :)
  have hblocks : (s.entering i).blocks = s.blocks := (congrArg State.blocks hr :)
  have hlaunches : (s.entering i).launches = s.launches := (congrArg State.launches hr :)
  have hctxs : (s.entering i).ctxs = s.ctxs := (congrArg State.ctxs hr :)
  simp only [State.ctx, State.ctxOf, State.launchOf, State.launch, State.launchIx, State.block, (s.entering_same i).2.1, hb, hblocks,
    hlaunches, hctxs]

theorem State.entering_doorbell (s : State) (i : Instr) (pa : Nat) : (s.entering i).doorbell pa = s.doorbell pa := by
  have hq : (s.entering i).queues = s.queues := (congrArg State.queues (s.entering_rest i) :)
  have hc : (s.entering i).channels = s.channels := (congrArg State.channels (s.entering_rest i) :)
  simp only [State.doorbell, State.queue, State.channel, hq, hc]

end Sys2Proof.Machine
end

section
/-!
The statement of loads and stores of device registers.
-/

namespace Sys2Proof.Machine

/-- The work of LDS and of STS, before the PC moves. -/
def ldsWork (o : Mem) (t : State) : Except Exn State := do
  let u ← t.scalarLoad (spaceOf o.as) o.hint.toNat (t.memAddr o true 0) (sizeBytes o) o.ty (o.d.toNat % 64)
  .ok (if o.ord = 2 then u.acquire o.scope.toNat else u)
def stsWork (o : Mem) (t : State) : Except Exn State := do
  let x ← t.checkAcc (spaceOf o.as) 127 (t.memAddr o true 0) { n := sizeBytes o, rd := false, wr := true }
  let w := [(x.1, natLe (sizeBytes o) (t.sreg (o.d.toNat % 64)).toNat)]
  if o.ord = 1 then ((x.2.release o.scope.toNat).storeAll o.hint.toNat w).map fun u => u.performAt o.scope.toNat
  else x.2.storeAll o.hint.toNat w

theorem exec_lds (o : Mem) (s : State) : exec (.lds o) s = seqInstr (.lds o) (ldsWork o) s := rfl
theorem exec_sts (o : Mem) (s : State) : exec (.sts o) s = seqInstr (.sts o) (stsWork o) s := rfl

section
variable {s : State} {o : Mem} {f : Leaf} {isQ : Bool} {k : Nat} {ctl kick : Word}

/-- The access of a scalar load or store passes every check, at a device register. -/
def Found (s : State) (i : Instr) (o : Mem) (f : Leaf) (q : Need) : Prop :=
  (s.entering i).checkAcc (spaceOf o.as) 127 (s.memAddr o true 0) q = .ok (⟨127, s.memAddr o true 0, .phys f, 127⟩, s.entering i)

/-- LDS of a doorbell page writes the bytes that the page answers, extended; an acquire comes after it. -/
theorem execLds_bell (has : spaceOf o.as = .gen) (hf : f.pol = 3) (bell : s.doorbell f.pa = some (isQ, k, ctl, kick))
    (found : Found s (.lds o) o f { n := sizeBytes o }) (ready : Ready (.lds o) s) :
    let w := extended o.ty (bellBytes ctl kick (f.pa % 0x10000) (sizeBytes o))
    ∃ t, exec (.lds o) s = .next t
      ∧ Done (.lds o) { s := [o.d.toNat % 64] } (if o.ord = 2 then s.acquire o.scope.toNat else s) t
      ∧ WroteS s t (o.d.toNat % 64) w := by
  intro w
  have work : ldsWork o (s.entering (.lds o)) = .ok (if o.ord = 2
      then ((s.entering (.lds o)).setS (o.d.toNat % 64) w).acquire o.scope.toNat else (s.entering (.lds o)).setS (o.d.toNat % 64) w) := by
    rw [Found, has] at found
    rw [ldsWork, has, State.entering_memAddr, scalarLoad_bell hf found ((s.entering_doorbell _ _).trans bell)]
    rfl
  have wrote := State.setS_wrote (s := s.entering (.lds o)) (by simp [ready.agent]) (o.d.toNat % 64) w
  refine ⟨_, (exec_lds o s).trans (seqInstr_next ready work), ?_⟩
  by_cases ho : o.ord = 2
  · simp only [if_pos ho]
    refine ⟨?_, (wrote.acquire _).around _⟩
    rw [Done, State.nextPc, State.acquire_pc]
    exact goes_of_acquire ready.agent (State.setS_frame ..) (State.setS_hasAgent ..) (State.setS_wait ..) _ _
  · simp only [if_neg ho]
    exact ⟨goes_of_work ready.agent (State.setS_frame ..) (State.setS_hasAgent ..) (State.setS_wait ..) _, wrote.around _⟩

/-- A plain store that passed its checks stores its bytes. -/
theorem stsWork_found (found : Found s (.sts o) o f { n := sizeBytes o, rd := false, wr := true }) (ord : o.ord = 0) :
    stsWork o (s.entering (.sts o)) = (s.entering (.sts o)).storeAll o.hint.toNat
      [(⟨127, s.memAddr o true 0, .phys f, 127⟩, natLe (sizeBytes o) (s.sreg (o.d.toNat % 64)).toNat)] := by
  rw [stsWork, State.entering_memAddr, found, State.entering_sreg, ord]
  rfl

/-- STS of a doorbell page: the owner's store of the whole index kicks, and any other does nothing. -/
theorem execSts_bell (hf : f.pol = 3) (bell : s.doorbell f.pa = some (isQ, k, ctl, kick))
    (found : Found s (.sts o) o f { n := sizeBytes o, rd := false, wr := true }) (ord : o.ord = 0) (ready : Ready (.sts o) s) :
    ∃ u t, exec (.sts o) s = .next t ∧ Done (.sts o) {} s u
      ∧ t = if sizeBytes o = 8 ∧ f.pa % 0x10000 = 0 ∧ ctl.getLsbD 9 = true ∧ ctl.toNat / 2 ^ 32 = (s.ctx (s.ctxOf s.curCourse)).num
          then u.kickBell isQ k (s.sreg (o.d.toNat % 64)) else u := by
  have stores := storeAll_bell (s := s.entering (.sts o)) (x := ⟨127, s.memAddr o true 0, .phys f, 127⟩) rfl hf
    ((s.entering_doorbell _ _).trans bell) o.hint.toNat (natLe (sizeBytes o) (s.sreg (o.d.toNat % 64)).toNat)
  rw [State.entering_ctxNum, length_natLe] at stores
  refine ⟨(s.entering (.sts o)).setPc (s.nextPc (.sts o)), _,
    (exec_sts o s).trans (seqInstr_next ready ((stsWork_found found ord).trans stores)),
    goes_of_work ready.agent (Frame.refl {} _) rfl rfl _, ?_⟩
  split
  · rename_i c
    rw [c.1, ofNat_leNat_natLe, State.kickBell_setPc]
  · rfl

/-- LDS and STS of a device register that is no doorbell page. -/
theorem execLds_stop (has : spaceOf o.as = .gen) (hf : f.pol = 3) (none : s.doorbell f.pa = none)
    (found : Found s (.lds o) o f { n := sizeBytes o }) (ready : Ready (.lds o) s) :
    exec (.lds o) s = .fault (.deviceRegister f.pa) := by
  refine (exec_lds o s).trans (seqInstr_stop ready ?_)
  rw [Found, has] at found
  rw [ldsWork, has, State.entering_memAddr, scalarLoad_stop hf found (State.doorbell_none none)]
  rfl

theorem execSts_stop (hf : f.pol = 3) (none : s.doorbell f.pa = none)
    (found : Found s (.sts o) o f { n := sizeBytes o, rd := false, wr := true }) (ready : Ready (.sts o) s) :
    exec (.sts o) s = .fault (.deviceRegister f.pa) := by
  refine (exec_sts o s).trans (seqInstr_stop ready ?_)
  have stops : ∀ t : State, ∀ bs, t.storeAll o.hint.toNat [(⟨127, s.memAddr o true 0, .phys f, 127⟩, bs)]
      = .error (.stop (.deviceRegister f.pa)) := fun t bs => storeAll_stop rfl hf (State.doorbell_none none) _ bs
  rw [stsWork, State.entering_memAddr, found]
  simp only [bind, Except.bind, stops]
  split <;> rfl

end

/-- Settles O48: a queue's page and a channel's are doorbell pages, of which the same lemma says what a load and a store do; at every
other device register both stop. -/
theorem deviceRegisters : Obligations.DeviceRegisters := by
  unfold Obligations.DeviceRegisters
  intro s o f a has hf _ ha n found load store num at' bell kicks
  have lds : load → Found s (.lds o) o f { n := sizeBytes o } := by
    subst ha
    rw [Found, has]
    exact id
  have sts : store → Found s (.sts o) o f { n := sizeBytes o, rd := false, wr := true } := by
    subst ha
    rw [Found, has]
    exact id
  have page : ∀ {isQ k ctl kick}, s.doorbell f.pa = some (isQ, k, ctl, kick) → kicks ctl kick fun u v => u.kickBell isQ k v := by
    intro isQ k ctl kick b
    refine ⟨fun hl ready => ?_, fun hst ord ready => execSts_bell hf b (sts hst) ord ready⟩
    obtain ⟨t, e, done, wrote⟩ := execLds_bell has hf b (lds hl) ready
    exact ⟨t, _, e, done, wrote, fun j hj => extended_byte o.ty (by simp [← List.length_pos_iff, sizeBytes]) hj⟩
  exact ⟨fun q hq => page (s.doorbell_queue hq.1 hq.2), fun h hh => page (s.doorbell_channel hh.1 hh.2),
    fun none => ⟨fun hl ready => execLds_stop has hf none (lds hl) ready, fun hst ready => execSts_stop hf none (sts hst) ready⟩⟩

end Sys2Proof.Machine
end

section
/-!
SUPPORT. Laws of the management controller's own state, and of what it answers over MCTP (R410).
-/

namespace Sys2Proof.Machine

section
variable (s : State) (f : Mgmt → Mgmt)

@[simp] theorem State.modMgmt_mgmt : (s.modMgmt f).mgmt = f s.mgmt := rfl
@[simp] theorem State.modMgmt_cluster (k : Nat) : (s.modMgmt f).cluster k = s.cluster k := rfl

end

@[simp] theorem State.modCluster_cluster_self (s : State) (k : Nat) (f : ClusterSt → ClusterSt) :
    (s.modCluster k f).cluster k = f (s.cluster k) := Cells.get_set_self ..

theorem State.cluster_congr {s t : State} (h : t.clusters = s.clusters) (k : Nat) : t.cluster k = s.cluster k := by
  simp only [State.cluster, h]

/-- The state with a message more sent over MCTP. -/
def State.withMessage (s : State) (x : Mctp) : State := { s with mctp := x :: s.mctp }

@[simp] theorem State.withMessage_mgmt (s : State) (x) : (s.withMessage x).mgmt = s.mgmt := rfl

theorem State.answer_running {s : State} (h : s.mgmt.stopped = false) (x : Mctp) : s.answer x = s.withMessage x := by
  rw [State.answer, h]
  rfl

theorem State.answer_stopped {s : State} (h : s.mgmt.stopped = true) (x : Mctp) :
    s.answer x = s.withMessage (.journalOnly s.mgmt.journal) := by
  rw [State.answer, h]
  rfl

/-- A PLDM command that succeeds does what it says and is answered so. -/
theorem State.pldm_ok {s : State} {f : Mgmt → Mgmt} {n : Mgmt} (h : s.mgmt.stopped = false) (hf : f s.mgmt = n) (hn : n.stopped = false)
    (command : Nat) : s.pldm command true f = (s.modMgmt fun _ => n).withMessage (.pldm command true) := by
  rw [State.pldm, h, if_neg Bool.false_ne_true, if_pos rfl]
  subst hf
  exact State.answer_running (s := s.modMgmt f) hn _

/-- One that fails changes nothing and is answered so. -/
theorem State.pldm_failed {s : State} (h : s.mgmt.stopped = false) (f : Mgmt → Mgmt) (command : Nat) :
    s.pldm command false f = s.withMessage (.pldm command false) := by
  rw [State.pldm, h, if_neg Bool.false_ne_true, if_neg Bool.false_ne_true]
  exact State.answer_running h _

end Sys2Proof.Machine
end

section
/-!
SUPPORT. Laws of a boot: what the step of a unit does, and what no step changes (R408 to R411).
-/

namespace Sys2Proof.Machine

/-! ### Which unit comes next, and which way is taken -/

/-- The units of a step, in numbers. -/
theorem bootCount_eq (step : Nat) : bootCount step
    = if step = 3 ∨ step = 4 then 1152 else if step = 5 then 144 else if step = 8 ∨ step = 10 then 12 else 1 := by
  unfold bootCount
  by_cases h3 : step = 3
  · simp [h3]
  · by_cases h4 : step = 4
    · simp [h4, Config.cores]
    · simp [h3, h4]

/-- The clusters that step 10 starts are the twelve of the device. -/
theorem Mgmt.nextUnit_cluster {m : Mgmt} {unit : Nat} (h : m.nextUnit = (10, unit)) : unit < 12 := by
  have count : bootCount 10 = 12 := rfl
  unfold Mgmt.nextUnit at h
  split at h
  · cases h
  · split at h
    · rename_i hc
      obtain ⟨hs, hu⟩ := Prod.mk.inj h
      rw [hs, count] at hc
      omega
    · have := (Prod.mk.inj h).2
      omega

/-- Only an optional step is skipped (R408). -/
theorem Mgmt.wayOf_skip {m : Mgmt} {step unit : Nat} (h : m.wayOf step unit = some 2) : step = 7 ∨ step = 8 := by
  unfold Mgmt.wayOf at h
  dsimp only at h
  split at h
  · cases h
  · split at h
    · cases h
    · split at h
      · cases h
      · split at h
        · exact .inl ‹_›
        · split at h
          · cases h
          · split at h
            · rename_i ho
              simpa [bootOptional] using ho
            · cases h

/-- A unit that host software had cleared is tried the standard way (R410). -/
theorem Mgmt.wayOf_cleared {m : Mgmt} {step unit : Nat} (h : (step, unit) ∈ m.cleared) : m.wayOf step unit = some 0 := by
  simp [Mgmt.wayOf, h]

theorem mem_mark_out (l : List Nat) (u : Nat) (back : Bool) : u ∈ mark l u true back := by
  unfold mark
  rw [if_pos rfl]
  split
  · exact List.contains_iff_mem.mp ‹_›
  · exact List.mem_cons_self ..

theorem notMem_mark_back (l : List Nat) (u : Nat) : u ∉ mark l u false true := by simp [mark]

/-- The bank that step 1 boots from in a way. -/
def Mgmt.bankOf (m : Mgmt) (way : Nat) : Cells Firmware := if way = 1 then m.bankB else m.bankA
/-- Both signatures of each of its images verify. -/
def soundBank (bank : Cells Firmware) : Bool := (List.range 4).all fun c => Config.verifies (Cells.get {} bank c).image
/-- How a unit's way went at the outside, before the images are looked at. -/
def trialOf (u : BootUnit) (way : Nat) : Trial := if way = 0 then u.std else u.alt

theorem Mgmt.bankOf_eq (m : Mgmt) (way : Nat) : (if (way == 1) = true then m.bankB else m.bankA) = m.bankOf way := by
  simp only [Mgmt.bankOf, beq_iff_eq]

/-- Step 1 fails where an image of the bank does not verify (R408). -/
theorem Mgmt.trial_eq (m : Mgmt) (u : BootUnit) (way : Nat) :
    m.trial u way = if way = 2 then .pass
      else if u.step = 1 ∧ trialOf u way = .pass ∧ soundBank (m.bankOf way) = false then .fail else trialOf u way := by
  have ok : m.bankOk (way == 1) = soundBank (m.bankOf way) := by rw [Mgmt.bankOk, Mgmt.bankOf_eq, soundBank]
  simp only [Mgmt.trial, ok, Bool.not_eq_true', trialOf]
  congr

/-! ### What a step that passed does -/

/-- The state without what a boot sets up. -/
def State.unbooted (s : State) : State :=
  { s with mgmt := {}, portA := false, portB := false, poolReach := false, links := [], slewTab := [], clusters := [] }

/-- What no step of a boot changes of the management controller. -/
structure Mgmt.SameBoot (m n : Mgmt) : Prop where
  boot : n.boot = m.boot
  stopped : n.stopped = m.stopped
  journal : n.journal = m.journal

theorem State.bootEffect_unbooted (s : State) (u : BootUnit) (way : Nat) : (s.bootEffect u way).unbooted = s.unbooted := by
  unfold State.bootEffect
  split
  · rfl
  · dsimp only
    split
    case h_8 => (repeat' split) <;> rfl
    all_goals rfl

theorem State.bootEffect_sameBoot (s : State) (u : BootUnit) (way : Nat) : s.mgmt.SameBoot (s.bootEffect u way).mgmt := by
  unfold State.bootEffect
  split
  · exact ⟨rfl, rfl, rfl⟩
  · dsimp only
    split
    case h_8 => (repeat' split) <;> exact ⟨rfl, rfl, rfl⟩
    all_goals exact ⟨rfl, rfl, rfl⟩

/-- The scheduler core starts with the last cluster, and with no other unit. -/
theorem State.bootEffect_running {s : State} {u : BootUnit} (h : s.mgmt.running = false) (hu : u.step = 10 → u.unit < 12) {way : Nat}
    (hw : u.step = 10 → way ≠ 2) : (s.bootEffect u way).mgmt.running = true ↔ u.step = 10 ∧ u.unit = 11 := by
  obtain ⟨step, unit, std, alt⟩ := u
  dsimp only at hu hw ⊢
  by_cases h10 : step = 10
  · subst h10
    have h12 := hu rfl
    have count : bootCount 10 = 12 := rfl
    simp only [State.bootEffect, if_neg (hw rfl), count]
    by_cases hl : unit + 1 < 12
    · rw [if_pos hl]
      have : ¬unit = 11 := by omega
      split <;> simpa [this] using h
    · rw [if_neg hl]
      have : unit = 11 := by omega
      simp [this, Mgmt.started]
  · simp only [h10, false_and, iff_false, Bool.not_eq_true]
    unfold State.bootEffect
    split
    · exact h
    · dsimp only
      split
      case h_8 => exact absurd rfl h10
      all_goals exact h

/-! ### A boot, unit by unit -/

/-- The state after a unit's step passed in a way, and its record is written. -/
def State.unitPassed (s : State) (u : BootUnit) (way : Nat) : State :=
  (s.bootEffect u way).modMgmt fun m => { m.noted (s.mgmt.entry u way) u with step := u.step, unit := u.unit }

theorem Mgmt.noted_head (m : Mgmt) (j : Journal) (u : BootUnit) : (m.noted j u).journal.head? = some j := by
  simp [Mgmt.noted]

section
variable {s : State} {u : BootUnit} {us : List BootUnit}

theorem State.bootUnits_of_running (h : s.mgmt.running = true) : s.bootUnits us = s := by
  cases us with
  | nil => rfl
  | cons u us => simp [State.bootUnits, h]

theorem State.bootUnits_of_other (h : s.mgmt.nextUnit ≠ (u.step, u.unit)) : s.bootUnits (u :: us) = s := by
  rw [State.bootUnits, if_pos]
  simp [h]

variable (hr : s.mgmt.running = false) (hn : s.mgmt.nextUnit = (u.step, u.unit))
include hr hn

theorem State.bootUnits_no_way (hw : s.mgmt.wayOf u.step u.unit = none) :
    s.bootUnits (u :: us) = s.modMgmt fun m => { m with stopped := true } := by
  rw [State.bootUnits, if_neg (by simp [hr, hn])]
  simp only [hw]

variable {way : Nat} (hw : s.mgmt.wayOf u.step u.unit = some way)
include hw

theorem State.bootUnits_passed (hp : s.mgmt.trial u way = .pass) : s.bootUnits (u :: us) = (s.unitPassed u way).bootUnits us := by
  rw [State.bootUnits, if_neg (by simp [hr, hn])]
  simp only [hw]
  rw [if_pos hp]
  rfl

theorem State.bootUnits_not_passed (hp : s.mgmt.trial u way ≠ .pass) :
    s.bootUnits (u :: us) = s.modMgmt fun m => m.noted (s.mgmt.entry u way) u := by
  rw [State.bootUnits, if_neg (by simp [hr, hn])]
  simp only [hw]
  rw [if_neg hp]

end

/-- What no unit of a boot changes: a property that each of the three ends of a unit keeps. -/
theorem State.bootUnits_keeps {P : State → Prop}
    (none : ∀ s, s.mgmt.running = false → P s → P (s.modMgmt fun m => { m with stopped := true }))
    (passed : ∀ s u way, s.mgmt.running = false → P s → P (s.unitPassed u way))
    (failed : ∀ s u way, s.mgmt.running = false → P s → P (s.modMgmt fun m => m.noted (s.mgmt.entry u way) u))
    (us : List BootUnit) (s : State) (h : P s) : P (s.bootUnits us) := by
  induction us generalizing s with
  | nil => exact h
  | cons u us ih =>
    cases hr : s.mgmt.running with
    | true => rwa [State.bootUnits_of_running hr]
    | false =>
      by_cases hn : s.mgmt.nextUnit = (u.step, u.unit)
      · cases hw : s.mgmt.wayOf u.step u.unit with
        | none => rw [State.bootUnits_no_way hr hn hw]; exact none s hr h
        | some way =>
          by_cases hp : s.mgmt.trial u way = .pass
          · rw [State.bootUnits_passed hr hn hw hp]
            exact ih _ (passed s u way hr h)
          · rw [State.bootUnits_not_passed hr hn hw hp]
            exact failed s u way hr h
      · rwa [State.bootUnits_of_other hn]

/-- A boot changes what it sets up, and the management controller. -/
theorem State.bootUnits_unbooted (us : List BootUnit) (s : State) : (s.bootUnits us).unbooted = s.unbooted :=
  State.bootUnits_keeps (P := fun t => t.unbooted = s.unbooted) (fun _ _ h => h)
    (fun t u way _ h => (t.bootEffect_unbooted u way).trans h) (fun _ _ _ _ h => h) us s rfl

theorem State.bootUnits_boot (us : List BootUnit) (s : State) : (s.bootUnits us).mgmt.boot = s.mgmt.boot :=
  State.bootUnits_keeps (P := fun t => t.mgmt.boot = s.mgmt.boot) (fun _ _ h => h)
    (fun t u way _ h => (t.bootEffect_sameBoot u way).boot.trans h) (fun _ _ _ _ h => h) us s rfl

/-- A boot that stops does not come to its end. -/
theorem State.bootUnits_stopped {us : List BootUnit} {s : State} (h : s.mgmt.stopped = false)
    (hr : (s.bootUnits us).mgmt.running = true) : (s.bootUnits us).mgmt.stopped = false := by
  induction us generalizing s with
  | nil => exact h
  | cons u us ih =>
    cases hs : s.mgmt.running with
    | true => rwa [State.bootUnits_of_running hs]
    | false =>
      by_cases hn : s.mgmt.nextUnit = (u.step, u.unit)
      · cases hw : s.mgmt.wayOf u.step u.unit with
        | none =>
          rw [State.bootUnits_no_way hs hn hw] at hr
          exact absurd hr (by simp [hs])
        | some way =>
          by_cases hp : s.mgmt.trial u way = .pass
          · rw [State.bootUnits_passed hs hn hw hp] at hr ⊢
            exact ih ((s.bootEffect_sameBoot u way).stopped.trans h) hr
          · rw [State.bootUnits_not_passed hs hn hw hp]
            exact h
      · rwa [State.bootUnits_of_other hn]

/-! ### What each step leaves -/

section
variable {s : State} {u : BootUnit} {way : Nat} (hw : s.mgmt.wayOf u.step u.unit = some way)
include hw

/-- Steps 3 and 4 map out a unit whose alternative was taken, and take one back that host software had cleared. -/
theorem mark_way (l : List Nat) : (way = 1 → u.unit ∈ mark l u.unit (way == 1) (s.mgmt.cleared.contains (u.step, u.unit)))
    ∧ ((u.step, u.unit) ∈ s.mgmt.cleared → u.unit ∉ mark l u.unit (way == 1) (s.mgmt.cleared.contains (u.step, u.unit))) := by
  refine ⟨?_, fun hc => ?_⟩
  · rintro rfl
    exact mem_mark_out ..
  · cases hw.symm.trans (Mgmt.wayOf_cleared hc)
    rw [List.contains_iff_mem.mpr hc]
    exact notMem_mark_back l u.unit

theorem unitPassed_channels (h : u.step = 3) : (s.unitPassed u way).mgmt.channelsOut
    = mark s.mgmt.channelsOut u.unit (way == 1) (s.mgmt.cleared.contains (u.step, u.unit)) := by
  have h2 : way ≠ 2 := fun e => absurd (Mgmt.wayOf_skip (e ▸ hw)) (by omega)
  simp only [State.unitPassed, State.bootEffect, if_neg h2]
  rw [h]
  rfl

theorem unitPassed_cores (h : u.step = 4) : (s.unitPassed u way).mgmt.coresOut
    = mark s.mgmt.coresOut u.unit (way == 1) (s.mgmt.cleared.contains (u.step, u.unit)) := by
  have h2 : way ≠ 2 := fun e => absurd (Mgmt.wayOf_skip (e ▸ hw)) (by omega)
  simp only [State.unitPassed, State.bootEffect, if_neg h2]
  rw [h]
  rfl

omit hw

/-- Step 7 brings the pool's link up, unless it is skipped. -/
theorem unitPassed_pool (h : u.step = 7) (h2 : way ≠ 2) : (s.unitPassed u way).poolLink = true := by
  obtain ⟨step, unit, std, alt⟩ := u
  dsimp only at h
  subst h
  simp only [State.unitPassed, State.bootEffect, if_neg h2]
  rfl

/-- Step 10 starts the cluster's leaf controller and microcode. -/
theorem unitPassed_leaf (h : u.step = 10) (h2 : way ≠ 2) :
    ((s.unitPassed u way).cluster u.unit).leaf = Cells.get {} s.mgmt.runs 1
      ∧ ((s.unitPassed u way).cluster u.unit).microcode = Cells.get {} s.mgmt.runs 3 := by
  obtain ⟨step, unit, std, alt⟩ := u
  dsimp only at h ⊢
  subst h
  have starts : ∀ t : State, t.clusters = (s.modCluster unit fun x =>
      { x with leaf := Cells.get {} s.mgmt.runs 1, microcode := Cells.get {} s.mgmt.runs 3 }).clusters →
      (t.cluster unit).leaf = Cells.get {} s.mgmt.runs 1 ∧ (t.cluster unit).microcode = Cells.get {} s.mgmt.runs 3 := fun t e => by
    rw [State.cluster_congr e, State.modCluster_cluster_self]
    exact ⟨rfl, rfl⟩
  refine starts _ ?_
  simp only [State.unitPassed, State.bootEffect, if_neg h2]
  (repeat' split) <;> rfl

/-- Step 1 chooses the images that run: those of the bank, and the controller's that waited for this start. -/
theorem unitPassed_runs (h : u.step = 1) (h2 : way ≠ 2) (c : Nat) :
    Cells.get {} (s.unitPassed u way).mgmt.runs c
      = if c = 0 ∧ s.mgmt.controller.isSome = true then s.mgmt.controller.getD {} else Cells.get {} (s.mgmt.bankOf way) c := by
  have e : (s.unitPassed u way).mgmt.runs = Mgmt.booting (s.mgmt.bankOf way) s.mgmt.controller := by
    simp only [State.unitPassed, State.bootEffect, if_neg h2, ← Mgmt.bankOf_eq]
    rw [h]
    rfl
  rw [e]
  cases s.mgmt.controller with
  | none => simp [Mgmt.booting]
  | some v => simp [Mgmt.booting, Cells.get_set]

end

/-! ### BOOT -/

/-- What BOOT leaves: the boot's own report or its journal is sent where it came to an end, and nothing else was said. -/
theorem execBoot_leaves (us : List BootUnit) (s : State) : ∃ t, exec (.boot us) s = .next t ∧ t.mgmt.boot = s.mgmt.boot + 1
    ∧ t.mem = s.mem ∧ t.courses = [] ∧ t.wb = []
    ∧ (t.mgmt.running = true → t.mctp = t.bootReport :: s.mctp)
    ∧ (t.mgmt.stopped = true → t.mctp = .journalOnly t.mgmt.journal :: s.mctp)
    ∧ (t.mgmt.running = false → t.mgmt.stopped = false → t.mctp = s.mctp) := by
  have sets := s.restart.bootUnits_unbooted us
  have boot : (s.restart.bootUnits us).mgmt.boot = s.mgmt.boot + 1 := s.restart.bootUnits_boot us
  have ends := State.bootUnits_stopped (us := us) (show s.restart.mgmt.stopped = false from rfl)
  have hmem : (s.restart.bootUnits us).mem = s.mem := (congrArg State.mem sets :)
  have hcourses : (s.restart.bootUnits us).courses = [] := (congrArg State.courses sets :)
  have hwb : (s.restart.bootUnits us).wb = [] := (congrArg State.wb sets :)
  have hmctp : (s.restart.bootUnits us).mctp = s.mctp := (congrArg State.mctp sets :)
  have runs : exec (.boot us) s = .next (if (s.restart.bootUnits us).mgmt.running then
      (s.restart.bootUnits us).answer (s.restart.bootUnits us).bootReport
    else if (s.restart.bootUnits us).mgmt.stopped then (s.restart.bootUnits us).answer (.journalOnly (s.restart.bootUnits us).mgmt.journal)
    else s.restart.bootUnits us) := rfl
  rw [runs]
  generalize s.restart.bootUnits us = t at *
  cases hr : t.mgmt.running with
  | true =>
    rw [if_pos rfl, State.answer_running (ends hr)]
    refine ⟨_, rfl, boot, hmem, hcourses, hwb, fun _ => congrArg (_ :: ·) hmctp, fun h => ?_, fun h => ?_⟩
    · exact absurd ((ends hr).symm.trans h) Bool.false_ne_true
    · exact absurd (hr.symm.trans h) (by decide)
  | false =>
    rw [if_neg Bool.false_ne_true]
    cases hs : t.mgmt.stopped with
    | true =>
      rw [if_pos rfl, State.answer_stopped hs]
      refine ⟨_, rfl, boot, hmem, hcourses, hwb, fun h => ?_, fun _ => congrArg (_ :: ·) hmctp, fun _ h => ?_⟩
      · exact absurd (hr.symm.trans h) Bool.false_ne_true
      · exact absurd (hs.symm.trans h) (by decide)
    | false =>
      rw [if_neg Bool.false_ne_true]
      refine ⟨_, rfl, boot, hmem, hcourses, hwb, fun h => ?_, fun h => ?_, fun _ _ => hmctp⟩
      · exact absurd (hr.symm.trans h) Bool.false_ne_true
      · exact absurd (hs.symm.trans h) Bool.false_ne_true

end Sys2Proof.Machine
end

section
/-!
SUPPORT. Laws of a firmware update: images that are staged, and the bank that is not in force (R412, R413).
-/

namespace Sys2Proof.Machine

/-! ### Staged images -/

theorem Mgmt.image_comp {m : Mgmt} {comp : Nat} {x : Staged} (h : m.image comp = some x) : x.comp = comp := by
  simpa using List.find?_some h

theorem Mgmt.image_mem {m : Mgmt} {comp : Nat} {x : Staged} (h : m.image comp = some x) : x ∈ m.staged := List.mem_of_find?_eq_some h

theorem Mgmt.image_congr {m n : Mgmt} (h : n.staged = m.staged) (comp : Nat) : n.image comp = m.image comp := by
  simp only [Mgmt.image, h]

/-- The image that was staged last is its component's. -/
theorem Mgmt.image_setImage (m : Mgmt) {x : Staged} {comp : Nat} (h : x.comp = comp) : (m.setImage x).image comp = some x := by
  simp [Mgmt.image, Mgmt.setImage, h]

/-! ### The inactive bank -/

/-- The image of a component in the bank that is not in force for it. -/
def Mgmt.inactive (m : Mgmt) (comp : Nat) : Firmware := Cells.get {} (if m.inB comp = true then m.bankA else m.bankB) comp

theorem Mgmt.inactive_eq {m n : Mgmt} {comp : Nat} (h : n.inB comp = m.inB comp) :
    Cells.get {} (if m.fromB = true ∨ comp ∈ m.activeB then n.bankA else n.bankB) comp = n.inactive comp := by
  rw [Mgmt.inactive, h]
  simp only [Mgmt.inB, Bool.or_eq_true, List.contains_iff_mem]

/-- Of the management controller an image that is staged changes the banks alone. -/
theorem Mgmt.stage_rest (m : Mgmt) (comp : Nat) (v : Firmware) :
    { m.stage comp v with bankA := [], bankB := [] } = { m with bankA := [], bankB := [] } := by
  unfold Mgmt.stage
  split <;> rfl

section
variable (m : Mgmt) (comp : Nat) (v : Firmware)

@[simp] theorem Mgmt.stage_staged : (m.stage comp v).staged = m.staged := (congrArg Mgmt.staged (m.stage_rest comp v) :)
@[simp] theorem Mgmt.stage_stopped : (m.stage comp v).stopped = m.stopped := (congrArg Mgmt.stopped (m.stage_rest comp v) :)
@[simp] theorem Mgmt.stage_runs : (m.stage comp v).runs = m.runs := (congrArg Mgmt.runs (m.stage_rest comp v) :)
@[simp] theorem Mgmt.stage_inB (c : Nat) : (m.stage comp v).inB c = m.inB c := by
  have h1 : (m.stage comp v).fromB = m.fromB := (congrArg Mgmt.fromB (m.stage_rest comp v) :)
  have h2 : (m.stage comp v).activeB = m.activeB := (congrArg Mgmt.activeB (m.stage_rest comp v) :)
  simp only [Mgmt.inB, h1, h2]
@[simp] theorem Mgmt.stage_image (c : Nat) : (m.stage comp v).image c = m.image c := Mgmt.image_congr (m.stage_staged comp v) c

/-- The image stands in the inactive bank of its component, and of no other. -/
theorem Mgmt.inactive_stage (c : Nat) : (m.stage comp v).inactive c = if c = comp then v else m.inactive c := by
  rw [Mgmt.inactive, Mgmt.stage_inB, Mgmt.stage, Mgmt.inactive]
  by_cases hc : c = comp
  · subst hc
    cases m.inB c <;> simp
  · cases m.inB comp <;> cases m.inB c <;> simp [hc, Cells.get_set]

end

/-! ### Images that are given up -/

/-- A staged image is given up: its place in the inactive bank is erased where it had been transferred. -/
def Mgmt.giveUp (m : Mgmt) (x : Staged) : Mgmt := if x.transferred then m.stage x.comp {} else m

theorem Mgmt.giveUp_rest (m : Mgmt) (x : Staged) :
    { m.giveUp x with bankA := [], bankB := [] } = { m with bankA := [], bankB := [] } := by
  unfold Mgmt.giveUp
  split
  · exact m.stage_rest x.comp {}
  · rfl

/-- Images that are given up change the banks and leave the list. -/
theorem Mgmt.unstage_rest (m : Mgmt) (p : Staged → Bool) : { m.unstage p with bankA := [], bankB := [] }
    = { m with bankA := [], bankB := [], staged := m.staged.filter fun x => !p x } := by
  have e := foldl_same (fun n : Mgmt => { n with bankA := [], bankB := [] }) Mgmt.giveUp (m.staged.filter p) Mgmt.giveUp_rest m
  exact congrArg (fun n : Mgmt => { n with staged := m.staged.filter fun x => !p x }) e

section
variable (m : Mgmt) (p : Staged → Bool)

@[simp] theorem Mgmt.unstage_staged : (m.unstage p).staged = m.staged.filter fun x => !p x := rfl
@[simp] theorem Mgmt.unstage_stopped : (m.unstage p).stopped = m.stopped := (congrArg Mgmt.stopped (m.unstage_rest p) :)
@[simp] theorem Mgmt.unstage_runs : (m.unstage p).runs = m.runs := (congrArg Mgmt.runs (m.unstage_rest p) :)
theorem Mgmt.unstage_inB (c : Nat) : (m.unstage p).inB c = m.inB c := by
  have h1 : (m.unstage p).fromB = m.fromB := (congrArg Mgmt.fromB (m.unstage_rest p) :)
  have h2 : (m.unstage p).activeB = m.activeB := (congrArg Mgmt.activeB (m.unstage_rest p) :)
  simp only [Mgmt.inB, h1, h2]

end

/-- Once a component's images are given up, it has none. -/
theorem Mgmt.image_unstage (m : Mgmt) (comp : Nat) : (m.unstage fun x => x.comp == comp).image comp = none := by
  simp [Mgmt.image]

/-- A transferred image that is given up is erased. -/
theorem Mgmt.inactive_unstage {m : Mgmt} {comp : Nat} {x : Staged} (h : m.image comp = some x) (ht : x.transferred = true) :
    (m.unstage fun x => x.comp == comp).inactive comp = {} := by
  have hc := Mgmt.image_comp h
  have mem : x ∈ m.staged.filter fun x => x.comp == comp := List.mem_filter.mpr ⟨Mgmt.image_mem h, by simpa using hc⟩
  refine foldl_reaches (Q := fun _ => True) (P := fun n : Mgmt => n.inactive comp = {}) Mgmt.giveUp mem (fun _ _ _ => trivial) ?_ ?_ trivial
  · intro a y ha
    unfold Mgmt.giveUp
    split
    · rw [Mgmt.inactive_stage]
      split
      · rfl
      · exact ha
    · exact ha
  · intro a _
    rw [Mgmt.giveUp, if_pos ht, Mgmt.inactive_stage, if_pos hc.symm]

/-- R413, of the image that is staged. -/
theorem Mgmt.verified_eq {m : Mgmt} {comp : Nat} {x : Staged} (hx : m.image comp = some x) (version : Nat) :
    m.verified comp version = (x.transferred && Config.verifies x.image && decide (m.fuse ≤ version)) := by
  simp only [Mgmt.verified, hx]

/-! ### The commands -/

section
variable {s : State} (hs : s.mgmt.stopped = false)
include hs

theorem execRequestUpdate_idle (h : s.mgmt.updating = false) : exec .requestUpdate s
    = .next ((s.modMgmt fun m => { m with updating := true, table := [], staged := [] }).withMessage (.pldm 1 true)) := by
  show Host.Outcome.next (s.pldm 1 (!s.mgmt.updating) _) = _
  rw [h, Bool.not_false, State.pldm_ok hs rfl hs]
  rfl

theorem execRequestUpdate_busy (h : s.mgmt.updating = true) : exec .requestUpdate s = .next (s.withMessage (.pldm 1 false)) := by
  show Host.Outcome.next (s.pldm 1 (!s.mgmt.updating) _) = _
  rw [h, Bool.not_true, State.pldm_failed hs]

theorem execPassComponentTable_updating (cs : List Nat) (h : s.mgmt.updating = true) : exec (.passComponentTable cs) s
    = .next ((s.modMgmt fun m => { m with table := cs.filter fun c => c < 4 }).withMessage (.pldm 2 true)) := by
  show Host.Outcome.next (s.pldm 2 s.mgmt.updating _) = _
  rw [h, State.pldm_ok hs rfl hs]
  rfl

theorem execUpdateComponent_listed {comp image : Nat} (h : s.mgmt.updating = true) (hc : comp ∈ s.mgmt.table) :
    exec (.updateComponent comp image) s
      = .next ((s.modMgmt fun m => m.setImage { comp := comp, image := image }).withMessage (.pldm 3 true)) := by
  show Host.Outcome.next (s.pldm 3 (s.mgmt.updating && s.mgmt.table.contains comp) _) = _
  rw [h, List.contains_iff_mem.mpr hc, Bool.and_self, State.pldm_ok hs rfl hs]
  rfl

section
variable {comp : Nat} {x : Staged} (hx : s.mgmt.image comp = some x)
include hx

theorem execTransferComplete_staged : exec (.transferComplete comp) s = .next ((s.modMgmt fun m =>
    (m.setImage { x with transferred := true }).stage comp { image := x.image }).withMessage (.pldm 4 true)) := by
  show Host.Outcome.next (s.pldm 4 (s.mgmt.image comp).isSome _) = _
  rw [hx, Option.isSome_some, State.pldm_ok hs (n := (s.mgmt.setImage { x with transferred := true }).stage comp { image := x.image })]
  · rfl
  · simp only [hx]
  · rw [Mgmt.stage_stopped]
    exact hs

theorem execVerifyComplete_ok {version : Nat} (h : s.mgmt.verified comp version = true) : exec (.verifyComplete comp version) s
    = .next ((s.modMgmt fun m => (m.setImage { x with version := some version }).stage comp ⟨x.image, version⟩).withMessage
      (.pldm 5 true)) := by
  show (if s.mgmt.verified comp version = true then Host.Outcome.next (s.pldm 5 true _) else _) = _
  rw [if_pos h, State.pldm_ok hs (n := (s.mgmt.setImage { x with version := some version }).stage comp ⟨x.image, version⟩)]
  · rfl
  · simp only [hx]
  · rw [Mgmt.stage_stopped]
    exact hs

theorem execApplyComplete_verified (h : x.version.isSome = true) : exec (.applyComplete comp) s
    = .next ((s.modMgmt fun m => m.setImage { x with applied := true }).withMessage (.pldm 6 true)) := by
  show Host.Outcome.next (s.pldm 6 (match s.mgmt.image comp with | some x => x.version.isSome | none => false) _) = _
  simp only [hx, h]
  rw [State.pldm_ok hs (n := s.mgmt.setImage { x with applied := true })]
  · rfl
  · simp only [hx]
  · exact hs

end

theorem execVerifyComplete_failed {comp version : Nat} (h : s.mgmt.verified comp version = false) : exec (.verifyComplete comp version) s
    = .next ((s.modMgmt fun m => m.unstage fun x => x.comp == comp).withMessage (.pldm 5 false)) := by
  show (if s.mgmt.verified comp version = true then _ else Host.Outcome.next (State.pldm _ 5 false id)) = _
  rw [h, if_neg Bool.false_ne_true, State.pldm_failed (by rw [State.modMgmt_mgmt, Mgmt.unstage_stopped]; exact hs)]

theorem execCancelUpdate_updating (h : s.mgmt.updating = true) : exec .cancelUpdate s
    = .next ((s.modMgmt fun m => { m.unstage (fun _ => true) with updating := false, table := [] }).withMessage (.pldm 8 true)) := by
  show Host.Outcome.next (s.pldm 8 s.mgmt.updating _) = _
  rw [h, State.pldm_ok hs rfl ((s.mgmt.unstage_stopped _).trans hs)]
  rfl

end

end Sys2Proof.Machine
end

section
/-!
SUPPORT. Laws of activation, rolling updates, hand-over, mapping out and recalibration (R412 to R416).
-/

namespace Sys2Proof.Machine

/-! ### Activation -/

/-- The greatest of a number and those of a list is one of them, and none is greater. -/
theorem foldl_max_spec (l : List Nat) (a : Nat) :
    a ≤ l.foldl max a ∧ (∀ x ∈ l, x ≤ l.foldl max a) ∧ (l.foldl max a = a ∨ l.foldl max a ∈ l) := by
  induction l generalizing a with
  | nil => simp
  | cons b l ih =>
    obtain ⟨first, rest, one⟩ := ih (max a b)
    rw [List.foldl_cons]
    refine ⟨by omega, ?_, ?_⟩
    · intro x hx
      rcases List.mem_cons.mp hx with rfl | hx
      · omega
      · exact rest x hx
    · rcases one with e | hm
      · rcases Nat.le_total a b with h | h
        · exact .inr (by rw [e, Nat.max_eq_right h]; exact List.mem_cons_self ..)
        · exact .inl (by rw [e, Nat.max_eq_left h])
      · exact .inr (List.mem_cons_of_mem _ hm)

/-- Leaves or microcode are to roll. -/
def Mgmt.rolls (m : Mgmt) : Bool := (m.ready 1).isSome || (m.ready 3).isSome
/-- The security versions of the images that are ready. -/
def Mgmt.readyVersions (m : Mgmt) : List Nat := (List.range 4).filterMap fun c => (m.ready c).map (·.version)
/-- What an activation leaves of the management controller. -/
def Mgmt.activation (m : Mgmt) : Mgmt :=
  let old := m.leaf.getD (0, none, none)
  { m with
    fuse := m.readyVersions.foldl max m.fuse, updating := false, staged := [], table := []
    activeB := m.activated
    controller := (m.ready 0).orElse fun _ => m.controller
    scheduler := (m.ready 2).orElse fun _ => m.scheduler
    left := if m.rolls then [] else m.left
    leaf := if m.rolls then some (0, (m.ready 1).orElse fun _ => old.2.1, (m.ready 3).orElse fun _ => old.2.2) else m.leaf }

theorem Mgmt.mem_readyVersions {m : Mgmt} {v : Nat} : v ∈ m.readyVersions ↔ ∃ c < 4, (m.ready c).map (·.version) = some v := by
  simp only [Mgmt.readyVersions, List.mem_filterMap, List.mem_range]

/-- In force from bank B are the images that were and are not activated, and those that are and were not. -/
theorem Mgmt.mem_activated {m : Mgmt} (h : m.fromB = false) {c : Nat} (hc : c < 4) :
    c ∈ m.activated ↔ ((m.ready c).isSome = true ↔ c ∉ m.activeB) := by
  have hin : m.inB c = true ↔ c ∈ m.activeB := by simp [Mgmt.inB, h]
  rw [Mgmt.activated, List.mem_filter, List.mem_range, ← hin]
  cases (m.ready c).isSome <;> simp [hc]

theorem execActivateFirmware_applied {s : State} (hs : s.mgmt.stopped = false) (hu : s.mgmt.updating = true)
    (ha : (s.mgmt.staged.any (·.applied)) = true) :
    ∃ t, exec .activateFirmware s = .next t ∧ t.mgmt = s.mgmt.activation ∧ t.mctp = .pldm 7 true :: s.mctp := by
  have answers : ∀ (u : State) (f : Mgmt → Mgmt), u.mgmt = s.mgmt → u.mctp = s.mctp → f s.mgmt = s.mgmt.activation →
      ∃ t, (Host.Outcome.next (u.pldm 7 true f) : Host.Outcome State Fault Refusal) = .next t
        ∧ t.mgmt = s.mgmt.activation ∧ t.mctp = .pldm 7 true :: s.mctp := by
    intro u f hm hc hf
    rw [State.pldm_ok (by rw [hm]; exact hs) (by rw [hm]; exact hf) (show s.mgmt.activation.stopped = false from hs)]
    exact ⟨_, rfl, rfl, congrArg (_ :: ·) hc⟩
  have ok : (s.mgmt.updating && s.mgmt.staged.any (·.applied)) = true := by rw [hu, ha]; rfl
  show ∃ t, execActivateFirmware s = _ ∧ _
  simp only [execActivateFirmware, ok, Bool.true_and]
  refine answers _ _ ?_ ?_ rfl
  all_goals
    split
    · split <;> rfl
    · rfl

/-! ### Rolling updates (R414) -/

theorem State.nextLeaf_clusters (s : State) (k : Nat) (l m : Option Firmware) : (s.nextLeaf k l m).clusters = s.clusters := by
  unfold State.nextLeaf
  split <;> rfl

theorem State.nextLeaf_left (s : State) (k : Nat) (l m : Option Firmware) : (s.nextLeaf k l m).mgmt.left = s.mgmt.left := by
  unfold State.nextLeaf
  split <;> rfl

section
variable {s : State} {k : Nat} {leafs micro : Option Firmware} (h : s.mgmt.leaf = some (k, leafs, micro))
include h

theorem execLeafUpdateCluster_drains (hd : (s.cluster k).drain = none) :
    exec (.leafUpdateCluster k) s = .next (s.modCluster k fun x => { x with drain := some s.clock }) := by
  show execLeafUpdateCluster k s = _
  simp [execLeafUpdateCluster, h, hd]

theorem execLeafUpdateCluster_empty (hd : (s.cluster k).drain ≠ none) (he : s.clusterEmpty k = true) :
    exec (.leafUpdateCluster k) s = .next ((s.modCluster k fun x =>
      { x with drain := none, leaf := leafs.getD x.leaf, microcode := micro.getD x.microcode }).nextLeaf k leafs micro) := by
  show execLeafUpdateCluster k s = _
  simp [execLeafUpdateCluster, h, hd, he]

theorem execLeafDrainTimeout_overdue {since : Nat} (hd : (s.cluster k).drain = some since) (hc : since + 2 ^ 36 ≤ s.clock) :
    exec (.leafDrainTimeout k) s = .next (((s.modCluster k fun x => { x with drain := none }).modMgmt fun m =>
      { m with left := m.left ++ [k] }).nextLeaf k leafs micro) := by
  have due : s.drainOverdue k = true := by simpa [State.drainOverdue, h, hd] using hc
  show execLeafDrainTimeout k s = _
  simp [execLeafDrainTimeout, h, due]

end

/-! ### Scheduler cores (R49, R415) -/

theorem execSchedulerHandover_sound {s : State} {v : Firmware} (h : s.mgmt.scheduler = some v) (hf : s.mgmt.failed = 0) :
    exec .schedulerHandover s
      = .next (s.modMgmt fun m => { m with scheduler := none, spare := !m.spare, runs := Cells.set {} m.runs 2 v }) := by
  show execSchedulerHandover s = _
  simp [execSchedulerHandover, State.handoverDue, h, hf]

theorem execSchedulerHandover_failed {s : State} (hf : s.mgmt.failed ≠ 0) : exec .schedulerHandover s = .next s := by
  show execSchedulerHandover s = _
  unfold execSchedulerHandover
  split
  · simp [State.handoverDue, hf]
  · rfl

/-! ### Cores and channels that are mapped out (R416) -/

theorem execCoreMapOut_idle {s : State} {core : Nat} (hs : core ∉ s.mgmt.sick) (hd : Cells.get none s.mgmt.draining core = none) :
    exec (.coreMapOut core) s = .next s := by
  show execCoreMapOut core s = _
  simp [execCoreMapOut, hs, hd]

/-- A core whose counters call for it is mapped out once it is empty, given up once it has been drained for too long, and else drained. -/
theorem execCoreMapOut_called {s : State} {core : Nat} (ho : core ∉ s.mgmt.coresOut)
    (hc : core ∈ s.mgmt.sick ∨ Cells.get none s.mgmt.draining core ≠ none) : exec (.coreMapOut core) s
    = if s.coreEmpty core then .next (s.modMgmt fun m =>
        { m with coresOut := core :: m.coresOut, draining := Cells.erase m.draining core, sick := m.sick.filter (· != core) })
      else if s.coreOverdue core then
        .next (s.modMgmt fun m => { m with draining := Cells.erase m.draining core, sick := m.sick.filter (· != core) })
      else if (Cells.get none s.mgmt.draining core).isSome then .next s
      else .next (s.modMgmt fun m => { m with draining := Cells.set none m.draining core (some s.clock) }) := by
  have go : (s.mgmt.coresOut.contains core || (!s.mgmt.sick.contains core && (Cells.get none s.mgmt.draining core).isNone)) = false := by
    rcases hc with hc | hc
    · simp [ho, hc]
    · cases hd : Cells.get none s.mgmt.draining core with
      | none => exact absurd hd hc
      | some c => simp [ho]
  show execCoreMapOut core s = _
  rw [execCoreMapOut, go, if_neg Bool.false_ne_true]

theorem State.coreOverdue_eq {s : State} {core c : Nat} (he : s.coreEmpty core = false)
    (hd : Cells.get none s.mgmt.draining core = some c) :
    s.coreOverdue core = decide (c + 2 ^ 36 ≤ s.clock) := by
  simp [State.coreOverdue, hd, he]

theorem State.coreOverdue_of_none {s : State} {core : Nat} (hd : Cells.get none s.mgmt.draining core = none) :
    s.coreOverdue core = false := by
  simp [State.coreOverdue, hd]

section
variable {s : State} {core : Nat} (ho : core ∉ s.mgmt.coresOut)
include ho

theorem execCoreMapOut_empty (called : core ∈ s.mgmt.sick ∨ Cells.get none s.mgmt.draining core ≠ none)
    (he : s.coreEmpty core = true) :
    ∃ t, exec (.coreMapOut core) s = .next t ∧ core ∈ t.mgmt.coresOut ∧ Cells.get none t.mgmt.draining core = none := by
  rw [execCoreMapOut_called ho called, if_pos he]
  exact ⟨_, rfl, List.mem_cons_self .., by simp [Cells.get_erase]⟩

theorem execCoreMapOut_drains (called : core ∈ s.mgmt.sick ∨ Cells.get none s.mgmt.draining core ≠ none)
    (he : s.coreEmpty core = false)
    (hd : Cells.get none s.mgmt.draining core = none) : ∃ t, exec (.coreMapOut core) s = .next t
      ∧ Cells.get none t.mgmt.draining core = some s.clock ∧ t.mgmt.coresOut = s.mgmt.coresOut := by
  rw [execCoreMapOut_called ho called, he, State.coreOverdue_of_none hd, hd]
  exact ⟨_, rfl, Cells.get_set_self none s.mgmt.draining core (some s.clock), rfl⟩

variable {c : Nat} (he : s.coreEmpty core = false) (hd : Cells.get none s.mgmt.draining core = some c)
include he hd

theorem execCoreMapOut_waits (hl : s.clock < c + 2 ^ 36) : exec (.coreMapOut core) s = .next s := by
  rw [execCoreMapOut_called ho (.inr (by simp [hd])), he, State.coreOverdue_eq he hd, decide_eq_false (Nat.not_le.mpr hl), hd]
  rfl

theorem execCoreMapOut_overdue (hl : c + 2 ^ 36 ≤ s.clock) : ∃ t, exec (.coreMapOut core) s = .next t
    ∧ Cells.get none t.mgmt.draining core = none ∧ core ∉ t.mgmt.sick ∧ t.mgmt.coresOut = s.mgmt.coresOut := by
  rw [execCoreMapOut_called ho (.inr (by simp [hd])), he, State.coreOverdue_eq he hd, decide_eq_true hl]
  exact ⟨_, rfl, by simp [Cells.get_erase], by simp, rfl⟩

end

theorem execDramRowSpare_cold {s : State} {ch : Nat} (row : Nat) (h : ch ∉ s.mgmt.hot) : exec (.dramRowSpare ch row) s = .next s :=
  if_neg (by rwa [List.contains_iff_mem])

/-- A row of a channel whose counter calls for it is moved to a spare row. -/
theorem execDramRowSpare_hot {s : State} {ch : Nat} (row : Nat) (h : ch ∈ s.mgmt.hot) :
    ∃ t, exec (.dramRowSpare ch row) s = .next t ∧ (ch, row) ∈ t.mgmt.rows ∧ ch ∉ t.mgmt.hot := by
  refine ⟨_, if_pos (List.contains_iff_mem.mpr h), ?_, by simp⟩
  rw [State.modMgmt_mgmt]
  dsimp only
  split
  · exact List.contains_iff_mem.mp ‹_›
  · exact List.mem_cons_self ..

theorem execChannelMapOut_out {s : State} {ch : Nat} (h : ch < 1152) :
    ∃ t, exec (.channelMapOut ch) s = .next t ∧ ch ∈ t.mgmt.channelsOut := by
  by_cases ho : ch ∈ s.mgmt.channelsOut
  · exact ⟨s, if_neg (by simp [ho]), ho⟩
  · exact ⟨_, if_pos ⟨h, by simp [ho]⟩, List.mem_cons_self ..⟩

/-! ### Quarters that are recalibrated (R416) -/

theorem execQuarterRecalibrate_idle {s : State} {q : Nat} (h : q ∉ s.mgmt.slow) : exec (.quarterRecalibrate q) s = .next s :=
  if_neg (by rwa [List.contains_iff_mem])

/-- A quarter whose replays call for it is recalibrated for up to 10,000 cycles. -/
theorem execQuarterRecalibrate_slow {s : State} {q : Nat} (h : q ∈ s.mgmt.slow) : ∃ t, exec (.quarterRecalibrate q) s = .next t
    ∧ s.clock ≤ Cells.get 0 t.mgmt.recal q ∧ Cells.get 0 t.mgmt.recal q ≤ s.clock + 10000 ∧ q ∉ t.mgmt.slow ∧ t.courses = s.courses := by
  refine ⟨_, if_pos (List.contains_iff_mem.mpr h), ?_⟩
  simp only [State.modMgmt_mgmt, Cells.get_set_self]
  exact ⟨by omega, by omega, by simp, rfl⟩

/-! ### The controller restarts (R412) -/

theorem State.restartController_waiting {s : State} {v : Firmware} (h : s.mgmt.controller = some v) :
    s.restartController = s.modMgmt fun m => { m with controller := none, runs := Cells.set {} m.runs 0 v } := by
  simp only [State.restartController, State.modMgmt, h]

theorem perform_restart (s : State) : perform s .restart = .next s.restartController := rfl

end Sys2Proof.Machine
end

section
/-!
SUPPORT. Laws of many lines that are written back and leave L2: what L2 then holds, and what is in memory of a line that did (R255, R416).
-/

namespace Sys2Proof.Machine

/-! ### Lines that leave -/

/-- Of lines that leave one after another, L2 holds none, and no other comes in. -/
theorem foldl_flushLine_keys (l : List (Nat × List Byte)) {s : State} {e : Nat × List Byte}
    (h : e ∈ (l.foldl (fun t x => t.flushLine x.1) s).wb) : e.1 ∈ s.wb.map (·.1) ∧ e.1 ∉ l.map (·.1) := by
  induction l generalizing s with
  | nil => exact ⟨List.mem_map_of_mem h, List.not_mem_nil⟩
  | cons x l ih =>
    obtain ⟨hm, hn⟩ := ih h
    obtain ⟨e', he', heq⟩ := List.mem_map.mp hm
    obtain ⟨hk, hx⟩ := State.flushLine_keys he'
    rw [heq] at hk hx
    exact ⟨hk, by simp [hx, hn]⟩

/-- A line that L2 holds after a flush lies where the flush did not reach. -/
theorem State.flushWhere_keys {s : State} {p : Nat → Bool} {e : Nat × List Byte} (h : e ∈ (s.flushWhere p).wb) :
    p (128 * e.1) = false := by
  obtain ⟨hm, hn⟩ := foldl_flushLine_keys _ h
  obtain ⟨x, hx, heq⟩ := List.mem_map.mp hm
  by_contra hp
  exact hn (List.mem_map.mpr ⟨x, List.mem_filter.mpr ⟨hx, by rw [heq]; simpa using hp⟩, heq⟩)

@[simp] theorem State.cleanWhere_wb (s : State) (p : Nat → Bool) : (s.cleanWhere p).wb = s.wb :=
  foldl_same State.wb (fun (t : State) (e : Nat × List Byte) => t.cleanLine e.1) _ (fun t e => t.cleanLine_wb e.1) s

/-! ### What a write-back leaves -/

/-- Bytes that go to memory itself change memory alone. -/
theorem State.storeBytes_uc (s : State) (pa : Nat) (bs : List Byte) : ∃ m, s.storeBytes 2 pa bs = { s with mem := m } := by
  induction bs generalizing s pa with
  | nil => exact ⟨s.mem, rfl⟩
  | cons b bs ih =>
    obtain ⟨m, e⟩ := ih (s.setMemByte pa b) (pa + 1)
    exact ⟨m, e⟩

@[simp] theorem State.cleanLine_stream (s : State) (ln : Nat) : (s.cleanLine ln).stream = s.stream := by
  unfold State.cleanLine
  split
  · rfl
  · split
    · rfl
    · obtain ⟨m, e⟩ := s.storeBytes_uc (128 * ln) (Cells.get [] s.wb ln)
      rw [e]
      rfl

theorem State.cleanLine_tag_other (s : State) {ln l : Nat} (h : l ≠ ln) : (s.cleanLine ln).tag l = s.tag l := by
  unfold State.cleanLine
  split
  · rfl
  · split
    · rfl
    · obtain ⟨m, e⟩ := s.storeBytes_uc (128 * ln) (Cells.get [] s.wb ln)
      rw [e]
      simp only [State.tag, Cells.get_update, if_neg h]

/-- Memory holds of a byte what it had, or what the byte read as. -/
theorem Bytes.memByte_cleanLine_cases {s : State} (h : Bytes s) {ln : Nat} (hs : s.soleLine ln) (pa : Nat) :
    (s.cleanLine ln).memByte pa = s.memByte pa ∨ (s.cleanLine ln).memByte pa = s.wbByte pa := by
  by_cases hp : pa / 128 = ln
  · cases hl : s.inL2 ln with
    | false => exact .inl (by rw [State.cleanLine_of_absent hl])
    | true =>
      cases hc : (s.tag ln).clean with
      | true => exact .inl (by rw [State.cleanLine_of_clean hc])
      | false => exact .inr (h.memByte_cleanLine_line hs (fun _ => hc) hp)
  · exact .inl (h.memByte_cleanLine_other hs hp)

/-- A line that leaves changes what no byte of another line reads as. -/
theorem Bytes.wbByte_flushLine_other {s : State} (h : Bytes s) {ln : Nat} (hs : s.soleLine ln) {pa : Nat} (hp : pa / 128 ≠ ln) :
    (s.flushLine ln).wbByte pa = s.wbByte pa := by
  have stream : Bytes (s.flushStream ln) ∧ (s.flushStream ln).aside = s.aside ∧ (s.flushStream ln).wbByte pa = s.wbByte pa := by
    refine List.foldlRecOn (motive := fun t : State => Bytes t ∧ t.aside = s.aside ∧ t.wbByte pa = s.wbByte pa) _ _ ⟨h, rfl, rfl⟩ ?_
    rintro t ⟨ht, ha, hb⟩ x hx
    have e : x.line = ln := by simpa using (List.mem_filter.mp hx).2
    refine ⟨ht.writeStream x, (t.writeStream_aside x).trans ha, ?_⟩
    rw [ht.wbByte_writeStream (e ▸ hs.aside ha), if_neg (fun c => hp (c.1.trans e)), hb]
  obtain ⟨hb, ha, hw⟩ := stream
  have forget : ∀ t : State, (t.forgetLine ln).wbByte pa = t.wbByte pa := fun t => by
    simp only [State.wbByte, State.forgetLine, Cells.get_erase, if_neg hp]
    rfl
  rw [State.flushLine, forget, State.writeBackLine, hb.wbByte_cleanLine (hs.aside ha), hw]

/-- A byte of a line that left reads as memory does. -/
theorem State.wbByte_flushLine_self (s : State) (pa : Nat) : (s.flushLine (pa / 128)).wbByte pa = (s.flushLine (pa / 128)).memByte pa :=
  wbByte_none (by simp [State.flushLine, State.forgetLine, Cells.get_erase])

/-- The lines of which there are STREAM copies after a line left were among those before. -/
theorem State.flushLine_stream {s : State} {ln : Nat} {y : StreamLine} (h : y ∈ (s.flushLine ln).stream) :
    y.line ∈ s.stream.map (·.line) := by
  have write : ∀ (t : State) (x : StreamLine), (t.writeStream x).stream.map (·.line) = t.stream.map (·.line) := by
    intro t x
    have e : (t.writeStream x).stream = t.stream.map fun y => if y == x then { y with changed := 0 } else y := by
      unfold State.writeStream
      dsimp only
      split
      · rfl
      · split
        · exact foldl_same State.stream (fun (t : State) i => t.setWbByte (128 * x.line + i) (x.bytes.getD i 0)) _ (fun _ _ => rfl) _
        · exact foldl_same State.stream (fun (t : State) i => t.setMemByte (128 * x.line + i) (x.bytes.getD i 0)) _ (fun _ _ => rfl) _
    rw [e, List.map_map]
    refine List.map_congr_left fun y _ => ?_
    simp only [Function.comp]
    split <;> rfl
  have flush : (s.flushStream ln).stream.map (·.line) = s.stream.map (·.line) :=
    foldl_same (fun t : State => t.stream.map (·.line)) _ _ (fun t x => write t x) s
  have hy := (List.mem_filter.mp (show y ∈ ((s.flushStream ln).cleanLine ln).stream.filter fun x => x.line != ln from h)).1
  rw [State.cleanLine_stream] at hy
  rw [← flush]
  exact List.mem_map_of_mem hy

/-! ### One byte, while lines of the device are written back and leave -/

section
variable {s : State} (one : s.oneView) {pa : Nat} {v : Byte}
include one

theorem State.oneView.soleLine (ln : Nat) : s.soleLine ln := fun a b _ k => one a b k

/-- Between `s` and `t` only lines were written back and left, and a byte reads as `v` throughout. -/
structure ReadsAs (s : State) (pa : Nat) (v : Byte) (t : State) : Prop where
  bytes : Bytes t
  aside : t.aside = s.aside
  reads : t.wbByte pa = v

omit one in
theorem ReadsAs.refl (h : Bytes s) : ReadsAs s pa (s.wbByte pa) s := ⟨h, rfl, rfl⟩

theorem ReadsAs.cleanLine {t : State} (h : ReadsAs s pa v t) (ln : Nat) : ReadsAs s pa v (t.cleanLine ln) :=
  ⟨h.bytes.cleanLine ln, (t.cleanLine_aside ln).trans h.aside,
    (h.bytes.wbByte_cleanLine ((one.soleLine ln).aside h.aside) pa).trans h.reads⟩

/-- Once memory holds the byte, it goes on holding it. -/
theorem ReadsAs.memByte_cleanLine {t : State} (h : ReadsAs s pa v t) (hm : t.memByte pa = v) (ln : Nat) : (t.cleanLine ln).memByte pa = v :=
  (h.bytes.memByte_cleanLine_cases ((one.soleLine ln).aside h.aside) pa).elim (·.trans hm) (·.trans h.reads)

/-- A dirty line's write-back brings the byte to memory. -/
theorem ReadsAs.memByte_cleanLine_dirty {t : State} (h : ReadsAs s pa v t) (hd : (t.tag (pa / 128)).clean = false) :
    (t.cleanLine (pa / 128)).memByte pa = v :=
  (h.bytes.memByte_cleanLine_line ((one.soleLine _).aside h.aside) (fun _ => hd) rfl).trans h.reads

/-- A byte of a dirty line, or of one that L2 does not hold, is in memory once the lines around it are written back. -/
theorem ReadsAs.cleanWhere {p : Nat → Bool} (h : Bytes s) (hp : p (128 * (pa / 128)) = true) (hd : (s.tag (pa / 128)).clean = false) :
    ReadsAs s pa (s.wbByte pa) (s.cleanWhere p) ∧ (s.cleanWhere p).memByte pa = s.wbByte pa := by
  have after : ∀ (t : State) (e : Nat × List Byte), ReadsAs s pa (s.wbByte pa) t ∧ t.memByte pa = s.wbByte pa →
      ReadsAs s pa (s.wbByte pa) (t.cleanLine e.1) ∧ (t.cleanLine e.1).memByte pa = s.wbByte pa :=
    fun t e h => ⟨h.1.cleanLine one e.1, h.1.memByte_cleanLine one h.2 e.1⟩
  by_cases hl : Cells.get [] s.wb (pa / 128) = []
  · exact foldl_keeps (P := fun t => ReadsAs s pa (s.wbByte pa) t ∧ t.memByte pa = s.wbByte pa) _ _ after s
      ⟨.refl h, (wbByte_none hl).symm⟩
  · have mem : (pa / 128, Cells.get [] s.wb (pa / 128)) ∈ s.wb.filter fun e => p (128 * e.1) := List.mem_filter.mpr ⟨get_mem rfl hl, hp⟩
    have dirty : ∀ t : State, ReadsAs s pa (s.wbByte pa) t ∧ (t.memByte pa = s.wbByte pa ∨ (t.tag (pa / 128)).clean = false) →
        (t.cleanLine (pa / 128)).memByte pa = s.wbByte pa :=
      fun t h => h.2.elim (fun hm => h.1.memByte_cleanLine one hm _) fun hd => h.1.memByte_cleanLine_dirty one hd
    refine foldl_reaches (Q := fun t => ReadsAs s pa (s.wbByte pa) t ∧ (t.memByte pa = s.wbByte pa ∨ (t.tag (pa / 128)).clean = false))
      (P := fun t => ReadsAs s pa (s.wbByte pa) t ∧ t.memByte pa = s.wbByte pa) _ mem ?_ after ?_ ⟨.refl h, .inr hd⟩
    · rintro t ⟨ln, _⟩ ⟨hr, hq⟩
      refine ⟨hr.cleanLine one ln, ?_⟩
      by_cases hln : pa / 128 = ln
      · subst hln
        exact .inl (dirty t ⟨hr, hq⟩)
      · exact hq.imp (fun hm => hr.memByte_cleanLine one hm ln) fun hd => by rwa [State.cleanLine_tag_other _ hln]
    · exact fun t h => ⟨h.1.cleanLine one _, dirty t h⟩

/-- A byte that memory holds, of a line without STREAM copies, is in memory however lines leave. -/
theorem ReadsAs.flushWhere {t : State} (h : ReadsAs s pa v t) (hm : t.memByte pa = v) (hno : ∀ y ∈ t.stream, y.line ≠ pa / 128)
    (p : Nat → Bool) : (t.flushWhere p).memByte pa = v := by
  have flush : ∀ (u : State) (e : Nat × List Byte), ReadsAs s pa v u ∧ u.memByte pa = v ∧ (∀ y ∈ u.stream, y.line ≠ pa / 128) →
      ReadsAs s pa v (u.flushLine e.1) ∧ (u.flushLine e.1).memByte pa = v ∧ ∀ y ∈ (u.flushLine e.1).stream, y.line ≠ pa / 128 := by
    rintro u ⟨ln, _⟩ ⟨hr, hm, hno⟩
    have sole := (one.soleLine ln).aside hr.aside
    have none : ∀ y ∈ (u.flushLine ln).stream, y.line ≠ pa / 128 := fun y hy => by
      obtain ⟨x, hx, e⟩ := List.mem_map.mp (State.flushLine_stream hy)
      exact e ▸ hno x hx
    by_cases hp : pa / 128 = ln
    · subst hp
      have hm' : (u.flushLine (pa / 128)).memByte pa = v := by
        rw [hr.bytes.memByte_flushLine_held sole hno rfl]
        split
        · exact hm
        · exact hr.reads
      exact ⟨⟨hr.bytes.flushLine _, (u.flushLine_aside _).trans hr.aside, (u.wbByte_flushLine_self pa).trans hm'⟩, hm', none⟩
    · exact ⟨⟨hr.bytes.flushLine _, (u.flushLine_aside _).trans hr.aside, (hr.bytes.wbByte_flushLine_other sole hp).trans hr.reads⟩,
        (hr.bytes.memByte_flushLine_other sole hp).trans hm, none⟩
  exact (foldl_keeps (P := fun u => ReadsAs s pa v u ∧ u.memByte pa = v ∧ ∀ y ∈ u.stream, y.line ≠ pa / 128) _ _ flush t ⟨h, hm, hno⟩).2.1

end

@[simp] theorem State.cleanWhere_stream (s : State) (p : Nat → Bool) : (s.cleanWhere p).stream = s.stream :=
  foldl_same State.stream (fun (t : State) (e : Nat × List Byte) => t.cleanLine e.1) _ (fun t e => t.cleanLine_stream e.1) s

/-! ### A slice that is degraded -/

theorem mem_noteUnit (l : List Nat) (n : Nat) : n ∈ noteUnit l n true := by
  unfold noteUnit
  by_cases h : n ∈ l
  · simp [h]
  · simp [h]

/-- A slice whose containment has not settled is noted; nothing else happens (R388). -/
theorem execL2SliceDegrade_waits {s : State} {n : Nat} (hn : n < 144) (hs : n ∉ s.mgmt.slices) (hc : s.containing n = true) :
    exec (.l2SliceDegrade n) s = .next (s.modMgmt fun m => { m with failing := noteUnit m.failing n true }) := by
  have go : ¬(144 ≤ n ∨ s.mgmt.slices.contains n = true) := by
    rw [List.contains_iff_mem]
    exact not_or.mpr ⟨by omega, hs⟩
  show execL2SliceDegrade n s = _
  rw [execL2SliceDegrade, if_neg go, if_pos hc]

/-- Else its lines are written back and leave it, but for those that are pinned (R416). -/
theorem execL2SliceDegrade_degrades {s : State} {n : Nat} (hn : n < 144) (hs : n ∉ s.mgmt.slices) (hc : s.containing n = false) :
    exec (.l2SliceDegrade n) s = .next (((s.cleanWhere fun pa => s.slice (pa / 128) == n).flushWhere fun pa =>
      s.slice (pa / 128) == n && !s.pinned (pa / 128)).modMgmt fun m => { m with
        slices := n :: m.slices, failing := m.failing.filter (· != n), contained := m.contained.filter (·.1 != n) }) := by
  have go : ¬(144 ≤ n ∨ s.mgmt.slices.contains n = true) := by
    rw [List.contains_iff_mem]
    exact not_or.mpr ⟨by omega, hs⟩
  show execL2SliceDegrade n s = _
  rw [execL2SliceDegrade, if_neg go, hc, if_neg Bool.false_ne_true]

end Sys2Proof.Machine
end

section
/-!
The statement of the management controller's events.
-/

namespace Sys2Proof.Machine

/-! ### The unit that a boot comes to -/

section
variable {s : State} {u : BootUnit} {us : List BootUnit} (hr : s.mgmt.running = false) (hn : s.mgmt.nextUnit = (u.step, u.unit))
include hr hn

theorem bootUnits_stops (hw : s.mgmt.wayOf u.step u.unit = none) :
    (s.bootUnits (u :: us)).mgmt.stopped = true ∧ (s.bootUnits (u :: us)).mgmt.journal = s.mgmt.journal := by
  rw [State.bootUnits_no_way hr hn hw]
  exact ⟨rfl, rfl⟩

variable {way : Nat} (hw : s.mgmt.wayOf u.step u.unit = some way)
include hw

theorem bootUnits_waits (hp : s.mgmt.trial u way ≠ .pass) :
    (s.bootUnits (u :: us)).mgmt.journal.head? = some (s.mgmt.entry u way) ∧ (s.bootUnits (u :: us)).mgmt.running = false
      ∧ (s.bootUnits (u :: us)).mgmt.step = s.mgmt.step ∧ (s.bootUnits (u :: us)).mgmt.unit = s.mgmt.unit := by
  rw [State.bootUnits_not_passed hr hn hw hp]
  exact ⟨Mgmt.noted_head .., hr, rfl, rfl⟩

/-- A unit that passes, by itself. -/
theorem bootUnits_one (hp : s.mgmt.trial u way = .pass) : s.bootUnits [u] = s.unitPassed u way := State.bootUnits_passed hr hn hw hp

theorem unitPassed_running : (s.unitPassed u way).mgmt.running = true ↔ u.step = 10 ∧ u.unit = 11 :=
  State.bootEffect_running hr (fun h => Mgmt.nextUnit_cluster (h ▸ hn)) fun h e => absurd (Mgmt.wayOf_skip (e ▸ hw)) (by omega)

/-- What the verification of the images leaves of those that run. -/
theorem bootUnits_runs (h1 : u.step = 1) (h2 : way ≠ 2) (hp : trialOf u way = .pass) (c : Nat) :
    Cells.get {} (s.bootUnits [u]).mgmt.runs c
      = if soundBank (s.mgmt.bankOf way) = false then Cells.get {} s.mgmt.runs c
        else if c = 0 ∧ s.mgmt.controller.isSome = true then s.mgmt.controller.getD {} else Cells.get {} (s.mgmt.bankOf way) c := by
  have trial := s.mgmt.trial_eq u way
  cases hs : soundBank (s.mgmt.bankOf way) with
  | false =>
    rw [if_neg h2, if_pos ⟨h1, hp, hs⟩] at trial
    rw [State.bootUnits_not_passed hr hn hw (by rw [trial]; decide)]
    rfl
  | true =>
    rw [if_neg h2, if_neg (by simp [hs]), hp] at trial
    rw [bootUnits_one hr hn hw trial, unitPassed_runs h1 h2]
    rfl

end

/-! ### Images that are ready -/

theorem Mgmt.activation_fuse (m : Mgmt) :
    m.fuse ≤ m.activation.fuse ∧ (∀ c v, c < 4 → m.ready c = some v → v.version ≤ m.activation.fuse)
      ∧ (m.activation.fuse = m.fuse ∨ ∃ c < 4, (m.ready c).map (·.version) = some m.activation.fuse) := by
  obtain ⟨first, rest, one⟩ := foldl_max_spec m.readyVersions m.fuse
  exact ⟨first, fun c v hc hv => rest _ (Mgmt.mem_readyVersions.mpr ⟨c, hc, by rw [hv]; rfl⟩), one.imp_right Mgmt.mem_readyVersions.mp⟩

theorem Mgmt.activation_leaf {m : Mgmt} {v : Firmware} (h : m.ready 1 = some v) :
    m.activation.leaf.map (fun e => (e.1, e.2.1)) = some (0, some v) := by
  simp [Mgmt.activation, Mgmt.rolls, h]

theorem Mgmt.activation_microcode {m : Mgmt} {v : Firmware} (h : m.ready 3 = some v) :
    m.activation.leaf.map (fun e => (e.1, e.2.2)) = some (0, some v) := by
  simp [Mgmt.activation, Mgmt.rolls, h]

/-- Settles O55: each event's clause from the lemma about its function; a boot's from what one unit's step does, and a slice's lines are
in memory by the laws of lines that are written back and leave. -/
theorem managementEvents : Obligations.ManagementEvents := by
  unfold Obligations.ManagementEvents
  intro s m answers replies
  refine ⟨fun us => execBoot_leaves us s, fun h us => State.bootUnits_of_running h, fun u us hr => ?unit, fun step unit h => ?clear,
    fun v hv => ?restart, fun h => ⟨?statusStopped, ?measurementsStopped⟩, fun h => ?takeover, fun h => ?noTakeover, fun hs => ?update,
    fun k leafs micro h => ?rolling, fun v hv hf => ?handover, fun hf => execSchedulerHandover_failed hf, fun core hc => ?core,
    fun ch row => ?channel, fun n hn hs => ?slice, fun q => ?quarter⟩
  case unit =>
    intro count next
    have same : next = m.nextUnit := by
      rw [Mgmt.nextUnit, bootCount_eq]
    refine ⟨fun h => State.bootUnits_of_other (same ▸ h), fun h => ?_⟩
    have hn : m.nextUnit = (u.step, u.unit) := same ▸ h
    intro t
    refine ⟨fun hw => bootUnits_stops hr hn hw, fun way hw => ?_⟩
    intro bank sound r0 r noted
    have trial : m.trial u way = r := m.trial_eq u way
    have note : ∀ n : Mgmt, n.journal.head? = some (m.entry u way) → noted n := fun n h => by
      rw [Mgmt.entry, trial] at h
      exact h
    have skips : ∀ {k}, u.step = k → k ≠ 7 → k ≠ 8 → way ≠ 2 := fun hk h7 h8 e => by
      have := Mgmt.wayOf_skip (e ▸ hw)
      omega
    refine ⟨fun hp => ?_, fun hp => ?_, fun h1 h2 hp => bootUnits_runs hr hn hw h1 h2 hp⟩
    · obtain ⟨hj, hrun, hstep, hunit⟩ := bootUnits_waits (us := us) hr hn hw (trial.symm ▸ hp)
      exact ⟨note _ hj, hrun, hstep, hunit⟩
    · intro v
      have one : v = s.unitPassed u way := bootUnits_one hr hn hw (trial.trans hp)
      have all : t = v.bootUnits us := by rw [one]; exact State.bootUnits_passed hr hn hw (trial.trans hp)
      refine ⟨all, ?_⟩
      rw [one]
      refine ⟨note _ (Mgmt.noted_head _ _ u), rfl, rfl, unitPassed_running hr hn hw, fun h3 => ?_, fun h4 => ?_,
        fun h7 h2 => unitPassed_pool h7 h2,
        fun h10 => unitPassed_leaf h10 (skips h10 (by decide) (by decide))⟩
      · rw [unitPassed_channels hw h3, ← h3]
        exact mark_way hw _
      · rw [unitPassed_cores hw h4, ← h4]
        exact mark_way hw _
  case clear =>
    refine ⟨_, if_pos h, List.mem_cons_self ..⟩
  case restart => exact ⟨_, (perform_restart s).trans (congrArg _ (State.restartController_waiting hv)), rfl, Cells.get_set_self .., rfl⟩
  case statusStopped => exact congrArg _ (State.answer_stopped h _)
  case measurementsStopped => exact congrArg _ (State.answer_stopped h _)
  case takeover => exact if_pos h
  case noTakeover => exact if_neg (ne_true_of_eq_false h)
  case update =>
    have said : ∀ x, s.answer x = s.withMessage x := State.answer_running hs
    refine ⟨fun hu => ⟨_, execRequestUpdate_idle hs hu, rfl, rfl, rfl⟩, fun hu => ⟨_, execRequestUpdate_busy hs hu, rfl, rfl⟩,
      fun cs hu => ⟨_, execPassComponentTable_updating hs cs hu, rfl, rfl⟩,
      fun comp image hu hc => ⟨_, execUpdateComponent_listed hs hu hc, Mgmt.image_setImage _ rfl, rfl⟩,
      fun comp x hx => ?component, fun hu ha => ?activate, congrArg _ (said _), fun hu => ?cancel, congrArg _ (said _), congrArg _ (said _),
      fun n => congrArg _ (said _), congrArg _ (said _)⟩
    case component =>
      have hc := Mgmt.image_comp hx
      intro inactive
      have bank : ∀ t : State, t.mgmt.inB comp = m.inB comp → inactive t = t.mgmt.inactive comp := fun t h => Mgmt.inactive_eq h
      refine ⟨⟨_, execTransferComplete_staged hs hx, ?_, ?_, rfl⟩, fun version => ?_, fun hv => ?_⟩
      · exact (Mgmt.stage_image ..).trans (Mgmt.image_setImage _ hc)
      · refine (bank _ (Mgmt.stage_inB ..)).trans ?_
        exact (Mgmt.inactive_stage ..).trans (if_pos rfl)
      · intro ok
        have verified : m.verified comp version = ok := Mgmt.verified_eq hx version
        cases hok : ok with
        | true =>
          refine ⟨_, execVerifyComplete_ok hs hx (verified.trans hok), rfl, Mgmt.stage_runs .., ?_, fun _ => ?_⟩
          · exact (Mgmt.stage_image ..).trans (Mgmt.image_setImage _ hc)
          · refine (bank _ (Mgmt.stage_inB ..)).trans ?_
            exact (Mgmt.inactive_stage ..).trans (if_pos rfl)
        | false =>
          refine ⟨_, execVerifyComplete_failed hs (verified.trans hok), rfl, Mgmt.unstage_runs .., Mgmt.image_unstage .., fun ht => ?_⟩
          exact (bank _ (Mgmt.unstage_inB ..)).trans (Mgmt.inactive_unstage hx ht)
      · exact ⟨_, execApplyComplete_verified hs hx hv, Mgmt.image_setImage _ hc, rfl⟩
    case activate =>
      obtain ⟨t, e, ht, hm⟩ := execActivateFirmware_applied hs hu ha
      obtain ⟨first, rest, one⟩ := Mgmt.activation_fuse m
      refine ⟨t, e, hm, ?_⟩
      rw [ht]
      refine ⟨rfl, rfl, rfl, first, rest, one, fun v hv => ?_, fun v hv => ?_, fun v hv => Mgmt.activation_leaf hv,
        fun v hv => Mgmt.activation_microcode hv, fun hb c hc => Mgmt.mem_activated hb hc⟩
      · show (m.ready 0).orElse _ = _
        rw [hv]
        rfl
      · show (m.ready 2).orElse _ = _
        rw [hv]
        rfl
    case cancel =>
      exact ⟨_, execCancelUpdate_updating hs hu, rfl, by simp [Mgmt.unstage_staged], rfl⟩
  case rolling =>
    refine ⟨fun hd => ⟨_, execLeafUpdateCluster_drains h hd, ?_⟩, fun hd he => ⟨_, execLeafUpdateCluster_empty h hd he, ?_⟩,
      fun since hd hc => ⟨_, execLeafDrainTimeout_overdue h hd hc, ?_⟩⟩
    · rw [State.modCluster_cluster_self]
    · rw [State.cluster_congr (State.nextLeaf_clusters ..), State.modCluster_cluster_self]
      exact ⟨rfl, rfl, rfl⟩
    · rw [State.cluster_congr (State.nextLeaf_clusters ..), State.nextLeaf_left, State.modMgmt_cluster, State.modCluster_cluster_self]
      exact ⟨rfl, rfl, by simp⟩
  case handover => exact ⟨_, execSchedulerHandover_sound hv hf, rfl, rfl, Cells.get_set_self ..⟩
  case core =>
    intro since
    exact ⟨fun hs hd => execCoreMapOut_idle hs hd, fun called => ⟨execCoreMapOut_empty hc called, execCoreMapOut_drains hc called,
      fun c he hd hl => execCoreMapOut_waits hc he hd hl, fun c he hd hl => execCoreMapOut_overdue hc he hd hl⟩⟩
  case channel =>
    exact ⟨execDramRowSpare_cold row, execDramRowSpare_hot row, execChannelMapOut_out⟩
  case slice =>
    refine ⟨fun hc => ⟨_, execL2SliceDegrade_waits hn hs hc, rfl, mem_noteUnit .., rfl⟩, fun hc hwf one =>
      ⟨_, execL2SliceDegrade_degrades hn hs hc, List.mem_cons_self .., fun e he hsl => ?_, fun pa hsl hd hno => ?_⟩⟩
    · have line : 128 * e.1 / 128 = e.1 := by omega
      simpa [line, hsl] using State.flushWhere_keys he
    · obtain ⟨reads, holds⟩ := ReadsAs.cleanWhere one (p := fun pa => s.slice (pa / 128) == n) ((memoryWf_iff s).mp hwf)
        (by rw [show 128 * (pa / 128) / 128 = pa / 128 by omega, hsl]; exact beq_self_eq_true n) hd
      exact reads.flushWhere one holds (by simpa using hno) _
  case quarter => exact ⟨execQuarterRecalibrate_idle, execQuarterRecalibrate_slow⟩

end Sys2Proof.Machine
end

section
/-!
The statement of what reset leaves.
-/

namespace Sys2Proof.Machine

/-- After reset no line is in L2 and no byte of memory has been written, so every byte reads as the fill byte under each policy. -/
theorem reset_readByte (pol pa : Nat) : State.reset.readByte pol pa = Config.memFill := by
  unfold State.readByte
  split <;> rfl

/-- Settles O60: every map of registers is empty at reset, so each register reads as the default of its map, which is the value of its
table; memory is in its canonical form by the laws of memory. -/
theorem resetState : Obligations.ResetState :=
  ⟨fun _ => ⟨rfl, rfl, rfl, rfl, rfl, rfl⟩, rfl, by decide, by decide, by decide, by decide, rfl, rfl, rfl,
    fun _ => ⟨rfl, rfl⟩, fun _ => ⟨rfl, rfl, rfl⟩, rfl, rfl, fun _ => ⟨rfl, rfl, rfl, rfl⟩,
    fun _ => ⟨rfl, rfl, rfl, rfl, rfl, rfl, rfl, rfl⟩, rfl, rfl, rfl, rfl, rfl, reset_memoryWf, reset_padsWf, reset_readByte⟩

end Sys2Proof.Machine
end

section
/-!
SUPPORT. A word that decodes is the encoding of what it decodes to (R68 to R89): each strip of the decoder puts its fields where the
encoder's strip has them, so that the two words agree bit for bit.
-/

namespace Sys2Proof.Laws.RoundTrip

open Machine

/-! ### Words that agree in a range of bits -/

/-- The vector `x` is what stands in `w` from bit `lo` on. -/
def Agrees (x : BitVec n) (w : BitVec 128) (lo : Nat) : Prop := ∀ i < n, x.getLsbD i = w.getLsbD (lo + i)

/-- The vector `x` is the low `n` bits of `w` and zero above. -/
def IsLow (x : BitVec m) (w : BitVec 128) (n : Nat) : Prop := ∀ k < 128, x.getLsbD k = (decide (k < n) && w.getLsbD k)

theorem agrees_append {x : BitVec n} {y : BitVec m} : Agrees (x ++ y) w lo ↔ Agrees x w (lo + m) ∧ Agrees y w lo := by
  constructor
  · refine fun h => ⟨fun i hi => ?_, fun i hi => ?_⟩
    · simpa [BitVec.getLsbD_append, Nat.add_assoc] using h (m + i) (by omega)
    · simpa [BitVec.getLsbD_append, hi] using h i (by omega)
  · rintro ⟨hx, hy⟩ i hi
    rw [BitVec.getLsbD_append]
    split
    case isTrue h => exact hy i h
    case isFalse h => rw [hx (i - m) (by omega), show lo + m + (i - m) = lo + i by omega]

theorem agrees_iff {x : BitVec n} : Agrees x w lo ↔ bits w lo n = x := by
  constructor
  · refine fun h => BitVec.eq_of_getLsbD_eq fun i hi => ?_
    simpa [bits, hi] using (h i hi).symm
  · rintro rfl i hi
    simp [bits, hi]

theorem agrees_bits : Agrees (bits w lo n) w lo := agrees_iff.mpr rfl

theorem agrees_bit : Agrees (BitVec.ofBool (bit w lo)) w lo := by
  intro i hi
  obtain rfl : i = 0 := by omega
  simp [bit]

theorem agrees_true : Agrees 1#1 w lo ↔ bit w lo = true := by
  simp [Agrees, bit]

theorem agrees_false : Agrees 0#1 w lo ↔ bit w lo = false := by
  simp [Agrees, bit]

/-- A type code that names a type is that type's code. -/
theorem tyCode_of_tyOf {n : BitVec 4} {t : ElemTy} (h : tyOf n.toNat = some t) : tyCode t = n := by
  revert h
  revert n t
  decide

theorem agrees_tyCode (h : tyAt w lo = some t) : Agrees (tyCode t) w lo := agrees_iff.mpr (tyCode_of_tyOf h).symm

theorem zeros_iff : zeros w lo n = some () ↔ Agrees 0#n w lo := by
  simp [zeros, agrees_iff]

/-- An S class header: WS, PN and PRED zero (R71). -/
theorem sClass_iff : sClass w = some () ↔ Agrees 0#6 w 10 := by
  simp [sClass, agrees_iff]

theorem lenIs_iff (h : n < 3) : lenIs w n = some () ↔ Agrees (BitVec.ofNat 2 n) w 0 := by
  have : bits w 0 2 = BitVec.ofNat 2 n ↔ (bits w 0 2).toNat = n := by
    rw [← BitVec.toNat_inj]
    simp [Nat.mod_eq_of_lt (show n < 4 by omega)]
  simp only [lenIs, lenOf, agrees_iff, this]
  by_cases hn : (bits w 0 2).toNat = n <;> simp [hn]

/-- The header of a word's own opcode and guard (R70) agrees where WS and the length code do. -/
theorem agrees_encHeader : Agrees (encHeader ws (guardOf w) (opcOf w) len) w 0 ↔ Agrees (BitVec.ofBool ws) w 15 ∧ Agrees len w 0 := by
  simp only [encHeader, guardOf, opcOf]
  rw [agrees_append, agrees_append, agrees_append, agrees_append]
  simp [agrees_bits, agrees_bit]

theorem agrees_encSHeader : Agrees (encSHeader (opcOf w) len) w 0 ↔ Agrees 0#6 w 10 ∧ Agrees len w 0 := by
  rw [show encSHeader (opcOf w) len = 0#6 ++ opcOf w ++ len from rfl, agrees_append, agrees_append]
  simp [opcOf, agrees_bits]

/-! ### Words of one length -/

theorem isLow_of_agrees {x : BitVec n} (h : Agrees x w 0) : IsLow x w n := by
  intro k _
  by_cases hk : k < n
  · simpa [hk] using h k hk
  · simpa [hk] using x.getLsbD_of_ge k (by omega)

theorem isLow_zero_append {x : BitVec m} : IsLow (0#j ++ x) w n ↔ IsLow x w n := by
  have same (k : Nat) : (0#j ++ x).getLsbD k = x.getLsbD k := by
    rw [BitVec.getLsbD_append]
    split
    case isTrue => rfl
    case isFalse h => simpa using (x.getLsbD_of_ge k (by omega)).symm
  simp [IsLow, same]

theorem IsLow.extend {x : BitVec m} (h : IsLow x w n) (hz : Agrees 0#j w n) : IsLow x w (n + j) := by
  intro k hk
  rw [h k hk]
  by_cases hkn : k < n
  · simp [hkn, show k < n + j by omega]
  · by_cases hj : k < n + j
    · have := hz (k - n) (by omega)
      rw [show n + (k - n) = k by omega] at this
      simp [hkn, hj, ← this]
    · simp [hkn, hj]

theorem lenBytes_of_agrees (h : n < 3) (hl : Agrees (BitVec.ofNat 2 n) w 0) : lenBytes (lenOf w) = 8 + 4 * n := by
  rw [lenOf, agrees_iff.mp hl]
  interval_cases n <;> rfl

/-- A 64-bit format or its widened form (R73): the length code is the one named, and the extension word is zero. -/
theorem narrowOrWide_agrees (h : narrowOrWide w = some wide) :
    Agrees (encLen wide) w 0 ∧ ∀ x : BitVec 64, Agrees x w 0 → IsLow x w (8 * lenBytes (lenOf w)) := by
  have hlen : lenOf w = bits w 0 2 := rfl
  unfold narrowOrWide at h
  split at h
  case h_1 h0 =>
    cases h
    have hl : Agrees 0#2 w 0 := (lenIs_iff (n := 0) (by omega)).mp (if_pos h0)
    refine ⟨hl, fun x hx => ?_⟩
    simpa [lenBytes_of_agrees (n := 0) (by omega) hl] using isLow_of_agrees hx
  case h_2 h1 =>
    have hl : Agrees 1#2 w 0 := (lenIs_iff (n := 1) (by omega)).mp (if_pos h1)
    split at h
    case isTrue hz =>
      cases h
      refine ⟨hl, fun x hx => ?_⟩
      simpa [lenBytes_of_agrees (n := 1) (by omega) hl] using (isLow_of_agrees hx).extend (agrees_iff.mpr hz)
    case isFalse => cases h
  case h_3 => cases h

theorem isLow_len1 {x : BitVec n} (hn : n = 96) (hl : Agrees 1#2 w 0) (hx : Agrees x w 0) : IsLow x w (8 * lenBytes (lenOf w)) := by
  simpa [lenBytes_of_agrees (n := 1) (by omega) hl, hn] using isLow_of_agrees hx

theorem isLow_len2 {x : BitVec n} (hn : n = 128) (hl : Agrees 2#2 w 0) (hx : Agrees x w 0) : IsLow x w (8 * lenBytes (lenOf w)) := by
  simpa [lenBytes_of_agrees (n := 2) (by omega) hl, hn] using isLow_of_agrees hx

/-! ### The strips -/

theorem decS3_isLow (h : decS3 w = some o) : IsLow (encRaw (.s3 (opcOf w) o)) w (8 * lenBytes (lenOf w)) := by
  simp only [decS3, Option.bind_eq_bind, Option.bind_eq_some_iff] at h
  obtain ⟨⟨⟩, hs, ⟨⟩, hz, ty, ht, h⟩ := h
  rw [sClass_iff] at hs
  rw [zeros_iff] at hz
  split at h
  case isTrue h63 =>
    simp only [Option.bind_eq_some_iff] at h
    obtain ⟨⟨⟩, hl, ⟨⟩, hb, h⟩ := h
    cases h
    rw [lenIs_iff (by omega)] at hl
    rw [zeros_iff] at hb
    refine isLow_zero_append.mpr (isLow_len1 rfl hl ?_)
    rw [agrees_append, agrees_append]
    simp only [agrees_append]
    simp [agrees_encSHeader, agrees_true, agrees_bits, agrees_tyCode ht, *]
  case isFalse h63 =>
    simp only [Option.bind_eq_some_iff] at h
    obtain ⟨wide, hw, h⟩ := h
    cases h
    obtain ⟨hl, hx⟩ := narrowOrWide_agrees hw
    rw [Bool.not_eq_true, ← agrees_false] at h63
    cases wide
    all_goals
      refine isLow_zero_append.mpr (isLow_zero_append.mpr (hx _ ?_))
      rw [agrees_append]
      simp only [agrees_append]
      simp_all [agrees_encSHeader, agrees_bits, agrees_tyCode ht, encLen]

theorem decP3_isLow (h : decP3 w = some o) : IsLow (encRaw (.p3 (opcOf w) o)) w (8 * lenBytes (lenOf w)) := by
  simp only [decP3, Option.bind_eq_bind, Option.bind_eq_some_iff] at h
  obtain ⟨wide, hw, ⟨⟩, hws, ⟨⟩, hz, h⟩ := h
  cases h
  rw [zeros_iff] at hws hz
  obtain ⟨hl, hx⟩ := narrowOrWide_agrees hw
  refine isLow_zero_append.mpr (hx _ ?_)
  rw [agrees_append]
  simp only [agrees_append]
  simp [agrees_encHeader, agrees_bits, *]

theorem decBr_isLow (h : decBr w = some o) : IsLow (encRaw (.br (opcOf w) o)) w (8 * lenBytes (lenOf w)) := by
  simp only [decBr, Option.bind_eq_bind, Option.bind_eq_some_iff] at h
  obtain ⟨⟨⟩, hs, h⟩ := h
  rw [sClass_iff] at hs
  split at h
  case isTrue h53 =>
    simp only [Option.bind_eq_some_iff] at h
    obtain ⟨⟨⟩, hl, h⟩ := h
    cases h
    rw [lenIs_iff (by omega)] at hl
    refine isLow_zero_append.mpr (isLow_len1 rfl hl ?_)
    rw [agrees_append, agrees_append]
    simp only [agrees_append]
    simp [agrees_encSHeader, agrees_true, agrees_bits, agrees_bit, *]
  case isFalse h53 =>
    simp only [Option.bind_eq_some_iff] at h
    obtain ⟨wide, hw, h⟩ := h
    cases h
    obtain ⟨hl, hx⟩ := narrowOrWide_agrees hw
    rw [Bool.not_eq_true, ← agrees_false] at h53
    refine isLow_zero_append.mpr (isLow_zero_append.mpr (hx _ ?_))
    rw [agrees_append]
    simp only [agrees_append]
    simp [agrees_encSHeader, agrees_bits, agrees_bit, *]

theorem decV3_isLow (h : decV3 w = some o) : IsLow (encRaw (.v3 (opcOf w) o)) w (8 * lenBytes (lenOf w)) := by
  simp only [decV3, Option.bind_eq_bind, Option.bind_eq_some_iff] at h
  obtain ⟨wide, hw, ty, ht, h⟩ := h
  cases h
  obtain ⟨hl, hx⟩ := narrowOrWide_agrees hw
  refine isLow_zero_append.mpr (hx _ ?_)
  rw [agrees_append]
  simp only [agrees_append]
  simp [agrees_encHeader, agrees_bits, agrees_bit, agrees_tyCode ht, *]

theorem decV4_isLow (h : decV4 w = some o) : IsLow (encRaw (.v4 (opcOf w) o)) w (8 * lenBytes (lenOf w)) := by
  simp only [decV4, Option.bind_eq_bind, Option.bind_eq_some_iff] at h
  obtain ⟨⟨⟩, hl, ty, ht, h⟩ := h
  cases h
  rw [lenIs_iff (by omega)] at hl
  refine isLow_zero_append.mpr (isLow_len1 rfl hl ?_)
  rw [agrees_append, agrees_append, agrees_append]
  simp only [agrees_append]
  simp [agrees_encHeader, agrees_bits, agrees_bit, agrees_tyCode ht, *]

theorem decVi_isLow (h : decVi w = some o) : IsLow (encRaw (.vi (opcOf w) o)) w (8 * lenBytes (lenOf w)) := by
  simp only [decVi, Option.bind_eq_bind, Option.bind_eq_some_iff] at h
  obtain ⟨⟨⟩, hl, ⟨⟩, hz, ty, ht, h⟩ := h
  cases h
  rw [lenIs_iff (by omega)] at hl
  rw [zeros_iff] at hz
  refine isLow_zero_append.mpr (isLow_len1 rfl hl ?_)
  rw [agrees_append, agrees_append]
  simp only [agrees_append]
  simp [agrees_encHeader, agrees_bits, agrees_bit, agrees_tyCode ht, *]

theorem decMem_isLow (h : decMem w = some o) : IsLow (encRaw (.mem (opcOf w) o)) w (8 * lenBytes (lenOf w)) := by
  simp only [decMem, Option.bind_eq_bind, Option.bind_eq_some_iff] at h
  obtain ⟨⟨⟩, hl, ⟨⟩, hws, ⟨⟩, hz, ty, ht, h⟩ := h
  cases h
  rw [lenIs_iff (by omega)] at hl
  rw [zeros_iff] at hws hz
  rw [lenBytes_of_agrees (by omega) hl]
  refine isLow_zero_append.mpr (IsLow.extend (n := 88) (isLow_of_agrees ?_) hz)
  rw [agrees_append]
  simp only [agrees_append]
  simp [agrees_encHeader, agrees_bits, agrees_bit, agrees_tyCode ht, *]

theorem decCp_isLow (h : decCp w = some o) : IsLow (encRaw (.cp (opcOf w) o)) w (8 * lenBytes (lenOf w)) := by
  simp only [decCp, Option.bind_eq_bind, Option.bind_eq_some_iff] at h
  obtain ⟨⟨⟩, hl, ⟨⟩, hws, ⟨⟩, hz, ty, ht, h⟩ := h
  cases h
  rw [lenIs_iff (by omega)] at hl
  rw [zeros_iff] at hws hz
  simp only [encRaw]
  refine isLow_len2 rfl hl ?_
  rw [agrees_append]
  simp only [agrees_append]
  simp [agrees_encHeader, agrees_bits, agrees_tyCode ht, *]

theorem decSys_isLow (h : decSys w = some o) : IsLow (encRaw (.sys (opcOf w) o)) w (8 * lenBytes (lenOf w)) := by
  simp only [decSys, Option.bind_eq_bind, Option.bind_eq_some_iff] at h
  obtain ⟨⟨⟩, hs, wide, hw, ⟨⟩, hz, h⟩ := h
  cases h
  rw [sClass_iff] at hs
  rw [zeros_iff] at hz
  obtain ⟨hl, hx⟩ := narrowOrWide_agrees hw
  refine isLow_zero_append.mpr (hx _ ?_)
  rw [agrees_append]
  simp only [agrees_append]
  simp [agrees_encSHeader, agrees_bits, *]

theorem decMx_isLow (h : decMx w = some o) : IsLow (encRaw (.mx (opcOf w) o)) w (8 * lenBytes (lenOf w)) := by
  simp only [decMx, Option.bind_eq_bind, Option.bind_eq_some_iff] at h
  obtain ⟨⟨⟩, hl, ⟨⟩, hws, ⟨⟩, hz, ty, ht, h⟩ := h
  cases h
  rw [lenIs_iff (by omega)] at hl
  rw [zeros_iff] at hws hz
  simp only [encRaw]
  refine isLow_len2 rfl hl ?_
  rw [agrees_append]
  simp only [agrees_append]
  simp [agrees_encHeader, agrees_bits, agrees_tyCode ht, *]

/-- The 56 bits of a half of a PAIR (R82). -/
def encHalf (h : Half) : BitVec 56 :=
  h.mod ++ BitVec.ofBool h.ws ++ BitVec.ofBool h.g.neg ++ h.g.pred ++ tyCode h.ty ++ h.b ++ h.a ++ h.d ++ h.op7

theorem encRaw_pair (h0 h1 : Half) : encRaw (.pair h0 h1) = encHalf h1 ++ encHalf h0 ++ encSHeader 0xF0 2 := rfl

theorem decHalf_agrees (h : decHalf w lo = some x) : Agrees (encHalf x) w lo := by
  simp only [decHalf, Option.bind_eq_bind, Option.bind_eq_some_iff] at h
  obtain ⟨ty, ht, h⟩ := h
  cases h
  simp only [encHalf]
  rw [agrees_append]
  simp only [agrees_append]
  simp [agrees_bits, agrees_bit, agrees_tyCode ht, Nat.add_assoc]

theorem pair_isLow (hf : opcOf w = 0xF0) (hl : lenIs w 2 = some ()) (hz : zeros w 10 6 = some ())
    (h0 : decHalf w 16 = some x) (h1 : decHalf w 72 = some y) : IsLow (encRaw (.pair x y)) w (8 * lenBytes (lenOf w)) := by
  rw [lenIs_iff (by omega)] at hl
  rw [zeros_iff] at hz
  rw [encRaw_pair, ← hf]
  refine isLow_len2 rfl hl ?_
  rw [agrees_append, agrees_append]
  exact ⟨⟨decHalf_agrees h1, decHalf_agrees h0⟩, agrees_encSHeader.mpr ⟨hz, hl⟩⟩

theorem opc_of_pair {c : BitVec 8} : formatOf c = some .pair → c = 0xF0 := by
  revert c
  decide

/-- The operand record of a word encodes to the word. -/
theorem decRaw_isLow (h : decRaw w = some r) : IsLow (encRaw r) w (8 * lenBytes (lenOf w)) := by
  simp only [decRaw, Option.bind_eq_bind, Option.bind_eq_some_iff] at h
  obtain ⟨f, hf, h⟩ := h
  cases f <;> simp only [Option.map_eq_some_iff] at h
  case pair =>
    simp only [Option.bind_eq_some_iff] at h
    obtain ⟨⟨⟩, hl, ⟨⟩, hz, x, h0, y, h1, h⟩ := h
    cases h
    exact pair_isLow (opc_of_pair hf) hl hz h0 h1
  all_goals obtain ⟨o, ho, rfl⟩ := h
  case s3 => exact decS3_isLow ho
  case br => exact decBr_isLow ho
  case p3 => exact decP3_isLow ho
  case v3 => exact decV3_isLow ho
  case v4 => exact decV4_isLow ho
  case vi => exact decVi_isLow ho
  case mem => exact decMem_isLow ho
  case cp => exact decCp_isLow ho
  case sys => exact decSys_isLow ho
  case mx => exact decMx_isLow ho

/-! ### The opcode map -/

/-- The opcode map (R88) read both ways. -/
theorem toRaw_of_ofRaw {r : Raw} (h : ofRaw r = some i) : toRaw i = some r := by
  cases r
  case pair => cases h; rfl
  all_goals
    rename_i opc o
    have hc : BitVec.ofNat 8 opc.toNat = opc := by simp
    rw [← hc]
    simp only [ofRaw] at h
    generalize opc.toNat = n at h ⊢
    split at h <;> cases h <;> rfl

theorem encode_of_toRaw (h : toRaw i = some r) : encode i = some (encRaw r) := by
  unfold encode
  split
  case h_1 => cases h
  case h_2 => cases h
  case h_3 => rw [h]; rfl

/-! ### The family, whole -/

/-- What a word can decode to: PGUARD and a reserved opcode with its first 64 bits (R84, R90), or what its operand record names. -/
theorem decode_cases (h : decode w = .ok i) :
    i = .pguard (bits w 0 64) ∨ i = .reservedOpcode (bits w 0 64) ∨ ∃ r, decRaw w = some r ∧ ofRaw r = some i := by
  unfold decode at h
  split at h
  case isTrue => cases h; exact .inl rfl
  split at h
  case isTrue => cases h
  split at h
  case isTrue => cases h; exact .inr (.inl rfl)
  split at h
  case h_1 => cases h
  case h_2 j hj =>
    obtain ⟨r, hr, ho⟩ := Option.bind_eq_some_iff.mp hj
    have same : j = i := by
      split at h
      case isTrue => cases h
      split at h
      case h_1 => split at h <;> cases h; rfl
      case h_2 => cases h; rfl
    exact .inr (.inr ⟨r, hr, same ▸ ho⟩)

/-- The statement of the family, for every constructor of the instruction set. -/
theorem statement : ∀ i : Instr, Statement i
  | .sadd o => sadd o | .ssub o => ssub o | .smul o => smul o | .smulh o => smulh o | .sdiv o => sdiv o | .srem o => srem o
  | .sand o => sand o | .sor o => sor o | .sxor o => sxor o | .sshl o => sshl o | .sshr o => sshr o | .srot o => srot o
  | .smin o => smin o | .smax o => smax o | .sbitc o => sbitc o | .smov o => smov o | .smovi o => smovi o | .sset o => sset o
  | .ssel o => ssel o | .saddr o => saddr o | .sext o => sext o | .sbfx o => sbfx o | .sbfi o => sbfi o | .sldp o => sldp o
  | .jmp o => jmp o | .jmpr o => jmpr o | .call o => call o | .callr o => callr o | .ret o => ret o | .brs o => brs o
  | .brv o => brv o | .bru o => bru o | .regang o => regang o | .loopd o => loopd o | .nop o => nop o | .plog o => plog o
  | .pmov o => pmov o | .pcnt o => pcnt o | .pfirst o => pfirst o | .part o => part o | .gset o => gset o | .grd o => grd o
  | .lexit o => lexit o | .ejctl o => ejctl o | .vadd o => vadd o | .vsub o => vsub o | .vmul o => vmul o | .vmulh o => vmulh o
  | .vmad o => vmad o | .vdiv o => vdiv o | .vrem o => vrem o | .vand o => vand o | .vor o => vor o | .vxor o => vxor o
  | .vshl o => vshl o | .vshr o => vshr o | .vrot o => vrot o | .vmin o => vmin o | .vmax o => vmax o | .vabs o => vabs o
  | .vbitc o => vbitc o | .vbfx o => vbfx o | .vbfi o => vbfi o | .vaddc o => vaddc o | .vadds o => vadds o | .vcmp o => vcmp o
  | .vsel o => vsel o | .vmov o => vmov o | .vmovi o => vmovi o | .vbrd o => vbrd o | .vext o => vext o | .vsys o => vsys o
  | .vfadd o => vfadd o | .vfsub o => vfsub o | .vfmul o => vfmul o | .vfma o => vfma o | .vfmin o => vfmin o
  | .vfmax o => vfmax o | .vfclass o => vfclass o | .vfdiv o => vfdiv o | .vfsqrt o => vfsqrt o | .vfrcp o => vfrcp o
  | .vfrsq o => vfrsq o | .vfexp2 o => vfexp2 o | .vflog2 o => vflog2 o | .vfsin o => vfsin o | .vfcos o => vfcos o
  | .vftanh o => vftanh o | .vfscale o => vfscale o | .vfrnd o => vfrnd o | .vdot2 o => vdot2 o | .vdot4 o => vdot4 o
  | .vcvt o => vcvt o | .vpack o => vpack o | .vunpk o => vunpk o | .ffrd o => ffrd o | .ffclr o => ffclr o | .vshfl o => vshfl o
  | .vshfx o => vshfx o | .vbcast o => vbcast o | .vvote o => vvote o | .vmatch o => vmatch o | .vred o => vred o
  | .vscan o => vscan o | .vcmpr o => vcmpr o | .ld o => ld o | .st o => st o | .lds o => lds o | .sts o => sts o
  | .atom o => atom o | .atoms o => atoms o | .cpy o => cpy o | .cpyg o => cpyg o | .bseal o => bseal o | .bwait o => bwait o
  | .swinit o => swinit o | .fence o => fence o | .cpf o => cpf o | .cwb o => cwb o | .cinv o => cinv o | .icinv o => icinv o
  | .hset o => hset o | .hgen o => hgen o | .mma o => mma o | .mmas o => mmas o | .mzero o => mzero o | .mcvt o => mcvt o
  | .mstat o => mstat o | .msclr o => msclr o | .ocfence o => ocfence o | .mkinit o => mkinit o | .mkset o => mkset o
  | .mkadd o => mkadd o | .waitm o => waitm o | .swait o => swait o | .bar o => bar o | .bara o => bara o | .barw o => barw o
  | .promote o => promote o | .clsrd o => clsrd o | .yield o => yield o | .sleep o => sleep o | .svc o => svc o
  | .trap o => trap o | .tret o => tret o | .srd o => srd o | .swr o => swr o | .brk o => brk o | .ckill o => ckill o
  | .ckpt o => ckpt o | .pair h0 h1 => pair h0 h1 | .pguard w => pguard w | .reservedOpcode w => reservedOpcode w
  | .trapEntry c => trapEntry c | .watchdog c => watchdog c | .passnChange cluster n => passnChange cluster n
  | .shadowLatchReplay u => shadowLatchReplay u | .ejectLaneStart q => ejectLaneStart q | .laneRejoin q => laneRejoin q
  | .ejectSoftPark c t => ejectSoftPark c t | .ejectOverdue c t => ejectOverdue c t | .courseRestore c => courseRestore c
  | .sleepExpire p => sleepExpire p | .checkpointCopy c reg => checkpointCopy c reg | .pageFaultRecord p => pageFaultRecord p
  | .pageFaultPark c => pageFaultPark c | .tileFetchDone k tile => tileFetchDone k tile | .mmaStart core => mmaStart core
  | .mmaComplete core => mmaComplete core | .mzeroComplete core => mzeroComplete core | .mcvtComplete core => mcvtComplete core
  | .slewStep die => slewStep die | .copyChunkDone k chunk => copyChunkDone k chunk
  | .copyChunkFault k chunk => copyChunkFault k chunk | .blockStart b => blockStart b | .blockEnd b => blockEnd b
  | .launchRetire l => launchRetire l | .faultLogRecord k => faultLogRecord k | .placementAttempt k => placementAttempt k
  | .placementRetry k => placementRetry k | .rotationAttempt cluster => rotationAttempt cluster
  | .clusterReassign cluster pool => clusterReassign cluster pool | .clusterOppointReady cluster => clusterOppointReady cluster
  | .hotSpotMigration b core => hotSpotMigration b core | .energyAttribution => energyAttribution | .energyCharge => energyCharge
  | .quotaPeriodBoundary ctx => quotaPeriodBoundary ctx | .packetRead q => packetRead q | .launchPacket q => launchPacket q
  | .waitmarks q => waitmarks q | .setmark q => setmark q | .regionInstall q => regionInstall q
  | .regionUpdate q => regionUpdate q | .regionRemove q => regionRemove q | .regionRemoveComplete r => regionRemoveComplete r
  | .leaseRequest q => leaseRequest q | .leaseRelease q => leaseRelease q | .nopPacket q => nopPacket q
  | .leaseGrant k grant => leaseGrant k grant | .leaseRevoke k => leaseRevoke k | .leaseEnd k => leaseEnd k
  | .markReexamine w => markReexamine w | .waitPark q => waitPark q | .queueDeadlock qs => queueDeadlock qs
  | .queueEnable q v => queueEnable q v | .queueDisable q v => queueDisable q v | .queueKick q v => queueKick q v
  | .queueErrorClear q => queueErrorClear q | .registerWrite off v => registerWrite off v | .tlbInvalidate v => tlbInvalidate v
  | .tlbInvalidateDone => tlbInvalidateDone | .contextCreate n => contextCreate n | .contextSuspend n => contextSuspend n
  | .suspendComplete n => suspendComplete n | .contextResume n => contextResume n | .contextDestroy n => contextDestroy n
  | .contextScb n => contextScb n | .contextLost n => contextLost n | .pfresp ctx idx => pfresp ctx idx
  | .svcdone ctx slot => svcdone ctx slot | .schedulerFailover => schedulerFailover
  | .leafUpdateCluster cluster => leafUpdateCluster cluster | .leafDrainTimeout cluster => leafDrainTimeout cluster
  | .schedulerHandover => schedulerHandover | .coreMapOut core => coreMapOut core
  | .wholeContextSwitch mode => wholeContextSwitch mode | .poolResume => poolResume | .poolDrop => poolDrop
  | .refugeWriteback all k => refugeWriteback all k | .refugeDiscard all k => refugeDiscard all k
  | .poolLinkLoss cause => poolLinkLoss cause | .refugeMoveDone => refugeMoveDone
  | .poolPortChange port up => poolPortChange port up | .bisnp o => bisnp o | .poolWindowEnable w v => poolWindowEnable w v
  | .poolWindowDisable w v => poolWindowDisable w v | .hostDramAccess pa n write => hostDramAccess pa n write
  | .channelEnable ch v => channelEnable ch v | .channelErrorClear ch => channelErrorClear ch
  | .channelKick ch v => channelKick ch v | .channelSend ch => channelSend ch | .channelReceive ch m => channelReceive ch m
  | .channelStateMessage ch enable error size => channelStateMessage ch enable error size | .peerLinkDown l => peerLinkDown l
  | .linkFlitRetry l => linkFlitRetry l | .linkLaneDegrade l => linkLaneDegrade l | .eccCorrected cls n => eccCorrected cls n
  | .eccUncorrectable cls d => eccUncorrectable cls d | .dramScrub ch => dramScrub ch | .l2Scrub slice => l2Scrub slice
  | .boot us => boot us | .clearMapOut step unit => clearMapOut step unit | .requestUpdate => requestUpdate
  | .passComponentTable cs => passComponentTable cs | .updateComponent comp image => updateComponent comp image
  | .transferComplete comp => transferComplete comp | .verifyComplete comp version => verifyComplete comp version
  | .applyComplete comp => applyComplete comp | .activateFirmware => activateFirmware | .getStatus => getStatus
  | .cancelUpdate => cancelUpdate | .dramRowSpare ch row => dramRowSpare ch row | .channelMapOut ch => channelMapOut ch
  | .l2SliceDegrade slice => l2SliceDegrade slice | .quarterRecalibrate q => quarterRecalibrate q | .getDigests => getDigests
  | .getCertificate => getCertificate | .challenge nonce => challenge nonce | .getMeasurements => getMeasurements
  | .saveAreaTailAdvance ctx ring v => saveAreaTailAdvance ctx ring v | .hostSnoop o => hostSnoop o

theorem encode_of_decode (h : decode w = .ok i) :
    let len := if i = .pguard (bits w 0 64) ∨ i = .reservedOpcode (bits w 0 64) then 8 else lenBytes (lenOf w)
    ∃ v, encode i = some v ∧ IsLow v w (8 * len) := by
  intro len
  have low : IsLow (0#64 ++ bits w 0 64) w (8 * 8) := isLow_zero_append.mpr (isLow_of_agrees agrees_bits)
  obtain rfl | rfl | ⟨r, hr, ho⟩ := decode_cases h
  · exact ⟨_, rfl, by simpa [len] using low⟩
  · exact ⟨_, rfl, by simpa [len] using low⟩
  · have hi := toRaw_of_ofRaw ho
    have hlen : len = lenBytes (lenOf w) := if_neg (by rintro (rfl | rfl) <;> cases hi)
    exact ⟨_, encode_of_toRaw hi, hlen ▸ decRaw_isLow hr⟩

end Sys2Proof.Laws.RoundTrip

namespace Sys2Proof

/-- Settles O58: instruction by instruction for the word of a well-formed instruction, and strip by strip for a word that decodes. -/
theorem roundTrip : Obligations.RoundTrip := ⟨Laws.RoundTrip.statement, fun _ _ => Laws.RoundTrip.encode_of_decode⟩

end Sys2Proof
end

section
/-!
The statement of the words that the spec writes out.
-/

namespace Sys2Proof

/-- Settles O57: seven words, each decoded by evaluation. -/
theorem decodeWords : Obligations.DecodeWords := by
  unfold Obligations.DecodeWords
  decide +kernel

end Sys2Proof
end

section
/-!
Fetch, decoding and the step: what the fetch gives in each case, and the statement of the step.
-/

namespace Sys2Proof.Machine

/-! ### The fetch buffer -/

theorem modify_modify (l : List α) (i : Nat) (f g : α → α) : (l.modify i f).modify i g = l.modify i (g ∘ f) := by
  apply List.ext_getElem?
  intro j
  by_cases h : i = j <;> simp [h, Function.comp_def]

/-- What replaced the fetch buffer last stands in it. -/
theorem State.setBuf_setBuf (t : State) (a b : List FLine) : (t.setBuf a).setBuf b = t.setBuf b := by
  cases h : t.cur with
  | none => simp [State.setBuf, h]
  | course c k =>
    have hc (f : Split → Split) : (t.modSplit c k f).cur = .course c k := h
    simp only [State.setBuf, h, hc]
    simp [State.modSplit, State.modCourse, modify_modify, Function.comp_def]
  | lane q =>
    have hc (f : Lane → Lane) : (t.modLane q f).cur = .lane q := h
    simp only [State.setBuf, h, hc]
    simp [State.modLane, modify_modify, Function.comp_def]

/-- A state without its fetch buffer and what the meters counted. -/
def State.uncounted (t : State) : State := { t.setBuf [] with served := [] }

theorem State.uncounted_served (t : State) (l) : State.uncounted { t with served := l } = t.uncounted := by
  simp only [State.uncounted, State.setBuf]
  split <;> rfl

theorem State.uncounted_setBuf (t : State) (l : List FLine) : (t.setBuf l).uncounted = t.uncounted := by
  simp only [State.uncounted, State.setBuf_setBuf]

theorem State.countBeats_served (s : State) (i : Instr) (t : State) : ∃ l, s.countBeats i t = { t with served := l } := by
  unfold State.countBeats
  split
  · exact ⟨_, rfl⟩
  · exact ⟨t.served, rfl⟩

theorem State.afterFlow_cases (s : State) (i : Instr) (next : Word) (t : State) :
    s.afterFlow i next t = t ∨ s.afterFlow i next t = t.setBuf [] := by
  unfold State.afterFlow
  split
  · exact .inr rfl
  · exact .inl rfl

/-- The accounts of an instruction that issued touch its fetch buffer and the meters alone (R21, R91). -/
theorem State.afterIssue_uncounted (s : State) (i : Instr) {t : State} (h : notIssued s.wait t.wait = false) :
    (s.afterIssue i t).uncounted = t.uncounted := by
  obtain ⟨l, hl⟩ := s.countBeats_served i t
  have beats : (s.countBeats i t).uncounted = t.uncounted := hl ▸ t.uncounted_served l
  simp only [State.afterIssue, h, Bool.false_eq_true, if_false]
  split
  · obtain e | e := s.afterFlow_cases i (s.pc + Instr.len i) (s.countBeats i t)
    · rw [e, beats]
    · rw [e, State.uncounted_setBuf, beats]
  · exact beats

theorem State.account_uncounted (s : State) (a : Action) (t : State) : (s.account a t).uncounted = t.uncounted := by
  obtain ⟨l, hl⟩ := account_served s a t
  exact hl ▸ t.uncounted_served l

/-! ### The line at the PC -/

/-- The line is held by the fetch buffer (R91). -/
theorem State.fetchLine_buf {s : State} {va : Word} {e : FLine} (pc : Word) (h : s.buf.find? (fun e => e.va == va.toNat) = some e) :
    s.fetchLine pc va = .ok (e.bytes, s.setBuf (e :: s.buf.filter fun f => f.va == va.toNat + 32)) := by
  simp only [State.fetchLine, h]

/-- Else the instruction cache gives it, or what stands behind it (R91). -/
theorem State.fetchLine_code {s : State} {va : Word} (pc : Word) (h : s.buf.find? (fun e => e.va == va.toNat) = none) :
    s.fetchLine pc va = (s.codeLine pc va).map fun r => (r.1.bytes, r.2.setBuf [r.1]) := by
  simp only [State.fetchLine, h]

/-- The line of an instruction cache that the agent reads at `va`. -/
def State.cachedLine (s : State) (va : Word) : Option ILine :=
  s.icache.find? fun e => e.core == s.cacheOf && e.ctx == (s.ctx (s.ctxOf s.curCourse)).num && e.va == va.toNat

section
variable {s : State} {va : Word} (pc : Word)

theorem State.codeLine_cached {e : ILine} (h : s.cachedLine va = some e) : s.codeLine pc va = .ok (⟨e.va, e.pa, e.bytes⟩, s) := by
  unfold State.cachedLine at h
  simp only [State.codeLine, h]

variable (miss : s.cachedLine va = none)
include miss

theorem State.codeLine_nonCanonical (h : s.translate (s.ctxOf s.curCourse) va = .error .nonCanonical) :
    s.codeLine pc va = .error (trapC tProtection pc 0) := by
  unfold State.cachedLine at miss
  simp only [State.codeLine, miss, h]

theorem State.codeLine_invalid (h : s.translate (s.ctxOf s.curCourse) va = .error .invalid) :
    s.codeLine pc va = .error (.page pc 1 false true 127 none) := by
  unfold State.cachedLine at miss
  simp only [State.codeLine, miss, h]

theorem State.codeLine_malformed (h : s.translate (s.ctxOf s.curCourse) va = .error .malformed) :
    s.codeLine pc va = .error (.page pc 2 false true 127 none) := by
  unfold State.cachedLine at miss
  simp only [State.codeLine, miss, h]

variable {leaf : Leaf} (page : s.translate (s.ctxOf s.curCourse) va = .ok leaf)
include page

/-- A page that no code is fetched from (R221): IO, no X, or the pooled tier where the region may not use it. -/
theorem State.codeLine_denied (h : (!leaf.x || leaf.pol == 3
    || (isPool leaf.pa && !s.effPoolEn (s.launchOf s.curCourse).region)) = true) : s.codeLine pc va = .error (trapC tProtection pc 0) := by
  unfold State.cachedLine at miss
  simp only [State.codeLine, miss, page, h, if_true]

variable (allowed : (!leaf.x || leaf.pol == 3 || (isPool leaf.pa && !s.effPoolEn (s.launchOf s.curCourse).region)) = false)
include allowed

theorem State.codeLine_lost (h : (isPool leaf.pa && !s.poolUp) = true) : s.codeLine pc va = .error (trapC tPoolLost pc 9) := by
  unfold State.cachedLine at miss
  simp only [State.codeLine, miss, page, allowed, h, Bool.false_eq_true, if_false, if_true]

variable (linked : (isPool leaf.pa && !s.poolUp) = false)
include linked

theorem State.codeLine_poison (h : s.anyPoison leaf.pa 32 = true) : s.codeLine pc va = .error (trapC tPoison pc 0) := by
  unfold State.cachedLine at miss
  simp only [State.codeLine, miss, page, allowed, linked, h, Bool.false_eq_true, if_false, if_true]

theorem State.codeLine_page (h : s.anyPoison leaf.pa 32 = false) :
    s.codeLine pc va = .ok (⟨va.toNat, leaf.pa, s.readBytes 0 leaf.pa 32⟩,
      { s with icache := ⟨s.cacheOf, (s.ctx (s.ctxOf s.curCourse)).num, va.toNat, leaf.pa, s.readBytes 0 leaf.pa 32⟩ :: s.icache }) := by
  unfold State.cachedLine at miss
  simp only [State.codeLine, miss, page, allowed, linked, h, Bool.false_eq_true, if_false]

end

/-! ### The instruction in a line -/

/-- A word with PGUARD's opcode, and one whose length code is reserved (R68, R84). -/
theorem decode_guard {w : BitVec 128} (h : opcOf w = 0xFE) : decode w = .ok (.pguard (bits w 0 64)) := if_pos h

theorem decode_lenReserved {w : BitVec 128} (guard : opcOf w ≠ 0xFE) (len : (lenOf w).toNat = 3) : decode w = .error .lenReserved := by
  rw [decode, if_neg guard, if_pos len]

section
variable {pc : Word} {line : List Byte} {w : BitVec 128} (hw : bytesWord ((line.drop (pc.toNat % 32)).take 16) = w)

/-- The line begins with the word that fills pages of the pool (R86). -/
theorem decodeAt_execPool (h : opcOf (bytesWord (line.take 16)) = 0xFE ∧ lenOf (bytesWord (line.take 16)) = 0) :
    decodeAt pc line = .error (trapC tExecPool pc 0) := if_pos h

variable (first : ¬(opcOf (bytesWord (line.take 16)) = 0xFE ∧ lenOf (bytesWord (line.take 16)) = 0))
include hw first

theorem decodeAt_ok {i : Instr} (h : decode w = .ok i) (fits : opcOf w = 0xFE ∨ ¬32 < pc.toNat % 32 + lenBytes (lenOf w)) :
    decodeAt pc line = .ok i := by
  simp only [decodeAt, hw, first, if_false]
  by_cases guard : opcOf w = 0xFE
  · rw [if_pos guard, Except.ok.inj (h.symm.trans (decode_guard guard))]
  · have len : (lenOf w).toNat ≠ 3 := fun hl => by cases h.symm.trans (decode_lenReserved guard hl)
    simp only [if_neg guard, if_neg len, if_neg (fits.resolve_left guard), h]

theorem decodeAt_straddle (guard : opcOf w ≠ 0xFE) (len : (lenOf w).toNat ≠ 3)
    (crosses : 32 < pc.toNat % 32 + lenBytes (lenOf w)) : decodeAt pc line = .error (trapC tStraddle 0 (low32 w)) := by
  simp only [decodeAt, hw, first, if_false, if_neg guard, if_neg len, if_pos crosses]

theorem decodeAt_error {r : DecodeError} (h : decode w = .error r) (fits : ¬32 < pc.toNat % 32 + lenBytes (lenOf w)) :
    decodeAt pc line = .error (trapC (if r = .illegalPair then tIllegalPair else tIllegalOp) 0 (low32 w)) := by
  have guard : opcOf w ≠ 0xFE := fun hg => by cases h.symm.trans (decode_guard hg)
  simp only [decodeAt, hw, first, if_false, if_neg guard]
  by_cases len : (lenOf w).toNat = 3
  · rw [if_pos len, Except.error.inj (h.symm.trans (decode_lenReserved guard len))]
    rfl
  · simp only [if_neg len, if_neg fits, h]
    cases r <;> rfl

end

/-! ### The step of an agent that executes -/

theorem State.fetch_error {s : State} {e : Exn} (h : s.fetchLine s.pc (BitVec.ofNat 64 (s.pc.toNat / 32 * 32)) = .error e) :
    s.fetch = .error e := by
  simp only [State.fetch, h]
  rfl

theorem State.fetch_line {s v : State} {line : List Byte}
    (h : s.fetchLine s.pc (BitVec.ofNat 64 (s.pc.toNat / 32 * 32)) = .ok (line, v)) :
    s.fetch = (decodeAt s.pc line).map fun i => (i, v) := by
  simp only [State.fetch]
  rw [h]
  show (decodeAt s.pc line).bind (fun i => .ok (i, v)) = _
  cases decodeAt s.pc line <;> rfl

/-- A step of an agent that executes is the issue of its instruction, with its accounts (R21, log 12). -/
theorem step_issue {s : State} (h : s.cur ≠ .none) :
    step s = afterNext (State.tickOver s.clock s.tick) (afterNext (s.account (.issue s.cur)) (issueStep s)) := by
  simp only [step, act, h, ne_eq, not_false_eq_true, if_true, perform]

theorem issueStep_error {s : State} {e : Exn} (due : s.beginIssue.dueTrap = none) (h : s.beginIssue.fetch = .error e) :
    issueStep s = s.beginIssue.settleExn s.pc 0 e := by
  simp only [issueStep, due, h]

theorem issueStep_ok {s v : State} {i : Instr} (due : s.beginIssue.dueTrap = none) (h : s.beginIssue.fetch = .ok (i, v)) :
    issueStep s = afterNext (s.afterIssue i) (exec i v) := by
  simp only [issueStep, due, h]

/-- Settles O56: the line of the PC comes from the fetch buffer, the instruction cache or the page, and a line decodes alike wherever it
comes from. -/
theorem stepRunsDecoded : Obligations.StepRunsDecoded := by
  intro s hc u counts
  refine ⟨fun i t h => (State.account_uncounted s _ _).trans (s.afterIssue_uncounted i h), ?_⟩
  intro due x va around cached runs
  have hva : (BitVec.ofNat 64 va).toNat = va := by
    have := u.pc.isLt
    simp only [BitVec.toNat_ofNat]
    omega
  have fails {e : Exn} (h : u.fetch = .error e) : step s = around (u.settleExn s.pc 0 e) := by
    rw [step_issue hc, issueStep_error due h]
  have run {bytes : List Byte} {v : State} (line : u.fetchLine u.pc (BitVec.ofNat 64 va) = .ok (bytes, v)) : runs bytes v := by
    have at_line := State.fetch_line line
    unfold runs
    intro first o w crosses
    have raises {e : Exn} (h : decodeAt u.pc bytes = .error e) : step s = around (u.settleExn s.pc 0 e) :=
      fails (by rw [at_line, h]; rfl)
    refine ⟨fun h => raises (decodeAt_execPool h), fun h => ⟨fun i hi fits => ?_, fun guard len hx => ?_, fun r hr fits => ?_⟩⟩
    · rw [step_issue hc, issueStep_ok due (by rw [at_line, decodeAt_ok rfl h hi fits]; rfl)]
    · exact raises (decodeAt_straddle rfl h guard len hx)
    · exact raises (decodeAt_error rfl h hr fits)
  refine ⟨fun e he => ?_, fun e hb he => ?_, fun hb hi => ?_⟩
  · have line := State.fetchLine_buf (s := u) (va := BitVec.ofNat 64 va) u.pc (by rw [hva]; exact he)
    rw [hva] at line
    exact run line
  · have code := State.codeLine_cached (s := u) (va := BitVec.ofNat 64 va) u.pc (by rw [State.cachedLine, hva]; exact he)
    exact run (by rw [State.fetchLine_code _ (by rw [hva]; exact hb), code]; rfl)
  · have miss : u.cachedLine (BitVec.ofNat 64 va) = none := by rw [State.cachedLine, hva]; exact hi
    have line : u.fetchLine u.pc (BitVec.ofNat 64 va) = _ := State.fetchLine_code _ (by rw [hva]; exact hb)
    intro page fails'
    have raises {e : Exn} (h : u.codeLine u.pc (BitVec.ofNat 64 va) = .error e) : fails' e :=
      fails (State.fetch_error (by rw [line, h]; rfl))
    refine ⟨fun h => raises (State.codeLine_nonCanonical _ miss h), fun h => raises (State.codeLine_invalid _ miss h),
      fun h => raises (State.codeLine_malformed _ miss h), fun leaf hp => ?_⟩
    intro enabled
    refine ⟨fun h => ?_, fun hpool h => ?_, fun hx hio hen => ?_⟩
    · refine raises (State.codeLine_denied _ miss hp ?_)
      rcases h with h | h <;> simp [h]
    · refine raises (State.codeLine_denied _ miss hp ?_)
      simp [hpool, show u.effPoolEn (u.launchOf u.curCourse).region = false from h]
    · have allowed : (!leaf.x || leaf.pol == 3 || (isPool leaf.pa && !u.effPoolEn (u.launchOf u.curCourse).region)) = false := by
        have hen' : isPool leaf.pa = true → u.effPoolEn (u.launchOf u.curCourse).region = true := hen
        simpa [hx, hio] using hen'
      refine ⟨fun hpool hup => raises (State.codeLine_lost _ miss hp allowed (by simp [hpool, hup])), fun hup => ?_⟩
      have linked : (isPool leaf.pa && !u.poolUp) = false := by simpa using hup
      refine ⟨fun h => raises (State.codeLine_poison _ miss hp allowed linked h), fun h => ?_⟩
      have code := State.codeLine_page u.pc miss hp allowed linked h
      rw [hva] at code
      exact run (by rw [line, code]; rfl)

end Sys2Proof.Machine
end

section
/-!
SUPPORT. Laws of taking a trap: a course that can take one takes it at once, and what it leaves (R343 to R345);
an ejected lane that faults stops and stays as it is (R141).
-/

namespace Sys2Proof.Machine

/-! ### Every instruction is run in the same way -/

/-- The outcome is that of an instruction with some work: the checks that every instruction makes come first, and what the work
raises is settled as every instruction's is. -/
def RunsInstr (i : Instr) (s : State) (o : Host.Outcome State Fault Refusal) : Prop := ∃ body, o = instr i body s

theorem instr_runs (i : Instr) (body : State → Except Exn State) (s : State) : RunsInstr i s (instr i body s) := ⟨body, rfl⟩

theorem seqInstr_runs (i : Instr) (body : State → Except Exn State) (s : State) : RunsInstr i s (seqInstr i body s) := instr_runs ..

theorem vecInstr_runs (i : Instr) (eff : State → Except Exn VRes) (s : State) : RunsInstr i s (vecInstr i eff s) := seqInstr_runs ..

theorem scalarOp_runs (i : Instr) (o : S3) (f : Nat → Bool → Nat → Nat → Nat) (s : State) : RunsInstr i s (scalarOp i o f s) :=
  seqInstr_runs ..

theorem scalarMove_runs (i : Instr) (o : S3) (f : Word → Word → Word → Word) (s : State) : RunsInstr i s (scalarMove i o f s) :=
  seqInstr_runs ..

theorem branch_runs (i : Instr) (f : State → Word → Except Exn (Word × State)) (s : State) : RunsInstr i s (branch i f s) :=
  instr_runs ..

theorem predInstr_runs (i : Instr) (o : P3) (f : State → Mask → Mask) (s : State) : RunsInstr i s (predInstr i o f s) := seqInstr_runs ..

theorem maskScalar_runs (i : Instr) (o : P3) (f : State → Mask → Word) (s : State) : RunsInstr i s (maskScalar i o f s) :=
  seqInstr_runs ..

theorem groupInstr_runs (i : Instr) (o : P3) (f : State → Mask → Group) (s : State) : RunsInstr i s (groupInstr i o f s) :=
  seqInstr_runs ..

theorem markUpdate_runs (i : Instr) (o : Sys) (imm : Word) (f : Word → Word → Word) (s : State) :
    RunsInstr i s (markUpdate i o imm f s) := seqInstr_runs ..

theorem barrier_runs (i : Instr) (operand : State → Except Exn Word) (effect : State → Nat → Nat → List Joiner → Word → State)
    (s : State) : RunsInstr i s (barrier i operand effect s) := instr_runs ..

theorem collective_runs (i : Instr) (o : V4) (fs : List (BitVec 12)) (src : State → Nat → Word × Word × Word) (s : State) :
    RunsInstr i s (collective i o fs src s) := instr_runs ..

theorem exec_runs (s : State) (i : Instr) (h : isEvent i = false) : RunsInstr i s (exec i s) := by
  cases i with
  | sadd o | ssub o | smul o | smulh o | sdiv o | srem o | sand o | sor o | sxor o | sshl o | sshr o | srot o | smin o | smax o | sbitc o =>
    dsimp only [exec]
    exact scalarOp_runs _ o _ _
  | smov o | ssel o | saddr o | sext o | sbfx o | sbfi o =>
    dsimp only [exec]
    exact scalarMove_runs _ o _ _
  | jmp o | jmpr o | call o | callr o | ret o | brs o | bru o | loopd o | nop o =>
    dsimp only [exec]
    exact branch_runs _ _ _
  | plog o =>
    dsimp only [exec]
    exact predInstr_runs _ o _ _
  | pcnt o | pfirst o =>
    dsimp only [exec]
    exact maskScalar_runs _ o _ _
  | part o | gset o =>
    dsimp only [exec]
    exact groupInstr_runs _ o _ _
  | mkset o | mkadd o =>
    dsimp only [exec]
    exact markUpdate_runs _ o _ _ _
  | bar o | bara o | barw o =>
    dsimp only [exec]
    exact barrier_runs _ _ _ _
  | vshfl o | vshfx o | vbcast o | vvote o | vmatch o | vred o | vscan o | vcmpr o =>
    dsimp only [exec]
    exact collective_runs _ o _ _ _
  | vadd o | vsub o | vmul o | vmulh o | vmad o | vdiv o | vrem o | vand o | vor o | vxor o | vshl o | vshr o | vrot o | vmin o
  | vmax o | vabs o | vbitc o | vbfx o | vbfi o | vaddc o | vadds o | vcmp o | vsel o | vmov o | vmovi o | vbrd o | vext o | vsys o
  | vfadd o | vfsub o | vfmul o | vfma o | vfmin o | vfmax o | vfclass o | vfdiv o | vfsqrt o | vfrcp o | vfrsq o | vfexp2 o
  | vflog2 o | vfsin o | vfcos o | vftanh o | vfscale o | vfrnd o | vdot2 o | vdot4 o | vcvt o | vpack o | vunpk o =>
    dsimp only [exec]
    exact vecInstr_runs _ _ _
  | smovi o =>
    show RunsInstr _ s (execSmovi o s)
    unfold execSmovi
    exact scalarMove_runs _ o _ _
  | grd o =>
    show RunsInstr _ s (execGrd o s)
    unfold execGrd
    split
    · exact predInstr_runs _ o _ _
    · exact maskScalar_runs _ o _ _
  | pmov o =>
    show RunsInstr _ s (execPmov o s)
    unfold execPmov
    split
    · exact seqInstr_runs _ _ _
    · exact maskScalar_runs _ o _ _
  | brv o | regang o | lexit o | bwait o | waitm o | swait o | sleep o | svc o | trap o | tret o | brk o | ckill o | ckpt o
  | pguard w | reservedOpcode w =>
    dsimp only [exec]
    exact instr_runs _ _ _
  | sset o | sldp o | ejctl o | ffrd o | ffclr o | ld o | st o | lds o | sts o | atom o | atoms o | cpy o | cpyg o | bseal o | swinit o
  | fence o | cpf o | cwb o | cinv o | icinv o | hset o | hgen o | mma o | mmas o | mzero o | mcvt o | mstat o | msclr o | ocfence o
  | mkinit o | promote o | clsrd o | yield o | srd o | swr o | pair h0 h1 =>
    dsimp only [exec]
    exact seqInstr_runs _ _ _
  | _ => nomatch h

/-! ### Changes of a course that keep what a trap asks of it -/

theorem zipIdx_modify (l : List α) (i n : Nat) (f : α → α) (p : α × Nat → Bool) (h : ∀ x k, p (f x, k) = p (x, k)) :
    ((l.modify i f).zipIdx n).countP p = (l.zipIdx n).countP p := by
  induction l generalizing i n with
  | nil => simp
  | cons a l ih =>
    cases i with
    | zero => simp [List.countP_cons, h]
    | succ i => simp [List.countP_cons, ih]

theorem State.modCourse_modCourse (s : State) (c : Nat) (f g : Course → Course) :
    (s.modCourse c f).modCourse c g = s.modCourse c (g ∘ f) := by
  simp [State.modCourse, modify_modify]

section
variable {s : State} {c : Nat} {f : Course → Course} (hf : ∀ x, (f x).rest = x.rest)
include hf

/-- A change of the registers, splits, dirty bits or latch window of a course keeps what else a course holds. -/
theorem State.modCourse_course_rest (d : Nat) : ((s.modCourse c f).course d).rest = (s.course d).rest := by
  by_cases hl : c < s.courses.length
  · rw [State.modCourse_course _ _ _ _ hl]
    split
    case isTrue h => rw [hf, h]
    case isFalse => rfl
  · rw [State.modCourse_absent s f hl]

theorem State.modCourse_coreOf (d : Nat) : (s.modCourse c f).coreOf d = s.coreOf d := by
  have := congrArg Course.block (State.modCourse_course_rest hf (s := s) (c := c) d)
  exact congrArg (fun b => (s.block b).core) this

theorem State.modCourse_launchOf (d : Nat) : (s.modCourse c f).launchOf d = s.launchOf d := by
  have := congrArg Course.block (State.modCourse_course_rest hf (s := s) (c := c) d)
  exact congrArg (fun b => s.launch (s.block b).launch) this

theorem State.modCourse_run (d : Nat) : (s.modCourse c f).run d = s.run d := by
  have := State.modCourse_launchOf hf (s := s) (c := c) d
  exact congrArg (fun x => (s.ctx x.ctx).run) this

theorem State.modCourse_handlers (core : Nat) : (s.modCourse c f).handlers core = s.handlers core := by
  unfold State.handlers
  rw [← List.countP_eq_length_filter, ← List.countP_eq_length_filter]
  simp only [State.modCourse_coreOf hf]
  exact zipIdx_modify _ _ _ _ _ fun x k => by
    have ht := congrArg Course.trap (hf x)
    have hp := congrArg Course.place (hf x)
    simp only [Course.rest] at ht hp
    simp only [ht, hp]

theorem State.modCourse_trapsWait (core : Nat) : (s.modCourse c f).trapsWait core = s.trapsWait core := by
  unfold State.trapsWait
  rw [Bool.eq_iff_iff, List.any_eq_true, List.any_eq_true, ← List.countP_pos_iff, ← List.countP_pos_iff]
  simp only [State.modCourse_coreOf hf]
  refine Eq.to_iff (congrArg (0 < ·) (zipIdx_modify _ _ _ _ _ fun x k => ?_))
  have ht := congrArg Course.pending (hf x)
  have hp := congrArg Course.place (hf x)
  simp only [Course.rest] at ht hp
  simp only [ht, hp]

theorem CanTrap.modCourse (h : CanTrap s c) : CanTrap (s.modCourse c f) c := by
  have e := State.modCourse_course_rest hf (s := s) (c := c) c
  refine ⟨?_, ?_, ?_, ?_, ?_, ?_⟩
  · exact (congrArg Course.place e).trans h.resident
  · exact (congrArg (fun x => x.trap.level) e).trans h.level
  · rw [State.modCourse_launchOf hf]; exact h.handler
  · exact (congrArg Course.leaving e).trans h.stays
  · rw [State.modCourse_coreOf hf, State.modCourse_handlers hf]; exact h.room
  · rw [State.modCourse_coreOf hf, State.modCourse_trapsWait hf]; exact h.first

end

/-! ### A trap that is taken at once -/

/-- A course that can take a trap takes it, unless a latch window is open that the trap did not arise in (R125, R345). -/
theorem State.raise_taken {s : State} {c : Nat} {t : Trap} (h : CanTrap s c) (hw : (s.course c).win.isSome = true → t.window = true) :
    s.raise c t = s.enterTrap c t := by
  have hn : s.noHandler c = false := by simpa [State.noHandler] using h.handler
  have window : ¬((s.course c).win.isSome = true ∧ (!t.window) = true) := fun hb => by simp [hw hb.1] at hb
  simp only [State.raise, if_neg window, h.level, hn, h.resident, h.stays, h.first, State.deliver]
  simp [Nat.not_le.mpr h.room]

/-- What an instruction does to its course as it begins: it may close the latch window, and its split waits no longer. -/
def Course.began (x : Course) (i : Instr) (k : Nat) : Course :=
  { x with win := if fixedLatency i then x.win else none, splits := x.splits.modify k fun y => { y with wait := .ready } }

theorem State.entering_course {s : State} {c k : Nat} (hc : s.cur = .course c k) (i : Instr) :
    s.entering i = s.modCourse c fun x => x.began i k := by
  simp only [State.entering, State.closeWindow, hc]
  split
  case isTrue h => simp [State.clearWait, hc, State.modSplit, Course.began, h]
  case isFalse h => simp [State.clearWait, hc, State.modSplit, State.modCourse_modCourse, Course.began, h, Function.comp_def]

theorem Course.began_rest (i : Instr) (k : Nat) (x : Course) : (x.began i k).rest = x.rest := rfl

/-- What taking a trap does to the course (R119, R344, R345). -/
def trapCourse (h : Word) (now : Nat) (t : Trap) (x : Course) : Course :=
  { x with
    win := none
    trap :=
      { level := true, nested := x.trap.level, cause := causeWord t x.trap.level, lane := BitVec.ofNat 64 t.lane, pc := t.pc, addr := t.addr
        info := t.info, opc := if x.trap.level then x.trap.pc else x.trap.opc
        ocause := if x.trap.level then x.trap.cause else x.trap.ocause
        split := t.split, since := if x.trap.level then x.trap.since else now, parked := if x.trap.level then x.trap.parked else 0
        batches := t.batch.toList ++ (if x.trap.level then x.trap.batches else []) }
    splits := (x.splits.map fun y => { y with handler := false }).modify t.split fun y =>
      { y with pc := h, wait := .ready, handler := true, buf := [] } }

theorem State.enterTrap_eq (s : State) (c : Nat) (t : Trap) :
    s.enterTrap c t = s.modCourse c (trapCourse (s.launchOf c).desc.handler (s.run c) t) := rfl

/-- The split that trapped, and the others, after an instruction that began and trapped. -/
theorem trapCourse_splits (i : Instr) (h : Word) (now : Nat) (t : Trap) (x : Course) (hk : t.split < x.splits.length) (j : Nat) :
    (trapCourse h now t (x.began i t.split)).splits.getD j default =
      if j = t.split then { x.splits.getD t.split default with pc := h, wait := .ready, handler := true, buf := [] }
      else { x.splits.getD j default with handler := false } := by
  simp only [trapCourse, Course.began, List.getD_eq_getElem?_getD, List.getElem?_modify, List.getElem?_map]
  by_cases hj : j = t.split
  · subst hj
    simp [hk]
  · simp only [Ne.symm hj, hj, if_false]
    cases x.splits[j]? <;> rfl

/-- An instruction that traps leaves the trap of its course and nothing else. -/
theorem enterTrap_traps {s : State} {c k : Nat} {t : Trap} (ha : s.hasAgent = true) (hc : s.cur = .course c k) (can : CanTrap s c)
    (hk : t.split = k) (i : Instr) :
    Traps s ((s.entering i).enterTrap c t) c k t.code t.lane t.pc t.addr t.info t.window t.batch.toList := by
  obtain ⟨hcl, hkl⟩ := State.hasAgent_course ha hc
  rw [State.enterTrap_eq, State.entering_course hc, State.modCourse_modCourse, State.modCourse_launchOf (fun x => Course.began_rest i k x),
    State.modCourse_run (Course.began_rest i k)]
  subst hk
  have self := State.modCourse_course s c c (trapCourse (s.launchOf c).desc.handler (s.run c) t ∘ fun x => x.began i t.split) hcl
  rw [if_pos rfl] at self
  have splits (j : Nat) := trapCourse_splits i (s.launchOf c).desc.handler (s.run c) t (s.course c) hkl j
  refine ⟨?_, ?_, fun j hj => ?_, ?_, ?_, fun d hd => ?_, rfl, rfl⟩
  · rw [self]
    simp [trapCourse, Course.began, can.level, causeWord]
  · rw [State.split, self]
    exact (splits _).trans (if_pos rfl)
  · rw [State.split, self]
    exact (splits j).trans (if_neg hj)
  · rw [self]; rfl
  · rw [self]; rfl
  · simp [Ne.symm hd]

/-! ### An instruction that traps -/

theorem settleExn_trap {s : State} {c k : Nat} (hc : s.cur = .course c k) (win : (s.course c).win = none) {code : Nat}
    (hb : code ≠ tBatch) (pc len : Word) (lane : Nat) (addr info : Word) :
    s.settleExn pc len (.trap code lane addr info) =
      .next (s.raise c { code := code, lane := lane, pc := pc, addr := addr, info := info, split := k }) := by
  unfold State.settleExn
  rw [hc]
  simp only [win, if_neg hb, Option.isSome_none]

theorem settleExn_trapWindow {s : State} {c k : Nat} {w : Window} (hc : s.cur = .course c k) (win : (s.course c).win = some w)
    {code : Nat} (hb : code ≠ tBatch) (pc len : Word) (lane : Nat) (addr info : Word) :
    s.settleExn pc len (.trap code lane addr info) =
      .next (s.raise c
        { code := code, lane := lane, pc := w.pc, addr := addr, window := true, split := k
          info := info ||| BitVec.ofNat 64 ((pc - w.pc).toNat / 4 % 256 * 2 ^ 32) }) := by
  unfold State.settleExn
  rw [hc]
  simp only [win, if_neg hb, Option.isSome_some]

theorem settleExn_trapNext {s : State} {c k : Nat} (hc : s.cur = .course c k) (pc len : Word) (code : Nat) (addr info : Word) :
    s.settleExn pc len (.trapNext code addr info) =
      .next (s.raise c { code := code, pc := pc + len, addr := addr, info := info, split := k }) := by
  unfold State.settleExn
  rw [hc]

theorem settleExn_lane {s : State} {q : Nat} (hc : s.cur = .lane q) (pc len : Word) (code lane : Nat) (addr info : Word) :
    s.settleExn pc len (.trap code lane addr info) = .next (s.stopLane q code pc) := by
  unfold State.settleExn
  rw [hc]

theorem settleExn_laneNext {s : State} {q : Nat} (hc : s.cur = .lane q) (pc len : Word) (code : Nat) (addr info : Word) :
    s.settleExn pc len (.trapNext code addr info) = .next (s.stopLane q code pc) := by
  unfold State.settleExn
  rw [hc]

theorem instr_prologue {i : Instr} {s : State} {e : Exn} (ha : s.hasAgent = true) (hp : (s.entering i).prologue i = .error e)
    (body : State → Except Exn State) : instr i body s = (s.entering i).settleExn s.pc (Instr.len i) e := by
  simp only [State.entering] at hp ⊢
  simp only [instr, ha, Bool.not_true, Bool.false_eq_true, if_false, hp]
  rfl

theorem instr_error {i : Instr} {s : State} {e : Exn} (h : Ready i s) {body : State → Except Exn State}
    (hb : body (s.entering i) = .error e) : instr i body s = (s.entering i).settleExn s.pc (Instr.len i) e := by
  have hp := h.prologue
  simp only [State.entering] at hp hb ⊢
  simp only [instr, h.agent, Bool.not_true, Bool.false_eq_true, if_false, hp]
  simp only [Except.bind, hb]

theorem seqInstr_error {i : Instr} {s : State} {e : Exn} (h : Ready i s) {body : State → Except Exn State}
    (hb : body (s.entering i) = .error e) : seqInstr i body s = (s.entering i).settleExn s.pc (Instr.len i) e :=
  instr_error h (by rw [hb]; rfl)

/-- The latch window as the work of an instruction begins: open only where the instruction is on the list of R126 (R125). -/
theorem State.entering_win {s : State} {c k : Nat} (ha : s.hasAgent = true) (hc : s.cur = .course c k) (i : Instr) :
    ((s.entering i).course c).win = if fixedLatency i then (s.course c).win else none := by
  rw [State.entering_course hc, State.modCourse_course _ _ _ _ (State.hasAgent_course ha hc).1, if_pos rfl]
  rfl

theorem entering_canTrap {s : State} {c k : Nat} (hc : s.cur = .course c k) (can : CanTrap s c) {i : Instr} : CanTrap (s.entering i) c := by
  rw [State.entering_course hc]
  exact can.modCourse fun x => x.began_rest i k

section
variable {s : State} {c k : Nat} (ha : s.hasAgent = true) (hc : s.cur = .course c k) (can : CanTrap s c) {i : Instr}
include ha hc can

/-- A trap outside a latch window is reported at the instruction (R343). -/
theorem settleExn_traps (win : (if fixedLatency i then (s.course c).win else none) = none) {code : Nat} (hb : code ≠ tBatch)
    (lane : Nat) (addr info pc len : Word) :
    ∃ t, (s.entering i).settleExn pc len (.trap code lane addr info) = .next t ∧ Traps s t c k code lane pc addr info := by
  have hw : ((s.entering i).course c).win = none := (State.entering_win ha hc i).trans win
  refine ⟨_, ?_, enterTrap_traps ha hc can (t := { code := code, lane := lane, pc := pc, addr := addr, info := info, split := k }) rfl i⟩
  have taken := State.raise_taken (entering_canTrap hc can (i := i))
    (t := { code := code, lane := lane, pc := pc, addr := addr, info := info, split := k }) (by simp [hw])
  rw [settleExn_trap ((s.entering_cur i).trans hc) hw hb, ← taken]

/-- A trap in an open latch window is reported at the window's first instruction, with the offset of this one (R127). -/
theorem settleExn_window {w : Window} (win : (if fixedLatency i then (s.course c).win else none) = some w) {code : Nat}
    (hb : code ≠ tBatch) (lane : Nat) (addr info pc len : Word) :
    ∃ t, (s.entering i).settleExn pc len (.trap code lane addr info) = .next t
      ∧ Traps s t c k code lane w.pc addr (info ||| (BitVec.ofNat 64 ((pc - w.pc).toNat / 4 % 256) <<< 32)) true := by
  have hw : ((s.entering i).course c).win = some w := (State.entering_win ha hc i).trans win
  have off (n : Nat) : BitVec.ofNat 64 (n % 256 * 2 ^ 32) = BitVec.ofNat 64 (n % 256) <<< 32 := by
    apply BitVec.eq_of_toNat_eq
    simp [BitVec.toNat_shiftLeft, Nat.shiftLeft_eq]
  let t : Trap := { code := code, lane := lane, pc := w.pc, addr := addr
                    info := info ||| (BitVec.ofNat 64 ((pc - w.pc).toNat / 4 % 256) <<< 32), window := true, split := k }
  refine ⟨_, ?_, enterTrap_traps ha hc can (t := t) rfl i⟩
  have taken := State.raise_taken (entering_canTrap hc can (i := i)) (t := t) fun _ => rfl
  rw [settleExn_trapWindow ((s.entering_cur i).trans hc) hw hb, ← taken, off]

/-- A trap whose TPC is the next instruction (R350). -/
theorem settleExn_trapsNext (win : fixedLatency i = false) (code : Nat) (addr info pc len : Word) :
    ∃ t, (s.entering i).settleExn pc len (.trapNext code addr info) = .next t ∧ Traps s t c k code 127 (pc + len) addr info := by
  have hw : ((s.entering i).course c).win = none := (State.entering_win ha hc i).trans (by simp [win])
  let t : Trap := { code := code, pc := pc + len, addr := addr, info := info, split := k }
  refine ⟨_, ?_, enterTrap_traps ha hc can (t := t) rfl i⟩
  have taken := State.raise_taken (entering_canTrap hc can (i := i)) (t := t) (by simp [hw])
  rw [settleExn_trapNext ((s.entering_cur i).trans hc), ← taken]

end

/-! ### A lane that has stopped stays as it is -/

theorem State.as_lanes (s : State) (a : Agent) (f : State → State) : (s.as a f).lanes = (f { s with cur := a }).lanes := rfl

theorem State.setS_cur (s : State) (n : Nat) (v : Word) : (s.setS n v).cur = s.cur := (s.setS_frame n v).cur

/-- A course that writes a scalar and places what follows changes no lane. -/
theorem State.setS_notBefore_lanes {s : State} {c k : Nat} (hc : s.cur = .course c k) (n : Nat) (v : Word) (t : Nat) :
    ((s.setS n v).notBefore t).lanes = s.lanes := by
  have : (s.setS n v).lanes = s.lanes := by
    simp only [State.setS, State.modRegs, State.modSplit, hc]
    split
    · rfl
    · split <;> rfl
  simp only [State.notBefore, State.modSight, s.setS_cur, hc]
  exact this

/-- An ejected lane that writes a scalar and places what follows changes no other lane. -/
theorem State.setS_notBefore_lane {s : State} {p q : Nat} (hc : s.cur = .lane p) (hq : q ≠ p) (n : Nat) (v : Word) (t : Nat) :
    ((s.setS n v).notBefore t).lane q = s.lane q := by
  have other (t : State) (f : Lane → Lane) : (t.modLane p f).lane q = t.lane q := modify_getD_other _ _ _ hq
  have : (s.setS n v).lane q = s.lane q := by
    simp only [State.setS, State.modRegs, hc]
    split
    · rfl
    · split
      · exact other ..
      · rfl
  simp only [State.notBefore, State.modSight, s.setS_cur, hc, other]
  exact this

theorem State.recheckSync_lanes (s : State) (b : Nat) : (s.recheckSync b).lanes = s.lanes := by
  unfold State.recheckSync
  refine foldl_same State.lanes _ _ (fun s c => foldl_same State.lanes _ _ (fun s e => ?_) s) s
  dsimp only
  split
  · split
    · exact State.setS_notBefore_lanes (c := c) (k := e.2) rfl ..
    · rfl
  · rfl

theorem State.releaseBars_lanes (s : State) (b : Nat) : (s.releaseBars b).lanes = s.lanes := by
  unfold State.releaseBars
  refine foldl_same State.lanes _ _ (fun s c => foldl_same State.lanes _ _ (fun s e => ?_) s) s
  dsimp only
  split
  · split
    · rfl
    · exact State.setS_notBefore_lanes (c := c) (k := e.2) rfl ..
  · rfl

theorem State.completeBar_lanes (s : State) (b n : Nat) : (s.completeBar b n).lanes = s.lanes := State.releaseBars_lanes ..

theorem State.checkBar_lanes (s : State) (b n : Nat) : (s.checkBar b n).lanes = s.lanes := by
  unfold State.checkBar
  dsimp only
  split
  · rfl
  · rw [apply_ite State.lanes, State.completeBar_lanes, ite_self]

theorem State.afterCourseEnd_lanes (s : State) (c : Nat) (abandoned : Bool) : (s.afterCourseEnd c abandoned).lanes = s.lanes := by
  unfold State.afterCourseEnd
  dsimp only
  refine foldl_same State.lanes _ _ (fun s n => ?_) s
  split
  · exact State.completeBar_lanes ..
  · exact State.checkBar_lanes ..

theorem State.noteMark_lanes (s : State) (c : Nat) (va : Word) : (s.noteMark c va).lanes = s.lanes := by
  unfold State.noteMark
  split
  · unfold State.noteWaiters
    split
    · rfl
    · exact (congrArg State.lanes (State.storeBytes_aside s ..) :)
  · rfl

section
variable {q : Nat} {y : Lane} (dead : y.st.live = false) (ready : y.wait = .ready)

include ready in
theorem State.recheckSyncLanes_lane {s : State} (h : s.lane q = y) (b : Nat) : (s.recheckSyncLanes b).lane q = y := by
  unfold State.recheckSyncLanes
  refine List.foldlRecOn (motive := fun (t : State) => t.lane q = y) _ _ h fun t ht e he => ?_
  split
  case h_2 => exact ht
  case h_1 off g d hw =>
    have other : q ≠ e.2 := by
      intro hq
      have he : s.lanes[q]? = some e.1 := hq ▸ List.mem_zipIdx_iff_getElem?.mp he
      have : e.1 = y := by simpa [State.lane, he] using h
      simp [this, ready] at hw
    split
    · split
      · exact (modify_getD_other _ _ _ other).trans ((State.setS_notBefore_lane (p := e.2) rfl other ..).trans ht)
      · exact ht
    · exact ht

include ready in
theorem State.dropCopy_lane {s : State} (h : s.lane q = y) (x : Copy) (code : Nat) (addr : Word) :
    (s.dropCopy x code addr).lane q = y := by
  unfold State.dropCopy
  rw [State.modCourse_lane]
  split
  · refine State.recheckSyncLanes_lane ready ?_ _
    rw [State.lane, State.recheckSync_lanes]
    exact h
  · exact h

include dead ready in
theorem State.killCourse_lane {s : State} (h : s.lane q = y) (c : Nat) (k : Kill) : (s.killCourse c k).lane q = y := by
  have ended : ((s.lanes.map fun (x : Lane) =>
      if x.course == c && x.st.live then { x with st := .done, wait := .ready } else x).getD q default) = y := by
    simp only [State.lane, List.getD_eq_getElem?_getD, List.getElem?_map] at h ⊢
    cases hx : s.lanes[q]? with
    | none => simpa [hx] using h
    | some x =>
      have hx : x = y := by simpa [hx] using h
      simp [hx, dead]
  unfold State.killCourse
  dsimp only
  split
  · exact h
  · refine foldl_keeps (P := fun (t : State) => t.lane q = y) _ _ (fun t va ht => ?_) _ ?_
    · rw [State.lane, State.noteMark_lanes]
      exact ht
    · rw [State.lane, State.afterCourseEnd_lanes]
      refine foldl_keeps (P := fun (t : State) => t.lane q = y) _ _ (fun t x ht => ?_) _ ended
      split
      · exact State.dropCopy_lane ready ht ..
      · exact ht

include dead ready in
theorem State.raise_lane {s : State} (h : s.lane q = y) (c : Nat) (t : Trap) : (s.raise c t).lane q = y := by
  unfold State.raise State.deliver
  dsimp only
  split
  · exact h
  · split
    · exact h
    · split
      · exact h
      · split
        · split
          · exact State.killCourse_lane dead ready h ..
          · exact h
        · split
          · exact State.killCourse_lane dead ready h ..
          · exact h

include dead ready in
theorem State.settleToken_lane {s : State} (h : s.lane q = y) (c t : Nat) : (s.settleToken c t).lane q = y := by
  unfold State.settleToken
  dsimp only
  split
  · exact h
  · split
    · split
      · exact h
      · have : (s.reviveToken c t).lanes = s.lanes := by
          unfold State.reviveToken
          dsimp only
          split
          · rfl
          · split <;> rfl
        rwa [State.lane, this]
    · split
      · split
        · exact h
        · refine State.raise_lane dead ready ?_ ..
          exact h
      · exact h

include dead ready in
theorem State.settle_lane {s : State} (h : s.lane q = y) (c : Nat) : (s.settle c).lane q = y := by
  have tokens : ((List.range 8).foldl (fun s t => s.settleToken c t) s).lane q = y :=
    foldl_keeps (P := fun (t : State) => t.lane q = y) _ _ (fun t n ht => State.settleToken_lane dead ready ht c n) s h
  unfold State.settle
  dsimp only
  generalize (List.range 8).foldl (fun s t => s.settleToken c t) s = u at tokens
  split
  · exact h
  · split
    · exact tokens
    · refine State.raise_lane dead ready ?_ ..
      split <;> exact tokens

end

/-- A fault of an ejected lane stops it at the PC with the code, its registers as they are (R141). -/
theorem State.stopLane_lane {s : State} {q : Nat} (hq : q < s.lanes.length) (code : Nat) (pc : Word) :
    (s.stopLane q code pc).lane q = { s.lane q with st := .stopped code, wait := .ready, pc := pc } := by
  unfold State.stopLane
  refine State.settle_lane rfl rfl ?_ _
  exact (State.modLane_lane s q q _ hq).trans (if_pos rfl)

end Sys2Proof.Machine
end

section
/-!
The statement of the traps that operands alone decide, from how an instruction that faults is settled.
-/

namespace Sys2Proof.Machine

/-! ### The lowest lane with an invalid latch -/

theorem maskList_head {m : Mask} {l : Nat} (hl : l < 96) (h : m.has l = true) (low : ∀ j < l, m.has j = false) :
    ∃ rest, Mask.list m = l :: rest := by
  have mem : l ∈ Mask.list m := mem_maskList.mpr ⟨hl, h⟩
  have sorted : (Mask.list m).Pairwise (· < ·) := List.pairwise_lt_range.filter _
  cases hm : Mask.list m with
  | nil => simp [hm] at mem
  | cons a rest =>
    rw [hm] at mem sorted
    have ha : m.has a = true := (mem_maskList.mp (hm ▸ List.mem_cons_self)).2
    have : ¬a < l := fun h => by simp [low a h] at ha
    rcases List.mem_cons.mp mem with e | e
    · exact ⟨rest, by rw [e]⟩
    · exact absurd (List.rel_of_pairwise_cons sorted e) this

theorem getLsbD_foldl_or (is : List Nat) (f : Nat → Mask) (b : Mask) (j : Nat) :
    (is.foldl (fun b i => b ||| f i) b).getLsbD j = (b.getLsbD j || is.any fun i => (f i).getLsbD j) := by
  induction is generalizing b with
  | nil => simp
  | cons i is ih => simp [ih, Bool.or_assoc]

theorem mem_latchReads {fs : List (BitVec 12)} {i : Nat} : i ∈ latchReads fs ↔ ∃ f ∈ fs, f.getLsbD 11 = true ∧ f.toNat % 4 = i := by
  simp [latchReads]

/-- A latch that some acted lane lacks raises LATCH_EMPTY at the lowest such lane (R124). -/
theorem latchCheck_error {s : State} {m : Mask} {fs : List (BitVec 12)} {l : Nat}
    (bad : m.has l = true ∧ ∃ f ∈ fs, f.getLsbD 11 = true ∧ (s.latch (f.toNat % 4)).valid.has l = false)
    (low : ∀ j < l, ¬(m.has j = true ∧ ∃ f ∈ fs, f.getLsbD 11 = true ∧ (s.latch (f.toNat % 4)).valid.has j = false)) (hl : l < 96) :
    s.latchCheck m fs = .error (.trap tLatchEmpty l 0 0) := by
  have has (j : Nat) (hj : j < 96) : ((latchReads fs).foldl (fun b i => b ||| (m &&& ~~~(s.latch i).valid)) 0).has j = true ↔
      m.has j = true ∧ ∃ f ∈ fs, f.getLsbD 11 = true ∧ (s.latch (f.toNat % 4)).valid.has j = false := by
    rw [Mask.has, getLsbD_foldl_or (latchReads fs) fun i => m &&& ~~~(s.latch i).valid]
    simp only [List.any_eq_true, mem_latchReads, Mask.has, BitVec.getLsbD_and, BitVec.getLsbD_not, hj, decide_true, Bool.true_and,
      Bool.and_eq_true, Bool.not_eq_true', BitVec.ofNat_eq_ofNat, BitVec.getLsbD_zero, Bool.false_or]
    constructor
    · rintro ⟨-, ⟨f, hf, hb, rfl⟩, hm, hv⟩
      exact ⟨hm, f, hf, hb, hv⟩
    · rintro ⟨hm, f, hf, hb, hv⟩
      exact ⟨_, ⟨f, hf, hb, rfl⟩, hm, hv⟩
  obtain ⟨rest, hr⟩ := maskList_head hl ((has l hl).mpr bad) fun j hj => by
    have := mt (has j (by omega)).mp (low j hj)
    simpa using this
  simp only [State.latchCheck, hr]

/-! ### How a fault is reported -/

/-- The instruction traps with the code; in a latch window that it leaves open, at the window's first instruction, with its offset
from it (R127, R343). -/
def Reports (s : State) (i : Instr) (code lane : Nat) (info : Word) : Prop :=
  ∀ c k, s.cur = .course c k → CanTrap s c →
    match (if fixedLatency i then (s.course c).win else none) with
    | none => ∃ t, exec i s = .next t ∧ Traps s t c k code lane s.pc 0 info
    | some w => ∃ t, exec i s = .next t
        ∧ Traps s t c k code lane w.pc 0 (info ||| (BitVec.ofNat 64 ((s.pc - w.pc).toNat / 4 % 256) <<< 32)) true

theorem reports_of_settle {s : State} {i : Instr} {code lane : Nat} {info : Word} (ha : s.hasAgent = true) (hb : code ≠ tBatch)
    (h : exec i s = (s.entering i).settleExn s.pc (Instr.len i) (.trap code lane 0 info)) : Reports s i code lane info := by
  intro c k hc can
  rw [h]
  split
  case h_1 win => exact settleExn_traps ha hc can win hb ..
  case h_2 w win => exact settleExn_window ha hc can win hb ..

/-- Of an instruction, whose checks raise a fault before any effect. -/
theorem exec_prologue {s : State} {i : Instr} {e : Exn} (ha : s.hasAgent = true) (hi : isEvent i = false)
    (hp : (s.entering i).prologue i = .error e) : exec i s = (s.entering i).settleExn s.pc (Instr.len i) e := by
  obtain ⟨body, h⟩ := exec_runs s i hi
  rw [h, instr_prologue ha hp]

/-- An event names no register, and none is forbidden to an ejected lane. -/
theorem event_plain {i : Instr} (h : isEvent i = true) : usesOf i = {} ∧ ejectIllegal i = false := by
  cases i <;> first | exact ⟨rfl, rfl⟩ | exact nomatch h

/-! ### Registers beyond the allotment -/

theorem bounds_reports {s : State} (ha : s.hasAgent = true) {i : Instr}
    (h : ¬∀ r ∈ (usesOf i).vr ++ (usesOf i).vw, r < (s.course s.curCourse).allot) : Reports s i tRegBounds 127 (wordLow i) := by
  have hi : isEvent i = false := by
    by_contra hv
    simp [(event_plain (Bool.eq_true_of_not_eq_false hv)).1] at h
  refine reports_of_settle ha (by decide) (exec_prologue ha hi ?_)
  obtain ⟨-, hc, allot⟩ := s.entering_same i
  have : ((usesOf i).vr ++ (usesOf i).vw).any (fun r => decide ((s.course s.curCourse).allot ≤ r)) = true := by
    push Not at h
    obtain ⟨r, hr, out⟩ := h
    exact List.any_eq_true.mpr ⟨r, hr, decide_eq_true out⟩
  simp only [State.prologue, hc, allot, this, if_true, trapC]

/-! ### Instructions that an ejected lane may not execute -/

theorem ejectIllegal_stops {s : State} (ha : s.hasAgent = true) {i : Instr} (he : ejectIllegal i = true)
    (inside : ∀ r ∈ (usesOf i).vr ++ (usesOf i).vw, r < (s.course s.curCourse).allot) {q : Nat} (hc : s.cur = .lane q) :
    ∃ t, exec i s = .next t ∧ (t.lane q).st = .stopped tEjectIllegal ∧ (t.lane q).pc = s.pc := by
  have hi : isEvent i = false := by
    by_contra hv
    simp [(event_plain (Bool.eq_true_of_not_eq_false hv)).2] at he
  have hc' : (s.entering i).cur = .lane q := (s.entering_cur i).trans hc
  obtain ⟨-, cur, allot⟩ := s.entering_same i
  have fits : ((usesOf i).vr ++ (usesOf i).vw).any (fun r => decide ((s.course s.curCourse).allot ≤ r)) = false := by
    exact List.any_eq_false.mpr fun r hr => by simpa using inside r hr
  have hp : (s.entering i).prologue i = .error (trapC tEjectIllegal 0 (wordLow i)) := by
    simp [State.prologue, cur, allot, fits, State.isLane, hc', he]
  rw [exec_prologue ha hi hp, trapC, settleExn_lane hc' ..]
  refine ⟨_, rfl, ?_⟩
  rw [State.stopLane_lane]
  · exact ⟨rfl, rfl⟩
  · exact State.hasAgent_lane ((s.entering_hasAgent i).trans ha) hc'

/-! ### Latches that are not valid -/

theorem v3Effect_error {o : V3} {ta tb : ElemTy} {f : Nat → Nat → Nat → Nat → Nat × BitVec 6} {s : State} {e : Exn}
    (h : s.latchCheck (s.acted o.g) [o.a, o.b] = .error e) : v3Effect o ta tb false f s = .error e := by
  simp only [v3Effect, Bool.false_eq_true, if_false, h]
  rfl

theorem intEffect_error {o : V3} {f : Nat → Bool → Nat → Nat → Nat × BitVec 6} {s : State} {e : Exn}
    (h : s.latchCheck (s.acted o.g) [o.a, o.b] = .error e) : intEffect o f false s = .error e := v3Effect_error h

theorem floatEffect_error {o : V3} {f : Ext → Ext → Ext × BitVec 6} {s : State} {e : Exn}
    (h : s.latchCheck (s.acted o.g) [o.a, o.b] = .error e) : floatEffect o f s = .error e := by
  simp only [floatEffect, roundEffect, h]
  rfl

theorem effVcmp_error {o : V3} {s : State} {e : Exn} (h : s.latchCheck (s.acted o.g) [o.a, o.b] = .error e) :
    effVcmp o s = .error e := by
  simp only [effVcmp, v3Effect_error h]
  rfl

theorem vecInstr_error {i : Instr} {eff : State → Except Exn VRes} {s : State} {e : Exn} (h : Ready i s)
    (he : eff (s.entering i) = .error e) : vecInstr i eff s = (s.entering i).settleExn s.pc (Instr.len i) e :=
  seqInstr_error h (by rw [he]; rfl)

/-- The instructions by which the statement shows LATCH_EMPTY: each checks its latches before anything else. -/
theorem latches_first {s : State} {o : V3} {i : Instr}
    (hi : i ∈ [Instr.vadd o, .vsub o, .vand o, .vmin o, .vcmp o, .vfadd o, .vfmul o]) (h : Ready i s) {e : Exn}
    (he : (s.entering i).latchCheck (s.acted o.g) [o.a, o.b] = .error e) :
    exec i s = (s.entering i).settleExn s.pc (Instr.len i) e := by
  rw [← s.entering_acted i] at he
  simp only [List.mem_cons, List.not_mem_nil, or_false] at hi
  rcases hi with rfl | rfl | rfl | rfl | rfl | rfl | rfl
  · exact vecInstr_error h (intEffect_error he)
  · exact vecInstr_error h (intEffect_error he)
  · exact vecInstr_error h (intEffect_error he)
  · exact vecInstr_error h (intEffect_error he)
  · exact vecInstr_error h (effVcmp_error he)
  · exact vecInstr_error h (floatEffect_error he)
  · exact vecInstr_error h (floatEffect_error he)

theorem latch_reports {s : State} {o : V3} {l : Nat} {i : Instr}
    (hi : i ∈ [Instr.vadd o, .vsub o, .vand o, .vmin o, .vcmp o, .vfadd o, .vfmul o]) (h : Ready i s) (hl : l < 96)
    (bad : (s.acted o.g).has l = true ∧ ∃ f ∈ [o.a, o.b], f.getLsbD 11 = true ∧ (s.latch (f.toNat % 4)).valid.has l = false)
    (low : ∀ j < l, ¬((s.acted o.g).has j = true
      ∧ ∃ f ∈ [o.a, o.b], f.getLsbD 11 = true ∧ (s.latch (f.toNat % 4)).valid.has j = false)) : Reports s i tLatchEmpty l 0 := by
  refine reports_of_settle h.agent (by decide) (latches_first hi h ?_)
  have latch (k : Nat) : (s.entering i).latch k = s.latch k := regs_latch (by rw [entering_regs]) k
  refine latchCheck_error ?_ ?_ hl <;> simp only [latch]
  · exact bad
  · exact low

/-! ### Register targets -/

theorem regTarget_error {v : Word} (h : v.extractLsb' 0 2 ≠ 0) : regTarget v = .error (trapC tMisaligned v) := by
  have : v.toNat % 4 ≠ 0 := by
    intro e
    refine h (BitVec.eq_of_toNat_eq ?_)
    simpa using e
  simp [regTarget, this]

theorem regBranch_traps {i : Instr} {s : State} {n : Nat} {g : State → Word → Word → Word × State} {v : Word} (h : Ready i s)
    (hi : fixedLatency i = false) (hn : v = s.sreg n) (hv : v.extractLsb' 0 2 ≠ 0) {c k : Nat} (hc : s.cur = .course c k)
    (can : CanTrap s c) :
    ∃ t, branch i (fun t next => (regTarget (t.sreg n)).map (g t next)) s = .next t ∧ Traps s t c k tMisaligned 127 s.pc v 0 := by
  have target : regTarget ((s.entering i).sreg n) = .error (trapC tMisaligned v) := by
    rw [s.entering_sreg, ← hn]
    exact regTarget_error hv
  rw [branch, instr_error h (e := trapC tMisaligned v) (by rw [target]; rfl)]
  exact settleExn_traps h.agent hc can (by simp [hi]) (by decide) ..

/-- Settles O46: each check comes before every effect, and the fault is settled as every instruction's is. -/
theorem operandTraps : Obligations.OperandTraps := by
  intro s ha
  refine ⟨fun i h => bounds_reports ha h, fun i he inside q hc => ejectIllegal_stops ha he inside hc,
    fun o l i hi h hl bad low => latch_reports hi h hl bad low, fun o i v hi hv h c k hc can => ?_⟩
  simp only [List.mem_cons, List.not_mem_nil, or_false, Prod.mk.injEq] at hi
  rcases hi with ⟨rfl, hn⟩ | ⟨rfl, hn⟩ | ⟨rfl, hn⟩
  · exact regBranch_traps (g := fun t _ v => (v, t)) h rfl hn hv hc can
  · exact regBranch_traps (g := fun t next v => (v, t.setS 60 next)) h rfl hn hv hc can
  · exact regBranch_traps (g := fun t _ v => (v, t)) h rfl hn hv hc can

end Sys2Proof.Machine
end

section
/-!
The statement of TRAP, BRK, TRET, the guard pattern and reserved opcodes.
-/

namespace Sys2Proof.Machine

/-! ### Instructions that do nothing but fault -/

/-- An instruction whose work is a fault: its course takes the trap, or its ejected lane stops at it (R141). -/
theorem faulting {i : Instr} {s : State} {e : Exn} {code : Nat} {pc addr info : Word} (h : Ready i s)
    (hx : exec i s = instr i (fun _ => .error e) s) (hi : fixedLatency i = false) (hb : code ≠ tBatch)
    (he : (e = trapC code addr info ∧ pc = s.pc) ∨ (e = .trapNext code addr info ∧ pc = s.nextPc i)) :
    (∀ c k, s.cur = .course c k → CanTrap s c → ∃ t, exec i s = .next t ∧ Traps s t c k code 127 pc addr info)
      ∧ (∀ q, s.cur = .lane q → ∃ t, exec i s = .next t ∧ (t.lane q).st = .stopped code ∧ (t.lane q).pc = s.pc
          ∧ (t.lane q).regs = (s.lane q).regs) := by
  have settled : exec i s = (s.entering i).settleExn s.pc (Instr.len i) e := hx.trans (instr_error h rfl)
  refine ⟨fun c k hc can => ?_, fun q hc => ?_⟩
  · rw [settled]
    rcases he with ⟨rfl, rfl⟩ | ⟨rfl, rfl⟩
    · exact settleExn_traps h.agent hc can (by simp [hi]) hb ..
    · exact settleExn_trapsNext h.agent hc can hi ..
  · have hc' : (s.entering i).cur = .lane q := (s.entering_cur i).trans hc
    have stops : exec i s = .next ((s.entering i).stopLane q code s.pc) := by
      rw [settled]
      rcases he with ⟨rfl, -⟩ | ⟨rfl, -⟩
      · exact settleExn_lane hc' ..
      · exact settleExn_laneNext hc' ..
    have regs : ((s.entering i).lane q).regs = (s.lane q).regs := by
      have := entering_regs s i
      simpa only [State.regs, hc', hc] using this
    have lane := State.stopLane_lane (State.hasAgent_lane ((s.entering_hasAgent i).trans h.agent) hc') code s.pc
    exact ⟨_, stops, by rw [lane], by rw [lane], by rw [lane]; exact regs⟩

/-! ### Returning from a trap -/

/-- What the return of split `k` from a trap does to the course (R350, R231). -/
def returnCourse (k : Nat) (x : Course) : Course :=
  { x with
    trap := { x.trap with level := false, nested := false, cause := x.trap.cause &&& ~~~(0x100 : Word), batches := [] }
    regs := { x.regs with bl := [] }
    fails := x.fails.filter fun f => !x.trap.batches.contains f.seq
    splits := (x.splits.map fun z => { z with handler := false }).modify k fun z => { z with pc := x.trap.pc, wait := .ready } }

theorem State.returnTrap_eq (s : State) (c k : Nat) :
    s.returnTrap c k = (((s.modCourse c (returnCourse k)).settle c).recheckBatches c) := rfl

/-- The split that returned, and the others. -/
theorem returnCourse_splits (i : Instr) {k : Nat} {x : Course} (hk : k < x.splits.length) (j : Nat) :
    (returnCourse k (x.began i k)).splits.getD j default =
      if j = k then { x.splits.getD k default with pc := x.trap.pc, wait := .ready, handler := false }
      else { x.splits.getD j default with handler := false } := by
  simp only [returnCourse, Course.began, List.getD_eq_getElem?_getD, List.getElem?_modify, List.getElem?_map]
  by_cases hj : j = k
  · subst hj
    simp [hk]
  · simp only [Ne.symm hj, hj, if_false]
    cases x.splits[j]? <;> rfl

theorem returnCourse_waits {i : Instr} {k : Nat} {x : Course} (hk : k < x.splits.length)
    (waits : ∀ y ∈ x.splits, ∀ n, y.wait ≠ .batch n) : ∀ y ∈ (returnCourse k (x.began i k)).splits, ∀ n, y.wait ≠ .batch n := by
  intro y hy n
  obtain ⟨j, hj, rfl⟩ := List.getElem_of_mem hy
  rw [← List.getD_eq_getElem _ default hj, returnCourse_splits i hk]
  split
  · simp
  · have hj' : j < x.splits.length := by simpa [returnCourse, Course.began] using hj
    rw [List.getD_eq_getElem _ _ hj']
    exact waits _ (List.getElem_mem hj') n

theorem State.modCourse_self {s : State} {c : Nat} {f : Course → Course} (h : f (s.course c) = s.course c) : s.modCourse c f = s := by
  have : s.courses.modify c f = s.courses := by
    apply List.ext_getElem?
    intro j
    by_cases hj : c = j
    · subst hj
      cases hx : s.courses[c]? with
      | none => simp [hx]
      | some x =>
        have : s.course c = x := by simp [State.course, hx]
        simp [hx, this ▸ h]
    · simp [hj]
  simp [State.modCourse, this]

/-- With no open token, and with a split that does not wait, nothing of the course's tokens changes. -/
theorem State.settle_none {s : State} {c k : Nat} (shut : ∀ y ∈ (s.course c).tokens, y.isOpen = false)
    (hk : k < (s.course c).splits.length) (hm : (s.split c k).m ≠ 0) (hw : (s.split c k).wait = .ready) : s.settle c = s := by
  have notFull (t : Nat) : (s.course c).tokenFull t = false := by
    have : ((s.course c).token t).isOpen = false := by
      rw [Course.token, List.getD_eq_getElem?_getD]
      cases ht : (s.course c).tokens[t]? with
      | none => rfl
      | some y => exact shut y (List.mem_of_getElem? ht)
    simp [Course.tokenFull, this]
  have tokens : (List.range 8).foldl (fun s t => s.settleToken c t) s = s :=
    foldl_keeps (P := (· = s)) _ _ (fun a t ha => by subst ha; simp [State.settleToken, notFull]) s rfl
  have alive : s.deadToken c = none := by
    have hs : ((s.course c).splits[k], k) ∈ (s.course c).splits.zipIdx := List.mem_zipIdx_iff_getElem?.mpr (by simp [hk])
    have hx : (s.course c).splits[k] = s.split c k := by simp [State.split, hk]
    have fewer (g : Split × Nat → Option Nat) (hg : g ((s.course c).splits[k], k) = none) :
        (((s.course c).splits.zipIdx.filter fun e => e.1.m != 0).filterMap g).length
          ≠ ((s.course c).splits.zipIdx.filter fun e => e.1.m != 0).length :=
      (List.length_filterMap_lt_length_iff_exists.mpr ⟨_, List.mem_filter.mpr ⟨hs, by simpa [hx] using hm⟩, hg⟩).ne
    unfold State.deadToken
    refine if_pos ?_
    rw [Bool.or_eq_true, bne_iff_ne]
    exact .inr (fewer _ (by simp [hx, hw]))
  unfold State.settle
  simp only [tokens, alive, ite_self]

theorem State.recheckBatches_none {s : State} {c : Nat}
    (front : (s.course c).openBatch ≤ (s.course c).oldest ∨ s.batchBusy c (s.course c).oldest = true)
    (late : ∀ e ∈ (s.course c).lateFlags, s.batchDone c e.1 = false) (waits : ∀ y ∈ (s.course c).splits, ∀ n, y.wait ≠ .batch n) :
    s.recheckBatches c = s := by
  have leave : s.leaveBatches c = s := by
    unfold State.leaveBatches
    refine foldl_keeps (P := (· = s)) _ _ (fun a _ ha => ?_) s rfl
    subst ha
    refine if_neg ?_
    rcases front with h | h <;> simp [h]
  have mine : (s.course c).lateFlags.filter (fun e => s.batchDone c e.1) = [] := by simpa using late
  have retire : s.retireBatches c = s := by
    unfold State.retireBatches
    simp only [leave, mine]
    exact State.modCourse_self (by simp)
  unfold State.recheckBatches State.forSplits
  rw [retire]
  refine List.foldlRecOn (motive := (· = s)) _ _ rfl fun a ha e he => ?_
  subst ha
  have := waits e.1 (List.mem_of_getElem? (List.mem_zipIdx_iff_getElem?.mp he))
  dsimp only
  split
  case h_1 n hn => exact absurd hn (this n)
  case h_2 => rfl

/-- TRET with nothing to settle: the course has returned from its trap and nothing else changed. -/
theorem execTret_returns {s : State} {o : Sys} {c k : Nat} (hc : s.cur = .course c k) (h : Ready (.tret o) s)
    (level : (s.course c).trap.level = true) (shut : ∀ y ∈ (s.course c).tokens, y.isOpen = false) (hm : (s.split c k).m ≠ 0)
    (front : (s.course c).openBatch ≤ (s.course c).oldest ∨ s.batchBusy c (s.course c).oldest = true)
    (late : ∀ e ∈ (s.course c).lateFlags, s.batchDone c e.1 = false) (waits : ∀ y ∈ (s.course c).splits, ∀ n, y.wait ≠ .batch n) :
    exec (.tret o) s = .next (s.modCourse c fun x => returnCourse k (x.began (.tret o) k)) := by
  obtain ⟨hcl, hkl⟩ := State.hasAgent_course h.agent hc
  have entered : (s.entering (.tret o)).course c = (s.course c).began (.tret o) k := by
    rw [State.entering_course hc, State.modCourse_course _ _ _ _ hcl, if_pos rfl]
  have body : (s.entering (.tret o)).returnTrap c k = s.modCourse c fun x => returnCourse k (x.began (.tret o) k) := by
    rw [State.returnTrap_eq, State.entering_course hc, State.modCourse_modCourse]
    have self : (s.modCourse c (returnCourse k ∘ fun x => x.began (.tret o) k)).course c
        = returnCourse k ((s.course c).began (.tret o) k) := (State.modCourse_course _ _ _ _ hcl).trans (if_pos rfl)
    have hk : k < (returnCourse k ((s.course c).began (.tret o) k)).splits.length := by simpa [returnCourse, Course.began] using hkl
    have mine := (returnCourse_splits (.tret o) hkl k).trans (if_pos rfl)
    rw [State.settle_none (k := k), State.recheckBatches_none]
    · rfl
    · rw [self]
      exact front
    · simp only [State.batchDone, self]
      exact late
    · rw [self]
      exact returnCourse_waits hkl waits
    · rw [self]
      exact shut
    · rw [self]
      exact hk
    · rw [State.split, self]
      exact mine ▸ hm
    · rw [State.split, self]
      exact congrArg Split.wait mine
  show execTret o s = _
  unfold execTret
  refine instr_next h ?_
  have noneAtTrap : (s.course c).tokens.any (fun y => y.isOpen && y.atTrap) = false :=
    List.any_eq_false.mpr fun y hy => by simp [shut y hy]
  have level' : ((s.course c).began (.tret o) k).trap.level = true := level
  have tokens : ((s.course c).began (.tret o) k).tokens = (s.course c).tokens := rfl
  simp [(s.entering_cur (.tret o)).trans hc, entered, level', tokens, noneAtTrap, body]

/-- Settles O43: the first four do nothing but fault; TRET returns its course, or is a fault outside trap level. -/
theorem trapInstructions : Obligations.TrapInstructions := by
  intro s o w
  refine ⟨fun i code pc addr info hi h => ?_, fun c k hc h => ⟨fun level shut hm front late waits => ?_, fun can => ?_⟩⟩
  · simp only [List.mem_cons, List.not_mem_nil, or_false, Prod.mk.injEq] at hi
    rcases hi with ⟨rfl, rfl, rfl, rfl, rfl⟩ | ⟨rfl, rfl, rfl, rfl, rfl⟩ | ⟨rfl, rfl, rfl, rfl, rfl⟩ | ⟨rfl, rfl, rfl, rfl, rfl⟩
    · exact faulting h rfl rfl (by decide) (.inr ⟨rfl, rfl⟩)
    · exact faulting h rfl rfl (by decide) (.inl ⟨rfl, rfl⟩)
    · exact faulting h rfl rfl (by decide) (.inl ⟨rfl, rfl⟩)
    · exact faulting h rfl rfl (by decide) (.inl ⟨rfl, rfl⟩)
  · obtain ⟨hcl, hkl⟩ := State.hasAgent_course h.agent hc
    have self := State.modCourse_course s c c (fun x => returnCourse k (x.began (.tret o) k)) hcl
    rw [if_pos rfl] at self
    have split (j : Nat) := (congrArg (fun x => x.splits.getD j default) self).trans (returnCourse_splits (.tret o) hkl j)
    have mine := (split k).trans (if_pos rfl)
    refine ⟨_, execTret_returns hc h level shut hm front late waits, ?_, ?_, ?_, ?_, ?_, ?_, ?_, rfl, rfl, ?_⟩
    · simp only [State.pc, State.modCourse_cur, hc]
      exact congrArg Split.pc mine
    · simp only [State.wait, State.modCourse_cur, hc]
      exact congrArg Split.wait mine
    · rw [self]; rfl
    · rw [self]; rfl
    · rw [self]; rfl
    · intro j
      refine (congrArg Split.handler (split j)).trans ?_
      split <;> rfl
    · intro j hj
      exact (split j).trans (if_neg hj)
    · intro d hd
      simp [Ne.symm hd]
  · have level : ((s.entering (.tret o)).course c).trap.level = false := by
      rw [State.entering_course hc, State.modCourse_course _ _ _ _ (State.hasAgent_course h.agent hc).1, if_pos rfl]
      exact can.level
    have : exec (.tret o) s = (s.entering (.tret o)).settleExn s.pc (Instr.len (.tret o)) (trapC tIllegalOp 0 (wordLow (.tret o))) := by
      show execTret o s = _
      unfold execTret
      refine instr_error h ?_
      simp [(s.entering_cur (.tret o)).trans hc, level]
    rw [this]
    exact settleExn_traps h.agent hc can rfl (by decide) ..

end Sys2Proof.Machine
end

section
/-!
The statement of PAIR: what the write of each half's result leaves, and that the halves write apart from each other.
-/

namespace Sys2Proof.Machine

/-! ### What the write of a result depends on -/

theorem get_foldl_congr [DecidableEq α] (d : α) (ls : List (Nat × α)) (base k : Nat) {c c' : Cells α}
    (h : Cells.get d c k = Cells.get d c' k) :
    Cells.get d (ls.foldl (fun c x => Cells.set d c (base + x.1) x.2) c) k
      = Cells.get d (ls.foldl (fun c x => Cells.set d c (base + x.1) x.2) c') k := by
  induction ls generalizing c c' with
  | nil => exact h
  | cons e ls ih => exact ih (by simp only [Cells.get_set, h])

theorem State.setV_vreg_congr {s t : State} (hs : s.hasAgent = true) (ht : t.hasAgent = true) {n l : Nat} (h : s.vreg n l = t.vreg n l)
    (r : Nat) (vals : List (Nat × Lane32)) : (s.setV r vals).vreg n l = (t.setV r vals).vreg n l := by
  obtain ⟨_, es⟩ := State.setV_regs hs r vals
  obtain ⟨_, et⟩ := State.setV_regs ht r vals
  simp only [State.vreg, es, et]
  exact get_foldl_congr 0 vals (96 * r) _ h

/-- The part of a write that goes into registers and predicates. -/
def State.writeRes (s : State) (r : VRes) : State :=
  match r.dst with
  | .reg d => if r.ws then s else s.setV d (r.vals.map fun e => (e.1, BitVec.ofNat 32 e.2))
  | .pair d | .two d => s.setV64 d (r.vals.map fun e => (e.1, BitVec.ofNat 64 e.2))
  | .pred n => s.setP n r.m (predMask r.vals)

/-- The part that goes into BL0. -/
def VRes.pushed (r : VRes) : List (Nat × Lane32) :=
  match r.dst with
  | .reg _ => r.vals.map fun e => (e.1, BitVec.ofNat 32 e.2)
  | _ => []

/-- The vector registers and the predicates that a write goes into. -/
def VRes.vregs (r : VRes) : List Nat :=
  match r.dst with
  | .reg d => if r.ws then [] else [d]
  | .pair d | .two d => [d, d + 1]
  | .pred _ => []

def VRes.pregs (r : VRes) : List Nat :=
  match r.dst with
  | .pred n => [n]
  | _ => []

/-- All that a write may touch. -/
def VRes.touch (r : VRes) : Touch := { v := r.vregs, p := r.pregs, flags := true, latches := true }

/-- A result without a carry-out whose values are those of lanes. -/
structure VRes.Simple (r : VRes) : Prop where
  carry : r.carry = none
  lanes : ∀ e ∈ r.vals, e.1 < 96

theorem State.commit_eq {r : VRes} (h : r.carry = none) (s : State) :
    s.commit r = ((s.writeRes r).pushLatch r.pushed).orFlags r.fl := by
  simp only [State.commit, State.writeRes, VRes.pushed, h]
  cases r.dst <;> rfl

theorem State.writeRes_hasAgent (s : State) (r : VRes) : (s.writeRes r).hasAgent = s.hasAgent := by
  unfold State.writeRes
  split
  · split
    · rfl
    · exact s.setV_hasAgent ..
  · exact s.setV64_hasAgent ..
  · exact s.setV64_hasAgent ..
  · exact s.setP_hasAgent ..

theorem State.writeRes_wait (s : State) (r : VRes) : (s.writeRes r).wait = s.wait := by
  unfold State.writeRes
  split
  · split
    · rfl
    · exact s.setV_wait ..
  · exact s.setV64_wait ..
  · exact s.setV64_wait ..
  · exact s.setP_wait ..

theorem State.writeRes_frame (s : State) {r : VRes} (h : r.Simple) : Frame { v := r.vregs, p := r.pregs } s (s.writeRes r) := by
  have lanes {β : Type} (g : Nat → β) : ∀ e ∈ r.vals.map (fun e => (e.1, g e.2)), e.1 < 96 := by
    intro e he
    obtain ⟨a, ha, rfl⟩ := List.mem_map.mp he
    exact h.lanes a ha
  unfold State.writeRes VRes.vregs VRes.pregs
  cases r.dst with
  | reg d =>
    dsimp only
    split
    · exact Frame.refl _ s
    · exact s.setV_frame _ _ (lanes _)
  | pair d => exact s.setV64_frame _ _ (lanes _)
  | two d => exact s.setV64_frame _ _ (lanes _)
  | pred n => exact s.setP_frame ..

theorem State.commit_frame (s : State) {r : VRes} (h : r.Simple) : Frame r.touch s (s.commit r) := by
  rw [State.commit_eq h.carry]
  exact (((s.writeRes_frame h).trans (State.pushLatch_frame _ r.pushed)).trans (State.orFlags_frame _ r.fl)).mono
    (by simp [Touch.join, VRes.touch]) (by simp [Touch.join, VRes.touch]) (by simp [Touch.join, VRes.touch])
    (by simp [Touch.join, VRes.touch]) (by simp [Touch.join, VRes.touch]) (by simp [Touch.join, VRes.touch])

theorem State.commit_wait {r : VRes} (h : r.carry = none) (s : State) : (s.commit r).wait = s.wait := by
  simp [State.commit_eq h, s.writeRes_wait]

theorem State.commit_hasAgent {r : VRes} (h : r.carry = none) (s : State) : (s.commit r).hasAgent = s.hasAgent := by
  simp [State.commit_eq h, s.writeRes_hasAgent]

section
variable {s t : State} {r : VRes} (h : r.Simple) (hs : s.hasAgent = true) (ht : t.hasAgent = true)
include h hs

/-- The registers after a write, from those after its first part. -/
theorem State.commit_regs : (s.commit r).regs =
    { (s.writeRes r).regs with
      bl := (⟨r.pushed.foldl (fun m x => m ||| Mask.one x.1) 0, r.pushed.foldl (fun c x => Cells.set 0 c x.1 x.2) []⟩
        :: s.regs.bl).take 4
      flags := s.regs.flags ||| r.fl } := by
  have ha : (s.writeRes r).hasAgent = true := (s.writeRes_hasAgent r).trans hs
  have f := s.writeRes_frame h
  rw [State.commit_eq h.carry, State.orFlags_regs (by simpa using ha), State.pushLatch_regs ha, f.flags rfl, f.latches rfl]

theorem State.commit_flags : (s.commit r).regs.flags = s.regs.flags ||| r.fl := by rw [State.commit_regs h hs]

theorem State.commit_latch_succ {k : Nat} (hk : k < 3) : (s.commit r).latch (k + 1) = s.latch k := by
  simp [State.latch, State.commit_regs h hs, List.getD_eq_getElem?_getD, hk]

include ht

theorem State.commit_latch_zero : (s.commit r).latch 0 = (t.commit r).latch 0 := by
  simp [State.latch, State.commit_regs h hs, State.commit_regs h ht]

theorem State.commit_vreg_congr {n l : Nat} (hl : l < 96) (e : s.vreg n l = t.vreg n l) : (s.commit r).vreg n l = (t.commit r).vreg n l := by
  have two (d : Nat) (vals : List (Nat × Word)) : (s.setV64 d vals).vreg n l = (t.setV64 d vals).vreg n l :=
    State.setV_vreg_congr (by simp [hs]) (by simp [ht]) (State.setV_vreg_congr hs ht e ..) ..
  simp only [State.vreg, State.commit_regs h hs, State.commit_regs h ht]
  show (s.writeRes r).vreg n l = (t.writeRes r).vreg n l
  unfold State.writeRes
  cases r.dst with
  | reg d =>
    dsimp only
    split
    · exact e
    · exact State.setV_vreg_congr hs ht e ..
  | pair d => exact two ..
  | two d => exact two ..
  | pred m =>
    dsimp only
    rw [(s.setP_frame ..).vregs n (by simp) l hl, (t.setP_frame ..).vregs n (by simp) l hl]
    exact e

theorem State.commit_preg_congr {n : Nat} (e : s.preg n = t.preg n) : (s.commit r).preg n = (t.commit r).preg n := by
  simp only [State.preg, State.commit_regs h hs, State.commit_regs h ht]
  show (s.writeRes r).preg n = (t.writeRes r).preg n
  by_cases hn : n ∈ r.pregs
  · unfold VRes.pregs at hn
    unfold State.writeRes
    cases hd : r.dst with
    | reg d => simp [hd] at hn
    | pair d => simp [hd] at hn
    | two d => simp [hd] at hn
    | pred m =>
      obtain rfl : n = m := by simpa [hd] using hn
      exact (State.setP_wrote hs ..).trans (e ▸ (State.setP_wrote ht ..).symm)
  · rw [(s.writeRes_frame h).pregs n hn, (t.writeRes_frame h).pregs n hn]
    exact e

end

/-! ### Two results that are written apart -/

/-- One result written after another, into other registers: each register holds what the result that changes it would leave alone. -/
theorem twice_vreg {s : State} (ha : s.hasAgent = true) {a b : VRes} (h : a.Simple) (h' : b.Simple) (apart : ∀ n ∈ a.vregs, n ∉ b.vregs)
    (n : Nat) {l : Nat} (hl : l < 96) : ((s.commit a).commit b).vreg n l =
      if (s.commit a).vreg n l ≠ s.vreg n l then (s.commit a).vreg n l else (s.commit b).vreg n l := by
  have ha' : (s.commit a).hasAgent = true := (State.commit_hasAgent h.carry s).trans ha
  by_cases hn : n ∈ b.vregs
  · have kept : (s.commit a).vreg n l = s.vreg n l := (s.commit_frame h).vregs n (fun m => apart n m hn) l hl
    rw [if_neg (by simp [kept]), State.commit_vreg_congr h' ha' ha hl kept]
  · have kept (t : State) : (t.commit b).vreg n l = t.vreg n l := (t.commit_frame h').vregs n hn l hl
    rw [kept, kept]
    split
    · rfl
    · exact not_not.mp ‹_›

theorem twice_preg {s : State} (ha : s.hasAgent = true) {a b : VRes} (h : a.Simple) (h' : b.Simple) (apart : ∀ n ∈ a.pregs, n ∉ b.pregs)
    (n : Nat) : ((s.commit a).commit b).preg n =
      if (s.commit a).preg n ≠ s.preg n then (s.commit a).preg n else (s.commit b).preg n := by
  have ha' : (s.commit a).hasAgent = true := (State.commit_hasAgent h.carry s).trans ha
  by_cases hn : n ∈ b.pregs
  · have kept : (s.commit a).preg n = s.preg n := (s.commit_frame h).pregs n (fun m => apart n m hn)
    rw [if_neg (by simp [kept]), State.commit_preg_congr h' ha' ha kept]
  · have kept (t : State) : (t.commit b).preg n = t.preg n := (t.commit_frame h').pregs n hn
    rw [kept, kept]
    split
    · rfl
    · exact not_not.mp ‹_›

/-! ### The effect of a half -/

theorem State.entering_latchCheck (s : State) (j : Instr) (m : Mask) (fs : List (BitVec 12)) :
    (s.entering j).latchCheck m fs = s.latchCheck m fs := by
  simp only [State.latchCheck, State.latch, entering_regs]

theorem State.entering_vsys (s : State) (j : Instr) (l sub : Nat) : (s.entering j).vsys l sub = s.vsys l sub := by
  have hr := s.entering_rest j
  have hblocks : (s.entering j).blocks = s.blocks := (congrArg State.blocks hr :)
  have hlaunches : (s.entering j).launches = s.launches := (congrArg State.launches hr :)
  have hc (c : Nat) := (s.entering_frame j).course c
  have hblock (c : Nat) : ((s.entering j).course c).block = (s.course c).block := (congrArg Course.block (hc c) :)
  have hindex (c : Nat) : ((s.entering j).course c).index = (s.course c).index := (congrArg Course.index (hc c) :)
  have hconsumer (c : Nat) : ((s.entering j).course c).consumer = (s.course c).consumer := (congrArg Course.consumer (hc c) :)
  have hlane (q : Nat) : ((s.entering j).lane q).vsys = (s.lane q).vsys := (congrArg Lane.vsys ((s.entering_frame j).lane q) :)
  simp only [State.vsys, s.entering_cur, (s.entering_same j).2.1, State.sysValue, State.block, State.launch, hblocks, hlaunches, hblock,
    hindex, hconsumer, hlane]

/-- An effect that sees the state before the instruction alone and, its latches valid, gives one result, whose destination is `x`. -/
structure Regular (o : V3) (x : VDst) (eff : State → Except Exn VRes) : Prop where
  same : ∀ s j, eff (s.entering j) = eff s
  gives : ∀ s, s.latchesOk (s.acted o.g) [o.a, o.b] → ∃ r, eff s = .ok r ∧ r.Simple ∧ r.dst = x ∧ r.ws = o.ws

theorem State.latchesOk.first {s : State} {m : Mask} {a b : BitVec 12} (h : s.latchesOk m [a, b]) : s.latchesOk m [a] :=
  fun f hf => h f (List.mem_cons.mpr (.inl (List.mem_singleton.mp hf)))

/-- Values of the lanes of a mask. -/
theorem VRes.simple_of {r : VRes} {m : Mask} (hc : r.carry = none) (hv : r.vals.map (·.1) = Mask.list m) : r.Simple :=
  ⟨hc, fun _ he => maskList_lt (m := m) (hv ▸ List.mem_map_of_mem he)⟩

theorem v3Effect_regular (o : V3) (ta tb : ElemTy) (unary : Bool) (f : Nat → Nat → Nat → Nat → Nat × BitVec 6) :
    Regular o (vdst o.ty o.d) (v3Effect o ta tb unary f) where
  same s j := by
    simp only [v3Effect, s.entering_acted, s.entering_latchCheck, s.entering_vsrc, s.entering_vreg]
  gives s h := by
    have check : s.latchCheck (s.acted o.g) (if unary then [o.a] else [o.a, o.b]) = .ok () := by
      cases unary
      · exact h.check
      · exact h.first.check
    simp only [v3Effect, check]
    exact ⟨_, rfl, VRes.simple_of rfl (m := s.acted o.g) (by simp [Function.comp_def]), rfl, rfl⟩

theorem intEffect_regular (o : V3) (f : Nat → Bool → Nat → Nat → Nat × BitVec 6) (unary : Bool) :
    Regular o (vdst o.ty o.d) (intEffect o f unary) := v3Effect_regular ..

theorem codeEffect_regular (o : V3) (unary : Bool) (f : Nat → Nat → Nat × BitVec 6) :
    Regular o (vdst o.ty o.d) (codeEffect o unary f) := v3Effect_regular ..

theorem specialEffect_regular (o : V3) (opc : Nat) : Regular o (vdst o.ty o.d) (specialEffect o opc) := codeEffect_regular ..

theorem effVcmp_regular (o : V3) : Regular o (.pred (o.d.toNat % 16)) (effVcmp o) where
  same s j := by
    unfold effVcmp
    dsimp only
    rw [(v3Effect_regular o ..).same]
  gives s h := by
    unfold effVcmp
    dsimp only
    obtain ⟨r, e, simple, -, ws⟩ := (v3Effect_regular o ..).gives s h
    rw [e]
    exact ⟨_, rfl, ⟨simple.carry, simple.lanes⟩, rfl, ws⟩

/-- A rounded effect, of sources that are among A and B. -/
theorem roundEffect_regular {o : V3} {fs : List (BitVec 12)} {pre : State → Nat → List Pre}
    (same : ∀ s j, pre (s.entering j) = pre s) (hfs : ∀ {s : State} {m : Mask}, s.latchesOk m [o.a, o.b] → s.latchesOk m fs) :
    Regular o (vdst o.ty o.d) fun s => roundEffect o.g o.ws o.ty o.d o.mod 0 fs (pre s) s where
  same s j := by
    simp only [roundEffect, roundLanes, s.entering_acted, s.entering_latchCheck, entering_regs, same]
  gives s h := by
    simp only [roundEffect, (hfs h).check]
    exact ⟨_, rfl, VRes.simple_of rfl (m := s.acted o.g) (by simp [roundLanes, Function.comp_def]), rfl, rfl⟩

theorem floatEffect_regular (o : V3) (f : Ext → Ext → Ext × BitVec 6) : Regular o (vdst o.ty o.d) (floatEffect o f) :=
  roundEffect_regular (fun s j => by simp only [s.entering_vsrc]) id

theorem floatUnary_regular (o : V3) (f : Ext → Pre) : Regular o (vdst o.ty o.d) (floatUnary o f) :=
  roundEffect_regular (fun s j => by simp only [s.entering_vsrc]) State.latchesOk.first

theorem effVfscale_regular (o : V3) : Regular o (vdst o.ty o.d) (effVfscale o) :=
  roundEffect_regular (fun s j => by simp only [s.entering_vsrc]) id

theorem effVbrd_regular (o : V3) : Regular o (vdst o.ty o.d) (effVbrd o) where
  same s j := by simp only [effVbrd, s.entering_acted, s.entering_sreg]
  gives s _ := ⟨_, rfl, VRes.simple_of rfl (m := s.acted o.g) (by simp [Function.comp_def]), rfl, rfl⟩

theorem effVsys_regular (o : V3) : Regular o (.reg o.d.toNat) (effVsys o) where
  same s j := by simp only [effVsys, s.entering_acted, s.entering_vsys]
  gives s _ := ⟨_, rfl, VRes.simple_of rfl (m := s.acted o.g) (by simp [Function.comp_def]), rfl, rfl⟩

/-- What half `h` of a PAIR does is what instruction `i` does. -/
structure HalfRuns (h : Half) (i : Instr) : Prop where
  runs : ∀ s, exec i s = vecInstr i (halfEffect h) s
  same : ∀ s j, halfEffect h (s.entering j) = halfEffect h s
  gives : ∀ s, s.latchesOk (s.acted h.g) [h.a, h.b] → ∃ r, halfEffect h s = .ok r ∧ r.Simple ∧ r.vregs = halfWrites h
    ∧ r.pregs = if h.op7 = 0x15 then [h.d.toNat % 16] else []

theorem HalfRuns.of {h : Half} {i : Instr} {x : VDst} {eff : State → Except Exn VRes} (he : halfEffect h = eff)
    (hx : ∀ s, exec i s = vecInstr i eff s) (regular : Regular (halfV3 h) x eff)
    (places : ∀ r : VRes, r.dst = x → r.ws = h.ws → r.vregs = halfWrites h ∧ r.pregs = if h.op7 = 0x15 then [h.d.toNat % 16] else []) :
    HalfRuns h i where
  runs s := he ▸ hx s
  same := he ▸ regular.same
  gives s hl := by
    obtain ⟨r, e, simple, dst, ws⟩ := regular.gives s hl
    exact ⟨r, he ▸ e, simple, places r dst ws⟩

/-- A half that writes vector registers, where a suppressed result has no odd register (R83, R123). -/
theorem HalfRuns.of_vdst {h : Half} {i : Instr} {eff : State → Except Exn VRes} (he : halfEffect h = eff)
    (hx : ∀ s, exec i s = vecInstr i eff s) (regular : Regular (halfV3 h) (vdst h.ty h.d) eff) (op : h.op7.toNat ≠ 0x15)
    (narrow : h.ws = true → is64 h.ty = false) : HalfRuns h i := by
  refine .of he hx regular fun r dst ws => ?_
  have hop : h.op7 ≠ 0x15 := fun e => op (by rw [e]; rfl)
  rw [if_neg hop]
  unfold VRes.vregs VRes.pregs halfWrites
  rw [dst, vdst]
  cases hw : h.ws
  · cases is64 h.ty <;> simp [op, ws, hw]
  · simp [ws, hw, narrow hw]

theorem wsLegal_narrow {ok ws : Bool} {t : ElemTy} {d : BitVec 11} (h : wsLegal ok ws t d = true) : ws = true → is64 t = false := by
  intro hw
  simp [wsLegal, hw] at h
  exact h.1.2

theorem v3Legal_narrow {o : V3} {tys mods unary subs} (h : v3Legal o tys mods unary subs = true) : o.ws = true → is64 o.ty = false := by
  simp only [v3Legal, Bool.and_eq_true] at h
  exact wsLegal_narrow h.2

theorem half_runs {h : Half} {i : Instr} (hi : halfInstr h = some i) (hl : legalBase i = true) : HalfRuns h i := by
  unfold halfInstr at hi
  split at hi
  case h_40 => cases hi
  case h_18 e =>
    cases hi
    have hop : h.op7 = 0x15 := BitVec.eq_of_toNat_eq e
    refine .of (by funext s; simp only [halfEffect, e]) (fun _ => rfl) (effVcmp_regular _) fun r dst ws => ?_
    simp [VRes.vregs, VRes.pregs, dst, halfWrites, hop, halfV3]
  case h_1 e | h_2 e | h_3 e | h_4 e | h_5 e | h_6 e | h_7 e | h_8 e | h_9 e | h_10 e | h_11 e | h_12 e | h_13 e | h_14 e | h_15 e
      | h_16 e =>
    cases hi
    exact .of_vdst (by funext s; simp only [halfEffect, e]) (fun _ => rfl) (intEffect_regular (halfV3 h) _ _) (by simp [e]) (v3Legal_narrow hl)
  case h_17 e | h_19 e | h_21 e =>
    cases hi
    exact .of_vdst (by funext s; simp only [halfEffect, e]) (fun _ => rfl) (v3Effect_regular (halfV3 h) _ _ _ _) (by simp [e]) (v3Legal_narrow hl)
  case h_26 e | h_27 e | h_28 e =>
    cases hi
    exact .of_vdst (by funext s; simp only [halfEffect, e]) (fun _ => rfl) (codeEffect_regular (halfV3 h) _ _) (by simp [e]) (v3Legal_narrow hl)
  case h_31 e | h_32 e | h_33 e | h_34 e | h_35 e | h_36 e | h_37 e =>
    cases hi
    exact .of_vdst (by funext s; simp only [halfEffect, e]) (fun _ => rfl) (specialEffect_regular (halfV3 h) _) (by simp [e]) (v3Legal_narrow hl)
  case h_23 e | h_24 e | h_25 e | h_29 e =>
    cases hi
    exact .of_vdst (by funext s; simp only [halfEffect, e]) (fun _ => rfl) (floatEffect_regular (halfV3 h) _) (by simp [e]) (v3Legal_narrow hl)
  case h_30 e | h_39 e =>
    cases hi
    exact .of_vdst (by funext s; simp only [halfEffect, e]) (fun _ => rfl) (floatUnary_regular (halfV3 h) _) (by simp [e]) (v3Legal_narrow hl)
  case h_38 e =>
    cases hi
    exact .of_vdst (by funext s; simp only [halfEffect, e]) (fun _ => rfl) (effVfscale_regular (halfV3 h)) (by simp [e]) (v3Legal_narrow hl)
  case h_20 e =>
    cases hi
    simp only [legalBase, Bool.and_eq_true] at hl
    exact .of_vdst (by funext s; simp only [halfEffect, e]) (fun _ => rfl) (effVbrd_regular (halfV3 h)) (by simp [e]) (wsLegal_narrow hl.2)
  case h_22 e =>
    cases hi
    simp only [legalBase, Bool.and_eq_true, beq_iff_eq] at hl
    have ty : h.ty = .i32 := hl.1.1.1.1.1
    refine .of_vdst (by funext s; simp only [halfEffect, e]) (fun _ => rfl) ?_ (by simp [e]) (wsLegal_narrow hl.2)
    rw [ty]
    exact effVsys_regular (halfV3 h)

/-! ### The halves of a legal pair write apart -/

theorem legal_half {h : Half} {i : Instr} (hl : halfLegal h = true) (hi : halfInstr h = some i) : legalBase i = true := by
  simpa [halfLegal, hi] using hl

/-- The predicate of a compare is one of sixteen. -/
theorem compare_pred {h : Half} (hl : halfLegal h = true) (op : h.op7 = 0x15) : h.d.toNat < 16 := by
  have hi : halfInstr h = some (.vcmp (halfV3 h)) := by simp [halfInstr, op]
  have : vcmpLegal (halfV3 h) = true := legal_half hl hi
  simp only [vcmpLegal, Bool.and_eq_true] at this
  simpa [lowBits, halfV3] using of_decide_eq_true this.1.2

theorem writes_apart {h0 h1 : Half} (hp : pairLegal h0 h1 = true) : ∀ n ∈ halfWrites h0, n ∉ halfWrites h1 := by
  simp only [pairLegal, Bool.and_eq_true, List.all_map, List.all_eq_true, Function.comp_apply] at hp
  intro n h h'
  have := hp.1.1.2 n h
  simp at this
  exact this n h' rfl

theorem preds_apart {h0 h1 : Half} (hl0 : halfLegal h0 = true) (hl1 : halfLegal h1 = true) (hp : pairLegal h0 h1 = true) :
    ∀ n ∈ (if h0.op7 = 0x15 then [h0.d.toNat % 16] else []), n ∉ if h1.op7 = 0x15 then [h1.d.toNat % 16] else [] := by
  simp only [pairLegal, Bool.and_eq_true] at hp
  have differ := hp.1.1.1.2
  split
  case isFalse => simp
  case isTrue op0 =>
    split
    case isFalse => simp
    case isTrue op1 =>
      have d0 := compare_pred hl0 op0
      have d1 := compare_pred hl1 op1
      simp only [halfPred, op0, op1] at differ
      simp at differ
      simp only [List.mem_singleton, Nat.mod_eq_of_lt d0, Nat.mod_eq_of_lt d1]
      omega

/-! ### A half alone, and both -/

section
variable {s : State} (ha : s.hasAgent = true) {r : VRes} (simple : r.Simple) (j : Instr)
include ha simple

theorem entering_commit_vreg (n : Nat) {l : Nat} (hl : l < 96) : ((s.entering j).commit r).vreg n l = (s.commit r).vreg n l :=
  State.commit_vreg_congr simple ((s.entering_hasAgent j).trans ha) ha hl (s.entering_vreg j n l)

theorem entering_commit_preg (n : Nat) : ((s.entering j).commit r).preg n = (s.commit r).preg n :=
  State.commit_preg_congr simple ((s.entering_hasAgent j).trans ha) ha (s.entering_preg j n)

theorem entering_commit_latch : ((s.entering j).commit r).latch 0 = (s.commit r).latch 0 :=
  State.commit_latch_zero simple ((s.entering_hasAgent j).trans ha) ha

theorem entering_commit_flags : ((s.entering j).commit r).regs.flags = s.regs.flags ||| r.fl := by
  rw [State.commit_flags simple ((s.entering_hasAgent j).trans ha), entering_regs]

end

/-- A half alone completes, and the registers are those that its result leaves. -/
theorem HalfRuns.alone {h : Half} {i : Instr} (hr : HalfRuns h i) {s : State} (hv : VReady i (s.acted h.g) [h.a, h.b] s) :
    ∃ r t, halfEffect h s = .ok r ∧ r.Simple ∧ r.vregs = halfWrites h ∧ r.pregs = (if h.op7 = 0x15 then [h.d.toNat % 16] else [])
      ∧ exec i s = .next t ∧ t.regs = ((s.entering i).commit r).regs := by
  obtain ⟨r, e, simple, vregs, pregs⟩ := hr.gives s hv.latches
  refine ⟨r, _, e, simple, vregs, pregs, (hr.runs s).trans (seqInstr_next hv.ready (u := ((s.entering i).commit r).windowStep s.pc r.reads [r.ws])
    ?_), ?_⟩
  · rw [hr.same, e]
    rfl
  · rw [State.setPc_regs, windowStep_regs]

/-- Both halves of a PAIR complete, half 0's result written before half 1's. -/
theorem pair_completes {h0 h1 : Half} {i0 i1 : Instr} (r0 : HalfRuns h0 i0) (r1 : HalfRuns h1 i1) {s : State}
    (ready : Ready (.pair h0 h1) s) {a b : VRes} (ea : halfEffect h0 s = .ok a) (eb : halfEffect h1 s = .ok b) (sa : a.Simple)
    (sb : b.Simple) : ∃ t, exec (.pair h0 h1) s = .next t ∧ Done (.pair h0 h1) (a.touch.join b.touch) s t
      ∧ t.regs = (((s.entering (.pair h0 h1)).commit a).commit b).regs := by
  have body : (bothHalves (halfEffect h0 (s.entering (.pair h0 h1))) (halfEffect h1 (s.entering (.pair h0 h1)))).map (fun r =>
      (((s.entering (.pair h0 h1)).commit r.1).commit r.2).windowStep s.pc (r.1.reads ++ r.2.reads) [r.1.ws, r.2.ws])
        = .ok ((((s.entering (.pair h0 h1)).commit a).commit b).windowStep s.pc (a.reads ++ b.reads) [a.ws, b.ws]) := by
    rw [r0.same, r1.same, ea, eb]
    rfl
  have frame := (((s.entering (.pair h0 h1)).commit_frame sa).trans (State.commit_frame _ sb)).trans
    (State.windowStep_frame _ {} s.pc (a.reads ++ b.reads) [a.ws, b.ws])
  obtain ⟨next, done⟩ := seqInstr_done (w := a.touch.join b.touch) ready
    (body := fun t => (bothHalves (halfEffect h0 t) (halfEffect h1 t)).map fun r =>
      ((t.commit r.1).commit r.2).windowStep s.pc (r.1.reads ++ r.2.reads) [r.1.ws, r.2.ws]) body
    (frame.mono (by simp [Touch.join]) (by simp [Touch.join]) (by simp [Touch.join]) (by simp [Touch.join]) (by simp [Touch.join])
      (by simp [Touch.join]))
    (by simp [State.commit_hasAgent sa.carry, State.commit_hasAgent sb.carry])
    (by simp [State.commit_wait sa.carry, State.commit_wait sb.carry])
  exact ⟨_, next, done, by rw [State.setPc_regs, windowStep_regs]⟩

/-- Settles O25: the halves see one state, and their results go to places apart. -/
theorem pairHalves : Obligations.PairHalves := by
  intro s h0 h1 i0 i1 wf e0 e1 v0 v1 ready preds
  simp only [Instr.wellFormed, legalOp, Bool.and_eq_true] at wf
  obtain ⟨⟨hl0, hl1⟩, hp⟩ := wf
  have r0 := half_runs e0 (legal_half hl0 e0)
  have r1 := half_runs e1 (legal_half hl1 e1)
  obtain ⟨a, t0, ea, sa, va, pa, x0, g0⟩ := r0.alone v0
  obtain ⟨b, t1, eb, sb, vb, pb, x1, g1⟩ := r1.alone v1
  obtain ⟨t, x, done, g⟩ := pair_completes r0 r1 ready ea eb sa sb
  have ha := ready.agent
  have hu : (s.entering (.pair h0 h1)).hasAgent = true := (s.entering_hasAgent _).trans ha
  have hua : ((s.entering (.pair h0 h1)).commit a).hasAgent = true := (State.commit_hasAgent sa.carry _).trans hu
  have touch : a.touch.join b.touch = { v := halfWrites h0 ++ halfWrites h1, p := preds h0 ++ preds h1, flags := true, latches := true } := by
    simp only [Touch.join, VRes.touch, va, vb, pa, pb, preds]
    rfl
  have latch (k : Nat) : t.latch k = (((s.entering (.pair h0 h1)).commit a).commit b).latch k := regs_latch (congrArg Regs.bl g) k
  have older (k : Nat) (hk : k + 1 < 3) : (((s.entering (.pair h0 h1)).commit a).commit b).latch (k + 1 + 1) = s.latch k := by
    rw [State.commit_latch_succ sb hua hk, State.commit_latch_succ sa hu (by omega)]
    exact regs_latch (congrArg Regs.bl (entering_regs s _)) k
  refine ⟨t, t0, t1, x, x0, x1, touch ▸ done, fun n l hl => ?_, fun n _ => ?_, ?_, ?_, ?_, ?_, ?_⟩
  · have hv : t.vreg n l = (((s.entering (.pair h0 h1)).commit a).commit b).vreg n l := by simp only [State.vreg, g]
    have hv0 : t0.vreg n l = ((s.entering i0).commit a).vreg n l := by simp only [State.vreg, g0]
    have hv1 : t1.vreg n l = ((s.entering i1).commit b).vreg n l := by simp only [State.vreg, g1]
    rw [hv, hv0, hv1, twice_vreg hu sa sb (va ▸ vb ▸ writes_apart hp) n hl, s.entering_vreg]
    simp only [entering_commit_vreg ha sa _ n hl, entering_commit_vreg ha sb _ n hl]
  · have hv : t.preg n = (((s.entering (.pair h0 h1)).commit a).commit b).preg n := by simp only [State.preg, g]
    have hv0 : t0.preg n = ((s.entering i0).commit a).preg n := by simp only [State.preg, g0]
    have hv1 : t1.preg n = ((s.entering i1).commit b).preg n := by simp only [State.preg, g1]
    rw [hv, hv0, hv1, twice_preg hu sa sb (pa ▸ pb ▸ preds_apart hl0 hl1 hp) n, s.entering_preg]
    simp only [entering_commit_preg ha sa, entering_commit_preg ha sb]
  · rw [g, g0, g1, State.commit_flags sb hua, entering_commit_flags ha sa, entering_commit_flags ha sa, entering_commit_flags ha sb]
    apply BitVec.eq_of_getLsbD_eq
    intro k _
    simp only [BitVec.getLsbD_or]
    cases s.regs.flags.getLsbD k <;> simp
  · rw [latch, State.commit_latch_zero sb hua hu, entering_commit_latch ha sb, regs_latch (congrArg Regs.bl g1),
      entering_commit_latch ha sb]
  · rw [latch, State.commit_latch_succ sb hua (by omega), entering_commit_latch ha sa, regs_latch (congrArg Regs.bl g0),
      entering_commit_latch ha sa]
  · rw [latch, older 0 (by omega)]
  · rw [latch, older 1 (by omega)]

end Sys2Proof.Machine
end

section
/-!
SUPPORT. Laws of a byte that no other window of the pool shows, while lines are written back and leave the caches (R255, R296, R399).
-/

namespace Sys2Proof.Machine

/-! ### The line of a byte, and what other lines' write-backs leave of it -/

/-- No other address names the byte (R399). -/
def State.alone (s : State) (pa : Nat) : Prop := ∀ b, s.memKey b = s.memKey pa → b = pa

theorem State.alone.congr {s t : State} {pa : Nat} (h : s.alone pa) (e : t.windows = s.windows) : t.alone pa :=
  fun b k => h b (by rwa [memKey_congr e, memKey_congr e] at k)

/-- The STREAM copies of the line of a byte, those of every agent. -/
def State.copiesAt (s : State) (pa : Nat) : List StreamLine := s.stream.filter fun x => x.line == pa / 128

/-- A byte of the line with what a STREAM copy changed over it. -/
def StreamLine.patch (x : StreamLine) (pa : Nat) (v : Byte) : Byte :=
  if x.changed.getLsbD (pa % 128) then x.bytes.getD (pa % 128) 0 else v

/-- The byte as L2 holds it, with what the STREAM copies changed over it, in the order in which they were made (log 40). -/
def State.merged (s : State) (pa : Nat) : Byte := (s.copiesAt pa).foldl (fun v x => x.patch pa v) (s.wbByte pa)

/-- From `s` to `t` nothing changed of what memory and caches hold of the byte. -/
structure Apart (pa : Nat) (s t : State) : Prop where
  bytes : Bytes t
  windows : t.windows = s.windows
  wb : t.wbByte pa = s.wbByte pa
  mem : t.memByte pa = s.memByte pa
  clean : (t.tag (pa / 128)).clean = (s.tag (pa / 128)).clean
  copies : t.copiesAt pa = s.copiesAt pa

theorem Apart.refl {s : State} (h : Bytes s) (pa : Nat) : Apart pa s s := ⟨h, rfl, rfl, rfl, rfl, rfl⟩

theorem Apart.trans {pa : Nat} {s t u : State} (h : Apart pa s t) (k : Apart pa t u) : Apart pa s u :=
  ⟨k.bytes, k.windows.trans h.windows, k.wb.trans h.wb, k.mem.trans h.mem, k.clean.trans h.clean, k.copies.trans h.copies⟩

theorem Apart.merged {pa : Nat} {s t : State} (h : Apart pa s t) : t.merged pa = s.merged pa := by
  simp only [State.merged, h.copies, h.wb]

theorem Apart.readByte {pa : Nat} {s t : State} (h : Apart pa s t) (pol : Nat) : t.readByte pol pa = s.readByte pol pa := by
  simp only [State.readByte, h.wb, h.mem]

theorem SameLines.trans {s t u : State} (h : SameLines s t) (k : SameLines t u) : SameLines s u :=
  ⟨k.mem.trans h.mem, k.wb.trans h.wb, k.windows.trans h.windows, fun ln => (k.clean ln).trans (h.clean ln)⟩

theorem SameLines.of_rest {s t : State} (h : t.rest = s.rest) : SameLines s t :=
  ⟨(congrArg State.mem h :), (congrArg State.wb h :), (congrArg State.windows h :), fun ln =>
    congrArg (fun m => LineTag.clean (Cells.get {} m ln)) (show t.tags = s.tags from (congrArg State.tags h :))⟩

theorem SameLines.apart {s t : State} (h : SameLines s t) (hb : Bytes t) (hs : t.stream = s.stream) (pa : Nat) : Apart pa s t :=
  ⟨hb, h.windows, h.wbByte pa, h.memByte pa, h.clean _, by simp only [State.copiesAt, hs]⟩

/-- Bytes of memory as a line's write-back leaves them. -/
theorem Bytes.memByte_cleanLine_alone {s : State} (h : Bytes s) {pa : Nat} (one : s.alone pa) {ln : Nat} (hl : s.inL2 ln = true)
    (hd : (s.tag ln).clean = false) : (s.cleanLine ln).memByte pa = if pa / 128 = ln then s.wbByte pa else s.memByte pa := by
  have hne := (s.inL2_iff ln).mp hl
  have len := (h.line ln).resolve_left hne
  have e : (s.cleanLine ln).memByte pa = (s.storeBytes 2 (128 * ln) (Cells.get [] s.wb ln)).readByte 2 pa := by
    unfold State.cleanLine
    split
    · exact absurd ‹_› hne
    · rw [hd, if_neg Bool.false_ne_true]
      rfl
  rw [e, h.readByte_storeBytes 2 _ _ _ fun _ k _ e => (one _ e.symm).symm, len]
  by_cases c : pa / 128 = ln
  · subst c
    rw [if_pos (by omega), if_pos rfl, wbByte_line hne]
    congr 1
    omega
  · rw [if_neg (by omega), if_neg c]
    rfl

theorem State.cleanLine_windows (s : State) (ln : Nat) : (s.cleanLine ln).windows = s.windows :=
  (congrArg State.windows (s.cleanLine_aside ln) :)

theorem State.writeStream_windows (s : State) (x : StreamLine) : (s.writeStream x).windows = s.windows :=
  (congrArg State.windows (s.writeStream_aside x) :)

/-- Another line is written back. -/
theorem Bytes.cleanLine_apart {s : State} (h : Bytes s) {pa : Nat} (one : s.alone pa) {ln : Nat} (hp : pa / 128 ≠ ln) :
    Apart pa s (s.cleanLine ln) := by
  have mem : (s.cleanLine ln).memByte pa = s.memByte pa := by
    cases hl : s.inL2 ln with
    | false => rw [State.cleanLine_of_absent hl]
    | true =>
      cases hd : (s.tag ln).clean with
      | true => rw [State.cleanLine_of_clean hd]
      | false => rw [h.memByte_cleanLine_alone one hl hd, if_neg hp]
  exact ⟨h.cleanLine ln, s.cleanLine_windows ln, by simp only [State.wbByte, State.cleanLine_wb, mem], mem,
    by rw [s.cleanLine_tag_other hp], by simp only [State.copiesAt, State.cleanLine_stream]⟩

/-- The copies after one was written back. -/
theorem State.writeStream_stream (s : State) (x : StreamLine) :
    (s.writeStream x).stream = s.stream.map fun y => if y == x then { y with changed := 0 } else y := by
  unfold State.writeStream
  dsimp only
  split
  · rfl
  · split
    · exact foldl_same State.stream (fun (t : State) i => t.setWbByte (128 * x.line + i) (x.bytes.getD i 0)) _ (fun _ _ => rfl) _
    · exact foldl_same State.stream (fun (t : State) i => t.setMemByte (128 * x.line + i) (x.bytes.getD i 0)) _ (fun _ _ => rfl) _

/-- Bytes of one line that are stored one by one, seen at one byte. -/
theorem Bytes.readByte_storeChanges {s : State} (h : Bytes s) {pa : Nat} (one : s.alone pa) (pol : Nat) (x : StreamLine) :
    (s.storeChanges pol x).readByte pol pa = if pa / 128 = x.line then x.patch pa (s.readByte pol pa) else s.readByte pol pa := by
  have each : ∀ (is : List Nat), (∀ i ∈ is, i < 128) → ∀ t : State, Bytes t → t.alone pa →
      (is.foldl (fun s i => s.storeByte pol (128 * x.line + i) (x.bytes.getD i 0)) t).readByte pol pa
        = if pa / 128 = x.line ∧ pa % 128 ∈ is then x.bytes.getD (pa % 128) 0 else t.readByte pol pa := by
    intro is
    induction is with
    | nil => intro _ t _ _; simp
    | cons i is ih =>
      intro lt t ht alone
      have h128 := lt i (List.mem_cons_self ..)
      have hw : (t.storeByte pol (128 * x.line + i) (x.bytes.getD i 0)).windows = t.windows :=
        (congrArg State.windows (t.storeByte_aside ..) :)
      rw [List.foldl_cons, ih (fun j hj => lt j (List.mem_cons_of_mem _ hj)) _ (ht.storeByte ..) (alone.congr hw),
        ht.readByte_storeByte _ fun _ e => (alone _ e.symm).symm]
      by_cases c : pa / 128 = x.line ∧ pa % 128 ∈ is
      · rw [if_pos c, if_pos ⟨c.1, List.mem_cons_of_mem _ c.2⟩]
      · rw [if_neg c]
        by_cases e : pa = 128 * x.line + i
        · rw [if_pos e, if_pos ⟨by omega, List.mem_cons.mpr (.inl (by omega))⟩, show pa % 128 = i by omega]
        · rw [if_neg e, if_neg]
          rintro ⟨hl, hm⟩
          exact (List.mem_cons.mp hm).elim (by omega) fun hm => c ⟨hl, hm⟩
  have hm : pa % 128 ∈ x.changes ↔ x.changed.getLsbD (pa % 128) = true := by simp [StreamLine.mem_changes, Nat.mod_lt]
  rw [State.storeChanges, each x.changes (fun i hi => (StreamLine.mem_changes.mp hi).1) s h one]
  simp only [hm, StreamLine.patch]
  by_cases c : pa / 128 = x.line <;> simp [c]

theorem State.storeChanges_tag_other (s : State) (pol : Nat) (x : StreamLine) {ln : Nat} (h : ln ≠ x.line) :
    (s.storeChanges pol x).tag ln = s.tag ln := by
  refine List.foldlRecOn (motive := fun t : State => t.tag ln = s.tag ln) x.changes _ rfl fun t e i hi => ?_
  have := (StreamLine.mem_changes.mp hi).1
  unfold State.storeByte
  split
  · exact e
  · rw [State.setWbByte_tag, if_neg (by omega), e]

/-- What the byte reads as after a STREAM copy was written back. -/
theorem Bytes.wbByte_writeStream_alone {s : State} (h : Bytes s) {pa : Nat} (one : s.alone pa) (x : StreamLine) :
    (s.writeStream x).wbByte pa = if pa / 128 = x.line then x.patch pa (s.wbByte pa) else s.wbByte pa := by
  rw [(s.writeStream_lines x).wbByte]
  cases hl : s.inL2 x.line with
  | true => exact h.readByte_storeChanges one 0 x
  | false =>
    have hw := s.storeChanges_uc_wb x
    have hr : (s.storeChanges 2 x).memByte pa = if pa / 128 = x.line then x.patch pa (s.memByte pa) else s.memByte pa :=
      h.readByte_storeChanges one 2 x
    rw [if_neg Bool.false_ne_true]
    by_cases c : pa / 128 = x.line
    · have none := State.inL2_eq_false.mp hl
      rw [wbByte_none (by rw [hw, c]; exact none), wbByte_none (by rw [c]; exact none), hr]
    · simp only [State.wbByte, hw, hr, if_neg c]

/-- A STREAM copy of another line is written back. -/
theorem Bytes.writeStream_apart {s : State} (h : Bytes s) {pa : Nat} (one : s.alone pa) {x : StreamLine} (hp : pa / 128 ≠ x.line) :
    Apart pa s (s.writeStream x) := by
  have lines := s.writeStream_lines x
  refine ⟨h.writeStream x, s.writeStream_windows x, by rw [h.wbByte_writeStream_alone one, if_neg hp], ?_, ?_, ?_⟩
  · rw [lines.memByte]
    split
    · exact s.storeChanges_wb_memByte x pa
    · exact (h.readByte_storeChanges one 2 x).trans (if_neg hp)
  · rw [lines.clean, s.storeChanges_tag_other _ x hp]
  · simp only [State.copiesAt, State.writeStream_stream]
    rw [List.filter_map]
    have hf : (fun y : StreamLine => y.line == pa / 128) ∘ (fun y => if y == x then { y with changed := 0 } else y)
        = fun y => y.line == pa / 128 := by
      funext y
      simp only [Function.comp]
      split <;> rfl
    rw [hf, List.map_congr_left (g := id), List.map_id]
    intro y hy
    have hy : y.line = pa / 128 := by simpa using (List.mem_filter.mp hy).2
    have : y ≠ x := fun e => hp (hy.symm.trans (e ▸ rfl))
    simp [this]

/-- Another line leaves the caches. -/
theorem Bytes.forgetLine_apart {s : State} (h : Bytes s) {pa ln : Nat} (hp : pa / 128 ≠ ln) : Apart pa s (s.forgetLine ln) := by
  refine ⟨h.forgetLine ln, rfl, ?_, rfl, ?_, ?_⟩
  · simp only [State.wbByte, State.forgetLine, Cells.get_erase, if_neg hp]
    rfl
  · simp only [State.tag, State.forgetLine, Cells.get_erase, if_neg hp]
  · simp only [State.copiesAt, State.forgetLine, List.filter_filter]
    refine List.filter_congr fun y _ => ?_
    by_cases e : y.line = pa / 128
    · simp [e, hp]
    · simp [e]

theorem Bytes.flushStream_apart {s : State} (h : Bytes s) {pa : Nat} (one : s.alone pa) {ln : Nat} (hp : pa / 128 ≠ ln) :
    Apart pa s (s.flushStream ln) := by
  refine List.foldlRecOn (motive := Apart pa s) _ _ (.refl h pa) fun t ht x hx => ?_
  have e : x.line = ln := by simpa using (List.mem_filter.mp hx).2
  exact ht.trans (ht.bytes.writeStream_apart (one.congr ht.windows) (e ▸ hp))

theorem Bytes.writeBackLine_apart {s : State} (h : Bytes s) {pa : Nat} (one : s.alone pa) {ln : Nat} (hp : pa / 128 ≠ ln) :
    Apart pa s (s.writeBackLine ln) :=
  have k := h.flushStream_apart one hp
  k.trans (k.bytes.cleanLine_apart (one.congr k.windows) hp)

theorem Bytes.flushLine_apart {s : State} (h : Bytes s) {pa : Nat} (one : s.alone pa) {ln : Nat} (hp : pa / 128 ≠ ln) :
    Apart pa s (s.flushLine ln) :=
  have k := h.writeBackLine_apart one hp
  k.trans (k.bytes.forgetLine_apart hp)

end Sys2Proof.Machine
end

section
/-!
SUPPORT. Laws of a byte whose own line is written back and leaves the caches (R255, R296).
-/

namespace Sys2Proof.Machine

/-! ### The byte's own line -/

/-- No other window shows the byte, and memory holds it where L2 calls its line clean. -/
structure Plain (pa : Nat) (s : State) : Prop where
  bytes : Bytes s
  alone : s.alone pa
  clean : (s.tag (pa / 128)).clean = true → s.memByte pa = s.wbByte pa

/-- L2 and memory both hold `v` at the byte. -/
structure Landed (pa : Nat) (v : Byte) (s : State) : Prop where
  bytes : Bytes s
  alone : s.alone pa
  reads : s.wbByte pa = v
  mem : s.memByte pa = v

/-- The same, and no STREAM copy has a change of the line. -/
structure Settled (pa : Nat) (v : Byte) (s : State) : Prop extends Landed pa v s where
  copies : ∀ x ∈ s.copiesAt pa, x.changed = 0

/-- No cache holds the line. -/
structure Gone (ln : Nat) (s : State) : Prop where
  wb : ∀ e ∈ s.wb, e.1 ≠ ln
  stream : ∀ x ∈ s.stream, x.line ≠ ln

variable {pa : Nat} {v : Byte} {s t : State}

theorem Landed.plain (h : Landed pa v s) : Plain pa s := ⟨h.bytes, h.alone, fun _ => h.mem.trans h.reads.symm⟩

theorem Apart.plain (h : Apart pa s t) (p : Plain pa s) : Plain pa t :=
  ⟨h.bytes, p.alone.congr h.windows, fun c => by rw [h.mem, h.wb]; exact p.clean (h.clean ▸ c)⟩

theorem Apart.landed (h : Apart pa s t) (p : Landed pa v s) : Landed pa v t :=
  ⟨h.bytes, p.alone.congr h.windows, h.wb.trans p.reads, h.mem.trans p.mem⟩

theorem Apart.settled (h : Apart pa s t) (p : Settled pa v s) : Settled pa v t :=
  { h.landed p.toLanded with copies := by rw [h.copies]; exact p.copies }

theorem Gone.get {ln : Nat} (h : Gone ln s) : Cells.get [] s.wb ln = [] := by
  by_contra hne
  exact h.wb _ (get_mem rfl hne) rfl

/-- A STREAM copy without changes changes nothing. -/
theorem StreamLine.patch_unchanged {x : StreamLine} (h : x.changed = 0) (pa : Nat) (v : Byte) : x.patch pa v = v := by
  simp [StreamLine.patch, h]

theorem Settled.merged (h : Settled pa v s) : s.merged pa = v :=
  List.foldlRecOn (motive := fun w => w = v) _ _ h.reads fun _ e x hx => (StreamLine.patch_unchanged (h.copies x hx) ..).trans e

/-- The line is written back to memory: memory holds what it reads as. -/
theorem Plain.cleanLine_own (h : Plain pa s) : Landed pa (s.wbByte pa) (s.cleanLine (pa / 128)) := by
  have mem : (s.cleanLine (pa / 128)).memByte pa = s.wbByte pa := by
    cases hl : s.inL2 (pa / 128) with
    | false => rw [State.cleanLine_of_absent hl, wbByte_none (State.inL2_eq_false.mp hl)]
    | true =>
      cases hd : (s.tag (pa / 128)).clean with
      | true => rw [State.cleanLine_of_clean hd, h.clean hd]
      | false => rw [h.bytes.memByte_cleanLine_alone h.alone hl hd, if_pos rfl]
  refine ⟨h.bytes.cleanLine _, h.alone.congr (s.cleanLine_windows _), ?_, mem⟩
  by_cases hw : Cells.get [] s.wb (pa / 128) = []
  · rw [wbByte_none (by rwa [State.cleanLine_wb]), mem]
  · rw [wbByte_line (by rwa [State.cleanLine_wb]), State.cleanLine_wb, ← wbByte_line hw]

theorem Landed.cleanLine (h : Landed pa v s) (ln : Nat) : Landed pa v (s.cleanLine ln) := by
  by_cases hp : pa / 128 = ln
  · subst hp
    exact h.reads ▸ h.plain.cleanLine_own
  · exact (h.bytes.cleanLine_apart h.alone hp).landed h

/-- A STREAM copy is written back: what L2 calls clean equals memory, as before. -/
theorem Plain.writeStream (h : Plain pa s) (x : StreamLine) : Plain pa (s.writeStream x) := by
  by_cases hp : pa / 128 = x.line
  · refine ⟨h.bytes.writeStream x, h.alone.congr (s.writeStream_windows x), fun hc => ?_⟩
    have lines := s.writeStream_lines x
    cases hl : s.inL2 x.line with
    | false =>
      refine (wbByte_none ?_).symm
      rw [lines.wb, hl, if_neg Bool.false_ne_true, State.storeChanges_uc_wb, hp]
      exact State.inL2_eq_false.mp hl
    | true =>
      rw [hl, if_pos rfl] at lines
      rw [lines.clean, hp] at hc
      have none : x.changes = [] := by
        by_contra hne
        rw [s.storeChanges_dirty hne] at hc
        cases hc
      have same : s.storeChanges 0 x = s := by rw [State.storeChanges, none]; rfl
      rw [same] at hc lines
      rw [lines.memByte, lines.wbByte]
      exact h.clean (hp ▸ hc)
  · exact (h.bytes.writeStream_apart h.alone hp).plain h

/-- Copies that are written back one after another: the byte takes what each changed, and a copy written back has no change. -/
theorem Plain.writeStreams (h : Plain pa s) (xs : List StreamLine) (own : ∀ x ∈ xs, x.line = pa / 128) :
    Plain pa (xs.foldl (fun s x => s.writeStream x) s)
      ∧ (xs.foldl (fun s x => s.writeStream x) s).wbByte pa = xs.foldl (fun v x => x.patch pa v) (s.wbByte pa)
      ∧ ((∀ y ∈ s.copiesAt pa, y.changed = 0 ∨ y ∈ xs) → ∀ y ∈ (xs.foldl (fun s x => s.writeStream x) s).copiesAt pa, y.changed = 0) := by
  induction xs generalizing s with
  | nil => exact ⟨h, rfl, fun k y hy => (k y hy).resolve_right (List.not_mem_nil)⟩
  | cons x xs ih =>
    have hx := own x (List.mem_cons_self ..)
    obtain ⟨plain, reads, copies⟩ := ih (h.writeStream x) fun y hy => own y (List.mem_cons_of_mem _ hy)
    refine ⟨plain, by rw [List.foldl_cons, reads, h.bytes.wbByte_writeStream_alone h.alone, if_pos hx.symm]; rfl, fun k => copies ?_⟩
    intro y hy
    obtain ⟨hy, line⟩ := List.mem_filter.mp hy
    rw [State.writeStream_stream] at hy
    obtain ⟨z, hz, rfl⟩ := List.mem_map.mp hy
    by_cases e : z = x
    · simp [e]
    · rw [if_neg (by simpa using e)] at line ⊢
      exact (k z (List.mem_filter.mpr ⟨hz, line⟩)).imp id fun m => (List.mem_cons.mp m).resolve_left e

/-- The line is written back with its STREAM copies. -/
theorem Plain.writeBackLine_own (h : Plain pa s) : Settled pa (s.merged pa) (s.writeBackLine (pa / 128)) := by
  obtain ⟨plain, reads, copies⟩ := h.writeStreams (s.copiesAt pa) fun x hx => by simpa using (List.mem_filter.mp hx).2
  have landed := plain.cleanLine_own
  rw [reads] at landed
  refine ⟨landed, ?_⟩
  have clean := copies fun y hy => .inr hy
  rwa [State.copiesAt, ← State.cleanLine_stream _ (pa / 128)] at clean

theorem Settled.writeBackLine (h : Settled pa v s) (ln : Nat) : Settled pa v (s.writeBackLine ln) := by
  by_cases hp : pa / 128 = ln
  · subst hp
    exact h.merged ▸ h.toLanded.plain.writeBackLine_own
  · exact (h.bytes.writeBackLine_apart h.alone hp).settled h

theorem Settled.forgetLine (h : Settled pa v s) (ln : Nat) : Settled pa v (s.forgetLine ln) := by
  by_cases hp : pa / 128 = ln
  · subst hp
    refine ⟨⟨h.bytes.forgetLine _, h.alone, (wbByte_none (by simp [State.forgetLine, Cells.get_erase])).trans h.mem, h.mem⟩, ?_⟩
    intro x hx
    obtain ⟨hx, line⟩ := List.mem_filter.mp hx
    exact h.copies x (List.mem_filter.mpr ⟨(List.mem_filter.mp hx).1, line⟩)
  · exact (h.bytes.forgetLine_apart hp).settled h

/-! ### The line leaves -/

theorem State.forgetLine_gone (s : State) (ln : Nat) : Gone ln (s.forgetLine ln) :=
  ⟨fun e he => by simpa using (List.mem_filter.mp (show e ∈ Cells.erase s.wb ln from he)).2,
    fun x hx => by simpa using (List.mem_filter.mp hx).2⟩

theorem Gone.forgetLine {ln : Nat} (h : Gone ln s) (l : Nat) : Gone ln (s.forgetLine l) :=
  ⟨fun e he => h.wb e (List.mem_filter.mp (show e ∈ Cells.erase s.wb l from he)).1, fun x hx => h.stream x (List.mem_filter.mp hx).1⟩

theorem Gone.flushLine {ln : Nat} (h : Gone ln s) (l : Nat) : Gone ln (s.flushLine l) := by
  refine ⟨fun e he => ?_, fun x hx => ?_⟩
  · obtain ⟨e', he', line⟩ := List.mem_map.mp (State.flushLine_keys he).1
    exact line ▸ h.wb e' he'
  · obtain ⟨x', hx', line⟩ := List.mem_map.mp (State.flushLine_stream hx)
    exact line ▸ h.stream x' hx'

/-! ### The lines that an instruction names are written back -/

/-- The agent writes a line back, and removes it where `out` says so; its FENCE comes after a STREAM copy's store. -/
def State.backLine (s : State) (out : Bool) (ln : Nat) : State :=
  s.wroteLine ln (if out then s.flushLine ln else s.writeBackLine ln)

theorem State.wroteLine_rest (s : State) (ln : Nat) (t : State) : (s.wroteLine ln t).rest = t.rest := by
  unfold State.wroteLine
  split
  · exact t.modSight_rest _
  · rfl

/-- What caches and memory hold of a byte depends on no course and no lane. -/
theorem Apart.of_rest (h : Bytes s) (e : t.rest = s.rest) (pa : Nat) : Apart pa s t := by
  have hs : t.stream = s.stream := (congrArg State.stream e :)
  have ht : Bytes t := h.of_eq (congrArg State.mem e :) (congrArg State.wb e :) (congrArg State.held e :) hs
  exact (SameLines.of_rest e).apart ht hs pa

theorem Gone.of_rest {ln : Nat} (h : Gone ln s) (e : t.rest = s.rest) : Gone ln t := by
  have hw : t.wb = s.wb := (congrArg State.wb e :)
  have hs : t.stream = s.stream := (congrArg State.stream e :)
  exact ⟨hw ▸ h.wb, hs ▸ h.stream⟩

theorem Bytes.backLine_apart (h : Bytes s) (one : s.alone pa) (out : Bool) {ln : Nat} (hp : pa / 128 ≠ ln) :
    Apart pa s (s.backLine out ln) := by
  have k : Apart pa s (if out then s.flushLine ln else s.writeBackLine ln) := by
    split
    · exact h.flushLine_apart one hp
    · exact h.writeBackLine_apart one hp
  exact k.trans (.of_rest k.bytes (s.wroteLine_rest ..) pa)

theorem Plain.backLine_own (h : Plain pa s) (out : Bool) : Settled pa (s.merged pa) (s.backLine out (pa / 128)) := by
  have k : Settled pa (s.merged pa) (if out then s.flushLine (pa / 128) else s.writeBackLine (pa / 128)) := by
    split
    · exact h.writeBackLine_own.forgetLine _
    · exact h.writeBackLine_own
  exact (Apart.of_rest k.bytes (s.wroteLine_rest ..) pa).settled k

theorem Settled.backLine (h : Settled pa v s) (out : Bool) (ln : Nat) : Settled pa v (s.backLine out ln) := by
  by_cases hp : pa / 128 = ln
  · subst hp
    exact h.merged ▸ h.toLanded.plain.backLine_own out
  · exact (h.bytes.backLine_apart h.alone out hp).settled h

/-- The lines of pages that caches hold are written back. -/
def State.backLines (s : State) (out : Bool) (fs : List Leaf) : State :=
  fs.foldl (fun u f => if f.pol < 2 then u.backLine out (f.pa / 128) else u) s

theorem Plain.backLines_apart (h : Plain pa s) (out : Bool) {fs : List Leaf} (hp : ∀ f ∈ fs, f.pol < 2 → pa / 128 ≠ f.pa / 128) :
    Apart pa s (s.backLines out fs) := by
  refine List.foldlRecOn (motive := Apart pa s) fs _ (.refl h.bytes pa) fun t ht f hf => ?_
  split
  · rename_i pol
    exact ht.trans (ht.bytes.backLine_apart (h.alone.congr ht.windows) out (hp f hf pol))
  · exact ht

theorem Plain.backLines_settled (h : Plain pa s) (out : Bool) {fs : List Leaf} {f : Leaf} (hf : f ∈ fs) (pol : f.pol < 2)
    (line : pa / 128 = f.pa / 128) : Settled pa (s.merged pa) (s.backLines out fs) := by
  refine foldl_reaches (Q := fun t => Apart pa s t ∨ Settled pa (s.merged pa) t) _ hf ?_ ?_ ?_ (.inl (.refl h.bytes pa))
  · intro t g ht
    split
    · rcases ht with ht | ht
      · by_cases hp : pa / 128 = g.pa / 128
        · exact .inr (by rw [← hp, ← ht.merged]; exact (ht.plain h).backLine_own out)
        · exact .inl (ht.trans (ht.bytes.backLine_apart (h.alone.congr ht.windows) out hp))
      · exact .inr (ht.backLine out _)
    · exact ht
  · intro t g ht
    split
    · exact ht.backLine out _
    · exact ht
  · intro t ht
    rw [if_pos pol, ← line]
    rcases ht with ht | ht
    · rw [← ht.merged]
      exact (ht.plain h).backLine_own out
    · exact ht.backLine out _

theorem State.backLines_gone (s : State) {fs : List Leaf} {f : Leaf} (hf : f ∈ fs) (pol : f.pol < 2) :
    Gone (f.pa / 128) (s.backLines true fs) := by
  refine foldl_reaches (Q := fun _ => True) _ hf (fun _ _ h => h) (fun t g ht => ?_) (fun t _ => ?_) trivial
  · split
    · exact (ht.flushLine _).of_rest (t.wroteLine_rest ..)
    · exact ht
  · rw [if_pos pol]
    exact ((t.writeBackLine _).forgetLine_gone _).of_rest (t.wroteLine_rest ..)

/-- The lines leave every cache, and nothing is written back. -/
def State.discardLines (s : State) (fs : List Leaf) : State := fs.foldl (fun u f => u.dropStream (f.pa / 128)) s

theorem State.discardLines_memByte (s : State) (fs : List Leaf) (pa : Nat) : (s.discardLines fs).memByte pa = s.memByte pa :=
  foldl_same (State.memByte · pa) (fun (u : State) (f : Leaf) => u.dropStream (f.pa / 128)) fs (fun _ _ => rfl) s

theorem Bytes.discardLines_apart (h : Bytes s) {fs : List Leaf} (hp : ∀ f ∈ fs, pa / 128 ≠ f.pa / 128) : Apart pa s (s.discardLines fs) :=
  List.foldlRecOn (motive := Apart pa s) fs _ (.refl h pa) fun _ ht f hf => ht.trans (ht.bytes.forgetLine_apart (hp f hf))

theorem State.discardLines_gone (s : State) {fs : List Leaf} {f : Leaf} (hf : f ∈ fs) : Gone (f.pa / 128) (s.discardLines fs) :=
  foldl_reaches (Q := fun _ => True) _ hf (fun _ _ h => h) (fun _ _ ht => ht.forgetLine _) (fun t _ => t.forgetLine_gone _) trivial

/-! ### Every dirty line of a place is written back -/

theorem Plain.cleanWhere (h : Plain pa s) (p : Nat → Bool) :
    (p (128 * (pa / 128)) = true → Landed pa (s.wbByte pa) (s.cleanWhere p))
      ∧ (p (128 * (pa / 128)) = false → Apart pa s (s.cleanWhere p)) := by
  refine ⟨fun hp => ?_, fun hp => ?_⟩
  · by_cases hl : Cells.get [] s.wb (pa / 128) = []
    · exact foldl_keeps (P := Landed pa (s.wbByte pa)) _ _ (fun t e ht => ht.cleanLine e.1) s
        ⟨h.bytes, h.alone, rfl, (wbByte_none hl).symm⟩
    · have mem : (pa / 128, Cells.get [] s.wb (pa / 128)) ∈ s.wb.filter fun e => p (128 * e.1) :=
        List.mem_filter.mpr ⟨get_mem rfl hl, hp⟩
      have own : ∀ t : State, Apart pa s t → Landed pa (s.wbByte pa) (t.cleanLine (pa / 128)) := fun t ht =>
        ht.wb ▸ (ht.plain h).cleanLine_own
      refine foldl_reaches (Q := fun t => Apart pa s t ∨ Landed pa (s.wbByte pa) t) _ mem (fun t e ht => ?_)
        (fun t e ht => ht.cleanLine e.1) (fun t ht => ht.elim (own t) (·.cleanLine _)) (.inl (.refl h.bytes pa))
      rcases ht with ht | ht
      · by_cases he : pa / 128 = e.1
        · exact .inr (he ▸ own t ht)
        · exact .inl (ht.trans (ht.bytes.cleanLine_apart (h.alone.congr ht.windows) he))
      · exact .inr (ht.cleanLine e.1)
  · refine List.foldlRecOn (motive := Apart pa s) _ _ (.refl h.bytes pa) fun t ht e he => ?_
    have : pa / 128 ≠ e.1 := fun k => by
      have := (List.mem_filter.mp he).2
      rw [← k, hp] at this
      cases this
    exact ht.trans (ht.bytes.cleanLine_apart (h.alone.congr ht.windows) this)

end Sys2Proof.Machine
end

section
/-!
SUPPORT. Laws of the state without what accesses change: which operations leave it as it is.
-/

namespace Sys2Proof.Machine

/-! ### Agents without what accesses change -/

theorem map_modify {f : α → α} {g : β → β} {b : α → β} (h : ∀ x, b (f x) = g (b x)) (l : List α) (i : Nat) :
    (l.modify i f).map b = (l.map b).modify i g := by
  apply List.ext_getElem?
  intro j
  simp only [List.getElem?_map, List.getElem?_modify, Option.map_map, Option.map_eq_map]
  congr 1
  funext x
  by_cases e : i = j <;> simp [e, h]

theorem map_modify_same {f : α → α} {b : α → β} (h : ∀ x, b (f x) = b x) (l : List α) (i : Nat) : (l.modify i f).map b = l.map b :=
  (map_modify (g := id) h l i).trans (List.modify_id i _)

/-- A course, and an ejected lane, as `State.bare` leaves them. -/
def Course.bare (x : Course) : Course := { x with owed := [], sight := {}, chunkTimes := [], regs := x.regs.landed }
def Lane.bare (x : Lane) : Lane := { x with owed := [], sight := {}, regs := x.regs.landed }

variable {s t : State}

theorem State.bare_of_aside (h : t.aside = s.aside) : t.bare = s.bare := (congrArg State.bare h :)

theorem State.modCourse_bare (s : State) (c : Nat) {f : Course → Course} (h : ∀ x, (f x).bare = x.bare) :
    (s.modCourse c f).bare = s.bare := by
  have e : (s.courses.modify c f).map Course.bare = s.courses.map Course.bare := map_modify_same h ..
  show { s.bare with courses := (s.courses.modify c f).map Course.bare } = { s.bare with courses := s.courses.map Course.bare }
  rw [e]

theorem State.modLane_bare (s : State) (q : Nat) {f : Lane → Lane} (h : ∀ x, (f x).bare = x.bare) :
    (s.modLane q f).bare = s.bare := by
  have e : (s.lanes.modify q f).map Lane.bare = s.lanes.map Lane.bare := map_modify_same h ..
  show { s.bare with lanes := (s.lanes.modify q f).map Lane.bare } = { s.bare with lanes := s.lanes.map Lane.bare }
  rw [e]

/-- A change of a course that has nothing to do with accesses is one of the course as they leave it. -/
theorem State.bare_modCourse (s : State) (c : Nat) {f : Course → Course} (h : ∀ x, (f x).bare = f x.bare) :
    (s.modCourse c f).bare = s.bare.modCourse c f := by
  have e : (s.courses.modify c f).map Course.bare = (s.courses.map Course.bare).modify c f := map_modify h ..
  show { s.bare with courses := (s.courses.modify c f).map Course.bare } = { s.bare with courses := (s.courses.map Course.bare).modify c f }
  rw [e]

theorem State.bare_modLane (s : State) (q : Nat) {f : Lane → Lane} (h : ∀ x, (f x).bare = f x.bare) :
    (s.modLane q f).bare = s.bare.modLane q f := by
  have e : (s.lanes.modify q f).map Lane.bare = (s.lanes.map Lane.bare).modify q f := map_modify h ..
  show { s.bare with lanes := (s.lanes.modify q f).map Lane.bare } = { s.bare with lanes := (s.lanes.map Lane.bare).modify q f }
  rw [e]

theorem State.setPc_bare (s : State) (v : Word) : (s.setPc v).bare = s.bare.setPc v := by
  have hc : s.bare.cur = s.cur := rfl
  unfold State.setPc
  rw [hc]
  cases s.cur with
  | none => rfl
  | course c k => exact s.bare_modCourse c fun _ => rfl
  | lane q => exact s.bare_modLane q fun _ => rfl

/-- States that accesses alone tell apart stay so while their PC moves. -/
theorem setPc_bare_congr (h : t.bare = s.bare) (v : Word) : (t.setPc v).bare = (s.setPc v).bare := by
  rw [State.setPc_bare, h, State.setPc_bare]

/-! ### What the agent has seen, and its accesses in flight -/

theorem State.modSight_bare (s : State) (f : Sight → Sight) : (s.modSight f).bare = s.bare := by
  unfold State.modSight
  cases s.cur with
  | none => rfl
  | course c k => exact s.modCourse_bare c fun _ => rfl
  | lane q => exact s.modLane_bare q fun _ => rfl

theorem Regs.landed_landed (r : Regs) : r.landed.landed = r.landed := by simp [Regs.landed]

theorem State.landFlight_bare (s : State) : s.landFlight.bare = s.bare := by
  have hc : (s.modRegs Regs.landed).cur = s.cur := by
    unfold State.modRegs
    split <;> rfl
  have hr : (s.modRegs Regs.landed).bare = s.bare := by
    unfold State.modRegs
    cases s.cur with
    | none => rfl
    | course c k => exact s.modCourse_bare c fun x => by simp [Course.bare, Regs.landed_landed]
    | lane q => exact s.modLane_bare q fun x => by simp [Lane.bare, Regs.landed_landed]
  unfold State.landFlight
  dsimp only
  rw [hc]
  cases s.cur with
  | none => exact hr
  | course c k =>
    refine (State.modCourse_bare _ c ?_).trans hr
    exact fun _ => rfl
  | lane q =>
    refine (State.modLane_bare _ q ?_).trans hr
    exact fun _ => rfl

theorem State.landFlight_rest (s : State) : s.landFlight.rest = s.rest := by
  have hr : (s.modRegs Regs.landed).rest = s.rest := by
    unfold State.modRegs
    split <;> rfl
  unfold State.landFlight
  dsimp only
  split <;> exact hr

theorem State.publish_bare (s : State) : s.publish.bare = s.bare := by
  unfold State.publish
  cases s.cur with
  | none => rfl
  | course c k => exact (State.modSight_bare ..).trans (s.modCourse_bare c fun _ => rfl)
  | lane q => rfl

theorem State.publish_rest (s : State) : s.publish.rest = s.rest := by
  unfold State.publish
  cases s.cur with
  | none => rfl
  | course c k => exact State.modSight_rest ..
  | lane q => rfl

theorem State.settleBatches_bare (s : State) : s.settleBatches.bare = s.bare := by
  unfold State.settleBatches
  cases s.cur with
  | none => rfl
  | course c k => exact s.modSight_bare _
  | lane q => rfl

theorem State.settleBatches_rest (s : State) : s.settleBatches.rest = s.rest := by
  unfold State.settleBatches
  cases s.cur with
  | none => rfl
  | course c k => exact s.modSight_rest _
  | lane q => rfl

/-- Batches that are done come before what the agent does next (R241, R252). -/
theorem State.batches_bare (s : State) (scope : Nat) :
    (if scope = 0 then s.settleBatches else s.publish).bare = s.bare
      ∧ (if scope = 0 then s.settleBatches else s.publish).rest = s.rest := by
  split
  · exact ⟨s.settleBatches_bare, s.settleBatches_rest⟩
  · exact ⟨s.publish_bare, s.publish_rest⟩

theorem State.cleanWhere_bare (s : State) (p : Nat → Bool) : (s.cleanWhere p).bare = s.bare :=
  State.bare_of_aside (foldl_same State.aside (fun (t : State) (e : Nat × List Byte) => t.cleanLine e.1) _
    (fun t e => t.cleanLine_aside e.1) s)

/-! ### A FENCE (R254) -/

theorem State.release_bare (s : State) (scope : Nat) : (s.release scope).bare = s.bare := by
  obtain ⟨hb, -⟩ := s.batches_bare scope
  unfold State.release State.performAt
  dsimp only
  split
  · exact hb
  · rw [State.landFlight_bare, State.cleanWhere_bare, hb]

theorem State.fenceAt_bare (s : State) (scope : Nat) : (s.fenceAt scope).bare = s.bare := by
  have h : (((s.release scope).notBefore s.sight.wrote).acquire scope).bare = s.bare := by
    rw [State.acquire, State.modSight_bare, State.notBefore, State.modSight_bare, State.release_bare]
  exact h

/-- After what a release has written back, a FENCE changes STREAM copies alone, and those of L2 and memory not at all. -/
theorem State.fenceAt_lines (s : State) (scope : Nat) : SameLines (s.release scope) (s.fenceAt scope) := by
  have h : (((s.release scope).notBefore s.sight.wrote).acquire scope).rest = (s.release scope).rest := by
    rw [State.acquire, State.modSight_rest, State.notBefore, State.modSight_rest]
  exact (SameLines.of_rest h).trans ⟨rfl, rfl, rfl, fun _ => rfl⟩

/-- A release writes back what lies far at its scope (R241). -/
theorem Plain.release {pa : Nat} (h : Plain pa s) (scope : Nat) :
    (s.release scope).wbByte pa = s.wbByte pa
      ∧ (s.release scope).memByte pa = if isFar scope (128 * (pa / 128)) = true then s.wbByte pa else s.memByte pa := by
  obtain ⟨-, hr⟩ := s.batches_bare scope
  have done := Apart.of_rest h.bytes hr pa
  unfold State.release State.performAt
  dsimp only
  by_cases near : scope < 4
  · rw [if_pos near, done.wb, done.mem, if_neg (by simp [isFar]; omega)]
    exact ⟨rfl, rfl⟩
  · rw [if_neg near, if_neg near]
    obtain ⟨far, here⟩ := (done.plain h).cleanWhere (isFar scope)
    cases hp : isFar scope (128 * (pa / 128)) with
    | true =>
      have k := far hp
      have flown := (Apart.of_rest k.bytes (State.landFlight_rest _) pa).landed k
      exact ⟨flown.reads.trans done.wb, flown.mem.trans done.wb⟩
    | false =>
      have k := here hp
      have flown := k.trans (Apart.of_rest k.bytes (State.landFlight_rest _) pa)
      exact ⟨flown.wb.trans done.wb, flown.mem.trans done.mem⟩

theorem Plain.fenceAt {pa : Nat} (h : Plain pa s) (scope : Nat) :
    (s.fenceAt scope).wbByte pa = s.wbByte pa
      ∧ (s.fenceAt scope).memByte pa = if isFar scope (128 * (pa / 128)) = true then s.wbByte pa else s.memByte pa := by
  rw [(s.fenceAt_lines scope).wbByte, (s.fenceAt_lines scope).memByte]
  exact h.release scope

/-! ### Lines that are written back, or leave -/

theorem State.backLine_bare (s : State) (out : Bool) (ln : Nat) : (s.backLine out ln).bare = s.bare := by
  have h : (if out then s.flushLine ln else s.writeBackLine ln).bare = s.bare := by
    refine State.bare_of_aside ?_
    split
    · exact s.flushLine_aside ln
    · exact (State.cleanLine_aside ..).trans (s.flushStream_aside ln)
  unfold State.backLine State.wroteLine
  split
  · exact (State.modSight_bare ..).trans h
  · exact h

theorem State.backLines_bare (s : State) (out : Bool) (fs : List Leaf) : (s.backLines out fs).bare = s.bare := by
  refine foldl_same State.bare _ fs (fun t f => ?_) s
  split
  · exact t.backLine_bare out _
  · rfl

theorem State.discardLines_bare (s : State) (fs : List Leaf) : (s.discardLines fs).bare = s.bare :=
  State.bare_of_aside (foldl_same State.aside (fun (u : State) (f : Leaf) => u.dropStream (f.pa / 128)) fs (fun _ _ => rfl) s)

end Sys2Proof.Machine
end

section
/-!
SUPPORT. Laws of an instruction that caches alone serve: what it finds is what stood there before it, and it may stall.
-/

namespace Sys2Proof.Machine

/-! ### What a cache operation finds -/

theorem eq_withAgents {s t : State} (h : t.rest = s.rest) : t = s.withAgents t.courses t.lanes :=
  calc t = t.rest.withAgents t.courses t.lanes := rfl
    _ = s.rest.withAgents t.courses t.lanes := by rw [h]
    _ = s.withAgents t.courses t.lanes := rfl

section
variable (s : State) (cs : List Course) (ls : List Lane)

theorem walkFrom_withAgents (ctx va : Nat) (l : List (Nat × Nat)) (table : Nat) :
    walkFrom (s.withAgents cs ls) ctx va l table = walkFrom s ctx va l table := by
  induction l generalizing table with
  | nil => rfl
  | cons e l ih =>
    have next : walkFrom (s.withAgents cs ls) ctx va l = walkFrom s ctx va l := funext ih
    rw [walkFrom, walkFrom, next]
    rfl

theorem State.translate_withAgents (x : Nat) (va : Word) : (s.withAgents cs ls).translate x va = s.translate x va := by
  have walk : ∀ ctx va l, walkFrom (s.withAgents cs ls) ctx va l = walkFrom s ctx va l := fun ctx va l =>
    funext fun t => walkFrom_withAgents s cs ls ctx va l t
  unfold State.translate
  simp only [walk]
  rfl

theorem effField_withAgents {α : Type} (f : Region → α) (bit : Nat) (join : α → α → α) (fuel r : Nat) :
    effField (s.withAgents cs ls) f bit join fuel r = effField s f bit join fuel r := by
  induction fuel generalizing r with
  | zero => rfl
  | succ fuel ih =>
    rw [effField, effField]
    simp only [ih]
    rfl

theorem State.walkChecked_withAgents (x l : Nat) (va : Word) (q : Need) :
    (s.withAgents cs ls).walkChecked x l va q = s.walkChecked x l va q := by
  have pool : (s.withAgents cs ls).effPoolEn = s.effPoolEn := funext fun r => effField_withAgents s cs ls ..
  unfold State.walkChecked
  rw [State.translate_withAgents, pool]
  rfl

end

theorem State.entering_walkChecked (s : State) (i : Instr) (x l : Nat) (va : Word) (q : Need) :
    (s.entering i).walkChecked x l va q = s.walkChecked x l va q := by
  rw [eq_withAgents (s.entering_rest i), State.walkChecked_withAgents]

theorem State.entering_launchIx (s : State) (i : Instr) (c : Nat) : (s.entering i).launchIx c = s.launchIx c := by
  have hb : ((s.entering i).course c).block = (s.course c).block := (congrArg Course.block ((s.entering_frame i).course c) :)
  have hblocks : (s.entering i).blocks = s.blocks := (congrArg State.blocks (s.entering_rest i) :)
  simp only [State.launchIx, State.block, hb, hblocks]

theorem State.entering_ctxOf (s : State) (i : Instr) (c : Nat) : (s.entering i).ctxOf c = s.ctxOf c := by
  have hl : (s.entering i).launches = s.launches := (congrArg State.launches (s.entering_rest i) :)
  simp only [State.ctxOf, State.launchOf, State.launch, State.entering_launchIx, hl]

theorem State.entering_cacheLines (s : State) (i : Instr) (o : Mem) (wr : Bool) (l : List Nat) :
    (s.entering i).cacheLines o wr l = s.cacheLines o wr l := by
  have hp : (s.entering i).poolUp = s.poolUp := (congrArg State.poolUp (s.entering_rest i) :)
  induction l with
  | nil => rfl
  | cons l ls ih =>
    simp only [State.cacheLines, ih, State.entering_memAddr, State.entering_walkChecked, State.entering_ctxOf,
      State.entering_launchIx, (s.entering_same i).2.1, hp]

theorem State.entering_coreOf (s : State) (i : Instr) (c : Nat) : (s.entering i).coreOf c = s.coreOf c := by
  have hb : ((s.entering i).course c).block = (s.course c).block := (congrArg Course.block ((s.entering_frame i).course c) :)
  have hblocks : (s.entering i).blocks = s.blocks := (congrArg State.blocks (s.entering_rest i) :)
  simp only [State.coreOf, State.block, hb, hblocks]

theorem State.entering_icinvCovers (s : State) (i : Instr) (scope core : Nat) :
    (s.entering i).icinvCovers scope core = s.icinvCovers scope core := by
  have quoin : ∀ q, ((s.entering i).lane q).quoin = (s.lane q).quoin := fun q => (congrArg Lane.quoin ((s.entering_frame i).lane q) :)
  have cache : (s.entering i).cacheOf = s.cacheOf := by
    simp only [State.cacheOf, s.entering_cur, quoin, s.entering_coreOf, (s.entering_same i).2.1]
  simp only [State.icinvCovers, cache, s.entering_coreOf, (s.entering_same i).2.1]

/-! ### The PC of an agent that waits, or whose fetch buffers are emptied -/

theorem State.modSplit_pc {s : State} {c k : Nat} (h : s.hasAgent = true) (hc : s.cur = .course c k) (f : Split → Split)
    (hf : ∀ x, (f x).pc = x.pc) : (s.modSplit c k f).pc = s.pc := by
  have hc' : (s.modSplit c k f).cur = .course c k := hc
  simp only [State.pc, hc, hc', State.modSplit_split h hc, hf]

theorem State.modLane_pc {s : State} {q : Nat} (h : s.hasAgent = true) (hc : s.cur = .lane q) (f : Lane → Lane)
    (hf : ∀ x, (f x).pc = x.pc) : (s.modLane q f).pc = s.pc := by
  have hc' : (s.modLane q f).cur = .lane q := hc
  simp only [State.pc, hc, hc', State.modLane_lane _ _ _ _ (State.hasAgent_lane h hc), if_true, hf]

theorem State.entering_pc {s : State} (h : s.hasAgent = true) (i : Instr) : (s.entering i).pc = s.pc := by
  have close : (s.closeWindow i).pc = s.pc ∧ (s.closeWindow i).hasAgent = true := by
    unfold State.closeWindow
    split
    · split
      · exact ⟨rfl, h⟩
      · refine ⟨?_, (s.modCourse_hasAgent _ _ rfl).trans h⟩
        rename_i c k hc _
        have hc' : (s.modCourse c fun x => { x with win := none }).cur = .course c k := hc
        simp only [State.pc, hc, hc', s.modCourse_split c (fun x => { x with win := none }) (fun _ => rfl)]
    · exact ⟨rfl, h⟩
  refine Eq.trans ?_ close.1
  unfold State.entering State.clearWait
  split
  · rfl
  · exact State.modSplit_pc close.2 ‹_› _ fun _ => rfl
  · exact State.modLane_pc close.2 ‹_› _ fun _ => rfl

theorem State.setWait_pc {s : State} (h : s.hasAgent = true) (w : Wait) (next : Word) : (s.setWait w next).pc = s.pc := by
  unfold State.setWait
  split
  · rfl
  · exact State.modSplit_pc h ‹_› _ fun _ => rfl
  · exact State.modLane_pc h ‹_› _ fun _ => rfl

theorem State.setWait_wait {s : State} (h : s.hasAgent = true) (w : Wait) (next : Word) : (s.setWait w next).wait = w := by
  cases hc : s.cur with
  | none => simp [State.hasAgent, hc] at h
  | course c k =>
    simp only [State.setWait, hc]
    simp only [State.wait, show (s.modSplit c k _).cur = .course c k from hc, State.modSplit_split h hc]
  | lane q => simp [State.setWait, State.wait, hc, State.modLane_lane _ _ _ _ (State.hasAgent_lane h hc)]

theorem State.setWait_frame (s : State) (w : Touch) (x : Wait) (next : Word) : Frame w s (s.setWait x next) := by
  cases hc : s.cur with
  | none => simpa [State.setWait, hc] using Frame.refl w s
  | course c k =>
    simp only [State.setWait, hc]
    exact s.modSplit_frame w hc _ (fun _ => rfl) fun _ => rfl
  | lane q =>
    simp only [State.setWait, hc]
    exact Frame.of_modLane hc _ rfl (RegsFrame.refl w _)

/-- An instruction whose work stalls waits where it stands. -/
theorem seqInstr_stalls {i : Instr} {s : State} {body : State → Except Exn State} (h : Ready i s)
    (hb : body (s.entering i) = .error .stall) : ∃ t, seqInstr i body s = .next t ∧ Waits i .stalled s t := by
  have ha : (s.entering i).hasAgent = true := by simp [h.agent]
  refine ⟨(s.entering i).setWait .stalled s.pc, ?_, State.setWait_wait ha _ _, (State.setWait_pc ha _ _).trans (State.entering_pc h.agent i),
    fun _ _ _ hn => absurd rfl hn, ?_⟩
  · rw [seqInstr_error h hb]
    unfold State.settleExn
    cases hc : (s.entering i).cur with
    | none => simp [State.hasAgent, hc] at ha
    | course c k => rfl
    | lane q => rfl
  · have f := (s.entering_frame i).trans ((s.entering i).setWait_frame {} .stalled s.pc)
    exact f.mono (by simp [Touch.join]) (by simp [Touch.join]) (by simp [Touch.join]) (by simp [Touch.join])
      (by simp [Touch.join]) (by simp [Touch.join])

/-! ### Fetch buffers are emptied -/

theorem State.dropBufs_rest (s : State) : s.dropBufs.rest = s.rest := by
  unfold State.dropBufs State.setBuf
  split
  · rfl
  · split <;> rfl

theorem State.dropBufs_bare (s : State) : s.dropBufs.bare = s.bare.dropBufs := by
  have hc : s.bare.cur = s.cur := rfl
  unfold State.dropBufs State.setBuf
  rw [hc]
  cases h : s.cur with
  | none => rfl
  | course c k => exact s.bare_modCourse c fun _ => rfl
  | lane q => exact s.bare_modLane q fun _ => rfl

theorem State.dropBufs_hasAgent (s : State) : s.dropBufs.hasAgent = s.hasAgent := by
  unfold State.dropBufs State.setBuf
  split
  · exact s.modCourse_hasAgent _ _ (by simp)
  · split
    · rfl
    · exact s.modSplit_hasAgent ..
    · exact s.modLane_hasAgent ..

theorem State.dropBufs_pc {s : State} (h : s.hasAgent = true) : s.dropBufs.pc = s.pc := by
  cases hc : s.cur with
  | none => simp [State.hasAgent, hc] at h
  | course c k =>
    obtain ⟨hl, hk⟩ := State.hasAgent_course h hc
    have hd : s.dropBufs.cur = .course c k := by simp only [State.dropBufs, hc, State.modCourse_cur]
    simp only [State.pc, hd, hc, State.split]
    simp only [State.dropBufs, hc, State.modCourse_course _ _ _ _ hl, if_true]
    simp [List.getD_eq_getElem?_getD, hk]
  | lane q =>
    have e : s.dropBufs = s.modLane q fun x => { x with buf := [] } := by simp only [State.dropBufs, State.setBuf, hc]
    rw [e]
    exact State.modLane_pc h hc _ fun _ => rfl

/-- An instruction begins alike before and after the fetch buffers are emptied. -/
theorem State.dropBufs_entering (s : State) (i : Instr) : s.dropBufs.entering i = (s.entering i).dropBufs := by
  have he := s.entering_cur i
  cases hc : s.cur with
  | none => simp [State.dropBufs, State.setBuf, State.entering, State.closeWindow, State.clearWait, hc]
  | course c k =>
    have hd : s.dropBufs.cur = .course c k := by simp only [State.dropBufs, hc, State.modCourse_cur]
    rw [State.entering_course hd, State.dropBufs, State.dropBufs, he, hc]
    dsimp only
    rw [State.entering_course hc, State.modCourse_modCourse, State.modCourse_modCourse]
    congr 1
    funext x
    have same : (x.splits.map fun y => { y with buf := [] }).modify k (fun y => { y with wait := .ready })
        = (x.splits.modify k fun y => { y with wait := .ready }).map fun y => { y with buf := [] } :=
      (map_modify (f := fun y : Split => { y with wait := .ready }) (b := fun y : Split => { y with buf := [] }) (fun _ => rfl) ..).symm
    simp only [Function.comp_apply, Course.began, same]
  | lane q =>
    have e : ∀ t : State, t.cur = .lane q → t.dropBufs = t.modLane q fun x => { x with buf := [] } := fun t ht => by
      simp only [State.dropBufs, State.setBuf, ht]
    have b : ∀ t : State, t.cur = .lane q → t.entering i = t.modLane q fun x => { x with wait := .ready } := fun t ht => by
      simp only [State.entering, State.closeWindow, State.clearWait, ht]
    rw [e s hc, e (s.entering i) (he.trans hc), b s hc, b (s.modLane q _) hc]
    simp only [State.modLane, modify_modify]
    rfl

/-- What emptied fetch buffers, a change of the instruction caches and a move of the PC leave of the state, but for those caches. -/
theorem State.dropBufs_setPc_bare (s : State) (l : List ILine) (v : Word) :
    { ({ s.dropBufs with icache := l }).setPc v with icache := [] }.bare = ({ s.bare.dropBufs with icache := [] }).setPc v := by
  have caches : ∀ t : State, { t.setPc v with icache := [] } = ({ t with icache := [] }).setPc v := fun t => by
    obtain ⟨cs, ls, e⟩ := t.setPc_withAgents v
    rw [e t ⟨rfl, rfl, rfl⟩, e { t with icache := [] } ⟨rfl, rfl, rfl⟩]
    rfl
  rw [caches, State.setPc_bare, ← State.dropBufs_bare]
  rfl

end Sys2Proof.Machine
end

section
/-!
SUPPORT. Laws of lines that come into caches: no byte that an agent sees changes (R223, R255, R296).
-/

namespace Sys2Proof.Machine

variable {s t u : State}

theorem OnlySeen.refl (s : State) : OnlySeen s s := ⟨rfl, fun _ _ _ => rfl, fun _ _ => rfl, fun _ _ _ => rfl⟩

theorem OnlySeen.trans (h : OnlySeen s t) (k : OnlySeen t u) : OnlySeen s u :=
  ⟨k.bare.trans h.bare, fun pol pa n => (k.bytes pol pa n).trans (h.bytes pol pa n), fun pa n => (k.stream pa n).trans (h.stream pa n),
    fun b off n => (k.pads b off n).trans (h.pads b off n)⟩

theorem streamCopy_congr (hs : t.stream = s.stream) (hc : t.cur = s.cur) (ln : Nat) : t.streamCopy ln = s.streamCopy ln := by
  simp only [State.streamCopy, State.viewer, hs, hc]

/-- Where the bytes that memory and L2 show stand as before, and so do the STREAM copies and the scratchpads. -/
theorem OnlySeen.of_view (hb : t.bare = s.bare) (hm : ∀ pa, t.memByte pa = s.memByte pa) (hw : ∀ pa, t.wbByte pa = s.wbByte pa)
    (hs : t.stream = s.stream) (hk : t.blocks = s.blocks) : OnlySeen s t := by
  have hc : t.cur = s.cur := (congrArg State.cur hb :)
  refine ⟨hb, fun pol pa _ => by simp only [State.readByte, hm, hw], fun pa _ => ?_, fun b off _ => by simp only [State.block, hk]⟩
  unfold State.streamByte
  rw [streamCopy_congr hs hc, hw]

/-- The same while the PC moves. -/
theorem OnlySeen.setPc (h : OnlySeen s t) (v : Word) : OnlySeen (s.setPc v) (t.setPc v) := by
  have mem : ∀ r : State, ∀ pol pa, (r.setPc v).readByte pol pa = r.readByte pol pa := fun r => (r.setPc_frame {} v).mem
  have stream : ∀ r : State, ∀ pa, (r.setPc v).streamByte pa = r.streamByte pa := fun r pa => by
    have hs : (r.setPc v).stream = r.stream := (congrArg State.stream (r.setPc_frame {} v).rest :)
    have hw : (r.setPc v).wbByte pa = r.wbByte pa := mem r 0 pa
    unfold State.streamByte
    rw [streamCopy_congr hs (r.setPc_frame {} v).cur, hw]
  have blocks : ∀ r : State, (r.setPc v).blocks = r.blocks := fun r => (congrArg State.blocks (r.setPc_frame {} v).rest :)
  refine ⟨setPc_bare_congr h.bare v, fun pol pa n => ?_, fun pa n => ?_, fun b off n => ?_⟩
  · rw [mem, mem, h.bytes pol pa n]
  · rw [stream, stream, h.stream pa n]
  · simp only [State.block, blocks]
    exact h.pads b off n

/-- A line that comes into L2 has the bytes that memory has. -/
theorem Bytes.wbByte_fillAt (h : Bytes s) (die hint ln due pa : Nat) : (s.fillAt die hint ln due).wbByte pa = s.wbByte pa := by
  unfold State.fillAt
  split
  · rfl
  · have e := Cells.get_set [] s.wb ln (pa / 128) (s.lineBytes ln)
    by_cases hp : pa / 128 = ln
    · subst hp
      rw [if_pos rfl] at e
      have hne : s.lineBytes (pa / 128) ≠ [] := List.ne_nil_of_length_pos (by rw [h.length_lineBytes]; decide)
      rw [wbByte_line (show Cells.get [] (Cells.set [] s.wb (pa / 128) _) (pa / 128) ≠ [] by rwa [e])]
      dsimp only
      rw [e, lineBytes_getD]
    · rw [if_neg hp] at e
      unfold State.wbByte
      dsimp only
      rw [e]
      rfl

theorem Bytes.fillL2_seen (h : Bytes s) (hint ln : Nat) : OnlySeen s (s.fillL2 hint ln) := by
  refine .of_view ?_ (fun pa => ?_) (h.wbByte_fillAt _ _ _ _) ?_ ?_ <;>
  · unfold State.fillL2 State.fillAt
    split <;> rfl

theorem State.hold_seen (s : State) (e : Held) : OnlySeen s (s.hold e) := .of_view rfl (fun _ => rfl) (fun _ => rfl) rfl rfl

/-- The agent takes a STREAM copy of a line of which it had none, with the bytes that it read there. -/
theorem State.setStream_seen {x : StreamLine} (who : x.who = s.viewer) (none : s.streamCopy x.line = none)
    (bytes : ∀ pa, pa / 128 = x.line → x.bytes.getD (pa % 128) 0 = s.wbByte pa) : OnlySeen s (s.setStream x) := by
  refine ⟨rfl, fun _ _ _ => rfl, fun pa _ => ?_, fun _ _ _ => rfl⟩
  have view : (s.setStream x).viewer = s.viewer := rfl
  have copy : (s.setStream x).streamCopy (pa / 128) = if pa / 128 = x.line then some x else s.streamCopy (pa / 128) := by
    rw [State.streamCopy, view, State.setStream]
    dsimp only
    rw [List.find?_append, List.find?_filter]
    by_cases hp : pa / 128 = x.line
    · rw [if_pos hp, hp, List.find?_eq_none.mpr, Option.none_or]
      · simp [who]
      · intro y _
        simp only [who]
        cases (y.who == s.viewer && y.line == x.line) <;> simp
    · rw [if_neg hp, State.streamCopy]
      have own : [x].find? (fun y => y.who == s.viewer && y.line == pa / 128) = Option.none := by simp [Ne.symm hp]
      rw [own, Option.or_none]
      congr 1
      funext y
      by_cases hy : y.line = pa / 128
      · by_cases w : y.who = s.viewer <;> simp [hy, hp, w]
      · simp [hy]
  have wb : (s.setStream x).wbByte pa = s.wbByte pa := rfl
  unfold State.streamByte
  rw [copy, wb]
  by_cases hp : pa / 128 = x.line
  · rw [if_pos hp, hp, none]
    exact bytes pa hp
  · rw [if_neg hp]

/-- CPF of one line. -/
theorem Bytes.prefetchLine_seen (h : Bytes s) (hint : Nat) (l1 : Bool) (f : Leaf) :
    Bytes (s.prefetchLine hint l1 f) ∧ OnlySeen s (s.prefetchLine hint l1 f) := by
  have fill := h.fillL2 hint (f.pa / 128)
  have seen := h.fillL2_seen hint (f.pa / 128)
  have len := h.length_lineBytes (f.pa / 128)
  have hold : ∀ {t : State} {e : Held} {p : Prop} [Decidable p], e.bytes.length = 128 → Bytes t ∧ OnlySeen s t →
      Bytes (if p then t.hold e else t) ∧ OnlySeen s (if p then t.hold e else t) := fun he ht => by
    split
    · exact ⟨ht.1.hold he, ht.2.trans (State.hold_seen ..)⟩
    · exact ht
  unfold State.prefetchLine
  dsimp only
  split
  · exact ⟨h, .refl s⟩
  · split
    · split
      · rename_i c
        have none : s.streamCopy (f.pa / 128) = none := by simpa using (Bool.and_eq_true_iff.mp c).2
        have same : (s.fillL2 hint (f.pa / 128)).stream = s.stream ∧ (s.fillL2 hint (f.pa / 128)).cur = s.cur := by
          unfold State.fillL2 State.fillAt
          split <;> exact ⟨rfl, rfl⟩
        refine ⟨fill.setStream len, seen.trans (State.setStream_seen ?_ ?_ fun pa hp => ?_)⟩
        · simp only [State.newStream, State.viewer, same.2]
        · exact (streamCopy_congr same.1 same.2 _).trans none
        · have hl : (s.newStream true hint (f.pa / 128)).bytes = s.lineBytes (pa / 128) := by rw [hp]; rfl
          rw [hl, lineBytes_getD]
          exact (h.wbByte_fillAt ..).symm
      · exact ⟨fill, seen⟩
    · refine hold len (hold len ⟨fill.of_eq rfl rfl rfl rfl, seen.trans ?_⟩)
      exact .of_view rfl (fun _ => rfl) (fun _ => rfl) rfl rfl

/-- CPF brings lines into caches, and no more. -/
theorem execCpf_seen {o : Mem} (h : Bytes s) (ready : Ready (.cpf o) s) :
    ∃ t, exec (.cpf o) s = .next (t.setPc (s.nextPc (.cpf o))) ∧ OnlySeen (s.entering (.cpf o)) t := by
  have begin' : Bytes (s.entering (.cpf o)) := (Apart.of_rest h (s.entering_rest _) 0).bytes
  rw [show exec (.cpf o) s = execCpf o s from rfl, execCpf]
  refine ⟨_, seqInstr_next ready rfl, ?_⟩
  refine (List.foldlRecOn (motive := fun t : State => Bytes t ∧ OnlySeen (s.entering (.cpf o)) t) _ _ ⟨begin', .refl _⟩ ?_).2
  intro t ht l _
  split
  · split
    · exact ht
    · obtain ⟨bytes, seen⟩ := ht.1.prefetchLine_seen o.hint.toNat (o.sub == 0) _
      exact ⟨bytes, ht.2.trans seen⟩
  · exact ht

end Sys2Proof.Machine
end

section
/-!
The statement of fences and cache operations, from what each leaves of one byte.
-/

namespace Sys2Proof.Machine

variable {s : State}

/-- An instruction whose work changes only what accesses may change. -/
theorem seqInstr_accesses {i : Instr} {body : State → Except Exn State} {x : State} (ready : Ready i s)
    (work : body (s.entering i) = .ok x) (bare : x.bare = (s.entering i).bare) :
    ∃ u t, seqInstr i body s = .next t ∧ Done i {} s u ∧ t.bare = u.bare ∧ t.rest = x.rest :=
  ⟨_, _, seqInstr_next ready work, goes_of_work ready.agent (Frame.refl {} _) rfl rfl _, setPc_bare_congr bare _,
    (x.setPc_frame {} _).rest⟩

/-! ### FENCE -/

theorem execFence_done (h : Bytes s) {o : Sys} (ready : Ready (.fence o) s) :
    ∃ u t, exec (.fence o) s = .next t ∧ Done (.fence o) {} s u ∧ t.bare = u.bare ∧ ∀ pa, Plain pa s →
      t.wbByte pa = s.wbByte pa
        ∧ t.memByte pa = if isFar o.x.toNat (128 * (pa / 128)) = true then s.wbByte pa else s.memByte pa := by
  have run : ∃ u t, execFence o s = .next t ∧ Done (.fence o) {} s u ∧ t.bare = u.bare
      ∧ t.rest = ((s.entering (.fence o)).fenceAt o.x.toNat).rest := by
    unfold execFence
    exact seqInstr_accesses ready rfl (State.fenceAt_bare ..)
  obtain ⟨u, t, runs, done, bare, rest⟩ := run
  refine ⟨u, t, runs, done, bare, fun pa p => ?_⟩
  have before := Apart.of_rest h (s.entering_rest (.fence o)) pa
  obtain ⟨reads, mem⟩ := (before.plain p).fenceAt o.x.toNat
  have after := SameLines.of_rest rest
  exact ⟨by rw [after.wbByte, reads, before.wb], by rw [after.memByte, mem, before.wb, before.mem]⟩

theorem isFar_iff (scope pa : Nat) : isFar scope pa = true ↔ (4 ≤ scope ∧ isPool pa = true) ∨ (5 ≤ scope ∧ isHost pa = true) := by
  simp only [isFar, Bool.and_eq_true, Bool.or_eq_true, decide_eq_true_eq]
  constructor
  · rintro ⟨h4, hp | h5⟩
    · exact .inl ⟨h4, hp⟩
    · exact .inr h5
  · rintro (h | h)
    · exact ⟨h.1, .inl h.2⟩
    · exact ⟨by omega, .inr h⟩

/-! ### CWB and CINV -/

/-- From `s` to `t` the lines of pages that caches hold were written back, and removed where `out` says so. -/
structure WroteBack (out : Bool) (fs : List Leaf) (s t : State) : Prop where
  named : ∀ f ∈ fs, f.pol < 2 → ∀ pa, pa / 128 = f.pa / 128 → Plain pa s → Settled pa (s.merged pa) t
  gone : out = true → ∀ f ∈ fs, f.pol < 2 → Gone (f.pa / 128) t
  others : ∀ pa, (∀ f ∈ fs, f.pol < 2 → pa / 128 ≠ f.pa / 128) → Plain pa s → Apart pa s t

theorem wroteBack_of_rest (h : Bytes s) {u t : State} (hu : u.rest = s.rest) {out : Bool} {fs : List Leaf}
    (ht : t.rest = (u.backLines out fs).rest) : WroteBack out fs s t := by
  have before := Apart.of_rest h hu
  refine ⟨fun f hf pol pa line p => ?_, fun e f hf pol => ?_, fun pa hp p => ?_⟩
  · have k := ((before pa).plain p).backLines_settled out hf pol line
    rw [(before pa).merged] at k
    exact (Apart.of_rest k.bytes ht pa).settled k
  · subst e
    exact (u.backLines_gone hf pol).of_rest ht
  · have k := ((before pa).plain p).backLines_apart out hp
    exact ((before pa).trans k).trans (Apart.of_rest k.bytes ht pa)

/-- What CINV does with the lines that it names. -/
def State.cinvLines (s : State) (o : Mem) (fs : List Leaf) : State :=
  fs.foldl (fun u f =>
    if 2 ≤ f.pol then u
    else if o.sub = 1 ∧ f.pol = 1 then u.dropStream (f.pa / 128)
    else u.wroteLine (f.pa / 128) (u.flushLine (f.pa / 128))) s

/-- It writes them back, but a STREAM page's under `.discard`. -/
theorem State.cinvLines_back (s : State) {o : Mem} {fs : List Leaf} (h : ∀ f ∈ fs, ¬(o.sub = 1 ∧ f.pol = 1)) :
    s.cinvLines o fs = s.backLines true fs := by
  refine List.foldl_ext _ _ _ fun u f hf => ?_
  rw [if_neg (h f hf)]
  by_cases pol : f.pol < 2
  · rw [if_neg (by omega), if_pos pol]
    rfl
  · rw [if_pos (by omega), if_neg pol]

theorem State.cinvLines_discard (s : State) {o : Mem} {fs : List Leaf} (sub : o.sub = 1) (h : ∀ f ∈ fs, f.pol = 1) :
    s.cinvLines o fs = s.discardLines fs := by
  refine List.foldl_ext _ _ _ fun u f hf => ?_
  rw [if_neg (by have := h f hf; omega), if_pos ⟨sub, h f hf⟩]

/-- A cache operation finds the lines that its lanes name before it. -/
theorem State.entering_namedLines (s : State) (i : Instr) (o : Mem) (wr : Bool) :
    (s.entering i).cacheLines o wr (Mask.list ((s.entering i).acted o.g)) = s.cacheLines o wr (Mask.list (s.acted o.g)) := by
  rw [State.entering_acted, State.entering_cacheLines]

theorem State.entering_pinned (s : State) (i : Instr) (ln : Nat) : (s.entering i).pinned ln = s.pinned ln := by
  have ops : (s.entering i).ops = s.ops := (congrArg State.ops (s.entering_rest i) :)
  simp only [State.pinned, ops]

section
variable {o : Mem} {fs : List Leaf}

theorem execCwb_done (h : Bytes s) (found : s.cacheLines o false (Mask.list (s.acted o.g)) = .ok fs) (ready : Ready (.cwb o) s) :
    ∃ u t, exec (.cwb o) s = .next t ∧ Done (.cwb o) {} s u ∧ t.bare = u.bare ∧ WroteBack false fs s t := by
  rw [← s.entering_namedLines (.cwb o)] at found
  have run : ∃ u t, execCwb o s = .next t ∧ Done (.cwb o) {} s u ∧ t.bare = u.bare
      ∧ t.rest = ((s.entering (.cwb o)).backLines false fs).rest := by
    unfold execCwb
    refine seqInstr_accesses ready ?_ (State.backLines_bare ..)
    rw [found]
    rfl
  obtain ⟨u, t, runs, done, bare, rest⟩ := run
  exact ⟨u, t, runs, done, bare, wroteBack_of_rest h (s.entering_rest _) rest⟩

/-- CINV, where no line that it names is pinned. -/
theorem execCinv_runs (found : s.cacheLines o (o.sub == 1) (Mask.list (s.acted o.g)) = .ok fs)
    (free : ∀ f ∈ fs, f.pol < 2 → s.pinned (f.pa / 128) = false) (ready : Ready (.cinv o) s)
    (bare : ((s.entering (.cinv o)).cinvLines o fs).bare = (s.entering (.cinv o)).bare) :
    ∃ u t, exec (.cinv o) s = .next t ∧ Done (.cinv o) {} s u ∧ t.bare = u.bare
      ∧ t.rest = ((s.entering (.cinv o)).cinvLines o fs).rest := by
  have pins : (fs.any fun f => f.pol < 2 && (s.entering (.cinv o)).pinned (f.pa / 128)) = false := by
    rw [List.any_eq_false]
    intro f hf
    by_cases pol : f.pol < 2
    · simp [s.entering_pinned, free f hf pol]
    · simp [pol]
  rw [← s.entering_namedLines (.cinv o)] at found
  rw [show exec (.cinv o) s = execCinv o s from rfl, execCinv]
  refine seqInstr_accesses ready ?_ bare
  simp only [found, bind, Except.bind, pins, Bool.false_eq_true, if_false]
  rfl

theorem execCinv_back (h : Bytes s) (found : s.cacheLines o (o.sub == 1) (Mask.list (s.acted o.g)) = .ok fs)
    (free : ∀ f ∈ fs, f.pol < 2 → s.pinned (f.pa / 128) = false) (ready : Ready (.cinv o) s)
    (back : ∀ f ∈ fs, ¬(o.sub = 1 ∧ f.pol = 1)) :
    ∃ u t, exec (.cinv o) s = .next t ∧ Done (.cinv o) {} s u ∧ t.bare = u.bare ∧ WroteBack true fs s t := by
  have e := (s.entering (.cinv o)).cinvLines_back back
  obtain ⟨u, t, runs, done, bare, rest⟩ := execCinv_runs found free ready (by rw [e, State.backLines_bare])
  rw [e] at rest
  exact ⟨u, t, runs, done, bare, wroteBack_of_rest h (s.entering_rest _) rest⟩

theorem execCinv_discard (h : Bytes s) (found : s.cacheLines o (o.sub == 1) (Mask.list (s.acted o.g)) = .ok fs)
    (free : ∀ f ∈ fs, f.pol < 2 → s.pinned (f.pa / 128) = false) (ready : Ready (.cinv o) s) (sub : o.sub = 1)
    (stream : ∀ f ∈ fs, f.pol = 1) :
    ∃ u t, exec (.cinv o) s = .next t ∧ Done (.cinv o) {} s u ∧ t.bare = u.bare
      ∧ (∀ f ∈ fs, Gone (f.pa / 128) t) ∧ (∀ pa, t.memByte pa = s.memByte pa)
      ∧ ∀ pa, (∀ f ∈ fs, pa / 128 ≠ f.pa / 128) → Apart pa s t := by
  have e := (s.entering (.cinv o)).cinvLines_discard sub stream
  have before := Apart.of_rest h (s.entering_rest (.cinv o))
  obtain ⟨u, t, runs, done, bare, rest⟩ := execCinv_runs found free ready (by rw [e, State.discardLines_bare])
  rw [e] at rest
  refine ⟨u, t, runs, done, bare, fun f hf => (State.discardLines_gone _ hf).of_rest rest, fun pa => ?_, fun pa hp => ?_⟩
  · rw [(SameLines.of_rest rest).memByte, State.discardLines_memByte, (before pa).mem]
  · have k := (before pa).bytes.discardLines_apart hp
    exact ((before pa).trans k).trans (Apart.of_rest k.bytes rest pa)

/-- CINV waits for a pin on a line that it names. -/
theorem execCinv_waits (found : s.cacheLines o (o.sub == 1) (Mask.list (s.acted o.g)) = .ok fs) {f : Leaf} (hf : f ∈ fs)
    (pol : f.pol < 2) (pin : s.pinned (f.pa / 128) = true) (ready : Ready (.cinv o) s) :
    ∃ t, exec (.cinv o) s = .next t ∧ Waits (.cinv o) .stalled s t := by
  have pins : (fs.any fun f => f.pol < 2 && (s.entering (.cinv o)).pinned (f.pa / 128)) = true :=
    List.any_eq_true.mpr ⟨f, hf, by simp [s.entering_pinned, pol, pin]⟩
  rw [← s.entering_namedLines (.cinv o)] at found
  rw [show exec (.cinv o) s = execCinv o s from rfl, execCinv]
  refine seqInstr_stalls ready ?_
  simp only [found, bind, Except.bind, pins, if_true]

end

/-! ### ICINV -/

theorem State.setPc_icache (s : State) (v : Word) : (s.setPc v).icache = s.icache :=
  (congrArg State.icache (s.setPc_frame {} v).rest :)

theorem execIcinv_done (h : Bytes s) {o : Sys} (ready : Ready (.icinv o) s) :
    ∃ u t, exec (.icinv o) s = .next t ∧ Done (.icinv o) {} s.dropBufs u
      ∧ { t with icache := [] }.bare = { u with icache := [] }.bare ∧ (∀ pa, Plain pa s → t.wbByte pa = s.wbByte pa)
      ∧ ∀ e, e ∈ t.icache ↔ e ∈ s.icache
          ∧ ¬(e.ctx = (s.ctx (s.ctxOf s.curCourse)).num ∧ s.icinvCovers o.x.toNat e.core = true) := by
  have begins := s.dropBufs_entering (.icinv o)
  have agent : s.dropBufs.hasAgent = true := (s.dropBufs_hasAgent).trans ready.agent
  have num := s.entering_ctxNum (.icinv o)
  have covers := s.entering_icinvCovers (.icinv o) o.x.toNat
  have caches : (s.entering (.icinv o)).icache = s.icache := (congrArg State.icache (s.entering_rest _) :)
  have before := Apart.of_rest h (s.entering_rest (.icinv o))
  have done := goes_of_work agent (Frame.refl {} (s.dropBufs.entering (.icinv o))) rfl rfl (s.nextPc (.icinv o))
  rw [begins] at done
  rw [show exec (.icinv o) s = execIcinv o s from rfl, execIcinv]
  refine ⟨(s.entering (.icinv o)).dropBufs.setPc (s.nextPc (.icinv o)), _, seqInstr_next ready rfl, ?_, ?_, fun pa p => ?_, fun e => ?_⟩
  · rw [Done, State.nextPc, State.dropBufs_pc ready.agent]
    exact done
  · refine (State.dropBufs_setPc_bare _ _ _).trans (Eq.trans ?_ (State.dropBufs_setPc_bare (s.entering (.icinv o)) _ _).symm)
    rw [State.fenceAt_bare]
  · refine (SameLines.of_rest (State.setPc_frame _ {} _).rest).wbByte pa |>.trans ?_
    have lines := SameLines.of_rest (((s.entering (.icinv o)).fenceAt o.x.toNat).dropBufs_rest)
    exact (lines.wbByte pa).trans ((((before pa).plain p).fenceAt o.x.toNat).1.trans (before pa).wb)
  · have fenced : ((s.entering (.icinv o)).fenceAt o.x.toNat).icache = s.icache := by
      have same : ((s.entering (.icinv o)).fenceAt o.x.toNat).bare.icache = (s.entering (.icinv o)).bare.icache := by
        rw [State.fenceAt_bare]
      exact same.trans caches
    rw [State.setPc_icache]
    dsimp only
    rw [List.mem_filter, fenced, num, covers, Bool.not_eq_true', ← Bool.not_eq_true, Bool.and_eq_true, beq_iff_eq]

/-- Settles O32: of each instruction, its own lemma says what it leaves of one byte of the line that it names, and of any other. -/
theorem cacheOperations : Obligations.CacheOperations := by
  unfold Obligations.CacheOperations
  intro s wf plain merged
  have h := (memoryWf_iff s).mp wf
  have isPlain : ∀ pa, plain pa → Plain pa s := fun pa p => ⟨h, p.1, p.2⟩
  refine ⟨fun o ready => ?_, fun o ready => ?_, fun o fs i found kind ready => ?_, fun o fs found sub one free ready => ?_,
    fun o fs f found hf pol pin ready => execCinv_waits found hf pol pin ready, fun o ready => ?_⟩
  · obtain ⟨u, t, runs, done, bare, bytes⟩ := execFence_done h ready
    refine ⟨u, t, runs, done, bare, fun pa p => ?_⟩
    have k := bytes pa (isPlain pa p)
    simpa only [isFar_iff, Nat.mul_comm 128] using k
  · obtain ⟨t, runs, seen⟩ := execCpf_seen h ready
    exact ⟨_, _, runs, goes_of_work ready.agent (Frame.refl {} _) rfl rfl _, seen.setPc _⟩
  · have work : ∃ u t, exec i s = .next t ∧ Done i {} s u ∧ t.bare = u.bare ∧ WroteBack (decide (i = .cinv o)) fs s t := by
      rcases kind with rfl | ⟨rfl, sub, free⟩
      · exact execCwb_done h found ready
      · have load : (o.sub == 1) = false := by simpa using sub
        rw [← load] at found
        obtain ⟨u, t, runs, done, bare, back⟩ := execCinv_back h found free ready fun _ _ k => sub k.1
        exact ⟨u, t, runs, done, bare, by simpa using back⟩
    obtain ⟨u, t, runs, done, bare, back⟩ := work
    refine ⟨u, t, runs, done, bare, fun f hf pol pa line p => ?_, fun pol pa hp p => (back.others pa hp (isPlain pa p)).readByte pol⟩
    have k := back.named f hf pol pa line (isPlain pa p)
    refine ⟨k.reads, k.mem, fun e => ?_⟩
    have gone := back.gone (by simp [e]) f hf pol
    exact line ▸ ⟨gone.get, gone.stream⟩
  · have write : (o.sub == 1) = true := by simp [sub]
    rw [← write] at found
    by_cases stream : ∃ f ∈ fs, f.pol = 1
    · obtain ⟨g, hg, pol⟩ := stream
      have all : ∀ f ∈ fs, f.pol = 1 := fun f hf => (one f hf g hg).trans pol
      obtain ⟨u, t, runs, done, bare, gone, mem, others⟩ := execCinv_discard h found free ready sub all
      refine ⟨u, t, runs, done, bare, fun f hf pa line p => ⟨fun _ => ?_, fun zero => ?_, fun _ => mem pa⟩,
        fun pol pa hp _ => (others pa hp).readByte pol⟩
      · exact line ▸ ⟨(gone f hf).get, (gone f hf).stream⟩
      · exact absurd (zero.symm.trans (all f hf)) (by decide)
    · have other : ∀ f ∈ fs, f.pol ≠ 1 := fun f hf k => stream ⟨f, hf, k⟩
      obtain ⟨u, t, runs, done, bare, back⟩ := execCinv_back h found free ready fun f hf k => other f hf k.2
      refine ⟨u, t, runs, done, bare, fun f hf pa line p => ⟨fun k => absurd k (other f hf), fun zero => ?_, fun k => ?_⟩,
        fun pol pa hp p => (back.others pa (fun f hf _ => hp f hf) (isPlain pa p)).readByte pol⟩
      · exact (back.named f hf (by omega) pa line (isPlain pa p)).mem
      · have far := k.resolve_left (other f hf)
        exact (back.others pa (fun g hg pol => absurd (one g hg f hf) (by omega)) (isPlain pa p)).mem
  · obtain ⟨u, t, runs, done, bare, bytes, caches⟩ := execIcinv_done h ready
    exact ⟨u, t, runs, done, bare, fun pa p => bytes pa (isPlain pa p), caches⟩

end Sys2Proof.Machine
end


section
/-!
SUPPORT. Laws of slices and of splits that join: what lanes a set of slices holds, and that a split that joins or is added
loses no other.
-/

namespace Sys2Proof.Machine

/-! ### Lanes of slices (R130) -/

theorem Mask.has_and (m n : Mask) (l : Nat) : (m &&& n).has l = (m.has l && n.has l) := BitVec.getLsbD_and

theorem Mask.has_or (m n : Mask) (l : Nat) : (m ||| n).has l = (m.has l || n.has l) := BitVec.getLsbD_or

theorem Mask.has_not (m : Mask) {l : Nat} (h : l < 96) : (~~~m).has l = !m.has l := by
  simp [Mask.has, h]

theorem Mask.ext_has {m n : Mask} (h : ∀ l < 96, m.has l = n.has l) : m = n := BitVec.eq_of_getLsbD_eq fun l hl => h l hl

theorem Mask.and_eq_of_sub {m n : Mask} (h : m &&& ~~~n = 0) : m &&& n = m := by
  refine Mask.ext_has fun l hl => ?_
  have out := congrArg (Mask.has · l) h
  simp only [Mask.has_and, Mask.has_not _ hl] at out ⊢
  simpa [Mask.has] using out

theorem Mask.ne_zero_of_has {m : Mask} {l : Nat} (h : m.has l = true) : m ≠ 0 := by
  rintro rfl
  simp [Mask.has] at h

theorem sliceMask_has (j : Nat) {l : Nat} (h : l < 96) : (sliceMask j).has l = decide (l / 4 = j) := by
  have low : (0xF : BitVec 96) = (BitVec.allOnes 4).setWidth 96 := by decide
  simp only [sliceMask, Mask.has, low, BitVec.getLsbD_shiftLeft, BitVec.getLsbD_setWidth, BitVec.getLsbD_allOnes, h, decide_true,
    Bool.true_and]
  rw [Bool.eq_iff_iff]
  simp only [Bool.and_eq_true, Bool.not_eq_true', decide_eq_false_iff_not, decide_eq_true_eq]
  omega

theorem sliceLanes_has (js : List Nat) {l : Nat} (h : l < 96) : (sliceLanes js).has l = decide (l / 4 ∈ js) := by
  have split := getLsbD_foldl_or js sliceMask 0 l
  have slice (j : Nat) : (sliceMask j).getLsbD l = decide (l / 4 = j) := sliceMask_has j h
  simp only [slice, BitVec.ofNat_eq_ofNat, BitVec.getLsbD_zero, Bool.false_or] at split
  rw [sliceLanes, Mask.has, BitVec.ofNat_eq_ofNat, split, Bool.eq_iff_iff]
  simp

/-- A lane of a set shows in its slice. -/
theorem and_sliceMask_ne_zero {m : Mask} {l : Nat} (h : l < 96) (hm : m.has l = true) : m &&& sliceMask (l / 4) ≠ 0 :=
  Mask.ne_zero_of_has (l := l) (by rw [Mask.has_and, hm, sliceMask_has _ h, decide_eq_true rfl]; rfl)

theorem mem_slicesOf {m : Mask} {l : Nat} (h : l < 96) (hm : m.has l = true) : l / 4 ∈ slicesOf m := by
  simp only [slicesOf, List.mem_filter, List.mem_range, bne_iff_ne]
  exact ⟨by omega, and_sliceMask_ne_zero h hm⟩

/-! ### A split joins one that stands at its PC, or is added (R130, R132) -/

/-- What `State.joinSplit` does to its course, at step `now`. -/
def Course.join (now : Nat) (pc : Word) (m a : Mask) (h : Bool) (x : Course) : Course :=
  match x.splits.findIdx? fun y => y.stands pc h with
  | some i => { x with splits := x.splits.modify i fun y => { y with m := y.m ||| m, a := y.a ||| a } }
  | none => x.addSplit { pc := pc, m := m, a := a, last := now, handler := h }

theorem State.joinSplit_eq (s : State) (c : Nat) (pc : Word) (m a : Mask) (h : Bool) :
    s.joinSplit c pc m a h = s.modCourse c (Course.join s.tick pc m a h) := rfl

theorem Split.stands_iff {y : Split} {pc : Word} {h : Bool} :
    y.stands pc h = true ↔ y.m ≠ 0 ∧ (y.wait = .ready ∨ y.wait = .stalled) ∧ y.pc = pc ∧ y.handler = h := by
  simp [Split.stands, and_assoc]

/-- A split is added and every other one that has members stays in its place. -/
theorem Course.addSplit_splits (x : Course) (y : Split) :
    y ∈ (x.addSplit y).splits
      ∧ ∀ (i : Nat) (z : Split), x.splits[i]? = some z → z.m ≠ 0 → (x.addSplit y).splits[i]? = some z := by
  unfold Course.addSplit
  split
  case h_1 j hj =>
    obtain ⟨hj, free, -⟩ := List.findIdx?_eq_some_iff_getElem.mp hj
    refine ⟨List.mem_set hj y, fun i z hz hm => ?_⟩
    have other : j ≠ i := by
      rintro rfl
      rw [List.getElem?_eq_getElem hj, Option.some.injEq] at hz
      exact hm (by simpa [hz] using free)
    simpa [List.getElem?_set_ne other] using hz
  case h_2 =>
    refine ⟨by simp, fun i z hz _ => ?_⟩
    exact (List.getElem?_append_left (List.getElem?_eq_some_iff.mp hz).1).trans hz

/-- A course without its splits: what no join of splits changes. -/
def Course.unsplit (x : Course) : Course := { x with splits := [] }

@[simp] theorem Course.addSplit_unsplit (x : Course) (y : Split) : (x.addSplit y).unsplit = x.unsplit := by
  unfold Course.addSplit
  split <;> rfl

section
variable (now : Nat) (pc : Word) (m a : Mask) (h : Bool) (x : Course)

@[simp] theorem Course.join_unsplit : (x.join now pc m a h).unsplit = x.unsplit := by
  unfold Course.join
  split
  · rfl
  · exact x.addSplit_unsplit _

/-- The lanes that join are active in one split at the PC, which has their members too. -/
theorem Course.join_active :
    ∃ (i : Nat) (y : Split), (x.join now pc m a h).splits[i]? = some y ∧ y.pc = pc ∧ (m ≠ 0 → y.m ≠ 0)
      ∧ ∀ l, a.has l = true → y.a.has l = true := by
  unfold Course.join
  split
  case h_1 i hi =>
    obtain ⟨hi, stands, -⟩ := List.findIdx?_eq_some_iff_getElem.mp hi
    obtain ⟨members, -, at_pc, -⟩ := Split.stands_iff.mp stands
    refine ⟨i, { x.splits[i] with m := x.splits[i].m ||| m, a := x.splits[i].a ||| a }, by simp [hi], at_pc, fun _ empty => ?_,
      fun l hl => ?_⟩
    · exact members (BitVec.or_eq_zero_iff.mp empty).1
    · rw [Mask.has_or, hl, Bool.or_true]
  case h_2 =>
    obtain ⟨i, at_i⟩ := List.mem_iff_getElem?.mp (x.addSplit_splits { pc := pc, m := m, a := a, last := now, handler := h }).1
    exact ⟨i, _, at_i, rfl, id, fun l hl => hl⟩

variable {x}

/-- A split that has members and stands elsewhere stays as it is. -/
theorem Course.join_keeps {i : Nat} {y : Split} (hy : x.splits[i]? = some y) (hm : y.m ≠ 0) (away : y.pc ≠ pc) :
    (x.join now pc m a h).splits[i]? = some y := by
  unfold Course.join
  split
  case h_1 j hj =>
    obtain ⟨hj, stands, -⟩ := List.findIdx?_eq_some_iff_getElem.mp hj
    have other : j ≠ i := by
      rintro rfl
      rw [List.getElem?_eq_getElem hj, Option.some.injEq] at hy
      exact away (hy ▸ (Split.stands_iff.mp stands).2.2.1)
    exact (List.getElem?_modify_ne _ _ other).trans hy
  case h_2 => exact (x.addSplit_splits _).2 i y hy hm

end

/-! ### The division by slice (R130) -/

/-- Slices with lanes that take the branch, `t`, and lanes that do not, `f`. -/
def tornSlices (t f : Mask) : List Nat := (slicesOf t).filter fun j => f &&& sliceMask j != 0
/-- The lanes of slices that go to the target whole. -/
def wholeLanes (t f : Mask) : Mask := sliceLanes ((slicesOf t).filter fun j => f &&& sliceMask j == 0)
/-- The lanes of `m` that stay with those that do not take the branch. -/
def stayLanes (m t f : Mask) : Mask := m &&& ~~~(t &&& sliceLanes (tornSlices t f)) &&& ~~~wholeLanes t f

section
variable {t f : Mask} {l : Nat} (h : l < 96)
include h

theorem torn_or_whole (ht : t.has l = true) : l / 4 ∈ tornSlices t f ∨ (wholeLanes t f).has l = true := by
  have slice := mem_slicesOf h ht
  by_cases c : f &&& sliceMask (l / 4) = 0
  · exact .inr (by rw [wholeLanes, sliceLanes_has _ h]; simp [slice, c])
  · exact .inl (List.mem_filter.mpr ⟨slice, bne_iff_ne.mpr c⟩)

theorem wholeLanes_has_passed (hf : f.has l = true) : (wholeLanes t f).has l = false := by
  rw [wholeLanes, sliceLanes_has _ h, decide_eq_false_iff_not, List.mem_filter, beq_iff_eq]
  exact fun whole => and_sliceMask_ne_zero h hf whole.2

end

/-- Of the active lanes, those that do not take the branch stay. -/
theorem stayLanes_active (a t : Mask) : stayLanes a t (a &&& ~~~t) = a &&& ~~~t := by
  refine Mask.ext_has fun l h => ?_
  simp only [stayLanes, Mask.has_and, Mask.has_not _ h]
  cases ht : t.has l with
  | false =>
    cases ha : a.has l with
    | false => rfl
    | true =>
      have passed : (a &&& ~~~t).has l = true := by rw [Mask.has_and, Mask.has_not _ h, ha, ht]; rfl
      rw [wholeLanes_has_passed h passed]
      rfl
  | true =>
    rcases torn_or_whole (f := a &&& ~~~t) h ht with torn | whole
    · simp [sliceLanes_has _ h, torn]
    · simp [whole]

/-- Where an active lane stays, a member does. -/
theorem stayLanes_ne_zero {m a t f : Mask} (sub : a &&& ~~~m = 0) (h : stayLanes a t f ≠ 0) : stayLanes m t f ≠ 0 := by
  refine fun empty => h ?_
  unfold stayLanes at empty ⊢
  rw [← Mask.and_eq_of_sub sub, BitVec.and_assoc, BitVec.and_assoc, ← BitVec.and_assoc m, empty]
  exact BitVec.and_zero

/-- Lanes that take the branch in a torn slice go on its re-entry stack. -/
def Course.stack (tok : Nat) (t f : Mask) (target : Word) (x : Course) : Course :=
  { x with reentry := ((tornSlices t f).map fun j => ⟨j, target, t &&& sliceMask j, tok⟩) ++ x.reentry }

/-- Members `m`, active `a`, of split `k` go on at `next`: they join a split that stands there, or remain split `k`. -/
def Course.pass (now k : Nat) (next : Word) (m a : Mask) (h : Bool) (join : Bool) (x : Course) : Course :=
  if join then
    Course.join now next m a h { x with splits := x.splits.modify k fun y => { y with m := 0, a := 0, handler := false } }
  else { x with splits := x.splits.modify k fun y => { y with m := m, a := a, pc := next } }

/-- Members `m`, active `a`, leave for the target, if slices do whole. -/
def Course.depart (now : Nat) (target : Word) (whole m a : Mask) (h : Bool) (x : Course) : Course :=
  if whole = 0 then x else x.join now target m a h

/-- Another split than `k` stands at `pc`, as split `k` could join it. -/
def Course.othersStand (x : Course) (k : Nat) (pc : Word) : Bool :=
  let sp := x.splits.getD k default
  (x.splits.set k { sp with m := 0 }).any fun y => y.stands pc sp.handler

/-- What a division by slice of course `x` does to it, at step `now`. -/
def Course.divide (x : Course) (now k tok : Nat) (t f : Mask) (target next : Word) : Course → Course :=
  let sp := x.splits.getD k default
  Course.depart now target (wholeLanes t f) (sp.m &&& wholeLanes t f) (t &&& wholeLanes t f) sp.handler
    ∘ Course.pass now k next (stayLanes sp.m t f) (stayLanes sp.a t f) sp.handler (x.othersStand k next)
    ∘ Course.stack tok t f target

section
variable {s : State} {now : Nat} (tick : s.tick = now)
include tick

theorem State.modCourse_pass (c k : Nat) (next : Word) (m a : Mask) (h join : Bool) :
    s.modCourse c (Course.pass now k next m a h join) =
      if join then (s.modSplit c k fun y => { y with m := 0, a := 0, handler := false }).joinSplit c next m a h
      else s.modSplit c k fun y => { y with m := m, a := a, pc := next } := by
  subst tick
  cases join with
  | true =>
    rw [State.joinSplit_eq, State.modSplit, State.modCourse_modCourse]
    rfl
  | false => rfl

theorem State.modCourse_depart (c : Nat) (target : Word) (whole m a : Mask) (h : Bool) :
    s.modCourse c (Course.depart now target whole m a h) = if whole = 0 then s else s.joinSplit c target m a h := by
  subst tick
  split
  case isTrue stay =>
    have same : Course.depart s.tick target whole m a h = id := funext fun x => if_pos stay
    rw [same, State.modCourse, List.modify_id]
  case isFalse leave =>
    have joins : Course.depart s.tick target whole m a h = Course.join s.tick target m a h := funext fun x => if_neg leave
    rw [joins, State.joinSplit_eq]

end

/-- A division by slice finds no room, or does all it does to the course. -/
theorem State.divideBySlice_cases (s : State) (c k tok : Nat) (t f : Mask) {target next : Word} (away : target ≠ next) :
    s.divideBySlice c k tok t f target next = none
      ∨ s.divideBySlice c k tok t f target next = some (s.modCourse c ((s.course c).divide s.tick k tok t f target next)) := by
  unfold State.divideBySlice
  dsimp only
  refine (ite_eq_or_eq ..).imp id (·.trans (congrArg some ?_))
  rw [Course.divide, ← State.modCourse_modCourse, ← State.modCourse_modCourse, State.modCourse_depart, State.modCourse_pass]
  · simp only [away, or_false, if_false]
    rfl
  · rfl
  · rfl

/-! ### What a division by slice leaves -/

section
variable {now k : Nat} {next target : Word} {whole m a : Mask} {h join : Bool} {x : Course}

@[simp] theorem Course.pass_unsplit : (x.pass now k next m a h join).unsplit = x.unsplit := by
  cases join with
  | true => exact Course.join_unsplit ..
  | false => rfl

@[simp] theorem Course.depart_unsplit : (x.depart now target whole m a h).unsplit = x.unsplit := by
  unfold Course.depart
  split
  · rfl
  · exact Course.join_unsplit ..

theorem Course.pass_alone (hk : k < x.splits.length) :
    (x.pass now k next m a h false).splits[k]? = some { x.splits.getD k default with m := m, a := a, pc := next } := by
  simp [Course.pass, List.getD_eq_getElem?_getD, hk]

/-- The lanes that stay are active in a split at `next`, which has members. -/
theorem Course.pass_active (hk : k < x.splits.length) (hm : m ≠ 0) :
    ∃ (i : Nat) (y : Split), (x.pass now k next m a h join).splits[i]? = some y ∧ y.pc = next ∧ y.m ≠ 0
      ∧ ∀ l, a.has l = true → y.a.has l = true := by
  cases join with
  | true =>
    obtain ⟨i, y, at_i, pc, members, active⟩ := Course.join_active now next m a h
      { x with splits := x.splits.modify k fun y => { y with m := 0, a := 0, handler := false } }
    exact ⟨i, y, at_i, pc, members hm, active⟩
  | false => exact ⟨k, _, Course.pass_alone hk, rfl, hm, fun _ => id⟩

/-- Where no other split stands at the PC, the split that divides joins none. -/
theorem Course.othersStand_false (alone : ∀ j, j ≠ k → (x.splits.getD j default).pc ≠ next) :
    x.othersStand k next = false := by
  refine List.any_eq_false.mpr fun y hy stands => ?_
  obtain ⟨j, hj, rfl⟩ := List.getElem_of_mem hy
  obtain ⟨members, -, at_next, -⟩ := Split.stands_iff.mp stands
  by_cases e : j = k
  · subst e
    simp at members
  · refine alone j e ?_
    rw [List.getElem_set_ne (Ne.symm e)] at at_next
    rw [← at_next, List.getD_eq_getElem?_getD, List.getElem?_eq_getElem (by simpa using hj), Option.getD_some]

theorem Course.depart_keeps {i : Nat} {y : Split} (hy : x.splits[i]? = some y) (hm : y.m ≠ 0) (away : y.pc ≠ target) :
    (x.depart now target whole m a h).splits[i]? = some y := by
  unfold Course.depart
  split
  · exact hy
  · exact Course.join_keeps now target m a h hy hm away

/-- The lanes that leave are active in a split at the target. -/
theorem Course.depart_active {l : Nat} (leaves : whole ≠ 0) (active : a.has l = true) :
    ∃ y ∈ (x.depart now target whole m a h).splits, y.pc = target ∧ y.a.has l = true := by
  rw [Course.depart, if_neg leaves]
  obtain ⟨i, y, at_i, pc, -, joined⟩ := x.join_active now target m a h
  exact ⟨y, List.mem_of_getElem? at_i, pc, joined l active⟩

end

/-- The course `y` is `x` after BRV divided its split `k`, active `a`, of which `t` take the branch: no lane is lost. -/
structure Course.Divided (x y : Course) (k n : Nat) (a t : Mask) (target next : Word) : Prop where
  regs : y.regs = x.regs
  isOpen : (y.token n).isOpen = true
  opened : (y.token n).opened = a
  own : (∀ j, j ≠ k → (x.splits.getD j default).pc ≠ next) →
    (y.splits.getD k default).pc = next ∧ (y.splits.getD k default).a = a &&& ~~~t
  passed : ∀ l < 96, (a &&& ~~~t).has l = true → ∃ z ∈ y.splits, z.pc = next ∧ z.a.has l = true
  taken : ∀ l < 96, t.has l = true →
    (∃ z ∈ y.splits, z.pc = target ∧ z.a.has l = true)
      ∨ (∃ r ∈ y.reentry, r.pc = target ∧ r.tok = n ∧ r.lanes.has l = true)
      ∨ (y.token n).deferred = some (t, target)

/-- A lane that takes the branch in a torn slice stands on its re-entry stack. -/
theorem Course.stack_reentry {x : Course} {tok l : Nat} {t f : Mask} {target : Word} (h : l < 96) (ht : t.has l = true)
    (torn : l / 4 ∈ tornSlices t f) :
    ∃ r ∈ (x.stack tok t f target).reentry, r.pc = target ∧ r.tok = tok ∧ r.lanes.has l = true := by
  refine ⟨⟨l / 4, target, t &&& sliceMask (l / 4), tok⟩, ?_, rfl, rfl, ?_⟩
  · exact List.mem_append_left _ (List.mem_map.mpr ⟨_, torn, rfl⟩)
  · rw [Mask.has_and, ht, sliceMask_has _ h, decide_eq_true rfl]
    rfl

/-- A division by slice loses no lane (R130). -/
theorem Course.divide_divided {x : Course} {k n : Nat} {a t : Mask} {target next : Word} (now : Nat) (hk : k < x.splits.length)
    (isOpen : (x.token n).isOpen = true) (opened : (x.token n).opened = a) (away : target ≠ next)
    (active : (x.splits.getD k default).a = a) (members : a &&& ~~~(x.splits.getD k default).m = 0) (passes : a &&& ~~~t ≠ 0) :
    x.Divided (x.divide now k n t (a &&& ~~~t) target next x) k n a t target next := by
  have stays : stayLanes a t (a &&& ~~~t) = a &&& ~~~t := stayLanes_active a t
  have stayed : stayLanes (x.splits.getD k default).m t (a &&& ~~~t) ≠ 0 := stayLanes_ne_zero members (stays.symm ▸ passes)
  have same : (x.divide now k n t (a &&& ~~~t) target next x).unsplit = (x.stack n t (a &&& ~~~t) target).unsplit := by
    simp [Course.divide]
  have token : (x.divide now k n t (a &&& ~~~t) target next x).token n = x.token n := (congrArg (·.token n) same :)
  have reentry : (x.divide now k n t (a &&& ~~~t) target next x).reentry = (x.stack n t (a &&& ~~~t) target).reentry :=
    (congrArg Course.reentry same :)
  refine ⟨(congrArg Course.regs same :), token ▸ isOpen, token ▸ opened, fun alone => ?_,
    fun l hl passed => ?_, fun l hl taken => ?_⟩
  · have at_k : (x.divide now k n t (a &&& ~~~t) target next x).splits[k]? = some { x.splits.getD k default with
        m := stayLanes (x.splits.getD k default).m t (a &&& ~~~t), a := a &&& ~~~t, pc := next } := by
      simp only [Course.divide, Function.comp_apply, active, stays, Course.othersStand_false alone]
      exact Course.depart_keeps (Course.pass_alone (x := x.stack n t (a &&& ~~~t) target) hk) stayed away.symm
    rw [List.getD_eq_getElem?_getD, at_k]
    exact ⟨rfl, rfl⟩
  · simp only [Course.divide, Function.comp_apply, active, stays]
    obtain ⟨i, z, at_i, pc, hm, active⟩ := Course.pass_active (x := x.stack n t (a &&& ~~~t) target) hk stayed
    exact ⟨z, List.mem_of_getElem? (Course.depart_keeps at_i hm (pc ▸ away.symm)), pc, active l passed⟩
  · rcases torn_or_whole (f := a &&& ~~~t) hl taken with torn | whole
    · exact .inr (.inl (reentry ▸ Course.stack_reentry hl taken torn))
    · exact .inl (Course.depart_active (Mask.ne_zero_of_has whole) (by rw [Mask.has_and, taken, whole]; rfl))

end Sys2Proof.Machine
end


section
/-!
SUPPORT. Laws of the hand-over descriptor and of lanes that are ejected: what each check answers, and what each lane takes along.
-/

namespace Sys2Proof.Machine

/-! ### The hand-over descriptor (R109, R137, R164) -/

/-- Byte `i` of a descriptor's head, as a number. -/
def handByte (h : List Byte) (i : Nat) : Nat := (h.getD i 0).toNat
/-- The descriptor is malformed for token `tok`. -/
def handBad (h : List Byte) (tok : Nat) : Prop :=
  48 < handByte h 5 ∨ 48 < handByte h 6 ∨ handByte h 4 ≠ 0 ∨ handByte h 7 ≠ tok
/-- The registers that the list `l` behind the head `h` names. -/
def handRegs (h l : List Byte) : List Nat :=
  (List.range (handByte h 5 + handByte h 6)).map fun i => (l.getD (2 * i) 0).toNat + 256 * (l.getD (2 * i + 1) 0).toNat
/-- The descriptor of head `h` and list `l`. -/
def handOf (h l : List Byte) : HandOver :=
  ⟨(handRegs h l).take (handByte h 5), (handRegs h l).drop (handByte h 5), leNat (h.drop 8), BitVec.ofNat 32 (leNat (h.take 4))⟩

theorem length_handOf_ins (h l : List Byte) : (handOf h l).ins.length = handByte h 5 := by
  simp [handOf, handRegs]

section
variable {s : State} {a low : Word} {tok allot : Nat}

theorem State.readHandOver_unreadable {e : Exn} (he : s.readPool a low 0 16 = .error e) :
    s.readHandOver a tok allot low = .error e := by
  rw [State.readHandOver, he]
  rfl

variable {h : List Byte} (head : s.readPool a low 0 16 = .ok h)
include head

theorem State.readHandOver_malformed (bad : handBad h tok) : s.readHandOver a tok allot low = .error (trapC tIllegalOp a low) := by
  rw [State.readHandOver, head]
  exact if_pos bad

variable (good : ¬handBad h tok) {l : List Byte} (list : s.readPool a low 16 (2 * (handByte h 5 + handByte h 6)) = .ok l)
include good list

theorem State.readHandOver_bounds (out : ∃ r ∈ handRegs h l, allot ≤ r) :
    s.readHandOver a tok allot low = .error (trapC tRegBounds a low) := by
  rw [State.readHandOver, head]
  refine (if_neg good).trans ?_
  have any : (handRegs h l).any (fun r => decide (allot ≤ r)) = true := by simpa using out
  simp only [handByte] at list
  rw [list]
  exact if_pos any

theorem State.readHandOver_ok (inside : ∀ r ∈ handRegs h l, r < allot) : s.readHandOver a tok allot low = .ok (handOf h l) := by
  rw [State.readHandOver, head]
  refine (if_neg good).trans ?_
  have inside : ¬(handRegs h l).any (fun r => decide (allot ≤ r)) = true := by simpa using inside
  simp only [handByte] at list
  rw [list]
  exact if_neg inside

end

/-! ### What a lane takes along (R137) -/

/-- Writes that each depend on their key alone leave at a key what its write gives. -/
theorem Cells.get_foldl_keyed [DecidableEq α] (d : α) (key : β → Nat) (g : Nat → α) {l : List β} {b : β} (hb : b ∈ l)
    (m : Cells α) :
    Cells.get d (l.foldl (fun m x => Cells.set d m (key x) (g (key x))) m) (key b) = g (key b) := by
  refine foldl_reaches (Q := fun _ => True) (P := fun m => Cells.get d m (key b) = g (key b)) _ hb (fun _ _ => id)
    (fun m x hm => ?_) (fun m _ => Cells.get_set_self ..) trivial
  rw [Cells.get_set]
  split
  case isTrue e => rw [e]
  case isFalse => exact hm

theorem Cells.get_filter (d : α) (keep : Nat → Bool) (m : Cells α) (k : Nat) :
    Cells.get d (m.filter fun e => keep e.1) k = if keep k then Cells.get d m k else d := by
  induction m with
  | nil => simp
  | cons e m ih =>
    obtain ⟨j, v⟩ := e
    by_cases e : j = k
    · subst e
      cases hj : keep j with
      | true => simp [hj, Cells.get]
      | false => simp [hj, ih]
    · cases hj : keep j with
      | true => simp [hj, Cells.get, e, ih]
      | false => simp [hj, Cells.get, e, ih]

/-! ### Lanes that are added one by one -/

/-- The state with lanes `ls` behind the others. -/
def State.addLanes (s : State) (ls : List Lane) : State := { s with lanes := s.lanes ++ ls }

/-- Lanes that are added one by one, each made from the state so far, stand behind the others and change nothing else. -/
theorem foldl_addLane (mk : State → β → Lane) (l : List β) (s : State) :
    ∃ ls, l.foldl (fun (s : State) e => { s with lanes := s.lanes ++ [mk s e] }) s = s.addLanes ls
      ∧ ls.length = l.length
      ∧ ∀ (i : Nat) (e : β), l[i]? = some e → ∃ before, ls[i]? = some (mk { s with lanes := before } e) := by
  induction l generalizing s with
  | nil => exact ⟨[], by simp [State.addLanes], rfl, fun i e h => by simp at h⟩
  | cons b l ih =>
    obtain ⟨ls, fold, len, made⟩ := ih { s with lanes := s.lanes ++ [mk s b] }
    refine ⟨mk s b :: ls, ?_, by simp [len], fun i e h => ?_⟩
    · rw [List.foldl_cons, fold, State.addLanes, List.append_assoc]
      rfl
    · cases i with
      | zero =>
        obtain rfl : b = e := by simpa using h
        exact ⟨s.lanes, rfl⟩
      | succ i => exact made i e h

/-- The quoin core with the most free contexts is one of the cluster's. -/
theorem State.quoinBest_cluster (s : State) (cluster : Nat) : s.quoinBest cluster / 24 = cluster := by
  unfold State.quoinBest
  refine List.foldlRecOn (motive := fun b => b / 24 = cluster) _ _ ?_ fun b hb i hi => ?_
  · simp [Config.quoinCores]
  · have hi : i < 24 := List.mem_range.mp hi
    dsimp only
    split
    · simp only [Config.quoinCores]
      omega
    · exact hb

/-- Lane `q` is lane `m` of course `c`, handed over on a core at `pc` under token `n` with what the descriptor lists of the course's
registers `x`; it starts at `start`. -/
structure HandedOver (core : Nat) (x : Regs) (c n m : Nat) (pc : Word) (d : HandOver) (start : Nat) (q : Lane) : Prop where
  course : q.course = c
  lane : q.lane = m
  tok : q.tok = n
  pc : q.pc = pc
  outs : q.outs = d.outs
  quoin : q.quoin / 24 = core / 96
  st : q.st = .starting start
  ins : ∀ r ∈ d.ins, Cells.get 0 q.regs.v (96 * r + m) = Cells.get 0 x.v (96 * r + m)
  scalars : ∀ r, Cells.get 0 q.regs.s r = if d.smask.testBit r then Cells.get 0 x.s r else 0
  preds : ∀ p < 16, Cells.get 0 q.regs.p p = Cells.get 0 x.p p &&& Mask.one m
  groups : q.regs.g = x.g

/-- The scalars that a descriptor lists. -/
def HandOver.scalars (d : HandOver) : List Nat := (List.range 64).filter fun i => d.smask.testBit i

/-- The cycles that the hand-over of one lane takes (R137). -/
def HandOver.cycles (d : HandOver) : Nat := (d.ins.length + d.scalars.length + 3) / 4

/-- The lanes of a set are added in ascending order, each with its hand-over, and the token learns the REGANG of the descriptor. -/
theorem State.ejectLanes_added (s : State) (c n : Nat) (brv pc : Word) (d : HandOver) (minority : Mask) :
    ∃ ls, s.ejectLanes c n brv pc d minority = (s.addLanes ls).modToken c n
        (fun k => { k with endPc := brv + (d.endOff.signExtend 64 <<< 2) })
      ∧ ls.length = maskCount minority
      ∧ ∀ (i m : Nat), (Mask.list minority)[i]? = some m →
        ∃ q, ls[i]? = some q ∧ HandedOver (s.coreOf c) (s.course c).regs c n m pc d (s.clock + 24 + (i + 1) * d.cycles) q := by
  unfold State.ejectLanes
  obtain ⟨ls, fold, len, made⟩ := foldl_addLane (fun (s : State) (e : Nat × Nat) =>
    { course := c, lane := e.1, quoin := s.quoinBest (s.coreOf c / 96), regs := s.handLane c e.1 d
      vsys := (List.range 18).map fun i => BitVec.ofNat 32 (s.sysValue c e.1 i)
      sight := { (s.course c).sight with stale := [] }
      sregs := copiedRegs.foldl (fun m n => Cells.set 0 m n (s.stateReg c n)) []
      pc := pc, tok := n, endPc := brv + (d.endOff.signExtend 64 <<< 2), outs := d.outs
      st := .starting (s.clock + 24 + (e.2 + 1) * d.cycles) }) (Mask.list minority).zipIdx s
  refine ⟨ls, congrArg (fun t : State => t.modToken c n _) fold, len.trans List.length_zipIdx, fun i m hm => ?_⟩
  obtain ⟨before, at_i⟩ := made i (m, i) (by simp [List.getElem?_zipIdx, hm])
  refine ⟨_, at_i, rfl, rfl, rfl, rfl, rfl, State.quoinBest_cluster .., rfl, fun r hr => ?_, fun r => ?_, fun p hp => ?_, rfl⟩
  · exact Cells.get_foldl_keyed 0 (fun r => 96 * r + m) (Cells.get 0 (s.course c).regs.v) hr []
  · exact Cells.get_filter 0 d.smask.testBit ..
  · exact Cells.get_foldl_keyed 0 id (fun p => Cells.get 0 (s.course c).regs.p p &&& Mask.one m) (List.mem_range.mpr hp) []

end Sys2Proof.Machine
end


section
/-!
The statement of BRV whose lanes go both ways.
-/

namespace Sys2Proof.Machine

/-! ### The agent begins BRV -/

theorem State.entering_votes (s : State) (i : Instr) (o : Br) : (s.entering i).votes o = s.votes o := by
  simp only [State.votes, s.entering_active, s.entering_preg]

theorem State.entering_rowBusy (s : State) (i : Instr) (c : Nat) : (s.entering i).rowBusy c = s.rowBusy c := by
  have ops : (s.entering i).ops = s.ops := (congrArg State.ops (s.entering_rest i) :)
  funext r
  simp only [State.rowBusy, ops]

theorem State.entering_damaged (s : State) (i : Instr) (u : Uses) (m : Mask) : (s.entering i).damaged u m = s.damaged u m := by
  have clock : (s.entering i).clock = s.clock := (congrArg State.clock (s.entering_rest i) :)
  simp only [State.damaged, (s.entering_same i).1, clock, s.entering_active]

theorem State.entering_handDamaged (s : State) (i : Instr) (d : HandOver) (m : Mask) :
    (s.entering i).handDamaged d m = s.handDamaged d m := by
  obtain ⟨-, cur, -⟩ := s.entering_same i
  simp only [State.handDamaged, s.entering_rowBusy, cur, s.entering_damaged]

theorem State.entering_readPool (s : State) (i : Instr) (a low : Word) (j n : Nat) :
    (s.entering i).readPool a low j n = s.readPool a low j n := by
  obtain ⟨-, cur, -⟩ := s.entering_same i
  have rest := eq_withAgents (s.entering_rest i)
  have gen (x l : Nat) (va : Word) (q : Need) : (s.entering i).resolveGen x l va q = s.resolveGen x l va q := by
    have translate : (s.entering i).translate x va = s.translate x va := by rw [rest, State.translate_withAgents]
    simp only [State.resolveGen, translate, s.entering_walkChecked]
  have up : (s.entering i).poolUp = s.poolUp := (congrArg State.poolUp (s.entering_rest i) :)
  have poisoned (pa : Nat) : (s.entering i).poisoned pa = s.poisoned pa := by rw [rest]; rfl
  induction n generalizing j with
  | zero => rfl
  | succ n ih =>
    simp only [State.readPool, ih, gen, cur, s.entering_ctxOf, s.entering_launchIx, up, poisoned, (s.entering_frame i).mem]

theorem State.entering_readHandOver (s : State) (i : Instr) (a low : Word) (tok allot : Nat) :
    (s.entering i).readHandOver a tok allot low = s.readHandOver a tok allot low := by
  simp only [State.readHandOver, s.entering_readPool]

theorem State.entering_quoinFree {s : State} {c k : Nat} (hc : s.cur = .course c k) (i : Instr) (cluster : Nat) :
    (s.entering i).quoinFree cluster = s.quoinFree cluster := by
  have block (d : Nat) : ((s.entering i).course d).block = (s.course d).block :=
    (congrArg Course.block ((s.entering_frame i).course d) :)
  have blocks : (s.entering i).blocks = s.blocks := (congrArg State.blocks (s.entering_rest i) :)
  have lanes : (s.entering i).lanes = s.lanes := by rw [State.entering_course hc, State.modCourse_lanes]
  simp only [State.quoinFree, State.laneHolds, State.block, lanes, block, blocks]

/-! ### The cases of BRV (R129) -/

/-- The active lanes that do not take the branch (F of R129). -/
def State.passing (s : State) (o : Br) : Mask := s.active &&& ~~~s.votes o
/-- The smaller of the sets, those that take the branch on a tie (R136). -/
def State.minority (s : State) (o : Br) : Mask :=
  if maskCount (s.passing o) < maskCount (s.votes o) then s.passing o else s.votes o
/-- Where the larger set goes on, and where the smaller one does. -/
def State.majorPc (s : State) (o : Br) (pc next : Word) : Word :=
  if maskCount (s.passing o) < maskCount (s.votes o) then brTarget o pc else next
def State.minorPc (s : State) (o : Br) (pc next : Word) : Word :=
  if maskCount (s.passing o) < maskCount (s.votes o) then next else brTarget o pc
/-- Lanes `m` of course `c` are ejected (R136). -/
def State.ejects (s : State) (c : Nat) (m : Mask) : Prop :=
  (s.course c).trap.level = false ∧ maskCount m ≤ (s.course c).ejthr ∧ maskCount m ≤ s.quoinFree (s.coreOf c / 96)
/-- Token `n` of course `c` is opened with the active set. -/
def State.openToken (s : State) (c n : Nat) : State :=
  s.modToken c n fun _ => { isOpen := true, opened := s.active, atTrap := (s.course c).trap.level }
/-- The lanes that take the branch are deferred with token `n` (R131). -/
def State.defer (s : State) (o : Br) (c k : Nat) (pc next : Word) : State :=
  (((s.openToken c o.tok.toNat).modToken c o.tok.toNat fun y => { y with deferred := some (s.votes o, brTarget o pc) }).modSplit c k
    fun y => { y with a := s.passing o }).setPc next
/-- Split `k` is divided by slice, or its lanes that take the branch are deferred. -/
def State.divided (s : State) (o : Br) (c k : Nat) (pc next : Word) : State :=
  match (s.openToken c o.tok.toNat).divideBySlice c k o.tok.toNat (s.votes o) (s.passing o) (brTarget o pc) next with
  | some u => u
  | none => s.defer o c k pc next
/-- The smaller set is ejected with what `d` lists. -/
def State.ejectMinority (s : State) (o : Br) (c : Nat) (pc next : Word) (d : HandOver) : State :=
  (s.openToken c o.tok.toNat).ejectLanes c o.tok.toNat pc (s.minorPc o pc next) d (s.minority o)
/-- The smaller set is ejected, and the larger one goes on. -/
def State.handedOver (s : State) (o : Br) (c k : Nat) (pc next : Word) (d : HandOver) : State :=
  ((s.ejectMinority o c pc next d).modSplit c k fun y =>
    { y with m := y.m &&& ~~~s.minority o, a := y.a &&& ~~~s.minority o }).setPc (s.majorPc o pc next)

theorem State.ejects_iff {s : State} {c : Nat} {m : Mask} :
    (!(s.course c).trap.level && decide (maskCount m ≤ (s.course c).ejthr)
      && decide (maskCount m ≤ s.quoinFree (s.coreOf c / 96))) = true
      ↔ s.ejects c m := by
  simp [State.ejects, and_assoc]

/-- An offset counts words (R85, R151). -/
theorem offset_eq (pc : Word) (off : BitVec 32) : pc + (off.signExtend 64 <<< 2) = pc + off.signExtend 64 * 4 :=
  brTarget_eq { (default : Br) with off := off } pc

theorem State.active_ne_zero {s : State} {o : Br} (h : s.votes o ≠ 0) : s.active ≠ 0 := by
  intro empty
  simp [State.votes, empty] at h

section
variable {s : State} {o : Br} {c k : Nat} (closed : ((s.course c).token o.tok.toNat).isOpen = false)
  (takes : s.votes o ≠ 0) (passes : s.passing o ≠ 0) (pc next : Word)
include closed takes passes

/-- BRV whose lanes go both ways and stay on the core. -/
theorem brvCourse_divided (stay : o.ej = none ∨ ¬s.ejects c (s.minority o)) :
    brvCourse o s c k pc next = .ok (s.divided o c k pc next) := by
  unfold brvCourse
  refine (if_neg (by simp [closed])).trans ((if_neg (State.active_ne_zero takes)).trans
    ((if_neg takes).trans ((if_neg passes).trans ?_)))
  split
  case h_1 hoff ej =>
    have stay := stay.resolve_left (by simp [ej])
    exact if_neg fun fits => stay (State.ejects_iff.mp fits)
  case h_2 => rfl

/-- BRV whose lanes go both ways and of which the smaller set is ejected: the descriptor is read and checked first. -/
theorem brvCourse_hands {hoff : BitVec 32} (ej : o.ej = some hoff) (fits : s.ejects c (s.minority o)) :
    brvCourse o s c k pc next = (do
      let d ← s.readHandOver (pc + (hoff.signExtend 64) * 4) o.tok.toNat (s.course c).allot (wordLow (.brv o))
      s.handDamaged d (s.minority o)
      .ok (s.handedOver o c k pc next d)) := by
  unfold brvCourse
  refine (if_neg (by simp [closed])).trans ((if_neg (State.active_ne_zero takes)).trans
    ((if_neg takes).trans ((if_neg passes).trans ?_)))
  rw [ej, ← offset_eq]
  exact if_pos (State.ejects_iff.mpr fits)

end

/-! ### Tokens and splits of a course -/

section
variable {s : State} {c k : Nat} (h : s.hasSplit c k)
include h

theorem State.modToken_course (n : Nat) (f : Token → Token) :
    (s.modToken c n f).course c =
      { s.course c with tokens := ((List.range 8).map fun i => (s.course c).tokens.getD i {}).modify n f } :=
  (s.modCourse_course c c _ h.1).trans (if_pos rfl)

theorem State.modToken_token {n : Nat} (hn : n < 8) (f : Token → Token) :
    ((s.modToken c n f).course c).token n = f ((s.course c).token n) := by
  rw [State.modToken_course h]
  simp [Course.token, List.getD_eq_getElem?_getD, hn]

theorem State.modToken_hasSplit (n : Nat) (f : Token → Token) : (s.modToken c n f).hasSplit c k := by
  refine ⟨by rw [State.modToken, State.modCourse_length]; exact h.1, ?_⟩
  rw [State.modToken_course h]
  exact h.2

theorem State.modSplit_course (f : Split → Split) :
    (s.modSplit c k f).course c = { s.course c with splits := (s.course c).splits.modify k f } :=
  (s.modCourse_course c c _ h.1).trans (if_pos rfl)

/-- A change of the executing split that also moves its PC. -/
theorem State.modSplit_setPc (hc : s.cur = .course c k) (f : Split → Split) (pc : Word) :
    let t := (s.modSplit c k f).setPc pc
    (t.course c).splits[k]? = some { f (s.split c k) with pc := pc } ∧ (t.course c).unsplit = (s.course c).unsplit
      ∧ t.rest = s.rest ∧ t.lanes = s.lanes := by
  have set : (s.modSplit c k f).setPc pc = (s.modSplit c k f).modSplit c k fun y => { y with pc := pc } := by
    simp only [State.setPc, show (s.modSplit c k f).cur = .course c k from hc]
  dsimp only
  rw [set]
  refine ⟨?_, ?_, rfl, rfl⟩
  · rw [State.modSplit_course (State.modSplit_hasSplit h c k f), State.modSplit_course h]
    simp [State.split, List.getD_eq_getElem?_getD, h.2]
  · rw [State.modSplit_course (State.modSplit_hasSplit h c k f), State.modSplit_course h]
    rfl

end

section
variable {s : State} {c : Nat}

theorem State.openToken_course {k : Nat} (h : s.hasSplit c k) (n : Nat) :
    ∃ tokens, (s.openToken c n).course c = { s.course c with tokens := tokens } := ⟨_, State.modToken_course h ..⟩

theorem State.openToken_token {k : Nat} (h : s.hasSplit c k) {n : Nat} (hn : n < 8) :
    ((s.openToken c n).course c).token n = { isOpen := true, opened := s.active, atTrap := (s.course c).trap.level } :=
  State.modToken_token h hn _

end

/-! ### What the division leaves (R130, R131) -/

/-- What counts of the course before the division are its registers and where its splits stand. -/
theorem Course.Divided.congr {x x' y : Course} {k n : Nat} {a t : Mask} {target next : Word} (h : x.Divided y k n a t target next)
    (regs : x.regs = x'.regs) (pcs : ∀ j, (x.splits.getD j default).pc = (x'.splits.getD j default).pc) :
    x'.Divided y k n a t target next :=
  ⟨h.regs.trans regs, h.isOpen, h.opened, fun alone => h.own fun j hj => pcs j ▸ alone j hj, h.passed, h.taken⟩

section
variable {s : State} {o : Br} {c k : Nat} {pc next : Word} (h : s.hasSplit c k) (hc : s.cur = .course c k)
include h hc

/-- Lanes that take the branch stand in their token where they are deferred. -/
theorem State.defer_divided :
    (s.course c).Divided ((s.defer o c k pc next).course c) k o.tok.toNat s.active (s.votes o) (brTarget o pc) next
      ∧ (s.defer o c k pc next).rest = s.rest := by
  have h1 : (s.openToken c o.tok.toNat).hasSplit c k := State.modToken_hasSplit h ..
  have h2 := State.modToken_hasSplit h1 o.tok.toNat fun y => { y with deferred := some (s.votes o, brTarget o pc) }
  obtain ⟨own, same, rest, -⟩ := State.modSplit_setPc h2 hc (fun y => { y with a := s.passing o }) next
  rw [State.modToken_course h1] at same
  obtain ⟨tokens, opened⟩ := State.openToken_course h o.tok.toNat
  have regs : ((s.defer o c k pc next).course c).regs = (s.course c).regs := by
    rw [opened] at same
    exact (congrArg Course.regs same :)
  have token : ((s.defer o c k pc next).course c).token o.tok.toNat =
      { isOpen := true, opened := s.active, deferred := some (s.votes o, brTarget o pc)
        atTrap := (s.course c).trap.level } := by
    rw [← State.modToken_course h1] at same
    refine ((congrArg (·.token o.tok.toNat) same :).trans (State.modToken_token h1 o.tok.isLt _)).trans ?_
    rw [State.openToken_token h o.tok.isLt]
  refine ⟨⟨regs, by rw [token], by rw [token], fun _ => ?_, fun l _ passed => ?_,
    fun l _ _ => .inr (.inr (by rw [token]))⟩, rest⟩
  · rw [State.defer, List.getD_eq_getElem?_getD, own]
    exact ⟨rfl, rfl⟩
  · exact ⟨_, List.mem_of_getElem? own, rfl, passed⟩

/-- BRV whose lanes stay on the core loses none of them. -/
theorem State.divided_divided (away : brTarget o pc ≠ next) (members : s.active &&& ~~~(s.split c k).m = 0)
    (passes : s.passing o ≠ 0) :
    (s.course c).Divided ((s.divided o c k pc next).course c) k o.tok.toNat s.active (s.votes o) (brTarget o pc) next
      ∧ (s.divided o c k pc next).rest = s.rest := by
  have h1 : (s.openToken c o.tok.toNat).hasSplit c k := State.modToken_hasSplit h ..
  have token := State.openToken_token h o.tok.isLt
  have active : (s.split c k).a = s.active := by simp only [State.active, hc]
  obtain ⟨tokens, opened⟩ := State.openToken_course h o.tok.toNat
  unfold State.divided
  rcases State.divideBySlice_cases (s.openToken c o.tok.toNat) c k o.tok.toNat (s.votes o) (s.passing o) away with full | room
  · rw [full]
    exact State.defer_divided h hc
  · rw [room]
    refine ⟨?_, rfl⟩
    dsimp only
    rw [State.modCourse_course _ _ _ _ h1.1, if_pos rfl]
    refine (Course.divide_divided _ h1.2 (by rw [token]) (by rw [token]) away ?_ ?_ passes).congr (by rw [opened])
      fun j => by rw [opened]
    · rw [opened]
      exact active
    · rw [opened]
      exact members

end

/-! ### What the hand-over leaves (R136, R137) -/

theorem State.lane_append_left {s t : State} {ls : List Lane} (h : t.lanes = s.lanes ++ ls) {q : Nat} (hq : q < s.lanes.length) :
    t.lane q = s.lane q := by
  simp [State.lane, h, List.getElem?_append_left hq]

theorem State.lane_append_right {s t : State} {ls : List Lane} (h : t.lanes = s.lanes ++ ls) {i : Nat} {x : Lane}
    (hi : ls[i]? = some x) : t.lane (s.lanes.length + i) = x := by
  rw [State.lane, h, List.getD_eq_getElem?_getD, List.getElem?_append_right (Nat.le_add_right ..), Nat.add_sub_cancel_left, hi]
  rfl

/-- From `s` to `t` the smaller set was handed over with what `d` lists and the larger one went on: each lane of the smaller set
stands on a quoin context behind the lanes that were there. -/
structure HandsOver (s t : State) (o : Br) (c : Nat) (brv next : Word) (d : HandOver) : Prop where
  pc : t.pc = s.majorPc o brv next
  active : t.active = s.active &&& ~~~s.minority o
  regs : (t.course c).regs = (s.course c).regs
  rest : t.rest = s.rest
  token : (t.course c).token o.tok.toNat =
    { isOpen := true, opened := s.active, atTrap := (s.course c).trap.level, endPc := brv + d.endOff.signExtend 64 * 4 }
  count : t.lanes.length = s.lanes.length + maskCount (s.minority o)
  before : ∀ q < s.lanes.length, t.lane q = s.lane q
  lanes : ∀ i m, (Mask.list (s.minority o))[i]? = some m →
    HandedOver (s.coreOf c) (s.course c).regs c o.tok.toNat m (s.minorPc o brv next) d (s.clock + 24 + (i + 1) * d.cycles)
      (t.lane (s.lanes.length + i))

section
variable {s : State} {o : Br} {c k : Nat} (h : s.hasSplit c k) (brv next : Word) (d : HandOver)
include h

/-- The smaller set is ejected: of the course its tokens alone changed, and its lanes stand behind the others. -/
theorem State.ejectMinority_added :
    ∃ ls tokens, let v := s.ejectMinority o c brv next d
      v.rest = s.rest ∧ v.hasSplit c k ∧ v.course c = { s.course c with tokens := tokens } ∧ v.lanes = s.lanes ++ ls
      ∧ (v.course c).token o.tok.toNat =
        { isOpen := true, opened := s.active, atTrap := (s.course c).trap.level, endPc := brv + d.endOff.signExtend 64 * 4 }
      ∧ ls.length = maskCount (s.minority o)
      ∧ ∀ (i m : Nat), (Mask.list (s.minority o))[i]? = some m → ∃ q, ls[i]? = some q
        ∧ HandedOver (s.coreOf c) (s.course c).regs c o.tok.toNat m (s.minorPc o brv next) d
            (s.clock + 24 + (i + 1) * d.cycles) q := by
  obtain ⟨ls, ejected, len, lanes⟩ :=
    (s.openToken c o.tok.toNat).ejectLanes_added c o.tok.toNat brv (s.minorPc o brv next) d (s.minority o)
  obtain ⟨tokens, opened⟩ := State.openToken_course h o.tok.toNat
  have h1 : ((s.openToken c o.tok.toNat).addLanes ls).hasSplit c k := State.modToken_hasSplit h ..
  have course : ((s.openToken c o.tok.toNat).addLanes ls).course c = (s.openToken c o.tok.toNat).course c := rfl
  have core : (s.openToken c o.tok.toNat).coreOf c = s.coreOf c := by rw [State.coreOf, opened]; rfl
  have clock : (s.openToken c o.tok.toNat).clock = s.clock := rfl
  rw [core, opened, clock] at lanes
  have closes := State.modToken_course h1 o.tok.toNat fun y => { y with endPc := brv + (d.endOff.signExtend 64 <<< 2) }
  rw [course, opened] at closes
  dsimp only
  rw [State.ejectMinority, ejected]
  refine ⟨ls, _, rfl, State.modToken_hasSplit h1 .., closes, rfl, ?_, len, lanes⟩
  · rw [State.modToken_token h1 o.tok.isLt, course, State.openToken_token h o.tok.isLt, offset_eq]

/-- BRV hands over the smaller set, and the larger one goes on. -/
theorem State.handedOver_handsOver (hc : s.cur = .course c k) : HandsOver s (s.handedOver o c k brv next d) o c brv next d := by
  obtain ⟨ls, tokens, rest', hv, course, behind, token, len, lanes⟩ := State.ejectMinority_added h brv next d
  obtain ⟨own, same, rest, added⟩ := State.modSplit_setPc hv ((congrArg State.cur rest' :).trans hc)
    (fun y => { y with m := y.m &&& ~~~s.minority o, a := y.a &&& ~~~s.minority o }) (s.majorPc o brv next)
  rw [← State.handedOver] at own same rest added
  have split : (s.handedOver o c k brv next d).split c k = { s.split c k with
      m := (s.split c k).m &&& ~~~s.minority o, a := (s.split c k).a &&& ~~~s.minority o, pc := s.majorPc o brv next } := by
    rw [State.split, List.getD_eq_getElem?_getD, own, Option.getD_some, State.split, course]
    rfl
  have cur : (s.handedOver o c k brv next d).cur = .course c k := (congrArg State.cur (rest.trans rest') :).trans hc
  have behind := added.trans behind
  refine ⟨?_, ?_, ?_, rest.trans rest', (congrArg (·.token o.tok.toNat) same :).trans token, ?_,
    fun q hq => State.lane_append_left behind hq, fun i m hm => ?_⟩
  · simp only [State.pc, cur, split]
  · simp only [State.active, cur, hc, split]
  · exact (congrArg Course.regs same :).trans (congrArg Course.regs course :)
  · rw [behind, List.length_append, len]
  · obtain ⟨x, at_i, handed⟩ := lanes i m hm
    rw [State.lane_append_right behind at_i]
    exact handed

end

/-! ### How BRV ends -/

/-- A page fault outside a latch window is waited for at the instruction (R354). -/
theorem settleExn_page {s : State} {c k : Nat} {i : Instr} (ha : s.hasAgent = true) (hc : s.cur = .course c k)
    (win : fixedLatency i = false) (va : Word) (kind : Nat) (wr ex : Bool) (lane : Nat) (sc : Option Word) (pc len : Word) :
    ∃ t, (s.entering i).settleExn pc len (.page va kind wr ex lane sc) = .next t ∧ t.pc = pc
      ∧ t.wait = .page va kind wr ex lane sc none (s.run c) none ∧ Frame {} s t := by
  have hc' : (s.entering i).cur = .course c k := (s.entering_cur i).trans hc
  have shut : ((s.entering i).course c).win = none := (State.entering_win ha hc i).trans (by simp [win])
  have run : (s.entering i).run c = s.run c := by
    rw [State.entering_course hc, State.modCourse_run (Course.began_rest i k)]
  let u := ((s.entering i).setPc pc).setWait (.page va kind wr ex lane sc .none (s.run c) .none) pc
  have agent : ((s.entering i).setPc pc).hasAgent = true := by simp [ha]
  have closes : Frame {} u (u.modCourse c fun x => { x with win := .none }) := by
    refine Frame.of_modCourse (c := c) (k := k) ?_ _ rfl (fun _ _ => rfl) rfl (fun _ => rfl) (RegsFrame.refl _ _)
    exact (State.setWait_frame _ {} _ _).cur.trans ((State.setPc_frame _ {} _).cur.trans hc')
  refine ⟨u.modCourse c fun x => { x with win := .none }, ?_, ?_, ?_, ?_⟩
  · unfold State.settleExn
    rw [hc']
    simp only [shut, run]
    rfl
  · have same : (u.modCourse c fun x => { x with win := .none }).pc = u.pc := by
      simp only [State.pc, State.modCourse_cur, u.modCourse_split c (fun x => { x with win := .none }) fun _ => rfl,
        State.modCourse_lane]
    rw [same, State.setWait_pc agent, State.setPc_pc (by simp [ha])]
  · exact (u.modCourse_wait c (fun x => { x with win := .none }) fun _ => rfl).trans (State.setWait_wait agent _ _)
  · have f := (((s.entering_frame i).trans (State.setPc_frame _ {} pc)).trans
      (State.setWait_frame _ {} (.page va kind wr ex lane sc .none (s.run c) .none) pc)).trans closes
    exact f.mono (by simp [Touch.join]) (by simp [Touch.join]) (by simp [Touch.join]) (by simp [Touch.join])
      (by simp [Touch.join]) (by simp [Touch.join])

theorem State.entering_passing (s : State) (i : Instr) (o : Br) : (s.entering i).passing o = s.passing o := by
  simp only [State.passing, s.entering_active, s.entering_votes]

theorem State.entering_minority (s : State) (i : Instr) (o : Br) : (s.entering i).minority o = s.minority o := by
  simp only [State.minority, s.entering_passing, s.entering_votes]

theorem State.entering_majorPc (s : State) (i : Instr) (o : Br) (pc next : Word) :
    (s.entering i).majorPc o pc next = s.majorPc o pc next := by
  simp only [State.majorPc, s.entering_passing, s.entering_votes]

theorem State.entering_minorPc (s : State) (i : Instr) (o : Br) (pc next : Word) :
    (s.entering i).minorPc o pc next = s.minorPc o pc next := by
  simp only [State.minorPc, s.entering_passing, s.entering_votes]

/-- Every split of a course that begins an instruction stands where it did. -/
theorem Course.began_pcs (x : Course) (i : Instr) (k j : Nat) :
    ((x.began i k).splits.getD j default).pc = (x.splits.getD j default).pc := by
  by_cases hj : j = k
  · subst hj
    exact modify_getD_map _ _ _ _ Split.pc fun _ => rfl
  · exact congrArg Split.pc (modify_getD_other _ _ _ hj)

theorem exec_brv (o : Br) (s : State) : exec (.brv o) s = execBrv o s := rfl

section
variable {s : State} {c k : Nat} (agent : s.hasAgent = true) (hc : s.cur = .course c k) (i : Instr)
include agent hc

/-- The course of an agent that begins an instruction. -/
theorem State.entering_began : (s.entering i).course c = (s.course c).began i k := by
  rw [State.entering_course hc, State.modCourse_course _ _ _ _ (State.hasAgent_course agent hc).1, if_pos rfl]

theorem State.entering_hasSplit : (s.entering i).hasSplit c k :=
  State.hasAgent_course ((s.entering_hasAgent i).trans agent) ((s.entering_cur i).trans hc)

theorem State.entering_ejects (m : Mask) : (s.entering i).ejects c m ↔ s.ejects c m := by
  rw [State.ejects, State.entering_began agent hc, State.entering_quoinFree hc, s.entering_coreOf]
  rfl

end

section
variable {s : State} {o : Br} {c k : Nat} (ready : Ready (.brv o) s) (hc : s.cur = .course c k)
include ready hc

theorem execBrv_next {t : State} (h : brvCourse o (s.entering (.brv o)) c k s.pc (s.nextPc (.brv o)) = .ok t) :
    exec (.brv o) s = .next t := by
  rw [exec_brv]
  refine instr_next ready ?_
  dsimp only
  rw [(s.entering_cur _).trans hc]
  exact h

theorem execBrv_error {e : Exn} (h : brvCourse o (s.entering (.brv o)) c k s.pc (s.nextPc (.brv o)) = .error e) :
    exec (.brv o) s = (s.entering (.brv o)).settleExn s.pc (Instr.len (.brv o)) e := by
  rw [exec_brv]
  refine instr_error ready ?_
  dsimp only
  rw [(s.entering_cur _).trans hc]
  exact h

variable (closed : ((s.course c).token o.tok.toNat).isOpen = false) (takes : s.votes o ≠ 0) (passes : s.passing o ≠ 0)
include closed takes passes

theorem execBrv_divides (stay : o.ej = none ∨ ¬s.ejects c (s.minority o)) (away : brTarget o s.pc ≠ s.nextPc (.brv o))
    (members : s.active &&& ~~~(s.split c k).m = 0) :
    ∃ t, exec (.brv o) s = .next t ∧ t.rest = s.rest
      ∧ (s.course c).Divided (t.course c) k o.tok.toNat s.active (s.votes o) (brTarget o s.pc) (s.nextPc (.brv o)) := by
  have began := State.entering_began ready.agent hc (.brv o)
  rw [← s.entering_votes (.brv o)] at takes
  rw [← s.entering_passing (.brv o)] at passes
  rw [← s.entering_minority (.brv o), ← State.entering_ejects ready.agent hc (.brv o)] at stay
  rw [← s.entering_active (.brv o), ← (s.entering_frame (.brv o)).members] at members
  have next := brvCourse_divided (by rw [began]; exact closed) takes passes s.pc (s.nextPc (.brv o)) stay (k := k)
  obtain ⟨divided, rest⟩ := State.divided_divided (State.entering_hasSplit ready.agent hc (.brv o))
    ((s.entering_cur _).trans hc) away members passes
  rw [s.entering_active, s.entering_votes, began] at divided
  refine ⟨_, execBrv_next ready hc next, rest.trans (s.entering_rest _), divided.congr rfl ((s.course c).began_pcs _ k)⟩

variable {hoff : BitVec 32} (ej : o.ej = some hoff) (fits : s.ejects c (s.minority o))
include ej fits

/-- BRV that ejects reads the descriptor, finds the registers that it lists sound, and hands over. -/
theorem brvCourse_entering_hands : brvCourse o (s.entering (.brv o)) c k s.pc (s.nextPc (.brv o)) = (do
    let d ← s.readHandOver (s.pc + (hoff.signExtend 64) * 4) o.tok.toNat (s.course c).allot (wordLow (.brv o))
    s.handDamaged d (s.minority o)
    .ok ((s.entering (.brv o)).handedOver o c k s.pc (s.nextPc (.brv o)) d)) := by
  have began := State.entering_began ready.agent hc (.brv o)
  rw [← s.entering_votes (.brv o)] at takes
  rw [← s.entering_passing (.brv o)] at passes
  rw [← s.entering_minority (.brv o), ← State.entering_ejects ready.agent hc (.brv o)] at fits
  rw [brvCourse_hands (by rw [began]; exact closed) takes passes _ _ ej fits]
  simp only [s.entering_readHandOver, s.entering_handDamaged, s.entering_minority, began]
  rfl

/-- A descriptor that cannot be used is BRV's fault. -/
theorem execBrv_unread {e : Exn}
    (h : s.readHandOver (s.pc + (hoff.signExtend 64) * 4) o.tok.toNat (s.course c).allot (wordLow (.brv o)) = .error e) :
    exec (.brv o) s = (s.entering (.brv o)).settleExn s.pc (Instr.len (.brv o)) e := by
  refine execBrv_error ready hc ?_
  rw [brvCourse_entering_hands ready hc closed takes passes ej fits, h]
  rfl

theorem execBrv_hands {d : HandOver}
    (h : s.readHandOver (s.pc + (hoff.signExtend 64) * 4) o.tok.toNat (s.course c).allot (wordLow (.brv o)) = .ok d)
    (sound : s.handDamaged d (s.minority o) = .ok ()) :
    ∃ t, exec (.brv o) s = .next t ∧ HandsOver s t o c s.pc (s.nextPc (.brv o)) d := by
  have hands : brvCourse o (s.entering (.brv o)) c k s.pc (s.nextPc (.brv o)) =
      .ok ((s.entering (.brv o)).handedOver o c k s.pc (s.nextPc (.brv o)) d) := by
    rw [brvCourse_entering_hands ready hc closed takes passes ej fits, h]
    simp only [bind, Except.bind, sound]
  have began := State.entering_began ready.agent hc (.brv o)
  have lanes : (s.entering (.brv o)).lanes = s.lanes := by rw [State.entering_course hc, State.modCourse_lanes]
  have before (q : Nat) : (s.entering (.brv o)).lane q = s.lane q := by rw [State.lane, State.lane, lanes]
  have clock : (s.entering (.brv o)).clock = s.clock := (congrArg State.clock (s.entering_rest _) :)
  have spec := State.handedOver_handsOver (State.entering_hasSplit ready.agent hc (.brv o)) (o := o) s.pc (s.nextPc (.brv o)) d
    ((s.entering_cur _).trans hc)
  refine ⟨_, execBrv_next ready hc hands, ⟨?_, ?_, ?_, spec.rest.trans (s.entering_rest _), ?_, ?_,
    fun q hq => ?_, fun i m hm => ?_⟩⟩
  · rw [spec.pc, s.entering_majorPc]
  · rw [spec.active, s.entering_active, s.entering_minority]
  · rw [spec.regs, began]
    rfl
  · rw [spec.token, s.entering_active, began]
    rfl
  · rw [spec.count, lanes, s.entering_minority]
  · rw [spec.before q (by rw [lanes]; exact hq), before]
  · have handed := spec.lanes i m (by rw [s.entering_minority]; exact hm)
    rw [s.entering_coreOf, s.entering_minorPc, clock, lanes, began] at handed
    exact handed

end

/-- Settles O9: a division loses no lane, by slice or deferred; a hand-over reads the descriptor first, whose faults come before any
effect, and each lane takes what it lists. -/
theorem brvDivides : Obligations.BrvDivides := by
  intro s o c k x n target next taken passed taking minority ejects ready hc closed takes passes
  have at_target : brTarget o s.pc = target := brTarget_eq o s.pc
  refine ⟨?_, ?_⟩
  · intro stay away members
    obtain ⟨t, runs, rest, divided⟩ := execBrv_divides ready hc closed takes passes stay (at_target ▸ away) members
    rw [at_target] at divided
    have cur : t.cur = .course c k := (congrArg State.cur rest :).trans hc
    refine ⟨t, runs, fun alone => ?_, divided.regs, rest, divided.isOpen, divided.opened, divided.passed, divided.taken⟩
    simp only [State.pc, State.active, cur]
    exact divided.own alone
  · intro hoff ej fits a low traps
    have unread {e : Exn} := execBrv_unread ready hc closed takes passes ej fits (e := e)
    have fault {code lane : Nat} {addr info : Word} (hb : code ≠ tBatch)
        (h : s.readHandOver a n x.allot low = .error (.trap code lane addr info)) : traps code lane addr info := fun can => by
      rw [unread h]
      exact settleExn_traps ready.agent hc can rfl hb ..
    refine ⟨?_, ?_, ?_⟩
    · intro code hcode lane addr info h
      refine fault ?_ (State.readHandOver_unreadable h)
      rintro rfl
      exact absurd hcode (by decide)
    · intro va kind wr ex lane sc h
      rw [unread (State.readHandOver_unreadable h)]
      exact settleExn_page ready.agent hc rfl ..
    · intro h head b bad smask scalars
      refine ⟨fun hb => fault (by decide) (State.readHandOver_malformed head hb), ?_⟩
      intro l good list regs d
      refine ⟨fun out => fault (by decide) (State.readHandOver_bounds head good list out), ?_⟩
      intro inside sound
      obtain ⟨t, runs, hands⟩ :=
        execBrv_hands ready hc closed takes passes ej fits (State.readHandOver_ok head good list inside) sound
      have level : x.trap.level = false := fits.1
      refine ⟨t, runs, at_target ▸ hands.pc, hands.active, hands.regs, hands.rest, ?_, hands.count, hands.before,
        fun i m hm => ?_⟩
      · rw [hands.token, level]
        rfl
      · have handed := hands.lanes i m hm
        refine ⟨handed.course, handed.lane, handed.tok, at_target ▸ handed.pc, handed.outs, handed.quoin, ?_, ?_, ?_,
          handed.preds, handed.groups⟩
        · rw [handed.st, HandOver.cycles, length_handOf_ins]
          rfl
        · intro r hr
          rw [handed.ins r hr, State.vreg, State.regs, hc]
        · intro r hr
          refine (handed.scalars r).trans (if_congr ?_ rfl rfl)
          exact ⟨fun listed => List.mem_filter.mpr ⟨List.mem_range.mpr hr, listed⟩,
            fun listed => (List.mem_filter.mp listed).2⟩

end Sys2Proof.Machine
end


section
/-!
SUPPORT. Laws of a course's end: what a killed course holds, and that the settling of its work in flight leaves it so (R313, R352).
-/

namespace Sys2Proof.Machine

/-! ### Changes of courses -/

/-- What a change of a course leaves of each course, it leaves of every course. -/
theorem State.modCourse_same (s : State) (d : Nat) {f : Course → Course} (g : Course → γ) (c : Nat)
    (h : ∀ x, g (f x) = g x := by exact fun _ => rfl) : g ((s.modCourse d f).course c) = g (s.course c) := by
  by_cases e : c = d
  · subst e
    exact modify_getD_map s.courses c f default g h
  · rw [s.modCourse_other f e]

/-- A change of a course changes it, or no course. -/
theorem State.modCourse_cases (s : State) (d : Nat) (f : Course → Course) (c : Nat) :
    (s.modCourse d f).course c = s.course c ∨ (s.modCourse d f).course c = f (s.course c) := by
  by_cases hl : d < s.courses.length
  · rw [State.modCourse_course s d c f hl]
    split
    case isTrue e => exact .inr (by rw [e])
    case isFalse => exact .inl rfl
  · exact .inl (by rw [State.modCourse_absent s f hl])

/-! ### What a course without splits keeps (R312, R321) -/

/-- An agent that writes a scalar and places what follows changes no other course. -/
theorem State.setS_notBefore_course {s : State} {c : Nat} (other : ∀ k, s.cur ≠ .course c k) (n : Nat) (v : Word) (t : Nat) :
    ((s.setS n v).notBefore t).course c = s.course c := by
  have frame := s.setS_frame n v
  have placed : ((s.setS n v).notBefore t).course c = (s.setS n v).course c := by
    unfold State.notBefore State.modSight
    split
    case h_1 => rfl
    case h_2 d k hd => exact State.modCourse_other _ _ fun e => other k (e ▸ frame.cur.symm.trans hd)
    case h_3 => rfl
  rw [placed, State.course, State.course, List.getD_eq_getElem?_getD, List.getD_eq_getElem?_getD, frame.courses c other]

theorem State.forSplits_none {s : State} {c : Nat} (h : (s.course c).splits = []) (f : State → Nat → Split → State) :
    s.forSplits c f = s := by
  simp [State.forSplits, h]

/-- What happens to the splits of several courses, each change of which touches the split's own course alone, leaves a course that has
none. -/
theorem State.foldl_forSplits_course {s : State} {c : Nat} (none : (s.course c).splits = []) (ds : List Nat)
    (f : Nat → State → Nat → Split → State) (own : ∀ d ≠ c, ∀ t k x, (f d t k x).course c = t.course c) :
    (ds.foldl (fun t d => t.forSplits d (f d)) s).course c = s.course c := by
  refine foldl_keeps (P := fun t : State => t.course c = s.course c) _ _ (fun t d ht => ?_) s rfl
  by_cases e : d = c
  · subst e
    rw [State.forSplits_none (ht ▸ none), ht]
  · exact (foldl_same (fun t : State => t.course c) _ _ (fun t (x : Split × Nat) => own d e t x.2 x.1) t).trans ht

/-- Split `k` of another course ends its wait: it may write a scalar and goes on. -/
theorem State.as_resume_course {s : State} {c d : Nat} (h : d ≠ c) (k n : Nat) (v : State → Word) (t : State → Nat) :
    ((s.as (.course d k) fun u => (u.setS n (v u)).notBefore (t u)).resume d k).course c = s.course c :=
  (State.modCourse_other _ _ (Ne.symm h)).trans (State.setS_notBefore_course (by simpa using h) ..)

section
variable {s : State} {c : Nat} (none : (s.course c).splits = [])
include none

theorem State.recheckSync_course (b : Nat) : (s.recheckSync b).course c = s.course c := by
  unfold State.recheckSync
  refine State.foldl_forSplits_course none _ _ fun d other t k x => ?_
  split
  · split
    · exact State.as_resume_course other ..
    · rfl
  · rfl

theorem State.releaseBars_course (b : Nat) : (s.releaseBars b).course c = s.course c := by
  unfold State.releaseBars
  refine State.foldl_forSplits_course none _ _ fun d other t k x => ?_
  split
  · split
    · rfl
    · exact State.as_resume_course other ..
  · rfl

omit none in
theorem State.recheckSyncLanes_course (s : State) (b : Nat) : (s.recheckSyncLanes b).course c = s.course c := by
  unfold State.recheckSyncLanes
  refine foldl_same (fun t : State => t.course c) _ _ (fun t e => ?_) s
  split
  · split
    · split
      · exact State.setS_notBefore_course (by simp) ..
      · rfl
    · rfl
  · rfl

theorem State.completeBar_course (b n : Nat) : (s.completeBar b n).course c = s.course c :=
  State.releaseBars_course (s := s.setBar b n _) none b

theorem State.checkBar_course (b n : Nat) : (s.checkBar b n).course c = s.course c := by
  unfold State.checkBar
  dsimp only
  split
  · rfl
  · rw [apply_ite (fun t : State => t.course c), State.completeBar_course none, ite_self]

theorem State.afterCourseEnd_course (d : Nat) (abandoned : Bool) : (s.afterCourseEnd d abandoned).course c = s.course c := by
  unfold State.afterCourseEnd
  refine foldl_keeps (P := fun t : State => t.course c = s.course c) _ _ (fun t n ht => ?_) s rfl
  have none : (t.course c).splits = [] := ht ▸ none
  split
  · exact (State.completeBar_course none ..).trans ht
  · exact (State.checkBar_course none ..).trans ht

end

theorem State.noteMark_course (s : State) (d : Nat) (va : Word) (c : Nat) : (s.noteMark d va).course c = s.course c := by
  unfold State.noteMark
  split
  · unfold State.noteWaiters
    dsimp only
    split
    · rfl
    · exact (congrArg (fun t : State => t.course c) (State.storeBytes_aside s ..) :)
  · rfl

/-! ### A course that is killed (R352) -/

/-- Course `y`, which has ended, with what its cut copies leave of it: failed batches and decoding flags. -/
def Course.Remains (y x : Course) : Prop := ∃ fails late, x = { y with fails := fails, lateFlags := late }

theorem Course.Remains.splits {x y : Course} (h : y.Remains x) : x.splits = y.splits := by
  obtain ⟨fails, late, rfl⟩ := h
  rfl

theorem State.syncFault_course {s : State} {c : Nat} (none : (s.course c).splits = []) (b off : Nat) :
    (s.syncFault b off).course c = s.course c :=
  (State.recheckSyncLanes_course ..).trans (State.recheckSync_course (s := s.storePadAt b (off + 12) _ _) none b)

theorem State.dropCopy_remains {s : State} {c : Nat} {y : Course} (none : y.splits = []) (h : y.Remains (s.course c)) (x : Copy)
    (code : Nat) (addr : Word) : y.Remains ((s.dropCopy x code addr).course c) := by
  have kept (u : State) (hu : u.course c = s.course c) (f : Course → Course) (hf : ∀ z, y.Remains z → y.Remains (f z)) :
      y.Remains ((u.modCourse x.course f).course c) := by
    rcases u.modCourse_cases x.course f c with same | changed
    · rwa [same, hu]
    · rw [changed, hu]
      exact hf _ h
  unfold State.dropCopy
  refine kept _ ?_ _ fun z hz => ?_
  · split
    · exact State.syncFault_course (h.splits.trans none) ..
    · rfl
  · obtain ⟨fails, late, rfl⟩ := hz
    exact ⟨_, _, rfl⟩

/-- What the end of course `x` by `k` leaves of it. -/
def Course.end (x : Course) (k : Kill) : Course :=
  { x with
    place := .ended, splits := [], reentry := [], tokens := [], pending := [], win := none
    trap := { x.trap with level := false }, kill := some k }

/-- The record of a kill, with the work that it cut off (R353). -/
def State.killRecord (s : State) (c : Nat) (k : Kill) : Kill :=
  { k with
    copies := (s.copies.filter fun y => y.course == c && (y.page.isSome || y.todo.any fun h => !h.begun)).length
    ops := (s.ops.filter fun o => o.course == c && o.started.isNone).length
    lanes := (s.lanes.filter fun q => q.course == c && q.st.live).length }

theorem State.end_splits (s : State) (c : Nat) (k : Kill) : ((s.modCourse c fun x => x.end k).course c).splits = [] := by
  by_cases hc : c < s.courses.length
  · rw [State.modCourse_course _ _ _ _ hc, if_pos rfl]
    rfl
  · rw [State.modCourse_absent _ _ hc, State.course, List.getD_eq_getElem?_getD, List.getElem?_eq_none (Nat.le_of_not_lt hc)]
    rfl

/-- What a course that is killed holds: all that it held, without what could run on (R352, R353). -/
theorem State.killCourse_remains {s : State} {c : Nat} (live : (s.course c).place ≠ .ended) (k : Kill) :
    ((s.modCourse c fun x => x.end (s.killRecord c k)).course c).Remains ((s.killCourse c k).course c) := by
  generalize hy : (s.modCourse c fun x => x.end (s.killRecord c k)).course c = y
  have none : y.splits = [] := hy ▸ s.end_splits c _
  have settled (l : List Copy) (u : State) (hu : u.course c = y) : y.Remains
      (((l.foldl (fun t z => if (z.cutOff 0 0).isNone then t.dropCopy z 0 0 else t) u).afterCourseEnd c true).course c) := by
    have dropped : y.Remains ((l.foldl (fun t z => if (z.cutOff 0 0).isNone then t.dropCopy z 0 0 else t) u).course c) := by
      refine foldl_keeps (P := fun t : State => y.Remains (t.course c)) _ _ (fun t z ht => ?_) u ⟨_, _, hu⟩
      split
      · exact State.dropCopy_remains none ht ..
      · exact ht
    rw [State.afterCourseEnd_course (dropped.splits.trans none)]
    exact dropped
  unfold State.killCourse
  dsimp only
  rw [if_neg live, foldl_same (fun t : State => t.course c) _ _ fun t va => t.noteMark_course c va c]
  exact settled _ _ hy

/-- The course was ended for the reason and cause of `k`, by its trap. -/
structure State.Killed (s : State) (c : Nat) (k : Kill) : Prop where
  place : (s.course c).place = .ended
  record : ∃ r, (s.course c).kill = some r ∧ r.reason = k.reason ∧ r.trap = k.trap ∧ r.cause = k.cause

/-- A course that is killed has ended, and its record says why. -/
theorem State.killCourse_killed {s : State} {c : Nat} (hc : c < s.courses.length) (live : (s.course c).place ≠ .ended) (k : Kill) :
    (s.killCourse c k).Killed c k := by
  obtain ⟨fails, late, left⟩ := State.killCourse_remains live k
  rw [State.modCourse_course _ _ _ _ hc, if_pos rfl] at left
  constructor <;> rw [left]
  · rfl
  · exact ⟨_, rfl, rfl, rfl, rfl⟩

/-- The registers of a course and where they stand: what neither a trap nor the course's end touches. -/
def Course.file (x : Course) : Regs × Nat × Nat := (x.regs, x.quarter, x.base)

theorem State.killCourse_file (s : State) (c : Nat) (k : Kill) : ((s.killCourse c k).course c).file = (s.course c).file := by
  by_cases live : (s.course c).place = .ended
  · exact congrArg (fun t : State => (t.course c).file) (if_pos live)
  · obtain ⟨fails, late, left⟩ := State.killCourse_remains live k
    rw [left]
    exact s.modCourse_same c Course.file c

end Sys2Proof.Machine
end


section
/-!
The statement of taking a trap: at once, nested, fatal or later.
-/

namespace Sys2Proof.Machine

/-! ### A trap is taken (R119, R344, R345) -/

/-- The split that trapped, and the others. -/
theorem trapCourse_split (h : Word) (now : Nat) (t : Trap) (x : Course) (hk : t.split < x.splits.length) (j : Nat) :
    (trapCourse h now t x).splits.getD j default =
      if j = t.split then { x.splits.getD t.split default with pc := h, wait := .ready, handler := true, buf := [] }
      else { x.splits.getD j default with handler := false } := by
  simp only [trapCourse, List.getD_eq_getElem?_getD, List.getElem?_modify, List.getElem?_map]
  by_cases hj : j = t.split
  · subst hj
    simp [hk]
  · simp only [Ne.symm hj, hj, if_false]
    cases x.splits[j]? <;> rfl

section
variable {s : State} {c : Nat} {e : Trap} (hc : c < s.courses.length)
include hc

theorem State.enterTrap_course : (s.enterTrap c e).course c = trapCourse (s.launchOf c).desc.handler (s.run c) e (s.course c) :=
  (State.modCourse_course _ c c _ hc).trans (if_pos rfl)

theorem State.postTrap_course : (s.postTrap c e).course c =
    { s.course c with
      win := if e.window then none else (s.course c).win
      pending := (s.course c).pending ++ [{ e with raised := s.tick }]
      splits := (s.course c).splits.modify e.split fun z => { z with wait := .ready } } :=
  (State.modCourse_course _ c c _ hc).trans (if_pos rfl)

variable (hk : e.split < (s.course c).splits.length)
include hk

theorem State.enterTrap_split (j : Nat) : (s.enterTrap c e).split c j =
    if j = e.split then { s.split c e.split with pc := (s.launchOf c).desc.handler, wait := .ready, handler := true, buf := [] }
    else { s.split c j with handler := false } := by
  rw [State.split, State.enterTrap_course hc]
  exact trapCourse_split _ _ e _ hk j

/-- A course outside trap level that takes a trap leaves its trap and nothing else. -/
theorem State.enterTrap_taken (level : (s.course c).trap.level = false) :
    Traps s (s.enterTrap c e) c e.split e.code e.lane e.pc e.addr e.info e.window e.batch.toList := by
  have self := State.enterTrap_course hc (e := e)
  refine ⟨?_, ?_, fun j hj => ?_, ?_, ?_, fun d hd => ?_, rfl, rfl⟩
  · rw [self]
    simp [trapCourse, level, causeWord]
  · rw [State.enterTrap_split hc hk, if_pos rfl]
  · rw [State.enterTrap_split hc hk, if_neg hj]
  · rw [self]; rfl
  · rw [self]; rfl
  · simp [State.enterTrap_eq, Ne.symm hd]

end

/-! ### Whether a trap is delivered or waits (R125, R345, R347) -/

section
variable {s : State} {c : Nat} {e : Trap} (live : (s.course c).place ≠ .ended)
include live

/-- A trap that arises while a latch window of another split is open waits. -/
theorem State.raise_shut (shut : ¬((s.course c).win = none ∨ e.window = true)) : s.raise c e = s.postTrap c e := by
  rw [not_or, ← ne_eq, ← Option.isSome_iff_ne_none, Bool.not_eq_true, ← Bool.not_eq_true'] at shut
  exact (if_neg live).trans (if_pos shut)

variable (free : (s.course c).win = none ∨ e.window = true)
include free

theorem State.raise_free : s.raise c e =
    if !(s.course c).trap.level && !s.noHandler c && ((s.course c).place != .resident || (s.course c).leaving.isSome
        || decide (Config.handlersPerCore ≤ s.handlers (s.coreOf c)) || s.trapsWait (s.coreOf c)) then s.postTrap c e
    else s.deliver c e := by
  have shut : ¬((s.course c).win.isSome = true ∧ (!e.window) = true) := by
    rintro ⟨win, window⟩
    rcases free with none | own
    · simp [none] at win
    · simp [own] at window
  exact (if_neg live).trans (if_neg shut)

theorem State.raise_nested (level : (s.course c).trap.level = true) : s.raise c e =
    if (s.course c).trap.nested then s.killCourse c { reason := 3, trap := e, cause := causeWord e true } else s.enterTrap c e := by
  simp [State.raise_free live free, State.deliver, level]

variable (level : (s.course c).trap.level = false)
include level

theorem State.raise_unhandled (handler : (s.launchOf c).desc.handler = 0) :
    s.raise c e = s.killCourse c { reason := 2, trap := e, cause := causeWord e false } := by
  have none : s.noHandler c = true := by simpa [State.noHandler] using handler
  simp [State.raise_free live free, State.deliver, level, none]

theorem State.raise_later (handler : (s.launchOf c).desc.handler ≠ 0)
    (later : (s.course c).place ≠ .resident ∨ (s.course c).leaving.isSome = true ∨ Config.handlersPerCore ≤ s.handlers (s.coreOf c)
      ∨ s.trapsWait (s.coreOf c) = true) : s.raise c e = s.postTrap c e := by
  have some : s.noHandler c = false := by simpa [State.noHandler] using handler
  rw [State.raise_free live free]
  refine if_pos ?_
  simpa only [level, some, Bool.not_false, Bool.true_and, Bool.or_eq_true, bne_iff_ne, decide_eq_true_eq, or_assoc] using later

end

/-- Settles O45: where the trap is delivered it is entered or kills the course, and where it waits the course keeps it. -/
theorem takingTraps : Obligations.TakingTraps := by
  intro s c e hc hk x t killed waits free
  have posted (h : t = s.postTrap c e) : waits := by
    have self := h ▸ State.postTrap_course hc
    refine ⟨?_, ?_, ?_, by rw [h]; rfl⟩ <;> rw [self]
  have kills {r : Kill} (h : t = s.killCourse c r) (live : x.place ≠ .ended) (trap : r.trap = e) : killed r.reason := by
    obtain ⟨place, k, record, reason, of, -⟩ := State.killCourse_killed hc live r
    exact ⟨h ▸ place, k, h ▸ record, reason, of.trans trap⟩
  refine ⟨fun can open' => ?_, fun live open' level first => ?_, fun live open' level second => ?_, fun live open' level none => ?_,
    fun live open' level some later => ?_, fun live shut => ?_⟩
  · have taken : t = s.enterTrap c e := State.raise_taken can fun win => open'.resolve_left (Option.isSome_iff_ne_none.mp win)
    rw [taken]
    exact State.enterTrap_taken hc hk can.level
  · have taken : t = s.enterTrap c e := (State.raise_nested live open' level).trans (if_neg (ne_true_of_eq_false first))
    rw [taken]
    have self := State.enterTrap_course hc (e := e)
    refine ⟨?_, ?_, ?_, rfl⟩
    · rw [self]
      simp [trapCourse, x, show (s.course c).trap.level = true from level, causeWord]
    · rw [State.enterTrap_split hc hk, if_pos rfl]
    · rw [self]; rfl
  · exact kills ((State.raise_nested live open' level).trans (if_pos second)) live rfl
  · exact kills (State.raise_unhandled live open' level none) live rfl
  · exact posted (State.raise_later live open' level some later)
  · have late : t = s.postTrap c e := State.raise_shut live shut
    refine ⟨posted late, ?_⟩
    rw [late, State.postTrap_course hc]
    exact if_neg fun window => shut (.inr window)

end Sys2Proof.Machine
end


section
/-!
The statement of BRV whose lanes all go one way.
-/

namespace Sys2Proof.Machine

/-! ### Tokens and the PC of an executing split -/

section
variable {s : State} {c k : Nat} (h : s.hasSplit c k)
include h

/-- A change of one token leaves the others. -/
theorem State.modToken_token_other {n m : Nat} (hm : m < 8) (other : m ≠ n) (f : Token → Token) :
    ((s.modToken c n f).course c).token m = (s.course c).token m := by
  rw [State.modToken_course h]
  simp [Course.token, List.getD_eq_getElem?_getD, Ne.symm other, hm]

variable (hc : s.cur = .course c k)
include hc

theorem State.setPc_course (pc : Word) :
    (s.setPc pc).course c = { s.course c with splits := (s.course c).splits.modify k fun y => { y with pc := pc } } := by
  simp only [State.setPc, hc]
  exact State.modSplit_course h _

end

/-! ### The cases of BRV in which no lane leaves another (R129, R155) -/

section
variable {s : State} {o : Br} {c k : Nat} (pc next : Word)

theorem brvCourse_open (isOpen : ((s.course c).token o.tok.toNat).isOpen = true) :
    brvCourse o s c k pc next = .error (trapC tBarrier) := if_pos isOpen

variable (closed : ((s.course c).token o.tok.toNat).isOpen = false)
include closed

theorem brvCourse_idle (idle : s.active = 0) : brvCourse o s c k pc next = .ok (s.setPc next) :=
  (if_neg (by simp [closed])).trans (if_pos idle)

theorem brvCourse_uniform (acts : s.active ≠ 0) (uniform : s.votes o = 0 ∨ s.passing o = 0) :
    brvCourse o s c k pc next =
      .ok ((s.openToken c o.tok.toNat).setPc (if s.votes o = 0 then next else brTarget o pc)) := by
  unfold brvCourse
  refine (if_neg (by simp [closed])).trans ((if_neg acts).trans ?_)
  by_cases none : s.votes o = 0
  · rw [if_pos none, if_pos none]
    rfl
  · rw [if_neg none, if_neg none]
    exact if_pos (uniform.resolve_left none)

end

/-- The token of a split is opened and the split goes on at `pc`. -/
structure OpensToken (s t : State) (c n : Nat) (pc : Word) : Prop where
  pc : t.pc = pc
  active : t.active = s.active
  regs : (t.course c).regs = (s.course c).regs
  rest : t.rest = s.rest
  token : (t.course c).token n = { isOpen := true, opened := s.active, atTrap := (s.course c).trap.level }
  others : ∀ m, m ≠ n → m < 8 → (t.course c).token m = (s.course c).token m

theorem State.openToken_opens {s : State} {c k n : Nat} (agent : s.hasAgent = true) (hc : s.cur = .course c k) (hn : n < 8) (pc : Word) :
    OpensToken s ((s.openToken c n).setPc pc) c n pc := by
  have h : s.hasSplit c k := State.hasAgent_course agent hc
  have cur : (s.openToken c n).cur = .course c k := hc
  have there : (s.openToken c n).hasSplit c k := State.modToken_hasSplit h ..
  have course := State.setPc_course there cur pc
  obtain ⟨tokens, opened⟩ := State.openToken_course h n
  have splits (d j : Nat) : (s.openToken c n).split d j = s.split d j := s.modCourse_split c _ (by exact fun _ => rfl) d j
  have active : (s.openToken c n).active = s.active := by
    simp only [State.active, cur, hc, splits]
  refine ⟨State.setPc_pc ((s.modCourse_hasAgent c _ (by rfl)).trans agent) pc, ?_, ?_, ?_, ?_, fun m other hm => ?_⟩
  · exact (((s.openToken c n).setPc_frame {} pc).active (by simp)).trans active
  · rw [course, opened]
  · exact ((s.openToken c n).setPc_frame {} pc).rest
  · rw [course]
    exact State.openToken_token h hn
  · rw [course]
    exact State.modToken_token_other h hm other _

section
variable {s : State} {o : Br} (ready : Ready (.brv o) s)
include ready

section
variable {c k : Nat} (hc : s.cur = .course c k)
include hc

theorem execBrv_idle (closed : ((s.course c).token o.tok.toNat).isOpen = false) (idle : s.active = 0) :
    ∃ t, exec (.brv o) s = .next t ∧ Goes (s.nextPc (.brv o)) {} s t := by
  rw [← State.entering_active s (.brv o)] at idle
  refine ⟨_, execBrv_next ready hc (brvCourse_idle _ _ ?_ idle), goes_of_work ready.agent (Frame.refl {} _) rfl rfl _⟩
  rw [State.entering_began ready.agent hc]
  exact closed

theorem execBrv_uniform (closed : ((s.course c).token o.tok.toNat).isOpen = false) (acts : s.active ≠ 0)
    (uniform : s.votes o = 0 ∨ s.passing o = 0) :
    ∃ t, exec (.brv o) s = .next t
      ∧ OpensToken s t c o.tok.toNat (if s.votes o = 0 then s.nextPc (.brv o) else brTarget o s.pc) := by
  have began := State.entering_began ready.agent hc (.brv o)
  rw [← s.entering_active (.brv o)] at acts
  rw [← s.entering_votes (.brv o), ← s.entering_passing (.brv o)] at uniform
  refine ⟨_, execBrv_next ready hc (brvCourse_uniform s.pc (s.nextPc (.brv o)) (by rw [began]; exact closed) acts uniform), ?_⟩
  have opens := State.openToken_opens ((s.entering_hasAgent (.brv o)).trans ready.agent) ((s.entering_cur _).trans hc) o.tok.isLt
    (if s.votes o = 0 then s.nextPc (.brv o) else brTarget o s.pc)
  rw [s.entering_votes]
  obtain ⟨pc, active, regs, rest, token, others⟩ := opens
  rw [began] at regs token others
  rw [s.entering_active] at active token
  exact ⟨pc, active, regs, rest.trans (s.entering_rest _), token, others⟩

theorem execBrv_open (isOpen : ((s.course c).token o.tok.toNat).isOpen = true) (can : CanTrap s c) :
    ∃ t, exec (.brv o) s = .next t ∧ Traps s t c k tBarrier 127 s.pc 0 0 := by
  rw [execBrv_error ready hc (brvCourse_open _ _ (by rw [State.entering_began ready.agent hc]; exact isOpen))]
  exact settleExn_traps ready.agent hc can rfl (by decide) ..

end

/-- An ejected lane takes or passes the branch alone (R138). -/
theorem execBrv_lane {q : Nat} (hq : s.cur = .lane q) :
    ∃ t, exec (.brv o) s = .next t ∧ Goes (if s.votes o = 0 then s.nextPc (.brv o) else brTarget o s.pc) {} s t := by
  refine ⟨_, (exec_brv o s).trans (instr_next ready ?_), goes_of_work (i := .brv o) ready.agent (Frame.refl {} _) rfl rfl _⟩
  dsimp only
  rw [(s.entering_cur _).trans hq, s.entering_votes]
  exact congrArg (fun pc => Except.ok (State.setPc _ pc)) (ite_not ..)

end

/-- Settles O8: an open token is a fault before any effect; else the token is opened unless no lane acts, and the PC goes the lanes'
one way. -/
theorem brvUniform : Obligations.BrvUniform := by
  intro s o target next taken ready
  have at_target : brTarget o s.pc = target := brTarget_eq o s.pc
  refine ⟨fun c k hc closed => ⟨fun idle => execBrv_idle ready hc closed idle, fun acts uniform => ?_⟩,
    fun c k hc isOpen can => execBrv_open ready hc isOpen can, fun q hq => at_target ▸ execBrv_lane ready hq⟩
  have one : s.votes o = 0 ∨ s.passing o = 0 := uniform.imp id fun all => by
    rw [State.passing, show s.votes o = s.active from all, BitVec.and_not_self]
  obtain ⟨t, runs, pc, active, regs, rest, token, others⟩ := execBrv_uniform ready hc closed acts one
  exact ⟨t, runs, at_target ▸ pc, active, regs, rest, token, others⟩

end Sys2Proof.Machine
end


section
/-!
SUPPORT. Laws of the settling of a course's tokens (R133, R134, R141): what it leaves of the course, and when there is nothing to settle.
-/

namespace Sys2Proof.Machine

/-! ### The registers stay (R343) -/

section
variable (s : State) (c : Nat)

theorem State.modToken_file (n : Nat) (f : Token → Token) : ((s.modToken c n f).course c).file = (s.course c).file :=
  s.modCourse_same c Course.file c

theorem State.deliver_file (t : Trap) : ((s.deliver c t).course c).file = (s.course c).file := by
  have entered : ((s.enterTrap c t).course c).file = (s.course c).file := s.modCourse_same c Course.file c
  unfold State.deliver
  dsimp only
  split
  · split
    · exact s.killCourse_file c _
    · exact entered
  · split
    · exact s.killCourse_file c _
    · exact entered

theorem State.raise_file (t : Trap) : ((s.raise c t).course c).file = (s.course c).file := by
  have posted : ((s.postTrap c t).course c).file = (s.course c).file := s.modCourse_same c Course.file c
  unfold State.raise
  dsimp only
  split
  · rfl
  · split
    · exact posted
    · split
      · exact posted
      · exact s.deliver_file c t

theorem Course.addSplit_file (x : Course) (y : Split) : (x.addSplit y).file = x.file :=
  (congrArg Course.file (x.addSplit_unsplit y) :)

theorem State.closeToken_file (n : Nat) (first : Nat × Split) : ((s.closeToken c n first).course c).file = (s.course c).file :=
  (State.modToken_file _ c n _).trans (s.modCourse_same c Course.file c)

theorem State.reviveToken_file (n : Nat) : ((s.reviveToken c n).course c).file = (s.course c).file := by
  unfold State.reviveToken
  dsimp only
  split
  · exact s.modToken_file c n _
  · split
    · exact (State.modToken_file _ c n _).trans (s.modCourse_same c Course.file c fun x => x.addSplit_file _)
    · exact (State.modToken_file _ c n _).trans (s.modCourse_same c Course.file c fun x => x.addSplit_file _)

theorem State.settleToken_file (n : Nat) : ((s.settleToken c n).course c).file = (s.course c).file := by
  unfold State.settleToken
  dsimp only
  split
  · rfl
  · split
    · split
      · rfl
      · exact s.reviveToken_file c n
    · split
      · split
        · rfl
        · exact (State.raise_file _ c _).trans (s.modToken_file c n _)
      · exact s.closeToken_file c n _

theorem State.settle_file : ((s.settle c).course c).file = (s.course c).file := by
  have tokens : (((List.range 8).foldl (fun t n => t.settleToken c n) s).course c).file = (s.course c).file :=
    foldl_same (fun t : State => (t.course c).file) _ _ (fun t n => t.settleToken_file c n) s
  unfold State.settle
  dsimp only
  split
  · rfl
  · split
    · exact tokens
    · refine (State.raise_file _ c _).trans ?_
      split
      · exact (State.modToken_file _ c _ _).trans tokens
      · exact tokens

end

/-! ### Nothing to settle (R133, R134) -/

section
variable {s : State} {c : Nat}

theorem State.split_getElem? {k : Nat} (there : s.hasSplit c k) : (s.course c).splits[k]? = some (s.split c k) := by
  rw [List.getElem?_eq_getElem there.2]
  simp [State.split, there.2]

theorem State.settleToken_notFull {n : Nat} (h : (s.course c).tokenFull n = false) : s.settleToken c n = s := by
  simp [State.settleToken, h]

/-- A split that has members and waits at no REGANG may go on, so that no wait is for ever. -/
theorem State.deadToken_free {k : Nat} (hm : (s.split c k).m ≠ 0) (hw : ∀ n, (s.split c k).wait ≠ .regang n) :
    s.deadToken c = none := by
  have hk : k < (s.course c).splits.length := by
    by_contra absent
    refine hm ?_
    simp only [State.split, List.getD_eq_getElem?_getD, List.getElem?_eq_none (Nat.le_of_not_lt absent)]
    rfl
  have hs : ((s.course c).splits[k], k) ∈ (s.course c).splits.zipIdx := List.mem_zipIdx_iff_getElem?.mpr (by simp [hk])
  have hx : (s.course c).splits[k] = s.split c k := by simp [State.split, hk]
  have fewer (g : Split × Nat → Option Nat) (hg : g ((s.course c).splits[k], k) = none) :
      (((s.course c).splits.zipIdx.filter fun e => e.1.m != 0).filterMap g).length
        ≠ ((s.course c).splits.zipIdx.filter fun e => e.1.m != 0).length :=
    (List.length_filterMap_lt_length_iff_exists.mpr ⟨_, List.mem_filter.mpr ⟨hs, by simpa [hx] using hm⟩, hg⟩).ne
  unfold State.deadToken
  refine if_pos ?_
  rw [Bool.or_eq_true, bne_iff_ne]
  refine .inr (fewer _ ?_)
  split
  case h_1 n hn => exact absurd (hx ▸ hn) (hw n)
  case h_2 => rfl

/-- A course no split of which waits at a REGANG is not stuck there. -/
theorem State.deadToken_none (hw : ∀ y ∈ (s.course c).splits, ∀ n, y.wait ≠ .regang n) : s.deadToken c = none := by
  by_cases empty : ((s.course c).splits.zipIdx.filter fun e => e.1.m != 0) = []
  · unfold State.deadToken
    exact if_pos (by rw [empty]; rfl)
  · obtain ⟨⟨y, k⟩, hy⟩ := List.exists_mem_of_ne_nil _ empty
    obtain ⟨hy, hm⟩ := List.mem_filter.mp hy
    have at_k := List.mem_zipIdx_iff_getElem?.mp hy
    have split : s.split c k = y := by simp [State.split, List.getD_eq_getElem?_getD, at_k]
    exact State.deadToken_free (k := k) (by rw [split]; simpa using hm) (by rw [split]; exact hw y (List.mem_of_getElem? at_k))

/-- Where no token is full and no wait is for ever, the course stays as it is. -/
theorem State.settle_idle (notFull : ∀ n < 8, (s.course c).tokenFull n = false) (alive : s.deadToken c = none) : s.settle c = s := by
  have tokens : (List.range 8).foldl (fun t n => t.settleToken c n) s = s := by
    refine List.foldlRecOn (motive := (· = s)) _ _ rfl fun t ht n hn => ?_
    subst ht
    exact State.settleToken_notFull (notFull n (List.mem_range.mp hn))
  unfold State.settle
  simp only [tokens, alive, ite_self]

theorem Course.tokenFull_closed {x : Course} {n : Nat} (h : (x.token n).isOpen = false) : x.tokenFull n = false := by
  simp [Course.tokenFull, h]

theorem Course.token_closed {x : Course} (shut : ∀ y ∈ x.tokens, y.isOpen = false) (n : Nat) : (x.token n).isOpen = false := by
  rw [Course.token, List.getD_eq_getElem?_getD]
  cases ht : x.tokens[n]? with
  | none => rfl
  | some y => exact shut y (List.mem_of_getElem? ht)

end

end Sys2Proof.Machine
end


section
/-!
SUPPORT. Laws of page-fault records (R354, R355): a store of the device's own beside which no chunk is under way, and what a record that
is written or joined leaves.
-/

namespace Sys2Proof.Machine

/-! ### Stores of the device's own -/

theorem Bytes.storeRaced {s : State} (h : Bytes s) (pol pa : Nat) (bs : List Byte) : Bytes (s.storeRaced pol pa bs) := by
  obtain ⟨sh, n, e⟩ := s.raceShadows_state .none pol none (.phys pa) bs
  refine Bytes.storeBytes ?_ pol pa _
  rw [e]
  exact h.of_eq rfl rfl rfl rfl

theorem Bytes.hostStore {s : State} (h : Bytes s) (pa : Nat) (bs : List Byte) : Bytes (s.hostStore pa bs) := by
  refine Bytes.foldl _ (fun t ln ht => ?_) (h.storeRaced 0 pa bs) _
  have clean := ht.cleanLine ln
  dsimp only
  split
  · exact clean
  · exact ⟨clean.mem, Cells.wf_erase [] clean.wb _, fun e he => clean.lines e (List.mem_of_mem_filter he), clean.held, clean.stream⟩

/-- What lies beside memory is the same where all beside memory is. -/
theorem State.aside_same {s t : State} (g : State → γ) (h : t.aside = s.aside)
    (beside : ∀ u, g u.aside = g u := by exact fun _ => rfl) :
    g t = g s :=
  (beside t).symm.trans ((congrArg g h).trans (beside s))

/-- A store of the device's own changes memory and caches alone, where no chunk is under way. -/
theorem State.hostStore_alone {s : State} (hs : s.shadows = []) (pa : Nat) (bs : List Byte) : (s.hostStore pa bs).aside = s.aside := by
  refine (foldl_same State.aside _ _ (fun t ln => ?_) _).trans ?_
  · dsimp only
    split
    · exact t.cleanLine_aside ln
    · exact t.cleanLine_aside ln
  · rw [State.storeRaced_none hs]
    exact s.storeBytes_aside 0 pa bs

theorem State.hostStore_shadows {s : State} (hs : s.shadows = []) (pa : Nat) (bs : List Byte) : (s.hostStore pa bs).shadows = [] :=
  (State.aside_same State.shadows (State.hostStore_alone hs pa bs)).trans hs

/-- Bytes that read the same one by one read the same. -/
theorem State.readBytes_same {s t : State} {pa n : Nat} (h : ∀ i < n, t.wbByte (pa + i) = s.wbByte (pa + i)) :
    t.readBytes 0 pa n = s.readBytes 0 pa n :=
  List.map_congr_left fun i hi => h i (List.mem_range.mp hi)

/-! ### The party's fault takes a record -/

theorem State.joinRecord_pageOf {s : State} {p : Party} {f : PageFault} (h : s.pageOf p = some f) (r : Nat) :
    (s.joinRecord r p).pageOf p = some { f with record := some r } := by
  have recorded {w : Wait} (hw : w.pageFault = some f) : (w.withRecord r).pageFault = some { f with record := some r } := by
    cases w with
    | page va kind wr ex lane scale record since win =>
      cases hw
      rfl
    | _ => exact nomatch hw
  cases p with
  | course c k =>
    have there : s.hasSplit c k := State.hasSplit_of_wait fun ready => by
      rw [State.pageOf, ready] at h
      exact nomatch h
    rw [State.joinRecord, State.pageOf, State.modSplit_split_self there]
    exact recorded h
  | lane q =>
    have there : q < s.lanes.length := by
      by_contra absent
      have ready : (s.lane q).wait = .ready := by
        rw [State.lane, List.getD_eq_getElem?_getD, List.getElem?_eq_none (Nat.le_of_not_lt absent)]
        rfl
      rw [State.pageOf, ready] at h
      exact nomatch h
    rw [State.joinRecord, State.pageOf, State.modLane_lane _ _ _ _ there, if_pos rfl]
    exact recorded h
  | copy i =>
    simp only [State.pageOf] at h
    cases hy : s.copies[i]? with
    | none => simp [hy] at h
    | some y =>
      cases hp : y.page with
      | none => simp [hy, hp] at h
      | some e =>
        obtain rfl : _ = f := by simpa [hy, hp] using h
        simp [State.joinRecord, State.pageOf, hy, hp]
  | op i =>
    simp only [State.pageOf] at h
    cases hy : s.ops[i]? with
    | none => simp [hy] at h
    | some y =>
      cases hp : y.page with
      | none => simp [hy, hp] at h
      | some e =>
        obtain rfl : _ = f := by simpa [hy, hp] using h
        simp [State.joinRecord, State.pageOf, hy, hp]

section
variable (s : State) (r : Nat) (p : Party)

@[simp] theorem State.joinRecord_vectors : (s.joinRecord r p).vectors = s.vectors := by cases p <;> rfl
@[simp] theorem State.joinRecord_ctx (x : Nat) : (s.joinRecord r p).ctx x = s.ctx x := by cases p <;> rfl
@[simp] theorem State.joinRecord_saveIx (x i : Nat) : (s.joinRecord r p).saveIx x i = s.saveIx x i := by cases p <;> rfl
@[simp] theorem State.joinRecord_readBytes (pol pa n : Nat) : (s.joinRecord r p).readBytes pol pa n = s.readBytes pol pa n := by
  cases p <;> rfl

end

/-- What a party waits for stands beside memory. -/
theorem State.pageOf_aside (s : State) (p : Party) : s.aside.pageOf p = s.pageOf p := by cases p <;> rfl

@[simp] theorem length_pageRecord (f : PageFault) (source course block launch : Nat) :
    (pageRecord f source course block launch).length = 32 := by simp [pageRecord]

/-! ### A new record, and one that is joined (R355) -/

/-- The record that the fault `f` of party `p` becomes. -/
def State.recordOf (s : State) (p : Party) (f : PageFault) : List Byte :=
  pageRecord { f with lane := s.pageLane f p } (partySource p f.scale.isSome) (s.course (s.partyCourse p)).index
    (s.block (s.course (s.partyCourse p)).block).index (s.launchOf (s.partyCourse p)).id

/-- Record `head` of context place `x` is written and the head moves past it. -/
def State.writeRecord (s : State) (x head : Nat) (bytes : List Byte) : State :=
  (s.hostStore (s.pfSlot x head) bytes).setSaveIx x 4 (head + 1)

/-- The context at place `x` has the record pending, and its vector is raised. -/
def State.noteRecord (s : State) (x : Nat) (r : PfRec) : State := (s.raiseVector x).modCtx x fun y => { y with pfs := y.pfs ++ [r] }

section
variable (s : State) (x : Nat) (r : PfRec)

theorem State.noteRecord_pageOf (p : Party) : (s.noteRecord x r).pageOf p = s.pageOf p := by cases p <;> rfl
theorem State.noteRecord_readBytes (pol pa n : Nat) : (s.noteRecord x r).readBytes pol pa n = s.readBytes pol pa n := rfl
theorem State.noteRecord_vectors : (s.noteRecord x r).vectors = (s.ctx x).vector :: s.vectors := rfl

theorem State.noteRecord_saveIx (y i : Nat) : (s.noteRecord x r).saveIx y i = s.saveIx y i := by
  rw [State.noteRecord, State.saveIx, State.modCtx_saveBase _ x _ (by exact fun _ => rfl)]
  rfl

theorem State.noteRecord_ctx {x : Nat} (there : x < s.ctxs.length) :
    (s.noteRecord x r).ctx x = { s.ctx x with pfs := (s.ctx x).pfs ++ [r] } :=
  State.modCtx_ctx_self (s.raiseVector x) there _

end

section
variable {s : State} (hs : s.shadows = []) (x head : Nat) (bytes : List Byte)
include hs

theorem State.writeRecord_alone : (s.writeRecord x head bytes).aside = s.aside :=
  (State.hostStore_alone (State.hostStore_shadows hs _ _) _ _).trans (State.hostStore_alone hs _ _)

theorem State.writeRecord_same (g : State → γ) (beside : ∀ u, g u.aside = g u := by exact fun _ => rfl) :
    g (s.writeRecord x head bytes) = g s :=
  State.aside_same g (State.writeRecord_alone hs x head bytes) beside

variable (h : Bytes s) (host : isHost (s.saveBase x) = true)
include h host

theorem Bytes.writeRecord_head : (s.writeRecord x head bytes).saveIx x 4 = (head + 1) % 2 ^ 64 := by
  have base := s.hostStore_saveBase (s.pfSlot x head) bytes x
  have quiet := State.hostStore_shadows hs (s.pfSlot x head) bytes
  have all := h.hostStore (s.pfSlot x head) bytes
  rw [State.writeRecord]
  generalize s.hostStore (s.pfSlot x head) bytes = u at base quiet all ⊢
  rw [← base] at host
  exact all.saveIx_setSaveIx quiet (by decide) host _

/-- Index `i` of the save area stands apart from its records. -/
theorem Bytes.wbByte_setSaveIx {i k : Nat} (hi : i < 16) (hk : 128 ≤ k) (n : Nat) :
    (s.setSaveIx x i n).wbByte (s.saveBase x + k) = s.wbByte (s.saveBase x + k) := by
  obtain ⟨j, base⟩ := saveBase_aligned s x
  have line := saveBase_line host (k := 8 * i) (by omega)
  rw [State.setSaveIx]
  generalize s.saveBase x = a at base line ⊢
  rw [h.wbByte_hostStore hs (List.ne_nil_of_length_pos (by simp)) (by simp; omega) (soleLine_host _ line), length_natLe,
    if_neg (by omega)]

theorem Bytes.writeRecord_bytes (len : bytes.length = 32) : (s.writeRecord x head bytes).readBytes 0 (s.pfSlot x head) 32 = bytes := by
  obtain ⟨j, base⟩ := saveBase_aligned s x
  obtain ⟨k, hk, slot⟩ : ∃ k, (128 ≤ k ∧ k + 32 < 0x100000 ∧ k % 32 = 0) ∧ s.pfSlot x head = s.saveBase x + k :=
    ⟨_, by omega, Nat.add_assoc ..⟩
  have line := saveBase_line host (k := k) (by omega)
  have same := s.hostStore_saveBase (s.pfSlot x head) bytes x
  have quiet := State.hostStore_shadows hs (s.pfSlot x head) bytes
  have all := h.hostStore (s.pfSlot x head) bytes
  rw [State.writeRecord]
  rw [slot] at same quiet all ⊢
  have written := h.readBytes_hostStore hs (pa := s.saveBase x + k) (bs := bytes) (by omega) line (k := 0) (n := 32) (by decide) (by omega)
  rw [List.drop_zero, List.take_of_length_le (by omega), Nat.add_zero] at written
  generalize s.hostStore (s.saveBase x + k) bytes = u at same quiet all written ⊢
  rw [← same] at host written ⊢
  refine (State.readBytes_same fun i _ => ?_).trans written
  have kept := Bytes.wbByte_setSaveIx quiet x all host (i := 4) (k := k + i) (by decide) (by omega) (head + 1)
  rwa [← Nat.add_assoc] at kept

end

section
variable {s : State} {p : Party} {f : PageFault} (fault : s.pageOf p = some f) (hs : s.shadows = [])
include fault hs

omit fault hs in
theorem State.recordPage_written {x : Nat} (new : ∀ r ∈ (s.ctx x).pfs, r.unit ≠ f.va.toNat / 65536 ∨ r.kind ≠ f.kind)
    (room : s.saveIx x 4 + 1 ≤ s.saveIx x 5 + 1024) (hx : s.ctxOf (s.partyCourse p) = x) :
    s.recordPage p f = ((s.writeRecord x (s.saveIx x 4) (s.recordOf p f)).noteRecord x
      ⟨s.saveIx x 4, f.va.toNat / 65536, f.kind⟩).joinRecord (s.saveIx x 4) p := by
  have none : (s.ctx x).pfs.find? (fun r => r.unit == f.va.toNat / 65536 && r.kind == f.kind) = none :=
    List.find?_eq_none.mpr fun r hr => by simpa [imp_iff_not_or] using new r hr
  unfold State.recordPage
  dsimp only
  rw [hx, none, State.writeRecord, State.recordOf, State.noteRecord]
  dsimp only
  rw [if_neg (Nat.not_lt.mpr room)]

/-- A fault whose unit and kind no pending record names gets one, in the ring of its context. -/
theorem State.recordPage_new (h : Bytes s) {x : Nat} (hx : s.ctxOf (s.partyCourse p) = x) (there : x < s.ctxs.length)
    (host : isHost (s.saveBase x) = true) (new : ∀ r ∈ (s.ctx x).pfs, r.unit ≠ f.va.toNat / 65536 ∨ r.kind ≠ f.kind)
    (room : s.saveIx x 4 + 1 ≤ s.saveIx x 5 + 1024) :
    let t := s.recordPage p f
    t.pageOf p = some { f with record := some (s.saveIx x 4) } ∧ t.saveIx x 4 = (s.saveIx x 4 + 1) % 2 ^ 64
      ∧ t.vectors = (s.ctx x).vector :: s.vectors
      ∧ (t.ctx x).pfs = (s.ctx x).pfs ++ [⟨s.saveIx x 4, f.va.toNat / 65536, f.kind⟩]
      ∧ t.readBytes 0 (s.pfSlot x (s.saveIx x 4)) 32 = s.recordOf p f := by
  have ctx : (s.writeRecord x (s.saveIx x 4) (s.recordOf p f)).ctx x = s.ctx x := State.writeRecord_same hs _ _ _ (·.ctx x)
  have vectors := State.writeRecord_same hs x (s.saveIx x 4) (s.recordOf p f) State.vectors
  have placed : x < (s.writeRecord x (s.saveIx x 4) (s.recordOf p f)).ctxs.length :=
    (State.writeRecord_same hs _ _ _ (·.ctxs.length)).symm ▸ there
  dsimp only
  rw [State.recordPage_written new room hx]
  refine ⟨State.joinRecord_pageOf ?_ _, ?_, ?_, ?_, ?_⟩
  · rw [State.noteRecord_pageOf, State.writeRecord_same hs _ _ _ (·.pageOf p) (State.pageOf_aside · p), fault]
  · rw [State.joinRecord_saveIx, State.noteRecord_saveIx, Bytes.writeRecord_head hs _ _ _ h host]
  · rw [State.joinRecord_vectors, State.noteRecord_vectors, ctx, vectors]
  · rw [State.joinRecord_ctx, State.noteRecord_ctx _ _ placed, ctx]
  · rw [State.joinRecord_readBytes, State.noteRecord_readBytes, Bytes.writeRecord_bytes hs _ _ (s.recordOf p f) h host]
    exact length_pageRecord ..

/-- A fault whose unit and kind a pending record names joins it, and no vector is raised. -/
theorem State.recordPage_joins {r : PfRec} (pending : (s.ctx (s.ctxOf (s.partyCourse p))).pfs.find?
      (fun r => r.unit == f.va.toNat / 65536 && r.kind == f.kind) = some r) :
    (s.recordPage p f).pageOf p = some { f with record := some r.index } ∧ (s.recordPage p f).vectors = s.vectors := by
  unfold State.recordPage
  dsimp only
  rw [pending]
  dsimp only
  have alone := State.hostStore_alone hs (s.pfSlot (s.ctxOf (s.partyCourse p)) r.index + 7)
    [s.readByte 0 (s.pfSlot (s.ctxOf (s.partyCourse p)) r.index + 7) ||| BitVec.ofNat 8 (pageBits f)]
  refine ⟨State.joinRecord_pageOf ?_ _, ?_⟩
  · exact (State.aside_same (·.pageOf p) alone (State.pageOf_aside · p)).trans fault
  · exact (State.joinRecord_vectors ..).trans (State.aside_same State.vectors alone)

end

end Sys2Proof.Machine
end


section
/-!
Traps that come in, time out or arise without an instruction: TRAP_ENTRY, WATCHDOG, EJECT_OVERDUE (R142, R345, R349).
-/

namespace Sys2Proof.Machine

/-! ### What a trap asks of a course, and the course's tokens -/

section
variable {s : State} {c : Nat} (n : Nat) (f : Token → Token)

theorem State.modToken_coreOf (d : Nat) : (s.modToken c n f).coreOf d = s.coreOf d := by
  have block : ((s.modToken c n f).course d).block = (s.course d).block := s.modCourse_same c Course.block d
  exact congrArg (fun b => (s.block b).core) block

theorem State.modToken_launchOf (d : Nat) : (s.modToken c n f).launchOf d = s.launchOf d := by
  have block : ((s.modToken c n f).course d).block = (s.course d).block := s.modCourse_same c Course.block d
  exact congrArg (fun b => s.launch (s.block b).launch) block

theorem State.modToken_handlers (core : Nat) : (s.modToken c n f).handlers core = s.handlers core := by
  unfold State.handlers
  rw [← List.countP_eq_length_filter, ← List.countP_eq_length_filter]
  simp only [State.modToken_coreOf]
  exact zipIdx_modify _ _ _ _ _ fun _ _ => rfl

theorem State.modToken_trapsWait (core : Nat) : (s.modToken c n f).trapsWait core = s.trapsWait core := by
  unfold State.trapsWait
  rw [Bool.eq_iff_iff, List.any_eq_true, List.any_eq_true, ← List.countP_pos_iff, ← List.countP_pos_iff]
  simp only [State.modToken_coreOf]
  exact Eq.to_iff (congrArg (0 < ·) (zipIdx_modify _ _ _ _ _ fun _ _ => rfl))

/-- A course that can take a trap can do so whatever its tokens hold. -/
theorem CanTrap.modToken (h : CanTrap s c) : CanTrap (s.modToken c n f) c := by
  refine ⟨?_, ?_, ?_, ?_, ?_, ?_⟩
  · exact (s.modCourse_same c Course.place c).trans h.resident
  · exact (s.modCourse_same c (·.trap.level) c).trans h.level
  · rw [State.modToken_launchOf]; exact h.handler
  · exact (s.modCourse_same c Course.leaving c).trans h.stays
  · rw [State.modToken_coreOf, State.modToken_handlers]; exact h.room
  · rw [State.modToken_coreOf, State.modToken_trapsWait]; exact h.first

end

/-! ### TRAP_ENTRY (R345) -/

/-- Trap `e`, the oldest of those that the course owes, is due outside trap level. -/
theorem State.trapDue_first {s : State} {c : Nat} {e : Trap} {rest : List Trap} (pending : (s.course c).pending = e :: rest)
    (resident : (s.course c).place = .resident) (stays : (s.course c).leaving = none) (shut : (s.course c).win = none)
    (level : (s.course c).trap.level = false) (running : s.ctxRuns c = true)
    (turn : s.noHandler c = true ∨ s.handlers (s.coreOf c) < 4 ∧ ∀ d, d ≠ c → s.coreOf d = s.coreOf c →
      (s.course d).place = .resident → (s.course d).trap.level = false → ∀ u ∈ (s.course d).pending, e.raised ≤ u.raised) :
    s.trapDue c = some e := by
  have room : (s.noHandler c
      || (decide (s.handlers (s.coreOf c) < Config.handlersPerCore)
        && ((List.range s.courses.length).filter fun d =>
            d != c && s.coreOf d == s.coreOf c && (s.course d).place == .resident && !(s.course d).trap.level).all
          fun d => (s.course d).pending.all fun u => decide (e.raised ≤ u.raised))) = true := by
    rw [Bool.or_eq_true, Bool.and_eq_true, decide_eq_true_eq, List.all_eq_true]
    refine turn.imp_right (And.imp_right fun older d hd => ?_)
    simp only [List.mem_filter, Bool.and_eq_true, bne_iff_ne, beq_iff_eq, Bool.not_eq_true'] at hd
    obtain ⟨-, ⟨⟨other, core⟩, place⟩, low⟩ := hd
    exact List.all_eq_true.mpr fun u hu => decide_eq_true (older d other core place low u hu)
  unfold State.trapDue
  simp only [pending, level, Bool.not_false, Bool.true_or, List.find?_cons_of_pos, resident, stays, shut, running, Bool.false_or, room]
  rfl

/-- Two changes that do the same to a course do the same to the state. -/
theorem State.modCourse_congr {s : State} {c : Nat} {f g : Course → Course} (h : f (s.course c) = g (s.course c)) :
    s.modCourse c f = s.modCourse c g := by
  refine congrArg (fun l => { s with courses := l }) (List.ext_getElem? fun d => ?_)
  rw [List.getElem?_modify, List.getElem?_modify]
  by_cases e : c = d
  · subst e
    cases there : s.courses[c]? with
    | none => rfl
    | some x =>
      have : s.course c = x := by simp [State.course, there]
      simpa [this] using h
  · simp [e]

/-- The course owes trap `e` no more, and of the others its service traps alone. -/
def State.owing (s : State) (c : Nat) (rest : List Trap) : State :=
  s.modCourse c fun y => { y with pending := rest.filter fun u => u.code == tSvc }

section
variable {s : State} {c : Nat} {e : Trap} {rest : List Trap}

theorem execTrapEntry_due (pending : (s.course c).pending = e :: rest) (due : s.trapDue c = some e) :
    exec (.trapEntry c) s = .next ((s.owing c rest).deliver c e) := by
  have gone : s.modCourse c (fun x => { x with pending := (x.pending.erase e).filter fun u => u.code == tSvc }) = s.owing c rest :=
    State.modCourse_congr (by rw [pending, List.erase_cons_head])
  show execTrapEntry c s = _
  unfold execTrapEntry
  rw [due, ← gone]

theorem State.owing_launchOf : (s.owing c rest).launchOf c = s.launchOf c := by
  have block : ((s.owing c rest).course c).block = (s.course c).block := s.modCourse_same c Course.block c
  exact congrArg (fun b => s.launch (s.block b).launch) block

theorem State.owing_level : ((s.owing c rest).course c).trap.level = (s.course c).trap.level := s.modCourse_same c (·.trap.level) c

theorem State.owing_splits : ((s.owing c rest).course c).splits = (s.course c).splits := s.modCourse_same c Course.splits c

variable (pending : (s.course c).pending = e :: rest) (level : (s.course c).trap.level = false) (hc : c < s.courses.length)
  (due : s.trapDue c = some e)
include pending level hc due

theorem execTrapEntry_enters (handler : (s.launchOf c).desc.handler ≠ 0) (hk : e.split < (s.course c).splits.length) :
    ∃ t, exec (.trapEntry c) s = .next t
      ∧ Traps (s.owing c rest) t c e.split e.code e.lane e.pc e.addr e.info e.window e.batch.toList := by
  have some : (s.owing c rest).noHandler c = false := by
    simpa [State.noHandler, State.owing_launchOf] using handler
  have low : ((s.owing c rest).course c).trap.level = false := State.owing_level.trans level
  have enters : (s.owing c rest).deliver c e = (s.owing c rest).enterTrap c e := by simp [State.deliver, low, some]
  exact ⟨(s.owing c rest).enterTrap c e, (execTrapEntry_due pending due).trans (by rw [enters]),
    State.enterTrap_taken ((s.modCourse_length ..).symm ▸ hc) (State.owing_splits.symm ▸ hk) low⟩

theorem execTrapEntry_kills (handler : (s.launchOf c).desc.handler = 0) (live : (s.course c).place ≠ .ended) :
    ∃ t k, exec (.trapEntry c) s = .next t ∧ (t.course c).place = .ended ∧ (t.course c).kill = some k ∧ k.reason = 2
      ∧ k.trap = e := by
  have none : (s.owing c rest).noHandler c = true := by simpa [State.noHandler, State.owing_launchOf] using handler
  have low : ((s.owing c rest).course c).trap.level = false := State.owing_level.trans level
  have kills : (s.owing c rest).deliver c e =
      (s.owing c rest).killCourse c { reason := 2, trap := e, cause := causeWord e false } := by
    simp [State.deliver, low, none]
  have live : ((s.owing c rest).course c).place ≠ .ended := by
    rwa [State.owing, s.modCourse_same c Course.place c]
  obtain ⟨place, k, kill, reason, trap, -⟩ := State.killCourse_killed ((s.modCourse_length ..).symm ▸ hc) live
    { reason := 2, trap := e, cause := causeWord e false }
  exact ⟨_, k, (execTrapEntry_due pending due).trans (by rw [kills]), place, kill, reason, trap⟩

end

/-! ### WATCHDOG (R349) -/

theorem execWatchdog_due {s : State} {c : Nat} (hc : c < s.courses.length) (live : (s.course c).place ≠ .ended)
    (level : (s.course c).trap.level = true) (long : 2 ^ 24 ≤ s.trapTime c) :
    ∃ t k, exec (.watchdog c) s = .next t ∧ (t.course c).place = .ended ∧ (t.course c).kill = some k ∧ k.reason = 4
      ∧ k.cause = 0x19 := by
  have due : s.watchdogDue c = true := by
    rw [State.watchdogDue, level, decide_eq_true long]
    rfl
  generalize ht : ({ code := tWatchdog, pc := (s.split c (s.course c).trap.split).pc, split := (s.course c).trap.split } : Trap) = e
  obtain ⟨place, k, kill, reason, -, cause⟩ := State.killCourse_killed hc live { reason := 4, trap := e, cause := causeWord e false }
  exact ⟨_, k, (if_pos due).trans (by rw [ht]), place, kill, reason, cause.trans (by rw [← ht]; rfl)⟩

/-! ### EJECT_OVERDUE (R142) -/

theorem firstWaiting_mem {l : List (Nat × Split)} {e : Nat × Split} (h : firstWaiting l = some e) : e ∈ l := by
  have found : ∀ y, firstWaiting l = some y → y ∈ l := by
    unfold firstWaiting
    refine List.foldlRecOn (motive := fun best : Option (Nat × Split) => ∀ y, best = some y → y ∈ l) _ _ (by simp)
      fun best ih x hx y hy => ?_
    split at hy
    · exact Option.some.inj hy ▸ hx
    · split at hy
      · exact Option.some.inj hy ▸ hx
      · exact ih y hy
  exact found e h

/-- A split that waits at a REGANG is one of the course's. -/
theorem Course.mem_waitingAt {x : Course} {n k : Nat} {y : Split} :
    (k, y) ∈ x.waitingAt n ↔ x.splits[k]? = some y ∧ y.m ≠ 0 ∧ y.wait = .regang n := by
  simp only [Course.waitingAt, List.mem_map, List.mem_filter, Prod.exists, Prod.mk.injEq, Bool.and_eq_true, bne_iff_ne, beq_iff_eq,
    List.mem_zipIdx_iff_getElem?]
  constructor
  · rintro ⟨z, j, ⟨hz, members, waits⟩, rfl, rfl⟩
    exact ⟨hz, members, waits⟩
  · rintro ⟨hy, members, waits⟩
    exact ⟨y, k, ⟨hy, members, waits⟩, rfl, rfl⟩

/-- The timers of ejected lanes run where the course is on its core outside trap level, with no latch window open. -/
theorem State.ejectTimer_runs {s : State} {c n : Nat} {start : Option Nat} {time : Nat} (h : s.ejectTimer c n start time = true) :
    (s.course c).place = .resident ∧ (s.course c).leaving = none ∧ (s.course c).win = none := by
  simp only [State.ejectTimer, Bool.and_eq_true, beq_iff_eq, Option.isNone_iff_eq_none] at h
  obtain ⟨⟨⟨⟨⟨⟨place, stays⟩, -⟩, -⟩, shut⟩, -⟩, -⟩ := h
  exact ⟨place, stays, shut⟩

theorem execEjectOverdue_due {s : State} {c n k : Nat} {y : Split} (hc : c < s.courses.length) (due : s.overdueDue c n = true)
    (first : firstWaiting ((s.course c).waitingAt n) = some (k, y)) (can : CanTrap s c) :
    let u := s.modToken c n fun z => { z with arrived := z.arrived &&& ~~~y.m, hardTimer := none }
    ∃ t, exec (.ejectOverdue c n) s = .next t
      ∧ Traps u t c k 0x0E 127 y.pc 0 (BitVec.ofNat 64 (s.outstanding c n).length) := by
  have at_k := (Course.mem_waitingAt.mp (firstWaiting_mem first)).1
  have timer := due
  simp only [State.overdueDue, Bool.and_eq_true] at timer
  have shut := (State.ejectTimer_runs timer.1.1).2.2
  intro u
  have can : CanTrap u c := can.modToken ..
  have here : c < u.courses.length := (s.modCourse_length ..).symm ▸ hc
  have win : (u.course c).win = none := (s.modCourse_same c Course.win c).trans shut
  have splits : (u.course c).splits = (s.course c).splits := s.modCourse_same c Course.splits c
  refine ⟨_, ?_, State.enterTrap_taken here
    (e := { code := tEjectOverdue, pc := y.pc, info := BitVec.ofNat 64 (s.outstanding c n).length, split := k })
    (by rw [splits]; exact (List.getElem?_eq_some_iff.mp at_k).1) can.level⟩
  rw [← State.raise_taken can fun h => by rw [win] at h; cases h]
  show execEjectOverdue c n s = _
  unfold execEjectOverdue
  rw [first]
  exact if_pos due

end Sys2Proof.Machine
end


section
/-!
Courses and ejected lanes that leave, come back or go on: LANE_REJOIN, EJECT_SOFT_PARK, PAGE_FAULT_PARK, COURSE_RESTORE, SLEEP_EXPIRE,
CHECKPOINT_COPY (R139, R142, R354, R357, R363, R369), and the statement of the events of courses and ejected lanes.
-/

namespace Sys2Proof.Machine

/-! ### An ejected lane rejoins (R139) -/

/-- Lane `q` is done, and its course and its token have what it brings along. -/
def State.rejoinLane (s : State) (q : Nat) : State :=
  let x := s.lane q
  let s1 := (s.modLane q fun y => { y with st := .done, wait := .ready }).modCourse x.course fun c =>
    { c with
      regs := { c.regs with
        v := x.outs.foldl (fun m r => Cells.set 0 m (96 * r + x.lane) (Cells.get 0 x.regs.v (96 * r + x.lane))) c.regs.v
        vst := x.outs.foldl (fun m r => writeWords false r (Mask.one x.lane) m) c.regs.vst
        flags := (c.regs.takeFlags x.regs).flags, late := (c.regs.takeFlags x.regs).late }
      dirty := x.outs.foldl (fun m r => Cells.set false m r true) c.dirty }
  s1.modToken x.course x.tok fun k =>
    { k with back := k.back ||| Mask.one x.lane, after := max k.after x.sight.time, nextPc := some x.next }

theorem State.rejoinLane_lane {s : State} {q : Nat} (hq : q < s.lanes.length) :
    (s.rejoinLane q).lane q = { s.lane q with st := .done, wait := .ready } := by
  rw [State.rejoinLane]
  dsimp only
  rw [State.modToken, State.modCourse_lane, State.modCourse_lane, State.modLane_lane _ _ _ _ hq, if_pos rfl]

/-- A lane that is done stays so while tokens are settled. -/
theorem State.rejoinLane_done {s : State} {q : Nat} (hq : q < s.lanes.length) (c : Nat) :
    (((s.rejoinLane q).settle c).lane q).st = .done :=
  congrArg Lane.st (State.settle_lane rfl rfl (State.rejoinLane_lane hq) c)

theorem State.rejoinLane_regs {s : State} {q c : Nat} (hc : c < s.courses.length) (own : (s.lane q).course = c) :
    (((s.rejoinLane q).settle c).course c).regs.flags = (s.course c).regs.flags ||| (s.lane q).regs.flags
      ∧ (((s.rejoinLane q).settle c).course c).regs.v = (s.lane q).outs.foldl (fun m r =>
        Cells.set 0 m (96 * r + (s.lane q).lane) (Cells.get 0 (s.lane q).regs.v (96 * r + (s.lane q).lane))) (s.course c).regs.v := by
  subst own
  have file := (State.settle_file (s.rejoinLane q) (s.lane q).course).trans (State.modToken_file ..)
  dsimp only at file
  rw [State.modCourse_course _ _ _ _ (by exact hc), if_pos rfl] at file
  have regs := congrArg Prod.fst file
  exact ⟨(congrArg Regs.flags regs :), (congrArg Regs.v regs :)⟩

theorem execLaneRejoin_due {s : State} {q : Nat} (due : s.rejoinDue q = true) (whole : (s.lane q).outFault = none) :
    exec (.laneRejoin q) s = .next ((s.rejoinLane q).settle (s.lane q).course) := by
  show execLaneRejoin q s = _
  simp only [execLaneRejoin, due, whole, Bool.not_true]
  exact if_neg Bool.false_ne_true

/-! ### A course leaves its core (R142, R354) -/

theorem State.leave_regs (s : State) (c : Nat) (r : Residence) : ((s.leave c r).course c).regs = (s.course c).regs :=
  s.modCourse_same c Course.regs c fun x => by split <;> rfl

theorem State.modToken_token_of_lt {s : State} {c n : Nat} (hc : c < s.courses.length) (hn : n < 8) (f : Token → Token) :
    ((s.modToken c n f).course c).token n = f ((s.course c).token n) := by
  rw [State.modToken, State.modCourse_course _ _ _ _ hc, if_pos rfl]
  simp [Course.token, List.getD_eq_getElem?_getD, hn]

theorem execEjectSoftPark_due {s : State} {c n : Nat} (hc : c < s.courses.length) (hn : n < 8) (due : s.softDue c n = true) :
    ∃ t, exec (.ejectSoftPark c n) s = .next t ∧ (t.course c).leaving = some .parkedEject
      ∧ ((t.course c).token n).softDone = true ∧ (t.course c).regs = (s.course c).regs := by
  have timer := due
  simp only [State.softDue, Bool.and_eq_true] at timer
  obtain ⟨place, stays, -⟩ := State.ejectTimer_runs timer.1
  generalize hu : s.modToken c n (fun y => { y with softDone := true }) = u
  have here : c < u.courses.length := by rw [← hu]; exact (s.modCourse_length ..).symm ▸ hc
  refine ⟨u.leave c .parkedEject, (if_pos due).trans (by rw [hu]), State.leave_self here _ ?_ ?_, ?_, ?_⟩
  · rw [← hu]; exact (s.modCourse_same c Course.place c).trans place
  · rw [← hu]; exact (s.modCourse_same c Course.leaving c).trans stays
  · have tokens : ((u.leave c .parkedEject).course c).token n = (u.course c).token n :=
      u.modCourse_same c (·.token n) c fun x => by split <;> rfl
    rw [tokens, ← hu, State.modToken_token_of_lt hc hn]
  · rw [State.leave_regs, ← hu]
    exact s.modCourse_same c Course.regs c

theorem execPageFaultPark_due {s : State} {c : Nat} (hc : c < s.courses.length) (due : s.pageParkDue c = true) :
    ∃ t, exec (.pageFaultPark c) s = .next t ∧ (t.course c).leaving = some .parkedPage ∧ (t.course c).regs = (s.course c).regs := by
  have here := due
  simp only [State.pageParkDue, Bool.and_eq_true, beq_iff_eq, Option.isNone_iff_eq_none] at here
  obtain ⟨⟨place, stays⟩, -⟩ := here
  exact ⟨_, if_pos due, State.leave_self hc _ place stays, State.leave_regs ..⟩

/-! ### A course comes back (R357) -/

/-- The course as it stands on its core again, before its tokens are settled. -/
def State.backOn (s : State) (c : Nat) : State :=
  let s1 := s.modCourse c fun x =>
    { x with
      place := .resident
      sight := { x.sight with since := s.tick + 1 }
      waitFrom := none
      quotaDue := x.quotaDue || (x.place == .parkedQuota && !x.trap.level)
      trap := if x.place == .parkedPage || x.place == .parkedQuota then
          { x.trap with parked := x.trap.parked + (s.run c - x.parkedAt) } else x.trap
      splits := x.splits.map fun y => { y with wait := y.wait.restored, buf := [] } }
  State.restoreOps { s1 with lanes := s1.lanes.map fun (q : Lane) =>
    if q.course == c then { q with sight := { q.sight with since := s.tick + 1 } } else q } c

theorem State.revive_eq (s : State) (c : Nat) : s.revive c = (s.backOn c).settle c := rfl

theorem State.backOn_file (s : State) (c : Nat) : ((s.backOn c).course c).file = (s.course c).file := s.modCourse_same c Course.file c

theorem Wait.restored_regang {w : Wait} {n : Nat} (h : w.restored = .regang n) : w = .regang n := by
  cases w with
  | regang m => exact h
  | _ => exact nomatch h

/-- A course whose tokens are closed and none of whose splits waits at a REGANG is on its core again. -/
theorem State.revive_place {s : State} {c : Nat} (hc : c < s.courses.length) (shut : ∀ y ∈ (s.course c).tokens, y.isOpen = false)
    (free : ∀ y ∈ (s.course c).splits, ∀ n, y.wait ≠ .regang n) : ((s.revive c).course c).place = .resident := by
  have tokens : ((s.backOn c).course c).tokens = (s.course c).tokens := s.modCourse_same c Course.tokens c
  have splits : ((s.backOn c).course c).splits = (s.course c).splits.map fun y => { y with wait := y.wait.restored, buf := [] } :=
    congrArg Course.splits ((State.modCourse_course s c c _ hc).trans (if_pos rfl))
  have place : ((s.backOn c).course c).place = .resident :=
    congrArg Course.place ((State.modCourse_course s c c _ hc).trans (if_pos rfl))
  rw [State.revive_eq, State.settle_idle (fun n _ => Course.tokenFull_closed (Course.token_closed (tokens ▸ shut) n))
    (State.deadToken_none fun y hy n hn => ?_), place]
  rw [splits] at hy
  obtain ⟨z, hz, rfl⟩ := List.mem_map.mp hy
  exact free z hz n (Wait.restored_regang hn)

/-- The course takes the room that is planned for it. -/
theorem execCourseRestore_room {s : State} {c : Nat} (hc : c < s.courses.length) {r : Room} {n q base : Nat}
    {rest : List (Nat × Nat × Nat)} (room : s.restoreRoom c = some r) (plan : r.plan = (n, q, base) :: rest) :
    ∃ t, exec (.courseRestore c) s = .next t ∧ (t.course c).file = ((s.course c).regs, q, base)
      ∧ ((∀ y ∈ (s.course c).tokens, y.isOpen = false) → (∀ y ∈ (s.course c).splits, ∀ n, y.wait ≠ .regang n) →
          (t.course c).place = .resident) := by
  generalize left : (r.xc.filter (· != c)).foldl (fun s d => s.leave d .evicted) s = u
  have same : u.course c = s.course c ∧ c < u.courses.length := by
    rw [← left]
    refine List.foldlRecOn (motive := fun t : State => t.course c = s.course c ∧ c < t.courses.length) _ _ ⟨rfl, hc⟩
      fun t ht d hd => ?_
    have other : c ≠ d := fun e => by simp [e] at hd
    exact ⟨(t.leave_other other _).trans ht.1, (t.modCourse_length ..).symm ▸ ht.2⟩
  obtain ⟨same, here⟩ := same
  have course : (u.modCourse c fun x => { x with quarter := q, base := base }).course c =
      { s.course c with quarter := q, base := base } := by
    rw [State.modCourse_course _ _ _ _ here, if_pos rfl, same]
  refine ⟨(u.modCourse c fun x => { x with quarter := q, base := base }).revive c, ?_, ?_, fun shut free => ?_⟩
  · show execCourseRestore c s = _
    simp only [execCourseRestore, room, State.takeReturn, plan, left]
  · rw [State.revive_eq, State.settle_file, State.backOn_file, course]
    rfl
  · exact State.revive_place ((u.modCourse_length ..).symm ▸ here) (by rw [course]; exact shut) (by rw [course]; exact free)

/-! ### Sleep ends (R325) -/

theorem execSleepExpire_course {s : State} {c k til : Nat} (sleeps : (s.split c k).wait = .sleep til) (past : til ≤ s.run c)
    (resident : (s.course c).place = .resident) :
    ∃ t, exec (.sleepExpire (.course c k)) s = .next t ∧ t.split c k = { s.split c k with wait := .ready, pc := (s.split c k).next }
      ∧ (∀ j, j ≠ k → t.split c j = s.split c j) ∧ t.rest = s.rest := by
  have there : s.hasSplit c k := State.hasSplit_of_wait (by simp [sleeps])
  refine ⟨s.resume c k, ?_, State.modSplit_split_self there _, fun j hj => ?_, rfl⟩
  · show execSleepExpire (.course c k) s = _
    simp [execSleepExpire, sleeps, resident, past]
  · exact ((s.modSplit_split_cases c k _ c j).resolve_right fun same => hj same.2.1)

theorem execSleepExpire_lane {s : State} {q til : Nat} (sleeps : (s.lane q).wait = .sleep til) (past : til ≤ s.clock) :
    ∃ t, exec (.sleepExpire (.lane q)) s = .next t ∧ t.lane q = { s.lane q with wait := .ready, pc := (s.lane q).next }
      ∧ t.courses = s.courses ∧ t.rest = s.rest := by
  have there : q < s.lanes.length := by
    by_contra absent
    have ready : (s.lane q).wait = .ready := by
      rw [State.lane, List.getD_eq_getElem?_getD, List.getElem?_eq_none (Nat.le_of_not_lt absent)]
      rfl
    rw [ready] at sleeps
    exact nomatch sleeps
  refine ⟨s.resumeLane q, ?_, (State.modLane_lane _ _ _ _ there).trans (if_pos rfl), rfl, rfl⟩
  show execSleepExpire (.lane q) s = _
  simp [execSleepExpire, sleeps, past]

/-! ### A register is copied to the checkpoint (R363, R369) -/

/-- A split that waits for registers to be copied goes on where none of them is dirty any longer. -/
def State.recheckSplit (c : Nat) (s : State) (k : Nat) (y : Split) : State :=
  match y.wait with
  | .ckpt rs => if rs.any fun r => (s.course c).dirtyRegs.contains r then s else s.resume c k
  | _ => s

theorem State.recheckSplit_cases (c : Nat) (s : State) (k : Nat) (y : Split) :
    s.recheckSplit c k y = s ∨ s.recheckSplit c k y = s.resume c k := by
  unfold State.recheckSplit
  split
  · split
    · exact .inl rfl
    · exact .inr rfl
  · exact .inl rfl

theorem State.recheckCkpt_eq (s : State) (c : Nat) : s.recheckCkpt c = s.forSplits c (State.recheckSplit c) := rfl

/-- The splits of a course aside, a recheck changes nothing of it. -/
theorem State.recheckSplit_course (s : State) (c : Nat) (g : Course → γ) (beside : ∀ x l, g { x with splits := l } = g x)
    (k : Nat) (y : Split) :
    g ((State.recheckSplit c s k y).course c) = g (s.course c) := by
  rcases State.recheckSplit_cases c s k y with e | e <;> rw [e]
  exact s.modCourse_same c g c fun x => beside x _

theorem State.recheckCkpt_course (s : State) (c : Nat) (g : Course → γ) (beside : ∀ x l, g { x with splits := l } = g x) :
    g ((s.recheckCkpt c).course c) = g (s.course c) :=
  foldl_same (fun t : State => g (t.course c)) _ _ (fun t (e : Split × Nat) => t.recheckSplit_course c g beside e.2 e.1) s

theorem State.recheckSplit_split (c : Nat) (s : State) (j : Nat) (y : Split) (k : Nat) :
    (State.recheckSplit c s j y).split c k = s.split c k
      ∨ (State.recheckSplit c s j y).split c k = { s.split c k with wait := .ready, pc := (s.split c k).next } := by
  rcases State.recheckSplit_cases c s j y with e | e <;> rw [e]
  · exact .inl rfl
  · exact (s.modSplit_split_cases c j _ c k).imp_right fun changed => changed.2.2

/-- Split `k` is to go on at `next`, while the registers `dirty` of its course are not copied. -/
structure State.Paused (s : State) (c k : Nat) (next : Word) (dirty : Cells Bool) : Prop where
  there : s.hasSplit c k
  next : (s.split c k).next = next
  dirty : (s.course c).dirty = dirty

theorem State.Paused.recheck {s : State} {c k : Nat} {next : Word} {dirty : Cells Bool} (h : s.Paused c k next dirty)
    (j : Nat) (y : Split) :
    (State.recheckSplit c s j y).Paused c k next dirty := by
  refine ⟨?_, ?_, (s.recheckSplit_course c Course.dirty (fun _ _ => rfl) _ _).trans h.dirty⟩
  · rcases State.recheckSplit_cases c s j y with e | e <;> rw [e]
    · exact h.there
    · exact State.modSplit_hasSplit h.there ..
  · rcases State.recheckSplit_split c s j y k with e | e <;> rw [e]
    · exact h.next
    · exact h.next

/-- A split that goes on where it is to does so after another recheck. -/
theorem State.goesOn_recheck {s : State} {c k : Nat} {next : Word} (h : s.goesOn c k next ∧ (s.split c k).next = next)
    (j : Nat) (y : Split) :
    (State.recheckSplit c s j y).goesOn c k next ∧ ((State.recheckSplit c s j y).split c k).next = next := by
  unfold State.goesOn at h ⊢
  rcases State.recheckSplit_split c s j y k with e | e <;> rw [e]
  · exact h
  · exact ⟨⟨rfl, h.2⟩, h.2⟩

/-- A split none of whose registers is dirty goes on. -/
theorem State.recheckCkpt_ends {s : State} {c k : Nat} {rs : List Nat} (waits : (s.split c k).wait = .ckpt rs)
    (clean : ∀ j ∈ rs, j ∉ (s.course c).dirtyRegs) : (s.recheckCkpt c).goesOn c k (s.split c k).next := by
  have there : s.hasSplit c k := State.hasSplit_of_wait (by simp [waits])
  have member : (s.split c k, k) ∈ (s.course c).splits.zipIdx := List.mem_zipIdx_iff_getElem?.mpr (State.split_getElem? there)
  rw [State.recheckCkpt_eq]
  refine (foldl_reaches (Q := fun t : State => t.Paused c k (s.split c k).next (s.course c).dirty)
    (P := fun t : State => t.goesOn c k (s.split c k).next ∧ (t.split c k).next = (s.split c k).next)
    (fun (t : State) (e : Split × Nat) => State.recheckSplit c t e.2 e.1) member (fun t e ht => ht.recheck e.2 e.1)
    (fun t e ht => State.goesOn_recheck ht e.2 e.1) (fun t ht => ?_) ⟨there, rfl, rfl⟩).1
  have regs : (t.course c).dirtyRegs = (s.course c).dirtyRegs := congrArg (List.map Prod.fst) ht.dirty
  have resumes : State.recheckSplit c t k (s.split c k) = t.resume c k := by
    simp only [State.recheckSplit, waits, regs]
    exact if_neg (by simpa using clean)
  have split : (t.resume c k).split c k = { t.split c k with wait := .ready, pc := (t.split c k).next } :=
    State.modSplit_split_self ht.there _
  dsimp only
  rw [resumes, State.goesOn, split]
  exact ⟨⟨rfl, ht.next⟩, ht.next⟩

theorem Cells.mem_erase {α : Type} (m : Cells α) (i j : Nat) : j ∈ (Cells.erase m i).map (·.1) ↔ j ∈ m.map (·.1) ∧ j ≠ i := by
  simp only [Cells.erase, List.mem_map, List.mem_filter, bne_iff_ne]
  constructor
  · rintro ⟨e, ⟨he, other⟩, rfl⟩
    exact ⟨⟨e, he, rfl⟩, other⟩
  · rintro ⟨⟨e, he, rfl⟩, other⟩
    exact ⟨e, ⟨he, other⟩, rfl⟩

theorem execCheckpointCopy_due {s : State} {c : Nat} (hc : c < s.courses.length) (resident : (s.course c).place = .resident)
    (running : s.ctxRuns c = true) (soiled : (s.course c).dirty ≠ []) (r : Nat) :
    ∃ t, exec (.checkpointCopy c r) s = .next t
      ∧ (∀ j, Cells.get false (t.course c).dirty j = (decide (j ≠ r) && Cells.get false (s.course c).dirty j))
      ∧ (t.course c).regs = (s.course c).regs
      ∧ ∀ k rs, (s.split c k).wait = .ckpt rs → (∀ j ∈ rs, j = r ∨ j ∉ (s.course c).dirtyRegs) →
          (t.split c k).wait = .ready ∧ (t.split c k).pc = (s.split c k).next := by
  have due : s.checkpointDue c = true := by simp [State.checkpointDue, resident, running, soiled]
  generalize hu : s.modCourse c (fun x => { x with dirty := Cells.erase x.dirty r }) = u
  have course : u.course c = { s.course c with dirty := Cells.erase (s.course c).dirty r } := by
    rw [← hu, State.modCourse_course _ _ _ _ hc, if_pos rfl]
  refine ⟨u.recheckCkpt c, (if_pos due).trans (by rw [hu]), fun j => ?_, ?_, fun k rs waits clean => ?_⟩
  · rw [u.recheckCkpt_course c Course.dirty fun _ _ => rfl, course, Cells.get_erase]
    by_cases e : j = r <;> simp [e]
  · rw [u.recheckCkpt_course c Course.regs fun _ _ => rfl, course]
  · have split : u.split c k = s.split c k := hu ▸ s.modCourse_split c _ (by exact fun _ => rfl) c k
    rw [← split]
    refine State.recheckCkpt_ends (by rw [split]; exact waits) fun j hj dirty => ?_
    rw [course] at dirty
    obtain ⟨dirty, other⟩ := (Cells.mem_erase ..).mp dirty
    exact (clean j hj).elim other (· dirty)

/-! ### The statement -/

/-- Settles O49: each event's clause from the lemma about what it does where it is due. -/
theorem courseEvents : Obligations.CourseEvents := by
  intro s c hc x running
  refine ⟨?entry, ?unhandled, fun live level long => execWatchdog_due hc live level long, ?passn, ?quarter, ?quoin, ?laneStart, ?rejoin,
    fun n hn due => execEjectSoftPark_due hc hn due, fun n k y _ due first can => execEjectOverdue_due hc due first can, ?restore,
    fun k til sleeps past resident => execSleepExpire_course sleeps past resident,
    fun q til sleeps past => execSleepExpire_lane sleeps past,
    fun r resident running soiled => execCheckpointCopy_due hc resident running soiled r, ?record,
    fun due => execPageFaultPark_due hc due⟩
  case entry =>
    intro e rest pending hk resident stays shut level running handler room turn
    exact execTrapEntry_enters pending level hc (State.trapDue_first pending resident stays shut level running (.inr ⟨room, turn⟩))
      handler hk
  case unhandled =>
    intro e rest pending resident stays shut level running handler
    have none : s.noHandler c = true := by simpa [State.noHandler] using handler
    exact execTrapEntry_kills pending level hc (State.trapDue_first pending resident stays shut level running (.inl none)) handler
      (by rw [show (s.course c).place = _ from resident]; exact nofun)
  case passn =>
    intro j n hj hn
    refine ⟨_, if_pos ⟨hj, hn⟩, ?_, fun i hi => ?_, rfl⟩
    · simp [State.cluster, State.modCluster, Cells.get_update]
    · simp [State.cluster, State.modCluster, Cells.get_update, hi]
  case quarter =>
    intro q hq
    refine ⟨s.replayed q, if_pos hq, ?_, rfl⟩
    rw [State.replayed, Cells.get_update, if_pos rfl]
  case quoin =>
    intro q hq
    refine ⟨_, if_pos hq, ?_, rfl⟩
    rw [Cells.get_update, if_pos rfl]
  case laneStart =>
    intro q at' hq starts past running
    have due : s.laneStartDue q = true := by simp [State.laneStartDue, starts, past, running]
    refine ⟨_, if_pos due, (State.modLane_lane _ _ _ _ hq).trans (if_pos rfl), fun j hj => ?_⟩
    rw [State.modLane_lane _ _ _ _ hq, if_neg hj]
  case rejoin =>
    intro q hq own due whole l
    obtain ⟨flags, v⟩ := State.rejoinLane_regs hc own
    refine ⟨_, execLaneRejoin_due due whole, State.rejoinLane_done hq _, ?_, fun r hr => ?_⟩
    · rw [own]
      exact flags
    · rw [own, v]
      exact Cells.get_foldl_keyed 0 (fun r => 96 * r + (s.lane q).lane) (Cells.get 0 (s.lane q).regs.v) hr _
  case restore =>
    intro r n q base rest room plan
    obtain ⟨t, runs, file, place⟩ := execCourseRestore_room hc room plan
    simp only [Course.file, Prod.mk.injEq] at file
    obtain ⟨regs, quarter, base⟩ := file
    exact ⟨t, runs, quarter, base, regs, place⟩
  case record =>
    intro p f fault unrecorded wf quiet d y head there host
    have runs : exec (.pageFaultRecord p) s = .next (s.recordPage p f) := by
      show execPageFaultRecord p s = _
      simp [execPageFaultRecord, fault, unrecorded]
    refine ⟨fun new room => ?_, fun r pending => ⟨_, runs, State.recordPage_joins fault quiet pending⟩⟩
    exact ⟨_, runs, State.recordPage_new fault quiet ((memoryWf_iff s).mp wf) rfl there host new room⟩

end Sys2Proof.Machine
end


section
/-!
The statement of a collective that cannot complete at once fails: an issue ends the wait of the split that executes, and its lanes
are absent no longer.
-/

namespace Sys2Proof.Machine

/-- The one split of a course on core 0, whose wait at a REGANG is not over. -/
def heldSplit : State := (State.reset.withFetchWord 64 0).modSplit 0 0 fun y => { y with wait := .regang 0 }

/-- A vote of the course's 96 lanes, into p8. -/
def voteOfAll : V4 := ⟨⟨0, false⟩, false, 8, 2, 4, 6, 0, .i32, 0, 0⟩

theorem heldSplit_ready : Ready (.vvote voteOfAll) heldSplit where
  agent := by decide +kernel
  bounds := by decide +kernel
  ejectable := by decide +kernel
  free := by decide +kernel
  sound := by decide +kernel

theorem heldSplit_canTrap : CanTrap heldSplit 0 where
  resident := by decide +kernel
  level := by decide +kernel
  handler := by decide +kernel
  stays := by decide +kernel
  room := by decide +kernel
  first := by decide +kernel

/-- The lanes of the split count as absent, for it waits at the REGANG. -/
theorem heldSplit_absent : (heldSplit.greg (voteOfAll.imm.toNat % 8)).mem &&& heldSplit.absentLanes 0 ≠ 0 := by decide +kernel

/-- The course after the vote. -/
def voteOutcome : Option Course :=
  match exec (.vvote voteOfAll) heldSplit with
  | .next t => some (t.course 0)
  | _ => none

/-- The vote completes and no trap is taken. -/
theorem voteOutcome_level : voteOutcome.map (fun x => x.trap.level) = some false := by decide +kernel

/-- Refutes O33: for a split that executes although its wait at a REGANG stands (here the only split, over all of whose lanes it
votes), its own lanes are among those that the first clause calls absent; but the issue ends that wait before it looks for absent
lanes, so the collective completes and COLLECTIVE_SPLIT is not raised. -/
theorem not_collectiveRendezvous : ¬ Obligations.CollectiveRendezvous := by
  intro holds
  obtain ⟨raises, -⟩ := holds heldSplit voteOfAll 0 0 (.vvote voteOfAll) [] (by decide +kernel) (by simp)
    ⟨heldSplit_ready, fun f hf => nomatch hf⟩
  obtain ⟨t, runs, taken⟩ := raises heldSplit_absent heldSplit_canTrap
  have level : (t.course 0).trap.level = true := congrArg TrapState.level taken.state
  have completes := voteOutcome_level
  rw [voteOutcome, runs] at completes
  simp [level] at completes

end Sys2Proof.Machine
end


section
/-!
SUPPORT. Laws of REGANG's parts (R131 to R133): the re-entries that it pops, the arrival of a split, the deferred set that it takes up,
and the token that it completes.
-/

namespace Sys2Proof.Machine

theorem Mask.exists_has {m : Mask} (h : m ≠ 0) : ∃ l < 96, m.has l = true := by
  by_contra none
  refine h (Mask.ext_has fun l hl => ?_)
  have off : m.has l ≠ true := fun on => none ⟨l, hl, on⟩
  simpa [Mask.has] using off

/-! ### Re-entries that a REGANG pops (R132) -/

/-- The re-entries of token `n` that stand on top in the slices of `m`. -/
def Course.tops (x : Course) (m : Mask) (n : Nat) : List Reentry :=
  (slicesOf m).filterMap fun j =>
    match x.reentry.find? fun r => r.slice == j with
    | some r => if r.tok == n then some r else none
    | none => none

theorem sliceMask_beyond {j : Nat} (h : 24 ≤ j) : sliceMask j = 0 := by
  refine Mask.ext_has fun l hl => ?_
  rw [sliceMask_has j hl, decide_eq_false (by omega)]
  simp [Mask.has]

theorem Course.mem_tops {x : Course} {m : Mask} {n : Nat} {r : Reentry} :
    r ∈ x.tops m n ↔ r.tok = n ∧ m &&& sliceMask r.slice ≠ 0 ∧ x.reentry.find? (fun e => e.slice == r.slice) = some r := by
  simp only [Course.tops, List.mem_filterMap]
  constructor
  · rintro ⟨j, hj, found⟩
    split at found
    case h_1 e he =>
      split at found
      case isTrue tok =>
        obtain rfl := Option.some.inj found
        have slice : e.slice = j := by simpa using List.find?_some he
        subst slice
        exact ⟨by simpa using tok, by simpa using (List.mem_filter.mp hj).2, he⟩
      case isFalse => exact nomatch found
    case h_2 => exact nomatch found
  · rintro ⟨rfl, acts, found⟩
    have low : r.slice < 24 := by
      by_contra high
      exact acts ((sliceMask_beyond (Nat.le_of_not_lt high)).symm ▸ BitVec.and_zero)
    exact ⟨r.slice, List.mem_filter.mpr ⟨List.mem_range.mpr low, by simpa using acts⟩, by simp [found]⟩

/-- The popped re-entries `l` form or join splits, at step `now`. -/
def Course.pop (now : Nat) (l : List Reentry) (h : Bool) (x : Course) : Course :=
  l.foldl (fun y r => y.join now r.pc r.lanes r.lanes h) { x with reentry := l.foldl (fun e r => e.erase r) x.reentry }

theorem State.foldl_joinSplit (s : State) (c : Nat) (h : Bool) (l : List Reentry) (f : Course → Course) :
    l.foldl (fun t r => t.joinSplit c r.pc r.lanes r.lanes h) (s.modCourse c f)
      = s.modCourse c fun x => l.foldl (fun y r => y.join s.tick r.pc r.lanes r.lanes h) (f x) := by
  induction l generalizing f with
  | nil => rfl
  | cons r l ih =>
    rw [List.foldl_cons, State.joinSplit_eq, State.modCourse_modCourse, ih]
    rfl

theorem State.popReentries_eq (s : State) (c k n : Nat) :
    s.popReentries c k n = s.modCourse c (Course.pop s.tick ((s.course c).tops (s.split c k).m n) (s.split c k).handler) :=
  s.foldl_joinSplit c _ _ _

theorem State.modCourse_id (s : State) (c : Nat) : s.modCourse c (fun x => x) = s :=
  congrArg (fun l => { s with courses := l }) (List.modify_id c s.courses)

theorem State.popReentries_none {s : State} {c k n : Nat} (none : (s.course c).tops (s.split c k).m n = []) :
    s.popReentries c k n = s := by
  rw [State.popReentries_eq, none]
  exact s.modCourse_id c

/-- A course without its splits and re-entries. -/
def Course.unstacked (x : Course) : Course := { x with splits := [], reentry := [] }

theorem Course.pop_unstacked (now : Nat) (l : List Reentry) (h : Bool) (x : Course) : (x.pop now l h).unstacked = x.unstacked := by
  refine (foldl_same Course.unstacked _ _ (fun y r => ?_) _).trans rfl
  exact congrArg (fun z : Course => { z with reentry := [] }) (y.join_unsplit now r.pc r.lanes r.lanes h)

/-- A split that has members and stands where no popped re-entry goes on stays as it is. -/
theorem Course.pop_keeps {now i : Nat} {l : List Reentry} {h : Bool} {x : Course} {y : Split} (hy : x.splits[i]? = some y)
    (hm : y.m ≠ 0) (away : ∀ r ∈ l, y.pc ≠ r.pc) : (x.pop now l h).splits[i]? = some y :=
  List.foldlRecOn (motive := fun z : Course => z.splits[i]? = some y) _ _ hy fun _ hz r hr =>
    Course.join_keeps now r.pc r.lanes r.lanes h hz hm (away r hr)

/-- Split `z` stands where `y` does and has at least its lanes. -/
def Split.grows (y z : Split) : Prop := z.m ≠ 0 ∧ z.pc = y.pc ∧ z.wait = y.wait ∧ ∀ l, y.a.has l = true → z.a.has l = true

theorem Split.grows.trans {x y z : Split} (h : x.grows y) (g : y.grows z) : x.grows z := by
  obtain ⟨-, pc, wait, lanes⟩ := h
  obtain ⟨members, pc', wait', lanes'⟩ := g
  exact ⟨members, pc'.trans pc, wait'.trans wait, fun l hl => lanes' l (lanes l hl)⟩

/-- A split that has members keeps its place, and may gain lanes. -/
theorem Course.join_grows (now : Nat) (pc : Word) (m a : Mask) (h : Bool) {x : Course} {i : Nat} {y : Split}
    (hy : x.splits[i]? = some y) (hm : y.m ≠ 0) : ∃ z, (x.join now pc m a h).splits[i]? = some z ∧ y.grows z := by
  have same : y.grows y := ⟨hm, rfl, rfl, fun _ => id⟩
  unfold Course.join
  split
  case h_1 j hj =>
    by_cases e : j = i
    · subst e
      refine ⟨{ y with m := y.m ||| m, a := y.a ||| a }, by simp [hy], fun empty => hm (BitVec.or_eq_zero_iff.mp empty).1, rfl, rfl,
        fun l hl => ?_⟩
      rw [Mask.has_or, hl, Bool.true_or]
    · exact ⟨y, (List.getElem?_modify_ne _ _ e).trans hy, same⟩
  case h_2 => exact ⟨y, (x.addSplit_splits _).2 i y hy hm, same⟩

theorem Course.pop_grows {now i : Nat} {l : List Reentry} {h : Bool} {x : Course} {y : Split} (hy : x.splits[i]? = some y)
    (hm : y.m ≠ 0) : ∃ z, (x.pop now l h).splits[i]? = some z ∧ y.grows z := by
  refine List.foldlRecOn (motive := fun x : Course => ∃ z, x.splits[i]? = some z ∧ y.grows z) _ _ ⟨y, hy, hm, rfl, rfl, fun _ => id⟩
    fun x hx r _ => ?_
  obtain ⟨z, hz, grows⟩ := hx
  obtain ⟨w, hw, more⟩ := Course.join_grows now r.pc r.lanes r.lanes h hz grows.1
  exact ⟨w, hw, grows.trans more⟩

/-- The lanes `a` are active in a split that may issue at `pc`. -/
def Course.runsAt (x : Course) (pc : Word) (a : Mask) : Prop :=
  ∃ (i : Nat) (y : Split), x.splits[i]? = some y ∧ y.m ≠ 0 ∧ y.pc = pc ∧ (y.wait = .ready ∨ y.wait = .stalled)
    ∧ ∀ l, a.has l = true → y.a.has l = true

theorem Course.join_runsAt (now : Nat) (pc : Word) {m : Mask} (a : Mask) (h : Bool) (x : Course) (hm : m ≠ 0) :
    (x.join now pc m a h).runsAt pc a := by
  unfold Course.join
  split
  case h_1 i hi =>
    obtain ⟨hi, stands, -⟩ := List.findIdx?_eq_some_iff_getElem.mp hi
    obtain ⟨members, free, at_pc, -⟩ := Split.stands_iff.mp stands
    refine ⟨i, { x.splits[i] with m := x.splits[i].m ||| m, a := x.splits[i].a ||| a }, by simp [hi],
      fun empty => members (BitVec.or_eq_zero_iff.mp empty).1, at_pc, free, fun l hl => ?_⟩
    rw [Mask.has_or, hl, Bool.or_true]
  case h_2 =>
    obtain ⟨i, at_i⟩ := List.mem_iff_getElem?.mp (x.addSplit_splits { pc := pc, m := m, a := a, last := now, handler := h }).1
    exact ⟨i, _, at_i, hm, rfl, .inl rfl, fun _ => id⟩

theorem Course.runsAt.join {x : Course} {pc : Word} {a : Mask} (held : x.runsAt pc a) (now : Nat) (pc' : Word) (m' a' : Mask) (h : Bool) :
    (x.join now pc' m' a' h).runsAt pc a := by
  obtain ⟨i, y, hy, hm, at_pc, free, lanes⟩ := held
  obtain ⟨z, hz, members, pc, wait, more⟩ := Course.join_grows now pc' m' a' h hy hm
  exact ⟨i, z, hz, members, pc.trans at_pc, wait.symm ▸ free, fun l hl => more l (lanes l hl)⟩

/-- Each popped re-entry with a lane goes on at its PC. -/
theorem Course.pop_runsAt {now : Nat} {l : List Reentry} {h : Bool} {x : Course} {r : Reentry} (hr : r ∈ l) (hm : r.lanes ≠ 0) :
    (x.pop now l h).runsAt r.pc r.lanes :=
  foldl_reaches (Q := fun _ => True) (P := fun y : Course => y.runsAt r.pc r.lanes) _ hr (fun _ _ => id)
    (fun _ e held => held.join now e.pc e.lanes e.lanes h) (fun y _ => y.join_runsAt now r.pc r.lanes h hm) trivial

/-! ### Tokens that are not full (R133) -/

section
variable {s : State} {c k : Nat} (there : s.hasSplit c k)
include there

theorem State.modToken_notFull {n j : Nat} (other : j ≠ n) (f : Token → Token) (h : (s.course c).tokenFull j = false) :
    ((s.modToken c n f).course c).tokenFull j = false := by
  by_cases hj : j < 8
  · have token := State.modToken_token_other there hj other f
    have exited : ((s.modToken c n f).course c).exited = (s.course c).exited := s.modCourse_same c Course.exited c
    unfold Course.tokenFull
    rw [token, exited]
    exact h
  · refine Course.tokenFull_closed ?_
    rw [State.modToken_course there, Course.token, List.getD_eq_getElem?_getD, List.getElem?_eq_none (by simpa using hj)]
    rfl

omit there in
theorem State.closeToken_token {n : Nat} (hc : c < s.courses.length) (hn : n < 8) (e : Nat × Split) :
    ((s.closeToken c n e).course c).token n = {} :=
  State.modToken_token_of_lt ((s.modCourse_length ..).symm ▸ hc) hn _

/-- A full token that is waited for and has no fault to report closes, and there is no more to settle. -/
theorem State.settle_closes {n : Nat} {e : Nat × Split} (hn : n < 8) (resident : (s.course c).place = .resident)
    (full : (s.course c).tokenFull n = true) (others : ∀ j, j ≠ n → (s.course c).tokenFull j = false)
    (first : firstWaiting ((s.course c).waitingAt n) = some e) (sound : ((s.course c).token n).faulted = [])
    (alive : (s.closeToken c n e).deadToken c = none) : s.settle c = s.closeToken c n e := by
  have closes : s.settleToken c n = s.closeToken c n e := by
    unfold State.settleToken
    simp only [full, first, sound, Bool.not_true]
    exact if_neg Bool.false_ne_true
  have quiet (j : Nat) : ((s.closeToken c n e).course c).tokenFull j = false := by
    by_cases ej : j = n
    · subst ej
      exact Course.tokenFull_closed (by rw [State.closeToken_token there.1 hn])
    · unfold State.closeToken
      dsimp only
      generalize hu : s.modCourse c _ = u
      have here : u.hasSplit c k := by
        subst hu
        refine ⟨(s.modCourse_length ..).symm ▸ there.1, ?_⟩
        rw [State.modCourse_course _ _ _ _ there.1, if_pos rfl]
        simpa using there.2
      have same : (u.course c).tokenFull j = (s.course c).tokenFull j := hu ▸ s.modCourse_same c (·.tokenFull j) c
      exact State.modToken_notFull here ej _ (same.trans (others j ej))
  have tokens : (List.range 8).foldl (fun t j => t.settleToken c j) s = s.closeToken c n e := by
    refine foldl_reaches (Q := fun t => t = s ∨ t = s.closeToken c n e) (P := fun t => t = s.closeToken c n e) _
      (List.mem_range.mpr hn) (fun t j ht => ?_) (fun t j ht => ?_) (fun t ht => ?_) (.inl rfl)
    · rcases ht with rfl | rfl
      · by_cases ej : j = n
        · exact .inr (ej ▸ closes)
        · exact .inl (State.settleToken_notFull (others j ej))
      · exact .inr (State.settleToken_notFull (quiet j))
    · rw [ht, State.settleToken_notFull (quiet j)]
    · rcases ht with rfl | rfl
      · exact closes
      · exact State.settleToken_notFull (quiet n)
  unfold State.settle
  simp only [resident, tokens, alive]
  exact if_neg (by simp)

end

theorem firstWaiting_some {l : List (Nat × Split)} (h : l ≠ []) : ∃ e, firstWaiting l = some e := by
  obtain ⟨a, l, rfl⟩ := List.exists_cons_of_ne_nil h
  refine Option.isSome_iff_exists.mp (foldl_keeps (P := fun best : Option (Nat × Split) => best.isSome = true) _ l (fun best e hb => ?_)
    (some a) rfl)
  obtain ⟨b, rfl⟩ := Option.isSome_iff_exists.mp hb
  dsimp only
  split <;> rfl

/-! ### What one split and one token do (R131) -/

/-- From `s` to `t` split `k` of course `c` changed by `f` and its token `n` by `g`; no other token fills, and nothing else changed. -/
structure Turns (s t : State) (c k n : Nat) (f : Split → Split) (g : Token → Token) : Prop where
  splits : (t.course c).splits = (s.course c).splits.modify k f
  token : (t.course c).token n = g ((s.course c).token n)
  others : ∀ j, j ≠ n → (s.course c).tokenFull j = false → (t.course c).tokenFull j = false
  exited : (t.course c).exited = (s.course c).exited
  regs : (t.course c).regs = (s.course c).regs
  place : (t.course c).place = (s.course c).place
  rest : t.rest = s.rest
  cur : t.cur = s.cur

section
variable {s t u : State} {c k n : Nat} {f f' : Split → Split} {g g' : Token → Token}

theorem Turns.trans (a : Turns s t c k n f g) (b : Turns t u c k n f' g') : Turns s u c k n (f' ∘ f) (g' ∘ g) where
  splits := by rw [b.splits, a.splits, modify_modify]
  token := by rw [b.token, a.token, Function.comp_apply]
  others j other quiet := b.others j other (a.others j other quiet)
  exited := b.exited.trans a.exited
  regs := b.regs.trans a.regs
  place := b.place.trans a.place
  rest := b.rest.trans a.rest
  cur := b.cur.trans a.cur

theorem Turns.hasSplit (a : Turns s t c k n f g) (there : s.hasSplit c k) : t.hasSplit c k := by
  have len : k < (t.course c).splits.length := by rw [a.splits, List.length_modify]; exact there.2
  refine ⟨?_, len⟩
  by_contra absent
  rw [State.course, List.getD_eq_getElem?_getD, List.getElem?_eq_none (Nat.le_of_not_lt absent)] at len
  exact absurd len (Nat.not_lt_zero k)

/-- The split as it stands after its change. -/
theorem Turns.split (a : Turns s t c k n f g) (there : s.hasSplit c k) : t.split c k = f (s.split c k) := by
  simp only [State.split, a.splits, List.getD_eq_getElem?_getD, List.getElem?_modify_eq]
  rw [List.getElem?_eq_getElem there.2]
  rfl

variable (there : s.hasSplit c k)
include there

theorem State.modToken_turns (hn : n < 8) (g : Token → Token) : Turns s (s.modToken c n g) c k n id g where
  splits := by rw [State.modToken_course there, List.modify_id]
  token := State.modToken_token there hn g
  others _ other quiet := State.modToken_notFull there other g quiet
  exited := by rw [State.modToken_course there]
  regs := by rw [State.modToken_course there]
  place := by rw [State.modToken_course there]
  rest := rfl
  cur := rfl

theorem State.modSplit_turns (f : Split → Split) : Turns s (s.modSplit c k f) c k n f id where
  splits := by rw [State.modSplit_course there]
  token := s.modCourse_same c (·.token n) c
  others _ _ quiet := (s.modCourse_same c (·.tokenFull _) c).trans quiet
  exited := by rw [State.modSplit_course there]
  regs := by rw [State.modSplit_course there]
  place := by rw [State.modSplit_course there]
  rest := rfl
  cur := rfl

end

/-! ### A split arrives (R131) -/

/-- Its lanes of `m` count as arrived. -/
def Token.arrive (m : Mask) (next : Word) (y : Token) : Token := { y with arrived := y.arrived ||| (m &&& y.opened), nextPc := some next }

/-- The split waits at REGANG `n` since `now`. -/
def Split.arrive (n now : Nat) (next : Word) (y : Split) : Split := { y with wait := .regang n, since := now, next := next }

/-- The split that executes waits at REGANG `n`, its lanes of `m` having arrived; the timers of ejected lanes run where some are out. -/
def State.arriveAt (s : State) (c n : Nat) (m : Mask) (next : Word) : State :=
  let u := (s.modToken c n (Token.arrive m next)).setWait (.regang n) next
  if (u.outstanding c n).isEmpty then u
  else u.modToken c n fun y => { y with timer := y.timer.or (some (u.run c)), hardTimer := y.hardTimer.or (some (u.run c)) }

theorem State.arriveAt_turns {s : State} {c k n : Nat} (there : s.hasSplit c k) (cur : s.cur = .course c k) (hn : n < 8) (m : Mask)
    (next : Word) : ∃ g, Turns s (s.arriveAt c n m next) c k n (Split.arrive n s.clock next) g
      ∧ ∀ y, ∃ soft hard, g y = { y.arrive m next with timer := soft, hardTimer := hard } := by
  have first := State.modToken_turns there hn (Token.arrive m next)
  have here : (s.modToken c n (Token.arrive m next)).hasSplit c k := State.modToken_hasSplit there ..
  have waits : (s.modToken c n (Token.arrive m next)).setWait (.regang n) next
      = (s.modToken c n (Token.arrive m next)).modSplit c k (Split.arrive n s.clock next) := by
    simp only [State.setWait, first.cur, cur]
    rfl
  have arrived := first.trans (State.modSplit_turns here (Split.arrive n s.clock next))
  have still := State.modSplit_hasSplit here c k (Split.arrive n s.clock next)
  unfold State.arriveAt
  dsimp only
  rw [waits]
  split
  · exact ⟨_, arrived, fun y => ⟨y.timer, y.hardTimer, rfl⟩⟩
  · exact ⟨_, arrived.trans (State.modToken_turns still hn _), fun y => ⟨_, _, rfl⟩⟩

end Sys2Proof.Machine
end


section
/-!
SUPPORT. What a REGANG that has an effect does to its course: it takes up the deferred set, waits for lanes that are still out, or closes
its token (R131 to R133).
-/

namespace Sys2Proof.Machine

/-! ### A token closes over its lanes (R133, R157) -/

/-- The lanes of token `n` that have not exited. -/
def Course.rejoined (x : Course) (n : Nat) : Mask := (x.token n).opened &&& ~~~x.exited

/-- The split that a closed token leaves holds the token's lanes and goes on after the REGANG. -/
theorem State.closeToken_split {s : State} {c n : Nat} {e : Nat × Split} (hc : c < s.courses.length) {y : Split}
    (hy : (s.course c).splits[e.1]? = some y) :
    ∃ z, ((s.closeToken c n e).course c).splits[e.1]? = some z ∧ z.a = (s.course c).rejoined n ∧ z.wait = .ready ∧ z.pc = e.2.next
      ∧ ((s.course c).rejoined n ≠ 0 → z.m ≠ 0) := by
  have splits (u : State) (f : Token → Token) : ((u.modToken c n f).course c).splits = (u.course c).splits :=
    u.modCourse_same c Course.splits c
  unfold State.closeToken
  dsimp only
  rw [splits, State.modCourse_course _ _ _ _ hc, if_pos rfl]
  simp only [List.getElem?_map, List.getElem?_zipIdx, hy, Option.map_some, Nat.zero_add, beq_self_eq_true, if_true]
  refine ⟨_, rfl, rfl, rfl, rfl, fun some none => ?_⟩
  obtain ⟨l, hl, lane⟩ := Mask.exists_has some
  have out := congrArg (Mask.has · l) none
  simp only [Course.rejoined, Mask.has_and, Mask.has_not _ hl, Bool.and_eq_true] at lane
  simp only [Mask.has_and, Mask.has_or, Mask.has_not _ hl, lane.1, lane.2, Bool.true_or, Bool.and_true] at out
  exact absurd out (by simp [Mask.has])

/-! ### A split that executes begins (R135) -/

theorem zipIdx_modify_eq (l : List α) (f : α → α) (k n : Nat) :
    (l.modify k f).zipIdx n = (l.zipIdx n).map fun e => if e.2 = n + k then (f e.1, e.2) else e := by
  refine List.ext_getElem? fun i => ?_
  simp only [List.getElem?_zipIdx, List.getElem?_modify, List.getElem?_map, Option.map_map]
  cases l[i]? with
  | none => rfl
  | some x =>
    by_cases e : k = i
    · simp [e]
    · simp [e, Ne.symm e]

/-- The splits that stall until split `k` issues do so still as it begins. -/
theorem Course.joiners_began (x : Course) (i : Instr) (k : Nat) : (x.began i k).joiners k = x.joiners k := by
  have members : ((x.began i k).splits.getD k default).m = (x.splits.getD k default).m :=
    modify_getD_map x.splits k _ default Split.m fun _ => rfl
  have splits : (x.began i k).splits.zipIdx =
      x.splits.zipIdx.map fun e => if e.2 = k then ({ e.1 with wait := .ready }, e.2) else e := by
    have eq := zipIdx_modify_eq x.splits (fun y => { y with wait := .ready }) k 0
    rwa [Nat.zero_add] at eq
  unfold Course.joiners
  simp only [members, splits, List.filterMap_map]
  refine List.filterMap_congr fun e _ => ?_
  by_cases own : e.2 = k
  · simp [own]
  · simp only [Function.comp_apply, if_neg own]
    rfl

/-! ### A split reaches the REGANG of its token -/

/-- The lanes of token `n` that are still out once those of `m` have arrived (R133). -/
def Course.out (x : Course) (m : Mask) (n : Nat) : Mask :=
  (x.token n).opened &&& ~~~((x.token n).arrived ||| (m &&& (x.token n).opened) ||| x.exited ||| (x.token n).back)

/-- Split `k` with the members `m` reaches the REGANG of token `n`: it holds lanes of the open token, no split waits for it, and no other
token is full. -/
structure Course.Reaches (x : Course) (k n : Nat) (m : Mask) : Prop where
  isOpen : (x.token n).isOpen = true
  mine : m &&& (x.token n).opened ≠ 0
  alone : x.joiners k = []
  quiet : ∀ j, j ≠ n → x.tokenFull j = false

theorem Course.Reaches.members {x : Course} {k n : Nat} {m : Mask} (h : x.Reaches k n m) : m ≠ 0 := fun empty =>
  h.mine (by rw [empty]; exact BitVec.zero_and)

theorem Course.Reaches.began {x : Course} {k n : Nat} {m : Mask} (h : x.Reaches k n m) (i : Instr) : (x.began i k).Reaches k n m :=
  ⟨h.isOpen, h.mine, (x.joiners_began i k).trans h.alone, h.quiet⟩

/-- Token `n` defers the set `d`, of lanes that have neither exited nor come back, to `target`. -/
structure Course.Defers (x : Course) (n : Nat) (d : Mask) (target : Word) : Prop where
  deferred : (x.token n).deferred = some (d, target)
  lanes : d ≠ 0
  inside : d &&& ~~~(x.token n).opened = 0
  apart : d &&& (x.exited ||| (x.token n).back) = 0

/-- Where no set is deferred, the split arrives and waits until the token is settled. -/
theorem regangCourse_arrives {s : State} {c k n : Nat} {next : Word} (there : (s.popReentries c k n).hasSplit c k) (hn : n < 8)
    (whole : (((s.popReentries c k n).course c).token n).deferred = none) :
    regangCourse s c k n next
      = ((s.popReentries c k n).arriveAt c n ((s.popReentries c k n).split c k).m next).settle c := by
  unfold regangCourse
  dsimp only
  rw [State.modToken_token there hn]
  dsimp only
  rw [whole]
  rfl

/-! ### The deferred set is taken up (R131) -/

/-- A token whose deferred set `d` goes on is not full. -/
theorem deferred_notFull {opened arrived gone d : Mask} (some : d ≠ 0) (inside : d &&& ~~~opened = 0) (apart : d &&& gone = 0) :
    opened &&& ~~~(arrived &&& ~~~d ||| gone) ≠ 0 := by
  obtain ⟨l, hl, lane⟩ := Mask.exists_has some
  have within := congrArg (Mask.has · l) inside
  have free := congrArg (Mask.has · l) apart
  refine Mask.ne_zero_of_has (l := l) ?_
  simp only [Mask.has_and, Mask.has_or, Mask.has_not _ hl, lane, Bool.true_and] at within free ⊢
  have opened : opened.has l = true := by simpa [Mask.has] using within
  have off : gone.has l = false := by simpa [Mask.has] using free
  simp [opened, off]

/-- The token gives its deferred set `d` up, whose lanes are out once more; lanes of `m` outside it rejoin at the merge. -/
def Token.release (d m : Mask) (y : Token) : Token :=
  { y with deferred := none, arrived := y.arrived &&& ~~~d, outside := y.outside ||| (m &&& ~~~y.opened) }

/-- The split goes on at `target` with the lanes `d`. -/
def Split.takeUp (d : Mask) (target : Word) (y : Split) : Split := { y with m := d, a := d, pc := target }

section
variable {s : State} {c k n : Nat} (there : s.hasSplit c k) (hn : n < 8) (reaches : (s.course c).Reaches k n (s.split c k).m)
include there hn reaches

/-- Split `k` takes up the deferred set `d` at `target`. -/
theorem regangCourse_deferred {d : Mask} {target next : Word} (free : ∀ i, (s.split c k).wait ≠ .regang i)
    (none : (s.course c).tops (s.split c k).m n = []) (defers : (s.course c).Defers n d target) :
    Turns s (regangCourse s c k n next) c k n (Split.takeUp d target)
      (Token.release d (s.split c k).m ∘ Token.arrive (s.split c k).m next) := by
  obtain ⟨deferred, lanes, inside, apart⟩ := defers
  have first := State.modToken_turns there hn (Token.arrive (s.split c k).m next)
  have here : (s.modToken c n (Token.arrive (s.split c k).m next)).hasSplit c k := State.modToken_hasSplit there ..
  have second := first.trans (State.modToken_turns here hn (Token.release d (s.split c k).m))
  have here := State.modToken_hasSplit here n (Token.release d (s.split c k).m)
  have turns := second.trans (State.modSplit_turns here (Split.takeUp d target))
  have work : regangCourse s c k n next = State.settle (((s.modToken c n (Token.arrive (s.split c k).m next)).modToken c n
      (Token.release d (s.split c k).m)).modSplit c k (Split.takeUp d target)) c := by
    have token : (((s.modToken c n (Token.arrive (s.split c k).m next)).course c).token n).deferred = some (d, target) := by
      rw [State.modToken_token there hn]
      exact deferred
    unfold regangCourse
    rw [State.popReentries_none none]
    dsimp only
    split
    case h_1 d' target' found =>
      obtain ⟨rfl, rfl⟩ := Prod.mk.inj (Option.some.inj (found.symm.trans token))
      rfl
    case h_2 found => exact nomatch found.symm.trans token
  have split := turns.split there
  generalize State.modSplit _ c k (Split.takeUp d target) = u at work turns split
  have notFull : ((u.course c).tokenFull n) = false := by
    have some := deferred_notFull (arrived := ((s.course c).token n).arrived ||| ((s.split c k).m &&& ((s.course c).token n).opened))
      lanes inside apart
    simp only [Course.tokenFull, turns.token, turns.exited]
    simpa [Token.release, Token.arrive, BitVec.or_assoc] using fun _ => some
  have settled : u.settle c = u := State.settle_idle
    (fun j _ => if e : j = n then e ▸ notFull else turns.others j e (reaches.quiet j e))
    (State.deadToken_free (k := k) (by rw [split]; exact lanes) (by rw [split]; exact free))
  rw [work, settled]
  exact turns

end

/-! ### The split arrives, and lanes are still out (R131, R132) -/

section
variable {s : State} {c k n : Nat} (there : s.hasSplit c k)
include there

theorem State.popReentries_course : (s.popReentries c k n).course c
    = (s.course c).pop s.tick ((s.course c).tops (s.split c k).m n) (s.split c k).handler := by
  rw [State.popReentries_eq, State.modCourse_course _ _ _ _ there.1, if_pos rfl]

theorem State.popReentries_unstacked : ((s.popReentries c k n).course c).unstacked = (s.course c).unstacked := by
  rw [State.popReentries_course there, Course.pop_unstacked]

variable (members : (s.split c k).m ≠ 0) (away : ∀ r ∈ (s.course c).tops (s.split c k).m n, (s.split c k).pc ≠ r.pc)
include members away

/-- The split that executes is not one that a popped re-entry joins. -/
theorem State.popReentries_own : (s.popReentries c k n).hasSplit c k ∧ (s.popReentries c k n).split c k = s.split c k := by
  have own : ((s.popReentries c k n).course c).splits[k]? = some (s.split c k) := by
    rw [State.popReentries_course there]
    exact Course.pop_keeps (State.split_getElem? there) members away
  obtain ⟨here, -⟩ := List.getElem?_eq_some_iff.mp own
  refine ⟨⟨?_, here⟩, ?_⟩
  · rw [State.popReentries_eq, State.modCourse_length]
    exact there.1
  · rw [State.split, List.getD_eq_getElem?_getD, own]
    rfl

end

section
variable {s : State} {c k n : Nat} (there : s.hasSplit c k) (cur : s.cur = .course c k) (hn : n < 8)
  (reaches : (s.course c).Reaches k n (s.split c k).m) (whole : ((s.course c).token n).deferred = none)
include there cur hn reaches whole

/-- The lanes that are still out keep the token open, and another split that can run the course alive. -/
theorem regangCourse_waits {next : Word} (away : ∀ r ∈ (s.course c).tops (s.split c k).m n, (s.split c k).pc ≠ r.pc)
    (runs : ∃ j, j ≠ k ∧ (s.split c j).m ≠ 0 ∧ (s.split c j).wait = .ready) (out : (s.course c).out (s.split c k).m n ≠ 0) :
    ∃ g, Turns (s.popReentries c k n) (regangCourse s c k n next) c k n (Split.arrive n s.clock next) g
      ∧ ∀ y, ∃ soft hard, g y = { y.arrive (s.split c k).m next with timer := soft, hardTimer := hard } := by
  have same := State.popReentries_unstacked there (n := n)
  obtain ⟨here, own⟩ := State.popReentries_own there reaches.members away
  have course := State.popReentries_course there (n := n)
  have clock : (s.popReentries c k n).clock = s.clock := by rw [State.popReentries_eq]; rfl
  have v_cur : (s.popReentries c k n).cur = .course c k := by rw [State.popReentries_eq]; exact cur
  have token (j : Nat) : ((s.popReentries c k n).course c).token j = (s.course c).token j := (congrArg (Course.token · j) same :)
  have exited : ((s.popReentries c k n).course c).exited = (s.course c).exited := (congrArg Course.exited same :)
  have full (j : Nat) : ((s.popReentries c k n).course c).tokenFull j = (s.course c).tokenFull j := by
    simp only [Course.tokenFull, token, exited]
  have work := regangCourse_arrives (next := next) here hn (by rw [token]; exact whole)
  rw [own] at work
  obtain ⟨g, turns, arrives⟩ := State.arriveAt_turns here v_cur hn (s.split c k).m next
  rw [clock] at turns
  generalize (s.popReentries c k n).arriveAt c n (s.split c k).m next = u at work turns
  have notFull : (u.course c).tokenFull n = false := by
    obtain ⟨soft, hard, eq⟩ := arrives ((s.course c).token n)
    simp only [Course.tokenFull, turns.token, turns.exited, token, exited, eq]
    simpa [Token.arrive, Course.out] using fun _ => out
  have alive : u.deadToken c = none := by
    obtain ⟨j, other, lanes, ready⟩ := runs
    have there_j : s.hasSplit c j := by
      refine ⟨there.1, ?_⟩
      by_contra absent
      refine lanes ?_
      rw [State.split, List.getD_eq_getElem?_getD, List.getElem?_eq_none (Nat.le_of_not_lt absent)]
      rfl
    obtain ⟨z, hz, more, -, wait, -⟩ := Course.pop_grows (now := s.tick) (l := (s.course c).tops (s.split c k).m n)
      (h := (s.split c k).handler) (State.split_getElem? there_j) lanes
    rw [← course] at hz
    have split : u.split c j = z := by
      simp [State.split, turns.splits, List.getD_eq_getElem?_getD, Ne.symm other, hz]
    exact State.deadToken_free (k := j) (by rw [split]; exact more) fun i => by rw [split, wait, ready]; exact nofun
  have settled : u.settle c = u := State.settle_idle
    (fun j _ => if e : j = n then e ▸ notFull else turns.others j e ((full j).trans (reaches.quiet j e))) alive
  exact ⟨g, by rw [work, settled]; exact turns, arrives⟩

/-! ### The last lanes arrive (R133) -/

/-- The token closes over its lanes, which go on from the REGANG of the split that waits for it longest. -/
theorem regangCourse_closes {next : Word} (resident : (s.course c).place = .resident)
    (none : (s.course c).tops (s.split c k).m n = []) (sound : ((s.course c).token n).faulted = [])
    (lasting : (s.course c).rejoined n ≠ 0) (out : (s.course c).out (s.split c k).m n = 0) :
    ∃ j y z, (s.course c).splits[j]? = some y ∧ ((regangCourse s c k n next).course c).splits[j]? = some z
      ∧ z.a = (s.course c).rejoined n ∧ z.wait = .ready
      ∧ (j = k ∧ z.pc = next ∨ j ≠ k ∧ y.wait = .regang n ∧ z.pc = y.next)
      ∧ (((regangCourse s c k n next).course c).token n).isOpen = false
      ∧ ((regangCourse s c k n next).course c).regs = (s.course c).regs
      ∧ (regangCourse s c k n next).rest = s.rest ∧ (regangCourse s c k n next).cur = s.cur := by
  have pops := State.popReentries_none none
  have work := regangCourse_arrives (s := s) (c := c) (k := k) (next := next) (by rw [pops]; exact there) hn (by rw [pops]; exact whole)
  rw [pops] at work
  obtain ⟨g, turns, arrives⟩ := State.arriveAt_turns there cur hn (s.split c k).m next
  obtain ⟨soft, hard, eq⟩ := arrives ((s.course c).token n)
  have here := turns.hasSplit there
  generalize s.arriveAt c n (s.split c k).m next = u at work turns here
  have token : (u.course c).token n = _ := turns.token.trans eq
  have full : (u.course c).tokenFull n = true := by
    simp only [Course.tokenFull, token, turns.exited]
    simpa [Token.arrive, reaches.isOpen, Course.out] using out
  have rejoined : (u.course c).rejoined n = (s.course c).rejoined n := by
    simp [Course.rejoined, token, turns.exited, Token.arrive]
  have arrived : (k, Split.arrive n s.clock next (s.split c k)) ∈ (u.course c).waitingAt n := by
    refine Course.mem_waitingAt.mpr ⟨?_, reaches.members, rfl⟩
    rw [turns.splits, List.getElem?_modify_eq, State.split_getElem? there]
    rfl
  obtain ⟨⟨j, y⟩, first⟩ := firstWaiting_some (List.ne_nil_of_mem arrived)
  obtain ⟨at_j, -, waits⟩ := Course.mem_waitingAt.mp (firstWaiting_mem first)
  obtain ⟨z, at_z, lanes, ready, pc, held⟩ := State.closeToken_split (n := n) (e := (j, y)) here.1 at_j
  rw [rejoined] at lanes held
  have alive : (u.closeToken c n (j, y)).deadToken c = Option.none := by
    have split : (u.closeToken c n (j, y)).split c j = z := by
      rw [State.split, List.getD_eq_getElem?_getD, at_z]
      rfl
    exact State.deadToken_free (k := j) (by rw [split]; exact held lasting) fun i => by rw [split, ready]; exact nofun
  have settled := State.settle_closes here hn (turns.place.trans resident) full (fun i e => turns.others i e (reaches.quiet i e)) first
    (by rw [token]; exact sound) alive
  rw [work, settled]
  have rest : ((((u.closeToken c n (j, y)).course c).token n).isOpen = false)
      ∧ ((u.closeToken c n (j, y)).course c).regs = (s.course c).regs
      ∧ (u.closeToken c n (j, y)).rest = s.rest ∧ (u.closeToken c n (j, y)).cur = s.cur := by
    refine ⟨by rw [State.closeToken_token here.1 hn], ?_, turns.rest, turns.cur⟩
    exact (congrArg Prod.fst (u.closeToken_file c n (j, y))).trans turns.regs
  rw [turns.splits, List.getElem?_modify] at at_j
  by_cases own : j = k
  · subst own
    rw [State.split_getElem? there] at at_j
    obtain rfl : Split.arrive n s.clock next (s.split c j) = y := by simpa using at_j
    exact ⟨j, _, z, State.split_getElem? there, at_z, lanes, ready, .inl ⟨rfl, pc⟩, rest⟩
  · have before : (s.course c).splits[j]? = some y := by simpa [Ne.symm own] using at_j
    exact ⟨j, y, z, before, at_z, lanes, ready, .inr ⟨own, waits, pc⟩, rest⟩

end

end Sys2Proof.Machine
end


section
/-!
The statement of REGANG: no effect, arrival, or the rejoin of an ejected lane.
-/

namespace Sys2Proof.Machine

theorem exec_regang (o : Br) (s : State) : exec (.regang o) s = execRegang o s := rfl

/-! ### A split begins its instruction -/

/-- From `s` to `u` split `k` of course `c` has begun instruction `i`: it waits no longer, and no other split changed. -/
structure Begins (s u : State) (i : Instr) (c k : Nat) : Prop where
  there : u.hasSplit c k
  course : u.course c = (s.course c).began i k
  own : u.split c k = { s.split c k with wait := .ready }
  other : ∀ j, j ≠ k → u.split c j = s.split c j
  cur : u.cur = .course c k
  rest : u.rest = s.rest

theorem State.entering_begins {s : State} {c k : Nat} (agent : s.hasAgent = true) (hc : s.cur = .course c k) (i : Instr) :
    Begins s (s.entering i) i c k := by
  have course := State.entering_began agent hc i
  refine ⟨State.entering_hasSplit agent hc i, course, ?_, fun j other => ?_, (s.entering_cur i).trans hc, s.entering_rest i⟩
  · rw [State.split, course]
    exact (getD_modify _ k k _ default fun _ => (State.hasAgent_course agent hc).2).trans (if_pos rfl)
  · rw [State.split, course]
    exact modify_getD_other _ _ _ other

section
variable {s u : State} {i : Instr} {c k : Nat} (b : Begins s u i c k)
include b

theorem Begins.members : (u.split c k).m = (s.split c k).m := by rw [b.own]

theorem Begins.token (n : Nat) : (u.course c).token n = (s.course c).token n := by
  rw [b.course]
  rfl

theorem Begins.reaches {n : Nat} (h : (s.course c).Reaches k n (s.split c k).m) : (u.course c).Reaches k n (u.split c k).m := by
  rw [b.members, b.course]
  exact h.began i

theorem Begins.tops (n : Nat) : (u.course c).tops (u.split c k).m n = (s.course c).tops (s.split c k).m n := by
  rw [b.members, b.course]
  rfl

theorem Begins.out (n : Nat) : (u.course c).out (u.split c k).m n = (s.course c).out (s.split c k).m n := by
  rw [b.members, b.course]
  rfl

theorem Begins.rejoined (n : Nat) : (u.course c).rejoined n = (s.course c).rejoined n := by
  rw [b.course]
  rfl

theorem Begins.regs : (u.course c).regs = (s.course c).regs := by
  rw [b.course]
  rfl

end

/-! ### REGANG of a split -/

section
variable {s : State} {o : Br} {c k : Nat} (ready : Ready (.regang o) s) (hc : s.cur = .course c k)
include ready hc

/-- What a REGANG does, by what its split holds as it begins. -/
theorem execRegang_next {t : State}
    (work : (if !((s.course c).token o.tok.toNat).isOpen || (s.split c k).m &&& ((s.course c).token o.tok.toNat).opened = 0 then
        Except.ok ((s.entering (.regang o)).setPc (s.nextPc (.regang o)))
      else
        match (s.entering (.regang o)).spoilMeet c k true with
        | some v => .ok v
        | none => .ok (regangCourse (s.entering (.regang o)) c k o.tok.toNat (s.nextPc (.regang o)))) = (.ok t : Except Exn State)) :
    exec (.regang o) s = .next t := by
  have begins := State.entering_begins ready.agent hc (.regang o)
  rw [exec_regang]
  refine instr_next ready ?_
  dsimp only
  rw [begins.cur]
  dsimp only
  rw [begins.members, begins.token]
  exact work

theorem execRegang_passes (idle : ((s.course c).token o.tok.toNat).isOpen = false
      ∨ (s.split c k).m &&& ((s.course c).token o.tok.toNat).opened = 0) :
    ∃ t, exec (.regang o) s = .next t ∧ Goes (s.nextPc (.regang o)) {} s t :=
  ⟨_, execRegang_next ready hc (if_pos (by simpa using idle)), goes_of_work ready.agent (Frame.refl {} _) rfl rfl _⟩

variable {n : Nat} (tok : o.tok.toNat = n) (reaches : (s.course c).Reaches k n (s.split c k).m)
include tok reaches

theorem execRegang_acts : exec (.regang o) s = .next (regangCourse (s.entering (.regang o)) c k n (s.nextPc (.regang o))) := by
  subst tok
  have unspoiled : (s.entering (.regang o)).spoilMeet c k true = none := by
    simp [State.spoilMeet, ((State.entering_begins ready.agent hc (.regang o)).reaches reaches).alone]
  refine execRegang_next ready hc ((if_neg (by simpa [reaches.isOpen] using reaches.mine)).trans ?_)
  rw [unspoiled]

theorem execRegang_deferred {d : Mask} {target : Word} (none : (s.course c).tops (s.split c k).m n = [])
    (defers : (s.course c).Defers n d target) :
    ∃ t, exec (.regang o) s = .next t ∧ t.pc = target ∧ t.active = d ∧ t.wait = .ready
      ∧ ((t.course c).token n).deferred = Option.none ∧ (t.course c).regs = (s.course c).regs ∧ t.rest = s.rest := by
  have acts := execRegang_acts ready hc tok reaches
  have begins := State.entering_begins ready.agent hc (.regang o)
  generalize s.entering (.regang o) = u at acts begins
  have turns := regangCourse_deferred begins.there (tok ▸ o.tok.isLt) (begins.reaches reaches) (d := d) (target := target)
    (next := s.nextPc (.regang o)) (by rw [begins.own]; exact nofun) (by rw [begins.tops]; exact none)
    (begins.course ▸ ⟨defers.deferred, defers.lanes, defers.inside, defers.apart⟩)
  have split := turns.split begins.there
  rw [begins.own] at split
  have cur := turns.cur.trans begins.cur
  refine ⟨_, acts, ?_, ?_, ?_, by rw [turns.token]; rfl, turns.regs.trans begins.regs, turns.rest.trans begins.rest⟩
  · simp only [State.pc, cur, split, Split.takeUp]
  · simp only [State.active, cur, split, Split.takeUp]
  · simp only [State.wait, cur, split, Split.takeUp]

variable (whole : ((s.course c).token n).deferred = none)
include whole

theorem execRegang_waits (away : ∀ r ∈ (s.course c).tops (s.split c k).m n, (s.split c k).pc ≠ r.pc)
    (runs : ∃ j, j ≠ k ∧ (s.split c j).m ≠ 0 ∧ (s.split c j).wait = .ready) (out : (s.course c).out (s.split c k).m n ≠ 0) :
    ∃ t, exec (.regang o) s = .next t ∧ t.wait = .regang n ∧ t.pc = s.pc
      ∧ ((t.course c).token n).arrived = ((s.course c).token n).arrived ||| ((s.split c k).m &&& ((s.course c).token n).opened)
      ∧ (t.course c).regs = (s.course c).regs ∧ t.rest = s.rest
      ∧ ∀ r ∈ (s.course c).tops (s.split c k).m n, ∀ l, r.lanes.has l = true →
          ∃ y ∈ (t.course c).splits, y.pc = r.pc ∧ y.a.has l = true ∧ (y.wait = .ready ∨ y.wait = .stalled) := by
  have acts := execRegang_acts ready hc tok reaches
  have begins := State.entering_begins ready.agent hc (.regang o)
  generalize s.entering (.regang o) = u at acts begins
  have pc : (u.split c k).pc = (s.split c k).pc := by rw [begins.own]
  have away : ∀ r ∈ (u.course c).tops (u.split c k).m n, (u.split c k).pc ≠ r.pc := by rw [begins.tops, pc]; exact away
  have runs : ∃ j, j ≠ k ∧ (u.split c j).m ≠ 0 ∧ (u.split c j).wait = .ready := by
    obtain ⟨j, other, free⟩ := runs
    exact ⟨j, other, by rw [begins.other j other]; exact free⟩
  have reaches := begins.reaches reaches
  obtain ⟨g, turns, arrives⟩ := regangCourse_waits begins.there begins.cur (tok ▸ o.tok.isLt) reaches
    (by rw [begins.token]; exact whole) (next := s.nextPc (.regang o)) away runs (by rw [begins.out]; exact out)
  obtain ⟨here, kept⟩ := State.popReentries_own begins.there reaches.members away
  have same := State.popReentries_unstacked begins.there (n := n)
  have token : ((u.popReentries c k n).course c).token n = (s.course c).token n :=
    ((congrArg (Course.token · n) same :) : _ = (u.course c).token n).trans (begins.token n)
  have regs : ((u.popReentries c k n).course c).regs = (s.course c).regs :=
    ((congrArg Course.regs same :) : _ = (u.course c).regs).trans begins.regs
  have beside : (u.popReentries c k n).cur = u.cur ∧ (u.popReentries c k n).rest = u.rest := by
    rw [State.popReentries_eq]
    exact ⟨rfl, rfl⟩
  have split := turns.split here
  rw [kept, begins.own] at split
  have cur := (turns.cur.trans beside.1).trans begins.cur
  obtain ⟨soft, hard, eq⟩ := arrives ((s.course c).token n)
  refine ⟨_, acts, ?_, ?_, ?_, turns.regs.trans regs, (turns.rest.trans beside.2).trans begins.rest, fun r hr l lane => ?_⟩
  · simp only [State.wait, cur, split, Split.arrive]
  · simp only [State.pc, cur, split, Split.arrive, hc]
  · rw [turns.token, token, eq, begins.members]
    rfl
  · rw [← begins.tops] at hr
    have going := Course.pop_runsAt (now := u.tick) (h := (u.split c k).handler) (x := u.course c) hr (Mask.ne_zero_of_has lane)
    rw [← State.popReentries_course begins.there] at going
    obtain ⟨j, y, hy, -, at_pc, free, active⟩ := going
    have apart : k ≠ j := by
      rintro rfl
      rw [State.split_getElem? here, kept] at hy
      exact away r hr (by rw [← at_pc, ← Option.some.inj hy])
    refine ⟨y, List.mem_of_getElem? (i := j) ?_, at_pc, active l lane, free⟩
    rw [turns.splits, List.getElem?_modify_ne _ _ apart]
    exact hy

theorem execRegang_closes (resident : (s.course c).place = .resident) (none : (s.course c).tops (s.split c k).m n = [])
    (sound : ((s.course c).token n).faulted = []) (lasting : (s.course c).rejoined n ≠ 0) (out : (s.course c).out (s.split c k).m n = 0) :
    ∃ t, exec (.regang o) s = .next t ∧ ((t.course c).token n).isOpen = false
      ∧ (t.course c).regs = (s.course c).regs ∧ t.rest = s.rest
      ∧ ((∀ j, (s.split c j).wait ≠ .regang n) → t.pc = s.nextPc (.regang o) ∧ t.active = (s.course c).rejoined n)
      ∧ ∃ y ∈ (t.course c).splits, y.a = (s.course c).rejoined n ∧ y.wait = .ready
        ∧ (y.pc = s.nextPc (.regang o) ∨ ∃ z ∈ (s.course c).splits, z.wait = .regang n ∧ y.pc = z.next) := by
  have acts := execRegang_acts ready hc tok reaches
  have begins := State.entering_begins ready.agent hc (.regang o)
  generalize s.entering (.regang o) = u at acts begins
  obtain ⟨j, y, z, at_j, at_z, lanes, free, goes, closed, regs, rest, cur⟩ := regangCourse_closes begins.there begins.cur
    (tok ▸ o.tok.isLt) (begins.reaches reaches) (by rw [begins.token]; exact whole) (next := s.nextPc (.regang o))
    (by rw [begins.course]; exact resident)
    (by rw [begins.tops]; exact none) (by rw [begins.token]; exact sound) (by rw [begins.rejoined]; exact lasting)
    (by rw [begins.out]; exact out)
  rw [begins.rejoined] at lanes
  have before (other : j ≠ k) : (s.course c).splits[j]? = some y := by
    rw [begins.course] at at_j
    exact (List.getElem?_modify_ne _ _ (Ne.symm other)).symm.trans at_j
  refine ⟨_, acts, closed, regs.trans begins.regs, rest.trans begins.rest, fun first => ?_, z, List.mem_of_getElem? at_z, lanes, free,
    ?_⟩
  · rcases goes with ⟨rfl, pc⟩ | ⟨other, waits, -⟩
    · have split : (regangCourse u c j n (s.nextPc (.regang o))).split c j = z := by
        rw [State.split, List.getD_eq_getElem?_getD, at_z]
        rfl
      simp only [State.pc, State.active, cur, begins.cur, split]
      exact ⟨pc, lanes⟩
    · refine absurd ?_ (first j)
      rw [State.split, List.getD_eq_getElem?_getD, before other]
      exact waits
  · rcases goes with ⟨-, pc⟩ | ⟨other, waits, pc⟩
    · exact .inl pc
    · exact .inr ⟨y, List.mem_of_getElem? (before other), waits, pc⟩

end

/-! ### An ejected lane (R139) -/

section
variable {s : State} {o : Br} {q : Nat} (ready : Ready (.regang o) s) (hq : s.cur = .lane q)
include hq

/-- As the instruction begins, its lane waits no longer. -/
theorem State.entering_laneOwn : s.entering (.regang o) = s.modLane q fun y => { y with wait := .ready } := by
  simp only [State.entering, State.closeWindow, hq, State.clearWait]

include ready

theorem execRegang_lanePasses (elsewhere : (s.lane q).pc ≠ (s.lane q).endPc) :
    ∃ t, exec (.regang o) s = .next t ∧ Goes (s.nextPc (.regang o)) {} s t := by
  refine ⟨(s.entering (.regang o)).setPc (s.nextPc (.regang o)), (exec_regang o s).trans (instr_next ready ?_),
    goes_of_work ready.agent (Frame.refl {} _) rfl rfl _⟩
  have lane := State.modLane_lane s q q (fun y => { y with wait := .ready }) (State.hasAgent_lane ready.agent hq)
  dsimp only
  rw [(s.entering_cur _).trans hq]
  dsimp only
  rw [State.entering_laneOwn hq, lane, if_pos rfl]
  exact if_neg elsewhere

/-- A lane at its end REGANG starts its rejoin. -/
theorem execRegang_laneRejoins (arrived : (s.lane q).pc = (s.lane q).endPc) :
    ∃ t, exec (.regang o) s = .next t
      ∧ t.lane q = { s.lane q with
          wait := .ready, st := .rejoining (s.clock + 16 + ((s.lane q).outs.length + 3) / 4), next := s.nextPc (.regang o) }
      ∧ t.courses = s.courses ∧ t.rest = s.rest := by
  have there := State.hasAgent_lane ready.agent hq
  have lane := State.modLane_lane s q q (fun y => { y with wait := .ready }) there
  refine ⟨(s.modLane q fun y => { y with wait := .ready }).modLane q fun y =>
      { y with st := .rejoining (s.clock + 16 + (y.outs.length + 3) / 4), next := s.nextPc (.regang o) },
    (exec_regang o s).trans (instr_next ready ?_), ?_, rfl, rfl⟩
  · dsimp only
    rw [(s.entering_cur _).trans hq]
    dsimp only
    rw [State.entering_laneOwn hq, lane, if_pos rfl]
    exact if_pos arrived
  · rw [State.modLane_lane _ _ _ _ (by simpa [State.modLane] using there), if_pos rfl, lane, if_pos rfl]

end

/-! ### The statement -/

/-- Lanes that have not exited are left of a token where the split that arrives has any. -/
theorem Course.rejoined_ne_zero {x : Course} {n : Nat} {m : Mask} (mine : m &&& (x.token n).opened ≠ 0)
    (present : m &&& (x.token n).opened &&& x.exited = 0) : x.rejoined n ≠ 0 := by
  obtain ⟨l, hl, lane⟩ := Mask.exists_has mine
  have off := congrArg (Mask.has · l) present
  simp only [Mask.has_and, lane, Bool.true_and] at off
  simp only [Mask.has_and, Bool.and_eq_true] at lane
  have stays : x.exited.has l = false := by simpa [Mask.has] using off
  exact Mask.ne_zero_of_has (l := l) (by rw [Course.rejoined, Mask.has_and, Mask.has_not _ hl, lane.2, stays]; rfl)

/-- Settles O10: what the split's REGANG does by the token's deferred set and the lanes that are still out, and what that of an ejected
lane does by its PC. -/
theorem regang : Obligations.Regang := by
  intro s o ready
  refine ⟨fun c k hc => ?split, fun q hq elsewhere => execRegang_lanePasses ready hq elsewhere, fun q hq arrived => ?lane⟩
  case lane =>
    obtain ⟨t, runs, lane, courses, rest⟩ := execRegang_laneRejoins ready hq arrived
    exact ⟨t, runs, by rw [lane], by rw [lane], by rw [lane], courses, rest⟩
  case split =>
    intro x n tok m mine quiet runs top out
    have tops {r : Reentry} : r ∈ x.tops m n ↔ top r := Course.mem_tops
    have none (untopped : ∀ r, ¬top r) : x.tops m n = [] := List.eq_nil_iff_forall_not_mem.mpr fun r hr => untopped r (tops.mp hr)
    refine ⟨fun idle => execRegang_passes ready hc idle, fun isOpen acts present ⟨resident, alone, others⟩ => ?_⟩
    have reaches : x.Reaches k n m := ⟨isOpen, acts, alone, others⟩
    refine ⟨fun d target deferred untopped lanes inside apart => ?_, fun whole other lasting away => ?_,
      fun whole full untopped sound => ?_⟩
    · exact execRegang_deferred ready hc rfl reaches (none untopped) ⟨deferred, lanes, inside, apart⟩
    · have at_pc : s.pc = (s.split c k).pc := by simp only [State.pc, hc]
      obtain ⟨t, goes, waits, pc, arrived, regs, rest, active⟩ := execRegang_waits ready hc rfl reaches whole
        (fun r hr => at_pc ▸ (away r (tops.mp hr)).1.symm) other lasting
      exact ⟨t, goes, waits, pc, arrived, regs, rest, fun r hr l _ lane => active r (tops.mpr hr) l lane⟩
    · exact execRegang_closes ready hc rfl reaches whole resident (none untopped) sound (Course.rejoined_ne_zero acts present) full

end Sys2Proof.Machine
end
